-- ==== Sys2Proof/Word.lean ====
section
/-!
DEFINITION. Word types of the MB9 (R6, R124) and their plainest arithmetic.
-/
namespace Sys2Proof

/-- A 64-bit word: an instruction word, a clause header, an S register. -/
abbrev Word := BitVec 64

/-- One lane's 32-bit slice of a V register (R124). -/
abbrev Slice := BitVec 32

/-- A set of lane slots: bit l stands for lane l (R73, R360). -/
abbrev Mask := BitVec 32

/-- The smallest addressable unit (R6). -/
abbrev Byte := BitVec 8

/-- The lane slots of a group in ascending order (R9). -/
def laneSlots : List Nat := List.range 32

/-- Is lane `l` in the mask? -/
def Mask.has (m : Mask) (l : Nat) : Bool := m.getLsbD l

/-- The lanes of a mask in ascending lane-slot order. -/
def Mask.lanes (m : Mask) : List Nat := laneSlots.filter (Mask.has m)

/-- The mask that holds exactly lane `l`. -/
def Mask.one (l : Nat) : Mask := BitVec.ofNat 32 (1 <<< l)

/-- The mask of the lanes `l` below 32 with `f l`. -/
def Mask.ofFn (f : Nat → Bool) : Mask :=
  laneSlots.foldl (fun m l => if f l then m ||| Mask.one l else m) 0

/-- How many lanes a mask holds. -/
def Mask.count (m : Mask) : Nat := (Mask.lanes m).length

/-- The field of `x` at bits `lo` to `lo + n - 1`, as a number. -/
def bitsAt {w : Nat} (x : BitVec w) (lo n : Nat) : Nat := (x.extractLsb' lo n).toNat

end Sys2Proof
end

