-- ==== Sys2Proof/Syntax.lean ====
section
/-!
DEFINITION. The instruction words of the MB9 as their fields (R54, R59, R63), and one constructor of
`Instr` for every row of spec/opcode_table.json: 188 instruction words and 107 steps of the device
that no word encodes.
-/
namespace Sys2Proof

/-- The fields of formats G, M, X and Z after the opcode (R59, R63). -/
structure WordG where
  /-- GRD, bits [53:50]. -/
  grd : BitVec 4
  /-- SNS, bit [49]. -/
  sns : Bool
  /-- D, bits [48:41]. -/
  d : BitVec 8
  /-- A, bits [40:33]. -/
  a : BitVec 8
  /-- B, bits [32:25]. -/
  b : BitVec 8
  /-- C, bits [24:17]. -/
  c : BitVec 8
  /-- LRA, bit [16]. -/
  lra : Bool
  /-- LRB, bit [15]. -/
  lrb : Bool
  /-- LRC, bit [14]. -/
  lrc : Bool
  /-- FSEL, bit [13]. -/
  fsel : Bool
  /-- CO, bit [12]. -/
  co : Bool
  /-- MOD, bits [11:0]. -/
  mod : BitVec 12
  deriving DecidableEq, Repr

/-- The fields of format I after the opcode (R63). -/
structure WordI where
  /-- GRD, bits [53:50]. -/
  grd : BitVec 4
  /-- SNS, bit [49]. -/
  sns : Bool
  /-- D, bits [48:41]. -/
  d : BitVec 8
  /-- A, bits [40:33]. -/
  a : BitVec 8
  /-- IMM16, bits [32:17]. -/
  imm : BitVec 16
  /-- LRA, bit [16]. -/
  lra : Bool
  /-- res, bits [15:14]. -/
  res : BitVec 2
  /-- FSEL, bit [13]. -/
  fsel : Bool
  /-- CO, bit [12]. -/
  co : Bool
  /-- MOD, bits [11:0]. -/
  mod : BitVec 12
  deriving DecidableEq, Repr

/-- The fields of format L after the opcode (R63). -/
structure WordL where
  /-- GRD, bits [53:50]. -/
  grd : BitVec 4
  /-- SNS, bit [49]. -/
  sns : Bool
  /-- D, bits [48:41]. -/
  d : BitVec 8
  /-- IMM41, bits [40:0]. -/
  imm : BitVec 41
  deriving DecidableEq, Repr

/-- The fields of format J after the opcode (R63). -/
structure WordJ where
  /-- GRD, bits [53:50]. -/
  grd : BitVec 4
  /-- SNS, bit [49]. -/
  sns : Bool
  /-- D, bits [48:41]. -/
  d : BitVec 8
  /-- OFF, bits [40:9], a signed offset in 8-byte words. -/
  off : BitVec 32
  /-- JMOD, bits [8:0]. -/
  jmod : BitVec 9
  deriving DecidableEq, Repr

/-- The fields of a clause header below SIG (R54). -/
structure Header where
  /-- CNT, bits [59:56]: instruction words, minus 1. -/
  cnt : BitVec 4
  /-- ECLS, bits [55:53]: engine class. -/
  ecls : BitVec 3
  /-- WAIT, bits [52:41]: bit k names Kk. -/
  wait : BitVec 12
  /-- FAV, bit [40]. -/
  fav : Bool
  /-- FA, bits [39:36]. -/
  fa : BitVec 4
  /-- FBV, bit [35]. -/
  fbv : Bool
  /-- FB, bits [34:31]. -/
  fb : BitVec 4
  /-- REG, bit [30]: region entry. -/
  reg : Bool
  /-- Y, bit [29]: straggler release. -/
  y : Bool
  /-- SWP, bit [28]: swap hint. -/
  swp : Bool
  /-- res, bits [27:0]. -/
  res : BitVec 28
  deriving DecidableEq, Repr

/-- The instance that a node belongs to: the running instance of a graph, or a detached launch
(R35, R40). -/
inductive InstRef where
  | graph (gnum : BitVec 8)
  | detached (id : Nat)
  deriving DecidableEq, Repr

/-- The target of a translated address, or the core store of one core (R77, R212). -/
inductive Space where
  | hbm
  | die
  | tier
  | peer (dev : Nat)
  | core (n : Nat)
  deriving DecidableEq, Repr

/-- A 64-byte line: its space and its line number within the space (R78). -/
structure Line where
  space : Space
  index : Nat
  deriving DecidableEq, Repr

/-- What performs accesses to an address (R77). -/
inductive Home where
  | cellar (stack : Nat)
  /-- The bank controller `ctl` of a die's store (R210). -/
  | dieStore (die ctl : Nat)
  | tierPort (port : Nat)
  | peerDev (dev : Nat)
  | coreStore (n : Nat)
  deriving DecidableEq, Repr

/-- What a translation is for (R212, R215): the KIND codes 0 to 5 of a fault record. -/
inductive AccessKind where
  | laneRead
  | laneWrite
  | laneAtomic
  | fetch
  | engineRead
  | engineWrite
  deriving DecidableEq, Repr

/-- A host access through BAR2 (R382). -/
inductive Bar2Access where
  | read (off len : Nat)
  | write (off : Nat) (data : List Byte)
  deriving DecidableEq, Repr

/-- How the boot ROM's checks end (R394, R383). -/
inductive BootOutcome where
  | ready
  | signature
  | rollback
  | memoryTraining
  | selfTest
  deriving DecidableEq, Repr

/-- A flit of a Nycel port as the link layer sees it (R391): did its CRC hold, and its payload. -/
structure Flit where
  crcOk : Bool
  payload : List Byte
  deriving DecidableEq, Repr

/-- What a request packet of a peer asks (R270): a read, a write, or an atomic of a code of R346 (16: compare and
swap) with its width in bytes, operand, new value, and whether it returns. -/
inductive PeerOp where
  | read (len : Nat)
  | write (data : List Byte)
  | atomic (op width : Nat) (b c : Word) (returns : Bool)
  deriving DecidableEq, Repr

/-- A request packet of a peer (R212, R392): its source device and the virtual address that it names here. -/
structure PeerReq where
  src : BitVec 12
  va : Word
  op : PeerOp
  deriving DecidableEq, Repr

/-- Which source of R280 rebuilds a line, or that the line is the parity channel's own, of the group of the address. -/
inductive RebuildSource where
  | parity
  | tier
  | neither
  | parityLine
  deriving DecidableEq, Repr

/-- An uncorrectable error of an SRAM array (R372). -/
inductive SramError where
  | vectorRegister (g reg : Nat)
  | tile (core tile : Nat)
  | coreStoreLine (core line : Nat)
  | dieStoreLine (line : Nat)
  | clauseCache (core : Nat)
  | groupState (g : Nat)
  | cellarRay (ray : Nat)
  | cellarFilter (op lane : Nat)
  | reservedEntry (stack channel entry : Nat)
  /-- An 8-byte word of a grid's parameter copy in scheduler memory, by its offset (R172). -/
  | parameterWord (grid : BitVec 32) (offset : Nat)
  deriving DecidableEq, Repr


/-- A value type, as R64's type codes name it: signed, unsigned and raw-bit types of width `w`, the
float formats, the packed pairs, and binary8 pN (u: unsigned, f: finite). -/
inductive Ty where
  | int (w : Nat)
  | nat (w : Nat)
  | bits (w : Nat)
  | f32
  | f16
  | bf16
  | f16x2
  | bf16x2
  | q8 (p : Nat) (u f : Bool)
  deriving DecidableEq, Repr

/-- An instruction word below its opcode, by its format's layout (R63). -/
inductive AnyWord where
  | g (w : WordG)
  | i (w : WordI)
  | l (w : WordL)
  | j (w : WordJ)
  deriving DecidableEq, Repr

/-- One step of the MB9: an instruction word of R69's map, or a step of the device that no word
encodes (spec/95_what_each_step_holds.md). One constructor a row of spec/opcode_table.json. The steps of the device
do not stand in the table's order: those that the machine's own schedule builds come first, since compiled code
builds a constructor with values only among the first 244. -/
inductive Instr where
  /-- BRA (0x000, format J; R148): Moves the lanes of Lanes(run) to the clause header at the word's address plus 8·OFF. -/
  | bra (w : WordJ)
  /-- JMP (0x001, format J; R149): Branches the lanes of Lanes(run) through a table of clauses indexed by a uniform S register scaled by 2^SC words. -/
  | jmp (w : WordJ)
  /-- UBRA (0x002, format J; R150): Tests one uniform predicate Qn (Q3 included) and moves every lane of the issuing run to the target when it holds. -/
  | ubra (w : WordJ)
  /-- BRX (0x003, format G; R151): Moves each lane of Lanes(run) to its own code-section offset taken from a V or S register. -/
  | brx (w : WordG)
  /-- CALL (0x004, format J; R152): Creates the frame at the next call level with a given demand, writes its link record, optionally marks a catch target, and moves the lanes to the callee. -/
  | call (w : WordJ)
  /-- CALLX (0x005, format G; R153): Calls with a per-lane target offset from a register, creating one shared new frame after checking every target. -/
  | callx (w : WordG)
  /-- RET (0x006, format G; R154): Moves the lanes of Lanes(run) down one call level to the RETO of the level's link record. -/
  | ret (w : WordG)
  /-- UNWIND (0x007, format I; R155): Moves lanes to the catch target of the nearest marked frame, or down a given number of levels. -/
  | unwind (w : WordI)
  /-- EXIT (0x008, format G; R156): Removes the lanes of Lanes(run) from the PC table and LIVEM for good. -/
  | exit (w : WordG)
  /-- NOP (0x009, format G; R157): Occupies an issue slot with no other effect. -/
  | nop (w : WordG)
  /-- YIELD (0x00A, format G; R157): Lets a ready pending group take the group's active place at the end of the clause. -/
  | yield (w : WordG)
  /-- SLEEP (0x00B, format G; R158): Puts the group to sleep until a CYC deadline, relative or absolute, or a promise wait on a flag. -/
  | sleep (w : WordG)
  /-- BKPT (0x00C, format I; R160): Queues a BREAKPOINT trap with the run's mask and the immediate code. -/
  | bkpt (w : WordI)
  /-- TRAP (0x00D, format I; R160): Queues a USER_TRAP with the run's mask and the immediate code. -/
  | trap (w : WordI)
  /-- TRET (0x00E, format G; R365): Ends the handler: applies each lane's V0 to V2, kills or restores lanes, releases the handler frame, resumes a stopped operation and allows the next delivery. -/
  | tret (w : WordG)
  /-- SREAD (0x00F, format I; R162): Reads a special register into an S register or into the V registers of Lanes(run). -/
  | sread (w : WordI)
  /-- SWRITE (0x010, format I; R163): Writes an S register into PIX, SATF or CCINV, the last invalidating clause caches. -/
  | swrite (w : WordI)
  /-- LAUNCH (0x011, format G; R164): Sends the distributor a device-side request to run one node of a graph as a detached instance, with release at .dev. -/
  | launch (w : WordG)
  /-- FETCHW (0x012, format G; R165): Clears a mailbox, retires the group's handed team and asks the distributor for an unplaced team of a named grid. -/
  | fetchw (w : WordG)
  /-- SADD (0x080, format G; R167): Uniform integer add, wrapping or clamping with .sat, format G. -/
  | sadd (w : WordG)
  /-- SADD_I (0x0C0, format I; R167): Uniform integer add with a 16-bit immediate, format I. -/
  | saddI (w : WordI)
  /-- SSUB (0x081, format G; R167): Uniform integer subtract, format G. -/
  | ssub (w : WordG)
  /-- SSUB_I (0x0C1, format I; R167): Uniform integer subtract with an immediate, format I. -/
  | ssubI (w : WordI)
  /-- SMUL (0x082, format G; R167): Uniform integer multiply, wrapping, format G. -/
  | smul (w : WordG)
  /-- SMUL_I (0x0C2, format I; R167): Uniform integer multiply with an immediate, format I. -/
  | smulI (w : WordI)
  /-- SMULH (0x083, format G; R167): Uniform high half of the 2N-bit product. -/
  | smulh (w : WordG)
  /-- SMAD (0x084, format G; R167): Uniform multiply-add, wrapping. -/
  | smad (w : WordG)
  /-- SAND (0x085, format G; R167): Uniform bitwise and, format G. -/
  | sand (w : WordG)
  /-- SAND_I (0x0C5, format I; R167): Uniform bitwise and with an immediate, format I. -/
  | sandI (w : WordI)
  /-- SOR (0x086, format G; R167): Uniform bitwise or, format G. -/
  | sor (w : WordG)
  /-- SOR_I (0x0C6, format I; R167): Uniform bitwise or with an immediate, format I. -/
  | sorI (w : WordI)
  /-- SXOR (0x087, format G; R167): Uniform bitwise exclusive or, format G. -/
  | sxor (w : WordG)
  /-- SXOR_I (0x0C7, format I; R167): Uniform bitwise exclusive or with an immediate, format I. -/
  | sxorI (w : WordI)
  /-- SNOT (0x088, format G; R167): Uniform bitwise not. -/
  | snot (w : WordG)
  /-- SSHL (0x089, format G; R167): Uniform shift left by a 64-bit count, format G. -/
  | sshl (w : WordG)
  /-- SSHL_I (0x0C9, format I; R167): Uniform shift left by an immediate count, format I. -/
  | sshlI (w : WordI)
  /-- SSHR (0x08A, format G; R167): Uniform shift right, arithmetic for .i, format G. -/
  | sshr (w : WordG)
  /-- SSHR_I (0x0CA, format I; R167): Uniform shift right by an immediate count, format I. -/
  | sshrI (w : WordI)
  /-- SMIN (0x08B, format G; R167): Uniform minimum by the type's order, format G. -/
  | smin (w : WordG)
  /-- SMIN_I (0x0CB, format I; R167): Uniform minimum with an immediate, format I. -/
  | sminI (w : WordI)
  /-- SMAX (0x08C, format G; R167): Uniform maximum by the type's order, format G. -/
  | smax (w : WordG)
  /-- SMAX_I (0x0CC, format I; R167): Uniform maximum with an immediate, format I. -/
  | smaxI (w : WordI)
  /-- SSEL (0x08D, format G; R167): Uniform select of A or B by a Q predicate. -/
  | ssel (w : WordG)
  /-- SCMP (0x08E, format G; R168): Uniform compare writing a Q predicate, format G. -/
  | scmp (w : WordG)
  /-- SCMP_I (0x0CE, format I; R168): Uniform compare against an immediate writing a Q predicate, format I. -/
  | scmpI (w : WordI)
  /-- SMOV (0x08F, format G; R167): Uniform register move. -/
  | smov (w : WordG)
  /-- SMOVI (0x090, format L; R169): Writes a sign-extended 41-bit immediate to an S register. -/
  | smovi (w : WordL)
  /-- SBFE (0x091, format G; R170): Uniform bit-field extract. -/
  | sbfe (w : WordG)
  /-- SBFI (0x092, format G; R170): Uniform bit-field insert. -/
  | sbfi (w : WordG)
  /-- SPOPC (0x093, format G; R167): Uniform population count. -/
  | spopc (w : WordG)
  /-- SCLZ (0x094, format G; R167): Uniform count of leading zeros. -/
  | sclz (w : WordG)
  /-- SADDR (0x095, format G; R171): Uniform address arithmetic A + (B << SH) + C that sets Q3 on overflow or a nonzero top byte. -/
  | saddr (w : WordG)
  /-- SLDC (0x096, format I; R172): Reads the grid's parameter block or the kernel's const section into an S register, stalling until the value is available. -/
  | sldc (w : WordI)
  /-- VADD (0x100, format G; R180): Per-lane integer add, wrapping or clamping, format G. -/
  | vadd (w : WordG)
  /-- VADD_I (0x140, format I; R180): Per-lane integer add with an immediate, format I. -/
  | vaddI (w : WordI)
  /-- VSUB (0x101, format G; R180): Per-lane integer subtract, format G. -/
  | vsub (w : WordG)
  /-- VSUB_I (0x141, format I; R180): Per-lane integer subtract with an immediate, format I. -/
  | vsubI (w : WordI)
  /-- VMUL (0x102, format G; R180): Per-lane integer multiply, format G. -/
  | vmul (w : WordG)
  /-- VMUL_I (0x142, format I; R180): Per-lane integer multiply with an immediate, format I. -/
  | vmulI (w : WordI)
  /-- VMULH (0x103, format G; R180): Per-lane high half of the product. -/
  | vmulh (w : WordG)
  /-- VMAD (0x104, format G; R180): Per-lane integer multiply-add. -/
  | vmad (w : WordG)
  /-- VMIN (0x105, format G; R180): Per-lane integer minimum, format G. -/
  | vmin (w : WordG)
  /-- VMIN_I (0x145, format I; R180): Per-lane integer minimum with an immediate, format I. -/
  | vminI (w : WordI)
  /-- VMAX (0x106, format G; R180): Per-lane integer maximum, format G. -/
  | vmax (w : WordG)
  /-- VMAX_I (0x146, format I; R180): Per-lane integer maximum with an immediate, format I. -/
  | vmaxI (w : WordI)
  /-- VABS (0x107, format G; R180): Per-lane absolute value. -/
  | vabs (w : WordG)
  /-- VNEG (0x108, format G; R180): Per-lane negation. -/
  | vneg (w : WordG)
  /-- VAND (0x109, format G; R180): Per-lane bitwise and, format G. -/
  | vand (w : WordG)
  /-- VAND_I (0x149, format I; R180): Per-lane bitwise and with an immediate, format I. -/
  | vandI (w : WordI)
  /-- VOR (0x10A, format G; R180): Per-lane bitwise or, format G. -/
  | vor (w : WordG)
  /-- VOR_I (0x14A, format I; R180): Per-lane bitwise or with an immediate, format I. -/
  | vorI (w : WordI)
  /-- VXOR (0x10B, format G; R180): Per-lane bitwise exclusive or, format G. -/
  | vxor (w : WordG)
  /-- VXOR_I (0x14B, format I; R180): Per-lane bitwise exclusive or with an immediate, format I. -/
  | vxorI (w : WordI)
  /-- VNOT (0x10C, format G; R180): Per-lane bitwise not. -/
  | vnot (w : WordG)
  /-- VSHL (0x10D, format G; R180): Per-lane shift left, format G. -/
  | vshl (w : WordG)
  /-- VSHL_I (0x14D, format I; R180): Per-lane shift left by an immediate, format I. -/
  | vshlI (w : WordI)
  /-- VSHR (0x10E, format G; R180): Per-lane shift right, format G. -/
  | vshr (w : WordG)
  /-- VSHR_I (0x14E, format I; R180): Per-lane shift right by an immediate, format I. -/
  | vshrI (w : WordI)
  /-- VSHRR (0x10F, format G; R185): Per-lane rounding shift right with narrowing, format G. -/
  | vshrr (w : WordG)
  /-- VSHRR_I (0x14F, format I; R185): Per-lane rounding shift right by an immediate count, format I. -/
  | vshrrI (w : WordI)
  /-- VBFE (0x110, format G; R183): Per-lane 32-bit bit-field extract. -/
  | vbfe (w : WordG)
  /-- VBFI (0x111, format G; R183): Per-lane 32-bit bit-field insert. -/
  | vbfi (w : WordG)
  /-- VPOPC (0x112, format G; R180): Per-lane population count. -/
  | vpopc (w : WordG)
  /-- VCLZ (0x113, format G; R180): Per-lane count of leading zeros. -/
  | vclz (w : WordG)
  /-- VSEL (0x114, format G; R182): Per-lane select of A or B by a vector predicate. -/
  | vsel (w : WordG)
  /-- VCMP (0x115, format G; R181): Per-lane integer compare writing a vector predicate, format G. -/
  | vcmp (w : WordG)
  /-- VCMP_I (0x155, format I; R181): Per-lane integer compare against an immediate, format I. -/
  | vcmpI (w : WordI)
  /-- VADDCY (0x116, format G; R184): Per-lane 32-bit add or subtract with carry held in a vector predicate. -/
  | vaddcy (w : WordG)
  /-- VDOT2 (0x118, format G; R187): Per-lane packed 16-bit dot product with accumulate, wrapping or saturating step by step. -/
  | vdot2 (w : WordG)
  /-- VDOT4 (0x119, format G; R187): Per-lane packed 8-bit dot product with accumulate. -/
  | vdot4 (w : WordG)
  /-- VSAT (0x11A, format G; R188): Per-lane clamp of a 32-bit value to a narrower type, setting SATF on change. -/
  | vsat (w : WordG)
  /-- VPACK (0x11B, format G; R189): Per-lane narrowing of sources into packed halves or bytes. -/
  | vpack (w : WordG)
  /-- VUNPACK (0x11C, format G; R190): Per-lane extraction of one packed element, extended. -/
  | vunpack (w : WordG)
  /-- FADD (0x180, format G; R192): Per-lane float add rounded once, format G. -/
  | fadd (w : WordG)
  /-- FADD_I (0x1C0, format I; R192): Per-lane float add with a 16-bit float immediate, format I. -/
  | faddI (w : WordI)
  /-- FSUB (0x181, format G; R192): Per-lane float subtract rounded once. -/
  | fsub (w : WordG)
  /-- FMUL (0x182, format G; R192): Per-lane float multiply rounded once, format G. -/
  | fmul (w : WordG)
  /-- FMUL_I (0x1C2, format I; R192): Per-lane float multiply with an immediate, format I. -/
  | fmulI (w : WordI)
  /-- FFMA (0x183, format G; R192): Per-lane fused multiply-add with one rounding. -/
  | ffma (w : WordG)
  /-- FMIN (0x184, format G; R192): Per-lane float minimum, format G. -/
  | fmin (w : WordG)
  /-- FMIN_I (0x1C4, format I; R192): Per-lane float minimum with an immediate, format I. -/
  | fminI (w : WordI)
  /-- FMAX (0x185, format G; R192): Per-lane float maximum, format G. -/
  | fmax (w : WordG)
  /-- FMAX_I (0x1C5, format I; R192): Per-lane float maximum with an immediate, format I. -/
  | fmaxI (w : WordI)
  /-- FCMP (0x186, format G; R193): Per-lane float compare writing a vector predicate, format G. -/
  | fcmp (w : WordG)
  /-- FCMP_I (0x1C6, format I; R193): Per-lane float compare against an immediate, format I. -/
  | fcmpI (w : WordI)
  /-- FRND (0x187, format G; R194): Per-lane rounding to an integral value in the same format. -/
  | frnd (w : WordG)
  /-- FRCP (0x188, format G; R133): Per-lane correctly rounded reciprocal. -/
  | frcp (w : WordG)
  /-- FRSQ (0x189, format G; R133): Per-lane correctly rounded reciprocal square root. -/
  | frsq (w : WordG)
  /-- FSQRT (0x18A, format G; R133): Per-lane correctly rounded square root. -/
  | fsqrt (w : WordG)
  /-- FEXP2 (0x18B, format G; R133): Per-lane correctly rounded base-2 exponential. -/
  | fexp2 (w : WordG)
  /-- FLOG2 (0x18C, format G; R133): Per-lane correctly rounded base-2 logarithm. -/
  | flog2 (w : WordG)
  /-- FSIN (0x18D, format G; R133): Per-lane correctly rounded sine in radians. -/
  | fsin (w : WordG)
  /-- FCOS (0x18E, format G; R133): Per-lane correctly rounded cosine in radians. -/
  | fcos (w : WordG)
  /-- HADD2 (0x190, format G; R192): Per-lane packed two-element half-precision add. -/
  | hadd2 (w : WordG)
  /-- HMUL2 (0x191, format G; R192): Per-lane packed two-element half-precision multiply. -/
  | hmul2 (w : WordG)
  /-- HFMA2 (0x192, format G; R192): Per-lane packed two-element fused multiply-add. -/
  | hfma2 (w : WordG)
  /-- HMIN2 (0x193, format G; R192): Per-lane packed two-element minimum. -/
  | hmin2 (w : WordG)
  /-- HMAX2 (0x194, format G; R192): Per-lane packed two-element maximum. -/
  | hmax2 (w : WordG)
  /-- CVT (0x198, format G; R196): Per-lane conversion between integer, IEEE and binary8 types, rounding at most once. -/
  | cvt (w : WordG)
  /-- SHFL (0x200, format G; R198): Moves values between lanes of the run by a per-lane index, xor or rotation, with fill. -/
  | shfl (w : WordG)
  /-- SLIDE (0x201, format G; R199): Shifts values across lane slots by a uniform amount, with fill. -/
  | slide (w : WordG)
  /-- VOTE (0x202, format G; R200): Combines a vector predicate over the run into a ballot or an any/all Q predicate. -/
  | vote (w : WordG)
  /-- VRED (0x203, format G; R201): Reduces a V register over the run into an S register. -/
  | vred (w : WordG)
  /-- VSCAN (0x204, format G; R202): Computes an inclusive or exclusive prefix over the run. -/
  | vscan (w : WordG)
  /-- VCONFLICT (0x205, format G; R203): Writes per lane the mask of earlier lanes of the run holding an equal value. -/
  | vconflict (w : WordG)
  /-- VTOS (0x206, format G; R204): Moves the lowest or a named lane's value into an S register. -/
  | vtos (w : WordG)
  /-- STOV (0x207, format G; R205): Writes an S register into the V slices of Lanes(run). -/
  | stov (w : WordG)
  /-- PAND (0x208, format G; R173): Per-lane and of vector predicates. -/
  | pand (w : WordG)
  /-- POR (0x209, format G; R173): Per-lane or of vector predicates. -/
  | por (w : WordG)
  /-- PXOR (0x20A, format G; R173): Per-lane exclusive or of vector predicates. -/
  | pxor (w : WordG)
  /-- PNOT (0x20B, format G; R173): Per-lane not of a vector predicate. -/
  | pnot (w : WordG)
  /-- PMOVV (0x20C, format G; R174): Writes a vector predicate from a register, by nonzero test or by bit. -/
  | pmovv (w : WordG)
  /-- VMOVP (0x20D, format G; R174): Writes a V register from a vector predicate. -/
  | vmovp (w : WordG)
  /-- PCOUNT (0x20E, format G; R175): Counts the lanes of the run whose predicate bit is set. -/
  | pcount (w : WordG)
  /-- QAND (0x210, format G; R176): And of uniform predicates. -/
  | qand (w : WordG)
  /-- QOR (0x211, format G; R176): Or of uniform predicates. -/
  | qor (w : WordG)
  /-- QNOT (0x212, format G; R176): Not of a uniform predicate. -/
  | qnot (w : WordG)
  /-- LD (0x280, format M; R225): Lane or uniform load from .core, .clus or .glob into registers, plain or acquire. -/
  | ld (w : WordG)
  /-- ST (0x281, format M; R226): Lane store to .core, .clus or .glob, plain or release. -/
  | st (w : WordG)
  /-- LDT (0x282, format M; R229): Per-lane tensor load through a shape record, with clipping to FILL. -/
  | ldt (w : WordG)
  /-- STT (0x283, format M; R229): Per-lane tensor store through a shape record, clipped lanes writing nothing. -/
  | stt (w : WordG)
  /-- TMOV (0x284, format M; R231): Engine move of a box of one tensor into another, with ownership and a promise. -/
  | tmov (w : WordG)
  /-- COPY (0x285, format M; R232): Engine copy of bytes in 16-byte units between spaces, with ownership and a promise. -/
  | copy (w : WordG)
  /-- GTHA (0x286, format M; R233): Engine gather of rows named by an index list, with ownership and a promise. -/
  | gtha (w : WordG)
  /-- TIERH (0x287, format M; R234): Sends the capacity tier one hint per tier-backed page of a range to stage it in HBM. -/
  | tierh (w : WordG)
  /-- CJOIN (0x288, format M; R235): Joins the team to a sharing group of its cluster, installing window mappings. -/
  | cjoin (w : WordG)
  /-- CLEAVE (0x289, format M; R235): Leaves the team's sharing group, revoking mappings once accesses drain. -/
  | cleave (w : WordG)
  /-- CQUERY (0x28A, format M; R235): Reads the team's sharing group and mapped members into an S register. -/
  | cquery (w : WordG)
  /-- ATOM (0x290, format M; R346): Atomic read-modify-write at the home, lane, uniform or scatter form, returning or not. -/
  | atom (w : WordG)
  /-- RED (0x291, format M; R346): Non-returning atomic reduction at the home. -/
  | red (w : WordG)
  /-- CAS (0x292, format M; R346): Atomic compare-and-swap at the home. -/
  | cas (w : WordG)
  /-- FENCE (0x293, format M; R349): Orders the lanes' accesses by kind at a scope, optionally waiting for the group's engine operations. -/
  | fence (w : WordG)
  /-- BAR (0x294, format M; R352): Group arrival on a team barrier, then wait for the phase to change. -/
  | bar (w : WordG)
  /-- BARA (0x295, format M; R352): Group arrival on a team barrier without waiting, or a deferred engine arrival with .eng. -/
  | bara (w : WordG)
  /-- BARW (0x296, format M; R352): Waits until the team barrier's phase differs from the group's last arrival phase. -/
  | barw (w : WordG)
  /-- CBAR (0x297, format M; R352): Arrive, wait, or both on a cluster barrier. -/
  | cbar (w : WordG)
  /-- TBEGIN (0x298, format M; R357): Opens a transaction in each lane of the run, or dooms an open one with NEST. -/
  | tbegin (w : WordG)
  /-- TEND (0x299, format M; R356): Validates by value and commits the lanes' transactions, lower lanes winning, writing a success predicate. -/
  | tend (w : WordG)
  /-- TABORT (0x29A, format M; R357): Dooms the lanes' open transactions with EXPLICIT and a code. -/
  | tabort (w : WordG)
  /-- TSTAT (0x29B, format M; R357): Reads each lane's transaction state into a V register. -/
  | tstat (w : WordG)
  /-- OMAP (0x300, format X; R238): Writes an operand-map slot from three S registers. -/
  | omap (w : WordG)
  /-- MMA (0x301, format X; R239): Matrix multiply-accumulate into a tile region, chunk by chunk, from maps or a down-converted tile. -/
  | mma (w : WordG)
  /-- MZERO (0x302, format X; R241): Writes +0 to a tile region and sets the tile format for shape 0. -/
  | mzero (w : WordG)
  /-- MLDA (0x303, format X; R241): Loads a tile region exactly from the core store, row by row. -/
  | mlda (w : WordG)
  /-- MDRAIN (0x304, format X; R242): Converts a tile region to the core store, or with PEER = 1 adds it into another team's tile. -/
  | mdrain (w : WordG)
  /-- SOPEN (0x310, format Z; R312): Opens a stream register on a fibre of a sparse descriptor, reading while it runs. -/
  | sopen (w : WordG)
  /-- SNEXT (0x311, format Z; R313): Delivers one batch of fibre entries to the lanes of the run. -/
  | snext (w : WordG)
  /-- SSKIP (0x312, format Z; R314): Skips a stream forward to a coordinate. -/
  | sskip (w : WordG)
  /-- SISECT (0x313, format Z; R315): Delivers a batch of the intersection of two streams. -/
  | sisect (w : WordG)
  /-- SUNION (0x314, format Z; R315): Delivers a batch of the union of two streams. -/
  | sunion (w : WordG)
  /-- SCLOSE (0x315, format Z; R316): Closes one stream register or all eight. -/
  | sclose (w : WordG)
  /-- SSTAT (0x316, format Z; R316): Reads one 8-byte word of a stream register's state. -/
  | sstat (w : WordG)
  /-- LISECT (0x317, format Z; R317): Merges two lane-held lists and delivers matching index pairs and advance counts. -/
  | lisect (w : WordG)
  /-- HFAM (0x320, format Z; R319): Installs a hash family record into a team slot. -/
  | hfam (w : WordG)
  /-- HCODE (0x321, format Z; R320): Computes per-lane hyperplane hash codes for each table of a family. -/
  | hcode (w : WordG)
  /-- HPROBE (0x322, format Z; R321): Probes L retrieval tables per lane and writes probe blocks. -/
  | hprobe (w : WordG)
  /-- HINS (0x323, format Z; R322): Inserts per-lane row ids into a retrieval table. -/
  | hins (w : WordG)
  /-- HDEL (0x324, format Z; R322): Deletes per-lane row ids from a retrieval table. -/
  | hdel (w : WordG)
  /-- HREH (0x325, format Z; R323): Performs up to 256 linear-hashing splits of a table. -/
  | hreh (w : WordG)
  /-- HSYNC (0x326, format Z; R324): Completes when every earlier table request of the group on the table has been performed. -/
  | hsync (w : WordG)
  /-- RAYE (0x380, format Z; R326): Sends one ray per lane to the cellars, owning each lane's slot line. -/
  | raye (w : WordG)
  /-- ANYR (0x381, format Z; R327): Answers a ray's any-hit callback per lane with accept, ignore or terminate. -/
  | anyr (w : WordG)
  /-- TRBEGIN (0x382, format Z; R328): Closes a treelet for rebuilding, completing when no ray remains inside the old copy. -/
  | trbegin (w : WordG)
  /-- TRPUB (0x383, format Z; R328): Publishes a closed treelet with a new table entry, release at .dev, and reopens it. -/
  | trpub (w : WordG)
  /-- TEXF (0x384, format Z; R329): Samples a texture per lane, bilinear or trilinear, at its cellar. -/
  | texf (w : WordG)
  /-- HGF (0x385, format Z; R330): Fetches interpolated hash-grid features per lane into core-store areas. -/
  | hgf (w : WordG)
  /-- ATTN (0x386, format Z; R332): Sends one near-memory attention command per lane to a cellar. -/
  | attn (w : WordG)
  /-- BFILL (0x387, format Z; R333): Writes block-table entries into a data channel's reserved region. -/
  | bfill (w : WordG)
  /-- CLAUSE_HEADER_ISSUE (R55): A run's next clause header is checked and passes its WAIT test so its first word issues. -/
  | clauseHeaderIssue (h : Header)
  /-- INSTANCE_START (R38): The root nodes of a queued instance start once the previous instance of the graph has completed. -/
  | instanceStart (gnum : BitVec 8)
  /-- NODE_START (R25): A node starts once every predecessor has completed. -/
  | nodeStart (r : InstRef) (node : Nat)
  /-- COPY_NODE (R431): The distributor copies a COPY node's bytes in 16-byte units in ascending order. -/
  | copyNode (r : InstRef) (node units : Nat)
  /-- COPY_NODE_DONE (R25): A COPY node completes when every unit is copied or skipped and performed at .dev. -/
  | copyNodeDone (r : InstRef) (node : Nat)
  /-- HOSTWAIT_COMPLETE (R22): A HOSTWAIT node completes when its host flag reaches the compare value. -/
  | hostwaitComplete (r : InstRef) (node : Nat)
  /-- SIGNAL_NODE (R22): A SIGNAL node writes its value to a host flag and may raise the host interrupt. -/
  | signalNode (r : InstRef) (node : Nat)
  /-- CLUSTER_PLACE (R43): The distributor places a cluster of teams on a rectangle of admitting cores and starts every lane at ENTRY. -/
  | clusterPlace (grid : BitVec 32)
  /-- GRID_STARVATION (R45): A grid's next cluster has waited 8,192 cycles, so no team of a younger grid is placed until it is. -/
  | gridStarvation (grid : BitVec 32)
  /-- DETACHED_COMPLETE (R41): A detached instance completes and its status word receives COMPLETE. -/
  | detachedComplete (id : Nat)
  /-- GRID_COMPLETE (R381): When every team of a grid has retired, the completion word is written with release at .sys. -/
  | gridComplete (grid : BitVec 32)
  /-- INSTANCE_COMPLETE (R38): When all nodes of an instance complete, GDONE is written and ICOMP incremented. -/
  | instanceComplete (gnum : BitVec 8)
  /-- GROUP_RETIRE (R379): A group whose last live lane exits retires, discarding queued traps and later releasing its frames. -/
  | groupRetire (g : Nat)
  /-- TEAM_RETIRE (R380): A team retires once its groups, operations, deferred arrivals, peer drains and rays are done, freeing its resources. -/
  | teamRetire (t : Nat)
  /-- GROUP_RAISE (R102): A ready active group not selected for 64 consecutive cycles is raised. -/
  | groupRaise (g : Nat)
  /-- WAIT_SWAP_OUT (R103): A group whose wait has held for 16 consecutive cycles leaves the active set. -/
  | waitSwapOut (g : Nat)
  /-- PENDING_RAISE (R105): A pending group ready for 1,024 cycles claims the place of the longest-active group. -/
  | pendingRaise (g : Nat)
  /-- GROUP_SWAP_IN (R104): A ready pending group fills a freed or empty active place and issues after the two-cycle swap. -/
  | groupSwapIn (g : Nat)
  /-- DROVER_STAGE_1 (R120): The drover takes every frame of pending groups that are not blocked as soon as a group is blocked on a frame. -/
  | droverStage1 (core quarter : Nat)
  /-- DROVER_STAGE_2 (R120): After 256 blocked cycles the drover takes lower frames of blocked groups. -/
  | droverStage2 (core quarter : Nat)
  /-- DROVER_STAGE_3 (R120): After 1,024 blocked cycles the drover takes every frame of every group but the oldest blocked one. -/
  | droverStage3 (core quarter : Nat)
  /-- FRAME_GRANT (R120): A blocked group receives its frame reservation once registers are free and becomes ready. -/
  | frameGrant (g : Nat)
  /-- OPERATION_COMPLETE (R111): A long-latency operation completes, writes its results, clears pending marks and decrements its flag. -/
  | operationComplete (op : Nat) (limit : Option Nat)
  /-- OWN_ACQUIRE (R78): An engine operation waiting to own its destination lines takes the last one and completes issue. -/
  | ownAcquire (g : Nat)
  /-- SLEEP_WAKE (R158): A sleeping group's CYC deadline is reached and it becomes ready. -/
  | sleepWake (g : Nat)
  /-- PROMISE_MISSED (R159): A promise-sleeping group past its deadline wakes when the watched flag reaches zero, with PROMISE_MISSED queued. -/
  | promiseMissed (g : Nat)
  /-- BARRIER_WAIT_PASS (R352): A group waiting on a barrier passes in the cycle after the phase changes. -/
  | barrierWaitPass (g : Nat)
  /-- DEFERRED_ARRIVAL (R353): A deferred barrier arrival is made once the operations issued before its BARA.eng have completed. -/
  | deferredArrival (team index : Nat)
  /-- PEER_DRAIN_ROW (R243): A row of a peer drain arrives at the target tile and is added with one rounding per element. -/
  | peerDrainRow (op : Nat)
  /-- TRAP_DELIVERY (R363): A queued trap is delivered at a word boundary, creating the handler frame and moving every live lane to HNDL. -/
  | trapDelivery (g : Nat)
  /-- TRAP_QUEUE_ENTRY (R361): A trap waiting outside a full trap queue enters it when an entry frees. -/
  | trapQueueEntry (g : Nat)
  /-- REPORT_QUEUE_WRITE (R386): A waiting fault or freeze record is written to its host queue once the queue has room. -/
  | reportQueueWrite (queue : Nat)
  /-- TIER_HINT (R389): A tier hint reaches the port and starts or merges a fill, or is dropped when the queue is full. -/
  | tierHint (port page : Nat)
  /-- TIER_FILL_DATA (R389): A fill's data arrive and the port takes a frame, copies the page and installs it. -/
  | tierFillData (port page : Nat)
  /-- TIER_WRITEBACK_REPLY (R389): A dirty frame's write-back reply arrives, freeing the frame for the waiting fill. -/
  | tierWritebackReply (port frame : Nat)
  /-- RELEASE_MARKER (R344): A release marker reaches its home, which holds the release until named homes report. -/
  | releaseMarker (pkt : Nat)
  /-- HOME_REPORT (R344): A home reports that all counted writes have been performed, possibly letting a held release perform. -/
  | homeReport (pkt : Nat) (home : Home)
  /-- FLUSH_MARKER (R345): A flush marker arrives at a multipath destination; the release performs when all have arrived. -/
  | flushMarker (pkt path : Nat)
  /-- CELLAR_READ (R272): A read request packet is scheduled and performed at its cellar. -/
  | cellarRead (pkt : Nat)
  /-- CELLAR_WRITE (R272): A write request packet is performed at its cellar with its parity update. -/
  | cellarWrite (pkt : Nat)
  /-- CELLAR_ATOMIC (R272): An atomic request packet is performed indivisibly at its cellar. -/
  | cellarAtomic (pkt : Nat)
  /-- REPLY (R271): A reply with OK, CWD or POISON status reaches its requester. -/
  | reply (pkt : Nat)
  /-- CHANNEL_TO_COMPUTE_DONE (R283): A channel's column commands end and banks precharge, entering COMPUTE. -/
  | channelToComputeDone (stack channel : Nat)
  /-- CHANNEL_COMPUTE_IDLE (R283): A COMPUTE channel with no ATTN for 2,048 cycles starts TO_NORMAL. -/
  | channelComputeIdle (stack channel : Nat)
  /-- CHANNEL_TO_NORMAL_DONE (R283): A channel returns to NORMAL, clearing its FNRM bit and logging event 6. -/
  | channelToNormalDone (stack channel : Nat)
  /-- RAY_SEND (R292): A RAYE's next ray is sent once fewer than RMAX rays are in flight. -/
  | raySend (op : Nat)
  /-- RAY_ACCEPT (R289): The cellar of stack 2d checks a new ray and its scene entry and queues it at its root treelet. -/
  | rayAccept (ray : Nat)
  /-- TREELET_STAGE (R291): A free staging slot takes the chosen treelet image. -/
  | treeletStage (stack : Nat)
  /-- RAY_VISIT (R290): A ray traverses a staged treelet, committing hits and moving on. -/
  | rayVisit (ray : Nat)
  /-- RAY_ARRIVAL (R292): A forwarded ray entry arrives at a cellar and is queued, held, forwarded again or spilled. -/
  | rayArrival (ray : Nat)
  /-- RAY_REFILL (R292): A spilled ray is refilled into the queues in spill order. -/
  | rayRefill (stack : Nat)
  /-- TRBEGIN_DONE (R294): No ray remains inside a closed treelet's old copy and TRBEGIN completes. -/
  | trbeginDone (op : Nat)
  /-- DIE_STORE_REQUEST (R210): A read, write, atomic or transaction commit reaches a die-store bank controller and is performed there as its home. -/
  | dieStoreRequest (pkt : Nat)
  /-- TIER_ACCESS (R388): A read, write or atomic to a capacity-tier address reaches its port and is served from the staging map or by the expander, whose reply completes it. -/
  | tierAccess (pkt : Nat)
  /-- TRIG_WRITE (R36): Host write to TRIG triggers one instance of a graph with an optional patch list, recording one result in GSTAT. -/
  | trigWrite (v : Word)
  /-- GRAPH_UPLOAD (R30): Host write to GUPL with a nonzero address requests upload of a task graph. -/
  | graphUpload (v : Word)
  /-- GRAPH_REMOVAL (R30): Host write to GUPL with ADDR = 0 removes graph GNUM and frees its scheduler memory. -/
  | graphRemoval (v : Word)
  /-- UPLOAD_CHECK (R27): Once no instance of the graph number remains, the distributor checks and copies the graph, ending DONE or REFUSED. -/
  | uploadCheck
  /-- HOST_FLAG_WRITE (R22): Host write to an HFLAG register, which may let HOSTWAIT nodes complete. -/
  | hostFlagWrite (n : BitVec 8) (v : Word)
  /-- LAUNCH_REQUEST (R41): The distributor takes a device-side launch request, accepts or refuses it and writes the status word. -/
  | launchRequest
  /-- FETCHW_REQUEST (R47): The distributor answers a fetch-work request, handing over a team or a status, and writes the mailbox. -/
  | fetchwRequest
  /-- LINE_RELEASE (R79): An owner releases a line and every recalled access to it performs against the released contents. -/
  | lineRelease (op : Nat) (line : Line)
  /-- TABLE_WALK (R212): A die's walker translates a .glob address through the four-level table, succeeding or faulting. -/
  | tableWalk (core : Nat) (va : Word) (kind : AccessKind)
  /-- CTX_LOAD (R384): CTXCMD LOAD restores a saved context or starts a fresh one. -/
  | ctxLoad (fresh : Bool)
  /-- CTX_SAVE (R373): CTXCMD SAVE pre-empts the context, stopping and saving all its state. -/
  | ctxSave
  /-- CTX_TEARDOWN (R384): CTXCMD TEARDOWN discards the context's groups, rays, graphs and state and releases its address space. -/
  | ctxTeardown
  /-- CTX_THAW (R384): CTXCMD THAW resumes every frozen group and engine operation. -/
  | ctxThaw
  /-- CTX_COMMAND_END (R384): A context command finishes, CTXST takes its end state and EVT bit 5 is set. -/
  | ctxCommandEnd
  /-- TLBI_ALL (R387): A TLBI write with ALL = 1 starts invalidation of every translation. -/
  | tlbiAll (v : Word)
  /-- TLBI_RANGE (R387): A TLBI write with ALL = 0 starts invalidation of NPG pages from VPAGE. -/
  | tlbiRange (v : Word)
  /-- TLB_INVALIDATION_DONE (R213): A TLB invalidation completes after old-entry accesses are performed, setting EVT bit 8. -/
  | tlbInvalidationDone
  /-- FAULT_REPLAY (R214): FANS answer REPLAY retranslates every access merged into the record. -/
  | faultReplay (idx : BitVec 32)
  /-- FAULT_ABORT (R214): FANS answer ABORT raises TRANSLATION_FAULT for the waiting accesses or operation. -/
  | faultAbort (idx : BitVec 32)
  /-- FAULT_FREEZE (R214): FANS answer FREEZE freezes the master of the record. -/
  | faultFreeze (idx : BitVec 32)
  /-- QUEUE_CONSUME (R386): Host write to QCONS frees room in a report queue. -/
  | queueConsume (queue : Nat) (v : Word)
  /-- REGISTER_WRITE (R383): Host write to a BAR0 register that has no row of its own, applied or discarded by its limits. -/
  | registerWrite (off size : Nat) (v : Word)
  /-- BAR2_ACCESS (R382): A host read or write through BAR2 is performed at its home as a plain .sys access. -/
  | bar2Access (a : Bar2Access)
  /-- ATTESTATION_REQUEST (R395): Host write to ATREQ starts forming a signed attestation report in an HBM buffer. -/
  | attestationRequest (v : Word)
  /-- FIRMWARE_UPDATE (R394): Host write to FWUP starts verification of a new firmware image for flash. -/
  | firmwareUpdate (v : Word)
  /-- FIRMWARE_JOB_DONE (R394): An attestation or firmware check finishes and FWST reads done or refused. -/
  | firmwareJobDone (ok : Bool)
  /-- BOOT (R394): At reset the boot ROM verifies firmware images and ends READY or FAILED. -/
  | boot (outcome : BootOutcome)
  /-- TIER_PORT_ENABLE (R388): Setting EN on a DOWN tier port starts link training. -/
  | tierPortEnable (port : Nat) (v : Word)
  /-- TIER_PORT_DISABLE (R388): Clearing EN takes the tier port DOWN, writing back dirty frames and emptying staging. -/
  | tierPortDisable (port : Nat) (v : Word)
  /-- TIER_CLEAR_QUARANTINE (R388): Writing CLRQ returns a quarantined tier port with its link up to UP. -/
  | tierClearQuarantine (port : Nat) (v : Word)
  /-- TIER_LINK_UP (R388): The tier link comes up, STATE becomes UP and CAP is read from the expander. -/
  | tierLinkUp (port : Nat) (cap : BitVec 32)
  /-- TIER_QUARANTINE (R390): A tier request unanswered for TTO·1,024 cycles quarantines the port. -/
  | tierQuarantine (port : Nat)
  /-- NYCEL_PORT_ENABLE (R391): Setting EN on a Nycel port starts training. -/
  | nycelPortEnable (port : Nat) (v : Word)
  /-- NYCEL_PORT_THAW (R391): Writing THAW returns a FROZEN Nycel port to UP. -/
  | nycelPortThaw (port : Nat) (v : Word)
  /-- NYCEL_LINK_UP (R391): Training ends, the port is UP and PEER holds the far device number. -/
  | nycelLinkUp (port : Nat) (peer : BitVec 12)
  /-- NYCEL_FLIT (R391): A 256-byte flit arrives on a Nycel port, replayed on CRC failure. -/
  | nycelFlit (port : Nat) (flit : Flit)
  /-- PEER_REQUEST (R392): A peer's request packet arrives and is translated and performed here, or freezes the port. -/
  | peerRequest (port : Nat) (req : PeerReq)
  /-- NYCEL_PORT_LEAVE (R392): A port leaves service and its unanswered requests complete as TIER_ABSENT, writing the status word. -/
  | nycelPortLeave (port : Nat)
  /-- AGE_CAP_EXPIRY (R274): A channel's oldest request has waited 16·AGE cycles and gets priority in its bank. -/
  | ageCapExpiry (stack channel : Nat)
  /-- POWER_DOWN_ENTRY (R276): A pseudo-channel idle for PDT·16 cycles enters power-down. -/
  | powerDownEntry (stack pseudo : Nat)
  /-- SELF_REFRESH_ENTRY (R276): A pseudo-channel idle for SRT·1,024 cycles enters self-refresh. -/
  | selfRefreshEntry (stack pseudo : Nat)
  /-- LINE_REBUILD (R280): An uncorrectable line is rebuilt from parity or the tier, or poisoned when both fail. -/
  | lineRebuild (pa : Nat) (source : RebuildSource)
  /-- SCRUB_ERROR (R372): Scrubbing finds an uncorrectable error and marks the line poisoned. -/
  | scrubError (err : SramError)
  /-- FNRM_REQUEST (R283): Host write to FNRM requests normal mode for channels. -/
  | fnrmRequest (stack : Nat) (v : Word)
  /-- FILTER_REQUEST (R299): A cellar performs a texture or hash-grid sample request and returns the result. -/
  | filterRequest (op lane : Nat)
  /-- ATTN_COMMAND (R304): A cellar runs an attention command over its channel's key-value pages and writes the result. -/
  | attnCommand (op lane : Nat)
  /-- TABLE_REQUEST (R265): A table probe, insert, delete or split performs at its bucket's home, forwarding as needed. -/
  | tableRequest (op unit : Nat)
  /-- GOVERNOR_WINDOW (R306): At the end of each 1,024-cycle window the joint governor steps the matrix clock. -/
  | governorWindow (milliwatts : Nat)
  /-- GOVERNOR_IDLE_RESET (R306): No ATTN for 4,096 cycles returns the governor to step 0 at once. -/
  | governorIdleReset
  /-- THERMAL_ALERT (R393): A die reaches 100 °C, ALERT is set and the governor holds step 4. -/
  | thermalAlert (temp : BitVec 16)
  /-- THERMAL_SHUTDOWN (R393): A die reaches 115 °C and the module powers off, losing all state. -/
  | thermalShutdown
  /-- REFRESH (R276): The cellar refreshes a bank on its own schedule in every mode and power state, holding requests that wait for that bank. -/
  | refresh (stack bank : Nat)
  /-- THERMAL_ALERT_CLEAR (R393): The hottest die falls below 100 °C, ALERT clears and the governor is no longer held at step 4. -/
  | thermalAlertClear (temp : BitVec 16)
  deriving DecidableEq, Repr

end Sys2Proof
end

