-- ==== Sys2Proof/Machine/Operands.lean ====
section
/-!
DEFINITION. The operand forms of every instruction word: which kind of operand each field holds, which
modifier values are legal, which registers a word names (R57 to R67, and each instruction's own entry).
-/
namespace Sys2Proof.Machine

/-! ## Type codes (R64) -/

/-- The type of a 6-bit type code; `none` for a reserved code (R64). -/
def tyOfCode (c : Nat) : Option Ty :=
  if c < 4 then some (.int (8 <<< c))
  else if c < 8 then some (.nat (8 <<< (c - 4)))
  else if c < 12 then some (.bits (8 <<< (c - 8)))
  else if c = 0x0C then some .f32
  else if c = 0x0D then some .f16
  else if c = 0x0E then some .bf16
  else if c = 0x0F then some .f16x2
  else if c = 0x10 then some .bf16x2
  else if 0x20 ≤ c && c ≤ 0x3B then
    some (.q8 ((c - 0x20) / 4 + 1) ((c - 0x20) / 2 % 2 == 1) ((c - 0x20) % 2 == 1))
  else none

/-- The width of a type in bits (R123, R124). -/
def tyWidth : Ty → Nat
  | .int w => w
  | .nat w => w
  | .bits w => w
  | .f32 => 32
  | .f16 => 16
  | .bf16 => 16
  | .f16x2 => 32
  | .bf16x2 => 32
  | .q8 _ _ _ => 8

/-- V registers that one value of the type takes: a pair for 64-bit types (R124, R177). -/
def tyRegs (t : Ty) : Nat := if tyWidth t = 64 then 2 else 1

def isInt : Ty → Bool
  | .int _ => true
  | _ => false
def isNat : Ty → Bool
  | .nat _ => true
  | _ => false
def isBits : Ty → Bool
  | .bits _ => true
  | _ => false
def isFloat : Ty → Bool
  | .f32 => true
  | .f16 => true
  | .bf16 => true
  | _ => false
def isPacked : Ty → Bool
  | .f16x2 => true
  | .bf16x2 => true
  | _ => false
def isQ8 : Ty → Bool
  | .q8 _ _ _ => true
  | _ => false
/-- .iN or .nN. -/
def isIN (t : Ty) : Bool := isInt t || isNat t
/-- .iN, .nN or .bN. -/
def isINB (t : Ty) : Bool := isIN t || isBits t
/-- A width of 32 or 64: the types of the uniform family (R166). -/
def wide (t : Ty) : Bool := tyWidth t == 32 || tyWidth t == 64
/-- A width of at most 32. -/
def to32 (t : Ty) : Bool := tyWidth t ≤ 32
/-- A width of 8 or 16. -/
def narrow (t : Ty) : Bool := tyWidth t ≤ 16

/-! ## Fields of MOD (R65, R66, X and Z forms) -/

/-- RND, MOD[11:9]; the compare code CMP where an instruction puts it there. -/
def mRnd (m : BitVec 12) : Nat := bitsAt m 9 3
/-- SAT, MOD[8]. -/
def mSat (m : BitVec 12) : Bool := m.getLsbD 8
/-- OPX, MOD[7:6]. -/
def mOpx (m : BitVec 12) : Nat := bitsAt m 6 2
/-- TYPE, MOD[5:0]. -/
def mTy (m : BitVec 12) : Option Ty := tyOfCode (bitsAt m 0 6)
/-- TYPE where it has been checked; .b32 for a reserved code. -/
def mTyD (m : BitVec 12) : Ty := (mTy m).getD (.bits 32)
/-- SPC, MOD[11:10]. -/
def mSpc (m : BitVec 12) : Nat := bitsAt m 10 2
/-- ORD, MOD[9:8]. -/
def mOrd (m : BitVec 12) : Nat := bitsAt m 8 2
/-- SCP, MOD[7:5]. -/
def mScp (m : BitVec 12) : Nat := bitsAt m 5 3
/-- MOPX, MOD[4:0]. -/
def mOpm (m : BitVec 12) : Nat := bitsAt m 0 5
/-- SHP, MOD[11:10] of format X. -/
def mShp (m : BitVec 12) : Nat := bitsAt m 10 2
/-- SUB, MOD[9:5] of format X (R237). -/
def mSub (m : BitVec 12) : Nat := bitsAt m 5 5
/-- Bit `k` of MOD. -/
def mBit (m : BitVec 12) (k : Nat) : Bool := m.getLsbD k

/-! ## Operand kinds (R60, R67, R144) -/

/-- The kind of one operand field. -/
inductive Opd where
  /-- Unused: must be zero. -/
  | none
  /-- `n` consecutive V registers from one whose number is a multiple of `al`. -/
  | v (n al : Nat)
  /-- An S register whose number is a multiple of `al`; `al = 2` names a pair of S registers. -/
  | s (al : Nat)
  /-- A V register (`n` of them, aligned to `n`) or an S register. -/
  | vs (n : Nat)
  /-- A V predicate, P0 to P11. -/
  | p
  /-- A uniform predicate, Q0 to Q(lim - 1). -/
  | q (lim : Nat)
  /-- A resource number or a code below `lim`. -/
  | num (lim : Nat)
  /-- Eight bits without a limit (IMM8). -/
  | any
  /-- A combination of fields that is illegal whatever the field holds. -/
  | bad
  deriving DecidableEq, Repr

/-- Is the value of a field of its kind (R60, R67, R144, R307)? -/
def opdLegal (o : Opd) (x : BitVec 8) : Bool :=
  let n := x.toNat
  match o with
  | .none => n == 0
  | .v k al => n < 192 && n % al == 0 && n + k ≤ 192
  | .s al => 192 ≤ n && n % al == 0
  | .vs k => 192 ≤ n || (n % k == 0 && n + k ≤ 192)
  | .p => n < 12
  | .q lim => n < lim
  | .num lim => n < lim
  | .any => true
  | .bad => false

/-- The V registers that a field names (R60, R177). -/
def opdV (o : Opd) (x : BitVec 8) : List Nat :=
  match o with
  | .v k _ => (List.range k).map (x.toNat + ·)
  | .vs k => if x.toNat < 192 then (List.range k).map (x.toNat + ·) else []
  | _ => []

/-- The S registers that a field names. -/
def opdS (o : Opd) (x : BitVec 8) : List Nat :=
  match o with
  | .s al => (List.range al).map (x.toNat - 192 + ·)
  | .vs _ => if 192 ≤ x.toNat then [x.toNat - 192] else []
  | _ => []

/-- The vector predicates that a field names. -/
def opdP (o : Opd) (x : BitVec 8) : List Nat :=
  match o with
  | .p => [x.toNat]
  | _ => []

/-- The uniform predicates that a field names. -/
def opdQ (o : Opd) (x : BitVec 8) : List Nat :=
  match o with
  | .q _ => [x.toNat]
  | _ => []

/-- What an instruction's description says of its word: the kind of each operand field, whether the
other fields hold legal values, whether it counts on a flag, whether its set is the uniform set. -/
structure WordSpec where
  d : Opd := .none
  a : Opd := .none
  b : Opd := .none
  c : Opd := .none
  /-- MOD, JMOD and the immediate hold legal values. -/
  modOk : Bool := true
  /-- It counts on a flag, so FSEL may be set (R62). -/
  flag : Bool := false
  /-- A member of the uniform set (R57). -/
  uni : Bool := false
  /-- C names a destination, so LRC must be 0 (R62). -/
  cDst : Bool := false
  /-- GRD must be 15 and SNS 0 (R147). -/
  noGuard : Bool := false
  deriving DecidableEq, Repr

/-! ## Legal MOD values -/

/-- The default layout of R65: RND below 5 where the word rounds, SAT where offered, OPX among those
allowed, a type that the instruction accepts. -/
def modG (m : BitVec 12) (rnd sat : Bool) (opx : List Nat) (ty : Ty → Bool) : Bool :=
  (if rnd then mRnd m < 5 else mRnd m == 0) && (sat || !mSat m) && opx.contains (mOpx m) &&
  (match mTy m with
   | some t => ty t
   | none => false)

/-- A compare: CMP in place of RND, codes 0 to 5, with 2 to 5 illegal for a raw-bit type (R168). -/
def modCmp (m : BitVec 12) (ty : Ty → Bool) : Bool :=
  mRnd m < 6 && !mSat m && mOpx m == 0 &&
  (match mTy m with
   | some t => ty t && !(isBits t && 2 ≤ mRnd m)
   | none => false)

/-- The space, order and scope of format M (R66): a legal space among those allowed, an order that the
instruction offers, a legal scope that is 0 with order 0, also where the instruction takes a scope with another order
(DEDUCED, log 61). -/
def modM (m : BitVec 12) (spc ord : List Nat) : Bool :=
  spc.contains (mSpc m) && ord.contains (mOrd m) && mScp m < 5 && (mOrd m != 0 || mScp m == 0)

/-- SHP and SUB place a region (R237). -/
def modX (m : BitVec 12) : Bool :=
  match mShp m with
  | 0 => mSub m == 0
  | 1 => mSub m < 3
  | 2 => mSub m < 12
  | _ => mSub m < 24

/-! ## The special registers (R73, R74) -/

/-- Lane registers hold a value per lane (R73). -/
def srLane (n : Nat) : Bool := n == 0x00 || n == 0x02 || n == 0x03
/-- Numbers with read access (R73). -/
def srReadable (n : Nat) : Bool := n ≤ 0x1B && n != 0x15
/-- Numbers with write access (R73, R163). -/
def srWritable (n : Nat) : Bool := n == 0x0D || n == 0x13 || n == 0x15

/-! ## One description for each family -/

/-- A uniform word in format G: A, and B and C where used, are S registers (R166). -/
def uniG (d b c : Opd) (modOk : Bool) : WordSpec :=
  { d := d, a := .s 1, b := b, c := c, modOk := modOk, uni := true }

/-- A uniform word in format I (R166). -/
def uniI (d : Opd) (modOk : Bool) : WordSpec := { d := d, a := .s 1, modOk := modOk, uni := true }

/-- A vector word whose D, A, B and C hold values of TYPE (R177). -/
def vecG (m : BitVec 12) (srcs : Nat) (rnd sat : Bool) (ty : Ty → Bool) : WordSpec :=
  let k := tyRegs (mTyD m)
  { d := .v k k, a := .vs k, b := if 2 ≤ srcs then .vs k else .none,
    c := if 3 ≤ srcs then .vs k else .none, modOk := modG m rnd sat [0] ty }

/-- A vector word of format I whose D and A hold values of TYPE (R177). -/
def vecI (m : BitVec 12) (rnd sat : Bool) (ty : Ty → Bool) : WordSpec :=
  let k := tyRegs (mTyD m)
  { d := .v k k, a := .vs k, modOk := modG m rnd sat [0] ty }

/-- A shift: the count B is one 32-bit operand (R180). -/
def vecShift (m : BitVec 12) : WordSpec :=
  let k := tyRegs (mTyD m)
  { d := .v k k, a := .vs k, b := .vs 1, modOk := modG m false false [0] isINB }

/-- A count of bits: D is one register (R180). -/
def vecCount (m : BitVec 12) : WordSpec :=
  { d := .v 1 1, a := .vs (tyRegs (mTyD m)),
    modOk := modG m false false [0] (fun t => t == .bits 32 || t == .bits 64) }

/-- .b32 or .b64. -/
def b32or64 (t : Ty) : Bool := t == .bits 32 || t == .bits 64

/-- The types of one operation code of VRED and VSCAN (R201). -/
def redTy (op : Nat) (t : Ty) : Bool :=
  if op < 3 then (isIN t && wide t) || isFloat t
  else op < 6 && b32or64 t

/-- VRED and VSCAN: RND may be nonzero only for a float add (R201). -/
def redMod (m : BitVec 12) (op : Nat) (opx : List Nat) : Bool :=
  modG m true false opx (redTy op) && (mRnd m == 0 || (op == 0 && isFloat (mTyD m)))

/-- LD and ST (R223). -/
def ldst (w : WordG) (ords : List Nat) : WordSpec :=
  let sz := bitsAt w.mod 0 3
  let k := if sz == 3 then 2 else if sz == 4 then 4 else 1
  { d := if sz == 4 then .v 4 4 else .vs k,
    a := if mSpc w.mod == 2 then .vs 2 else .vs 1,
    b := if mBit w.mod 4 then .vs 1 else .none,
    c := .any,
    modOk := modM w.mod [0, 1, 2] ords && sz != 7 && (mBit w.mod 4 || !mBit w.mod 3),
    flag := true }

/-- LDT and STT (R229). -/
def ldtstt (w : WordG) (ords : List Nat) : WordSpec :=
  { d := .v 1 1, a := .s 1, b := .v 1 1, modOk := modM w.mod [0] ords && mOpm w.mod == 0, flag := true }

/-- Does an ATOM, RED or CAS word take the uniform form (R346, R347)? D names an S register; for RED,
A and B both do. -/
def atomUniform (w : WordG) (red : Bool) : Bool :=
  if red then 192 ≤ w.a.toNat && 192 ≤ w.b.toNat
  else !mBit w.mod 3 && 192 ≤ w.d.toNat

/-- ATOM, RED and CAS (R346): `red` for RED, `cas` for CAS. -/
def atomic (w : WordG) (red cas : Bool) : WordSpec :=
  let k := if mBit w.mod 2 then 2 else 1
  let noReturn := red || mBit w.mod 3
  let uni := atomUniform w red
  let val : Opd := if uni then .s 1 else .vs k
  { d := if noReturn then .none else .vs k,
    a := if uni then .s 1 else if mSpc w.mod == 2 then .vs 2 else .vs 1,
    b := val,
    c := if cas then val else if mBit w.mod 2 then .num 9 else .num 11,
    modOk := modM w.mod [0, 1, 2] (if noReturn then [0, 2] else [0, 1, 2, 3]) && bitsAt w.mod 0 2 == 0 &&
      !(red && mBit w.mod 3) && !(mBit w.mod 4 && uni),
    flag := true }

/-- BAR, BARA, BARW and CBAR (R352): the target in A unless the form has none. -/
def barrier (a : Opd) (m : BitVec 12) (opm : Bool) : WordSpec :=
  { a := a, modOk := modM m [0] [0] && opm }

/-- The description of an instruction word; `none` where the constructor is no instruction word. -/
def wordSpec : Instr → Option WordSpec
  -- control and system
  | .bra w => some { modOk := w.jmod == 0 }
  | .jmp w => some { d := .s 1, modOk := bitsAt w.jmod 2 7 == 0 }
  | .ubra w => some { modOk := bitsAt w.jmod 3 6 == 0, noGuard := true }
  | .brx w => some { a := .vs 1, modOk := w.mod == 0 }
  | .call w => some
    { d := .num 25,
      modOk := w.d != 0 && (w.jmod.getLsbD 0 == (bitsAt w.jmod 1 8 != 0)) }
  | .callx w => some { a := .vs 1, modOk := bitsAt w.mod 5 7 == 0 && 1 ≤ bitsAt w.mod 0 5 && bitsAt w.mod 0 5 ≤ 24 }
  | .ret w => some { modOk := w.mod == 0 }
  | .unwind w => some { modOk := w.mod == 0 && w.imm.toNat < 512 }
  | .exit w => some { modOk := w.mod == 0 }
  | .nop w => some { modOk := w.mod == 0 }
  | .yield w => some { modOk := w.mod == 0 }
  | .sleep w => some
    { a := .s 1,
      modOk := bitsAt w.mod 8 4 == 0 && bitsAt w.mod 4 2 == 0 && mOpx w.mod != 3 &&
        (if mOpx w.mod == 2 then bitsAt w.mod 0 4 < 12 else bitsAt w.mod 0 4 == 0) }
  | .bkpt w => some { modOk := w.mod == 0 }
  | .trap w => some { modOk := w.mod == 0 }
  | .tret w => some { modOk := w.mod == 0 }
  | .sread w =>
    let n := bitsAt w.imm 0 8
    let k := tyRegs (mTyD w.mod)
    some { d := if srLane n then .v k k else .vs k,
           modOk := modG w.mod false false [0] b32or64 && bitsAt w.imm 8 8 == 0 && srReadable n }
  | .swrite w => some
    { a := .s 1,
      modOk := modG w.mod false false [0] (· == .bits 64) && bitsAt w.imm 8 8 == 0 && srWritable (bitsAt w.imm 0 8) }
  | .launch w => some { a := .s 1, b := .s 1, c := .s 1, modOk := w.mod == 0, flag := true }
  | .fetchw w => some { a := .s 1, b := .s 1, modOk := w.mod == 0, flag := true }
  -- uniform
  | .sadd w => some (uniG (.s 1) (.s 1) .none (modG w.mod false true [0] (fun t => isIN t && wide t)))
  | .saddI w => some (uniI (.s 1) (modG w.mod false true [0] (fun t => isIN t && wide t)))
  | .ssub w => some (uniG (.s 1) (.s 1) .none (modG w.mod false true [0] (fun t => isIN t && wide t)))
  | .ssubI w => some (uniI (.s 1) (modG w.mod false true [0] (fun t => isIN t && wide t)))
  | .smul w => some (uniG (.s 1) (.s 1) .none (modG w.mod false false [0] (fun t => isIN t && wide t)))
  | .smulI w => some (uniI (.s 1) (modG w.mod false false [0] (fun t => isIN t && wide t)))
  | .smulh w => some (uniG (.s 1) (.s 1) .none (modG w.mod false false [0] (fun t => isIN t && wide t)))
  | .smad w => some (uniG (.s 1) (.s 1) (.s 1) (modG w.mod false false [0] (fun t => isIN t && wide t)))
  | .sand w => some (uniG (.s 1) (.s 1) .none (modG w.mod false false [0] b32or64))
  | .sandI w => some (uniI (.s 1) (modG w.mod false false [0] b32or64))
  | .sor w => some (uniG (.s 1) (.s 1) .none (modG w.mod false false [0] b32or64))
  | .sorI w => some (uniI (.s 1) (modG w.mod false false [0] b32or64))
  | .sxor w => some (uniG (.s 1) (.s 1) .none (modG w.mod false false [0] b32or64))
  | .sxorI w => some (uniI (.s 1) (modG w.mod false false [0] b32or64))
  | .snot w => some (uniG (.s 1) .none .none (modG w.mod false false [0] b32or64))
  | .sshl w => some (uniG (.s 1) (.s 1) .none (modG w.mod false false [0] (fun t => isINB t && wide t)))
  | .sshlI w => some (uniI (.s 1) (modG w.mod false false [0] (fun t => isINB t && wide t)))
  | .sshr w => some (uniG (.s 1) (.s 1) .none (modG w.mod false false [0] (fun t => isINB t && wide t)))
  | .sshrI w => some (uniI (.s 1) (modG w.mod false false [0] (fun t => isINB t && wide t)))
  | .smin w => some (uniG (.s 1) (.s 1) .none (modG w.mod false false [0] (fun t => isIN t && wide t)))
  | .sminI w => some (uniI (.s 1) (modG w.mod false false [0] (fun t => isIN t && wide t)))
  | .smax w => some (uniG (.s 1) (.s 1) .none (modG w.mod false false [0] (fun t => isIN t && wide t)))
  | .smaxI w => some (uniI (.s 1) (modG w.mod false false [0] (fun t => isIN t && wide t)))
  | .ssel w => some (uniG (.s 1) (.s 1) .none (modG w.mod false false [0, 1, 2] b32or64))
  | .scmp w => some (uniG (.q 4) (.s 1) .none (modCmp w.mod (fun t => isINB t && wide t)))
  | .scmpI w => some (uniI (.q 4) (modCmp w.mod (fun t => isINB t && wide t)))
  | .smov w => some (uniG (.s 1) .none .none (modG w.mod false false [0] b32or64))
  | .smovi _ => some { d := .s 1, uni := true }
  | .sbfe w => some (uniG (.s 1) (.s 1) (.s 1)
      (modG w.mod false false [0] (fun t => t == .nat 64 || t == .bits 64 || t == .int 64)))
  | .sbfi w => some (uniG (.s 1) (.s 1) (.s 1) (modG w.mod false false [0] (· == .bits 64)))
  | .spopc w => some (uniG (.s 1) .none .none (modG w.mod false false [0] b32or64))
  | .sclz w => some (uniG (.s 1) .none .none (modG w.mod false false [0] b32or64))
  | .saddr w => some (uniG (.s 1) (.s 1) (.s 1) (bitsAt w.mod 6 6 ≤ 16 && bitsAt w.mod 0 6 == 7))
  | .sldc w => some (uniI (.s 1) (modG w.mod false false [0, 1] b32or64))
  -- vector integer
  | .vadd w => some (vecG w.mod 2 false true isIN)
  | .vaddI w => some (vecI w.mod false true isIN)
  | .vsub w => some (vecG w.mod 2 false true isIN)
  | .vsubI w => some (vecI w.mod false true isIN)
  | .vmul w => some (vecG w.mod 2 false false (fun t => isIN t && to32 t))
  | .vmulI w => some (vecI w.mod false false (fun t => isIN t && to32 t))
  | .vmulh w => some (vecG w.mod 2 false false (fun t => isIN t && to32 t))
  | .vmad w => some (vecG w.mod 3 false true (fun t => isIN t && to32 t))
  | .vmin w => some (vecG w.mod 2 false false isIN)
  | .vminI w => some (vecI w.mod false false isIN)
  | .vmax w => some (vecG w.mod 2 false false isIN)
  | .vmaxI w => some (vecI w.mod false false isIN)
  | .vabs w => some (vecG w.mod 1 false true (fun t => isInt t && to32 t))
  | .vneg w => some (vecG w.mod 1 false true (fun t => isInt t && to32 t))
  | .vand w => some (vecG w.mod 2 false false isBits)
  | .vandI w => some (vecI w.mod false false isBits)
  | .vor w => some (vecG w.mod 2 false false isBits)
  | .vorI w => some (vecI w.mod false false isBits)
  | .vxor w => some (vecG w.mod 2 false false isBits)
  | .vxorI w => some (vecI w.mod false false isBits)
  | .vnot w => some (vecG w.mod 1 false false isBits)
  | .vshl w => some (vecShift w.mod)
  | .vshlI w => some (vecI w.mod false false isINB)
  | .vshr w => some (vecShift w.mod)
  | .vshrI w => some (vecI w.mod false false isINB)
  | .vshrr w => some
    { d := .v 1 1, a := .vs 1, b := .vs 1,
      modOk := modG w.mod true true [0] (fun t => isIN t && to32 t) }
  | .vshrrI w => some { d := .v 1 1, a := .vs 1, modOk := modG w.mod true true [0] (fun t => isIN t && to32 t) }
  | .vbfe w => some
    { d := .v 1 1, a := .vs 1, b := .vs 1, c := .vs 1,
      modOk := modG w.mod false false [0] (fun t => isINB t && tyWidth t == 32) }
  | .vbfi w => some
    { d := .v 1 1, a := .vs 1, b := .vs 1, c := .vs 1,
      modOk := modG w.mod false false [0] (· == .bits 32) }
  | .vpopc w => some (vecCount w.mod)
  | .vclz w => some (vecCount w.mod)
  | .vsel w =>
    let k := tyRegs (mTyD w.mod)
    some { d := .v k k, a := .vs k, b := .vs k, c := .p, modOk := modG w.mod false false [0] b32or64 }
  | .vcmp w =>
    let k := tyRegs (mTyD w.mod)
    some { d := .p, a := .vs k, b := .vs k, modOk := modCmp w.mod isINB }
  | .vcmpI w => some { d := .p, a := .vs (tyRegs (mTyD w.mod)), modOk := modCmp w.mod isINB }
  | .vaddcy w => some
    { d := .v 1 1, a := .vs 1, b := .vs 1, c := .p,
      modOk := modG w.mod false false [0, 1] (· == .nat 32) }
  | .vdot2 w => some
    { d := .v 1 1, a := .vs 1, b := .vs 1, c := .vs 1,
      modOk := modG w.mod false true [0, 1, 2, 3] (fun t => isIN t && tyWidth t == 32) }
  | .vdot4 w => some
    { d := .v 1 1, a := .vs 1, b := .vs 1, c := .vs 1,
      modOk := modG w.mod false true [0, 1, 2, 3] (fun t => isIN t && tyWidth t == 32) }
  | .vsat w => some { d := .v 1 1, a := .vs 1, modOk := modG w.mod false false [0, 1] (fun t => isIN t && to32 t) }
  | .vpack w =>
    let t := mTyD w.mod
    some { d := .v 1 1, a := .vs 1, b := .vs 1, c := if tyWidth t == 8 then .vs 1 else .none,
           modOk := modG w.mod false (!isBits t) (if tyWidth t == 8 then [0, 1] else [0]) (fun t => isINB t && narrow t) }
  | .vunpack w => some
    { d := .v 1 1, a := .vs 1,
      modOk := modG w.mod false false (if tyWidth (mTyD w.mod) == 8 then [0, 1, 2, 3] else [0, 1])
        (fun t => isIN t && narrow t) }
  -- vector float and conversion
  | .fadd w => some (vecG w.mod 2 true true isFloat)
  | .faddI w => some (vecI w.mod true true isFloat)
  | .fsub w => some (vecG w.mod 2 true true isFloat)
  | .fmul w => some (vecG w.mod 2 true true isFloat)
  | .fmulI w => some (vecI w.mod true true isFloat)
  | .ffma w => some (vecG w.mod 3 true true isFloat)
  | .fmin w => some (vecG w.mod 2 false false isFloat)
  | .fminI w => some (vecI w.mod false false isFloat)
  | .fmax w => some (vecG w.mod 2 false false isFloat)
  | .fmaxI w => some (vecI w.mod false false isFloat)
  | .fcmp w => some
    { d := .p, a := .vs 1, b := .vs 1,
      modOk := !mSat w.mod && mOpx w.mod == 0 && isFloat (mTyD w.mod) }
  | .fcmpI w => some { d := .p, a := .vs 1, modOk := !mSat w.mod && mOpx w.mod == 0 && isFloat (mTyD w.mod) }
  | .frnd w => some (vecG w.mod 1 true false isFloat)
  | .frcp w => some (vecG w.mod 1 false false (fun t => t == .f32 || t == .f16))
  | .frsq w => some (vecG w.mod 1 false false (fun t => t == .f32 || t == .f16))
  | .fsqrt w => some (vecG w.mod 1 false false (fun t => t == .f32 || t == .f16))
  | .fexp2 w => some (vecG w.mod 1 false false (fun t => t == .f32 || t == .f16))
  | .flog2 w => some (vecG w.mod 1 false false (fun t => t == .f32 || t == .f16))
  | .fsin w => some (vecG w.mod 1 false false (fun t => t == .f32 || t == .f16))
  | .fcos w => some (vecG w.mod 1 false false (fun t => t == .f32 || t == .f16))
  | .hadd2 w => some (vecG w.mod 2 true true isPacked)
  | .hmul2 w => some (vecG w.mod 2 true true isPacked)
  | .hfma2 w => some (vecG w.mod 3 true true isPacked)
  | .hmin2 w => some (vecG w.mod 2 false false isPacked)
  | .hmax2 w => some (vecG w.mod 2 false false isPacked)
  | .cvt w =>
    let cvtTy : Ty → Bool := fun t => isIN t || isFloat t || isQ8 t
    match tyOfCode (bitsAt w.c 0 6), mTy w.mod with
    | some st, some dt =>
      some { d := .v (tyRegs dt) (tyRegs dt), a := .vs (tyRegs st), c := .any,
             modOk := bitsAt w.c 6 2 == 0 && cvtTy st && cvtTy dt && mRnd w.mod < 5 &&
               (mRnd w.mod == 0 || !(isIN st && isIN dt)) &&
               mOpx w.mod < (if tyWidth st == 8 then 4 else if tyWidth st == 16 then 2 else 1) }
    | _, _ => some { modOk := false }
  -- cross-lane and predicate
  | .shfl w =>
    let k := tyRegs (mTyD w.mod)
    some { d := .v k k, a := .vs k, b := .vs 1, c := .vs k, modOk := modG w.mod false false [0, 1, 2] b32or64 }
  | .slide w =>
    let k := tyRegs (mTyD w.mod)
    some { d := .v k k, a := .v k k, b := .s 1, c := .vs k, modOk := modG w.mod false false [0, 1] b32or64 }
  | .vote w => some
    { d := if mOpx w.mod == 0 then .s 1 else .q 4, a := .p,
      modOk := mOpx w.mod < 3 && mRnd w.mod == 0 && !mSat w.mod && bitsAt w.mod 0 6 == 0 }
  | .vred w =>
    let k := tyRegs (mTyD w.mod)
    some { d := .s 1, a := .v k k, b := .num 6, modOk := redMod w.mod w.b.toNat [0] }
  | .vscan w =>
    let k := tyRegs (mTyD w.mod)
    some { d := .v k k, a := .v k k, b := .num 6, modOk := redMod w.mod w.b.toNat [0, 1] }
  | .vconflict w =>
    let k := tyRegs (mTyD w.mod)
    some { d := .v 1 1, a := .v k k, modOk := modG w.mod false false [0] b32or64 }
  | .vtos w =>
    let k := tyRegs (mTyD w.mod)
    some { d := .s 1, a := .v k k, b := if mOpx w.mod == 1 then .s 1 else .none,
           modOk := modG w.mod false false [0, 1] b32or64 }
  | .stov w =>
    let k := tyRegs (mTyD w.mod)
    some { d := .v k k, a := .s 1, modOk := modG w.mod false false [0] b32or64 }
  | .pand w => some { d := .p, a := .p, b := .p, modOk := w.mod == 0 }
  | .por w => some { d := .p, a := .p, b := .p, modOk := w.mod == 0 }
  | .pxor w => some { d := .p, a := .p, b := .p, modOk := w.mod == 0 }
  | .pnot w => some { d := .p, a := .p, modOk := w.mod == 0 }
  | .pmovv w => some { d := .p, a := .vs 1, modOk := (w.mod &&& 0xF3F#12) == 0 && mOpx w.mod < 2 }
  | .vmovp w => some { d := .v 1 1, a := .p, modOk := (w.mod &&& 0xF3F#12) == 0 && mOpx w.mod < 3 }
  | .pcount w => some { d := .s 1, a := .p, modOk := w.mod == 0 }
  | .qand w => some { d := .q 4, a := .q 3, b := .q 3, modOk := w.mod == 0, uni := true }
  | .qor w => some { d := .q 4, a := .q 3, b := .q 3, modOk := w.mod == 0, uni := true }
  | .qnot w => some { d := .q 4, a := .q 3, modOk := w.mod == 0, uni := true }
  -- memory and synchronisation
  | .ld w =>
    let u := 192 ≤ w.d.toNat
    let t := ldst w [0, 1]
    some (if u then { t with a := .s 1, b := if mBit w.mod 4 then .s 1 else .none } else t)
  | .st w => some (ldst w [0, 2])
  | .ldt w => some (ldtstt w [0, 1])
  | .stt w => some (ldtstt w [0, 2])
  | .tmov w => some
    { d := .s 1, a := .s 1, b := .s 1, c := .s 1,
      modOk := modM w.mod [0] [0] && mOpm w.mod == 0, flag := true }
  | .copy w => some
    { d := .s 1, a := .s 1, b := .s 1, c := .s 1,
      modOk := modM w.mod [0, 1, 2] [0] && bitsAt w.mod 0 2 < 3 && bitsAt w.mod 2 3 == 0, flag := true }
  | .gtha w => some
    { d := .s 1, a := .s 1, b := .s 1, c := .s 2,
      modOk := modM w.mod [0, 1, 2] [0] && bitsAt w.mod 0 2 < 3 && bitsAt w.mod 2 2 < 3, flag := true }
  | .tierh w => some { a := .s 1, b := .s 1, modOk := modM w.mod [2] [0] && mOpm w.mod == 0, flag := true }
  | .cjoin w => some { modOk := modM w.mod [0] [0] && bitsAt w.mod 2 3 == 0, flag := true }
  | .cleave w => some { modOk := modM w.mod [0] [0] && mOpm w.mod == 0, flag := true }
  | .cquery w => some { d := .s 1, modOk := modM w.mod [0] [0] && mOpm w.mod == 0, flag := true }
  | .atom w => some (atomic w false false)
  | .red w => some (atomic w true false)
  | .cas w => some (atomic w false true)
  | .fence w => some { modOk := mSpc w.mod == 0 && mOrd w.mod != 0 && mScp w.mod < 5 && bitsAt w.mod 1 4 == 0 }
  | .bar w => some (barrier (.s 1) w.mod (!mBit w.mod 4))
  | .bara w => some (barrier (.s 1) w.mod true)
  | .barw w => some (barrier .none w.mod (!mBit w.mod 4))
  | .cbar w => some (barrier (if bitsAt w.mod 2 2 < 2 then .s 1 else .none) w.mod
      (bitsAt w.mod 2 2 < 3 && !mBit w.mod 4))
  | .tbegin w => some { modOk := modM w.mod [0] [0] && mOpm w.mod == 0 }
  | .tend w => some { d := .p, modOk := modM w.mod [0] [0, 3] && mOpm w.mod == 0, flag := true }
  | .tabort w => some { a := .vs 1, modOk := modM w.mod [0] [0] && mOpm w.mod == 0 }
  | .tstat w => some { d := .v 1 1, modOk := modM w.mod [0] [0] && mOpm w.mod == 0 }
  -- matrix
  | .omap w => some { d := .num 8, a := .s 1, b := .s 1, c := .s 1, modOk := w.mod == 0 }
  | .mma w => some
    { d := .num 8, a := .num 8, b := .num 8, c := .vs 1,
      modOk := modX w.mod && bitsAt w.mod 0 2 == 0 && bitsAt w.mod 2 2 < 3 &&
        (bitsAt w.mod 2 2 == 0 || (mBit w.mod 4 && mShp w.mod != 0)), flag := true }
  | .mzero w => some { d := .num 8, modOk := modX w.mod && bitsAt w.mod 0 4 == 0, flag := true }
  | .mlda w => some { d := .num 8, a := .s 1, b := .s 1, modOk := modX w.mod && bitsAt w.mod 0 4 == 0, flag := true }
  | .mdrain w => some
    { d := if mBit w.mod 4 then .none else .s 1, a := .num 8,
      b := if mBit w.mod 4 then .none else .s 1, c := if mBit w.mod 4 then .s 1 else .none,
      modOk := modX w.mod && bitsAt w.mod 0 4 == 0, flag := true }
  -- streams (R310)
  | .sopen w => some { d := .num 8, a := .s 1, b := .s 1, modOk := bitsAt w.mod 1 11 == 0, flag := true }
  | .snext w => some { d := .v 2 2, a := .num 8, c := .s 1, modOk := w.mod == 0, flag := true }
  | .sskip w => some { d := .s 1, a := .num 8, b := .s 1, modOk := w.mod == 0, flag := true }
  | .sisect w => some { d := .v 3 1, a := .num 8, b := .num 8, c := .s 1, modOk := w.mod == 0 && w.a != w.b, flag := true }
  | .sunion w => some { d := .v 3 1, a := .num 8, b := .num 8, c := .s 1, modOk := w.mod == 0 && w.a != w.b, flag := true }
  | .sclose w => some { a := if mBit w.mod 0 then .none else .num 8, modOk := bitsAt w.mod 1 11 == 0 }
  | .sstat w => some { d := .s 1, a := .num 8, modOk := bitsAt w.mod 3 9 == 0 }
  | .lisect w => some { d := .v 2 2, a := .v 1 1, b := .v 1 1, c := .s 2, modOk := bitsAt w.mod 1 11 == 0 }
  -- hash families and tables (R318)
  | .hfam w => some { d := .num 4, a := .s 1, modOk := w.mod == 0 }
  | .hcode w => some { d := .v 1 1, a := .vs 1, b := .num 4, modOk := w.mod == 0, flag := true }
  | .hprobe w => some
    { d := .v 1 1, a := .s 1, b := .v (bitsAt w.mod 0 4 + 1) 1, c := .v 1 1,
      modOk := bitsAt w.mod 4 8 == 0, cDst := true, flag := true }
  | .hins w => some { d := .v 2 2, a := .s 1, b := .v 1 1, c := .v 1 1, modOk := w.mod == 0, flag := true }
  | .hdel w => some { d := .v 1 1, a := .s 1, b := .v 1 1, c := .v 1 1, modOk := w.mod == 0, flag := true }
  | .hreh w => some { d := .s 1, a := .s 1, b := .s 1, modOk := w.mod == 0, flag := true }
  | .hsync w => some { a := .s 1, modOk := w.mod == 0, flag := true }
  -- cellar (R325)
  | .raye w => some { d := .s 1, a := .v 8 1, b := .v 1 1, c := .v 1 1, modOk := w.mod == 0, flag := true }
  | .anyr w => some { d := .v 1 1, a := .v 1 1, b := .v 1 1, c := .v 1 1, modOk := w.mod == 0, flag := true }
  | .trbegin w => some { d := .s 1, a := .s 1, modOk := w.mod == 0, flag := true }
  | .trpub w => some { d := .s 1, a := .s 1, b := .s 2, modOk := w.mod == 0, flag := true }
  | .texf w => some
    { d := .v (if mBit w.mod 1 then 2 else 4) 1, a := .s 1,
      b := .v (if mBit w.mod 0 then 3 else 2) 1, c := .v 1 1,
      modOk := bitsAt w.mod 2 10 == 0 && w.d.toNat ≤ 188, cDst := true, flag := true }
  | .hgf w => some { d := .v 1 1, a := .s 1, b := .v 3 1, c := .v 1 1, modOk := bitsAt w.mod 5 7 == 0, cDst := true, flag := true }
  | .attn w => some { a := .v 1 1, modOk := w.mod == 0, flag := true }
  | .bfill w => some { a := .s 1, b := .s 1, modOk := w.mod == 0, flag := true }
  | _ => none

/-- The opcode and the fields of an instruction word (R69); `none` for a clause header and for a
step of the device that no word encodes. -/
def parts : Instr → Option (Nat × AnyWord)
  | .bra w => some (0x000, .j w)
  | .jmp w => some (0x001, .j w)
  | .ubra w => some (0x002, .j w)
  | .brx w => some (0x003, .g w)
  | .call w => some (0x004, .j w)
  | .callx w => some (0x005, .g w)
  | .ret w => some (0x006, .g w)
  | .unwind w => some (0x007, .i w)
  | .exit w => some (0x008, .g w)
  | .nop w => some (0x009, .g w)
  | .yield w => some (0x00A, .g w)
  | .sleep w => some (0x00B, .g w)
  | .bkpt w => some (0x00C, .i w)
  | .trap w => some (0x00D, .i w)
  | .tret w => some (0x00E, .g w)
  | .sread w => some (0x00F, .i w)
  | .swrite w => some (0x010, .i w)
  | .launch w => some (0x011, .g w)
  | .fetchw w => some (0x012, .g w)
  | .sadd w => some (0x080, .g w)
  | .saddI w => some (0x0C0, .i w)
  | .ssub w => some (0x081, .g w)
  | .ssubI w => some (0x0C1, .i w)
  | .smul w => some (0x082, .g w)
  | .smulI w => some (0x0C2, .i w)
  | .smulh w => some (0x083, .g w)
  | .smad w => some (0x084, .g w)
  | .sand w => some (0x085, .g w)
  | .sandI w => some (0x0C5, .i w)
  | .sor w => some (0x086, .g w)
  | .sorI w => some (0x0C6, .i w)
  | .sxor w => some (0x087, .g w)
  | .sxorI w => some (0x0C7, .i w)
  | .snot w => some (0x088, .g w)
  | .sshl w => some (0x089, .g w)
  | .sshlI w => some (0x0C9, .i w)
  | .sshr w => some (0x08A, .g w)
  | .sshrI w => some (0x0CA, .i w)
  | .smin w => some (0x08B, .g w)
  | .sminI w => some (0x0CB, .i w)
  | .smax w => some (0x08C, .g w)
  | .smaxI w => some (0x0CC, .i w)
  | .ssel w => some (0x08D, .g w)
  | .scmp w => some (0x08E, .g w)
  | .scmpI w => some (0x0CE, .i w)
  | .smov w => some (0x08F, .g w)
  | .smovi w => some (0x090, .l w)
  | .sbfe w => some (0x091, .g w)
  | .sbfi w => some (0x092, .g w)
  | .spopc w => some (0x093, .g w)
  | .sclz w => some (0x094, .g w)
  | .saddr w => some (0x095, .g w)
  | .sldc w => some (0x096, .i w)
  | .vadd w => some (0x100, .g w)
  | .vaddI w => some (0x140, .i w)
  | .vsub w => some (0x101, .g w)
  | .vsubI w => some (0x141, .i w)
  | .vmul w => some (0x102, .g w)
  | .vmulI w => some (0x142, .i w)
  | .vmulh w => some (0x103, .g w)
  | .vmad w => some (0x104, .g w)
  | .vmin w => some (0x105, .g w)
  | .vminI w => some (0x145, .i w)
  | .vmax w => some (0x106, .g w)
  | .vmaxI w => some (0x146, .i w)
  | .vabs w => some (0x107, .g w)
  | .vneg w => some (0x108, .g w)
  | .vand w => some (0x109, .g w)
  | .vandI w => some (0x149, .i w)
  | .vor w => some (0x10A, .g w)
  | .vorI w => some (0x14A, .i w)
  | .vxor w => some (0x10B, .g w)
  | .vxorI w => some (0x14B, .i w)
  | .vnot w => some (0x10C, .g w)
  | .vshl w => some (0x10D, .g w)
  | .vshlI w => some (0x14D, .i w)
  | .vshr w => some (0x10E, .g w)
  | .vshrI w => some (0x14E, .i w)
  | .vshrr w => some (0x10F, .g w)
  | .vshrrI w => some (0x14F, .i w)
  | .vbfe w => some (0x110, .g w)
  | .vbfi w => some (0x111, .g w)
  | .vpopc w => some (0x112, .g w)
  | .vclz w => some (0x113, .g w)
  | .vsel w => some (0x114, .g w)
  | .vcmp w => some (0x115, .g w)
  | .vcmpI w => some (0x155, .i w)
  | .vaddcy w => some (0x116, .g w)
  | .vdot2 w => some (0x118, .g w)
  | .vdot4 w => some (0x119, .g w)
  | .vsat w => some (0x11A, .g w)
  | .vpack w => some (0x11B, .g w)
  | .vunpack w => some (0x11C, .g w)
  | .fadd w => some (0x180, .g w)
  | .faddI w => some (0x1C0, .i w)
  | .fsub w => some (0x181, .g w)
  | .fmul w => some (0x182, .g w)
  | .fmulI w => some (0x1C2, .i w)
  | .ffma w => some (0x183, .g w)
  | .fmin w => some (0x184, .g w)
  | .fminI w => some (0x1C4, .i w)
  | .fmax w => some (0x185, .g w)
  | .fmaxI w => some (0x1C5, .i w)
  | .fcmp w => some (0x186, .g w)
  | .fcmpI w => some (0x1C6, .i w)
  | .frnd w => some (0x187, .g w)
  | .frcp w => some (0x188, .g w)
  | .frsq w => some (0x189, .g w)
  | .fsqrt w => some (0x18A, .g w)
  | .fexp2 w => some (0x18B, .g w)
  | .flog2 w => some (0x18C, .g w)
  | .fsin w => some (0x18D, .g w)
  | .fcos w => some (0x18E, .g w)
  | .hadd2 w => some (0x190, .g w)
  | .hmul2 w => some (0x191, .g w)
  | .hfma2 w => some (0x192, .g w)
  | .hmin2 w => some (0x193, .g w)
  | .hmax2 w => some (0x194, .g w)
  | .cvt w => some (0x198, .g w)
  | .shfl w => some (0x200, .g w)
  | .slide w => some (0x201, .g w)
  | .vote w => some (0x202, .g w)
  | .vred w => some (0x203, .g w)
  | .vscan w => some (0x204, .g w)
  | .vconflict w => some (0x205, .g w)
  | .vtos w => some (0x206, .g w)
  | .stov w => some (0x207, .g w)
  | .pand w => some (0x208, .g w)
  | .por w => some (0x209, .g w)
  | .pxor w => some (0x20A, .g w)
  | .pnot w => some (0x20B, .g w)
  | .pmovv w => some (0x20C, .g w)
  | .vmovp w => some (0x20D, .g w)
  | .pcount w => some (0x20E, .g w)
  | .qand w => some (0x210, .g w)
  | .qor w => some (0x211, .g w)
  | .qnot w => some (0x212, .g w)
  | .ld w => some (0x280, .g w)
  | .st w => some (0x281, .g w)
  | .ldt w => some (0x282, .g w)
  | .stt w => some (0x283, .g w)
  | .tmov w => some (0x284, .g w)
  | .copy w => some (0x285, .g w)
  | .gtha w => some (0x286, .g w)
  | .tierh w => some (0x287, .g w)
  | .cjoin w => some (0x288, .g w)
  | .cleave w => some (0x289, .g w)
  | .cquery w => some (0x28A, .g w)
  | .atom w => some (0x290, .g w)
  | .red w => some (0x291, .g w)
  | .cas w => some (0x292, .g w)
  | .fence w => some (0x293, .g w)
  | .bar w => some (0x294, .g w)
  | .bara w => some (0x295, .g w)
  | .barw w => some (0x296, .g w)
  | .cbar w => some (0x297, .g w)
  | .tbegin w => some (0x298, .g w)
  | .tend w => some (0x299, .g w)
  | .tabort w => some (0x29A, .g w)
  | .tstat w => some (0x29B, .g w)
  | .omap w => some (0x300, .g w)
  | .mma w => some (0x301, .g w)
  | .mzero w => some (0x302, .g w)
  | .mlda w => some (0x303, .g w)
  | .mdrain w => some (0x304, .g w)
  | .sopen w => some (0x310, .g w)
  | .snext w => some (0x311, .g w)
  | .sskip w => some (0x312, .g w)
  | .sisect w => some (0x313, .g w)
  | .sunion w => some (0x314, .g w)
  | .sclose w => some (0x315, .g w)
  | .sstat w => some (0x316, .g w)
  | .lisect w => some (0x317, .g w)
  | .hfam w => some (0x320, .g w)
  | .hcode w => some (0x321, .g w)
  | .hprobe w => some (0x322, .g w)
  | .hins w => some (0x323, .g w)
  | .hdel w => some (0x324, .g w)
  | .hreh w => some (0x325, .g w)
  | .hsync w => some (0x326, .g w)
  | .raye w => some (0x380, .g w)
  | .anyr w => some (0x381, .g w)
  | .trbegin w => some (0x382, .g w)
  | .trpub w => some (0x383, .g w)
  | .texf w => some (0x384, .g w)
  | .hgf w => some (0x385, .g w)
  | .attn w => some (0x386, .g w)
  | .bfill w => some (0x387, .g w)
  | .clauseHeaderIssue _ => none
  | .trigWrite _ => none
  | .graphUpload _ => none
  | .graphRemoval _ => none
  | .uploadCheck => none
  | .hostFlagWrite _ _ => none
  | .instanceStart _ => none
  | .nodeStart _ _ => none
  | .copyNode _ _ _ => none
  | .copyNodeDone _ _ => none
  | .hostwaitComplete _ _ => none
  | .signalNode _ _ => none
  | .clusterPlace _ => none
  | .gridStarvation _ => none
  | .launchRequest => none
  | .detachedComplete _ => none
  | .fetchwRequest => none
  | .gridComplete _ => none
  | .instanceComplete _ => none
  | .groupRetire _ => none
  | .teamRetire _ => none
  | .groupRaise _ => none
  | .waitSwapOut _ => none
  | .pendingRaise _ => none
  | .groupSwapIn _ => none
  | .droverStage1 _ _ => none
  | .droverStage2 _ _ => none
  | .droverStage3 _ _ => none
  | .frameGrant _ => none
  | .operationComplete _ _ => none
  | .ownAcquire _ => none
  | .lineRelease _ _ => none
  | .sleepWake _ => none
  | .promiseMissed _ => none
  | .barrierWaitPass _ => none
  | .deferredArrival _ _ => none
  | .peerDrainRow _ => none
  | .trapDelivery _ => none
  | .trapQueueEntry _ => none
  | .tableWalk _ _ _ => none
  | .reportQueueWrite _ => none
  | .ctxLoad _ => none
  | .ctxSave => none
  | .ctxTeardown => none
  | .ctxThaw => none
  | .ctxCommandEnd => none
  | .tlbiAll _ => none
  | .tlbiRange _ => none
  | .tlbInvalidationDone => none
  | .faultReplay _ => none
  | .faultAbort _ => none
  | .faultFreeze _ => none
  | .queueConsume _ _ => none
  | .registerWrite _ _ _ => none
  | .bar2Access _ => none
  | .attestationRequest _ => none
  | .firmwareUpdate _ => none
  | .firmwareJobDone _ => none
  | .boot _ => none
  | .tierPortEnable _ _ => none
  | .tierPortDisable _ _ => none
  | .tierClearQuarantine _ _ => none
  | .tierLinkUp _ _ => none
  | .tierHint _ _ => none
  | .tierFillData _ _ => none
  | .tierWritebackReply _ _ => none
  | .tierQuarantine _ => none
  | .nycelPortEnable _ _ => none
  | .nycelPortThaw _ _ => none
  | .nycelLinkUp _ _ => none
  | .nycelFlit _ _ => none
  | .peerRequest _ _ => none
  | .nycelPortLeave _ => none
  | .releaseMarker _ => none
  | .homeReport _ _ => none
  | .flushMarker _ _ => none
  | .cellarRead _ => none
  | .cellarWrite _ => none
  | .cellarAtomic _ => none
  | .reply _ => none
  | .ageCapExpiry _ _ => none
  | .powerDownEntry _ _ => none
  | .selfRefreshEntry _ _ => none
  | .lineRebuild _ _ => none
  | .scrubError _ => none
  | .fnrmRequest _ _ => none
  | .channelToComputeDone _ _ => none
  | .channelComputeIdle _ _ => none
  | .channelToNormalDone _ _ => none
  | .raySend _ => none
  | .rayAccept _ => none
  | .treeletStage _ => none
  | .rayVisit _ => none
  | .rayArrival _ => none
  | .rayRefill _ => none
  | .trbeginDone _ => none
  | .filterRequest _ _ => none
  | .attnCommand _ _ => none
  | .tableRequest _ _ => none
  | .governorWindow _ => none
  | .governorIdleReset => none
  | .thermalAlert _ => none
  | .thermalShutdown => none
  | .refresh _ _ => none
  | .thermalAlertClear _ => none
  | .dieStoreRequest _ => none
  | .tierAccess _ => none

/-- The opcode of an instruction word. -/
def opcodeOf (i : Instr) : Option Nat := (parts i).map (·.1)

/-- The fields of an instruction word. -/
def wordOf (i : Instr) : Option AnyWord := (parts i).map (·.2)

/-! ## Checks of order 3 of R70 -/

/-- The guard is legal: GRD 15 is not inverted, and no P guards a uniform-set word (R61). -/
def guardLegal (t : WordSpec) (grd : BitVec 4) (sns : Bool) : Bool :=
  !(grd == 15 && sns) && !(t.uni && grd.toNat < 12) && (!t.noGuard || grd == 15)

/-- A last-read bit is legal on a field that names a V register as a source (R62). -/
def lastLegal (o : Opd) (x : BitVec 8) (lr : Bool) : Bool := !lr || !(opdV o x).isEmpty

/-- The checks of R60 to R67 on one instruction word of description `t`. -/
def anyWordLegal (t : WordSpec) : AnyWord → Bool
  | .g w => t.modOk && guardLegal t w.grd w.sns &&
      opdLegal t.d w.d && opdLegal t.a w.a && opdLegal t.b w.b && opdLegal t.c w.c &&
      lastLegal t.a w.a w.lra && lastLegal t.b w.b w.lrb && lastLegal t.c w.c w.lrc && !(t.cDst && w.lrc) &&
      (t.flag || !w.fsel) && (t.uni || !w.co)
  | .i w => t.modOk && guardLegal t w.grd w.sns && opdLegal t.d w.d && opdLegal t.a w.a &&
      lastLegal t.a w.a w.lra && w.res == 0 && (t.flag || !w.fsel) && (t.uni || !w.co)
  | .l w => t.modOk && guardLegal t w.grd w.sns && opdLegal t.d w.d
  | .j w => t.modOk && guardLegal t w.grd w.sns && opdLegal t.d w.d

/-- The guard field and its sense. -/
def wordGuard : AnyWord → BitVec 4 × Bool
  | .g w => (w.grd, w.sns)
  | .i w => (w.grd, w.sns)
  | .l w => (w.grd, w.sns)
  | .j w => (w.grd, w.sns)

/-- FSEL, where the format has it. -/
def wordFsel : AnyWord → Bool
  | .g w => w.fsel
  | .i w => w.fsel
  | .l _ => false
  | .j _ => false

/-- The V registers that a word names in fields of fixed length (R60, R70 order 4). -/
def namedV (t : WordSpec) : AnyWord → List Nat
  | .g w => opdV t.d w.d ++ opdV t.a w.a ++ opdV t.b w.b ++ opdV t.c w.c
  | .i w => opdV t.d w.d ++ opdV t.a w.a
  | .l w => opdV t.d w.d
  | .j w => opdV t.d w.d

/-- The S registers that a word names. -/
def namedS (t : WordSpec) : AnyWord → List Nat
  | .g w => opdS t.d w.d ++ opdS t.a w.a ++ opdS t.b w.b ++ opdS t.c w.c
  | .i w => opdS t.d w.d ++ opdS t.a w.a
  | .l w => opdS t.d w.d
  | .j w => opdS t.d w.d

/-- The vector predicates that a word names, its guard among them. -/
def namedP (t : WordSpec) (x : AnyWord) : List Nat :=
  (if (wordGuard x).1.toNat < 12 then [(wordGuard x).1.toNat] else []) ++
  (match x with
   | .g w => opdP t.d w.d ++ opdP t.a w.a ++ opdP t.b w.b ++ opdP t.c w.c
   | .i w => opdP t.d w.d ++ opdP t.a w.a
   | .l _ => []
   | .j _ => [])

/-- The V registers whose last read a word marks (R62). -/
def lastReads (t : WordSpec) : AnyWord → List Nat
  | .g w => (if w.lra then opdV t.a w.a else []) ++ (if w.lrb then opdV t.b w.b else []) ++
      (if w.lrc then opdV t.c w.c else [])
  | .i w => if w.lra then opdV t.a w.a else []
  | .l _ => []
  | .j _ => []

/-! ## Regions (R237) -/

/-- An operation's region: rows, columns, first row, first column. -/
structure TileRegion where
  rows : Nat
  cols : Nat
  row0 : Nat
  col0 : Nat
  deriving DecidableEq, Repr

/-- The region of SHP and SUB. -/
def regionOf (md : BitVec 12) : TileRegion :=
  let sub := mSub md
  match mShp md with
  | 0 => { rows := 96, cols := 128, row0 := 0, col0 := 0 }
  | 1 => { rows := 32, cols := 128, row0 := 32 * sub, col0 := 0 }
  | 2 => { rows := 32, cols := 32, row0 := 32 * (sub / 4), col0 := 32 * (sub % 4) }
  | _ => { rows := 32, cols := 16, row0 := 32 * (sub / 8), col0 := 16 * (sub % 8) }

end Sys2Proof.Machine
end

