-- ==== Sys2Proof/Machine/Num.lean ====
section
/-!
DEFINITION. Number formats and RoundTo (R123 to R132): exact values, decoding, rounding, encoding.
-/
namespace Sys2Proof.Machine

/-! ## Exact values -/

/-- An exact value: NaN, an infinity, or (-1)^neg · m · 2^e. A zero keeps its sign (R126). -/
inductive Num where
  | nan
  | inf (neg : Bool)
  | fin (neg : Bool) (m : Nat) (e : Int)
  deriving DecidableEq, Repr

/-- 2^n, written so that large powers stay cheap. -/
def pow2 (n : Nat) : Nat := 1 <<< n

/-- The exact value of an integer. -/
def Num.ofInt (x : Int) : Num := .fin (x < 0) x.natAbs 0

/-- Zero with a sign. -/
def Num.zero (neg : Bool) : Num := .fin neg 0 0

def Num.isNan : Num → Bool
  | .nan => true
  | _ => false

/-- Is the value an exact zero? -/
def Num.isZero : Num → Bool
  | .fin _ m _ => m == 0
  | _ => false

/-- The sign bit. -/
def Num.sign : Num → Bool
  | .nan => false
  | .inf n => n
  | .fin n _ _ => n

def Num.neg : Num → Num
  | .nan => .nan
  | .inf n => .inf (!n)
  | .fin n m e => .fin (!n) m e

/-- The signed significand of a finite value scaled to exponent `e0`, which must not exceed its own. -/
def scaled (neg : Bool) (m : Nat) (e e0 : Int) : Int :=
  let x : Int := (m * pow2 (e - e0).toNat : Nat)
  if neg then -x else x

/-- The exact product, with the sign of a zero product; 0 × ∞ is NaN (R126). -/
def Num.mul : Num → Num → Num
  | .nan, _ => .nan
  | _, .nan => .nan
  | .inf a, .inf b => .inf (a != b)
  | .inf a, .fin b m _ => if m = 0 then .nan else .inf (a != b)
  | .fin a m _, .inf b => if m = 0 then .nan else .inf (a != b)
  | .fin a m e, .fin b n f => .fin (a != b) (m * n) (e + f)

/-- The exact sum. An exact zero sum of operands of opposite sign is +0, or -0 with `rd` (R126). -/
def Num.add (rd : Bool) : Num → Num → Num
  | .nan, _ => .nan
  | _, .nan => .nan
  | .inf a, .inf b => if a = b then .inf a else .nan
  | .inf a, .fin _ _ _ => .inf a
  | .fin _ _ _, .inf b => .inf b
  | .fin a m e, .fin b n f =>
    if m = 0 && n = 0 then .fin (if a = b then a else rd) 0 0
    else
      let e0 := min e f
      let x := scaled a m e e0 + scaled b n f e0
      if x = 0 then .fin rd 0 0 else .fin (x < 0) x.natAbs e0

/-- Is `a` below `b`? Zeros are equal; false when either is NaN. -/
def Num.lt (a b : Num) : Bool :=
  match a, b with
  | .nan, _ => false
  | _, .nan => false
  | .inf x, .inf y => x && !y
  | .inf x, .fin _ _ _ => x
  | .fin _ _ _, .inf y => !y
  | .fin x m e, .fin y n f => let e0 := min e f; scaled x m e e0 < scaled y n f e0

/-- Equality by value; false when either is NaN. -/
def Num.eqv (a b : Num) : Bool := !a.isNan && !b.isNan && !Num.lt a b && !Num.lt b a

/-- `a` below `b` with -0 below +0 (R126). -/
def Num.ltZ (a b : Num) : Bool := Num.lt a b || (a.isZero && b.isZero && a.sign && !b.sign)

/-- The exact sum of a list taken at once (R139): NaN elements and opposite infinities make it NaN. An
exact zero is -0 when `rd` or every term is -0 (R137, R201). -/
def Num.sum (rd : Bool) (xs : List Num) : Num :=
  let allNegZero := xs.all (fun x => x.isZero && x.sign) && !xs.isEmpty
  match xs.foldl (Num.add false) (.fin false 0 0) with
  | .fin n m e => if m = 0 then .fin (allNegZero || rd) 0 0 else .fin n m e
  | x => x

/-! ## Formats (R125 to R129) -/

/-- A float format: precision, bias, width, largest finite code, codes of infinity (if any) and NaN. -/
structure Fmt where
  p : Nat
  bias : Int
  width : Nat
  signed : Bool
  maxCode : Nat
  infCode : Option Nat
  nanCode : Nat
  /-- One zero only, and no negative values when unsigned (binary8). -/
  q8 : Bool
  deriving DecidableEq, Repr

def fmtF32 : Fmt :=
  { p := 24, bias := 127, width := 32, signed := true, maxCode := 0x7F7FFFFF, infCode := some 0x7F800000,
    nanCode := 0x7FC00000, q8 := false }
def fmtF16 : Fmt :=
  { p := 11, bias := 15, width := 16, signed := true, maxCode := 0x7BFF, infCode := some 0x7C00,
    nanCode := 0x7E00, q8 := false }
def fmtBf16 : Fmt :=
  { p := 8, bias := 127, width := 16, signed := true, maxCode := 0x7F7F, infCode := some 0x7F80,
    nanCode := 0x7FC0, q8 := false }
/-- binary8 at precision `p`, unsigned with `u`, finite with `f` (R127 to R129). -/
def fmtQ8 (p : Nat) (u f : Bool) : Fmt :=
  { p := p, bias := if u then (pow2 (8 - p) : Nat) else (pow2 (7 - p) : Nat), width := 8, signed := !u,
    maxCode := if u then (if f then 0xFE else 0xFD) else (if f then 0x7F else 0x7E),
    infCode := if f then none else some (if u then 0xFE else 0x7F),
    nanCode := if u then 0xFF else 0x80, q8 := true }

/-- The format of a float type. -/
def fmtOf : Ty → Fmt
  | .f32 => fmtF32
  | .f16 => fmtF16
  | .bf16 => fmtBf16
  | .f16x2 => fmtF16
  | .bf16x2 => fmtBf16
  | .q8 p u f => fmtQ8 p u f
  | _ => fmtF32

/-- The value of a code (R125, R127, R128). -/
def Fmt.decode (f : Fmt) (code : Nat) : Num :=
  let c := code % pow2 f.width
  let neg := f.signed && (c / pow2 (f.width - 1)) % 2 == 1
  let m := if f.signed then c % pow2 (f.width - 1) else c
  let t := f.p - 1
  let ex := m / pow2 t
  let tr := m % pow2 t
  if f.q8 && c = f.nanCode then .nan
  else if f.infCode = some m then .inf neg
  else if !f.q8 && m > f.maxCode then .nan
  else if ex = 0 then .fin neg tr (1 - f.bias - t)
  else .fin neg (pow2 t + tr) ((ex : Int) - f.bias - t)

/-! ## RoundTo (R130, R131) -/

/-- Rounding modes: 0 RNE, 1 RZ, 2 RU, 3 RD, 4 RO (R65). -/
abbrev Rnd := Nat

/-- How a magnitude n + r (0 ≤ r < 1) in units of the last place is rounded: `low` compares r with 1/2
(0 exact, 1 below, 2 half, 3 above), `odd` says that the code of n ends in 1. The result adds 0 or 1. -/
def roundUp (mode : Rnd) (neg : Bool) (low : Nat) (odd : Bool) : Bool :=
  if low = 0 then false
  else match mode with
    | 0 => low = 3 || (low = 2 && odd)
    | 1 => false
    | 2 => !neg
    | 3 => neg
    | _ => !odd

/-- Where the part of `m` below bit `k` lies against half of 2^k; `sticky` says that the exact value is a
little above m. -/
def lowPart (m k : Nat) (sticky : Bool) : Nat :=
  if k = 0 then (if sticky then 1 else 0)
  else
    let r := m % pow2 k
    let h := pow2 (k - 1)
    if r = 0 && !sticky then 0
    else if r < h then 1
    else if r = h && !sticky then 2
    else 3

/-- floor(log₂ m) of a nonzero m. -/
def log2 (m : Nat) : Nat := Nat.log2 m

/-- The code of a magnitude rounded into format `f` with the exponent unbounded above (R130): m·2^e, or a
little more when `sticky`; `m` must have more than p + 1 bits when sticky. -/
def Fmt.roundMag (f : Fmt) (mode : Rnd) (neg : Bool) (m : Nat) (e : Int) (sticky : Bool) : Nat :=
  let t : Nat := f.p - 1
  let qmin : Int := 1 - f.bias - t
  -- exponent of the last place of the value's binade
  let q : Int := if m = 0 then qmin else max ((log2 m : Int) + e - t) qmin
  if q ≤ e then
    -- exact: shift left
    let n := m * pow2 (e - q).toNat
    if n < pow2 t then n else ((q - qmin).toNat + 1) * pow2 t + (n - pow2 t)
  else
    let k := (q - e).toNat
    let n := m / pow2 k
    let odd := if f.p = 1 then n != 0 && ((q + f.bias) % 2 == 1) else n % 2 == 1
    let n := if roundUp mode neg (lowPart m k sticky) odd then n + 1 else n
    if n < pow2 t then n
    else if n = pow2 (t + 1) then ((q - qmin).toNat + 2) * pow2 t
    else ((q - qmin).toNat + 1) * pow2 t + (n - pow2 t)

/-- A magnitude code with its sign. -/
def Fmt.signed' (f : Fmt) (neg : Bool) (c : Nat) : Nat :=
  if neg && f.signed && !(f.q8 && c = 0) then c + pow2 (f.width - 1) else c

/-- OverRule (R131): the code of an overflow. -/
def Fmt.over (f : Fmt) (mode : Rnd) (sat neg : Bool) : Nat :=
  let toInf := match mode with
    | 0 => true
    | 2 => !neg
    | 3 => neg
    | _ => false
  match f.infCode with
  | some c => if sat || !toInf then f.signed' neg f.maxCode else f.signed' neg c
  | none => f.signed' neg f.maxCode

/-- InfRule (R131): the code of an exact infinity. -/
def Fmt.infinite (f : Fmt) (sat neg : Bool) : Nat :=
  if sat then f.signed' neg f.maxCode
  else match f.infCode with
    | some c => f.signed' neg c
    | none => f.nanCode

/-- RoundTo for a float format (R130): the code of an exact value, or of one a little above it in
magnitude when `sticky`. -/
def Fmt.roundS (f : Fmt) (mode : Rnd) (sat sticky : Bool) (x : Num) : Nat :=
  match x with
  | .nan => f.nanCode
  | .inf neg => if neg && !f.signed then (if sat then 0 else f.nanCode) else f.infinite sat neg
  | .fin neg m e =>
    if m = 0 && !sticky then f.signed' neg 0
    else if neg && !f.signed then (if sat then 0 else f.nanCode)
    else
      let c := f.roundMag mode neg m e sticky
      if c > f.maxCode then f.over mode sat neg else f.signed' neg c

/-- RoundTo(fmt, mode, x), with .sat (R130). -/
def Fmt.round (f : Fmt) (mode : Rnd) (sat : Bool) (x : Num) : Nat := f.roundS mode sat false x

/-- The integer RoundTo(integers, mode, x) of a finite value. -/
def roundInt (mode : Rnd) (neg : Bool) (m : Nat) (e : Int) : Int :=
  let n : Nat :=
    if 0 ≤ e then m * pow2 e.toNat
    else
      let k := (-e).toNat
      let n := m / pow2 k
      if roundUp mode neg (lowPart m k false) (n % 2 == 1) then n + 1 else n
  if neg then -(n : Int) else n

/-- The least value of an integer type (R123). -/
def tyMin : Ty → Int
  | .int w => -((pow2 (w - 1) : Nat) : Int)
  | _ => 0

/-- The greatest value of an integer type (R123). -/
def tyMax : Ty → Int
  | .int w => (pow2 (w - 1) : Nat) - 1
  | t => (pow2 (tyWidth t) : Nat) - 1

/-- Clamp to a type's range. -/
def clampTo (t : Ty) (x : Int) : Int := if x < tyMin t then tyMin t else if tyMax t < x then tyMax t else x

/-- RoundTo an integer type (R130, R131): NaN gives 0, others clamp. -/
def roundToInt (t : Ty) (mode : Rnd) : Num → Int
  | .nan => 0
  | .inf neg => if neg then tyMin t else tyMax t
  | .fin neg m e => clampTo t (roundInt mode neg m e)

/-! ## Integers in registers (R123, R124) -/

/-- The value of the low bits of `x` read as a type: signed for .iN, else unsigned. -/
def readTy (t : Ty) (x : Nat) : Int :=
  let w := tyWidth t
  let y := x % pow2 w
  match t with
  | .int _ => if pow2 (w - 1) ≤ y then (y : Int) - (pow2 w : Nat) else y
  | _ => y

/-- The low `w` bits of an integer. -/
def wrapNat (w : Nat) (x : Int) : Nat := (x % ((pow2 w : Nat) : Int)).toNat

/-- The low `n` bits of a result of type `t` extended to `n` bits (R124): signed types sign-extend. -/
def extendTy (t : Ty) (n : Nat) (x : Int) : Nat := wrapNat n (readTy t (wrapNat (tyWidth t) x))

/-- Exact value of a source of a type from its low bits (R123 to R128). -/
def valOf (t : Ty) (x : Nat) : Num :=
  match t with
  | .int _ => .ofInt (readTy t x)
  | .nat _ => .ofInt (readTy t x)
  | .bits _ => .ofInt (readTy t x)
  | _ => (fmtOf t).decode x

/-- RoundTo a type: the code in the type's low bits (R130). -/
def roundTy (t : Ty) (mode : Rnd) (sat : Bool) (x : Num) : Nat :=
  match t with
  | .int w => wrapNat w (roundToInt t mode x)
  | .nat w => wrapNat w (roundToInt t mode x)
  | .bits w => wrapNat w (roundToInt t mode x)
  | _ => (fmtOf t).round mode sat x

/-! ## Float minimum, maximum and comparison -/

/-- FMIN and FMAX on codes of one format (R126): -0 below +0; one NaN operand yields the other. -/
def fMinMax (f : Fmt) (isMax : Bool) (a b : Nat) : Nat :=
  let x := f.decode a
  let y := f.decode b
  let m := pow2 f.width
  if x.isNan && y.isNan then f.nanCode
  else if x.isNan then b % m
  else if y.isNan then a % m
  else if isMax then (if Num.ltZ x y then b % m else a % m)
  else (if Num.ltZ y x then b % m else a % m)

end Sys2Proof.Machine
end

