-- ==== Sys2Proof/Machine/Flags.lean ====
section
/-!
DEFINITION. What instructions compute into predicates and the sticky flag: comparisons (R168, R181, R193),
carries (R184), clamps that set SATF (R123, R185).
-/
namespace Sys2Proof.Machine

/-- The compare codes 0 to 5 on an order: `.eq .ne .lt .le .gt .ge` (R168). -/
def cmpCode (code : Nat) (lt eq : Bool) : Bool :=
  match code with
  | 0 => eq
  | 1 => !eq
  | 2 => lt
  | 3 => lt || eq
  | 4 => !lt && !eq
  | _ => !lt

/-- An integer or raw-bit comparison by the type's order (R168, R181). -/
def cmpInt (t : Ty) (code a b : Nat) : Bool :=
  let x := readTy t a
  let y := readTy t b
  cmpCode code (x < y) (x == y)

/-- A float comparison (R193): with a NaN operand only `.ne` (1) and `.un` (6) are true; 7 is `.or`. -/
def cmpFloat (f : Fmt) (code a b : Nat) : Bool :=
  let x := f.decode a
  let y := f.decode b
  if x.isNan || y.isNan then code == 1 || code == 6
  else if code = 6 then false
  else if code = 7 then true
  else cmpCode code (Num.lt x y) (Num.eqv x y)

/-- Wrap an exact result to a type, or clamp it, and say whether the clamp changed it (R180). -/
def fitInt (t : Ty) (sat : Bool) (x : Int) : Int × Bool :=
  if sat then (clampTo t x, clampTo t x != x) else (readTy t (wrapNat (tyWidth t) x), false)

/-- A 32-bit add or subtract with carry: the result and the carry out (R184). -/
def addCarry (sub : Bool) (a b : Nat) (c : Bool) : Nat × Bool :=
  let k : Int := if c then 1 else 0
  let x : Int := if sub then (a : Int) - b - k else (a : Int) + b + k
  (wrapNat 32 x, if sub then x < 0 else 4294967296 ≤ x)

/-- Q3 of SADDR (R171): the exact sum leaves 64 bits, or the result has bits above 55. -/
def addrOverflow (x : Nat) : Bool := pow2 64 ≤ x || pow2 56 ≤ x % pow2 64

/-- The number of ones in the low `n` bits. -/
def popCount (n x : Nat) : Nat := ((List.range n).filter (fun k => x / pow2 k % 2 == 1)).length

/-- Zeros above the highest one in the low `n` bits. -/
def leadZeros (n x : Nat) : Nat :=
  let y := x % pow2 n
  if y = 0 then n else n - 1 - Nat.log2 y

end Sys2Proof.Machine
end

