-- ==== Sys2Proof/Config.lean ====
section
/-!
DEFINITION. What the spec leaves open, as constants without a body: no proof can see a value of any of
them, so a claim about the model holds whatever they are (DESIGN CHOICE, log 4, log 11; DEDUCED, log 10).
-/
namespace Sys2Proof.Config

/-- The slice of lane `l` of a V register that has not been written since its frame was made or since it
was marked dead (R116); `n` counts the free values handed out so far. -/
opaque stale : Nat → Nat → Slice

/-- A byte of a team's core-store range that nothing has written since the team was placed (R46): `n`
names the placement, `a` the byte. -/
opaque freshByte : Nat → Nat → Byte

/-- An element of an accumulator tile that nothing has written since the tile's team was placed (R46):
`n` names the placement, `e` the element. -/
opaque freshElement : Nat → Nat → BitVec 32

/-- Whether a transfer that reads a byte of its own destination takes the value that the byte held when the
transfer issued, rather than its present one (R230), the `n`-th free value of a run. -/
opaque overlapPick : Nat → Bool

/-- The promise a TMOV, COPY or GTHA writes: how many cycles past CYC + 16 the engine commits to (R220). -/
opaque promiseSlack : Nat → BitVec 16

/-- The correctly rounded result of an elementary function where the model's brackets do not decide it
(R133; DEDUCED, log 10): function code, type code, operand bits. -/
opaque elementary : Nat → Nat → BitVec 32 → BitVec 32

/-- The number of images in the module's flash, minus 1 (R395). -/
opaque imageCount : BitVec 3

/-- What an outside agent answers where the spec leaves the value to the agent: a byte read at a peer
MB9 (R77, R212), the `n`-th free value of a run. -/
opaque peerByte : Nat → Byte

/-- A byte that a host read through BAR2 returns of an address at which no memory lies, for which the spec states
no answer (R382): the `n`-th free value of a run. -/
opaque hostByte : Nat → Byte

/-- Which of the UP ports toward a peer carries a request (R392: requests are sprayed over them), by the
request's name. -/
opaque sprayPort : Nat → Nat

/-- Whether a box whose slab test fails is entered all the same, which R290 leaves to the cellar: the `n`-th
free value of a run. -/
opaque boxEntered : Nat → Bool

/-- What a triangle with a vertex that is a NaN or an infinity does, for which R290 states no determinant:
whether it is hit, whether it is a front, its t, u and v; the `n`-th free value of a run. -/
opaque oddTriangle : Nat → Bool × Bool × Slice × Slice × Slice

/-- A field of a final record for which R288 and R289 state no value: no hit has been committed and the
status is neither HIT nor MISS; the `n`-th free value of a run. -/
opaque recordField : Nat → Slice

/-- A channel of a texture sample whose coordinate is an infinity, for which R299 has no floor: the `n`-th
free value of a run. -/
opaque infiniteSample : Nat → Slice

/-- TRINFO of a FAMILY_INVALID that an empty slot raises, which has no record's address (R320, R358): the
`n`-th free value of a run. -/
opaque emptySlotInfo : Nat → Word

/-- Whether an access at a cellar meets an error that ECC corrects (R279), by the stack and the number of the access. -/
opaque correctable : Nat → Nat → Bool

/-- Whether a row's activation counter fails its parity at a precharge (R278), by the stack, the number of the access
and the row. -/
opaque counterParity : Nat → Nat → Nat → Bool

/-- How many cycles a request takes from its core to its home (R270, R272), by the request's name. -/
opaque transit : Nat → Nat

/-- Which of the bytes that stood at a place of a const section while a grid runs its image a later SLDC takes (R20),
the `n`-th free value of a run. -/
opaque constPick : Nat → Nat

/-- A word that stood behind a clause's first words when the clause cache was filled with them, and that had not been fetched
when the clause was rewritten (R75), the `n`-th free value of a run. -/
opaque oldCode : Nat → Word

/-- Whether a load takes its value from its core's write queue, where it may (R337), the `n`-th free value of a run. -/
opaque queueRead : Nat → Bool

/-- Whether a translation takes the leaf that a TLB holds rather than the one that the tables hold now (R213), the
`n`-th free value of a run. -/
opaque staleLeaf : Nat → Bool

/-- The SHAKE256 digest of a string of bytes (R394, R395), which the spec names and does not define. -/
opaque shake256 : List Byte → BitVec 512

/-- The digest and the security version of the firmware image of a name, and whether its signature holds against the
public key whose digest is fused into the module (R394). -/
opaque imageDigest : Nat → BitVec 512
opaque imageVersion : Nat → Word
opaque imageSigned : Nat → Bool

/-- The fused counter against which security versions are checked (R394). -/
opaque fusedVersion : Word

/-- The place of the flash that an image's update writes (R394), by the image's name. -/
opaque imagePlace : Nat → Nat

/-- The module's serial number, and byte `k` of its attestation public key (R395). -/
opaque serialNumber : Word
opaque attestKey : Nat → Byte

/-- A byte of a report's records past the last image, of which R395 states no value, the `n`-th free value of a run. -/
opaque attestUnused : Nat → Byte

/-- Byte `k` of the ML-DSA-65 signature over a digest with the module's attestation key (R395); `n` is the free value
of the signing. -/
opaque attestSignature : BitVec 512 → Nat → Nat → Byte

/-- Whether the expander of a tier port answers a request in a cycle (R390). -/
opaque expanderAnswers : Nat → Nat → Bool

/-- Whether the link of a quarantined tier port is up in a cycle (R388). -/
opaque linkUp : Nat → Nat → Bool

end Sys2Proof.Config
end

