-- ==== Sys2Proof/WellFormed.lean ====
section
/-!
DEFINITION. Well-formed instructions: the checks of R55 on a clause header and of R60 to R67 on an
instruction word. A step of the device carries no encoded field, so it is well formed.
-/
namespace Sys2Proof

/-- Checks 2 and 3 of R55 on a clause header. -/
def headerOk (h : Header) : Bool :=
  h.ecls != 7 && h.res == 0 &&
  (if h.fav then h.fa.toNat < 12 else h.fa == 0) && (if h.fbv then h.fb.toNat < 12 else h.fb == 0)

/-- Is the instruction well formed (R55, R60 to R67)? -/
def wellFormedB (i : Instr) : Bool :=
  match i with
  | .clauseHeaderIssue h => headerOk h
  | j =>
    match Machine.wordSpec j, Machine.wordOf j with
    | some t, some w => Machine.anyWordLegal t w
    | _, _ => true

/-- An instruction that R55 or R70 order 3 does not trap. -/
abbrev WellFormed (i : Instr) : Prop := wellFormedB i = true

end Sys2Proof
end

