-- ==== Sys2Proof/Decode.lean ====
section
/-!
DEFINITION. The decoder of the MB9's instruction words and clause headers, total on any bytes, and the
encoder beside it, both from the tables of R54, R59, R63 and R69.
-/
namespace Sys2Proof

/-! ## Bytes -/

/-- The 64-bit little-endian word of the first eight bytes of a list (R6). -/
def wordOfBytes (bs : List Byte) : Word :=
  (List.range 8).foldl (fun x k => x ||| ((bs.getD k 0).setWidth 64 <<< (8 * k))) 0

/-- The eight bytes of a word, the lowest first (R6). -/
def bytesOfWord (x : Word) : List Byte := (List.range 8).map (fun k => x.extractLsb' (8 * k) 8)

/-! ## Fields -/

/-- The fields of formats G, M, X and Z (R59). -/
def fieldsG (x : Word) : WordG :=
  { grd := x.extractLsb' 50 4, sns := x.getLsbD 49, d := x.extractLsb' 41 8, a := x.extractLsb' 33 8,
    b := x.extractLsb' 25 8, c := x.extractLsb' 17 8, lra := x.getLsbD 16, lrb := x.getLsbD 15,
    lrc := x.getLsbD 14, fsel := x.getLsbD 13, co := x.getLsbD 12, mod := x.extractLsb' 0 12 }

/-- The fields of format I (R63). -/
def fieldsI (x : Word) : WordI :=
  { grd := x.extractLsb' 50 4, sns := x.getLsbD 49, d := x.extractLsb' 41 8, a := x.extractLsb' 33 8,
    imm := x.extractLsb' 17 16, lra := x.getLsbD 16, res := x.extractLsb' 14 2, fsel := x.getLsbD 13,
    co := x.getLsbD 12, mod := x.extractLsb' 0 12 }

/-- The fields of format L (R63). -/
def fieldsL (x : Word) : WordL :=
  { grd := x.extractLsb' 50 4, sns := x.getLsbD 49, d := x.extractLsb' 41 8, imm := x.extractLsb' 0 41 }

/-- The fields of format J (R63). -/
def fieldsJ (x : Word) : WordJ :=
  { grd := x.extractLsb' 50 4, sns := x.getLsbD 49, d := x.extractLsb' 41 8, off := x.extractLsb' 9 32,
    jmod := x.extractLsb' 0 9 }

/-- The fields of a clause header (R54). -/
def fieldsHeader (x : Word) : Header :=
  { cnt := x.extractLsb' 56 4, ecls := x.extractLsb' 53 3, wait := x.extractLsb' 41 12,
    fav := x.getLsbD 40, fa := x.extractLsb' 36 4, fbv := x.getLsbD 35, fb := x.extractLsb' 31 4,
    reg := x.getLsbD 30, y := x.getLsbD 29, swp := x.getLsbD 28, res := x.extractLsb' 0 28 }

/-- SIG of a clause header: bits [63:60] are 0b1101 (R54). -/
def isHeader (x : Word) : Bool := x.extractLsb' 60 4 == 0b1101#4

/-- The instruction of an assigned opcode (R69), its fields as its format lays them out (R63). -/
def ofOpcode (opc : Nat) (x : Word) : Option Instr :=
  match opc with
  | 0x000 => some (.bra (fieldsJ x))
  | 0x001 => some (.jmp (fieldsJ x))
  | 0x002 => some (.ubra (fieldsJ x))
  | 0x003 => some (.brx (fieldsG x))
  | 0x004 => some (.call (fieldsJ x))
  | 0x005 => some (.callx (fieldsG x))
  | 0x006 => some (.ret (fieldsG x))
  | 0x007 => some (.unwind (fieldsI x))
  | 0x008 => some (.exit (fieldsG x))
  | 0x009 => some (.nop (fieldsG x))
  | 0x00A => some (.yield (fieldsG x))
  | 0x00B => some (.sleep (fieldsG x))
  | 0x00C => some (.bkpt (fieldsI x))
  | 0x00D => some (.trap (fieldsI x))
  | 0x00E => some (.tret (fieldsG x))
  | 0x00F => some (.sread (fieldsI x))
  | 0x010 => some (.swrite (fieldsI x))
  | 0x011 => some (.launch (fieldsG x))
  | 0x012 => some (.fetchw (fieldsG x))
  | 0x080 => some (.sadd (fieldsG x))
  | 0x0C0 => some (.saddI (fieldsI x))
  | 0x081 => some (.ssub (fieldsG x))
  | 0x0C1 => some (.ssubI (fieldsI x))
  | 0x082 => some (.smul (fieldsG x))
  | 0x0C2 => some (.smulI (fieldsI x))
  | 0x083 => some (.smulh (fieldsG x))
  | 0x084 => some (.smad (fieldsG x))
  | 0x085 => some (.sand (fieldsG x))
  | 0x0C5 => some (.sandI (fieldsI x))
  | 0x086 => some (.sor (fieldsG x))
  | 0x0C6 => some (.sorI (fieldsI x))
  | 0x087 => some (.sxor (fieldsG x))
  | 0x0C7 => some (.sxorI (fieldsI x))
  | 0x088 => some (.snot (fieldsG x))
  | 0x089 => some (.sshl (fieldsG x))
  | 0x0C9 => some (.sshlI (fieldsI x))
  | 0x08A => some (.sshr (fieldsG x))
  | 0x0CA => some (.sshrI (fieldsI x))
  | 0x08B => some (.smin (fieldsG x))
  | 0x0CB => some (.sminI (fieldsI x))
  | 0x08C => some (.smax (fieldsG x))
  | 0x0CC => some (.smaxI (fieldsI x))
  | 0x08D => some (.ssel (fieldsG x))
  | 0x08E => some (.scmp (fieldsG x))
  | 0x0CE => some (.scmpI (fieldsI x))
  | 0x08F => some (.smov (fieldsG x))
  | 0x090 => some (.smovi (fieldsL x))
  | 0x091 => some (.sbfe (fieldsG x))
  | 0x092 => some (.sbfi (fieldsG x))
  | 0x093 => some (.spopc (fieldsG x))
  | 0x094 => some (.sclz (fieldsG x))
  | 0x095 => some (.saddr (fieldsG x))
  | 0x096 => some (.sldc (fieldsI x))
  | 0x100 => some (.vadd (fieldsG x))
  | 0x140 => some (.vaddI (fieldsI x))
  | 0x101 => some (.vsub (fieldsG x))
  | 0x141 => some (.vsubI (fieldsI x))
  | 0x102 => some (.vmul (fieldsG x))
  | 0x142 => some (.vmulI (fieldsI x))
  | 0x103 => some (.vmulh (fieldsG x))
  | 0x104 => some (.vmad (fieldsG x))
  | 0x105 => some (.vmin (fieldsG x))
  | 0x145 => some (.vminI (fieldsI x))
  | 0x106 => some (.vmax (fieldsG x))
  | 0x146 => some (.vmaxI (fieldsI x))
  | 0x107 => some (.vabs (fieldsG x))
  | 0x108 => some (.vneg (fieldsG x))
  | 0x109 => some (.vand (fieldsG x))
  | 0x149 => some (.vandI (fieldsI x))
  | 0x10A => some (.vor (fieldsG x))
  | 0x14A => some (.vorI (fieldsI x))
  | 0x10B => some (.vxor (fieldsG x))
  | 0x14B => some (.vxorI (fieldsI x))
  | 0x10C => some (.vnot (fieldsG x))
  | 0x10D => some (.vshl (fieldsG x))
  | 0x14D => some (.vshlI (fieldsI x))
  | 0x10E => some (.vshr (fieldsG x))
  | 0x14E => some (.vshrI (fieldsI x))
  | 0x10F => some (.vshrr (fieldsG x))
  | 0x14F => some (.vshrrI (fieldsI x))
  | 0x110 => some (.vbfe (fieldsG x))
  | 0x111 => some (.vbfi (fieldsG x))
  | 0x112 => some (.vpopc (fieldsG x))
  | 0x113 => some (.vclz (fieldsG x))
  | 0x114 => some (.vsel (fieldsG x))
  | 0x115 => some (.vcmp (fieldsG x))
  | 0x155 => some (.vcmpI (fieldsI x))
  | 0x116 => some (.vaddcy (fieldsG x))
  | 0x118 => some (.vdot2 (fieldsG x))
  | 0x119 => some (.vdot4 (fieldsG x))
  | 0x11A => some (.vsat (fieldsG x))
  | 0x11B => some (.vpack (fieldsG x))
  | 0x11C => some (.vunpack (fieldsG x))
  | 0x180 => some (.fadd (fieldsG x))
  | 0x1C0 => some (.faddI (fieldsI x))
  | 0x181 => some (.fsub (fieldsG x))
  | 0x182 => some (.fmul (fieldsG x))
  | 0x1C2 => some (.fmulI (fieldsI x))
  | 0x183 => some (.ffma (fieldsG x))
  | 0x184 => some (.fmin (fieldsG x))
  | 0x1C4 => some (.fminI (fieldsI x))
  | 0x185 => some (.fmax (fieldsG x))
  | 0x1C5 => some (.fmaxI (fieldsI x))
  | 0x186 => some (.fcmp (fieldsG x))
  | 0x1C6 => some (.fcmpI (fieldsI x))
  | 0x187 => some (.frnd (fieldsG x))
  | 0x188 => some (.frcp (fieldsG x))
  | 0x189 => some (.frsq (fieldsG x))
  | 0x18A => some (.fsqrt (fieldsG x))
  | 0x18B => some (.fexp2 (fieldsG x))
  | 0x18C => some (.flog2 (fieldsG x))
  | 0x18D => some (.fsin (fieldsG x))
  | 0x18E => some (.fcos (fieldsG x))
  | 0x190 => some (.hadd2 (fieldsG x))
  | 0x191 => some (.hmul2 (fieldsG x))
  | 0x192 => some (.hfma2 (fieldsG x))
  | 0x193 => some (.hmin2 (fieldsG x))
  | 0x194 => some (.hmax2 (fieldsG x))
  | 0x198 => some (.cvt (fieldsG x))
  | 0x200 => some (.shfl (fieldsG x))
  | 0x201 => some (.slide (fieldsG x))
  | 0x202 => some (.vote (fieldsG x))
  | 0x203 => some (.vred (fieldsG x))
  | 0x204 => some (.vscan (fieldsG x))
  | 0x205 => some (.vconflict (fieldsG x))
  | 0x206 => some (.vtos (fieldsG x))
  | 0x207 => some (.stov (fieldsG x))
  | 0x208 => some (.pand (fieldsG x))
  | 0x209 => some (.por (fieldsG x))
  | 0x20A => some (.pxor (fieldsG x))
  | 0x20B => some (.pnot (fieldsG x))
  | 0x20C => some (.pmovv (fieldsG x))
  | 0x20D => some (.vmovp (fieldsG x))
  | 0x20E => some (.pcount (fieldsG x))
  | 0x210 => some (.qand (fieldsG x))
  | 0x211 => some (.qor (fieldsG x))
  | 0x212 => some (.qnot (fieldsG x))
  | 0x280 => some (.ld (fieldsG x))
  | 0x281 => some (.st (fieldsG x))
  | 0x282 => some (.ldt (fieldsG x))
  | 0x283 => some (.stt (fieldsG x))
  | 0x284 => some (.tmov (fieldsG x))
  | 0x285 => some (.copy (fieldsG x))
  | 0x286 => some (.gtha (fieldsG x))
  | 0x287 => some (.tierh (fieldsG x))
  | 0x288 => some (.cjoin (fieldsG x))
  | 0x289 => some (.cleave (fieldsG x))
  | 0x28A => some (.cquery (fieldsG x))
  | 0x290 => some (.atom (fieldsG x))
  | 0x291 => some (.red (fieldsG x))
  | 0x292 => some (.cas (fieldsG x))
  | 0x293 => some (.fence (fieldsG x))
  | 0x294 => some (.bar (fieldsG x))
  | 0x295 => some (.bara (fieldsG x))
  | 0x296 => some (.barw (fieldsG x))
  | 0x297 => some (.cbar (fieldsG x))
  | 0x298 => some (.tbegin (fieldsG x))
  | 0x299 => some (.tend (fieldsG x))
  | 0x29A => some (.tabort (fieldsG x))
  | 0x29B => some (.tstat (fieldsG x))
  | 0x300 => some (.omap (fieldsG x))
  | 0x301 => some (.mma (fieldsG x))
  | 0x302 => some (.mzero (fieldsG x))
  | 0x303 => some (.mlda (fieldsG x))
  | 0x304 => some (.mdrain (fieldsG x))
  | 0x310 => some (.sopen (fieldsG x))
  | 0x311 => some (.snext (fieldsG x))
  | 0x312 => some (.sskip (fieldsG x))
  | 0x313 => some (.sisect (fieldsG x))
  | 0x314 => some (.sunion (fieldsG x))
  | 0x315 => some (.sclose (fieldsG x))
  | 0x316 => some (.sstat (fieldsG x))
  | 0x317 => some (.lisect (fieldsG x))
  | 0x320 => some (.hfam (fieldsG x))
  | 0x321 => some (.hcode (fieldsG x))
  | 0x322 => some (.hprobe (fieldsG x))
  | 0x323 => some (.hins (fieldsG x))
  | 0x324 => some (.hdel (fieldsG x))
  | 0x325 => some (.hreh (fieldsG x))
  | 0x326 => some (.hsync (fieldsG x))
  | 0x380 => some (.raye (fieldsG x))
  | 0x381 => some (.anyr (fieldsG x))
  | 0x382 => some (.trbegin (fieldsG x))
  | 0x383 => some (.trpub (fieldsG x))
  | 0x384 => some (.texf (fieldsG x))
  | 0x385 => some (.hgf (fieldsG x))
  | 0x386 => some (.attn (fieldsG x))
  | 0x387 => some (.bfill (fieldsG x))
  | _ => none

/-! ## Decoding -/

/-- Why a word is no instruction. -/
inductive Reject where
  /-- Fewer than eight bytes. -/
  | truncated
  /-- An opcode that R69 does not assign. -/
  | unassignedOpcode (opc : Nat)
  /-- A clause header that check 2 or 3 of R55 refuses. -/
  | badHeader
  /-- An assigned opcode whose word breaks R60 to R67. -/
  | illegalEncoding (opc : Nat)
  deriving DecidableEq, Repr

/-- The instruction whose opcode and fields a word holds, its fields unchecked: the constructor of an
assigned opcode, or a clause header. -/
def decodeFields (x : Word) : Option Instr :=
  if isHeader x then some (.clauseHeaderIssue (fieldsHeader x))
  else ofOpcode (bitsAt x 54 10) x

/-- The well-formed instruction of a word, or the reason there is none. -/
def decode (x : Word) : Except Reject Instr :=
  match decodeFields x with
  | none => .error (.unassignedOpcode (bitsAt x 54 10))
  | some i =>
    if wellFormedB i then .ok i
    else if isHeader x then .error .badHeader
    else .error (.illegalEncoding (bitsAt x 54 10))

/-- The instruction at the head of a list of bytes, and the bytes after it. -/
def decodeBytes (bs : List Byte) : Except Reject (Instr × List Byte) :=
  if bs.length < 8 then .error .truncated
  else (decode (wordOfBytes bs)).map (fun i => (i, bs.drop 8))

/-- What the decoder reads from an instruction whose bits are `w`; the bits above `nbits` are 0, and
every instruction word of the MB9 has 64 bits. -/
def decodeTableWord (nbits w : Nat) : Option Instr :=
  if 64 < nbits then none
  else match decodeBytes (bytesOfWord (BitVec.ofNat 64 w)) with
    | .ok (i, _) => some i
    | .error _ => none

/-! ## Encoding -/

/-- One bit. -/
def bit (b : Bool) : BitVec 1 := BitVec.ofBool b

/-- The word of an opcode and its fields (R59, R63). -/
def encodeParts (opc : Nat) : AnyWord → Word
  | .g w => BitVec.ofNat 10 opc ++ w.grd ++ bit w.sns ++ w.d ++ w.a ++ w.b ++ w.c ++ bit w.lra ++
      bit w.lrb ++ bit w.lrc ++ bit w.fsel ++ bit w.co ++ w.mod
  | .i w => BitVec.ofNat 10 opc ++ w.grd ++ bit w.sns ++ w.d ++ w.a ++ w.imm ++ bit w.lra ++ w.res ++
      bit w.fsel ++ bit w.co ++ w.mod
  | .l w => BitVec.ofNat 10 opc ++ w.grd ++ bit w.sns ++ w.d ++ w.imm
  | .j w => BitVec.ofNat 10 opc ++ w.grd ++ bit w.sns ++ w.d ++ w.off ++ w.jmod

/-- The word of a clause header (R54). -/
def encodeHeader (h : Header) : Word :=
  0b1101#4 ++ h.cnt ++ h.ecls ++ h.wait ++ bit h.fav ++ h.fa ++ bit h.fbv ++ h.fb ++ bit h.reg ++
    bit h.y ++ bit h.swp ++ h.res

/-- The word of a well-formed instruction word or clause header; `none` for a step of the device that no
word encodes. -/
def encode (i : Instr) : Option Word :=
  match i with
  | .clauseHeaderIssue h => some (encodeHeader h)
  | j => (Machine.parts j).map (fun p => encodeParts p.1 p.2)

end Sys2Proof
end

