-- ==== Sys2Proof/Machine/State.lean ====
section
/-!
DEFINITION. The state of the MB9 as plain data, its value after reset, and the reasons a step can stop.
-/
namespace Sys2Proof.Machine

/-- One lane slot's value of each of 32 lanes. -/
abbrev LaneVals := Vector Slice 32

/-! ## Why a step stops -/

/-- Why the machine stops with a fault. -/
inductive Fault where
  /-- Raised by every step of a module that has powered off at 115 °C (R393): no state is left to act on.
  Safe: the model stops where the hardware is off. -/
  | poweredOff
  /-- Raised by the meaning of an instruction word, and of a clause header, when the state names no group
  with a run to issue: no unit of the MB9 holds such a word. Safe: no run of the machine reaches it. -/
  | noIssuingRun
  deriving DecidableEq, Repr

/-- Why an instruction is refused. -/
inductive Refusal where
  /-- Answered by the dispatcher for an instruction without a meaning yet. Safe. -/
  | notModelled (mnemonic : String)
  deriving DecidableEq, Repr

/-! ## Memory -/

/-- One store: its bytes as (address, byte) pairs in rising order with no zero byte listed (DESIGN CHOICE, log 2), the
64-byte lines that are poisoned (R281, R372) in rising order, and the ranges (first, end, name) in which
nothing has been written since a placement (R46). -/
structure Store where
  cells : List Host.Cell
  poison : List Nat
  fresh : List (Nat × Nat × Nat)
  deriving DecidableEq, Repr

/-- The memories: HBM by physical address (R269), the die stores at d·2³⁰ + o (R210), the expanders by
tier physical address (R388), the core stores at core·2²⁰ + o (R209). -/
structure Memory where
  hbm : Store
  die : Store
  tier : Store
  core : Store
  deriving DecidableEq, Repr

/-- A translated .glob address or a core-store byte: its space and its address there. -/
structure Loc where
  space : Space
  addr : Nat
  deriving DecidableEq, Repr

/-! ## Groups -/

/-- A lane's entry in its group's PC table (R56, R106, R368): offset of the header in the code section,
word index, call level, region entry. -/
structure LanePC where
  live : Bool
  hdr : Nat
  idx : Nat
  level : Nat
  region : Nat
  deriving DecidableEq, Repr

/-- A link record (R117), and how many of the frame's own d - w registers are reserved, the highest ones
(R115, R120). -/
structure Link where
  reto : Nat
  cato : Nat
  base : Nat
  dem : Nat
  win : Nat
  cm : Bool
  held : Nat
  deriving DecidableEq, Repr

/-- The state of a stream register: CLOSED, OPEN, DONE (R249). -/
inductive StreamSt where
  | closed
  | opened
  | done
  deriving DecidableEq, Repr

/-- A stream register (R249). -/
structure Stream where
  desc : Word
  st : StreamSt
  lv : Bool
  lev : BitVec 3
  ppos : BitVec 32
  fin : BitVec 32
  cur : BitVec 32
  lastc : BitVec 32
  spec0 : Word
  spec1 : Word
  spec2 : Word
  spec3 : Word
  deriving DecidableEq, Repr

/-- A written operand-map slot: the three sources of OMAP (R238). -/
structure OpMap where
  a : Word
  b : Word
  c : Word
  deriving DecidableEq, Repr

/-- A trap's kind (R358, R359). -/
inductive TrapKind where
  | w
  | n
  | s
  | g
  deriving DecidableEq, Repr

/-- A trap record (R360), the stopped operation it carries (R361), the issue number of its causing word, which
orders delivery, the place that its lanes save where its kind does not fix it (R359: header and index of the word after
a SLEEP), and whether a handler's operation raised it (R376). -/
structure Trap where
  cause : Nat
  kind : TrapKind
  mask : Mask
  off : Nat
  info : Word
  regcnt : Word
  op : Option Nat
  seq : Nat
  back : Option (Nat × Nat) := none
  byHandler : Bool := false
  deriving DecidableEq, Repr

/-- The handler that a group runs (R363): its trap, the issue number at delivery, its level, the PC table
saved at delivery. -/
structure Handling where
  trap : Trap
  seq : Nat
  level : Nat
  saved : Vector LanePC 32
  deriving DecidableEq, Repr

/-- A register under a pending mark (R99); V registers by their place in the register home. -/
inductive Reg where
  | v (home : Nat)
  | s (n : Nat)
  | p (n : Nat)
  deriving DecidableEq, Repr

/-- How a group sleeps (R158, R159). -/
inductive Sleep where
  | until (deadline : Word)
  /-- The watched flag, and the SLEEP's offset, lanes, REGCNT and issue number; `zero`: CYC of the decrement
  that took the flag to zero while the group slept; `back`: header and index of the word after the SLEEP. -/
  | promise (deadline : Word) (flag off : Nat) (mask : Mask) (regcnt : Word) (seq : Nat) (zero : Option Word)
      (back : Nat × Nat)
  deriving DecidableEq, Repr

/-- The wait of a stalled word for the answer to a fault record (R214). -/
inductive FaultWait where
  | none
  | waiting (vpage : Nat) (kind : AccessKind)
  | aborted (vpage : Nat) (kind : AccessKind)
  deriving DecidableEq, Repr

/-- A barrier of a team or of a cluster (R350). -/
inductive BarRef where
  | team (t b : Nat)
  | cluster (c b : Nat)
  deriving DecidableEq, Repr

/-- A word that has arrived and waits for its phase (R352): where it stands, its run's lanes and their level. -/
structure BarWait where
  hdr : Nat
  idx : Nat
  level : Nat
  mask : Mask
  bar : BarRef
  phase : BitVec 32
  deriving DecidableEq, Repr

/-- A barrier's state (R350). -/
structure Barrier where
  ph : BitVec 32
  cnt : BitVec 16
  tgt : BitVec 16
  deriving DecidableEq, Repr

/-- A deferred arrival (R353): the barrier, its target, the operations it waits for. -/
structure Deferred where
  team : Nat
  bar : Nat
  target : BitVec 16
  ops : List Nat
  deriving DecidableEq, Repr

/-- Why a transaction is doomed (R355): CAUSE codes 0 to 9. -/
abbrev TxCause := BitVec 4

/-- A line in a lane's read set with its recorded bytes (R354). -/
structure TxRead where
  line : Line
  bytes : List Byte
  deriving DecidableEq, Repr

/-- A lane's transaction state (R354). -/
structure LaneTx where
  act : Bool
  doom : Bool
  cause : TxCause
  code : BitVec 16
  granule : Option (Space × Nat)
  reads : List TxRead
  writes : List (Loc × Byte)
  deriving DecidableEq, Repr

/-- The clause a group has begun to issue: the copy of its header and words (R75), and whether its first word has
issued or waits as a waiting word, so that its run keeps its index (R56, R98). -/
structure Clause where
  hdr : Nat
  header : Header
  words : List Word
  begun : Bool
  deriving DecidableEq, Repr

/-- Whether the group issues, sleeps in the pending set, and since when (R100 to R105, R120). -/
structure Sched where
  active : Bool
  since : Nat
  readySince : Option Nat
  raised : Bool
  claim : Bool
  waitSince : Option Nat
  blockedSince : Option Nat
  holdUntil : Nat
  leave : Bool
  deriving DecidableEq, Repr

/-- A group (R14). `gid` names it in the model; `num` is GROUPID. -/
structure Group where
  gid : Nat
  team : Nat
  num : Nat
  core : Nat
  quarter : Nat
  slot : Nat
  placed : Nat
  fbb : Word
  lanes : Vector LanePC 32
  p : Vector Mask 12
  q : Vector Bool 4
  s : Vector Word 64
  /-- Materialised V registers by their place BASE + j in the register home (R116, R117). -/
  v : List (Nat × LaneVals)
  /-- Places of V registers that hold an uncorrectable error (R372). -/
  badRegs : List Nat
  links : List Link
  k : Vector (BitVec 6) 12
  f : Vector Stream 8
  m : Vector (Option OpMap) 8
  satf : Bool
  pix : Word
  traps : List Trap
  /-- Traps that wait outside a full queue (R361). -/
  trapsOut : List Trap
  handling : Option Handling
  regcnt : Word
  marks : List (Nat × Reg)
  sleep : Option Sleep
  /-- WHY of the freeze (R376, R378). -/
  frozen : Option Nat
  faultWait : FaultWait
  barWaits : List BarWait
  arrived : Vector (Option (BitVec 32)) 16
  arrivedC : Vector (Option (BitVec 32)) 4
  deferred : List Deferred
  /-- The team handed over by FETCHW: grid handle and linear index (R49). -/
  handed : Option (BitVec 32 × Nat)
  tx : Vector LaneTx 32
  /-- Lanes whose loads read performed writes alone since a wide FENCE with acquire (R337, R341). -/
  fenced : Mask
  /-- The name under which a waiting engine word has taken lines, and the line that it waits for (R78). -/
  ownWait : Option Nat
  ownAt : Option Line
  /-- Offset of the word that has last made a fault record (R378). -/
  faultAt : Nat
  /-- Places of V registers whose copy in the register home is theirs, and of those that have still to be read back
  from it (R120, R122). -/
  clean : List Nat
  homed : List Nat
  clause : Option Clause
  /-- S and Q as a co-issued pair's uniform word found them, for its vector word (R99). -/
  pair : Option (Vector Word 64 × Vector Bool 4)
  /-- The lanes of the run that straggler release serves for one clause (R107). -/
  serve : Option Mask
  sched : Sched
  retired : Bool
  deriving DecidableEq, Repr

/-! ## Teams, clusters, grids, graphs -/

/-- A hash family's record (R259). -/
structure HashFam where
  planes : Nat
  pfmt : Nat
  dim : Nat
  lt : Nat
  kb : Nat
  deriving DecidableEq, Repr

/-- A team on a core (R14, R43): `base` is the first byte of its core-store range. -/
structure Team where
  tid : Nat
  grid : BitVec 32
  lin : Nat
  x : Nat
  y : Nat
  z : Nat
  core : Nat
  member : Nat
  cluster : Nat
  base : Nat
  csl : Nat
  /-- The core's tiles that A0, A1, … name. -/
  tiles : List Nat
  bars : Vector Barrier 16
  hash : Vector (Option HashFam) 4
  sgrp : Option Nat
  /-- Accepted peer drains that name the team (R243). -/
  drains : List Nat
  deriving DecidableEq, Repr

/-- A placed cluster and its barriers (R14, R350). -/
structure Cluster where
  cid : Nat
  grid : BitVec 32
  bars : Vector Barrier 4
  deriving DecidableEq, Repr

/-- The fields of a kernel header (R16). -/
structure KernelHeader where
  codeb : Nat
  codeo : Nat
  tx : Nat
  ty : Nat
  tz : Nat
  frame : Nat
  tiles : Nat
  cw : Nat
  ch : Nat
  csl : Nat
  entry : Nat
  hndl : Nat
  hv : Bool
  homek : Nat
  constb : Nat
  consto : Nat
  deriving DecidableEq, Repr

/-- A node record (R22), with the distributor's copy of its kernel header (R18). -/
inductive Node where
  | kernel (image : Nat) (hdr : KernelHeader) (gx gy gz pbytes poff comp frameAddr frameBytes : Nat)
  | copy (src dst bytes : Nat)
  | hostwait (flag : Nat) (value : Word)
  | signal (irq : Bool) (flag : Nat) (value : Word)
  deriving DecidableEq, Repr

/-- How far a node of an instance has come (R25, R431). -/
inductive NodeSt where
  | waiting
  | running
  /-- A COPY node: the next unit, the pages and lines (as address / unit of skipping) being skipped, and while it is
  stopped those that ABORT would add. -/
  | copying (unit : Nat) (skips stop : List (Nat × AccessKind))
  | done
  deriving DecidableEq, Repr

/-- An instance of a graph (R35, R38): its number and its copy of the parameter area. -/
structure Instance where
  num : Nat
  area : List Host.Cell
  nodes : List NodeSt
  started : Bool
  deriving DecidableEq, Repr

/-- An uploaded graph (R21, R30) and its GSTAT fields (R36). -/
structure Graph where
  gnum : BitVec 8
  parea : Nat
  gdone : Nat
  nodes : List Node
  edges : List (Nat × Nat)
  area : List Host.Cell
  icomp : BitVec 32
  ltr : BitVec 8
  accepted : Nat
  insts : List Instance
  deriving DecidableEq, Repr

/-- A detached instance (R40, R41). -/
structure Detached where
  id : Nat
  gnum : BitVec 8
  node : Nat
  what : Node
  area : List Host.Cell
  st : NodeSt
  status : Word
  /-- The LAUNCH operation whose flag falls with the first result. -/
  op : Nat
  deriving DecidableEq, Repr

/-- A grid (R14, R39, R43, R45): teams not yet placed are those of clusters from `next` on. -/
structure Grid where
  handle : BitVec 32
  ref : InstRef
  node : Nat
  image : Nat
  hdr : KernelHeader
  gx : Nat
  gy : Nat
  gz : Nat
  comp : Nat
  frameBase : Nat
  frameBytes : Nat
  params : List Host.Cell
  pbytes : Nat
  /-- Offsets of 8-byte words of the parameter copy that hold an uncorrectable error (R172). -/
  badParams : List Nat
  /-- Bytes of its const section that writes through the section's .glob addresses have replaced since it became ready:
  offset and the byte before (R20). -/
  old : List (Nat × Byte)
  next : Nat
  ready : Nat
  waitSince : Nat
  /-- Its next cluster has waited 8,192 cycles (R45). -/
  starving : Bool
  /-- An operation of it was cancelled (R381). -/
  lost : Bool
  deriving DecidableEq, Repr

/-- A LAUNCH request (R40), and the cycle in which it reaches the distributor (R42). -/
structure LaunchReq where
  reached : Nat
  op : Nat
  a : Word
  patch : Word
  status : Word
  deriving DecidableEq, Repr

/-- A FETCHW request on its way to the distributor (R47). -/
structure FetchReq where
  op : Nat
  gid : Nat
  handle : BitVec 32
  mailbox : Nat
  deriving DecidableEq, Repr

/-! ## Operations and requests in flight -/

/-- What an operation is doing (R111, R112, R367). -/
inductive OpSt where
  | running
  /-- Stopped by a trap that its group has queued. -/
  | trapped
  /-- Stopped by a translation fault at an address, which awaits its answer. -/
  | faulted (va : Nat) (kind : AccessKind)
  | frozen
  /-- Cancelled by PIX at TRET (R367): it completes with no further effect. -/
  | done
  deriving DecidableEq, Repr

/-- Operands as read at issue: the S or broadcast value of each field, and the V registers it names. -/
structure Captured where
  sd : Word
  sa : Word
  sb : Word
  sc : Word
  vd : List LaneVals
  va : List LaneVals
  vb : List LaneVals
  vc : List LaneVals
  deriving DecidableEq, Repr

/-- A register write that an operation still owes: for one register, the lanes and their values. -/
structure RegWrite where
  reg : Reg
  mask : Mask
  vals : LaneVals
  word : Word
  deriving DecidableEq, Repr

/-- An operation that a group has issued and that has not completed (R111). -/
structure Op where
  id : Nat
  gid : Nat
  team : Nat
  grid : BitVec 32
  core : Nat
  quarter : Nat
  slot : Nat
  instr : Instr
  /-- Offset of the issuing word in the code section. -/
  off : Nat
  /-- Lanes(run) at issue. -/
  mask : Mask
  flag : Option Nat
  cap : Captured
  /-- Frame base at issue, for the places of its V destinations. -/
  base : Nat
  cyc : Nat
  seq : Nat
  regcnt : Word
  pix : Nat
  st : OpSt
  /-- Memory slots read at issue: operand maps, a list of words read from records. -/
  maps : List OpMap
  recs : List Word
  fam : Option HashFam
  /-- Destination bytes as they stood at issue, where a source may name them (R230). -/
  before : List (Loc × Byte)
  /-- Addresses of the lanes, where the instruction forms one a lane. -/
  addrs : List (Nat × Loc)
  /-- Register writes collected so far, made when their results arrive. -/
  writes : List RegWrite
  /-- Lanes whose results were lost to poison or a machine check (R371, R372): lane, cause, TRINFO. -/
  lost : List (Nat × Nat × Nat)
  /-- A count the instruction keeps beside PIX. -/
  aux : Nat
  /-- A handler's word has issued it (R376). -/
  byHandler : Bool
  /-- Places of destination registers whose frame has been released (R156). -/
  gone : List Nat
  /-- TAGs of the requests that it has out at cellars: one for each lane where lanes make requests of their own, and else one
  (R270). -/
  tags : List (BitVec 14)
  /-- Bytes of a source piece of 16 that a TMOV has read whole and has still to use (R336). -/
  held : List (Loc × Byte)
  deriving DecidableEq, Repr

/-- What a request packet asks (R270). -/
inductive PktKind where
  | read
  | write (data : List (Nat × Byte))
  /-- One lane's atomic: operation code (16: compare and swap), width in bytes, operand, new value. -/
  | atomic (op width : Nat) (b c : Word)
  deriving DecidableEq, Repr

/-- A request of a core on its way to its home, and the reply it waits for (R216, R270, R271). -/
structure Pkt where
  id : Nat
  op : Nat
  core : Nat
  lane : Nat
  kind : PktKind
  loc : Loc
  len : Nat
  va : Word
  /-- A returning request: its reply carries data. -/
  returns : Bool
  /-- Packets of the core that must be performed first (R335, R340 to R345). -/
  after : List Nat
  /-- A release: the homes that have still to report (R344), the paths whose flush marker has still to
  arrive (R345), and whether the marker itself has arrived. -/
  release : Bool
  homes : List Home
  paths : Nat
  atHome : Bool
  performed : Bool
  /-- Cycle in which it left its core (R274), and in which it arrives at its home (R272). -/
  sent : Nat
  arrive : Nat
  /-- TAG, unique among its core's outstanding requests (R270). -/
  tag : BitVec 14
  /-- It has stood behind the rebuild of a line (R271, R280). -/
  cwd : Bool
  /-- STATUS POISON (R271): the poisoned lines that the request found. -/
  poison : List Nat
  data : List Byte
  /-- The Nycel port over which a request to a peer was sent (R392). -/
  port : Option Nat
  deriving DecidableEq, Repr

/-- The master of a fault record or of a freeze (R215, R376). -/
inductive Master where
  | group (gid : Nat)
  | op (id : Nat)
  | copyNode (r : InstRef) (node : Nat)
  deriving DecidableEq, Repr

/-- A fault record and every master merged into it (R214, R215). -/
structure FaultRec where
  vpage : Nat
  kind : AccessKind
  cause : Nat
  lvl : Nat
  die : Nat
  gridh : BitVec 32
  dist : Bool
  eng : Bool
  gslot : Nat
  loc : Nat
  masters : List Master
  /-- Its index in queue 0 once written (R386). -/
  idx : Option (BitVec 32)
  deriving DecidableEq, Repr

/-- A freeze record (R378). -/
structure FreezeRec where
  why : Nat
  cause : Nat
  off : Nat
  gridh : BitVec 32
  dist : Bool
  eng : Bool
  gslot : Nat
  loc : Nat
  deriving DecidableEq, Repr

/-! ## Cellars -/

/-- Where a ray is (R289 to R294, R297): on its way to its accepting cellar, on its way to the queue of its
treelet, in a queue, in a spill region, held at a closed treelet, inside its treelet's staged copy, parked on a
callback. -/
inductive RaySt where
  | sent
  | moving
  | queued
  | spilled
  | held
  | inside
  | parked
  deriving DecidableEq, Repr

/-- What a ray has still to visit: a node of the current treelet, or a link. -/
inductive RayItem where
  | node (n : Nat)
  | tris (first count : Nat)
  | link (t : Nat)
  deriving DecidableEq, Repr

/-- A ray in flight (R287, R290). -/
structure Ray where
  id : Nat
  op : Nat
  team : Nat
  core : Nat
  lane : Nat
  slot : Nat
  gsl : Nat
  ox : Slice
  oy : Slice
  oz : Slice
  dx : Slice
  dy : Slice
  dz : Slice
  tmin : Slice
  tmax : Slice
  flags : BitVec 8
  gen : BitVec 8
  scene : BitVec 8
  mask : BitVec 8
  rayid : Slice
  stack : Nat
  /-- TTB and NT of its scene entry, read once at acceptance (R289). -/
  ttb : Nat
  nt : Nat
  treelet : Nat
  ht : Slice
  hprim : Slice
  hinst : Slice
  hu : Slice
  hv : Slice
  hit : Bool
  tv : Nat
  /-- Its continuation (R287); how it is packed in the ray entry the spec does not give (DEDUCED, log 50). -/
  cont : List RayItem
  st : RaySt
  /-- The candidate of the pending callback: t, u, v, PRIM, INST (R293). -/
  cand : List Slice
  cbseq : Nat
  /-- 1 + the version of its treelet that its continuation names nodes of, 0 for none (R296, R297). -/
  version : Nat
  arrived : Nat
  /-- Its place in the order of spilling (R292, R297). -/
  spillSeq : Nat
  /-- A context switch has ended its visit, while it was parked (R297). -/
  ended : Bool
  deriving DecidableEq, Repr

/-- A staged treelet (R291), by the address of its table entry: the image's bytes as read. -/
structure Staged where
  stack : Nat
  entry : Nat
  version : Nat
  image : List Host.Cell
  size : Nat
  used : Nat
  deriving DecidableEq, Repr

/-- A treelet closed by TRBEGIN, or a published version (R294 to R296), by the address of its table entry. -/
structure TreeletSt where
  entry : Nat
  closed : Bool
  version : Nat
  deriving DecidableEq, Repr

/-- A channel's mode (R283). -/
inductive ChanMode where
  | normal
  | toCompute
  | compute
  | toNormal
  deriving DecidableEq, Repr

/-- A channel: mode, FNRM request, attention commands accepted and not ended, cycle of the last one's end, and
the request whose age has reached its cap (R274). -/
structure Channel where
  mode : ChanMode
  fnrm : Bool
  attn : Nat
  attnEnd : Nat
  aged : Option Nat
  deriving DecidableEq, Repr

/-- A pseudo-channel's power state (R276): 0 awake, 1 power-down, 2 self-refresh; idle since. -/
structure Pseudo where
  power : BitVec 2
  idleSince : Nat
  deriving DecidableEq, Repr

/-- A cellar's own units: channels, pseudo-channels, activation counters (R278), corrected errors (R279). -/
structure CellarUnit where
  chans : Vector Channel 32
  pseudos : Vector Pseudo 64
  /-- Row activation counters by channel·2²⁰ + bank·2¹⁵ + row, unlisted ones 0. -/
  rows : List (Nat × BitVec 14)
  /-- Open rows by channel·32 + bank. -/
  openRows : List (Nat × Nat)
  corrected : BitVec 32
  /-- Accesses that it has served, which name its free values (R278, R279). -/
  served : Nat
  /-- Lines of the parity channels that are poisoned (R280, R281), by channel group·2²⁶ + line within the channel. -/
  badParity : List Nat
  deriving DecidableEq, Repr

/-- A cellar's registers (R273). -/
structure CellarRegs where
  srt : BitVec 16
  pdt : BitVec 16
  ath : BitVec 14
  tage : BitVec 32
  spb : BitVec 40
  spn : BitVec 16
  scn : BitVec 44
  age : Vector (BitVec 16) 32
  deriving DecidableEq, Repr

/-- A log entry (R282): event, place, cycle. -/
structure LogEntry where
  evt : Nat
  stk : Nat
  ch : Nat
  bnk : Nat
  row : Nat
  col : Nat
  cyc : Word
  deriving DecidableEq, Repr

/-! ## Tier and Nycel ports -/

/-- The state of a tier port (R388). -/
inductive TierSt where
  | down
  | up
  | quarantined
  deriving DecidableEq, Repr

/-- A tier port's registers (R388). -/
structure TierRegs where
  tto : BitVec 16
  en : Bool
  cap : BitVec 32
  st : TierSt
  tpsw : Word
  tsb : BitVec 40
  tsn : BitVec 16
  deriving DecidableEq, Repr

/-- A staged frame of a tier port (R389): page, frame number, dirty, last use, still tier-backed. -/
structure TierFrame where
  page : Nat
  frame : Nat
  dirty : Bool
  used : Nat
  deriving DecidableEq, Repr

/-- A fill in progress (R389): its page and, once its data wait for a write-back, the frame. -/
structure TierFill where
  page : Nat
  waitFrame : Option Nat
  since : Nat
  deriving DecidableEq, Repr

/-- A tier port's own state (R389, R390); `asked` is since when a request that travels in no packet has stood
unanswered at a silent expander. -/
structure TierUnit where
  frames : List TierFrame
  fills : List TierFill
  hints : List Nat
  quarantines : BitVec 32
  asked : Option Nat
  /-- Since when a port that a write has disabled waits for its write-backs (R388). -/
  closing : Option Nat
  deriving DecidableEq, Repr

/-- The state of a Nycel port (R391). -/
inductive NycelSt where
  | down
  | training
  | up
  | frozen
  deriving DecidableEq, Repr

/-- A Nycel port's registers (R391). -/
structure NycelRegs where
  en : Bool
  peer : BitVec 12
  st : NycelSt
  hi : BitVec 12
  lo : BitVec 12
  npsw : Word
  deriving DecidableEq, Repr

/-- A Nycel port's own state: completed-request count (R392), flits taken, flits asked again (R391). -/
structure NycelUnit where
  completed : BitVec 32
  taken : Nat
  replays : Nat
  /-- Its status word has still to be written (R392). -/
  wordDue : Bool
  /-- A reply from a device that NPALLOW shuts out has come for an engine, and freezes it (R376, R392). -/
  refused : Bool
  /-- Requests of peers that wait at their home, oldest first (R79, R390). -/
  waiting : List PeerReq
  deriving DecidableEq, Repr

/-- A Nycel port's unit at reset. -/
def NycelUnit.reset : NycelUnit :=
  { completed := 0, taken := 0, replays := 0, wordDue := false, refused := false, waiting := [] }

/-! ## The device's borders -/

/-- A report queue's registers (R386). -/
structure Queue where
  base : BitVec 44
  size : BitVec 32
  drops : BitVec 32
  prod : BitVec 32
  cons : BitVec 32
  deriving DecidableEq, Repr

/-- DEVST.ST (R383). -/
inductive DevSt where
  | reset
  | boot
  | ready
  | failed
  deriving DecidableEq, Repr

/-- CTXST.STATE (R383). -/
inductive CtxSt where
  | empty
  | running
  | loading
  | saving
  | tearing
  deriving DecidableEq, Repr

/-- GUPS.STATE (R31). -/
inductive UpSt where
  | idle
  | pending
  | checking
  | done
  | refused
  deriving DecidableEq, Repr

/-- FWST (R383). -/
inductive FwSt where
  | idle
  | busy
  | done
  | refused
  deriving DecidableEq, Repr

/-- A firmware or attestation job in progress (R394, R395): the buffer's address, and the name of a new image. -/
inductive FwJob where
  | update (addr name : Nat)
  | attest (addr : Nat)
  deriving DecidableEq, Repr

/-- GUPS (R31), the upload that waits, and whether the graph header that names its number has been read (R32). -/
structure Upload where
  gnum : BitVec 8
  known : Bool
  st : UpSt
  lost : Bool
  reason : BitVec 8
  kind : Bool
  index : BitVec 16
  addr : Nat
  deriving DecidableEq, Repr

/-- The registers that the host reaches through BAR0 (R29, R273, R383, R386, R388, R391), and the states
of the ports that they show. -/
structure Device where
  powered : Bool
  ngn : BitVec 8
  sfl : BitVec 8
  evt : BitVec 9
  /-- CYC at which an event has last set each bit of EVT (R383). -/
  evtAt : Vector Word 9
  msk : BitVec 9
  /-- MSI-X messages sent, the latest last (R382, R383). -/
  msix : List Nat
  /-- What the latest BAR2 read returned, and whether its TLP was poisoned (R382). -/
  bar2Data : List Byte
  bar2Poison : Bool
  st : DevSt
  berr : BitVec 8
  devnum : BitVec 12
  w2tgt : BitVec 2
  w2base : BitVec 20
  rtgt : BitVec 2
  root : BitVec 36
  save : BitVec 40
  ctxst : CtxSt
  last : BitVec 4
  drop : Bool
  /-- FRESH of the LOAD in progress (R384). -/
  fresh : Bool
  tlbiBusy : Bool
  tlbiLost : Bool
  tlbiQueue : List Word
  pwr : BitVec 32
  temp : BitVec 16
  alert : Bool
  queues : Vector Queue 3
  fwst : FwSt
  atreq : BitVec 44
  fwup : BitVec 44
  fwjob : Option FwJob
  /-- Places of the module's flash that an accepted update has written, with the image's name, and those of the images
  that have booted; every other place holds the image it was made with, named by its number (R394). -/
  flash : List (Nat × Nat)
  booted : List (Nat × Nat)
  dfbase : BitVec 40
  dfsize : BitVec 32
  /-- ROUTE registers by device number, unlisted ones 0. -/
  routes : List (Nat × BitVec 16)
  upload : Upload
  cellars : Vector CellarRegs 8
  rmax : BitVec 21
  gstep : BitVec 3
  tiers : Vector TierRegs 2
  nycels : Vector NycelRegs 16
  deriving DecidableEq, Repr

/-! ## The context and the machine -/

/-- A reserved region's entries that are not zero (R302): stack·2²⁰ + channel·2¹⁴ + entry. -/
abbrev Region := List (Nat × BitVec 32)

/-- Everything that a context owns and that SAVE keeps (R374, R385). -/
structure Ctx where
  groups : List Group
  teams : List Team
  clusters : List Cluster
  grids : List Grid
  graphs : List Graph
  detached : List Detached
  detachedNext : Nat
  /-- TRIG writes that wait behind one whose patch list cannot be read yet, that one first (R36). -/
  trigs : List Word
  launches : List LaunchReq
  fetches : List FetchReq
  hflags : Vector Word 256
  ops : List Op
  rays : List Ray
  treelets : List TreeletSt
  regions : Region
  dfbase : BitVec 40
  dfsize : BitVec 32
  deriving DecidableEq, Repr

/-- An accumulator tile of a core (R236): its format tag, what unwritten elements read as (`none`: the
free values of placement `seed`), its written elements. -/
structure Tile where
  core : Nat
  num : Nat
  /-- TF: 0 f32, 1 f16. -/
  f16 : Bool
  /-- The format in which its contents were written (DESIGN CHOICE, log 4). -/
  cf : Bool
  /-- An uncorrectable error lies in it (R372). -/
  bad : Bool
  seed : Nat
  fill : Option (BitVec 32)
  elems : List (Nat × BitVec 32)
  deriving DecidableEq, Repr

/-- A saved context (R374): the context, the core-store bytes and tiles of its teams. -/
structure Saved where
  addr : BitVec 40
  ctx : Ctx
  core : Store
  tiles : List Tile
  /-- Slot lines that belong to its rays (R217). -/
  own : List (Line × Nat)
  deriving DecidableEq, Repr

/-- A leaf that a TLB holds (R213): a core's, or with `micro` the micro-TLB of one of its quarters; page base and size,
target, peer, frame, rights. -/
structure TlbEntry where
  core : Nat
  micro : Option Nat
  vbase : Nat
  size : Nat
  tgt : Nat
  peer : Nat
  frame : Nat
  x : Bool
  w : Bool
  deriving DecidableEq, Repr

/-- A clause that a core's clause cache holds (R75): the .glob address of its header, its words. -/
structure CachedClause where
  core : Nat
  va : Nat
  words : List Word
  deriving DecidableEq, Repr

/-- Whose turn it is (DESIGN CHOICE, log 1): a step of the device, a group, or the passing of cycles. -/
inductive Turn where
  | event (i : Instr)
  | group (gid : Nat)
  | time (n : Nat)
  deriving DecidableEq, Repr

/-- An access of the host that waits (R382): a posted BAR2 access, or one behind it. -/
inductive HostWait where
  | bar2 (a : Bar2Access)
  | access (i : Instr)
  deriving DecidableEq, Repr

/-- The machine behind the registers: memories, cores, fabric, the context in place. -/
structure Mach where
  cyc : Word
  mem : Memory
  tiles : List Tile
  ctx : Ctx
  saves : List Saved
  cache : List CachedClause
  tlb : List TlbEntry
  /-- The ownership maps (R217): each owned line and its owner. -/
  own : List (Line × Nat)
  /-- The host's accesses that wait behind a posted BAR2 write which has not been performed, that write first (R382). -/
  posted : List HostWait
  net : List Pkt
  faults : List FaultRec
  freezes : List FreezeRec
  logs : List LogEntry
  staged : List Staged
  cellars : Vector CellarUnit 8
  /-- Frames of HBM that are tier-backed (R280), by physical address / 64 KiB, oldest first, with the
  tier page that they hold. -/
  backed : List (Nat × Nat)
  tiers : Vector TierUnit 2
  nycels : Vector NycelUnit 16
  /-- The governor's window (R306): has an ATTN run in it, the cycle of the latest ATTN, and the cycle of its start. -/
  attnInWindow : Bool
  attnLast : Nat
  govFrom : Nat
  /-- Uncorrectable errors of SRAM arrays as reported to the host, the latest last (R372). -/
  reports : List (Word × SramError)
  script : List Turn
  cur : Nat
  freeCtr : Nat
  nextId : Nat
  deriving DecidableEq, Repr

/-- The MB9: the registers at its border, and the machine behind them. -/
structure State where
  dev : Device
  mach : Mach
  deriving DecidableEq, Repr

/-! ## Reset -/

/-- An empty store (DESIGN CHOICE, log 2). -/
def Store.empty : Store := { cells := [], poison := [], fresh := [] }

/-- Memories with nothing written. -/
def Memory.empty : Memory := { hbm := .empty, die := .empty, tier := .empty, core := .empty }

/-- A context with nothing in it (R384: LOAD with FRESH = 1 leaves no graphs). -/
def Ctx.empty : Ctx :=
  { groups := [], teams := [], clusters := [], grids := [], graphs := [], detached := [],
    detachedNext := 1, trigs := [], launches := [], fetches := [], hflags := Vector.replicate 256 0, ops := [],
    rays := [], treelets := [], regions := [], dfbase := 0, dfsize := 0 }

/-- A report queue after reset (R383). -/
def Queue.reset : Queue := { base := 0, size := 0, drops := 0, prod := 0, cons := 0 }

/-- A cellar's registers after reset (R273). -/
def CellarRegs.reset : CellarRegs :=
  { srt := 2048, pdt := 64, ath := 4096, tage := 65536, spb := 0, spn := 0, scn := 0,
    age := Vector.replicate 32 64 }

/-- A tier port's registers after reset (R388). -/
def TierRegs.reset : TierRegs :=
  { tto := 64, en := false, cap := 0, st := .down, tpsw := 0, tsb := 0, tsn := 0 }

/-- A Nycel port's registers after reset (R391). -/
def NycelRegs.reset : NycelRegs := { en := false, peer := 0, st := .down, hi := 0, lo := 0, npsw := 0 }

/-- GUPS after reset (R31). -/
def Upload.reset : Upload :=
  { gnum := 0, known := true, st := .idle, lost := false, reason := 0, kind := false, index := 0, addr := 0 }

/-- The registers after reset (R29, R383). -/
def Device.reset : Device :=
  { powered := true, ngn := 0, sfl := 0, evt := 0, evtAt := Vector.replicate 9 0, msk := 0, msix := [], bar2Data := [], bar2Poison := false, st := .reset, berr := 0,
    devnum := 0, w2tgt := 0, w2base := 0, rtgt := 0, root := 0, save := 0, ctxst := .empty, last := 0,
    drop := false, fresh := false, tlbiBusy := false, tlbiLost := false, tlbiQueue := [], pwr := 0,
    temp := 0, alert := false, queues := Vector.replicate 3 .reset, fwst := .idle, atreq := 0, fwup := 0,
    fwjob := none, flash := [], booted := [], dfbase := 0, dfsize := 0, routes := [], upload := .reset,
    cellars := Vector.replicate 8 .reset, rmax := BitVec.ofNat 21 1048576, gstep := 0,
    tiers := Vector.replicate 2 .reset, nycels := Vector.replicate 16 .reset }

/-- A cellar's units after reset: every channel NORMAL and awake (R276, R283; counters, DESIGN CHOICE, log 6). -/
def CellarUnit.reset : CellarUnit :=
  { chans := Vector.replicate 32 { mode := .normal, fnrm := false, attn := 0, attnEnd := 0, aged := none },
    pseudos := Vector.replicate 64 { power := 0, idleSince := 0 }, rows := [], openRows := [], corrected := 0,
    served := 0, badParity := [] }

/-- The machine after reset: nothing in memory, no context, CYC 0 (DESIGN CHOICE, log 5). -/
def Mach.reset : Mach :=
  { cyc := 0, mem := .empty, tiles := [], ctx := .empty, saves := [], cache := [], tlb := [], own := [], posted := [],
    net := [], faults := [], freezes := [], logs := [], staged := [],
    cellars := Vector.replicate 8 .reset, backed := [],
    tiers := Vector.replicate 2 (TierUnit.mk [] [] [] 0 none none),
    nycels := Vector.replicate 16 NycelUnit.reset,
    attnInWindow := false, attnLast := 0, govFrom := 0, reports := [], script := [], cur := 0, freeCtr := 0, nextId := 1 }

/-- The machine right after reset (R383 and the sections it names). -/
def State.reset : State := { dev := .reset, mach := .reset }

end Sys2Proof.Machine
end

