-- ==== Sys2Proof/Machine/Mem.lean ====
section
/-!
DEFINITION. Memory as cells in one canonical form: reading and writing bytes, little-endian values,
poison, and the ranges that a placement leaves unspecified.
-/
namespace Sys2Proof.Machine

/-! ## Cells -/

/-- The byte listed at an address, or 0 (DESIGN CHOICE, log 2). -/
def cellGet : List Host.Cell → Nat → Byte
  | [], _ => 0
  | (k, v) :: r, a => if k = a then v else cellGet r a

/-- List a byte before the first cell of a higher address. -/
def cellAdd : List Host.Cell → Nat → Byte → List Host.Cell
  | [], a, v => [(a, v)]
  | (k, w) :: r, a, v => if a < k then (a, v) :: (k, w) :: r else (k, w) :: cellAdd r a v

/-- The cells with `v` at address `a`: a zero byte is not listed. -/
def cellSet (cs : List Host.Cell) (a : Nat) (v : Byte) : List Host.Cell :=
  let r := cs.filter (fun c => c.1 != a)
  if v = 0 then r else cellAdd r a v

/-- The canonical form: addresses strictly rise, and no listed byte is 0. -/
def cellsWf : List Host.Cell → Bool
  | [] => true
  | [(_, v)] => v != 0
  | (k, v) :: (k', v') :: r => v != 0 && k < k' && cellsWf ((k', v') :: r)

/-- Remove the cells of the addresses from `lo` to below `hi`. -/
def cellErase (cs : List Host.Cell) (lo hi : Nat) : List Host.Cell :=
  cs.filter (fun c => c.1 < lo || hi ≤ c.1)

/-- Write bytes at consecutive addresses. -/
def cellsPut (cs : List Host.Cell) (a : Nat) (bs : List Byte) : List Host.Cell :=
  (bs.foldl (fun acc b => (acc.1 + 1, cellSet acc.2 acc.1 b)) (a, cs)).2

/-- Read consecutive bytes. -/
def cellsTake (cs : List Host.Cell) (a n : Nat) : List Byte := (List.range n).map (fun k => cellGet cs (a + k))

/-! ## Sorted sets of numbers (poisoned lines) -/

/-- Add a number to a strictly rising list. -/
def setAdd : List Nat → Nat → List Nat
  | [], a => [a]
  | k :: r, a => if k = a then k :: r else if a < k then a :: k :: r else k :: setAdd r a

/-- Remove a number. -/
def setDel (l : List Nat) (a : Nat) : List Nat := l.filter (· != a)

/-! ## Stores -/

/-- The name of the unspecified range that holds an address, if one does (R46). -/
def freshAt : List (Nat × Nat × Nat) → Nat → Option Nat
  | [], _ => none
  | (lo, hi, n) :: r, a => if lo ≤ a && a < hi then some n else freshAt r a

/-- Take one address out of the unspecified ranges. -/
def freshDel (rs : List (Nat × Nat × Nat)) (a : Nat) : List (Nat × Nat × Nat) :=
  rs.flatMap (fun r =>
    if r.1 ≤ a && a < r.2.1 then
      (if r.1 < a then [(r.1, a, r.2.2)] else []) ++ (if a + 1 < r.2.1 then [(a + 1, r.2.1, r.2.2)] else [])
    else [r])

/-- The byte at an address: a free value where nothing has been written since a placement (DESIGN CHOICE, log 4). -/
def Store.get (s : Store) (a : Nat) : Byte :=
  match freshAt s.fresh a with
  | some n => Config.freshByte n a
  | none => cellGet s.cells a

/-- Write one byte. -/
def Store.set (s : Store) (a : Nat) (b : Byte) : Store :=
  { s with cells := cellSet s.cells a b, fresh := freshDel s.fresh a }

/-- Is the 64-byte line of an address poisoned (R281, R372)? -/
def Store.poisoned (s : Store) (a : Nat) : Bool := s.poison.contains (a / 64)

/-- A placement leaves a range unspecified (R46). -/
def Store.placeFresh (s : Store) (lo hi n : Nat) : Store :=
  { s with
    cells := cellErase s.cells lo hi,
    fresh := (if lo < hi then [(lo, hi, n)] else []) ++ s.fresh.filter (fun r => r.2.1 ≤ lo || hi ≤ r.1) }

/-- Zero a range (R46, R384). -/
def Store.zero (s : Store) (lo hi : Nat) : Store :=
  { s with
    cells := cellErase s.cells lo hi, poison := s.poison.filter (fun l => l * 64 < lo || hi ≤ l * 64),
    fresh := s.fresh.filter (fun r => r.2.1 ≤ lo || hi ≤ r.1) }

/-- The canonical form of a store. -/
def Store.wf (s : Store) : Bool := cellsWf s.cells

/-! ## The memories -/

/-- Where a space's addresses lie in its store: a core store's bytes at core·2²⁰ + offset. -/
def storeAddr (l : Loc) : Nat :=
  match l.space with
  | .core n => n * 1048576 + l.addr
  | _ => l.addr

/-- The store of a space; a peer's memory is not here (R77). -/
def Memory.store (m : Memory) : Space → Store
  | .hbm => m.hbm
  | .die => m.die
  | .tier => m.tier
  | .peer _ => Store.empty
  | .core _ => m.core

/-- Replace the store of a space. -/
def Memory.setStore (m : Memory) (sp : Space) (s : Store) : Memory :=
  match sp with
  | .hbm => { m with hbm := s }
  | .die => { m with die := s }
  | .tier => { m with tier := s }
  | .peer _ => m
  | .core _ => { m with core := s }

/-- The byte at a location. -/
def Memory.get (m : Memory) (l : Loc) : Byte := (m.store l.space).get (storeAddr l)

/-- Write one byte at a location. -/
def Memory.set (m : Memory) (l : Loc) (b : Byte) : Memory :=
  m.setStore l.space ((m.store l.space).set (storeAddr l) b)

/-- The location `k` bytes further on. -/
def Loc.add (l : Loc) (k : Nat) : Loc := { l with addr := l.addr + k }

/-- `n` bytes from a location. -/
def Memory.read (m : Memory) (l : Loc) (n : Nat) : List Byte := (List.range n).map (fun k => m.get (l.add k))

/-- Write bytes from a location on. -/
def Memory.write (m : Memory) (l : Loc) : List Byte → Memory
  | [] => m
  | b :: r => (m.set l b).write (l.add 1) r

/-- Write (offset, byte) pairs relative to a location: a write with a byte mask (R216). -/
def Memory.writeMasked (m : Memory) (l : Loc) (bs : List (Nat × Byte)) : Memory :=
  bs.foldl (fun m p => m.set (l.add p.1) p.2) m

/-- The canonical form of every store. -/
def Memory.wf (m : Memory) : Bool := m.hbm.wf && m.die.wf && m.tier.wf && m.core.wf

/-- Is a byte's line poisoned? -/
def Memory.poisoned (m : Memory) (l : Loc) : Bool := (m.store l.space).poisoned (storeAddr l)

/-- Mark or clear a line's poison. -/
def Memory.setPoison (m : Memory) (l : Loc) (on : Bool) : Memory :=
  let s := m.store l.space
  let n := storeAddr l / 64
  m.setStore l.space { s with poison := if on then setAdd s.poison n else setDel s.poison n }

/-- Does some byte of a range lie in a poisoned line? -/
def Memory.rangePoisoned (m : Memory) (l : Loc) (n : Nat) : Bool :=
  (List.range ((n + 63) / 64 + 1)).any (fun k => k * 64 < n + l.addr % 64 && m.poisoned (l.add (k * 64 - l.addr % 64)))

/-! ## Little-endian values (R6) -/

/-- The number whose bytes these are, the lowest first. -/
def leNat : List Byte → Nat
  | [] => 0
  | b :: r => b.toNat + 256 * leNat r

/-- The `n` low bytes of a number, the lowest first. -/
def natLe (n x : Nat) : List Byte := (List.range n).map (fun k => BitVec.ofNat 8 (x / (1 <<< (8 * k)) % 256))

/-- The little-endian number of `n` bytes at a location. -/
def Memory.readNat (m : Memory) (l : Loc) (n : Nat) : Nat := leNat (m.read l n)

/-- Write the `n` low bytes of a number at a location. -/
def Memory.writeNat (m : Memory) (l : Loc) (n x : Nat) : Memory := m.write l (natLe n x)

/-- The 64-byte line of a location (R78). -/
def lineOf (l : Loc) : Line := { space := l.space, index := l.addr / 64 }

/-- The lines that `n` bytes from a location touch, ascending. -/
def linesOf (l : Loc) (n : Nat) : List Line :=
  if n = 0 then [] else
    (List.range ((l.addr + n - 1) / 64 - l.addr / 64 + 1)).map (fun k => { space := l.space, index := l.addr / 64 + k })

end Sys2Proof.Machine
end

