-- ==== Sys2Proof/Machine/Ops.lean ====
section
/-!
DEFINITION. The named operations over groups, registers, the PC table, traps and frames: reading and
writing registers, forming runs, moving lanes, taking an exception and returning from one.
-/
namespace Sys2Proof.Machine

/-! ## Vectors by number -/

/-- Entry `i` of a vector, or `d` beyond its end. -/
def vget {α : Type} {n : Nat} (v : Vector α n) (i : Nat) (d : α) : α := if h : i < n then v[i] else d

/-- Replace entry `i` of a vector; nothing beyond its end. -/
def vset {α : Type} {n : Nat} (v : Vector α n) (i : Nat) (x : α) : Vector α n := v.setIfInBounds i x

/-- Change entry `i` of a vector. -/
def vmod {α : Type} {n : Nat} (v : Vector α n) (i : Nat) (f : α → α) : Vector α n :=
  if h : i < n then v.set i (f v[i]) else v

/-- The 32 lanes' values of a function. -/
def laneFn (f : Nat → Nat) : LaneVals := Vector.ofFn (fun i : Fin 32 => BitVec.ofNat 32 (f i.val))

/-! ## Finding groups, teams, grids -/

/-- A lane slot without a lane. -/
def LanePC.absent : LanePC := { live := false, hdr := 0, idx := 0, level := 0, region := 0 }

/-- A CLOSED stream register (R249, R251). -/
def Stream.closedReg : Stream :=
  { desc := 0, st := .closed, lv := false, lev := 0, ppos := 0, fin := 0, cur := 0, lastc := 0,
    spec0 := 0, spec1 := 0, spec2 := 0, spec3 := 0 }

/-- The group of a name. -/
def Mach.group? (m : Mach) (gid : Nat) : Option Group := m.ctx.groups.find? (fun g => g.gid == gid)

/-- The team of a name. -/
def Mach.team? (m : Mach) (tid : Nat) : Option Team := m.ctx.teams.find? (fun t => t.tid == tid)

/-- The grid of a handle. -/
def Mach.grid? (m : Mach) (h : BitVec 32) : Option Grid := m.ctx.grids.find? (fun g => g.handle == h)

/-- The cluster of a name. -/
def Mach.cluster? (m : Mach) (c : Nat) : Option Cluster := m.ctx.clusters.find? (fun k => k.cid == c)

/-- The operation of a name. -/
def Mach.op? (m : Mach) (id : Nat) : Option Op := m.ctx.ops.find? (fun o => o.id == id)

/-- The packet of a name. -/
def Mach.pkt? (m : Mach) (id : Nat) : Option Pkt := m.net.find? (fun p => p.id == id)

/-- Change the group of a name. -/
def Mach.modGroup (m : Mach) (gid : Nat) (f : Group → Group) : Mach :=
  { m with ctx := { m.ctx with groups := m.ctx.groups.map (fun g => if g.gid == gid then f g else g) } }

/-- Change the team of a name. -/
def Mach.modTeam (m : Mach) (tid : Nat) (f : Team → Team) : Mach :=
  { m with ctx := { m.ctx with teams := m.ctx.teams.map (fun t => if t.tid == tid then f t else t) } }

/-- Change the grid of a handle. -/
def Mach.modGrid (m : Mach) (h : BitVec 32) (f : Grid → Grid) : Mach :=
  { m with ctx := { m.ctx with grids := m.ctx.grids.map (fun g => if g.handle == h then f g else g) } }

/-- Change the cluster of a name. -/
def Mach.modCluster (m : Mach) (c : Nat) (f : Cluster → Cluster) : Mach :=
  { m with ctx := { m.ctx with clusters := m.ctx.clusters.map (fun k => if k.cid == c then f k else k) } }

/-- Change the operation of a name. -/
def Mach.modOp (m : Mach) (id : Nat) (f : Op → Op) : Mach :=
  { m with ctx := { m.ctx with ops := m.ctx.ops.map (fun o => if o.id == id then f o else o) } }

/-- Change the packet of a name. -/
def Mach.modPkt (m : Mach) (id : Nat) (f : Pkt → Pkt) : Mach :=
  { m with net := m.net.map (fun p => if p.id == id then f p else p) }

/-- The grid of a group's team. -/
def Mach.gridOfGroup? (m : Mach) (g : Group) : Option Grid := (m.team? g.team).bind (fun t => m.grid? t.grid)

/-- CORELOC of a group (R73). -/
def Group.loc (g : Group) : Nat := g.core % 64 + 64 * (g.quarter % 4)

/-! ## Runs (R56, R106) -/

/-- A lane's PC as an offset in the code section: header + 8 · index (R56). -/
def LanePC.pc (p : LanePC) : Nat := p.hdr + 8 * p.idx

/-- The entry of lane `l`. -/
def Group.lane (g : Group) (l : Nat) : LanePC := vget g.lanes l LanePC.absent

/-- LIVEM: the lanes not exited (R73). -/
def Group.livem (g : Group) : Mask := Mask.ofFn (fun l => (g.lane l).live)

/-- The current level: the highest call level of a live lane (R106). -/
def Group.level (g : Group) : Nat :=
  laneSlots.foldl (fun a l => if (g.lane l).live then max a (g.lane l).level else a) 0

/-- Is the lane live at the current level? -/
def Group.atLevel (g : Group) (l : Nat) : Bool := (g.lane l).live && (g.lane l).level == g.level

/-- The lowest PC among lanes that satisfy a test. -/
def Group.minPc (g : Group) (test : Nat → Bool) : Option Nat :=
  laneSlots.foldl (fun a l =>
    if test l then (match a with
      | none => some (g.lane l).pc
      | some p => some (min p (g.lane l).pc)) else a) none

/-- The lanes at the current level that stand at a PC. -/
def Group.runAt (g : Group) (pc : Nat) : Mask := Mask.ofFn (fun l => g.atLevel l && (g.lane l).pc == pc)

/-- The PC of the run that issues next: the lowest one, or the one that straggler release serves (R107). -/
def Group.nextPc (g : Group) : Option Nat :=
  match g.serve with
  | none => g.minPc g.atLevel
  | some h =>
    match g.minPc (fun l => g.atLevel l && h.has l) with
    | some p => some p
    | none => g.minPc g.atLevel

/-- The lowest lane of a mask. -/
def firstLane (m : Mask) : Nat := (Mask.lanes m).headD 0

/-! ## Frames (R114 to R119) -/

/-- The link record of a level. -/
def Group.link (g : Group) (lv : Nat) : Link :=
  g.links.getD lv { reto := 0, cato := 0, base := 0, dem := 0, win := 0, cm := false, held := 0 }

/-- FRAMED: the demand of the current frame (R114). -/
def Group.framed (g : Group) : Nat := (g.link g.level).dem

/-- The base of the current frame in the register home. -/
def Group.base (g : Group) : Nat := (g.link g.level).base

/-! ## Registers (R60, R99, R108, R116, R124) -/

/-- The issue of one word: who issues it, for which lanes, and what the device shows (R76). -/
structure Iss where
  dev : Device
  gid : Nat
  /-- The group as the word's sources read it. -/
  g : Group
  /-- The word itself, for TRINFO (R358). -/
  word : Word
  run : Mask
  lanes : Mask
  hdr : Nat
  idx : Nat
  header : Header
  seq : Nat
  free : Nat
  flag : Option Nat
  deriving DecidableEq, Repr

/-- The offset of the issuing word. -/
def Iss.off (c : Iss) : Nat := c.hdr + 8 * c.idx

/-- The stored values of a V register by its place in the home; a free value in every lane where it is not
materialised (R116). -/
def vRead (v : List (Nat × LaneVals)) (home free : Nat) : LaneVals :=
  match v.find? (fun p => p.1 == home) with
  | some p => p.2
  | none => Vector.ofFn (fun i : Fin 32 => Config.stale (free + home) i.val)

/-- Store a V register's values, in rising order of place. -/
def vStore : List (Nat × LaneVals) → Nat → LaneVals → List (Nat × LaneVals)
  | [], h, x => [(h, x)]
  | (k, y) :: r, h, x =>
    if k = h then (h, x) :: r else if h < k then (h, x) :: (k, y) :: r else (k, y) :: vStore r h x

/-- V register `j` of the current frame. -/
def Group.vReg (g : Group) (free j : Nat) : LaneVals := vRead g.v (g.base + j) free

/-- Write a V register at a place of the home in the lanes of a mask (R108); the register becomes
materialised (R116). -/
def Group.writeHome (g : Group) (free : Nat) (mask : Mask) (home : Nat) (x : LaneVals) : Group :=
  let old := vRead g.v home free
  { g with
    v := vStore g.v home (Vector.ofFn (fun i : Fin 32 => if mask.has i.val then x[i] else old[i])),
    badRegs := g.badRegs.filter (· != home), clean := g.clean.filter (· != home),
    homed := g.homed.filter (· != home) }

/-- Write V register `j` of the current frame in the lanes of a mask. -/
def Group.writeV (g : Group) (free : Nat) (mask : Mask) (j : Nat) (f : Nat → Nat) : Group :=
  g.writeHome free mask (g.base + j) (laneFn (fun l => if mask.has l then f l else 0))

/-- Only the V registers at places that pass a test stay materialised, here and in the register home (R116). -/
def Group.keepPlaces (g : Group) (test : Nat → Bool) : Group :=
  { g with v := g.v.filter (fun p => test p.1), clean := g.clean.filter test, homed := g.homed.filter test }

/-- Registers marked dead are no longer materialised (R116). -/
def Group.kill (g : Group) (dead : List Nat) : Group :=
  if dead.isEmpty then g else g.keepPlaces (fun h => !(dead.map (g.base + ·)).contains h)

/-- S register `n`. -/
def Group.sReg (g : Group) (n : Nat) : Word := vget g.s n 0

/-- Write S register `n`. -/
def Group.writeS (g : Group) (n : Nat) (x : Word) : Group := { g with s := vset g.s n x }

/-- P register `n`. -/
def Group.pReg (g : Group) (n : Nat) : Mask := vget g.p n 0

/-- Write the bits of a predicate in the lanes of a mask (R108). -/
def Group.writeP (g : Group) (mask : Mask) (n : Nat) (x : Mask) : Group :=
  { g with p := vset g.p n ((g.pReg n &&& ~~~mask) ||| (x &&& mask)) }

/-- Q predicate `n`. -/
def Group.qReg (g : Group) (n : Nat) : Bool := vget g.q n false

/-- Write Q predicate `n`. -/
def Group.writeQ (g : Group) (n : Nat) (x : Bool) : Group := { g with q := vset g.q n x }

/-- The S register that a register field names. -/
def fieldS (g : Group) (x : BitVec 8) : Word := g.sReg (x.toNat - 192)

/-- The low 32 bits that lane `l` reads from a V or S field (R60, R177). -/
def src32 (c : Iss) (g : Group) (x : BitVec 8) (l : Nat) : Nat :=
  if 192 ≤ x.toNat then (fieldS g x).toNat % 4294967296
  else (vget (g.vReg c.free x.toNat) l 0).toNat

/-- The 64 bits that lane `l` reads from a V pair or an S field (R124, R177). -/
def src64 (c : Iss) (g : Group) (x : BitVec 8) (l : Nat) : Nat :=
  if 192 ≤ x.toNat then (fieldS g x).toNat
  else (vget (g.vReg c.free x.toNat) l 0).toNat + 4294967296 * (vget (g.vReg c.free (x.toNat + 1)) l 0).toNat

/-- A source of a type: 64 bits for a 64-bit type, else 32 bits (R177). -/
def srcTy (c : Iss) (g : Group) (t : Ty) (x : BitVec 8) (l : Nat) : Nat :=
  if tyWidth t = 64 then src64 c g x l else src32 c g x l

/-- Write a lane result of a type to V register `d`, or to its pair (R124, R177). -/
def writeTy (c : Iss) (g : Group) (t : Ty) (d : BitVec 8) (f : Nat → Int) : Group :=
  if tyWidth t = 64 then
    (g.writeV c.free c.lanes d.toNat (fun l => wrapNat 32 (f l))).writeV c.free c.lanes (d.toNat + 1)
      (fun l => wrapNat 64 (f l) / 4294967296)
  else g.writeV c.free c.lanes d.toNat (fun l => extendTy t 32 (f l))

/-! ## Moving lanes -/

/-- Change the PC entries of the lanes of a mask. -/
def Group.setLanes (g : Group) (mask : Mask) (f : Nat → LanePC → LanePC) : Group :=
  { g with lanes := Vector.ofFn (fun i : Fin 32 => if mask.has i.val then f i.val g.lanes[i] else g.lanes[i]) }

/-- Lanes of a run go on to the next word, or to the header after the clause (R56, R58). -/
def Group.stepLanes (g : Group) (mask : Mask) (h : Header) : Group :=
  g.setLanes mask (fun _ p =>
    if p.idx ≤ h.cnt.toNat then { p with idx := p.idx + 1 }
    else { p with hdr := p.hdr + 8 * (h.cnt.toNat + 2), idx := 0 })

/-- Lanes move to a header with index 0 (R56). -/
def Group.moveLanes (g : Group) (mask : Mask) (target : Nat) : Group :=
  g.setLanes mask (fun _ p => { p with hdr := target, idx := 0 })

/-- Lanes leave the PC table and LIVEM (R156); a transaction open in them is discarded (R355). -/
def Group.exitLanes (g : Group) (mask : Mask) : Group :=
  let g := g.setLanes mask (fun _ p => { p with live := false })
  { g with tx := Vector.ofFn (fun i : Fin 32 =>
      if mask.has i.val then { g.tx[i] with act := false, reads := [], writes := [] } else g.tx[i]) }

/-- Doom the open transactions of the lanes of a mask with a cause, unless already doomed (R355). -/
def Group.doom (g : Group) (mask : Mask) (cause : TxCause) : Group :=
  { g with tx := Vector.ofFn (fun i : Fin 32 =>
      let t := g.tx[i]
      if mask.has i.val && t.act && !t.doom then { t with doom := true, cause := cause } else t) }

/-! ## Registers reserved in a quarter (R115, R120) -/

/-- The registers that a group reserves (R115). -/
def Group.reserved (g : Group) : Nat := g.links.foldl (fun a k => a + k.held) 0

/-- Groups of a quarter that hold registers or a slot. -/
def Mach.inQuarter (m : Mach) (core quarter : Nat) : List Group :=
  m.ctx.groups.filter (fun g => g.core == core && g.quarter == quarter)

/-- Does a group hold its slot (R379)? A retired one whose frames are released and whose deferred arrivals have been made
does not; it stands only for operations that run on under its team. -/
def Group.holdsSlot (g : Group) : Bool := !(g.retired && g.links.isEmpty && g.deferred.isEmpty)

/-- Free physical registers of a quarter: 512 less those reserved (R115). -/
def Mach.freeRegs (m : Mach) (core quarter : Nat) : Nat :=
  512 - (m.inQuarter core quarter).foldl (fun a g => a + g.reserved) 0

/-- How many of the own registers of the frame at level `l`, counted from its end, the current frame names:
all of its own, and those that its window aliases (R114, R115). -/
def Group.wanted (g : Group) (l : Nat) : Nat :=
  let k := g.link l
  (k.base + k.dem) - max (k.base + k.win) g.base

/-- Is the current frame resident: its own registers and its window's reserved (R115)? -/
def Group.frameResident (g : Group) : Bool :=
  (List.range (g.level + 1)).all (fun l => g.wanted l ≤ (g.link l).held)

/-- Registers that the current frame still needs. -/
def Group.frameNeed (g : Group) : Nat :=
  (List.range (g.level + 1)).foldl (fun a l => a + (g.wanted l - (g.link l).held)) 0

/-- Reserve the registers that the current frame needs. -/
def Group.reserveFrame (g : Group) : Group :=
  { g with
    links := (g.links.zipIdx).map (fun p => { p.1 with held := max p.1.held (g.wanted p.2) }),
    sched := { g.sched with blockedSince := none } }

/-- Is group `a` blocked before group `b`: earlier, or at one cycle the older one (R101, R120)? -/
def blockedBefore (a b : Group) : Bool :=
  let t (g : Group) : Nat := g.sched.blockedSince.getD 0
  t a < t b || (t a == t b && (a.placed < b.placed || (a.placed == b.placed && a.num < b.num)))

/-- The oldest group of a quarter that is blocked on its frame (R120). -/
def Mach.oldestBlocked (m : Mach) (core quarter : Nat) : Option Group :=
  ((m.inQuarter core quarter).filter (fun g => g.sched.blockedSince.isSome)).foldl
    (fun a g => match a with
      | none => some g
      | some b => if blockedBefore g b then some g else some b) none

/-- Is the drover's third stage on for a group: the oldest blocked group of its quarter is another one, and
has been blocked for 1,024 cycles (R120)? -/
def Mach.stage3 (m : Mach) (g : Group) : Bool :=
  match m.oldestBlocked g.core g.quarter with
  | some o => o.gid != g.gid && o.sched.blockedSince.getD 0 + 1024 ≤ m.cyc.toNat
  | none => false

/-- Is the group in mid-clause: has a word of its clause issued, or does its first one wait as a waiting word? Before that
it stands at the clause's header (R98, R101). -/
def Group.midClause (g : Group) : Bool :=
  match g.clause with
  | some cl => cl.begun
  | none => false

/-- Does the third stage hold the group back? An active group goes on to its next clause boundary (R103). -/
def Mach.heldBack (m : Mach) (g : Group) : Bool := !(g.sched.active && g.midClause) && m.stage3 g

/-- Seek the reservation of the current frame at once (R115): granted when the quarter has room and no
third stage of the drover holds it back; otherwise the group is blocked. -/
def Mach.seekFrame (m : Mach) (gid : Nat) : Mach :=
  match m.group? gid with
  | none => m
  | some g =>
    if g.frameResident then m.modGroup gid (fun g => { g with sched := { g.sched with blockedSince := none } })
    else if g.frameNeed ≤ m.freeRegs g.core g.quarter && !m.stage3 g then m.modGroup gid Group.reserveFrame
    else m.modGroup gid (fun g => { g with sched :=
      { g.sched with active := false, since := m.cyc.toNat, claim := false,
                     blockedSince := some (g.sched.blockedSince.getD m.cyc.toNat) } })

/-- Frames above every live lane are released with their registers and any home copy (R119). The registers
of a released frame are those at or above the end of the frame below it. -/
def Group.releaseFrames (g : Group) (handler : Nat) : Group :=
  let top := max g.level handler
  if top + 1 < g.links.length then
    let keep := g.links.take (top + 1)
    let k := g.link top
    { g.keepPlaces (fun h => h < k.base + k.dem) with links := keep }
  else g

/-- Would releasing frames above `lv` drop a register under a pending mark (R146)? -/
def Group.marksAbove (g : Group) (lv : Nat) : Bool :=
  let k := g.link lv
  g.marks.any (fun p => match p.2 with
    | .v h => k.base + k.dem ≤ h
    | _ => false)

/-! ## Freezing (R376 to R378) -/

/-- Write a freeze record to the unit that holds those waiting for queue 1 (R378, R386). -/
def Mach.pushFreeze (m : Mach) (r : FreezeRec) : Mach := { m with freezes := m.freezes ++ [r] }

/-- Lines that a waiting engine word has taken are released (R78). -/
def Mach.dropOwn (m : Mach) (id : Nat) : Mach := { m with own := m.own.filter (fun p => p.2 != id) }

/-- A waiting engine word gives up its lines. -/
def Mach.dropOwnWait (m : Mach) (gid : Nat) : Mach :=
  match (m.group? gid).bind (·.ownWait) with
  | some id => (m.dropOwn id).modGroup gid (fun g => { g with ownWait := none, ownAt := none })
  | none => m

/-- The hints that a TIERH has not yet sent are dropped, and it completes (R234). -/
def Mach.dropHints (m : Mach) (which : Op → Bool) : Mach :=
  { m with ctx := { m.ctx with ops := m.ctx.ops.map (fun o =>
      match o.instr with
      | .tierh _ => if which o then { o with st := .done } else o
      | _ => o) } }

/-- Freeze a group with a reason and report it (R376 to R378). -/
def Mach.freezeGroup (m : Mach) (gid why cause off : Nat) : Mach :=
  match m.group? gid with
  | none => m
  | some g =>
    let h := ((m.gridOfGroup? g).map (·.handle)).getD 0
    let m := m.dropHints (fun o => o.gid == gid)
    let m := (m.dropOwnWait gid).modGroup gid (fun g => { g with
      frozen := some why, sched := { g.sched with active := false, since := m.cyc.toNat, claim := false } })
    m.pushFreeze { why := why, cause := cause, off := off, gridh := h, dist := false, eng := false,
                   gslot := g.slot, loc := g.loc }

/-! ## Taking an exception (R358 to R364) -/

/-- Cause codes (R358). -/
def causeOpcode : Nat := 1
def causeEncoding : Nat := 2
def causeClause : Nat := 3
def causeTarget : Nat := 4
def causeFrameBound : Nat := 5
def causeFrameOverflow : Nat := 6
def causeFrameUnderflow : Nat := 7
def causeNotInHandler : Nat := 8
def causeBreakpoint : Nat := 9
def causeUserTrap : Nat := 10
def causePromiseMissed : Nat := 11
def causeAddrRange : Nat := 12
def causeMisaligned : Nat := 13
def causeWindow : Nat := 14
def causeAllocBound : Nat := 15
def causeTranslation : Nat := 16
def causeShape : Nat := 17
def causeEngineArg : Nat := 18
def causeMap : Nat := 19
def causeTileBound : Nat := 20
def causeTileAlias : Nat := 21
def causeTileFormat : Nat := 22
def causeDrainNoPeer : Nat := 23
def causeConvergence : Nat := 24
def causeFormatDivergence : Nat := 25
def causeFormatInvalid : Nat := 26
def causeStreamDesc : Nat := 27
def causeStreamClosed : Nat := 28
def causeMalformed : Nat := 29
def causeFamily : Nat := 30
def causeTable : Nat := 31
def causeBarMismatch : Nat := 32
def causePoison : Nat := 33
def causeMachineCheck : Nat := 34

/-- A group is asleep from the end of the clause that holds its SLEEP (R158). -/
def Group.asleep (g : Group) : Bool := g.sleep.isSome && g.clause.isNone

/-- A trap is queued; one of a group whose queue is full waits outside (R361). It ends the group's sleep, unless the
sleep itself has raised it (R159). -/
def Group.queueTrap (g : Group) (t : Trap) : Group :=
  let g : Group := if g.asleep && t.cause != causePromiseMissed then { g with sleep := none } else g
  if g.traps.length < 8 && g.trapsOut.isEmpty then { g with traps := g.traps ++ [t] }
  else { g with trapsOut := g.trapsOut ++ [t] }

/-- RAISING AN EXCEPTION, the one shared operation: a trap is queued for its group (R361). In a kernel
without a handler it freezes the group, PROMISE_MISSED excepted; a trap raised by a handler's own word or
operation freezes it too (R376). A trap of a group that has retired is discarded (R379). -/
def Mach.raise (m : Mach) (gid : Nat) (t : Trap) : Mach :=
  match m.group? gid with
  | none => m
  | some g =>
    let hv := ((m.gridOfGroup? g).map (·.hdr.hv)).getD false
    let stop (m : Mach) : Mach := match t.op with
      | some id => m.modOp id (fun o => { o with st := .frozen })
      | none => m
    if g.retired then m
    else if !hv then (if t.cause = causePromiseMissed then m else (stop m).freezeGroup gid 2 t.cause t.off)
    else
      let own : Bool := t.byHandler || (match g.handling with
        | some h => h.seq ≤ t.seq
        | none => false)
      if own then (stop m).freezeGroup gid 3 t.cause t.off else m.modGroup gid (fun g => g.queueTrap t)

/-- The queued trap whose causing word issued first (R361). -/
def Group.nextTrap (g : Group) : Option Trap :=
  g.traps.foldl (fun a t => match a with
    | none => some t
    | some b => if t.seq < b.seq then some t else a) none

/-- The PC that a lane of the trap's mask saves (R359): its region entry for kind G, the word after the SLEEP for
PROMISE_MISSED; otherwise it stands where its word left it. -/
def savedEntry (t : Trap) (l : Nat) (p : LanePC) : LanePC :=
  if t.mask.has l then
    (if t.kind = .g then { p with hdr := p.region, idx := 0 }
     else match t.back with
      | some (h, i) => { p with hdr := h, idx := i }
      | none => p)
  else p

/-- A clause whose header has passed and whose first word has not issued: its lanes stand at the header (R56, R98). -/
def Group.atHeader (g : Group) : Group :=
  match g.clause with
  | some cl =>
    if cl.begun then g
    else
      { g.setLanes (Mask.ofFn (fun l => g.atLevel l && (g.lane l).hdr == cl.hdr && (g.lane l).idx == 1))
          (fun _ p => { p with idx := 0 }) with clause := none }
  | none => g

/-- The group as a delivery finds it: a trap at the first word of a clause itself leaves its run at that word. -/
def Group.atDelivery (g : Group) (t : Trap) : Group :=
  match g.clause with
  | some cl => if t.kind = .w && t.off = cl.hdr + 8 then g else g.atHeader
  | none => g

/-- DELIVERING THE EXCEPTION (R362 to R364): transactions are doomed, stalls abandoned, the PC table saved,
the handler frame made at the level above every lane, every live lane moved to HNDL, and V0 to V2 of the
handler frame written with the saved state. No room for the frame freezes the group (R376). -/
def Mach.deliver (m : Mach) (gid : Nat) (t : Trap) : Mach :=
  match m.group? gid, (m.group? gid).bind m.gridOfGroup? with
  | some g, some grid =>
    let lc := g.level
    let k := g.link lc
    let b := k.base + k.dem
    let limit := (grid.hdr.homek * 1024 - 8192) / 128
    if lc = 511 || limit < b + 32 then m.freezeGroup gid 4 t.cause t.off
    else
      let h := lc + 1
      let at' := (g.atDelivery t).lanes
      let saved : Vector LanePC 32 := Vector.ofFn (fun i : Fin 32 => savedEntry t i.val at'[i])
      let live := g.livem
      let pix : Word := match t.op.bind m.op? with
        | some o => BitVec.ofNat 64 o.pix
        | none => 0
      let seq := m.nextId
      let m := m.dropOwnWait gid
      let m := m.modGroup gid (fun g =>
        let g := g.doom live 7
        let g : Group := { g.keepPlaces (· < b) with
          handling := some { trap := t, seq := seq, level := h, saved := saved },
          traps := g.traps, badRegs := g.badRegs.filter (fun h => h < b || b + 2 < h),
          links := g.links.take (lc + 1) ++
            [{ reto := 0, cato := 0, base := b, dem := 32, win := 0, cm := false, held := 0 }],
          sleep := none, faultWait := .none, clause := none, serve := none, pix := pix,
          sched := { g.sched with waitSince := none } }
        let g := g.setLanes live (fun _ p => { p with hdr := grid.hdr.hndl, idx := 0, level := h })
        let v0 : LaneVals := laneFn (fun l => if live.has l then (vget saved l LanePC.absent).hdr else 0)
        let v1 : LaneVals := laneFn (fun l =>
          let p := vget saved l LanePC.absent
          if live.has l then (if t.mask.has l then 16384 else 0) + 32 * p.level + p.idx else 0)
        let v2 : LaneVals := laneFn (fun l => if live.has l then (vget saved l LanePC.absent).region else 0)
        { g with v := vStore (vStore (vStore g.v b v0) (b + 1) v1) (b + 2) v2 })
      m.seekFrame gid
  | _, _ => m

/-- After a trap has been handled its entry frees, and one that waited outside enters (R361). -/
def Group.dequeueTrap (g : Group) (t : Trap) : Group :=
  let rest := g.traps.erase t
  match g.trapsOut with
  | [] => { g with traps := rest }
  | u :: us => { g with traps := rest ++ [u], trapsOut := us }

/-! ## Events and time -/

/-- A fresh name. -/
def Mach.fresh (m : Mach) : Nat × Mach := (m.nextId, { m with nextId := m.nextId + 1 })

/-- The operation that owns a line (R217). -/
def Mach.ownerOf (m : Mach) (l : Line) : Option Nat := (m.own.find? (fun p => p.1 == l)).map (·.2)

end Sys2Proof.Machine
end

