-- ==== Sys2Proof/Machine/Rows.lean ====
section
/-!
DEFINITION. A cellar's banks: the place of an address in them, parity groups, open rows and their activation counters,
the idle timers of pseudo-channels, channels, log entries, and what every access does to the cellar that serves it
(R268, R269, R276, R278, R279, R282, R283).
-/
namespace Sys2Proof.Machine

/-! ## The place of an address (R268, R269) -/

/-- Bytes of HBM in one stack. -/
def stackBytes : Nat := 60 * 1073741824

/-- The place of an HBM physical address (R269): stack, channel, bank, row, column. -/
def hbmPlace (pa : Nat) : Nat × Nat × Nat × Nat × Nat :=
  let off := pa % stackBytes
  let q := off / 65536
  let x := q % 30
  (pa / stackBytes, 16 * (x / 15) + x % 15, off % 65536 / 2048, q / 30, off % 2048)

/-- The channel of a physical address within its stack. -/
def channelOf (pa : Nat) : Nat := (hbmPlace pa).2.1

/-- The bank of a physical address within its channel. -/
def bankOf (pa : Nat) : Nat := (hbmPlace pa).2.2.1

/-- The row of a physical address within its bank. -/
def rowOf (pa : Nat) : Nat := (hbmPlace pa).2.2.2.1

/-- The place of a bank among a stack's banks. -/
def bankKey (pa : Nat) : Nat := channelOf pa * 32 + bankOf pa

/-- Is a channel a parity channel (R268)? -/
def parityChannel (ch : Nat) : Bool := ch == 15 || ch == 31

/-- The data channel index of a physical channel (R268). -/
def dataIndex (ch : Nat) : Nat := if ch < 15 then ch else ch - 1

/-- The physical address of a channel's frame at a row (R269). -/
def framePa (stack ch row : Nat) : Nat := stack * stackBytes + (row * 30 + dataIndex ch) * 65536

/-! ## Parity (R268, R272, R280) -/

/-- The physical addresses that share a bank, row and column with an address in the 15 data channels of its parity
group, its own among them. -/
def parityGroup (pa : Nat) : List Nat :=
  let first := 16 * (channelOf pa / 16)
  (List.range 15).map (fun x => framePa (pa / stackBytes) (first + x) (rowOf pa) + pa % stackBytes % 65536)

/-- What a parity channel holds at the bank, row and column of an address: the XOR of its 15 data channels (R268). It is
a view of them, so that each write updates it in the same step (R272). -/
def parityByte (m : Memory) (pa : Nat) : Byte :=
  (parityGroup pa).foldl (fun x a => x ^^^ m.get { space := .hbm, addr := a }) 0

/-- The byte at an address as the other 14 data channels and the parity channel give it (R280). -/
def rebuiltByte (m : Memory) (pa : Nat) : Byte :=
  ((parityGroup pa).filter (· != pa)).foldl (fun x a => x ^^^ m.get { space := .hbm, addr := a }) (parityByte m pa)

/-- The place of a parity channel's line among those of all stacks. -/
def parityKey (pa : Nat) : Nat :=
  (channelOf pa / 16) * pow2 26 + rowOf pa * 1024 + pa % stackBytes % 65536 / 64

/-! ## Units of a cellar -/

/-- The units of a cellar. -/
def Mach.cellar (m : Mach) (stack : Nat) : CellarUnit := vget m.cellars stack CellarUnit.reset

/-- A channel that has never left NORMAL. -/
def Channel.init : Channel := { mode := .normal, fnrm := false, attn := 0, attnEnd := 0, aged := none }

/-- A channel of a stack. -/
def Mach.chan (m : Mach) (stack ch : Nat) : Channel := vget (m.cellar stack).chans ch Channel.init

/-- Change a channel. -/
def Mach.modChan (m : Mach) (stack ch : Nat) (f : Channel → Channel) : Mach :=
  { m with cellars := vmod m.cellars stack (fun u => { u with chans := vmod u.chans ch f }) }

/-! ## Log entries (R282) -/

/-- A cellar logs an event at a physical address (R282). -/
def Mach.log (m : Mach) (evt pa : Nat) : Mach :=
  let (stk, ch, bnk, row, col) := hbmPlace pa
  { m with logs := m.logs ++
      [{ evt := evt, stk := stk, ch := ch, bnk := bnk, row := row, col := col / 32, cyc := m.cyc }] }

/-- A cellar logs an event at the line of the parity channel of an address's group. -/
def Mach.logParity (m : Mach) (evt pa : Nat) : Mach :=
  let (stk, ch, bnk, row, col) := hbmPlace pa
  { m with logs := m.logs ++
      [{ evt := evt, stk := stk, ch := 16 * (ch / 16) + 15, bnk := bnk, row := row, col := col / 32, cyc := m.cyc }] }

/-! ## Rows and their activation counters (R278) -/

/-- The place of a row's counter. -/
def rowKey (ch bank row : Nat) : Nat := ch * pow2 20 + bank * pow2 15 + row

/-- A row's activation counter; an unlisted one is 0. -/
def rowCount (rs : List (Nat × BitVec 14)) (k : Nat) : BitVec 14 := ((rs.find? (fun r => r.1 == k)).map (·.2)).getD 0

/-- Set a row's counter. -/
def rowSet (rs : List (Nat × BitVec 14)) (k : Nat) (v : BitVec 14) : List (Nat × BitVec 14) :=
  let rest := rs.filter (fun r => r.1 != k)
  if v = 0 then rest else (k, v) :: rest

/-- An activate counts; a counter at 16,383 stays there. -/
def CellarUnit.activate (u : CellarUnit) (k : Nat) : CellarUnit :=
  let v := rowCount u.rows k
  { u with rows := rowSet u.rows k (if v = BitVec.allOnes 14 then v else v + 1) }

/-- A precharge checks the row's counter: at ATH, saturated, or with wrong parity (`odd`), its neighbours are refreshed
and it is 0. -/
def CellarUnit.precharge (u : CellarUnit) (ath : BitVec 14) (k : Nat) (odd : Bool) : CellarUnit :=
  let v := rowCount u.rows k
  if ath ≤ v || v = BitVec.allOnes 14 || odd then { u with rows := rowSet u.rows k 0 } else u

/-- A bank of a stack is precharged while a row is open in it; a counter that fails its parity is logged. -/
def Mach.prechargeRow (m : Mach) (ath : BitVec 14) (stack ch bank row : Nat) : Mach :=
  let k := rowKey ch bank row
  let odd := Config.counterParity stack (m.cellar stack).served k
  let entry : LogEntry := { evt := 1, stk := stack, ch := ch, bnk := bank, row := row, col := 0, cyc := m.cyc }
  { m with cellars := vmod m.cellars stack (fun u => { u.precharge ath k odd with
             openRows := u.openRows.filter (fun r => r.1 != ch * 32 + bank) }),
           logs := if odd then m.logs ++ [entry] else m.logs }

/-- The row that is open in the bank of an address. -/
def CellarUnit.openAt (u : CellarUnit) (pa : Nat) : Option Nat :=
  (u.openRows.find? (fun r => r.1 == bankKey pa)).map (·.2)

/-- Open the row of an address: a hit leaves it, another open row is precharged first. -/
def Mach.openRow (m : Mach) (ath : BitVec 14) (pa : Nat) : Mach :=
  let s := pa / stackBytes
  let now := (m.cellar s).openAt pa
  if now = some (rowOf pa) then m
  else
    let m := match now with
      | some row => m.prechargeRow ath s (channelOf pa) (bankOf pa) row
      | none => m
    { m with cellars := vmod m.cellars s (fun u =>
        { u.activate (rowKey (channelOf pa) (bankOf pa) (rowOf pa)) with openRows := (bankKey pa, rowOf pa) :: u.openRows }) }

/-- A request wakes its pseudo-channel, whose idle timer starts again (R276). -/
def CellarUnit.wake (u : CellarUnit) (pa cyc : Nat) : CellarUnit :=
  { u with pseudos := vset u.pseudos (channelOf pa * 2 + bankOf pa / 16) { power := 0, idleSince := cyc } }

/-- Every bank of a channel is precharged, and its pseudo-channels are awake with idle timers at zero (R276, R283). -/
def Mach.closeChannel (m : Mach) (ath : BitVec 14) (stack ch : Nat) : Mach :=
  let mine := (m.cellar stack).openRows.filter (fun r => r.1 / 32 == ch)
  let m := mine.foldl (fun m r => m.prechargeRow ath stack ch (r.1 % 32) r.2) m
  let awake : Pseudo := { power := 0, idleSince := m.cyc.toNat }
  { m with cellars := vmod m.cellars stack (fun u => { u with
      pseudos := vset (vset u.pseudos (2 * ch) awake) (2 * ch + 1) awake }) }

/-! ## What an access does to its cellar (R276, R278, R279, R283) -/

/-- Does the channel of a place serve requests now: it is in NORMAL or COMPUTE (R283)? Places outside HBM have none. -/
def Mach.cellarOpen (m : Mach) (l : Loc) : Bool :=
  l.space != .hbm ||
    (let mode := (m.chan (l.addr / stackBytes) (channelOf l.addr)).mode
     mode == .normal || mode == .compute)

/-- An access that ECC corrects counts, and the overflow of the count is logged (R279, R282). -/
def Mach.countCorrected (m : Mach) (pa : Nat) : Mach :=
  let s := pa / stackBytes
  let hit := Config.correctable s (m.cellar s).served
  let full := (m.cellar s).corrected == BitVec.allOnes 32
  let entries := (m.log 7 pa).logs
  { m with
    cellars := vmod m.cellars s (fun u => { u with corrected := u.corrected + (if hit then 1 else 0) }),
    logs := if hit && full then entries else m.logs }

/-- One access to a row: its pseudo-channel wakes, its row is opened, and with `ecc` what it reads may be corrected. -/
def Mach.touchRow (dev : Device) (m : Mach) (ecc : Bool) (pa : Nat) : Mach :=
  let s := pa / stackBytes
  let m := (m.openRow (vget dev.cellars s CellarRegs.reset).ath pa)
  let m := if ecc then m.countCorrected pa else m
  { m with cellars := vmod m.cellars s (fun u => { u.wake pa m.cyc.toNat with served := u.served + 1 }) }

/-- The addresses at which the rows of `n` bytes begin within them. -/
def rowStarts (a n : Nat) : List Nat :=
  (List.range ((a % 2048 + n + 2047) / 2048)).map (fun k => max a (a / 2048 * 2048 + 2048 * k))

/-- WHAT AN ACCESS OF `n` BYTES DOES TO ITS CELLAR, whoever makes it; a place outside HBM has none. -/
def Mach.touchCellar (dev : Device) (m : Mach) (l : Loc) (n : Nat) (ecc : Bool) : Mach :=
  match l.space with
  | .hbm => (rowStarts l.addr n).foldl (fun m pa => m.touchRow dev ecc pa) m
  | _ => m

end Sys2Proof.Machine
end

