-- ==== Sys2Proof/Machine/Translate.lean ====
section
/-!
DEFINITION. Translation of .glob addresses (R211 to R214), homes (R77), and fault records (R215).
-/
namespace Sys2Proof.Machine

/-! ## Homes and populated addresses -/

/-- Bytes of one die store. -/
def dieBytes : Nat := 622 * 1048576
/-- Bytes of one core store. -/
def coreBytes : Nat := 320 * 1024

/-- The home of a location (R77). -/
def homeOf (l : Loc) : Home :=
  match l.space with
  | .hbm => .cellar (l.addr / stackBytes)
  | .die => .dieStore (l.addr / 1073741824) (l.addr % 1073741824 / 4096 % 64)
  | .tier => .tierPort (l.addr / 2199023255552)
  | .peer d => .peerDev d
  | .core n => .coreStore n

/-- Is a physical address populated (R210, R212, R388)? -/
def populated (dev : Device) (sp : Space) (pa : Nat) : Bool :=
  match sp with
  | .hbm => pa < 8 * stackBytes
  | .die => pa / 1073741824 < 4 && pa % 1073741824 < dieBytes
  | .tier => pa / 2199023255552 < 2 &&
      pa % 2199023255552 < (vget dev.tiers (pa / 2199023255552) TierRegs.reset).cap.toNat * 65536
  | _ => true

/-! ## The walk (R211, R212) -/

/-- What an access is, for a walk. -/
inductive WalkKind where
  | read
  | write
  | fetch
  deriving DecidableEq, Repr

/-- How an access kind is translated (R212). -/
def walkKind : AccessKind → WalkKind
  | .laneRead => .read
  | .laneWrite => .write
  | .laneAtomic => .write
  | .fetch => .fetch
  | .engineRead => .read
  | .engineWrite => .write

/-- KIND codes of a fault record (R215). -/
def kindCode : AccessKind → Nat
  | .laneRead => 0
  | .laneWrite => 1
  | .laneAtomic => 2
  | .fetch => 3
  | .engineRead => 4
  | .engineWrite => 5

/-- A leaf as the walk found it: its level and its fields. -/
structure Leaf where
  lvl : Nat
  tgt : Nat
  peer : Nat
  frame : Nat
  x : Bool
  w : Bool
  deriving DecidableEq, Repr

/-- Bytes of a page whose leaf stands at a level (R211). -/
def pageSize (lvl : Nat) : Nat := if lvl = 2 then 1073741824 else if lvl = 1 then 2097152 else 65536

/-- The index of a level (R211). -/
def walkIndex (lvl va : Nat) : Nat :=
  match lvl with
  | 3 => va / pow2 39 % 131072
  | 2 => va / pow2 30 % 512
  | 1 => va / pow2 21 % 512
  | _ => va / pow2 16 % 32

/-- Is an entry with V = 1 malformed at a level (R212)? -/
def malformed (lvl : Nat) (e : Word) : Bool :=
  bitsAt e 56 6 != 0 ||
  (if e.getLsbD 1 then
     lvl == 3 || (lvl == 2 && bitsAt e 16 14 != 0) || (lvl == 1 && bitsAt e 16 5 != 0) ||
       (bitsAt e 62 2 != 3 && bitsAt e 4 12 != 0)
   else
     lvl == 0 || 2 ≤ bitsAt e 62 2 || bitsAt e 2 6 != 0 || (2 ≤ lvl && bitsAt e 8 4 != 0))

/-- One level of the walk and those below it: cause and level of a fault, or the leaf. -/
def walkFrom (mem : Memory) (va : Nat) : Nat → Nat → Nat → Except (Nat × Nat) Leaf
  | 0, _, _ => .error (1, 0)
  | n + 1, tgt, base =>
    let l : Loc := { space := if tgt = 1 then .die else .hbm, addr := base + 8 * walkIndex n va }
    let e : Word := BitVec.ofNat 64 (mem.readNat l 8)
    if mem.poisoned l then .error (5, n)
    else if !e.getLsbD 0 then .error (0, n)
    else if malformed n e then .error (1, n)
    else if e.getLsbD 1 then
      .ok { lvl := n, tgt := bitsAt e 62 2, peer := bitsAt e 4 12, frame := bitsAt e 16 40 * 65536,
            x := e.getLsbD 3, w := e.getLsbD 2 }
    else walkFrom mem va n (bitsAt e 62 2) (bitsAt e 8 48 * 256)

/-- The places of the entries that a walk reads, level by level. -/
def walkPlaces (mem : Memory) (va : Nat) : Nat → Nat → Nat → List Loc
  | 0, _, _ => []
  | n + 1, tgt, base =>
    let l : Loc := { space := if tgt = 1 then .die else .hbm, addr := base + 8 * walkIndex n va }
    let e : Word := BitVec.ofNat 64 (mem.readNat l 8)
    l :: (if mem.poisoned l || !e.getLsbD 0 || malformed n e || e.getLsbD 1 then []
          else walkPlaces mem va n (bitsAt e 62 2) (bitsAt e 8 48 * 256))

/-- The entries that the walk of an address reads from the context's root on. -/
def Mach.entries (dev : Device) (m : Mach) (va : Nat) : List Loc :=
  walkPlaces m.mem va 4 dev.rtgt.toNat (dev.root.toNat * 1048576)

/-- What the reads of a walk do to their cellars (R276, R278, R279). -/
def Mach.touchWalk (dev : Device) (m : Mach) (va : Nat) : Mach :=
  (m.entries dev va).foldl (fun m l => m.touchCellar dev l 8 true) m

/-- The walk from the context's root (R211). -/
def walk (dev : Device) (mem : Memory) (va : Nat) : Except (Nat × Nat) Leaf :=
  walkFrom mem va 4 dev.rtgt.toNat (dev.root.toNat * 1048576)

/-- The rights of a leaf against an access, and the location it gives (R212). -/
def leafLoc (dev : Device) (k : WalkKind) (va : Nat) (e : Leaf) : Except (Nat × Nat) Loc :=
  let pa := e.frame + va % pageSize e.lvl
  let sp : Space := match e.tgt with
    | 0 => .hbm
    | 1 => .die
    | 2 => .tier
    | _ => .peer e.peer
  if k = .write && !e.w then .error (2, e.lvl)
  else if k = .fetch && !e.x then .error (3, e.lvl)
  else if e.tgt ≤ 2 && !populated dev sp pa then .error (4, e.lvl)
  else .ok { space := sp, addr := pa }

/-- The leaf that an entry of a TLB holds. -/
def TlbEntry.leaf (t : TlbEntry) : Leaf :=
  { lvl := if t.size = 1073741824 then 2 else if t.size = 2097152 then 1 else 0, tgt := t.tgt,
    peer := t.peer, frame := t.frame, x := t.x, w := t.w }

/-- The leaf that a core's TLB, or with `micro` the micro-TLB of one of its quarters, holds for an address (R213). -/
def heldLeaf (m : Mach) (core : Nat) (micro : Option Nat) (va : Nat) : Option Leaf :=
  (m.tlb.find? (fun t => t.core == core && t.micro == micro && t.vbase ≤ va && va < t.vbase + t.size)).map TlbEntry.leaf

/-- The leaf that a core's TLB holds for an address. -/
def tlbLeaf (m : Mach) (core va : Nat) : Option Leaf := heldLeaf m core none va

/-- Put a leaf into a core's TLB of 2,048 entries, or into a micro-TLB of 64; the oldest one leaves (R213; DESIGN
CHOICE, log 12). -/
def fillLeaf (m : Mach) (core : Nat) (micro : Option Nat) (va : Nat) (e : Leaf) : Mach :=
  let size := pageSize e.lvl
  let t : TlbEntry := { core := core, micro := micro, vbase := va - va % size, size := size, tgt := e.tgt,
                        peer := e.peer, frame := e.frame, x := e.x, w := e.w }
  let mine := m.tlb.filter (fun t => t.core == core && t.micro == micro)
  let kept := if mine.length < (if micro.isSome then 64 else 2048) then m.tlb else m.tlb.erase (mine.getLast?.getD t)
  { m with tlb := t :: kept }

/-- Put a leaf into a core's TLB. -/
def tlbFill (m : Mach) (core va : Nat) (e : Leaf) : Mach := fillLeaf m core none va e

/-- A translation that finds a leaf held: where the tables hold another entry by now, it takes the old or the new one
(R213). -/
def useLeaf (dev : Device) (m : Mach) (k : AccessKind) (va : Nat) (e : Leaf) : Mach × Except (Nat × Nat) Loc :=
  let old := leafLoc dev (walkKind k) va e
  match walk dev m.mem va with
  | .ok e' =>
    if e' = e then (m, old)
    else ({ m with freeCtr := m.freeCtr + 1 },
      if Config.staleLeaf m.freeCtr then old else leafLoc dev (walkKind k) va e')
  | .error f => ({ m with freeCtr := m.freeCtr + 1 }, if Config.staleLeaf m.freeCtr then old else .error f)

/-- Translate for a core, through its TLB (R212, R213): a leaf that passes every check is kept. -/
def translate (dev : Device) (m : Mach) (core : Nat) (k : AccessKind) (va : Nat) : Mach × Except (Nat × Nat) Loc :=
  match tlbLeaf m core va with
  | some e => useLeaf dev m k va e
  | none =>
    let w := m.touchWalk dev va
    match walk dev m.mem va with
    | .error f => (w, .error f)
    | .ok e =>
      match leafLoc dev (walkKind k) va e with
      | .error f => (w, .error f)
      | .ok l => (tlbFill w core va e, .ok l)

/-- Translate for a quarter of a core, through its micro-TLB and then the core's TLB. -/
def translateIn (dev : Device) (m : Mach) (core quarter : Nat) (k : AccessKind) (va : Nat) :
    Mach × Except (Nat × Nat) Loc :=
  match heldLeaf m core (some quarter) va with
  | some e => useLeaf dev m k va e
  | none =>
    match translate dev m core k va with
    | (m, .ok l) => ((match tlbLeaf m core va with
        | some e => fillLeaf m core (some quarter) va e
        | none => m), .ok l)
    | r => r

/-- Translate for the distributor or a cellar, through the walkers alone (R27, R286, R431). -/
def translateRaw (dev : Device) (m : Mach) (k : AccessKind) (va : Nat) : Except (Nat × Nat) Loc :=
  match walk dev m.mem va with
  | .error f => .error f
  | .ok e => leafLoc dev (walkKind k) va e

/-! ## Fault records (R214, R215) -/

/-- Who makes a fault record, as its second word shows it (R215). -/
structure FaultSrc where
  master : Master
  die : Nat
  gridh : BitVec 32
  dist : Bool
  eng : Bool
  gslot : Nat
  loc : Nat
  deriving DecidableEq, Repr

/-- A group as the master of a fault. -/
def Mach.groupSrc (m : Mach) (g : Group) : FaultSrc :=
  { master := .group g.gid, die := g.core / 16, gridh := ((m.gridOfGroup? g).map (·.handle)).getD 0,
    dist := false, eng := false, gslot := g.slot, loc := g.loc }

/-- An operation as the master of a fault. -/
def opSrc (o : Op) : FaultSrc :=
  { master := .op o.id, die := o.core / 16, gridh := o.grid, dist := false, eng := true, gslot := o.slot,
    loc := o.core % 64 + 64 * (o.quarter % 4) }

/-- Write a fault record, or merge the fault into the unanswered record of its page and kind (R214). With
256 unanswered records on the die the walk waits and makes none. -/
def Mach.recordFault (m : Mach) (src : FaultSrc) (va : Nat) (k : AccessKind) (cause lvl : Nat) : Mach :=
  let page := va / 65536 % pow2 40
  if m.faults.any (fun f => f.vpage == page && f.kind == k && f.die == src.die) then
    { m with faults := m.faults.map (fun f =>
        if f.vpage == page && f.kind == k && f.die == src.die && !f.masters.contains src.master then
          { f with masters := f.masters ++ [src.master] } else f) }
  else if 256 ≤ (m.faults.filter (fun f => f.die == src.die)).length then m
  else
    { m with faults := m.faults ++
        [{ vpage := page, kind := k, cause := cause, lvl := lvl, die := src.die, gridh := src.gridh,
           dist := src.dist, eng := src.eng, gslot := src.gslot, loc := src.loc, masters := [src.master],
           idx := none }] }

end Sys2Proof.Machine
end

