-- ==== Sys2Proof/Machine/Serve.lean ====
section
/-!
DEFINITION. Who serves a location (R77, R388 to R390, R392), when a request may be performed (R216, R270 to R274), and
reads at a home.
-/
namespace Sys2Proof.Machine

/-! ## Who serves a location (R77, R388 to R390, R392) -/

/-- Where an access to a location is served. -/
inductive Served where
  /-- At a location of this device: its own, or the staged frame of its tier page. -/
  | at (l : Loc)
  /-- By nobody: a read gives all ones, a write is discarded (TIER_ABSENT). -/
  | absent
  /-- By an expander that does not answer. -/
  | silent
  /-- By a peer MB9, of a device number. -/
  | peer (d : Nat)
  deriving DecidableEq, Repr

/-- The UP ports of the route toward a device (R392). -/
def upPorts (dev : Device) (d : Nat) : List Nat :=
  let mask : BitVec 16 := ((dev.routes.find? (fun r => r.1 == d)).map (·.2)).getD 0
  (List.range 16).filter (fun n => mask.getLsbD n && (vget dev.nycels n NycelRegs.reset).st == .up)

/-- Number of tier addresses of a port. -/
def tierSpan : Nat := 2199023255552

/-- A tier port's unit with nothing in it. -/
def TierUnit.empty : TierUnit := TierUnit.mk [] [] [] 0 none none

/-- The physical address in HBM of a port's staging frame (R388). -/
def frameAddr (dev : Device) (port frame : Nat) : Nat :=
  ((vget dev.tiers port TierRegs.reset).tsb.toNat + frame) * 65536

/-- The UP port over which a request to a device that gets number `n` leaves: the spray's choice (R392; DEDUCED, log 25). -/
def sprayTo (dev : Device) (d n : Nat) : Option Nat :=
  let ports := upPorts dev d
  ports[Config.sprayPort n % ports.length]?

/-- Who serves a location. While a port that has left service has its status word still to write, nobody answers for a device
to which no port is UP: the word comes first (R392). -/
def served (dev : Device) (m : Mach) (l : Loc) : Served :=
  match l.space with
  | .tier =>
    let p := l.addr / tierSpan
    let page := l.addr % tierSpan / 65536
    let regs := vget dev.tiers p TierRegs.reset
    let unit := vget m.tiers p TierUnit.empty
    if regs.st = .down then .absent
    else match unit.frames.find? (fun f => f.page == page) with
      | some f => .at { space := .hbm, addr := frameAddr dev p f.frame + l.addr % 65536 }
      | none => if regs.st = .up then (if Config.expanderAnswers p m.cyc.toNat then .at l else .silent) else .absent
  | .peer d =>
    if !(upPorts dev d).isEmpty then .peer d
    else if m.nycels.toList.any (fun u => u.wordDue) then .silent else .absent
  | _ => .at l

/-- Has a port's expander answered nothing from a cycle to another? -/
def silentSince (port since now : Nat) : Bool :=
  (List.range (now + 1 - since)).all (fun k => !Config.expanderAnswers port (since + k))

/-- A request of an agent that sends no packet finds the expander silent: the port notes since when a request
has stood unanswered (R390); one that the expander has answered since then stands no longer. -/
def Mach.askTier (dev : Device) (m : Mach) (l : Loc) : Mach :=
  match served dev m l with
  | .silent => { m with tiers := vmod m.tiers (l.addr / tierSpan) (fun u => { u with
      asked := some (match u.asked with
        | some c => if silentSince (l.addr / tierSpan) c m.cyc.toNat then c else m.cyc.toNat
        | none => m.cyc.toNat) }) }
  | _ => m

/-- A unit that has to wait leaves no trace but what the ports note of it (R390): what it has read or written is done when all
of it is served. -/
def Mach.waits (m m' : Mach) : Mach :=
  { m with tiers := Vector.ofFn (fun i : Fin 2 => { m.tiers.get i with asked := (m'.tiers.get i).asked }) }

/-- A staged page is used, and with `write` becomes dirty (R389). -/
def Mach.touchFrame (m : Mach) (l : Loc) (write : Bool) : Mach :=
  match l.space with
  | .tier =>
    let page := l.addr % tierSpan / 65536
    { m with tiers := vmod m.tiers (l.addr / tierSpan) (fun u => { u with frames := u.frames.map (fun f =>
        if f.page == page then { f with used := m.cyc.toNat, dirty := f.dirty || write } else f) }) }
  | _ => m

/-- Fresh bytes from a peer. -/
def Mach.peerBytes (m : Mach) (n : Nat) : Mach × List Byte :=
  ({ m with freeCtr := m.freeCtr + n }, (List.range n).map (fun k => Config.peerByte (m.freeCtr + k)))

/-- The port that a packet from device `src` reaches admits it: `src` lies in NPALLOW and the context runs (R392). -/
def admitsPeer (dev : Device) (port src : Nat) : Bool :=
  let r := vget dev.nycels port NycelRegs.reset
  r.lo.toNat ≤ src && src ≤ r.hi.toNat && dev.ctxst == .running

/-- What an agent that sends no packet gets of `n` bytes at a peer: the peer's reply, which a port that does not admit it
turns into all ones, and which freezes the port (R376, R392). -/
def Mach.peerAnswer (dev : Device) (m : Mach) (d n : Nat) : Mach × List Byte :=
  match (sprayTo dev d m.freeCtr).filter (fun port => !admitsPeer dev port d) with
  | none => ({ m with freeCtr := m.freeCtr + 1 }).peerBytes n
  | some port =>
    ({ m with freeCtr := m.freeCtr + 1, nycels := vmod m.nycels port (fun u => { u with refused := true }) },
      List.replicate n 255)

/-! ## Packets (R216, R270 to R272) -/

/-- Do two packets touch a common byte? -/
def pktsMeet (p q : Pkt) : Bool :=
  p.loc.space == q.loc.space && p.loc.addr < q.loc.addr + q.len && q.loc.addr < p.loc.addr + p.len

/-- Packets of a core that stand before a packet and have not been performed (R335, R340). -/
def Mach.earlier (m : Mach) (p : Pkt) : List Pkt :=
  (m.net.takeWhile (fun q => q.id != p.id)).filter (fun q => q.core == p.core && !q.performed)

/-- Does nothing but its turn at the home hold a packet: every packet that it is ordered after has been performed, and a
release has its marker, reports and flush markers (R344, R345)? -/
def Mach.pktClear (m : Mach) (p : Pkt) : Bool :=
  p.after.all (fun i => m.net.all (fun q => q.id != i || q.performed)) &&
  (!p.release || (p.atHome && p.homes.isEmpty && p.paths == 0))

/-- Has a packet of another core that touches a byte of `p` arrived before it at their cellar (R272)? -/
def Mach.arrivedFirst (m : Mach) (p q : Pkt) : Bool :=
  p.loc.space == .hbm && q.core != p.core && !q.performed && pktsMeet p q && m.pktClear q &&
    (q.arrive < p.arrive || (q.arrive == p.arrive && q.id < p.id))

/-- May a packet be performed at its home: it has arrived, nothing holds it, no earlier one of its core touches a common
byte, none of another core that does has arrived before it (R272), and its lines are free (R79). -/
def Mach.canPerform (m : Mach) (p : Pkt) : Bool :=
  !p.performed && p.arrive ≤ m.cyc.toNat && m.pktClear p &&
  (m.earlier p).all (fun q => !pktsMeet p q) &&
  m.net.all (fun q => !m.arrivedFirst p q) &&
  (linesOf p.loc p.len).all (fun ln => (m.ownerOf ln).isNone)

/-- Is a packet a write? -/
def Pkt.isWrite (p : Pkt) : Bool :=
  match p.kind with
  | .read => false
  | _ => true

/-! ## The order in which a bank serves its requests (R274) -/

/-- The bank that a place in HBM lies in: its stack and the bank's place there. -/
def bankAt (pa : Nat) : Nat × Nat := (pa / stackBytes, bankKey pa)

/-- Has packet `q` arrived before packet `p`? -/
def arrivedBefore (p q : Pkt) : Bool := q.arrive < p.arrive || (q.arrive == p.arrive && q.id < p.id)

/-- Requests that wait at a channel. -/
def Mach.waitingAt (m : Mach) (stack ch : Nat) : List Pkt :=
  m.net.filter (fun p => p.loc.space == .hbm && p.loc.addr / stackBytes == stack && channelOf p.loc.addr == ch &&
    m.canPerform p)

/-- The request that has waited longest at a channel. -/
def Mach.oldestAt (m : Mach) (stack ch : Nat) : Option Pkt :=
  (m.waitingAt stack ch).foldl (fun a p => match a with
    | none => some p
    | some q => if arrivedBefore q p then some p else some q) none

/-- The channel's oldest waiting request, once it has waited 16·AGE cycles. -/
def Mach.expired (dev : Device) (m : Mach) (stack ch : Nat) : Option Nat :=
  let age := (vget (vget dev.cellars stack CellarRegs.reset).age ch 0).toNat
  ((m.oldestAt stack ch).filter (fun p => age != 0 && p.arrive + 16 * age ≤ m.cyc.toNat)).map (·.id)

/-- The request to whose bank no younger one comes before it (R274): the one that AGE_CAP_EXPIRY has marked, while it waits,
or the one whose age reaches the cap in this cycle. -/
def Mach.agedAt (dev : Device) (m : Mach) (stack ch : Nat) : Option Pkt :=
  match ((m.chan stack ch).aged.bind m.pkt?).filter (fun q => !q.performed) with
  | some q => some q
  | none => (m.expired dev stack ch).bind m.pkt?

/-- Must an access of `n` bytes of HBM that arrives now wait for a request that has arrived before it: for one that touches a
byte of it (R272), and in its bank with AGE = 0 for each one, else for the one whose age has reached the channel's cap
(R274)? -/
def Mach.bankBusy (dev : Device) (m : Mach) (x : Loc) (n : Nat) : Bool :=
  x.space == .hbm &&
  (m.net.any (fun q => q.loc.space == .hbm && !q.performed && q.arrive ≤ m.cyc.toNat && m.pktClear q &&
      q.loc.addr < x.addr + n && x.addr < q.loc.addr + q.len) ||
   (rowStarts x.addr n).any (fun pa => m.net.any (fun q =>
     q.loc.space == .hbm && bankAt q.loc.addr == bankAt pa && m.canPerform q &&
      (vget (vget dev.cellars (pa / stackBytes) CellarRegs.reset).age (channelOf pa) 0 == 0 ||
        (m.agedAt dev (pa / stackBytes) (channelOf pa)).map (·.id) == some q.id))))

/-- Must an access of `n` bytes at a place of this device wait: its channel serves nobody now (R283), or it waits for its turn
in its bank? -/
def Mach.placeHeld (dev : Device) (m : Mach) (x : Loc) (n : Nat) : Bool :=
  (x.space == .hbm && (rowStarts x.addr n).any (fun pa => !m.cellarOpen { x with addr := pa })) || m.bankBusy dev x n

/-- Must the walk of an address wait at one of its entries? -/
def Mach.walkHeld (dev : Device) (m : Mach) (va : Nat) : Bool := (m.entries dev va).any (fun l => m.placeHeld dev l 8)

/-- Must a translation for a core, or for one of its quarters, wait: neither TLB holds a leaf, and the walk waits? -/
def Mach.transHeld (dev : Device) (m : Mach) (core : Nat) (micro : Option Nat) (va : Nat) : Bool :=
  (micro.isNone || (heldLeaf m core micro va).isNone) && (tlbLeaf m core va).isNone && m.walkHeld dev va

/-- A translation by the walkers for the distributor or a cellar: none while the walk waits; else the machine after its reads
and what it gives. -/
def walkRaw (dev : Device) (m : Mach) (k : AccessKind) (va : Nat) : Option (Mach × Except (Nat × Nat) Loc) :=
  if m.walkHeld dev va then none else some (m.touchWalk dev va, translateRaw dev m k va)

/-- The place at which a walk begins. -/
def rootLoc (dev : Device) : Loc := { space := if dev.rtgt.toNat = 1 then .die else .hbm, addr := dev.root.toNat * 1048576 }

/-- Must an access at a location wait for its turn where it is served? -/
def Mach.homeBusy (dev : Device) (m : Mach) (l : Loc) (n : Nat) : Bool :=
  match served dev m l with
  | .at x => m.bankBusy dev x n
  | _ => false

/-! ## Reads at a home -/

/-- A read of `n` bytes that its home serves now: the bytes, and the poisoned lines by their numbers in the location's
own space; `none` while nobody answers or the channel serves nobody (R283). -/
def Mach.serveRead (dev : Device) (m : Mach) (l : Loc) (n : Nat) : Option (Mach × List Byte × List Nat) :=
  match served dev m l with
  | .silent => none
  | .absent => some (m, List.replicate n 255, [])
  | .peer d =>
    let (m, bs) := m.peerAnswer dev d n
    some (m, bs, [])
  | .at x =>
    let bad := (linesOf x n).filter (fun ln => m.mem.poisoned { x with addr := ln.index * 64 })
    if !m.cellarOpen x then none
    else some ((m.touchCellar dev x n true).touchFrame l false, m.mem.read x n, bad.map (fun ln => ln.index + l.addr / 64 - x.addr / 64))

/-- A read at its home by an agent that sends no packet: it waits for its turn in its bank (R274). -/
def Mach.homeRead (dev : Device) (m : Mach) (l : Loc) (n : Nat) : Option (Mach × List Byte × List Nat) :=
  if m.homeBusy dev l n then none else m.serveRead dev l n

/-- A word of code read at its home: none while an expander does not answer. -/
def readCode (dev : Device) (m : Mach) (l : Loc) : Option (Mach × Word) :=
  (m.homeRead dev l 8).map (fun x => (x.1, BitVec.ofNat 64 (leNat x.2.1)))

end Sys2Proof.Machine
end

