-- ==== Sys2Proof/Machine/Code.lean ====
section
/-!
DEFINITION. Traps at issue (R70), and the code that a run issues from: clauses in the clause cache, and their words as they
are fetched (R53, R56, R72, R75).
-/
namespace Sys2Proof.Machine

/-! ## Traps at issue (R70, R359) -/

/-- A trap of a kind at issue of a word (R70, R359): the word has had no effect, no co-issued pair waits any longer for
its vector word, and the trap is raised. -/
def trapKindAt (s : State) (g : Group) (off seq : Nat) (kind : TrapKind) (cause : Nat) (mask : Mask)
    (info : Word) : State :=
  let t : Trap := { cause := cause, kind := kind, mask := mask, off := off, info := info, regcnt := g.regcnt,
                    op := none, seq := seq }
  let m := s.mach.dropOwnWait g.gid
  let m := m.modGroup g.gid (fun g => { g with faultWait := .none, pair := none })
  { s with mach := ({ m with nextId := m.nextId + 1 }).raise g.gid t }

/-- A trap of kind W at issue of a word. -/
def trapAt (s : State) (g : Group) (off seq : Nat) (cause : Nat) (mask : Mask) (info : Word) : State :=
  trapKindAt s g off seq .w cause mask info

/-! ## Clauses (R53, R72, R75) -/

/-- The .glob address of an offset in a grid's code section. -/
def codeVa (grid : Grid) (off : Nat) : Nat := grid.image + grid.hdr.codeo + off

/-- Words that follow a header, as far as their translations succeed (R72). -/
def fillWords (dev : Device) (core va : Nat) : Nat → Mach → Mach × List Word
  | 0, m => (m, [])
  | n + 1, m =>
    if m.transHeld dev core none va then (m, [])
    else
    let (m, r) := translate dev m core .fetch va
    match r with
    | .error _ => (m, [])
    | .ok l => match readCode dev m l with
      | none => (m.askTier dev l, [])
      | some (m, w) =>
        let (m, ws) := fillWords dev core (va + 8) n m
        (m, w :: ws)

/-- Bytes of a clause cache (R75). -/
def cacheBytes : Nat := 32768

/-- The clauses of a core's cache that stay beside `used` bytes of newer ones: the oldest leave a full cache (R75;
which leave is a DESIGN CHOICE, log 13). Other cores' entries stay. -/
def keepClauses (core : Nat) : Nat → List CachedClause → List CachedClause
  | _, [] => []
  | used, k :: r =>
    if k.core == core then
      (if used + 8 * k.words.length ≤ cacheBytes then k :: keepClauses core (used + 8 * k.words.length) r
       else keepClauses core cacheBytes r)
    else k :: keepClauses core used r

/-- Fill a core's clause cache with the clause of a header (R75). -/
def fillClause (dev : Device) (m : Mach) (core va : Nat) (h : Word) : Mach :=
  let (m, ws) := fillWords dev core (va + 8) ((fieldsHeader h).cnt.toNat + 1) m
  { m with cache := { core := core, va := va, words := h :: ws } ::
      keepClauses core (8 * (ws.length + 1)) (m.cache.filter (fun k => !(k.core == core && k.va == va))) }

/-- Do a clause's header and the words that it was filled with stand in memory as the clause has them? -/
def headStands (dev : Device) (m : Mach) (core va : Nat) (c : Clause) : Bool :=
  match (fillWords dev core va (c.words.length + 1) m).2 with
  | [] => false
  | h :: ws => fieldsHeader h == c.header && ws == c.words

/-- The words that a clause lacked have been read. As long as its header and its other words stand in memory unchanged they
are those that follow; else the clause has been rewritten since it was filled, the words that stood behind it then are gone,
and they are free values, so that no clause mixes old words with new ones (R75; DESIGN CHOICE, log 13). -/
def tailWords (dev : Device) (m : Mach) (core va : Nat) (c : Clause) (read : List Word) : Mach × List Word :=
  if headStands dev m core va c then (m, read)
  else ({ m with freeCtr := m.freeCtr + read.length },
    (List.range read.length).map (fun k => Config.oldCode (m.freeCtr + k)))

/-- The cache entry from which a clause has been filled takes the words that it lacked (R75; DESIGN CHOICE, log 13). -/
def Mach.cacheTail (m : Mach) (core va : Nat) (c : Clause) (tail : List Word) : Mach :=
  match m.cache.find? (fun k => k.core == core && k.va == va) with
  | some k =>
    if k.words.drop 1 == c.words && fieldsHeader (k.words.headD 0) == c.header then
      { m with cache := { k with words := k.words ++ tail } ::
          keepClauses core (8 * (k.words.length + tail.length)) (m.cache.filter (fun k => !(k.core == core && k.va == va))) }
    else m
  | none => m

/-- A code fetch that fails (R72): the run stalls with a fault record of KIND 3, or, after ABORT, traps. -/
def fetchFault (s : State) (g : Group) (run : Mask) (off va cause lvl : Nat) : State :=
  let page := va / 65536 % pow2 40
  if g.faultWait = .aborted page .fetch then
    trapAt s g off s.mach.nextId causeTranslation run (BitVec.ofNat 64 va)
  else match g.faultWait with
  | .waiting _ _ => s
  | _ =>
    let m := s.mach.recordFault (s.mach.groupSrc g) va .fetch cause lvl
    if m.faults.any (fun f => f.vpage == page && f.kind == .fetch && f.masters.contains (.group g.gid)) then
      { s with mach := m.modGroup g.gid (fun g => { g with faultWait := .waiting page .fetch, faultAt := off }) }
    else { s with mach := m }

/-- Word `idx` of a clause, read now if its translation had failed when the clause was filled. The words of a clause
whose header lies in the code section are fetched wherever they lie (R72 bounds headers alone; DESIGN CHOICE, log 62). A run that
stands beyond the last word of the header read again idles there (DESIGN CHOICE, log 73). -/
def clauseWord (s : State) (g : Group) (grid : Grid) (run : Mask) (p : LanePC) (c : Clause) :
    Except State (Mach × Clause) :=
  if p.idx ≤ c.words.length then .ok (s.mach, c)
  else
    let from' := c.words.length + 1
    let (m, ws) := fillWords s.dev g.core (codeVa grid (c.hdr + 8 * from')) (c.header.cnt.toNat + 2 - from') s.mach
    let (m, ws) := tailWords s.dev m g.core (codeVa grid c.hdr) c ws
    let m := if ws.isEmpty then m else m.cacheTail g.core (codeVa grid c.hdr) c ws
    let c := { c with words := c.words ++ ws }
    if p.idx ≤ c.words.length then .ok (m, c)
    else
      let va := codeVa grid (c.hdr + 8 * (c.words.length + 1))
      if m.transHeld s.dev g.core none va then .error { s with mach := m }
      else match translate s.dev m g.core .fetch va with
      | (m, .error (cause, lvl)) => .error (fetchFault { s with mach := m } g run (p.hdr + 8 * p.idx) va cause lvl)
      | (m, .ok _) => .error { s with mach := m }

end Sys2Proof.Machine
end

