-- ==== Sys2Proof/Machine/Issue.lean ====
section
/-!
DEFINITION. Issuing one word: the checks of R70, interlocks, the word's own effect, stepping its run; and
the shared pieces that meanings are made of: traps at issue, address checks (R207), recalls, operations.
-/
namespace Sys2Proof.Machine

/-! ## The small language of meanings -/

/-- How a meaning ends other than with its effect. -/
inductive Stop where
  /-- A precise trap of kind W: the word has no effect (R359). -/
  | trap (cause : Nat) (mask : Mask) (info : Word)
  /-- A read that the word makes at issue is lost: a trap of kind G, and the word has no effect (R358, R372). -/
  | lost (cause : Nat) (mask : Mask) (info : Word)
  /-- The word waits at its place; what it has taken so far stands. -/
  | stall
  deriving DecidableEq, Repr

/-- A computation over the machine that may stop. -/
abbrev M := EStateM Stop Mach

/-- What becomes of the run's lanes: those of the mask step on, the others stay or have been moved. -/
abbrev Flow := Mask

/-- The issuing group as it stands. -/
def curGroup (c : Iss) : M Group := do return ((← get).group? c.gid).getD c.g

/-- Change the issuing group. -/
def modCur (c : Iss) (f : Group → Group) : M Unit := modify (fun m => m.modGroup c.gid f)

/-- Trap with the trapping word in TRINFO and the run's mask. -/
def trapWord {α : Type} (c : Iss) (cause : Nat) : M α := throw (.trap cause c.run c.word)

/-- Trap with a mask and a value for TRINFO. -/
def trapInfo {α : Type} (cause : Nat) (mask : Mask) (info : Nat) : M α :=
  throw (.trap cause mask (BitVec.ofNat 64 info))

/-- Stall at the word. -/
def stall {α : Type} : M α := throw .stall

/-- The issuing group's team. -/
def teamOf (c : Iss) : M Team := do
  match (← get).team? c.g.team with
  | some t => return t
  | none => stall

/-- The issuing group's grid. -/
def gridOf (c : Iss) : M Grid := do
  match (← get).gridOfGroup? c.g with
  | some g => return g
  | none => stall

/-- A fresh name. -/
def freshId : M Nat := modifyGet Mach.fresh

/-- A fresh number for a free value. -/
def freeNat : M Nat := modifyGet (fun m => (m.freeCtr, { m with freeCtr := m.freeCtr + 1 }))

/-! ## Faults at issue (R214) -/

/-- The page of an address (R214). -/
def pageOf (va : Nat) : Nat := va / 65536 % pow2 40

/-- One address of a word translated: its lane's location, or a fault record and the page that failed first. -/
def transOne (c : Iss) (k : AccessKind) (g : Group) (r : Mach × List (Nat × Loc) × Option Nat) (x : Nat × Nat) :
    Mach × List (Nat × Loc) × Option Nat :=
  match translateIn c.dev r.1 c.g.core c.g.quarter k x.2 with
  | (m, .ok l) => (m, r.2.1 ++ [(x.1, l)], r.2.2)
  | (m, .error (cause, lvl)) =>
    (m.recordFault (m.groupSrc g) x.2 k cause lvl, r.2.1, some (r.2.2.getD (pageOf x.2)))

/-- Does a group wait for the answer to a fault record? -/
def FaultWait.isWaiting : FaultWait → Bool
  | .waiting _ _ => true
  | _ => false

/-- Translate the addresses of a word's lanes. A failure makes fault records and the word stalls; once a
record has been answered ABORT the word traps with its lanes on the page, or with `mask` for an access of
the whole group. -/
def transLanes (c : Iss) (k : AccessKind) (mask : Option Mask) (xs : List (Nat × Nat)) : M (List (Nat × Loc)) := do
  let g ← curGroup c
  if g.faultWait.isWaiting then stall
  match g.faultWait with
  | .aborted p k' =>
    match xs.find? (fun x => k' = k && pageOf x.2 == p) with
    | some x =>
      trapInfo causeTranslation
        (mask.getD (Mask.ofFn (fun l => xs.any (fun y => y.1 == l && pageOf y.2 == p)))) x.2
    | none => pure ()
  | _ => pure ()
  let m ← get
  if xs.any (fun x => m.transHeld c.dev c.g.core (some c.g.quarter) x.2) then stall
  let r := xs.foldl (transOne c k g) (m, [], none)
  set r.1
  match r.2.2 with
  | none => return r.2.1
  | some p =>
    if r.1.faults.any (fun f => f.vpage == p && f.kind == k && f.masters.contains (.group c.gid)) then
      modCur c (fun g => { g with faultWait := .waiting p k, faultAt := c.off })
    stall

/-! ## Targets (R53, R71, R72) -/

/-- Is an offset the aligned place of a clause header in the code section (R71)? A failing translation of
the read stalls the word. -/
def isTarget (c : Iss) (grid : Grid) (mask : Mask) (off : Int) : M Bool := do
  if off < 0 || off % 8 != 0 || (grid.hdr.codeb : Int) < off + 8 then return false
  let va := codeVa grid off.toNat
  let m ← get
  match m.cache.find? (fun k => k.core == c.g.core && k.va == va) with
  | some k => return isHeader (k.words.headD 0)
  | none =>
    match (← transLanes c .fetch (some mask) [(0, va)]).head? with
    | none => return false
    | some (_, l) =>
      let m ← get
      match readCode c.dev m l with
      | some (m, h) =>
        set m
        return isHeader h
      | none =>
        set (m.askTier c.dev l)
        stall

/-! ## Address checks (R206, R207) -/

/-- The team that a member number names in a team's cluster window: itself, or a member of its sharing
group (R50). -/
def memberTeam (m : Mach) (t : Team) (k : Nat) : Option Team :=
  if k = t.member then some t
  else if t.sgrp.isNone then none
  else m.ctx.teams.find? (fun u => u.cluster == t.cluster && u.grid == t.grid && u.member == k && u.sgrp == t.sgrp)

/-- The lanes whose address fails a test, with the lowest one's address. -/
def failing (xs : List (Nat × Nat)) (bad : Nat → Bool) : Option (Mask × Nat) :=
  match xs.find? (fun x => bad x.2) with
  | none => none
  | some x => some (Mask.ofFn (fun l => xs.any (fun y => y.1 == l && bad y.2)), x.2)

/-- Trap when an address fails a test; `whole` is the mask of an access of the whole group. -/
def checkAddr (whole : Option Mask) (cause : Nat) (xs : List (Nat × Nat)) (bad : Nat → Bool) : M Unit :=
  match failing xs bad with
  | some (mask, a) => trapInfo cause (whole.getD mask) a
  | none => pure ()

/-- Trap when one of several values of the whole group is no multiple of `n`. -/
def checkAligned (c : Iss) (n : Nat) (as : List Nat) : M Unit :=
  match as.find? (fun a => a % n != 0) with
  | some a => trapInfo causeMisaligned c.run a
  | none => pure ()

/-- A byte range of a team's core-store allocation as a location. -/
def coreLoc (t : Team) (off : Nat) : Loc := { space := .core t.core, addr := t.base + off }

/-- The checks of R207 on `n` bytes at each lane's address, and the locations they give. -/
def addrCheck (c : Iss) (t : Team) (spc : Nat) (k : AccessKind) (n : Nat) (whole : Option Mask)
    (xs : List (Nat × Nat)) : M (List (Nat × Loc)) := do
  let m ← get
  match spc with
  | 2 =>
    checkAddr whole causeAddrRange xs (fun a => pow2 56 ≤ a)
    checkAddr whole causeMisaligned xs (fun a => a % n != 0)
    transLanes c k whole xs
  | 1 =>
    checkAddr whole causeMisaligned xs (fun a => a % n != 0)
    checkAddr whole causeWindow xs (fun a => 11 < a / pow2 28 || (memberTeam m t (a / pow2 28)).isNone)
    let size (a : Nat) : Nat := ((memberTeam m t (a / pow2 28)).map (fun u => u.csl * 64)).getD 0
    checkAddr whole causeAllocBound xs (fun a => size a < a % pow2 28 + n)
    return xs.map (fun x => (x.1, coreLoc ((memberTeam m t (x.2 / pow2 28)).getD t) (x.2 % pow2 28)))
  | _ =>
    checkAddr whole causeMisaligned xs (fun a => a % n != 0)
    checkAddr whole causeAllocBound xs (fun a => t.csl * 64 < a + n)
    return xs.map (fun x => (x.1, coreLoc t x.2))

/-- Recall (R79): a lane access to a line that another operation owns waits at its word. -/
def recallLines (c : Iss) (xs : List Loc) (n : Nat) : M Unit := do
  let m ← get
  let own := (m.group? c.gid).bind (·.ownWait)
  if xs.any (fun l => (linesOf l n).any (fun k => (m.ownerOf k).isSome && m.ownerOf k != own)) then stall

/-! ## Operations (R109 to R112) -/

/-- Operands read at issue from the four fields of a word; a field that names V registers gives `n` of
them from its first. -/
def vals (c : Iss) (x : BitVec 8) (n : Nat) : List LaneVals :=
  if 192 ≤ x.toNat then [laneFn (fun _ => (fieldS c.g x).toNat % 4294967296)]
  else (List.range n).map (fun k => c.g.vReg c.free (x.toNat + k))

/-- No captured operands. -/
def Captured.none : Captured :=
  { sd := 0, sa := 0, sb := 0, sc := 0, vd := [], va := [], vb := [], vc := [] }

/-- Capture the S values of the register fields of a word. -/
def captureS (c : Iss) (w : WordG) : Captured :=
  { Captured.none with sd := fieldS c.g w.d, sa := fieldS c.g w.a, sb := fieldS c.g w.b, sc := fieldS c.g w.c }

/-- The count of a flag. -/
def Group.flagCount (g : Group) (k : Nat) : Nat := (vget g.k k 0).toNat

/-- A flag that an increment would take to 64 stalls the word (R110). -/
def flagRoom (c : Iss) : M Unit := do
  match c.flag with
  | some k => if (← curGroup c).flagCount k = 63 then stall
  | none => pure ()

/-- The V registers of the current frame as marks. -/
def markV (c : Iss) (js : List Nat) : List Reg := js.map (fun j => .v (c.g.base + j))

/-- The region counter as it stands when the word issues: the first word of a clause with REG = 1 has
raised it (R360, R368). -/
def Iss.regcnt (c : Iss) : Word := if c.idx = 1 && c.header.reg then c.g.regcnt + 1 else c.g.regcnt

/-- The first number from `k` on that a list does not hold, as far as its length. -/
def firstFree (used : List Nat) : Nat → Nat → Nat
  | 0, k => k
  | n + 1, k => if used.contains k then firstFree used n (k + 1) else k

/-- `n` different numbers that a list does not hold. -/
def freeNumbers (used : List Nat) : Nat → List Nat
  | 0 => []
  | n + 1 =>
    let k := firstFree used used.length 0
    k :: freeNumbers (k :: used) n

/-- `n` different TAGs that no outstanding request of a core carries (R270). -/
def Mach.freeTags (m : Mach) (core n : Nat) : List (BitVec 14) :=
  let used := (m.net.filter (fun p => p.core == core)).map (·.tag.toNat) ++
    (m.ctx.ops.filter (fun o => o.core == core)).flatMap (fun o => o.tags.map BitVec.toNat)
  (freeNumbers used n).map (BitVec.ofNat 14)

/-- Does each lane of an instruction make cellar requests of its own: rays, answers to them, filters, commands (R270)? -/
def lanesAsk : Instr → Bool
  | .raye _ => true
  | .anyr _ => true
  | .texf _ => true
  | .hgf _ => true
  | .attn _ => true
  | _ => false

/-- The operation that a word issues under a name (R109, R112). -/
def Iss.newOp (c : Iss) (m : Mach) (id : Nat) (i : Instr) (cap : Captured) : Op :=
  { id := id, gid := c.gid, team := c.g.team, grid := ((m.gridOfGroup? c.g).map (·.handle)).getD 0,
    core := c.g.core, quarter := c.g.quarter, slot := c.g.slot, instr := i, off := c.off, mask := c.lanes,
    flag := c.flag, cap := cap, base := c.g.base, cyc := m.cyc.toNat, seq := c.seq, regcnt := c.regcnt,
    pix := 0, st := .running, maps := [], recs := [], fam := none, before := [], addrs := [], writes := [],
    lost := [], aux := 0, byHandler := c.g.handling.isSome, gone := [], held := [],
    tags := m.freeTags c.g.core (if lanesAsk i then c.lanes.count else 1) }

/-- One more operation, issued last. -/
def Mach.addOp (m : Mach) (o : Op) : Mach := { m with ctx := { m.ctx with ops := m.ctx.ops ++ [o] } }

/-- A group notes an operation: its destinations take pending marks, its flag rises (R99, R109). -/
def Group.noteOp (id : Nat) (marks : List Reg) (flag : Option Nat) (g : Group) : Group :=
  { g with
    marks := g.marks ++ marks.map (fun r => (id, r)),
    k := match flag with
      | some k => vmod g.k k (· + 1)
      | none => g.k }

/-- Issue an operation under a name: its flag rises, its destinations take pending marks (R99, R109). -/
def issueAs (c : Iss) (id : Nat) (i : Instr) (cap : Captured) (marks : List Reg) (f : Op → Op) : M Unit :=
  modify (fun m => (m.addOp (f (c.newOp m id i cap))).modGroup c.gid (Group.noteOp id marks c.flag))

/-- Issue an operation that owns no line. -/
def issueOp (c : Iss) (i : Instr) (cap : Captured) (marks : List Reg) (f : Op → Op) : M Nat := do
  flagRoom c
  let id ← freshId
  issueAs c id i cap marks f
  return id

/-! ## Elements of an operation (R207) -/

/-- Why an element of an operation is not performed. -/
inductive Halt where
  /-- Nothing yet: a line, a request slot, an answer or another operation is waited for. -/
  | wait (m : Mach)
  | trap (m : Mach) (cause : Nat) (mask : Mask) (info : Nat)
  | fault (m : Mach) (va : Nat) (kind : AccessKind) (cause lvl : Nat)
  deriving DecidableEq, Repr

/-- One element: the machine after it, or why it is not performed. -/
abbrev Elem := Except Halt Mach

/-- The checks of R207 on one element of an operation: its location, or how the element ends. -/
def opAddr (dev : Device) (m : Mach) (o : Op) (mask : Mask) (spc : Nat) (k : AccessKind) (n a : Nat) :
    Except Halt (Mach × Loc) :=
  match m.team? o.team with
  | none => .error (.wait m)
  | some t =>
    match spc with
    | 2 =>
      if pow2 56 ≤ a then .error (.trap m causeAddrRange mask a)
      else if a % n != 0 then .error (.trap m causeMisaligned mask a)
      else if m.transHeld dev o.core (some o.quarter) a then .error (.wait m)
      else
        match translateIn dev m o.core o.quarter k a with
        | (m, .ok l) => .ok (m, l)
        | (m, .error (cause, lvl)) => .error (.fault m a k cause lvl)
    | 1 =>
      if a % n != 0 then .error (.trap m causeMisaligned mask a)
      else match (if 11 < a / pow2 28 then none else memberTeam m t (a / pow2 28)) with
        | none => .error (.trap m causeWindow mask a)
        | some u =>
          if u.csl * 64 < a % pow2 28 + n then .error (.trap m causeAllocBound mask a)
          else .ok (m, coreLoc u (a % pow2 28))
    | _ =>
      if a % n != 0 then .error (.trap m causeMisaligned mask a)
      else if t.csl * 64 < a + n then .error (.trap m causeAllocBound mask a)
      else .ok (m, coreLoc t a)

/-! ## Lanes that a scatter has still to send (R348) -/

/-- The word of a scatter form. -/
def scatterWord : Instr → Option WordG
  | .atom w => if mBit w.mod 4 then some w else none
  | .red w => if mBit w.mod 4 then some w else none
  | .cas w => if mBit w.mod 4 then some w else none
  | _ => none

/-- The places, in the order of its lanes, of those that an operation in scatter form has still to send; none of one
that a trap has stopped or that a handler has cancelled. -/
def Op.unsent (o : Op) : List Nat :=
  let rest := (List.range (o.mask.count - o.pix)).map (o.pix + ·)
  match scatterWord o.instr, o.st with
  | some _, .running => rest
  | some _, .faulted _ _ => rest
  | _, _ => []

/-- Has a group lanes of a scatter that have not been sent? They stand before its later accesses (R335, R340, R341). -/
def Mach.scattering (m : Mach) (gid : Nat) : Bool := m.ctx.ops.any (fun o => o.gid == gid && !o.unsent.isEmpty)

/-- The bytes that the unsent lanes of a group's scatters of before a number name, as far as their addresses pass R207. -/
def Mach.unsentBytes (dev : Device) (m : Mach) (gid seq : Nat) : List (Loc × Nat) :=
  (m.ctx.ops.filter (fun o => o.gid == gid && o.seq < seq)).flatMap (fun o =>
    match scatterWord o.instr with
    | none => []
    | some w =>
      let width := if mBit w.mod 2 then 8 else 4
      o.unsent.filterMap (fun k =>
        match opAddr dev m o (Mask.one (o.mask.lanes.getD k 0)) (mSpc w.mod) .laneAtomic width
            (o.recs.getD (3 * k) 0).toNat with
        | .ok x => some (x.2, width)
        | .error _ => none))

/-- Do unsent lanes of before a number touch `n` bytes at a location? -/
def Mach.unsentMeets (dev : Device) (m : Mach) (gid seq : Nat) (l : Loc) (n : Nat) : Bool :=
  (m.unsentBytes dev gid seq).any (fun x => x.1.space == l.space && x.1.addr < l.addr + n && l.addr < x.1.addr + x.2)

/-- Has a request that touches a line of a store not been performed, so that it comes before an Own of the line (R219)? -/
def Mach.lineBusy (m : Mach) (l : Line) : Bool :=
  m.net.any (fun p => !p.performed && p.loc.space == l.space && p.loc.addr / 64 ≤ l.index &&
    l.index ≤ (p.loc.addr + p.len - 1) / 64)

/-- May an operation take a line under its name: nobody else owns it, and every access that has come before has been
performed (R78, R219)? -/
def Mach.freeFor (m : Mach) (id : Nat) (l : Line) : Bool :=
  match m.ownerOf l with
  | none => !m.lineBusy l
  | some o => o == id

/-- Must a word that takes lines under a name wait at a line: it is not free for it, or lanes that an earlier scatter has
still to send touch it (R78, R219, R335)? -/
def Mach.lineHeld (m : Mach) (before : List (Loc × Nat)) (id : Nat) (l : Line) : Bool :=
  !m.freeFor id l || ((m.ownerOf l).isNone && before.any (fun x => (linesOf x.1 x.2).contains l))

/-! ## Own (R78) -/

/-- Own (R78): take the destination lines in ascending order under the name `id`; at a line that another
operation owns, or to which an access that comes before is still on its way (R219), the word waits and keeps what it
has taken. -/
def takeLines (c : Iss) (lines : List Line) : M Nat := do
  let g ← curGroup c
  let id ← match g.ownWait with
    | some id => pure id
    | none => freshId
  let m ← get
  let before := m.unsentBytes c.dev c.gid c.seq
  let mine := lines.takeWhile (fun l => !m.lineHeld before id l)
  let new := mine.filter (fun l => (m.ownerOf l).isNone)
  set { m with own := m.own ++ new.map (fun l => (l, id)) }
  if mine.length < lines.length then
    modCur c (fun g => { g with ownWait := some id, ownAt := lines[mine.length]? })
    stall
  else
    modCur c (fun g => { g with ownWait := none, ownAt := none })
    return id

/-- Issue an operation that owns its destination lines: a full flag comes first, so that the word then has
no effect (R110), and issue completes when every line is owned (R78). -/
def issueOwned (c : Iss) (i : Instr) (cap : Captured) (marks : List Reg) (lines : List Line) (f : Op → Op) :
    M Nat := do
  flagRoom c
  let id ← takeLines c lines
  issueAs c id i cap marks f
  return id

/-- The lines of a sorted list of line numbers without repeats. -/
def dedupLines (ls : List Line) : List Line :=
  ls.foldl (fun acc l => if acc.contains l then acc else acc ++ [l]) []

/-- Insert a line in ascending order of its store and number. -/
def insertLine (l : Line) : List Line → List Line
  | [] => [l]
  | k :: r =>
    let key (x : Line) : Nat := (match x.space with
      | .core n => n
      | .die => 64
      | _ => 65) * pow2 40 + x.index
    if k = l then k :: r else if key l < key k then l :: k :: r else k :: insertLine l r

/-- The lines of a list in ascending order without repeats. -/
def sortLines (ls : List Line) : List Line := ls.foldl (fun acc l => insertLine l acc) []

/-- Lines that ownership covers: those of core stores and die stores (R217). -/
def ownable (ls : List Line) : List Line :=
  sortLines (ls.filter (fun l => match l.space with
    | .core _ => true
    | .die => true
    | _ => false))

/-! ## Issuing a word (R70, R76, R98, R99) -/

/-- The lanes of a run whose guard holds (R76). -/
def guardLanes (g : Group) (run : Mask) (grd : BitVec 4) (sns : Bool) : Mask :=
  let n := grd.toNat
  Mask.ofFn (fun l => run.has l &&
    ((if n ≤ 11 then (g.pReg n).has l else if n ≤ 14 then g.qReg (n - 12) else true) != sns))

/-- The group whose turn it is, its run, and its clause, when a word of the run is at issue. -/
def wordAtIssue (s : State) : Option (Group × Mask × LanePC × Clause) :=
  match s.mach.group? s.mach.cur with
  | none => none
  | some g =>
    match g.nextPc, g.clause with
    | some pc, some cl =>
      let run := g.runAt pc
      let p := g.lane (firstLane run)
      if p.idx = 0 || cl.hdr != p.hdr || g.retired then none else some (g, run, p, cl)
    | _, _ => none

/-- Does the engine class of a clause admit an opcode (R57)? -/
def admits (ecls : BitVec 3) (opc : Nat) : Bool :=
  let cls := opc / 128
  let uniform := cls == 1 || (0x210 ≤ opc && opc ≤ 0x21F)
  let flow := opc ≤ 0x00A || opc == 0x00F
  match ecls.toNat with
  | 0 => cls == 2 || cls == 3 || cls == 4 || uniform || flow
  | 1 => uniform || flow
  | 2 => cls == 5 || uniform || flow
  | 3 => (0x300 ≤ opc && opc ≤ 0x30F) || uniform || flow
  | 4 => (0x310 ≤ opc && opc ≤ 0x33F) || uniform || flow
  | 5 => cls == 7 || uniform || flow
  | 6 => cls == 0 || uniform
  | _ => false

/-- Is an opcode a transfer (R58)? -/
def isTransfer (opc : Nat) : Bool := opc ≤ 0x008 || opc == 0x00E

/-- Opcodes of vector instructions, which may be the second word of a co-issued pair (R62). -/
def isVectorOp (opc : Nat) : Bool :=
  let cls := opc / 128
  (cls == 2 || cls == 3 || cls == 4) && !(0x210 ≤ opc && opc ≤ 0x21F)

/-- Checks 2 to 4 of R70: the cause of the first that fails. -/
def checkWord (g : Group) (h : Header) (idx opc : Nat) (t : WordSpec) (w : AnyWord) : Option Nat :=
  if !admits h.ecls opc || (isTransfer opc && idx != h.cnt.toNat + 1) then some causeClause
  else if !anyWordLegal t w then some causeEncoding
  else if (namedV t w).any (fun j => g.framed ≤ j) then some causeFrameBound
  else none

/-- Does a register that the word names carry a pending mark (R99)? -/
def interlocked (g : Group) (t : WordSpec) (w : AnyWord) : Bool :=
  !g.marks.isEmpty &&
  (let regs : List Reg := (namedV t w).map (fun j => .v (g.base + j)) ++ (namedS t w).map (fun n => .s n) ++
      (namedP t w).map (fun n => .p n)
   g.marks.any (fun p => regs.contains p.2))

/-- The flag that FSEL selects in a header, if its valid bit is set (R62). -/
def headerFlag (h : Header) (fsel : Bool) : Option Nat :=
  if fsel then (if h.fbv then some h.fb.toNat else none) else (if h.fav then some h.fa.toNat else none)

/-- The CO bit of a word. -/
def wordCo : AnyWord → Bool
  | .g w => w.co
  | .i w => w.co
  | _ => false

/-- The next word of the clause, when it is a vector instruction (R62). -/
def nextIsVector (cl : Clause) (idx : Nat) : Bool :=
  idx ≤ cl.header.cnt.toNat && isVectorOp (bitsAt (cl.words.getD idx 0) 54 10)

/-- Would the vector word of a co-issued pair have to wait for a register (R62)? -/
def pairBlocked (g : Group) (cl : Clause) (idx : Nat) : Bool :=
  match ofOpcode (bitsAt (cl.words.getD idx 0) 54 10) (cl.words.getD idx 0) with
  | some i =>
    match wordSpec i, wordOf i with
    | some t, some w => interlocked g t w
    | _, _ => false
  | none => false

/-- Is an opcode CALL, CALLX, RET, UNWIND or TRET, which set region entries themselves (R368)? -/
def setsRegions (opc : Nat) : Bool := opc = 4 || opc = 5 || opc = 6 || opc = 7 || opc = 14

/-- The lanes of a run whose region entry a first word leaves to its clause: all of them, but those that the word
itself moves between levels, and none at TRET (R368). -/
def Iss.regionLanes (c : Iss) (opc : Nat) : Mask :=
  if opc = 0x00E then 0 else if setsRegions opc then c.run &&& ~~~c.lanes else c.run

/-- The region entry that a clause with REG = 1 sets with its first word (R368). -/
def Group.enterRegion (c : Iss) (opc : Nat) (g : Group) : Group :=
  if c.idx = 1 && c.header.reg then
    { g.setLanes (c.regionLanes opc) (fun _ p => { p with region := c.hdr }) with regcnt := g.regcnt + 1 }
  else g

/-- The end of a clause: a group asleep, or one whose place is claimed, leaves the active set (R103). -/
def Group.endClause (cyc : Nat) (g : Group) : Group :=
  let g := { g with clause := none }
  if g.sleep.isSome || g.sched.claim || g.sched.leave then
    { g with sched := { g.sched with active := false, since := cyc, claim := false, leave := false } }
  else g

/-- The group after a word whose run's lanes in `flow` step on (R56, R107); it is no longer raised (R102). -/
def Group.finish (c : Iss) (opc : Nat) (flow : Flow) (cyc : Nat) (g : Group) : Group :=
  let g := (g.enterRegion c opc).stepLanes flow c.header
  let here (b : BarWait) : Bool := b.hdr == c.hdr && b.idx == c.idx && b.level == c.g.level
  let g := { g with pair := none, barWaits := g.barWaits.filter (fun b => !here b),
                    clause := g.clause.map (fun cl => { cl with begun := true }),
                    sched := { g.sched with waitSince := none, raised := false } }
  if flow = c.run && c.idx != c.header.cnt.toNat + 1 then g
  else
    let g := g.endClause cyc
    if c.g.serve.isSome then { g with serve := none } else g

/-- The machine after a word whose run's lanes in `flow` step on. -/
def finishWord (m : Mach) (c : Iss) (opc : Nat) (flow : Flow) : Mach :=
  m.modGroup c.gid (fun g => g.finish c opc flow m.cyc.toNat)

/-- The V registers that a word reads: those of its source fields, and the data of a store. -/
def readsV (i : Instr) (t : WordSpec) (w : AnyWord) : List Nat :=
  match w with
  | .g x => (match i with
      | .st _ => opdV t.d x.d
      | .stt _ => opdV t.d x.d
      | .hprobe _ => opdV t.d x.d
      | .vbfi _ => opdV t.d x.d
      | .tret _ => [0, 1, 2]
      | _ => []) ++ opdV t.a x.a ++ opdV t.b x.b ++ (if t.cDst then [] else opdV t.c x.c)
  | .i x => opdV t.a x.a
  | _ => []

/-- The V registers that a word reads from the register home if they stand there (R120): those that it reads, and of a
tensor store those that its elements may fill. -/
def backV (i : Instr) (t : WordSpec) (w : AnyWord) : List Nat :=
  (match i, w with
   | .stt _, .g x => (List.range 4).map (x.d.toNat + ·)
   | _, _ => []) ++ readsV i t w

/-- The first register with an uncorrectable error that a word reads (R372). -/
def badRead (g : Group) (i : Instr) (t : WordSpec) (w : AnyWord) : Option Nat :=
  if g.badRegs.isEmpty then none
  else (readsV i t w).find? (fun j => g.badRegs.contains (g.base + j))

/-- MACHINE_CHECK of kind G at the word that reads a bad register: the word's lanes go back to their region
entries at delivery (R359, R372). -/
def badReadTrap (s : State) (g : Group) (off seq : Nat) (mask : Mask) (j : Nat) : State :=
  trapKindAt s g off seq .g causeMachineCheck mask (BitVec.ofNat 64 (1 + 256 * j))

/-- Is a word that stalls a waiting word: a BAR, BARW or CBAR, a FENCE, or an engine word that waits to own
its lines (R103)? -/
def Group.waitingWord (g : Group) : Instr → Bool
  | .bar _ => true
  | .barw _ => true
  | .cbar _ => true
  | .fence _ => true
  | _ => g.ownWait.isSome

/-- A group stalls at a word: at a waiting word its wait is timed, and a claimed place is given up (R103). -/
def Group.waits (g : Group) (i : Instr) (cyc : Nat) : Group :=
  if g.waitingWord i then
    { g with clause := g.clause.map (fun cl => { cl with begun := true }),
             sched := { g.sched with waitSince := some (g.sched.waitSince.getD cyc),
                                     active := g.sched.active && !g.sched.claim, claim := false,
                                     since := if g.sched.claim then cyc else g.sched.since } }
  else g

/-- A word that has passed the checks and interlocks of its issue: the group as it stood, the issue's context,
the machine in which its own effect begins, its opcode, and whether it opens a co-issued pair. -/
structure Start where
  g : Group
  c : Iss
  m : Mach
  opc : Nat
  co : Bool
  deriving DecidableEq, Repr

/-- How the issue of a word begins. -/
inductive Begun where
  /-- No group has a run that could issue a word. -/
  | nobody
  /-- The word ends here: it has trapped, it waits, or its guard selects no lane. -/
  | ended (s : State)
  /-- Its guard selects no lane: its own checks are still made (R70 order 5), and it has no effect (R61). -/
  | empty (b : Start)
  /-- The word's own effect is next. -/
  | go (b : Start)
  deriving DecidableEq, Repr

/-- The group as the words of a co-issued pair read it: its vector word reads S and Q as the uniform word
found them (R99). -/
def Group.asRead (g : Group) : Group :=
  match g.pair with
  | some (ss, qs) => { g with s := ss, q := qs }
  | none => g

/-- The context in which a word of a run issues (R76). -/
def issueContext (s : State) (g : Group) (run : Mask) (p : LanePC) (cl : Clause) (t : WordSpec) (opc : Nat)
    (w : AnyWord) : Iss :=
  { dev := s.dev, gid := g.gid, g := g.asRead, word := encodeParts opc w, run := run,
    lanes := guardLanes g.asRead run (wordGuard w).1 (wordGuard w).2, hdr := p.hdr, idx := p.idx,
    header := cl.header, seq := s.mach.nextId, free := s.mach.freeCtr,
    flag := if t.flag then headerFlag cl.header (wordFsel w) else none }

/-- The registers of the current frame that a word marks dead: only where the run is all the live lanes
(R116). -/
def deadRegs (g : Group) (run : Mask) (t : WordSpec) (w : AnyWord) : List Nat :=
  if run = g.livem then lastReads t w else []

/-- The machine with a fresh name and fresh numbers for the free values of a word. -/
def Mach.numbered (m : Mach) : Mach := { m with nextId := m.nextId + 1, freeCtr := m.freeCtr + 65536 }

/-- What the register home holds of the V register at a place (R117); none where it does not translate. -/
def Mach.homeValue (dev : Device) (m : Mach) (g : Group) (place : Nat) : Option LaneVals :=
  match translateRaw dev m .engineRead (g.fbb.toNat + 128 * place) with
  | .ok l => some (laneFn (fun i => m.mem.readNat (l.add (4 * i)) 4))
  | .error _ => none

/-- V registers of the current frame are read back from the register home, as far as they still stand there: the first
read of each after its frame was taken (R120). -/
def Group.readBack (dev : Device) (m : Mach) (js : List Nat) (g : Group) : Group :=
  if g.homed.isEmpty then g
  else (js.map (g.base + ·)).foldl (fun g h =>
    if g.homed.contains h then
      { g with homed := g.homed.filter (· != h), v := match m.homeValue dev g h with
          | some x => vStore g.v h x
          | none => g.v }
    else g) g

/-- Words whose description makes their own checks whether or not a lane is selected: LAUNCH (R164), FETCHW (R165) and TRET
(R161). -/
def checksFirst (opc : Nat) : Bool := opc == 0x011 || opc == 0x012 || opc == 0x00E

/-- A uniform word with CO waits for a clause's next word that has not been fetched yet, since neither word of a pair issues
before the other (R62): the state in which that word has been fetched, or its page has faulted. Once ABORT has answered the
fault the uniform word issues alone, and the trap comes at the next word (R72). -/
def pairFetch (s : State) (g : Group) (run : Mask) (p : LanePC) (cl : Clause) (w : AnyWord) : Option State :=
  if wordCo w && p.idx ≤ cl.header.cnt.toNat && cl.words.length ≤ p.idx then
    match s.mach.gridOfGroup? g with
    | none => none
    | some grid =>
      let page := codeVa grid (cl.hdr + 8 * (cl.words.length + 1)) / 65536 % pow2 40
      if g.faultWait = .aborted page .fetch then none
      else match clauseWord s g grid run { p with idx := p.idx + 1 } cl with
        | .ok (m, c) => some { s with mach := m.modGroup g.gid (fun g => { g with clause := some c }) }
        | .error t => some t
  else none

/-- THE START OF A WORD'S ISSUE (R70): the checks of orders 2 to 4, the interlocks of R99, the lanes of R76, a
read of a bad register (R372). A trap leaves no effect of the word; a guard that selects no lane leaves no
effect (R61): of its own checks those that its description or R61 makes whatever the guard are made (`emptyWord`). The
registers that the
word reads and that the drover has taken are read back (R120), and those that it marks dead are no longer materialised
in the machine in which its effect begins (R116). -/
def beginWord (i : Instr) (s : State) : Begun :=
  match wordAtIssue s, wordSpec i, parts i with
  | some (g, run, p, cl), some t, some (opc, w) =>
    let c := issueContext s g run p cl t opc w
    let co := wordCo w && nextIsVector cl p.idx
    match checkWord g cl.header p.idx opc t w with
    | some cause => .ended (trapAt s g c.off c.seq cause run c.word)
    | none =>
      match pairFetch s g run p cl w with
      | some t => .ended t
      | none =>
      if interlocked g t w || (co && pairBlocked g cl p.idx) then .ended s
      else if c.lanes = 0 && !t.noGuard then
        (if t.uni then .ended { s with mach := finishWord s.mach.numbered c opc run }
         else .empty { g := g, c := c, m := s.mach.numbered, opc := opc, co := co })
      else
        match badRead g i t w with
        | some j => .ended (badReadTrap s g c.off c.seq c.lanes j)
        | none =>
          let js := backV i t w
          let b := g.readBack s.dev s.mach js
          .go { g := b, c := issueContext s b run p cl t opc w,
                m := s.mach.numbered.modGroup g.gid (fun h => (h.readBack s.dev s.mach js).kill (deadRegs g run t w)),
                opc := opc, co := co }
  | _, _, _ => .nobody

/-- The group remembers S and Q as the uniform word of a co-issued pair found them (R99). -/
def Group.openPair (g before : Group) : Group := { g with pair := some (before.s, before.q) }

/-- THE END OF A WORD'S ISSUE: with its effect the run goes on (R56); a trap leaves no effect of the word; a
stall leaves the word to issue again. -/
def endWord (i : Instr) (s : State) (b : Start) (r : EStateM.Result Stop Mach Flow) : State :=
  match r with
  | .ok flow m =>
    let m := finishWord m b.c b.opc flow
    { s with mach := if b.co then m.modGroup b.g.gid (fun h => h.openPair b.g) else m }
  | .error (.trap cause mask info) _ =>
    let s' := trapAt s b.g b.c.off b.c.seq cause mask info
    -- a transfer whose target fails: the run's other lanes go on (R71)
    if isTransfer b.opc && b.opc != 0x00E && (cause = causeTarget || cause = causeTranslation) then
      { s' with mach := s'.mach.modGroup b.g.gid (fun h => h.stepLanes (b.c.run &&& ~~~b.c.lanes) b.c.header) }
    else s'
  | .error (.lost cause mask info) _ => trapKindAt s b.g b.c.off b.c.seq .g cause mask info
  | .error .stall m =>
    { s with mach := m.modGroup b.g.gid (fun h => { h with v := b.g.v, clean := b.g.clean }.waits i s.mach.cyc.toNat) }

/-- A word whose guard selects no lane has no effect, but for its encoding checks (R61), and the own checks of the words of
`checksFirst`, with LAUNCH's wait for a translation and FETCHW's for the group's previous one; of the other words order 5 of
R70 is for lanes (R145, R146, R230, R239, R308; DEDUCED, log 72). -/
def emptyWord (i : Instr) (s : State) (b : Start) (r : EStateM.Result Stop Mach Flow) : State :=
  let none' : State := { s with mach := finishWord b.m b.c b.opc b.c.run }
  match r with
  | .error (.trap cause mask _) _ =>
    if mask != 0 && (checksFirst b.opc || cause == causeEncoding) then endWord i s b r else none'
  | .error .stall m =>
    let waits := match i, m.group? b.c.gid with
      | .fetchw _, _ => true
      | .launch _, some g => g.faultWait.isWaiting
      | _, _ => false
    if waits then endWord i s b r else none'
  | _ => none'

/-- ISSUE OF ONE INSTRUCTION WORD (R70): its start, its own effect, its end. -/
def runWord (i : Instr) (body : Iss → M Flow) (s : State) : Host.Outcome State Fault Refusal :=
  match beginWord i s with
  | .nobody => .fault .noIssuingRun
  | .ended t => .next t
  | .empty b => .next (emptyWord i s b ((body b.c).run b.m))
  | .go b => .next (endWord i s b ((body b.c).run b.m))

/-- A word that only changes its group: registers, predicates, flags of the group (R113). -/
def regWord (i : Instr) (f : Iss → Group → Group) (s : State) : Host.Outcome State Fault Refusal :=
  runWord i (fun c => do
    modCur c (f c)
    return c.run) s

end Sys2Proof.Machine
end

