-- ==== Sys2Proof/Machine/Home.lean ====
section
/-!
DEFINITION. What a home does with a request that reaches it (R77, R208, R272, R281, R346): reads, masked
writes with the rules of poison, and atomics.
-/
namespace Sys2Proof.Machine

/-! ## Writes -/

/-- The pages of a grid's const section that are mapped for reading: the .glob address and the place of each (R20). -/
def constPages (dev : Device) (m : Mach) (g : Grid) : List (Nat × Loc) :=
  let first := (g.image + g.hdr.consto) / 65536
  let last := (g.image + g.hdr.consto + g.hdr.constb - 1) / 65536
  if g.hdr.constb = 0 then []
  else (List.range (last + 1 - first)).filterMap (fun k =>
    match translateRaw dev m .laneRead ((first + k) * 65536) with
    | .ok l => some ((first + k) * 65536, l)
    | .error _ => none)

/-- The offset in a grid's const section of the byte at a place, if it lies there through one of its pages. -/
def Grid.constAt (g : Grid) (pages : List (Nat × Loc)) (l : Loc) : Option Nat :=
  let start := g.image + g.hdr.consto
  (pages.find? (fun p => p.2.space == l.space && p.2.addr ≤ l.addr && l.addr < p.2.addr + 65536 &&
    start ≤ p.1 + (l.addr - p.2.addr) && p.1 + (l.addr - p.2.addr) < start + g.hdr.constb)).map
    (fun p => p.1 + (l.addr - p.2.addr) - start)

/-- While a grid with a const section runs, the bytes of the section that a write replaces may still be what a later SLDC of
the grid reads (R20). Each byte is given by its place, the place where it is held, and its new value. -/
def Mach.keepOld (dev : Device) (m : Mach) (xs : List (Loc × Loc × Byte)) : Mach :=
  let kept (g : Grid) : List (Nat × Byte) :=
    let pages := constPages dev m g
    if pages.isEmpty then []
    else (xs.filter (fun p => m.mem.get p.2.1 != p.2.2)).filterMap (fun p =>
      (g.constAt pages p.1).map (fun k => (k, m.mem.get p.2.1)))
  if m.ctx.grids.all (fun g => g.hdr.constb == 0) then m
  else { m with ctx := { m.ctx with grids := m.ctx.grids.map (fun g => { g with old := kept g ++ g.old }) } }

/-- One 64-byte line's share of a write: a poisoned line takes only a write of the whole line, which clears
the poison; any other is discarded, and an HBM home logs it (R281, R372). -/
def Mach.writeLine (m : Mach) (ln : Line) (xs : List (Loc × Byte)) : Mach :=
  let at0 : Loc := { space := ln.space, addr := ln.index * 64 }
  let put (m : Mach) : Mach :=
    let m := { m with mem := xs.foldl (fun mem p => mem.set p.1 p.2) m.mem }
    -- a write ends the tier-backed mark of its frame (R280)
    match ln.space with
    | .hbm => { m with backed := m.backed.filter (fun b => b.1 != ln.index / 1024) }
    | _ => m
  if m.mem.poisoned at0 then
    if (List.range 64).all (fun k => xs.any (fun p => p.1.addr == at0.addr + k)) then
      put { m with mem := m.mem.setPoison at0 false }
    else match ln.space with
      | .hbm => m.log 5 at0.addr
      | _ => m
  else put m

/-- Write bytes at their places, line by line. -/
def Mach.writeBytes (m : Mach) (xs : List (Loc × Byte)) : Mach :=
  (dedupLines (xs.map (fun p => lineOf p.1))).foldl
    (fun m ln => m.writeLine ln (xs.filter (fun p => lineOf p.1 == ln))) m

/-- The bytes of a value from a location on. -/
def bytesAt (l : Loc) (bs : List Byte) : List (Loc × Byte) := bs.zipIdx.map (fun p => (l.add p.2, p.1))

/-- Write the `n` low bytes of a number at its home. -/
def Mach.writeWord (m : Mach) (l : Loc) (n x : Nat) : Mach := m.writeBytes (bytesAt l (natLe n x))

/-! ## Atomics (R346) -/

/-- The new value of an atomic operation on an old value; code 16 is compare and swap. -/
def atomNew (op width v b c : Nat) : Nat :=
  let bits := 8 * width
  let i (x : Nat) : Int := readTy (.int bits) x
  match op with
  | 0 => (v + b) % pow2 bits
  | 1 => if i b < i v then b else v
  | 2 => if i v < i b then b else v
  | 3 => min v b
  | 4 => max v b
  | 5 => v &&& b
  | 6 => v ||| b
  | 7 => v ^^^ b
  | 8 => b
  | 9 => fmtF32.round 0 false (Num.add false (fmtF32.decode v) (fmtF32.decode b))
  | 10 =>
    let h (k : Nat) : Nat :=
      fmtF16.round 0 false (Num.add false (fmtF16.decode (v / k % 65536)) (fmtF16.decode (b / k % 65536)))
    h 1 + 65536 * h 65536
  | _ => if v = b then c else v

/-- One indivisible atomic at its home: the old value, and whether the line was poisoned, in which case a
returning atomic is not performed and another one is discarded and logged (R281). -/
def Mach.atomicAt (m : Mach) (l : Loc) (op width : Nat) (b c : Nat) (returns : Bool) : Mach × Nat × Bool :=
  let v := m.mem.readNat l width
  if m.mem.poisoned l then
    ((match l.space with
      | .hbm => if returns then m else m.log 5 l.addr
      | _ => m), v, true)
  else
    let x := atomNew op width v (b % pow2 (8 * width)) (c % pow2 (8 * width))
    (m.writeBytes (bytesAt l (natLe width x)), v, false)

/-! ## Writes and atomics at a home -/

/-- A write of (offset, byte) pairs that its home serves now; `none` while nobody answers or the channel serves nobody
(R283). A write whose mask does not cover whole lines reads what it keeps, which ECC may correct (R279). -/
def Mach.serveWrite (dev : Device) (m : Mach) (l : Loc) (bs : List (Nat × Byte)) : Option Mach :=
  match served dev m l with
  | .silent => none
  | .absent => some m
  | .peer d => some (m.peerAnswer dev d 0).1
  | .at x =>
    let whole := x.addr % 64 == 0 && bs.length % 64 == 0 && bs.zipIdx.all (fun b => b.1.1 == b.2)
    let n := bs.foldl (fun n b => max n (b.1 + 1)) 0
    if !m.cellarOpen x then none
    else
      let m := m.keepOld dev (bs.map (fun b => (l.add b.1, x.add b.1, b.2)))
      some (((m.touchCellar dev x n (!whole)).touchFrame l true).writeBytes (bs.map (fun b => (x.add b.1, b.2))))

/-- A write at its home by an agent that sends no packet: it waits for its turn in its bank (R274). -/
def Mach.homeWrite (dev : Device) (m : Mach) (l : Loc) (bs : List (Nat × Byte)) : Option Mach :=
  if m.homeBusy dev l (bs.foldl (fun n b => max n (b.1 + 1)) 0) then none else m.serveWrite dev l bs

/-- An atomic that its home serves now: the old value, and whether the line was poisoned. -/
def Mach.serveAtomic (dev : Device) (m : Mach) (l : Loc) (op width b c : Nat) (returns : Bool) :
    Option (Mach × Nat × Bool) :=
  match served dev m l with
  | .silent => none
  | .absent => some (m, pow2 (8 * width) - 1, false)
  | .peer d =>
    let (m, bs) := m.peerAnswer dev d width
    some (m, leNat bs, false)
  | .at x =>
    if !m.cellarOpen x then none
    else
      let new := natLe width (atomNew op width (m.mem.readNat x width) (b % pow2 (8 * width)) (c % pow2 (8 * width)))
      let m := m.keepOld dev (new.zipIdx.map (fun b => (l.add b.2, x.add b.2, b.1)))
      some (((m.touchCellar dev x width true).touchFrame l true).atomicAt x op width b c returns)

/-- An atomic at its home by an agent that sends no packet: it waits for its turn in its bank (R274). -/
def Mach.homeAtomic (dev : Device) (m : Mach) (l : Loc) (op width b c : Nat) (returns : Bool) :
    Option (Mach × Nat × Bool) :=
  if m.homeBusy dev l width then none else m.serveAtomic dev l op width b c returns

/-- One packet is performed at its home. -/
def Mach.performOne (dev : Device) (m : Mach) (p : Pkt) : Mach :=
  match p.kind with
  | .read =>
    match m.serveRead dev p.loc p.len with
    | none => m
    | some (m, d, bad) => m.modPkt p.id (fun q => { q with performed := true, poison := bad, data := d })
  | .write data =>
    match m.serveWrite dev p.loc data with
    | none => m
    | some m => m.modPkt p.id (fun q => { q with performed := true })
  | .atomic op width b c =>
    match m.serveAtomic dev p.loc op width b.toNat c.toNat p.returns with
    | none => m
    | some (m, v, bad) => m.modPkt p.id (fun q => { q with
        performed := true, poison := if bad && p.returns then [p.loc.addr / 64] else [], data := natLe width v })

/-- The packets of a word's non-returning atomic that name the same bytes as one of them: no observer sees the writes of
its lower lanes (R208), so all are performed in one step, in the order of the lanes (R347). -/
def Mach.sameWord (m : Mach) (p : Pkt) : List Pkt :=
  match p.kind, p.returns with
  | .atomic _ _ _ _, false => m.net.filter (fun q => q.op == p.op && q.loc == p.loc && q.len == p.len && !q.performed &&
      !q.returns)
  | _, _ => [p]

/-- A packet is performed at its home, as one step (R272); it stays while an expander does not answer. -/
def Mach.perform (dev : Device) (m : Mach) (p : Pkt) : Mach := (m.sameWord p).foldl (fun m q => m.performOne dev q) m

end Sys2Proof.Machine
end

