-- ==== Sys2Proof/Machine/Access.lean ====
section
/-!
DEFINITION. What memory words share: waiting for acquires and recalls, requests to homes (R216, R340 to
R345), the results of an operation as they arrive, and an operation's completion (R111).
-/
namespace Sys2Proof.Machine

/-! ## Orders and scopes (R339 to R341) -/

/-- The order and scope of an instruction that may carry them: ORD and SCP (R66). -/
def orderOf : Instr → Nat × Nat
  | .ld w => (mOrd w.mod, mScp w.mod)
  | .st w => (mOrd w.mod, mScp w.mod)
  | .ldt w => (mOrd w.mod, mScp w.mod)
  | .stt w => (mOrd w.mod, mScp w.mod)
  | .atom w => (mOrd w.mod, mScp w.mod)
  | .red w => (mOrd w.mod, mScp w.mod)
  | .cas w => (mOrd w.mod, mScp w.mod)
  | _ => (0, 0)

/-- Does an order acquire? -/
def acquires (ord : Nat) : Bool := ord % 2 == 1
/-- Does an order release? -/
def releases (ord : Nat) : Bool := 2 ≤ ord

/-- A packet's group. -/
def Mach.pktGroup (m : Mach) (p : Pkt) : Option Nat := (m.op? p.op).map (·.gid)

/-- Is a packet an access with acquire of a group, not yet performed, or has such a scatter lanes to send (R340)? -/
def Mach.acquiring (m : Mach) (gid : Nat) : Bool :=
  m.net.any (fun p => !p.performed && (match m.op? p.op with
    | some o => o.gid == gid && acquires (orderOf o.instr).1
    | none => false)) ||
  m.ctx.ops.any (fun o => o.gid == gid && acquires (orderOf o.instr).1 && !o.unsent.isEmpty)

/-- Accesses that follow an acquire in program order wait until it has been performed (R340); a word without a lane
makes none. -/
def acquireWait (c : Iss) : M Unit := do
  if c.lanes != 0 && (← get).acquiring c.gid then stall

/-- Packets of the group, and writes of its core, that have not been performed: what a release at .clus or
wider orders before itself, its lanes' accesses and the writes they have observed (R340). -/
def Mach.before (m : Mach) (gid core : Nat) : List Pkt :=
  m.net.filter (fun p => !p.performed && p.core == core && (p.isWrite || m.pktGroup p == some gid))

/-- A release waits for the lanes that an earlier scatter of the group has still to send (R340, R348). -/
def unsentWait (c : Iss) (ord : Nat) : M Unit := do
  if releases ord && (← get).scattering c.gid then stall

/-- A release to .core or .clus at .clus scope or wider waits for what it orders (R340). -/
def releaseWait (c : Iss) (ord scp : Nat) : M Unit := do
  unsentWait c ord
  if releases ord && 2 ≤ scp && !((← get).before c.gid c.g.core).isEmpty then stall

/-- An access of a lane comes after the lanes that an earlier scatter of the group has still to send to the same bytes
(R335). -/
def sameByteWait (c : Iss) (xs : List Loc) (n : Nat) : M Unit := do
  let m ← get
  let before := m.unsentBytes c.dev c.gid c.seq
  if xs.any (fun l => before.any (fun x => x.1.space == l.space && x.1.addr < l.addr + n && l.addr < x.1.addr + x.2)) then
    stall

/-- Does a fence of an order and scope wait: for the lanes that a scatter has still to send; at .clus scope or wider an
acquire for the group's accesses, a release for all that it orders, and at .dev or .sys for the answers to the group's
writes (R341, R345)? -/
def Mach.orderWaits (m : Mach) (gid core ord scp : Nat) : Bool :=
  (ord != 0 && m.scattering gid) ||
  (3 ≤ scp && releases ord && m.net.any (fun p => p.isWrite && m.pktGroup p == some gid)) ||
  (2 ≤ scp &&
    ((releases ord && !(m.before gid core).isEmpty) ||
     (acquires ord && (m.before gid core).any (fun p => m.pktGroup p == some gid))))

/-- Does a FENCE wait: as its order and scope say, and with .eng for the group's earlier operations (R349)? -/
def Mach.fenceWaits (m : Mach) (gid core : Nat) (w : WordG) : Bool :=
  m.orderWaits gid core (mOrd w.mod) (mScp w.mod) || (mBit w.mod 0 && m.ctx.ops.any (fun o => o.gid == gid))

/-! ## Requests (R216) -/

/-- The requests of one word's .glob accesses, 16 bytes or fewer at each location. -/
def requests (xs : List Loc) : List (Loc × Nat) :=
  let blocks := dedupLines (xs.map (fun l => { space := l.space, index := l.addr / 128 }))
  blocks.flatMap (fun b =>
    let has (k : Nat) : Bool := xs.any (fun l => l.space == b.space && l.addr / 32 == b.index * 4 + k)
    let at' (k len : Nat) : Loc × Nat := ({ space := b.space, addr := b.index * 128 + 32 * k }, len)
    let half (k : Nat) : List (Loc × Nat) :=
      if has k && has (k + 1) then [at' k 64]
      else (if has k then [at' k 32] else []) ++ (if has (k + 1) then [at' (k + 1) 32] else [])
    if has 0 && has 1 && has 2 && has 3 then [at' 0 128] else half 0 ++ half 2)

/-- Requests that a core has outstanding. -/
def Mach.outstanding (m : Mach) (core : Nat) : Nat := (m.net.filter (fun p => p.core == core)).length

/-- A word whose requests do not fit beside those outstanding stalls (R216). -/
def roomFor (c : Iss) (n : Nat) : M Unit := do
  if 16384 < (← get).outstanding c.g.core + n then stall

/-- Paths from a core to a home (R345; DESIGN CHOICE, log 8): one to the homes beside its own die, two to the others. -/
def pathsTo (core : Nat) (l : Loc) : Nat :=
  match homeOf l with
  | .dieStore d _ => if d = core / 16 then 1 else 2
  | .cellar s => if s / 2 = core / 16 then 1 else 2
  | _ => 2

/-- A request as it leaves its core. -/
def newPkt (id op core lane : Nat) (kind : PktKind) (l : Loc) (len va : Nat) (returns : Bool) : Pkt :=
  { id := id, op := op, core := core, lane := lane, kind := kind, loc := l, len := len,
    va := BitVec.ofNat 64 va, returns := returns, after := [], release := false, homes := [], paths := 0,
    atHome := true, performed := false, sent := 0, arrive := 0, tag := 0, cwd := false, poison := [], data := [], port := none }

/-- Send a request. A release at .clus or wider is ordered after what it covers; at .dev and .sys it
travels as a release marker with the homes that must report, and with a flush marker down every path when
there is more than one (R340, R344, R345). One to a peer leaves over a port that is UP now (R392). -/
def Mach.send (dev : Device) (m : Mach) (gid : Nat) (p : Pkt) (ord scp : Nat) : Mach :=
  let p : Pkt :=
    if releases ord && 2 ≤ scp then
      let before := m.before gid p.core
      let p := { p with after := before.map (·.id) }
      if 3 ≤ scp then
        let paths := pathsTo p.core p.loc
        { p with
          release := true,
          homes := ((before.filter Pkt.isWrite).map (fun q => homeOf q.loc)).foldl
            (fun a h => if a.contains h then a else a ++ [h]) [],
          paths := if 1 < paths then paths else 0,
          atHome := false }
      else p
    else p
  { m with net := m.net ++ [{ p with
      sent := m.cyc.toNat, arrive := m.cyc.toNat + Config.transit p.id, tag := (m.freeTags p.core 1).headD 0,
      port := match p.loc.space with
        | .peer d => sprayTo dev d p.id
        | _ => none }] }

/-! ## Results (R124, R225, R346) -/

/-- Bytes of an access by SZ (R223): 0 .n8, 1 .n16, 2 .b32, 3 .b64, 4 .b128, 5 .i8, 6 .i16. -/
def szBytes (sz : Nat) : Nat :=
  match sz with
  | 0 => 1
  | 1 => 2
  | 2 => 4
  | 3 => 8
  | 4 => 16
  | 5 => 1
  | _ => 2

/-- The type that extends a loaded value to 64 bits. -/
def szTy (sz : Nat) : Ty :=
  match sz with
  | 0 => .nat 8
  | 1 => .nat 16
  | 2 => .nat 32
  | 5 => .int 8
  | 6 => .int 16
  | _ => .nat 64

/-- The slices of the registers that one lane's loaded value fills (R225). -/
def szSlices (sz x : Nat) : List Nat :=
  match sz with
  | 3 => [x % 4294967296, x / 4294967296 % 4294967296]
  | 4 => (List.range 4).map (fun k => x / pow2 (32 * k) % 4294967296)
  | _ => [extendTy (szTy sz) 32 x]

/-- Where an operation's returned values go: its D field and the SZ of the value. -/
def Op.dest (o : Op) : BitVec 8 × Nat :=
  match o.instr with
  | .ld w => (w.d, bitsAt w.mod 0 3)
  | .ldt w => (w.d, o.aux)
  | .atom w => (w.d, if mBit w.mod 2 then 3 else 2)
  | .cas w => (w.d, if mBit w.mod 2 then 3 else 2)
  | _ => (0, 2)

/-- Is the destination an S register? -/
def Op.uniform (o : Op) : Bool := 192 ≤ o.dest.1.toNat

/-- The register writes of returned values (lane, value). -/
def Op.results (o : Op) (xs : List (Nat × Nat)) : List RegWrite :=
  let (d, sz) := o.dest
  if o.uniform then
    xs.map (fun x => { reg := .s (d.toNat - 192), mask := 0, vals := laneFn (fun _ => 0),
                       word := BitVec.ofNat 64 (extendTy (szTy sz) 64 x.2) })
  else
    let val (l : Nat) : Nat := ((xs.find? (fun x => x.1 == l)).map (·.2)).getD 0
    let mask := Mask.ofFn (fun l => xs.any (fun x => x.1 == l))
    (List.range (szSlices sz 0).length).map (fun k =>
      { reg := .v (o.base + d.toNat + k), mask := mask,
        vals := laneFn (fun l => (szSlices sz (val l)).getD k 0), word := 0 })

/-- Add returned values to what an operation will write. -/
def Mach.addResults (m : Mach) (id : Nat) (xs : List (Nat × Nat)) : Mach :=
  m.modOp id (fun o => { o with writes := o.writes ++ o.results xs })

/-- An operation owes an S register a value. -/
def Mach.oweS (m : Mach) (id n : Nat) (x : Nat) : Mach :=
  m.modOp id (fun o => { o with writes := o.writes ++
    [{ reg := .s n, mask := 0, vals := laneFn (fun _ => 0), word := BitVec.ofNat 64 x }] })

/-- An operation owes a V register, named by its place in the home, values in the lanes of a mask. -/
def Mach.oweV (m : Mach) (id home : Nat) (mask : Mask) (f : Nat → Nat) : Mach :=
  m.modOp id (fun o => { o with writes := o.writes ++ [{ reg := .v home, mask := mask, vals := laneFn f, word := 0 }] })

/-- The cause and TRINFO of a result lost at a location (R358, R372): DATA_POISON with the .glob address of
the line, or MACHINE_CHECK with the array and the line's offset. -/
def lostInfo (l : Loc) (va : Nat) : Nat × Nat :=
  match l.space with
  | .core _ => (causeMachineCheck, 3 + 256 * (l.addr / 64 * 64 % pow2 32))
  | .die => (causeMachineCheck, 4 + 256 * (l.addr / 64 * 64 % pow2 32))
  | _ => (causePoison, va / 64 * 64)

/-- A read at issue of `n` bytes in a store that finds poison: the trap of the line that the read meets
first (R308, R371, R372). -/
def lostRead {α : Type} (c : Iss) (l : Loc) (n va : Nat) : M α := do
  let mem := (← get).mem
  let at' := ((linesOf l n).map (fun k => max (k.index * 64) l.addr)).find? (fun a => mem.poisoned { l with addr := a })
  let a := at'.getD l.addr
  let (cause, info) := lostInfo { l with addr := a } (va + (a - l.addr))
  throw (.lost cause c.lanes (BitVec.ofNat 64 info))

/-- Words that an instruction reads at issue, as a plain load of the issuing group (R308). -/
def issueWords (c : Iss) (l : Loc) (va n : Nat) : M (List Word) := do
  recallLines c [l] (8 * n)
  sameByteWait c [l] (8 * n)
  let m ← get
  if m.net.any (fun p => p.core == c.g.core && !p.performed && p.isWrite && p.loc.space == l.space &&
      p.loc.addr < l.addr + 8 * n && l.addr < p.loc.addr + p.len) then stall
  match m.homeRead c.dev l (8 * n) with
  | none =>
    set (m.askTier c.dev l)
    stall
  | some (m, bs, bad) =>
    match bad.head? with
    | some k =>
      let a := max (k * 64) l.addr
      let (cause, info) := lostInfo { l with addr := a } (va + (a - l.addr))
      throw (.lost cause c.lanes (BitVec.ofNat 64 info))
    | none =>
      set m
      return (List.range n).map (fun k => BitVec.ofNat 64 (leNat ((bs.drop (8 * k)).take 8)))

/-! ## Completion (R109, R111, R371) -/

/-- One owed register write. -/
def Group.applyWrite (g : Group) (free : Nat) (w : RegWrite) : Group :=
  match w.reg with
  | .v h => g.writeHome free w.mask h w.vals
  | .s n => g.writeS n w.word
  | .p n => g.writeP w.mask n (Mask.ofFn (fun l => vget w.vals l 0 != 0))

/-- A flag falls; a promise sleep on it notes the cycle in which it reached zero (R109, R159). -/
def Group.flagFall (g : Group) (k cyc : Nat) : Group :=
  let g := { g with k := vmod g.k k (fun x => if x = 0 then 0 else x - 1) }
  match g.sleep with
  | some (.promise d f off mask reg seq z back) =>
    if f = k && g.flagCount k = 0 && z.isNone && g.clause.isNone then
      { g with sleep := some (.promise d f off mask reg seq (some (BitVec.ofNat 64 cyc)) back) }
    else g
  | _ => g

/-- Report an operation's lost results: one kind-G trap per cause, for the lanes still live (R371). -/
def Mach.reportLost (m : Mach) (o : Op) (cause : Nat) : Mach :=
  let xs := o.lost.filter (fun x => x.2.1 == cause)
  match xs.head?, m.group? o.gid with
  | some x, some g =>
    let lanes := if o.uniform then o.mask else Mask.ofFn (fun l => xs.any (fun x => x.1 == l))
    let mask := lanes &&& g.livem
    if mask = 0 then m
    else
      let low := (xs.find? (fun x => mask.has x.1)).getD x
      m.raise o.gid
        { cause := cause, kind := .g, mask := mask, off := o.off, info := BitVec.ofNat 64 low.2.2,
          regcnt := o.regcnt, op := none, seq := o.seq, byHandler := o.byHandler }
  | _, _ => m

/-- Has the frame of a destination register been released (R156)? -/
def Op.lostReg (o : Op) : Reg → Bool
  | .v h => o.gone.contains h
  | _ => false

/-- AN OPERATION COMPLETES (R111): its results are written, its pending marks clear, its lines are
released, its flag falls; then results lost to poison are reported. A write to a register of a released frame is
discarded (R156). -/
def Mach.completeOp (m : Mach) (o : Op) : Mach :=
  let m := m.modGroup o.gid (fun g =>
    let g := (o.writes.filter (fun w => !o.lostReg w.reg)).foldl (fun g w => g.applyWrite m.freeCtr w) g
    let g := { g with marks := g.marks.filter (fun p => p.1 != o.id) }
    match o.flag with
    | some k => g.flagFall k m.cyc.toNat
    | none => g)
  let m := { (m.dropOwn o.id) with
    freeCtr := m.freeCtr + 65536,
    ctx := { m.ctx with ops := m.ctx.ops.filter (fun p => p.id != o.id) } }
  (m.reportLost o causePoison).reportLost o causeMachineCheck

/-- Does an operation still wait for packets? -/
def Mach.opPending (m : Mach) (id : Nat) : Bool := m.net.any (fun p => p.op == id)

/-- What a reply brings its operation (R271, R371): values for the lanes whose access it served, or the loss
of those that read poison. -/
def Mach.takeReply (m : Mach) (o : Op) (p : Pkt) : Mach :=
  if !p.returns then m
  else
    let n := szBytes o.dest.2
    let mine := o.addrs.filter (fun x => match p.kind with
      | .read => x.2.space == p.loc.space && p.loc.addr ≤ x.2.addr && x.2.addr < p.loc.addr + p.len
      | _ => x.1 == p.lane)
    let bad := mine.filter (fun x => p.poison.contains (x.2.addr / 64))
    let good := mine.filter (fun x => !p.poison.contains (x.2.addr / 64))
    let val (x : Nat × Loc) : Nat := leNat ((p.data.drop (x.2.addr - p.loc.addr)).take n)
    let m := if good.isEmpty then m else m.addResults o.id (good.map (fun x => (x.1, val x)))
    m.modOp o.id (fun o => { o with lost := o.lost ++ bad.map (fun x =>
      (x.1, lostInfo x.2 (p.va.toNat + (x.2.addr - p.loc.addr)))) })

/-! ## Words of classes 101, 110 and 111 -/

/-- A word of these classes that is no transactional access: it waits for acquires, and its lanes' open
transactions are doomed with INSTR (R355). -/
def memWord (i : Instr) (body : Iss → M Flow) (s : State) : Host.Outcome State Fault Refusal :=
  runWord i (fun c => do
    acquireWait c
    let f ← body c
    modCur c (fun g => g.doom c.lanes 6)
    return f) s

end Sys2Proof.Machine
end

