-- ==== Sys2Proof/Machine/MemLane.lean ====
section
/-!
DEFINITION. LD, ST, LDT, STT (R223 to R229), and what they do in a transaction (R354, R355).
-/
namespace Sys2Proof.Machine

/-! ## Addresses (R206, R224) -/

/-- The IMM8 of a C field. -/
def imm8 (c : BitVec 8) : Int := c.toInt

/-- The address that a lane of LD or ST forms (R224). -/
def laneAddr (c : Iss) (w : WordG) (n l : Nat) : Nat :=
  let glob := mSpc w.mod = 2
  let base := if glob then src64 c c.g w.a l else src32 c c.g w.a l
  let idx : Int := if mBit w.mod 4 then readTy (.int 32) (src32 c c.g w.b l) else 0
  let idx := if mBit w.mod 3 then idx * n else idx
  wrapNat (if glob then 64 else 32) (base + idx + imm8 w.c * n)

/-! ## Transactional accesses (R354, R355) -/

/-- Doom an open transaction with a cause, unless it is already doomed. -/
def LaneTx.doomBy (t : LaneTx) (cause : TxCause) : LaneTx := if t.doom then t else { t with doom := true, cause := cause }

/-- The first checks of a transactional access at a location whose granule starts at `blk`: SPACE and
FOOTPRINT by granule. -/
def LaneTx.enter (t : LaneTx) (l : Loc) (blk : Nat) : LaneTx :=
  let far := match l.space with
    | .die => false
    | .core _ => false
    | _ => true
  if t.doom then t
  else if far then t.doomBy 4
  else match t.granule with
    | none => { t with granule := some (l.space, blk) }
    | some g => if g = (l.space, blk) then t else t.doomBy 3

/-- A transactional read: the recorded bytes of the line under the lane's own written bytes; none where the line's first
read meets poison (R371, R372). -/
def LaneTx.read (t : LaneTx) (mem : Memory) (l : Loc) (n blk : Nat) : LaneTx × Option Nat :=
  let t := t.enter l blk
  if t.doom then (t, some 0)
  else
    let ln := lineOf l
    let start : Loc := { l with addr := ln.index * 64 }
    let known := t.reads.find? (fun r => r.line == ln)
    if known.isNone && 4 ≤ t.reads.length then (t.doomBy 3, some 0)
    else if known.isNone && mem.poisoned l then (t, none)
    else
      let rec' : TxRead := known.getD { line := ln, bytes := mem.read start 64 }
      let t := if known.isNone then { t with reads := t.reads ++ [rec'] } else t
      let byte (k : Nat) : Byte :=
        match t.writes.find? (fun p => p.1 == l.add k) with
        | some p => p.2
        | none => rec'.bytes.getD (l.addr + k - start.addr) 0
      (t, some (leNat ((List.range n).map byte)))

/-- A transactional write: its bytes enter the write set. -/
def LaneTx.write (t : LaneTx) (l : Loc) (bs : List Byte) (blk : Nat) : LaneTx :=
  let t := t.enter l blk
  if t.doom then t
  else
    let lines := dedupLines (t.writes.map (fun p => lineOf p.1))
    if !lines.contains (lineOf l) && 2 ≤ lines.length then t.doomBy 3
    else
      let new := bytesAt l bs
      { t with writes := t.writes.filter (fun p => !new.any (fun q => q.1 == p.1)) ++ new }

/-- The transaction of lane `l`. -/
def Group.txOf (g : Group) (l : Nat) : LaneTx :=
  vget g.tx l { act := false, doom := false, cause := 0, code := 0, granule := none, reads := [], writes := [] }

/-- Is lane `l` in a transaction? -/
def Group.inTx (g : Group) (l : Nat) : Bool := (g.txOf l).act

/-- The line that a location lies in, as the access of a transaction. -/
def lineStart (l : Loc) : Loc := { l with addr := l.addr / 64 * 64 }

/-- What transactions' accesses to whole lines do to their cellars (R276, R278, R279). -/
def Mach.touchLines (dev : Device) (m : Mach) (xs : List Loc) : Mach :=
  xs.foldl (fun m l => m.touchCellar dev (lineStart l) 64 true) m

/-- Waits of transactional accesses: lines that are owned, requests of the core on them that have not
been performed, and their turn in cellars that serve (R274, R283). -/
def txWait (c : Iss) (xs : List Loc) (n : Nat) : M Unit := do
  recallLines c xs n
  let m ← get
  if xs.any (fun l => m.net.any (fun p => p.core == c.g.core && !p.performed && p.loc.space == l.space &&
      p.loc.addr / 64 ≤ l.addr / 64 && l.addr / 64 ≤ (p.loc.addr + p.len - 1) / 64)) then stall
  if xs.any (fun l => m.placeHeld c.dev (lineStart l) 64) then stall

/-! ## Loads and stores of lanes -/

/-- One lane's access: the lane, the address it formed, its location. -/
abbrev LaneRef := Nat × Nat × Loc

/-- Join addresses and locations. -/
def laneRefs (xs : List (Nat × Nat)) (ls : List (Nat × Loc)) : List LaneRef :=
  ls.filterMap (fun l => (xs.find? (fun x => x.1 == l.1)).map (fun x => (l.1, x.2, l.2)))

/-- Is a location in a core store? -/
def isNear (l : Loc) : Bool :=
  match l.space with
  | .core _ => true
  | _ => false

/-- The lanes of an access whose transactions take it, and the others. -/
def splitTx (g : Group) (tx : Bool) (rs : List LaneRef) : List LaneRef × List LaneRef :=
  rs.partition (fun r => tx && g.inTx r.1)

/-- The start of a granule of 4 KiB that holds an access. -/
def granuleStart (r : LaneRef) : Nat := r.2.2.addr - r.2.1 % 4096

/-- The virtual address of the first byte of a request. -/
def requestVa (rs : List LaneRef) (q : Loc × Nat) : Nat :=
  match rs.find? (fun r => r.2.2.space == q.1.space && q.1.addr ≤ r.2.2.addr && r.2.2.addr < q.1.addr + q.2) with
  | some r => r.2.1 - (r.2.2.addr - q.1.addr)
  | none => 0

/-- Send a read request for each place (R216). -/
def Mach.sendReads (m : Mach) (c : Iss) (id ord scp : Nat) (far : List LaneRef) (qs : List (Loc × Nat)) : Mach :=
  qs.foldl (fun m q =>
    let (p, m) := m.fresh
    m.send c.dev c.gid (newPkt p id c.g.core 0 .read q.1 q.2 (requestVa far q) true) ord scp) m

/-- A transactional load of a lane: its transaction with the read set grown, and its value (R355). -/
def txLoad (g : Group) (mem : Memory) (n : Nat) (r : LaneRef) : LaneTx × Option Nat :=
  (g.txOf r.1).read mem r.2.2 n (granuleStart r)

/-- The transactions of lanes after their loads. -/
def Group.txLoads (g : Group) (mem : Memory) (n : Nat) (rs : List LaneRef) : Group :=
  rs.foldl (fun g r => { g with tx := vset g.tx r.1 (txLoad g mem n r).1 }) g

/-- The latest request of a core's write queue on any of `n` bytes. -/
def Mach.queued (m : Mach) (core : Nat) (l : Loc) (n : Nat) : Option Pkt :=
  (m.net.filter (fun p => p.core == core && !p.performed && p.isWrite && p.loc.space == l.space &&
    p.loc.addr < l.addr + n && l.addr < p.loc.addr + p.len)).getLast?

/-- The value that a request holds of `n` bytes, when it is a store that writes them all. -/
def Pkt.valueAt (p : Pkt) (l : Loc) (n : Nat) : Option Nat :=
  match p.kind with
  | .write data =>
    ((List.range n).mapM (fun k => (data.find? (fun b => p.loc.addr + b.1 == l.addr + k)).map (·.2))).map leNat
  | _ => none

/-- Has a load by some lane of `who`, of any of `n` bytes, still to be performed behind request `id` of its core? A later
load reads nothing older than it will (R335). -/
def Mach.loadBehind (m : Mach) (gid : Nat) (who : Mask) (id : Nat) (l : Loc) (n : Nat) : Bool :=
  m.net.any (fun q => id < q.id && !q.performed && !q.isWrite && q.loc.space == l.space && (match m.op? q.op with
    | none => false
    | some o => o.gid == gid && o.addrs.any (fun x => q.loc.addr ≤ x.2.addr && x.2.addr < q.loc.addr + q.len &&
        x.2.addr < l.addr + n && l.addr < x.2.addr + szBytes o.dest.2 &&
        (if o.uniform then o.mask &&& who != 0 else who.has x.1))))

/-- The value that a load by the lanes of `who` may take of `n` bytes from its core's write queue (R335, R337). -/
def Mach.queueValue (m : Mach) (gid core : Nat) (who : Mask) (l : Loc) (n : Nat) : Option Nat :=
  match m.queued core l n with
  | none => none
  | some p => if m.loadBehind gid who p.id l n then none else p.valueAt l n

/-- May a load by the lanes of `who` take its value from its core's write queue: a plain load, or one with acquire at .grp
or .team, of lanes that no wide FENCE has bound to performed writes (R337, R341)? -/
def mayQueue (g : Group) (ord scp : Nat) (who : Mask) : Bool := (ord == 0 || (ord == 1 && scp ≤ 1)) && g.fenced &&& who == 0

/-- The lanes that make the access of `l`: Lanes(run) for a uniform load, which makes one, and else the lane. -/
def accessLanes (c : Iss) (uniform : Bool) (l : Nat) : Mask := if uniform then c.lanes else Mask.one l

/-- The lanes whose load takes a value from the core's write queue, with it. -/
def fromQueue (c : Iss) (m : Mach) (g : Group) (uniform : Bool) (ord scp n : Nat) (far : List LaneRef) :
    List (Nat × Nat) :=
  far.filterMap (fun r =>
    let who := accessLanes c uniform r.1
    if mayQueue g ord scp who && Config.queueRead (c.free + r.1) then
      (m.queueValue c.gid c.g.core who r.2.2 n).map (fun v => (r.1, v))
    else none)

/-- A load of lanes of size SZ (R225): waits, then the operation with its requests. Values of core stores, of the
core's write queue and of transactions are read at once; `extra` holds values that need no access. With `tx` the lanes
in a transaction make transactional accesses (R354). -/
def loadLanes (c : Iss) (i : Instr) (sz : Nat) (uniform tx : Bool) (ord scp : Nat) (rs : List LaneRef)
    (marks : List Reg) (extra : List (Nat × Nat)) (aux : Nat) : M Unit := do
  let n := szBytes sz
  let g ← curGroup c
  let (inTx, plain) := splitTx g tx rs
  let near := plain.filter (fun r => isNear r.2.2)
  let away := plain.filter (fun r => !isNear r.2.2)
  recallLines c (plain.map (·.2.2)) n
  sameByteWait c (rs.map (·.2.2)) n
  let quick := fromQueue c (← get) g uniform ord scp n away
  let far := away.filter (fun r => quick.all (fun q => q.1 != r.1))
  txWait c ((inTx.filter (fun r => !(g.txOf r.1).doom)).map (·.2.2)) n
  let qs := requests (far.map (·.2.2))
  roomFor c qs.length
  let mem := (← get).mem
  let bad := near.filter (fun r => mem.poisoned r.2.2)
  let good := near.filter (fun r => !mem.poisoned r.2.2)
  let vals := good.map (fun (r : LaneRef) => (r.1, mem.readNat r.2.2 n)) ++ quick ++ extra ++
    inTx.filterMap (fun (r : LaneRef) => (txLoad g mem n r).2.map (fun v => (r.1, v)))
  let bad := bad ++ inTx.filter (fun (r : LaneRef) => (txLoad g mem n r).2.isNone)
  let id ← issueOp c i Captured.none marks (fun o =>
    let o := { o with addrs := far.map (fun (r : LaneRef) => (r.1, r.2.2)), aux := aux }
    { o with writes := o.results vals, lost := bad.map (fun (r : LaneRef) => (r.1, lostInfo r.2.2 r.2.1)) })
  modify (fun m => m.sendReads c id ord scp far qs)
  modCur c (fun g => g.txLoads mem n inTx)
  modify (fun m => m.touchLines c.dev ((inTx.filter (fun r => !((g.txOf r.1).reads.any (fun x => x.line == lineOf r.2.2)))).map
    (·.2.2)))
  if !tx then modCur c (fun g => g.doom c.lanes 6)

/-- The byte of a request that its lanes write: the highest lane's (R208). -/
def lastByte (vs : List (LaneRef × List Byte)) (l : Loc) : Option Byte :=
  vs.foldl (fun a v =>
    let x := v.1.2.2
    if x.space == l.space && x.addr ≤ l.addr && l.addr < x.addr + v.2.length then
      some (v.2.getD (l.addr - x.addr) 0) else a) none

/-- The data and mask of a write request. -/
def requestData (vs : List (LaneRef × List Byte)) (q : Loc × Nat) : List (Nat × Byte) :=
  (List.range q.2).filterMap (fun k => (lastByte vs (q.1.add k)).map (fun b => (k, b)))

/-- Send a write request for each place (R216). -/
def Mach.sendWrites (m : Mach) (c : Iss) (id ord scp : Nat) (far : List (LaneRef × List Byte))
    (qs : List (Loc × Nat)) : Mach :=
  qs.foldl (fun m q =>
    let (p, m) := m.fresh
    m.send c.dev c.gid (newPkt p id c.g.core 0 (.write (requestData far q)) q.1 q.2 (requestVa (far.map (·.1)) q) false)
      ord scp) m

/-- Transactional stores: each lane's write set grows (R355). -/
def Group.txStores (g : Group) (vs : List (LaneRef × List Byte)) : Group :=
  vs.foldl (fun g v => { g with tx := vset g.tx v.1.1 ((g.txOf v.1.1).write v.1.2.2 v.2 (granuleStart v.1)) }) g

/-- A store of lanes (R226): waits, then the operation with its requests; core stores are written at once. -/
def storeLanes (c : Iss) (i : Instr) (n : Nat) (tx : Bool) (ord scp : Nat) (vs : List (LaneRef × List Byte)) : M Unit := do
  let g ← curGroup c
  let (inTx, plain) := vs.partition (fun v => tx && g.inTx v.1.1)
  let near := plain.filter (fun v => isNear v.1.2.2)
  let far := plain.filter (fun v => !isNear v.1.2.2)
  recallLines c (plain.map (·.1.2.2)) n
  sameByteWait c (plain.map (·.1.2.2)) n
  unsentWait c ord
  if !near.isEmpty then releaseWait c ord scp
  let qs := requests (far.map (·.1.2.2))
  roomFor c qs.length
  let id ← issueOp c i Captured.none [] (fun o => o)
  modify (fun m => m.sendWrites c id ord scp far qs)
  modify (fun m => m.writeBytes (near.flatMap (fun v => bytesAt v.1.2.2 v.2)))
  modCur c (fun g => g.txStores inTx)
  if !tx then modCur c (fun g => g.doom c.lanes 6)

/-! ## LD and ST -/

/-- LD (R225). With an S destination it is a uniform load: one access, with Lanes(run) as its trap mask. -/
def execLd (w : WordG) (s : State) : Host.Outcome State Fault Refusal :=
  runWord (.ld w) (fun c => do
    acquireWait c
    let t ← teamOf c
    let sz := bitsAt w.mod 0 3
    let n := szBytes sz
    let uniform := 192 ≤ w.d.toNat
    let whole := if uniform then some c.lanes else none
    let xs := (if uniform then [0] else c.lanes.lanes).map (fun l => (l, laneAddr c w n l))
    let ls ← addrCheck c t (mSpc w.mod) .laneRead n whole xs
    let marks : List Reg :=
      if uniform then [.s (w.d.toNat - 192)] else markV c ((List.range (szSlices sz 0).length).map (w.d.toNat + ·))
    loadLanes c (.ld w) sz uniform (!uniform && mOrd w.mod == 0) (mOrd w.mod) (mScp w.mod) (laneRefs xs ls) marks [] 0
    return c.run) s

/-- The data that a lane stores from a D field of `k` registers (R226). -/
def storeData (c : Iss) (d : BitVec 8) (k l : Nat) : Nat :=
  if 192 ≤ d.toNat then (fieldS c.g d).toNat
  else (List.range k).foldl (fun a j => a + (vget (c.g.vReg c.free (d.toNat + j)) l 0).toNat * pow2 (32 * j)) 0

/-- ST (R226). -/
def execSt (w : WordG) (s : State) : Host.Outcome State Fault Refusal :=
  runWord (.st w) (fun c => do
    acquireWait c
    let t ← teamOf c
    let n := szBytes (bitsAt w.mod 0 3)
    let xs := c.lanes.lanes.map (fun l => (l, laneAddr c w n l))
    let ls ← addrCheck c t (mSpc w.mod) .laneWrite n none xs
    storeLanes c (.st w) n (mOrd w.mod == 0) (mOrd w.mod) (mScp w.mod)
      ((laneRefs xs ls).map (fun r => (r, natLe n (storeData c w.d ((n + 3) / 4) r.1))))
    return c.run) s

/-! ## Shape records (R227, R228) -/

/-- A shape record. -/
structure Shape where
  base : Nat
  fill : Nat
  tspc : Nat
  perm : Nat
  esz : Nat
  rank : Nat
  sizes : List Nat
  /-- Stride of each dimension, dimension 0 with 2^ESZ. -/
  strides : List Int
  deriving DecidableEq, Repr

/-- Bits of a number. -/
def nbits (x lo n : Nat) : Nat := x / pow2 lo % pow2 n

/-- `n` words of 8 bytes from a location on. -/
def Memory.words (m : Memory) (l : Loc) (n : Nat) : List Word :=
  (List.range n).map (fun k => BitVec.ofNat 64 (m.readNat (l.add (8 * k)) 8))

/-- The 4-byte value at an offset that is a multiple of 4 in a record of words. -/
def rec32 (ws : List Word) (o : Nat) : Nat := nbits (ws.getD (o / 8) 0).toNat (o % 8 * 8) 32

/-- A record's fields, and whether it is valid (R227). -/
def shapeOf (ws : List Word) : Shape × Bool :=
  let w64 (o : Nat) : Nat := (ws.getD (o / 8) 0).toNat
  let flags := w64 8
  let rank := nbits flags 0 3
  let esz := nbits flags 3 3
  let perm := nbits flags 8 2
  let tspc := nbits flags 16 2
  let base := w64 0
  let size (k : Nat) : Nat := rec32 ws (16 + 4 * k)
  let stride (k : Nat) : Nat := w64 (40 + 8 * k)
  let res := nbits flags 6 2 == 0 && nbits flags 10 6 == 0 && nbits flags 18 14 == 0 && rec32 ws 44 == 0 &&
    (List.range 4).all (fun k => w64 (96 + 8 * k) == 0)
  let above := (List.range 7).all (fun k => k < rank || (size k == 0 && (k == 0 || stride k == 0)))
  let strides : List Int := (List.range rank).map (fun k => if k = 0 then (pow2 esz : Nat) else readTy (.int 64) (stride k))
  let ok := res && above && rank != 0 && esz ≤ 4 && tspc != 3 && (tspc == 2 || base < pow2 32) &&
    (tspc != 2 || perm == 0) && base % pow2 esz == 0 &&
    (perm == 0 || (base % 128 == 0 && (strides.drop 1).all (fun s => s % 128 == 0)))
  ({ base := base, fill := nbits flags 32 32, tspc := tspc, perm := perm, esz := esz, rank := rank,
     sizes := (List.range rank).map size, strides := strides }, ok)

/-- The bank permutation (R228). -/
def permBank (p o : Nat) : Nat := o ^^^ ((o / 128 % pow2 p) * 16)

/-- Are coordinates inside a record's extents? -/
def Shape.inside (s : Shape) (cs : List Int) : Bool := (cs.zip s.sizes).all (fun p => 0 ≤ p.1 && p.1 < (p.2 : Int))

/-- The address of an element (R229). -/
def Shape.addr (s : Shape) (cs : List Int) : Nat :=
  let o : Int := (cs.zip s.strides).foldl (fun a p => a + p.1 * p.2) 0
  if s.tspc = 2 then wrapNat 64 (s.base + o) else (s.base + permBank s.perm (wrapNat 32 o)) % pow2 32

/-- FILL as the value of an element (R229): in each 32-bit register, its low bits for a small element. -/
def Shape.fillVal (s : Shape) : Nat :=
  match s.esz with
  | 0 => s.fill % 256
  | 1 => s.fill % 65536
  | 2 => s.fill
  | 3 => s.fill * (1 + pow2 32)
  | _ => s.fill * (1 + pow2 32 + pow2 64 + pow2 96)

/-- The first check on a record of 128 bytes at a .core offset (R229). -/
def recordCheck (c : Iss) (t : Team) (off : Nat) : M Loc := do
  if off % 128 != 0 then trapInfo causeMisaligned c.run off
  if t.csl * 64 < off + 128 then trapInfo causeAllocBound c.run off
  let l := coreLoc t off
  recallLines c [l] 128
  sameByteWait c [l] 128
  if (← get).mem.rangePoisoned l 128 then lostRead c l 128 off
  return l

/-- The checks of LDT and STT, and the lanes' addresses: unclipped ones, and the clipped lanes. -/
def tensorAddrs (c : Iss) (w : WordG) (k : AccessKind) : M (Shape × List LaneRef × List Nat) := do
  let t ← teamOf c
  let l ← recordCheck c t (fieldS c.g w.a).toNat
  let (sh, ok) := shapeOf ((← get).mem.words l 16)
  if !ok then trapWord c causeShape
  let regs := if sh.esz = 4 then 4 else if sh.esz = 3 then 2 else 1
  if w.d.toNat % regs != 0 then trapWord c causeShape
  let ds := (List.range regs).map (w.d.toNat + ·)
  let cs := (List.range sh.rank).map (w.b.toNat + ·)
  if (ds ++ cs).any (fun j => c.g.framed ≤ j) then trapWord c causeFrameBound
  let g ← curGroup c
  if (markV c (ds ++ cs)).any (fun r => g.marks.any (fun p => p.2 == r)) then stall
  match (if k = .laneWrite then ds ++ cs else cs).find? (fun j => c.g.badRegs.contains (c.g.base + j)) with
  | some j => throw (.lost causeMachineCheck c.lanes (BitVec.ofNat 64 (1 + 256 * j)))
  | none => pure ()
  let m ← get
  let read := c.g.readBack c.dev m cs
  modCur c (fun g => g.readBack c.dev m cs)
  if w.lrb && c.run == c.g.livem then modCur c (fun g => g.kill cs)
  let coord (l : Nat) : List Int := cs.map (fun j => readTy (.int 32) (vget (read.vReg c.free j) l 0).toNat)
  let (inn, out) := c.lanes.lanes.partition (fun l => sh.inside (coord l))
  let xs := inn.map (fun l => (l, sh.addr (coord l)))
  let ls ← addrCheck c t sh.tspc k (pow2 sh.esz) none xs
  return (sh, laneRefs xs ls, out)

/-- LDT (R229): a clipped lane takes FILL. -/
def execLdt (w : WordG) (s : State) : Host.Outcome State Fault Refusal :=
  runWord (.ldt w) (fun c => do
    acquireWait c
    let (sh, rs, out) ← tensorAddrs c w .laneRead
    let marks := markV c ((List.range (szSlices sh.esz 0).length).map (w.d.toNat + ·))
    loadLanes c (.ldt w) sh.esz false false (mOrd w.mod) (mScp w.mod) rs marks (out.map (fun l => (l, sh.fillVal))) sh.esz
    return c.run) s

/-- STT (R229): a clipped lane writes nothing. -/
def execStt (w : WordG) (s : State) : Host.Outcome State Fault Refusal :=
  runWord (.stt w) (fun c => do
    acquireWait c
    let (sh, rs, _) ← tensorAddrs c w .laneWrite
    let n := pow2 sh.esz
    storeLanes c (.stt w) n false (mOrd w.mod) (mScp w.mod)
      (rs.map (fun r => (r, natLe n (storeData c w.d ((n + 3) / 4) r.1))))
    return c.run) s

end Sys2Proof.Machine
end

