-- ==== Sys2Proof/Machine/Progress.lean ====
section
/-!
DEFINITION. How an operation that works element by element goes on: its checks, its waits, its stops with
PIX (R78, R207, R214, R218, R219, R230, R367).
-/
namespace Sys2Proof.Machine

/-- Was operation `a` issued before operation `b` (R218)? -/
def issuedBefore (a b : Op) : Bool :=
  a.cyc < b.cyc || (a.cyc == b.cyc && (a.core < b.core || (a.core == b.core &&
    (a.quarter < b.quarter || (a.quarter == b.quarter && (a.slot < b.slot ||
      (a.slot == b.slot && a.seq < b.seq)))))))

/-- The operation behind an owner's name: itself, or the RAYE of a ray (R217). -/
def Mach.ownerOp (m : Mach) (id : Nat) : Option Op :=
  match m.op? id with
  | some o => some o
  | none => (m.ctx.rays.find? (fun r => r.id == id)).bind (fun r => m.op? r.op)

/-- Must an operation's read of `n` bytes wait: some line of them is owned by an operation issued later than the reader,
where an owner still at issue counts as later (R218, as R404 applies it; the sentence that R230, R241 and R333 have beside
their reference to R218 says otherwise: DEDUCED, log 37)? -/
def Mach.srcWaits (m : Mach) (o : Op) (l : Loc) (n : Nat) : Bool :=
  (linesOf l n).any (fun ln => match m.ownerOf ln with
    | none => false
    | some id => id != o.id && (match m.ownerOp id with
      | some w => issuedBefore o w
      | none => true))

/-- Does another operation own some line of `n` bytes? -/
def Mach.dstWaits (m : Mach) (o : Op) (l : Loc) (n : Nat) : Bool :=
  (linesOf l n).any (fun ln => match m.ownerOf ln with
    | none => false
    | some id => id != o.id)

/-- Take an operation's remaining lines again, in ascending order (R78): are they all its own? -/
def Mach.takeFor (m : Mach) (id : Nat) (lines : List Line) : Mach × Bool :=
  let mine := lines.takeWhile (m.freeFor id)
  let new := mine.filter (fun l => (m.ownerOf l).isNone)
  ({ m with own := m.own ++ new.map (fun l => (l, id)) }, mine.length == lines.length)

/-- An operation as it stops: a probe reads its descriptors again when it goes on (R321), a TMOV its source piece (R336). -/
def Op.halted (o : Op) (st : OpSt) : Op :=
  match o.instr with
  | .hprobe _ => { o with st := st, aux := 1 }
  | _ => { o with st := st, held := [] }

/-- An operation stops with a trap of kind S (R359, R361): its lines are released, and the trap is queued.
An operation of a group whose last lane has exited ends (R379). -/
def Mach.stopOp (m : Mach) (o : Op) (cause : Nat) (mask : Mask) (info : Nat) : Mach :=
  let m := m.dropOwn o.id
  let cancel (m : Mach) : Mach := (m.modGrid o.grid (fun g => { g with lost := true })).completeOp { o with writes := [] }
  match m.group? o.gid with
  | none => cancel m
  | some g =>
    if g.retired || g.livem = 0 then cancel m
    else
      (m.modOp o.id (fun o => o.halted .trapped)).raise o.gid
        { cause := cause, kind := .s, mask := mask, off := o.off, info := BitVec.ofNat 64 info,
          regcnt := o.regcnt, op := some o.id, seq := o.seq, byHandler := o.byHandler }

/-- An operation stops at a faulting element (R214): its lines are released and a record is written. -/
def Mach.faultOp (m : Mach) (o : Op) (va : Nat) (k : AccessKind) (cause lvl : Nat) : Mach :=
  let page := va / 65536 % pow2 40
  let m' := m.recordFault (opSrc o) va k cause lvl
  if m'.faults.any (fun f => f.vpage == page && f.kind == k && f.masters.contains (.op o.id)) then
    (m'.dropOwn o.id).modOp o.id (fun o => o.halted (.faulted va k))
  else m'

/-- Perform up to `fuel` elements from PIX on. -/
def runElems (id total : Nat) (elem : Mach → Op → Nat → Elem) : Nat → Mach → Mach
  | 0, m => m
  | fuel + 1, m =>
    match m.op? id with
    | none => m
    | some o =>
      if total ≤ o.pix || o.st != .running then m
      else match elem m o o.pix with
        | .ok m => runElems id total elem fuel (m.modOp id (fun o => { o with pix := o.pix + 1 }))
        | .error (.wait m') => m.waits m'
        | .error (.trap m cause mask info) => m.stopOp o cause mask info
        | .error (.fault m va k cause lvl) => m.faultOp o va k cause lvl

/-- What a cancelled operation has already written to its destinations: a scatter's lanes and a probe's units write each
when it has been performed (R348, R367). -/
def Op.madeWrites (o : Op) : List RegWrite :=
  match o.instr with
  | .atom _ => o.writes
  | .cas _ => o.writes
  | .hprobe _ => o.writes
  | _ => []

/-- An operation that works element by element goes on: it takes the lines it has still to write, performs
up to `limit` elements, and completes after the last, once `ready` says that nothing is awaited. -/
def Mach.advance (m : Mach) (o : Op) (total : Nat) (limit : Option Nat) (lines : Nat → List Line)
    (elem : Mach → Op → Nat → Elem) (ready : Mach → Op → Bool) : Mach :=
  match o.st with
  | .done => m.completeOp { o with writes := o.madeWrites, lost := [] }
  | .running =>
    let (m, own) := m.takeFor o.id (ownable (lines o.pix))
    if !own then m
    else
      let m := runElems o.id total elem (match limit with
        | some n => min n (total - o.pix)
        | none => total - o.pix) m
      match m.op? o.id with
      | none => m
      | some o => if total ≤ o.pix && o.st == .running && ready m o then m.completeOp o else m
  | _ => m

/-- An operation that never stops goes on (R309): its whole effect is performed and it completes; at poison it completes with
no effect, and its lanes' loss is reported (DEDUCED, log 65). -/
def Mach.advanceWhole (m : Mach) (o : Op) (elem : Mach → Op → Nat → Elem) : Mach :=
  match o.st with
  | .done => m.completeOp { o with writes := [], lost := [] }
  | .running =>
    (match elem m o 0 with
     | .ok m => (m.op? o.id).elim m (fun o => m.completeOp o)
     | .error (.wait m') => m.waits m'
     | .error (.trap m cause _ info) =>
       m.completeOp { o with writes := [], lost := o.mask.lanes.map (fun l => (l, cause, info)) }
     | .error (.fault m va k cause lvl) => m.faultOp o va k cause lvl)
  | _ => m

/-- Requests of the core that the operation must observe or follow: those sent before it issued that touch
its bytes and have not been performed, and lanes that a scatter of its group has still to send; a read follows writes
only (R342). -/
def Mach.opBlocked (dev : Device) (m : Mach) (o : Op) (l : Loc) (n : Nat) (write : Bool) : Bool :=
  m.net.any (fun p => p.core == o.core && !p.performed && p.id < o.seq && (write || p.isWrite) &&
    p.loc.space == l.space && p.loc.addr < l.addr + n && l.addr < p.loc.addr + p.len) ||
  m.unsentMeets dev o.gid o.seq l n

/-- Has an operation still to wait for writes that its run's lanes made, or had observed, before its word (R342): requests
on their way, and .glob lanes that a scatter of its group has still to send? Work that a cellar does for it begins after
them. -/
def Mach.writesBehind (m : Mach) (o : Op) : Bool :=
  m.net.any (fun p => p.core == o.core && !p.performed && p.id < o.seq && p.isWrite) ||
  m.ctx.ops.any (fun q => q.gid == o.gid && q.seq < o.seq && !q.unsent.isEmpty && (match scatterWord q.instr with
    | some w => mSpc w.mod == 2
    | none => false))

/-- A read of an element: it waits for lines, earlier requests and an answer, then gives the bytes, or stops
on poison (R371, R372). -/
def opRead (dev : Device) (m : Mach) (o : Op) (mask : Mask) (l : Loc) (n va : Nat) : Except Halt (Mach × List Byte) :=
  if m.srcWaits o l n || m.opBlocked dev o l n false then .error (.wait m)
  else match m.homeRead dev l n with
    | none => .error (.wait (m.askTier dev l))
    | some (m, bs, bad) =>
      match bad.head? with
      | none => .ok (m, bs)
      | some k =>
        let at' := max (k * 64) l.addr
        let (cause, info) := lostInfo { l with addr := at' } (va + (at' - l.addr))
        .error (.trap m cause mask info)

/-- A write of an element. -/
def opWrite (dev : Device) (m : Mach) (o : Op) (l : Loc) (bs : List Byte) : Elem :=
  if m.dstWaits o l bs.length || m.opBlocked dev o l bs.length true then .error (.wait m)
  else match m.homeWrite dev l (bs.zipIdx.map (fun p => (p.2, p.1))) with
    | none => .error (.wait (m.askTier dev l))
    | some m => .ok m

end Sys2Proof.Machine
end

