-- ==== Sys2Proof/Machine/Atomic.lean ====
section
/-!
DEFINITION. ATOM, RED, CAS (R346 to R348).
-/
namespace Sys2Proof.Machine

/-- What an atomic word does at a home: operation code, width in bytes, whether it returns. -/
structure AtomForm where
  op : Nat
  width : Nat
  returns : Bool
  uniform : Bool
  scatter : Bool
  deriving DecidableEq, Repr

/-- The form of an ATOM, RED or CAS word. -/
def atomForm (w : WordG) (red cas : Bool) : AtomForm :=
  { op := if cas then 16 else w.c.toNat, width := if mBit w.mod 2 then 8 else 4,
    returns := !red && !mBit w.mod 3, uniform := atomUniform w red, scatter := mBit w.mod 4 }

/-- One lane's address, operand and new value, as read at issue. -/
def atomOperands (c : Iss) (w : WordG) (f : AtomForm) (cas : Bool) (l : Nat) : Nat × Nat × Nat :=
  let val (x : BitVec 8) : Nat := if f.width = 8 then src64 c c.g x l else src32 c c.g x l
  (if mSpc w.mod = 2 then src64 c c.g w.a l else src32 c c.g w.a l, val w.b, if cas then val w.c else 0)

/-- The registers that a returning atomic marks. -/
def atomMarks (c : Iss) (w : WordG) (f : AtomForm) : List Reg :=
  if !f.returns then []
  else if f.uniform then [.s (w.d.toNat - 192)]
  else markV c ((List.range (f.width / 4)).map (w.d.toNat + ·))

/-- One lane's atomic goes to its home: a core store performs it at once, any other home takes a request. -/
def Mach.sendAtomic (dev : Device) (m : Mach) (gid id core lane : Nat) (f : AtomForm) (l : Loc) (va b x ord scp : Nat) : Mach :=
  if isNear l then
    let (m, v, bad) := m.atomicAt l f.op f.width b x f.returns
    if !f.returns then m
    else if bad then m.modOp id (fun o => { o with lost := o.lost ++ [(lane, lostInfo l va)] })
    else m.addResults id [(lane, v)]
  else
    let (p, m) := m.fresh
    m.send dev gid (newPkt p id core lane (.atomic f.op f.width (BitVec.ofNat 64 b) (BitVec.ofNat 64 x)) l f.width va
      f.returns) ord scp

/-- Atomics of lanes at core stores, lane after lane: the machine, the values that they return, and the results
that they lose. -/
def Mach.nearAtomics (m : Mach) (f : AtomForm) (xs : List (LaneRef × Nat × Nat)) :
    Mach × List (Nat × Nat) × List (Nat × Nat × Nat) :=
  xs.foldl (fun r x =>
    let (m, v, bad) := r.1.atomicAt x.1.2.2 f.op f.width x.2.1 x.2.2 f.returns
    if !f.returns then (m, r.2)
    else if bad then (m, r.2.1, r.2.2 ++ [(x.1.1, lostInfo x.1.2.2 x.1.2.1)])
    else (m, r.2.1 ++ [(x.1.1, v)], r.2.2)) (m, [], [])

/-- The scatter form is issued whole, without a check of its lanes' addresses (R348): per lane its
address, operand and new value go into the operation. -/
def issueScatter (c : Iss) (i : Instr) (w : WordG) (f : AtomForm) (cas : Bool) : M Unit := do
  let ops := c.lanes.lanes.map (atomOperands c w f cas)
  let _ ← issueOp c i Captured.none (atomMarks c w f) (fun o => { o with
    recs := ops.flatMap (fun x => [BitVec.ofNat 64 x.1, BitVec.ofNat 64 x.2.1, BitVec.ofNat 64 x.2.2]) })

/-- The lane form and the uniform form (R347). -/
def atomLanes (c : Iss) (i : Instr) (w : WordG) (f : AtomForm) (cas : Bool) : M Unit := do
  let t ← teamOf c
  let lanes := if f.uniform then [0] else c.lanes.lanes
  let whole := if f.uniform then some c.lanes else none
  let xs := lanes.map (fun l => (l, (atomOperands c w f cas l).1))
  let ls ← addrCheck c t (mSpc w.mod) .laneAtomic f.width whole xs
  let rs := laneRefs xs ls
  let near := rs.filter (fun r => isNear r.2.2)
  let far := rs.filter (fun r => !isNear r.2.2)
  recallLines c (rs.map (·.2.2)) f.width
  sameByteWait c (rs.map (·.2.2)) f.width
  unsentWait c (mOrd w.mod)
  if !near.isEmpty then releaseWait c (mOrd w.mod) (mScp w.mod)
  roomFor c far.length
  flagRoom c
  let (m, vals, lost) := (← get).nearAtomics f (near.map (fun r => (r, (atomOperands c w f cas r.1).2)))
  set m
  let id ← issueOp c i Captured.none (atomMarks c w f) (fun o => { o with
    addrs := far.map (fun r => (r.1, r.2.2)), writes := if f.returns then o.results vals else [], lost := lost })
  modify (fun m => far.foldl (fun m r =>
    let (_, b, x) := atomOperands c w f cas r.1
    m.sendAtomic c.dev c.gid id c.g.core r.1 f r.2.2 r.2.1 b x (mOrd w.mod) (mScp w.mod)) m)

/-- An atomic word: the scatter form, or the lane and uniform forms. -/
def atomBody (i : Instr) (w : WordG) (red cas : Bool) (c : Iss) : M Flow := do
  let f := atomForm w red cas
  if f.scatter then issueScatter c i w f cas else atomLanes c i w f cas
  return c.run

def execAtom (w : WordG) (s : State) : Host.Outcome State Fault Refusal :=
  memWord (.atom w) (atomBody (.atom w) w false false) s
def execRed (w : WordG) (s : State) : Host.Outcome State Fault Refusal :=
  memWord (.red w) (atomBody (.red w) w true false) s
def execCas (w : WordG) (s : State) : Host.Outcome State Fault Refusal :=
  memWord (.cas w) (atomBody (.cas w) w false true) s

/-- The lanes of a scatter without a return that have passed their checks at a place leave, in their order, with the
highest lane that names its bytes: no observer sees a lower lane's write alone (R208, R348). -/
def Mach.sendHeld (dev : Device) (m : Mach) (w : WordG) (f : AtomForm) (id : Nat) (here : Loc → Bool) : Mach :=
  match m.op? id with
  | none => m
  | some o =>
    let m := m.modOp id (fun o => { o with addrs := o.addrs.filter (fun x => !here x.2) })
    (o.addrs.filter (fun x => here x.2)).foldl (fun m x =>
      let rec' (j : Nat) : Nat := (o.recs.getD (3 * o.mask.lanes.idxOf x.1 + j) 0).toNat
      m.sendAtomic dev o.gid o.id o.core x.1 f x.2 (rec' 0) (rec' 1) (rec' 2) (mOrd w.mod) (mScp w.mod)) m

/-- Where a word stops, the lanes that it has passed leave, the machine of the halt changed by `f`. -/
def Halt.sending (f : Mach → Mach) : Halt → Halt
  | .wait m => .wait m
  | .trap m cause mask info => .trap (f m) cause mask info
  | .fault m va k cause lvl => .fault (f m) va k cause lvl

/-- One lane of a scatter (R348): its checks, then its request, which without a return waits for the highest lane that names
its place (DEDUCED, log 77). A failure stops the word at that lane. -/
def scatterElem (dev : Device) (w : WordG) (red cas : Bool) (m : Mach) (o : Op) (k : Nat) : Elem :=
  let f := atomForm w red cas
  let lane := o.mask.lanes.getD k 0
  let a := (o.recs.getD (3 * k) 0).toNat
  let b := (o.recs.getD (3 * k + 1) 0).toNat
  let x := (o.recs.getD (3 * k + 2) 0).toNat
  match opAddr dev m o (Mask.one lane) (mSpc w.mod) .laneAtomic f.width a with
  | .error e => .error (e.sending (fun m => if f.returns then m else m.sendHeld dev w f o.id (fun _ => true)))
  | .ok (m, l) =>
    let mates := o.addrs.filter (fun x => !f.returns && x.2 == l)
    let higher : Bool := !f.returns && ((List.range o.mask.count).drop (k + 1)).any (fun j =>
      match opAddr dev m o (Mask.one (o.mask.lanes.getD j 0)) (mSpc w.mod) .laneAtomic f.width (o.recs.getD (3 * j) 0).toNat with
      | .ok x => x.2 == l
      | .error _ => false)
    if m.dstWaits o l f.width || m.unsentMeets dev o.gid o.seq l f.width then .error (.wait m)
    else if releases (mOrd w.mod) && m.ctx.ops.any (fun p => p.gid == o.gid && p.seq < o.seq && !p.unsent.isEmpty) then
      .error (.wait m)
    else if isNear l && releases (mOrd w.mod) && 2 ≤ mScp w.mod && !(m.before o.gid o.core).isEmpty then .error (.wait m)
    else if !isNear l && 16384 < m.outstanding o.core + mates.length + 1 then .error (.wait m)
    else
      let m := m.modOp o.id (fun o => { o with addrs := o.addrs ++ [(lane, l)] })
      if f.returns then .ok (m.sendAtomic dev o.gid o.id o.core lane f l a b x (mOrd w.mod) (mScp w.mod))
      else if higher then .ok m
      else .ok (m.sendHeld dev w f o.id (fun x => x == l))

/-- Progress of an atomic operation: a scatter sends its lanes; every form completes when its requests have
been answered. -/
def progressAtomic (dev : Device) (w : WordG) (red cas : Bool) (limit : Option Nat) (m : Mach) (o : Op) : Mach :=
  if (atomForm w red cas).scatter then
    m.advance o o.mask.count limit (fun _ => []) (scatterElem dev w red cas) (fun m o => !m.opPending o.id)
  else if m.opPending o.id then m else m.completeOp o

end Sys2Proof.Machine
end

