-- ==== Sys2Proof/Machine/Elem.lean ====
section
/-!
DEFINITION. The correctly rounded functions of R133, division, and the exponential of R141. Roots and
quotients are exact with a sticky bit; the transcendental functions are enclosed in fixed-point brackets,
and a result that its bracket does not decide is a free value (DEDUCED, log 10).
-/
namespace Sys2Proof.Machine

/-! ## Roots and quotients -/

/-- One Newton step of an integer square root, repeated. -/
def isqrtLoop (n : Nat) : Nat → Nat → Nat
  | 0, r => r
  | fuel + 1, r =>
    let r' := (r + n / r) / 2
    if r' < r then isqrtLoop n fuel r' else r

/-- The integer square root. -/
def isqrt (n : Nat) : Nat := if n = 0 then 0 else isqrtLoop n (Nat.log2 n + 4) (pow2 (Nat.log2 n / 2 + 1))

/-- RoundTo(f, RNE, a / b) of two finite nonzero values. -/
def divRound (f : Fmt) (neg : Bool) (m : Nat) (e : Int) (n : Nat) (g : Int) : Nat :=
  let k := f.p + 4 + Nat.log2 n
  let x := m * pow2 k
  f.roundS 0 false (x % n != 0) (.fin neg (x / n) (e - g - k))

/-- RoundTo(f, RNE, a / b) with the cases of R126. -/
def fDiv (f : Fmt) (a b : Num) : Nat :=
  match a, b with
  | .nan, _ => f.nanCode
  | _, .nan => f.nanCode
  | .inf _, .inf _ => f.nanCode
  | .inf s, .fin t _ _ => f.round 0 false (.inf (s != t))
  | .fin s _ _, .inf t => f.round 0 false (.zero (s != t))
  | .fin s m e, .fin t n g =>
    if n = 0 then (if m = 0 then f.nanCode else f.round 0 false (.inf (s != t)))
    else if m = 0 then f.round 0 false (.zero (s != t))
    else divRound f (s != t) m e n g

/-- RoundTo(f, RNE, √x) of a finite positive value. -/
def sqrtRound (f : Fmt) (m : Nat) (e : Int) : Nat :=
  let odd : Nat := (e % 2).toNat
  let s := f.p + 4
  let x := m * pow2 (2 * s + odd)
  let r := isqrt x
  f.roundS 0 false (r * r != x) (.fin false r ((e - odd) / 2 - s))

/-- RoundTo(f, RNE, 1/√x) of a finite positive value. -/
def rsqrtRound (f : Fmt) (m : Nat) (e : Int) : Nat :=
  let odd : Nat := (e % 2).toNat
  let m' := m * pow2 odd
  let k := f.p + 4 + Nat.log2 m'
  let r := isqrt (pow2 (2 * k) / m')
  f.roundS 0 false (r * r * m' != pow2 (2 * k)) (.fin false r (-((e - odd) / 2) - k))

/-! ## Fixed-point constants and series, in units of 2^-s, each with an error below the bound stated -/

/-- The sum of atan(1/k)'s series: Σ (-1)^i / ((2i+1) k^(2i+1)), `n` terms; below n + 1 units off. -/
def atanInv (s k n : Nat) : Int :=
  ((List.range n).foldl (fun (acc : Int × Nat) (i : Nat) =>
    let t : Int := (acc.2 / (2 * i + 1) : Nat)
    (if i % 2 = 0 then acc.1 + t else acc.1 - t, acc.2 / (k * k))) (0, pow2 s / k)).1

/-- π in units of 2^-s, within 2^12 units (Machin's formula). -/
def piFix (s : Nat) : Nat := (16 * atanInv s 5 (s / 4) - 4 * atanInv s 239 (s / 14)).toNat

/-- ln 2 in units of 2^-s: Σ 1/(k 2^k), within s + 2 units. -/
def ln2Fix (s : Nat) : Nat := (List.range s).foldl (fun a i => a + pow2 (s - (i + 1)) / (i + 1)) 0

/-- e^y for y in [0, 1) in units of 2^-s, within 2·n units, from `n` terms. -/
def expFix (s y n : Nat) : Nat :=
  ((List.range n).foldl (fun (acc : Nat × Nat) i =>
    let t := acc.2 * y / pow2 s / (i + 1)
    (acc.1 + t, t)) (pow2 s, pow2 s)).1

/-- ln of x in [1, 2) in units of 2^-s: 2 atanh((x-1)/(x+1)), within 4·n units, from `n` terms. -/
def lnFix (s x n : Nat) : Nat :=
  let z := (x - pow2 s) * pow2 s / (x + pow2 s)
  let z2 := z * z / pow2 s
  2 * ((List.range n).foldl (fun (acc : Nat × Nat) i =>
    (acc.1 + acc.2 / (2 * i + 1), acc.2 * z2 / pow2 s)) (0, z)).1

/-- sin (or cos, with `c`) of y in [0, 2) in units of 2^-s, within 4·n units, from `n` terms. -/
def sinFix (s y n : Nat) (c : Bool) : Int :=
  let y2 := y * y / pow2 s
  ((List.range n).foldl (fun (acc : Int × Nat) (i : Nat) =>
    let j := if c then 2 * i else 2 * i + 1
    (if i % 2 = 0 then acc.1 + acc.2 else acc.1 - acc.2, acc.2 * y2 / pow2 s / ((j + 1) * (j + 2))))
    (0, if c then pow2 s else y)).1

/-- The rounding of a value known to lie within `err` units of `a`·2^e, or the free value `free`. -/
def bracket (f : Fmt) (neg : Bool) (a err : Nat) (e : Int) (free : Nat) : Nat :=
  let lo := f.round 0 false (.fin neg (a - err) e)
  let hi := f.round 0 false (.fin neg (a + err) e)
  if lo = hi then lo else free

/-! ## The functions -/

/-- Bits of the fixed-point work. -/
def fixBits : Nat := 192

/-- 2^(k / 2^s) for a fixed-point argument k in units of 2^-s, which lies within `arg` units of the exact
argument. -/
def exp2Fix (f : Fmt) (k : Int) (arg free : Nat) : Nat :=
  let s := fixBits
  let n := k / ((pow2 s : Nat) : Int)
  let fr := (k % ((pow2 s : Nat) : Int)).toNat
  let y := fr * ln2Fix s / pow2 s
  bracket f false (expFix s y 80) (4096 + 4 * arg) (n - s) free

/-- FEXP2 of a finite value. -/
def exp2Round (f : Fmt) (neg : Bool) (m : Nat) (e : Int) (free : Nat) : Nat :=
  if m = 0 then f.round 0 false (.ofInt 1)
  else if 40 < (Nat.log2 m : Int) + e then
    (if neg then f.round 0 false (.fin false 1 (-100000)) else f.round 0 false (.fin false 1 100000))
  else if 0 ≤ e then
    let n : Int := m * pow2 e.toNat
    f.round 0 false (.fin false 1 (max (-100000) (min 100000 (if neg then -n else n))))
  else if m % pow2 (-e).toNat = 0 then
    let n : Int := m / pow2 (-e).toNat
    f.round 0 false (.fin false 1 (max (-100000) (min 100000 (if neg then -n else n))))
  else
    let k : Nat := if 0 ≤ (fixBits : Int) + e then m * pow2 (fixBits + e).toNat else m / pow2 (-(fixBits + e)).toNat
    let x : Int := if neg then -(k : Int) else k
    let lim : Int := (4096 * pow2 fixBits : Nat)
    if x < -lim then f.round 0 false (.fin false 1 (-100000))
    else if lim < x then f.round 0 false (.fin false 1 100000)
    else exp2Fix f x 1 free

/-- FLOG2 of a finite positive value. -/
def log2Round (f : Fmt) (m : Nat) (e : Int) (free : Nat) : Nat :=
  let s := fixBits
  let l := Nat.log2 m
  let k : Int := l + e
  if m = pow2 l then f.round 0 false (.ofInt k)
  else
    let x := if l ≤ s then m * pow2 (s - l) else m / pow2 (l - s)
    let r : Int := k * (pow2 s : Nat) + (lnFix s x 70 * pow2 s / ln2Fix s : Nat)
    bracket f (r < 0) r.natAbs 65536 (-s) free

/-- FSIN (or FCOS, with `c`) of a finite nonzero value. -/
def sinRound (f : Fmt) (c neg : Bool) (m : Nat) (e : Int) (free : Nat) : Nat :=
  if (Nat.log2 m : Int) + e < -40 then
    -- |x| below 2^-40: sin x is a little below x, cos x a little below 1
    (if c then f.roundS 0 false true (.fin false (pow2 64 - 1) (-64))
     else f.roundS 0 false true (.fin neg (m * pow2 64 - 1) (e - 64)))
  else
    let s := 384
    let pi := piFix s
    -- x in units of 2^-s; exact because e ≥ -384 here
    let x := m * pow2 (s + e).toNat
    let q := 2 * x / pi
    let r := x - q * pi / 2
    let s' := fixBits
    let y := r / pow2 (s - s')
    let useCos := if c then q % 2 = 0 else q % 2 = 1
    let v := sinFix s' y 50 useCos
    let flip := if c then q % 4 = 1 || q % 4 = 2 else (2 ≤ q % 4) != neg
    bracket f (flip != (v < 0)) v.natAbs 65536 (-s') free

/-- The function codes of `Config.elementary`. -/
inductive ElemFn where
  | rcp
  | rsq
  | sqrt
  | exp2
  | log2
  | sin
  | cos
  deriving DecidableEq, Repr

def ElemFn.code : ElemFn → Nat
  | .rcp => 0
  | .rsq => 1
  | .sqrt => 2
  | .exp2 => 3
  | .log2 => 4
  | .sin => 5
  | .cos => 6

/-- The free value that stands where a bracket does not decide a result (DEDUCED, log 10). -/
def elemFree (fn : ElemFn) (f : Fmt) (x : Nat) : Nat :=
  (Config.elementary fn.code f.width (BitVec.ofNat 32 x)).toNat % pow2 f.width

/-- One function of R133 on a code of format f32 or f16. -/
def elemFun (fn : ElemFn) (f : Fmt) (x : Nat) : Nat :=
  let free := elemFree fn f x
  match fn, f.decode x with
  | _, .nan => f.nanCode
  | .rcp, .inf s => f.round 0 false (.zero s)
  | .rcp, .fin s m e => if m = 0 then f.round 0 false (.inf s) else divRound f s 1 0 m e
  | .rsq, .inf s => if s then f.nanCode else f.round 0 false (.zero false)
  | .rsq, .fin s m e =>
    if m = 0 then f.round 0 false (.inf s) else if s then f.nanCode else rsqrtRound f m e
  | .sqrt, .inf s => if s then f.nanCode else f.round 0 false (.inf false)
  | .sqrt, .fin s m e =>
    if m = 0 then f.round 0 false (.zero s) else if s then f.nanCode else sqrtRound f m e
  | .exp2, .inf s => if s then f.round 0 false (.zero false) else f.round 0 false (.inf false)
  | .exp2, .fin s m e => exp2Round f s m e free
  | .log2, .inf s => if s then f.nanCode else f.round 0 false (.inf false)
  | .log2, .fin s m e =>
    if m = 0 then f.round 0 false (.inf true) else if s then f.nanCode else log2Round f m e free
  | .sin, .inf _ => f.nanCode
  | .sin, .fin s m e => if m = 0 then f.round 0 false (.zero s) else sinRound f false s m e free
  | .cos, .inf _ => f.nanCode
  | .cos, .fin s m e => if m = 0 then f.round 0 false (.ofInt 1) else sinRound f true s m e free

/-! ## The attention engine's exponential (R141) -/

/-- H(x × log₂ e) of an f16 code, with log₂ e exact. -/
def timesLog2e (x : Nat) : Nat :=
  match fmtF16.decode x with
  | .nan => fmtF16.nanCode
  | .inf s => fmtF16.round 0 false (.inf s)
  | .fin s m e =>
    if m = 0 then fmtF16.round 0 false (.zero s)
    else
      let a := m * pow2 (2 * fixBits) / ln2Fix fixBits
      bracket fmtF16 s a (m * 4096) (e - fixBits) (elemFree .log2 fmtF16 (65536 + x))

/-- Ex(x) = H(2^H(x × log₂ e)) on f16 codes (R141). -/
def attnExp (x : Nat) : Nat := elemFun .exp2 fmtF16 (timesLog2e x)

end Sys2Proof.Machine
end

