-- ==== Sys2Proof/Machine/Sync.lean ====
section
/-!
DEFINITION. FENCE (R341, R349), barriers (R350 to R353), transactions (R354 to R357).
-/
namespace Sys2Proof.Machine

/-! ## FENCE -/

/-- FENCE: at .clus scope or wider an acquire waits for the group's reads, a release for all that it orders
(R341, R345), and its lanes' later loads read performed writes alone (R337); with .eng it waits for the group's earlier
operations (R349). At narrower scopes one core's
requests to one byte are performed in issue order, so nothing is waited for (DESIGN CHOICE, log 8). -/
def execFence (w : WordG) (s : State) : Host.Outcome State Fault Refusal :=
  memWord (.fence w) (fun c => do
    if (← get).fenceWaits c.gid c.g.core w then stall
    if acquires (mOrd w.mod) && 2 ≤ mScp w.mod then modCur c (fun g => { g with fenced := g.fenced ||| c.lanes })
    return c.run) s

/-! ## Barriers -/

/-- A barrier completes its phase when CNT reaches a set TGT (R351). -/
def Barrier.settle (b : Barrier) : Barrier :=
  if b.tgt != 0 && b.tgt.toNat ≤ b.cnt.toNat then { ph := b.ph + 1, cnt := b.cnt - b.tgt, tgt := 0 } else b

/-- An arrival that carries a target: it sets an unset TGT (R351). -/
def Barrier.arrive (b : Barrier) (t : BitVec 16) : Barrier :=
  ({ b with tgt := if b.tgt = 0 then t else b.tgt, cnt := b.cnt + 1 } : Barrier).settle

/-- A drain arrival, which carries none (R351). -/
def Barrier.drain (b : Barrier) : Barrier := ({ b with cnt := b.cnt + 1 } : Barrier).settle

/-- A barrier that has completed no phase (R350). -/
def Barrier.none : Barrier := { ph := 0, cnt := 0, tgt := 0 }

/-- The state of a barrier. -/
def Mach.barrier (m : Mach) : BarRef → Barrier
  | .team t b => ((m.team? t).map (fun t => vget t.bars b Barrier.none)).getD Barrier.none
  | .cluster c b => ((m.cluster? c).map (fun k => vget k.bars b Barrier.none)).getD Barrier.none

/-- Change a barrier. -/
def Mach.modBarrier (m : Mach) (r : BarRef) (f : Barrier → Barrier) : Mach :=
  match r with
  | .team t b => m.modTeam t (fun t => { t with bars := vmod t.bars b f })
  | .cluster c b => m.modCluster c (fun k => { k with bars := vmod k.bars b f })

/-- The arrival phase of a group's last arrival on a barrier. -/
def Group.arrival (g : Group) : BarRef → Option (BitVec 32)
  | .team _ b => vget g.arrived b Option.none
  | .cluster _ b => vget g.arrivedC b Option.none

/-- Record the phase of an arrival. -/
def Group.noteArrival (g : Group) (r : BarRef) (ph : BitVec 32) : Group :=
  match r with
  | .team _ b => { g with arrived := vset g.arrived b (some ph) }
  | .cluster _ b => { g with arrivedC := vset g.arrivedC b (some ph) }

/-- The target T in an S register; ENGINE_ARG when it is 0 or has a bit above 15 (R352). -/
def barTarget (c : Iss) (w : WordG) : M (BitVec 16) := do
  let a := fieldS c.g w.a
  if a.toNat % 65536 = 0 || 65536 ≤ a.toNat then trapWord c causeEngineArg
  return a.setWidth 16

/-- A group arrival (R351); another target than the one set raises BAR_MISMATCH. -/
def groupArrive (c : Iss) (r : BarRef) (t : BitVec 16) : M Unit := do
  unsentWait c 2
  let b := (← get).barrier r
  if b.tgt != 0 && b.tgt != t then trapInfo causeBarMismatch c.run (b.tgt.toNat * 65536 + t.toNat)
  modCur c (fun g => g.noteArrival r b.ph)
  modify (fun m => m.modBarrier r (fun b => b.arrive t))

/-- Is the run waiting at this word? A run with a lane that has not issued it, and a run of another level, are not. -/
def waitingHere (c : Iss) (g : Group) : Option BarWait :=
  g.barWaits.find? (fun b => b.hdr == c.hdr && b.idx == c.idx && b.level == g.level && c.run &&& ~~~b.mask == 0)

/-- Wait until a barrier's phase differs from an arrival phase (R352). -/
def barWait (c : Iss) (r : BarRef) (ph : BitVec 32) : M Unit := do
  let b := (← get).barrier r
  if b.ph == ph then
    modCur c (fun g =>
      if (waitingHere c g).isSome then g
      else { g with barWaits := g.barWaits.filter (fun b => !(b.hdr == c.hdr && b.idx == c.idx && b.level == g.level)) ++
        [{ hdr := c.hdr, idx := c.idx, level := g.level, mask := c.run, bar := r, phase := ph }] })
    stall

/-- Arrive and wait: a run that waits at this word has arrived already. -/
def barSync (c : Iss) (w : WordG) (r : BarRef) : M Unit := do
  match waitingHere c (← curGroup c) with
  | some b => barWait c b.bar b.phase
  | none =>
    let t ← barTarget c w
    groupArrive c r t
    barWait c r (((← curGroup c).arrival r).getD 0)

/-- Wait for the group's last arrival on a barrier, as it is when the word issues first; without one there is no
wait. -/
def barOnly (c : Iss) (r : BarRef) : M Unit := do
  let g ← curGroup c
  match waitingHere c g, g.arrival r with
  | some b, _ => barWait c b.bar b.phase
  | none, some ph => barWait c r ph
  | none, none => pure ()

/-- BAR. -/
def execBar (w : WordG) (s : State) : Host.Outcome State Fault Refusal :=
  memWord (.bar w) (fun c => do
    barSync c w (.team c.g.team (bitsAt w.mod 0 4))
    return c.run) s

/-- BARA: an arrival without a wait, or with .eng a deferred arrival (R353). -/
def execBara (w : WordG) (s : State) : Host.Outcome State Fault Refusal :=
  memWord (.bara w) (fun c => do
    let b := bitsAt w.mod 0 4
    let t ← barTarget c w
    if mBit w.mod 4 then
      let g ← curGroup c
      if 4 ≤ g.deferred.length then stall
      let m ← get
      let ops := (m.ctx.ops.filter (fun o => o.gid == c.gid)).map (·.id)
      modCur c (fun g => { g with deferred := g.deferred ++ [{ team := g.team, bar := b, target := t, ops := ops }] })
    else groupArrive c (.team c.g.team b) t
    return c.run) s

/-- BARW. -/
def execBarw (w : WordG) (s : State) : Host.Outcome State Fault Refusal :=
  memWord (.barw w) (fun c => do
    barOnly c (.team c.g.team (bitsAt w.mod 0 4))
    return c.run) s

/-- CBAR: a cluster barrier's arrival is a release at .clus (R351), so it waits for what that orders. -/
def execCbar (w : WordG) (s : State) : Host.Outcome State Fault Refusal :=
  memWord (.cbar w) (fun c => do
    let t ← teamOf c
    let r : BarRef := .cluster t.cluster (bitsAt w.mod 0 2)
    match bitsAt w.mod 2 2 with
    | 0 =>
      if (waitingHere c (← curGroup c)).isNone then
        let _ ← barTarget c w
        releaseWait c 2 2
      barSync c w r
    | 1 =>
      let t ← barTarget c w
      releaseWait c 2 2
      groupArrive c r t
    | _ => barOnly c r
    return c.run) s

/-! ## Transactions -/

/-- Change the transactions of the lanes of Lanes(run). -/
def modTx (c : Iss) (f : Nat → LaneTx → LaneTx) : M Unit :=
  modCur c (fun g => { g with tx := Vector.ofFn (fun i : Fin 32 =>
    if c.lanes.has i.val then f i.val g.tx[i] else g.tx[i]) })

/-- TBEGIN (R357). -/
def execTbegin (w : WordG) (s : State) : Host.Outcome State Fault Refusal :=
  runWord (.tbegin w) (fun c => do
    acquireWait c
    modTx c (fun _ t =>
      if t.act then t.doomBy 8
      else { act := true, doom := false, cause := 0, code := 0, granule := none, reads := [], writes := [] })
    return c.run) s

/-- TABORT (R357). -/
def execTabort (w : WordG) (s : State) : Host.Outcome State Fault Refusal :=
  runWord (.tabort w) (fun c => do
    acquireWait c
    modTx c (fun l t =>
      if t.act && !t.doom then
        { t with doom := true, cause := 5, code := BitVec.ofNat 16 (src32 c c.g w.a l) }
      else t)
    return c.run) s

/-- TSTAT (R357). -/
def execTstat (w : WordG) (s : State) : Host.Outcome State Fault Refusal :=
  regWord (.tstat w) (fun c g =>
    writeTy c g (.nat 32) w.d (fun l =>
      let t := c.g.txOf l
      ((t.code.toNat * 65536 + (if t.doom then 32 else 0) + (if t.act then 16 else 0) + t.cause.toNat : Nat) : Int))) s

/-- Lines of a lane's read set and of its write set. -/
def LaneTx.rset (t : LaneTx) : List Line := t.reads.map (·.line)
def LaneTx.wset (t : LaneTx) : List Line := dedupLines (t.writes.map (fun p => lineOf p.1))

/-- Do two sets of lines meet? -/
def linesMeet (a b : List Line) : Bool := a.any (fun l => b.contains l)

/-- Is lane `l` doomed by a lower lane `k` of the same TEND (R356)? -/
def laneLoses (k l : LaneTx) : Bool :=
  linesMeet k.wset (l.rset ++ l.wset) || linesMeet l.wset k.rset

/-- The lanes of one TEND that lower lanes doom, lane by lane in ascending order (R356). -/
def doomLower (tx : Nat → LaneTx) (ws : List Nat) : List Nat :=
  ws.foldl (fun lost l =>
    if !(tx l).doom && ws.any (fun k => k < l && !(tx k).doom && !lost.contains k && laneLoses (tx k) (tx l)) then
      lost ++ [l] else lost) []

/-- Does every line of a read set still hold its recorded bytes? -/
def validates (mem : Memory) (t : LaneTx) : Bool :=
  t.reads.all (fun r => mem.read { space := r.line.space, addr := r.line.index * 64 } 64 == r.bytes)

/-- The commits of a TEND in ascending lane order: the machine, the lanes that have committed, and those whose
read set no longer holds (R356). -/
def Mach.commits (m : Mach) (tx : Nat → LaneTx) (ls : List Nat) : Mach × Mask × Mask :=
  ls.foldl (fun r l =>
    if validates r.1.mem (tx l) then (r.1.writeBytes (tx l).writes, r.2.1 ||| Mask.one l, r.2.2)
    else (r.1, r.2.1, r.2.2 ||| Mask.one l)) (m, 0, 0)

/-- Do all lines of a transaction that lie in core stores still lie in allocations that the group's team reaches, its own
or through its cluster window? CLEAVE takes the others away (R52). -/
def Mach.holdsSets (m : Mach) (g : Group) (t : LaneTx) : Bool :=
  match m.team? g.team with
  | none => true
  | some own => (t.rset ++ t.wset).all (fun ln => match ln.space with
    | .core n => m.ctx.teams.any (fun u => u.core == n && u.base ≤ ln.index * 64 && ln.index * 64 < u.base + u.csl * 64 &&
        (memberTeam m own u.member).any (fun v => v.tid == u.tid))
    | _ => true)

/-- The .clus address of a transaction's granule, for the window fault. -/
def Mach.windowAddr (m : Mach) (t : LaneTx) : Nat :=
  match t.granule with
  | some (.core n, blk) =>
    (match m.ctx.teams.find? (fun u => u.core == n && u.base ≤ blk && blk < u.base + u.csl * 64) with
     | some u => u.member * pow2 28 + (blk - u.base)
     | none => 0)
  | _ => 0

/-- TEND (R356): validation by value, commits in ascending lane order, and the success predicate. Where CLEAVE has taken a
granule's mapping away, the commit raises the window fault (R52). With ORD = 3 it waits as a FENCE.acqrel of its scope does,
and is one for the lanes that fail (R357). -/
def execTend (w : WordG) (s : State) : Host.Outcome State Fault Refusal :=
  runWord (.tend w) (fun c => do
    acquireWait c
    let g ← curGroup c
    let tx (l : Nat) : LaneTx := g.txOf l
    let ws := c.lanes.lanes.filter (fun l => (tx l).act)
    let lines := ws.flatMap (fun l => if (tx l).doom then [] else (tx l).rset ++ (tx l).wset)
    txWait c (lines.map (fun ln => { space := ln.space, addr := ln.index * 64 })) 64
    if mOrd w.mod = 3 && (← get).orderWaits c.gid c.g.core 3 (mScp w.mod) then stall
    let m ← get
    let away (l : Nat) : Bool := !(tx l).doom && !m.holdsSets g (tx l)
    match ws.find? away with
    | some l => trapInfo causeWindow (Mask.ofFn (fun k => ws.contains k && away k)) (m.windowAddr (tx l))
    | none => pure ()
    let lost := doomLower tx ws
    flagRoom c
    modify (fun m => m.keepOld c.dev (ws.flatMap (fun l => (tx l).writes.map (fun p => (p.1, p.1, p.2)))))
    let (m, won, failed) := (← get).commits tx (ws.filter (fun l => !(tx l).doom && !lost.contains l))
    set (m.touchLines c.dev (lines.map (fun ln => { space := ln.space, addr := ln.index * 64 })))
    let _ ← issueOp c (.tend w) Captured.none [.p w.d.toNat] (fun o => { o with writes :=
      [{ reg := .p w.d.toNat, mask := c.lanes, vals := laneFn (fun l => if won.has l then 1 else 0), word := 0 }] })
    modTx c (fun l t =>
      let t := if lost.contains l then t.doomBy 2 else if failed.has l then t.doomBy 1 else t
      let t := if t.act then t else { t with cause := 9 }
      { t with act := false, doom := if won.has l then false else t.doom })
    if mOrd w.mod = 3 && 2 ≤ mScp w.mod then modCur c (fun g => { g with fenced := g.fenced ||| (c.lanes &&& ~~~won) })
    return c.run) s

/-- DEFERRED_ARRIVAL (R353): the arrival is made once the operations that it waits for have completed. -/
def execDeferredArrival (team index : Nat) (s : State) : Host.Outcome State Fault Refusal :=
  let m := s.mach
  let all := (m.ctx.groups.filter (fun g => g.team == team)).flatMap (fun g => g.deferred.zipIdx.map (fun d => (g.gid, d.2, d.1)))
  match all[index]? with
  | none => .next s
  | some (gid, k, d) =>
    if m.ctx.ops.any (fun o => d.ops.contains o.id) then .next s
    else
      let m := m.modGroup gid (fun g => { g with deferred := g.deferred.eraseIdx k })
      .next { s with mach := m.modBarrier (.team d.team d.bar) (fun b => b.arrive d.target) }

/-- BARRIER_WAIT_PASS (R352): a group whose barrier's phase has changed waits no more, so its word passes at
its next issue. -/
def execBarrierWaitPass (gid : Nat) (s : State) : Host.Outcome State Fault Refusal :=
  let m := s.mach
  .next { s with mach := m.modGroup gid (fun g =>
    if g.barWaits.any (fun b => (m.barrier b.bar).ph != b.phase) then
      { g with sched := { g.sched with waitSince := none, readySince := some (g.sched.readySince.getD m.cyc.toNat) } }
    else g) }

end Sys2Proof.Machine
end

