-- ==== Sys2Proof/Machine/Engine.lean ====
section
/-!
DEFINITION. Engine transfers TMOV, COPY, GTHA, TIERH (R230 to R234) and the sharing-group instructions
(R50 to R52, R235).
-/
namespace Sys2Proof.Machine

/-! ## Ranges -/

/-- A register's value, or a sum, as an address of a space: .glob modulo 2⁶⁴, others modulo 2³² (R206, R232). -/
def spAddr (spc x : Nat) : Nat := if spc = 2 then x % pow2 64 else x % pow2 32

/-- The team and offset that a .core or .clus address names, if its mapping is held. -/
def nearTarget (m : Mach) (t : Team) (spc a : Nat) : Option (Team × Nat) :=
  if spc = 1 then
    (if 11 < a / pow2 28 then none else (memberTeam m t (a / pow2 28)).map (fun u => (u, a % pow2 28)))
  else some (t, a)

/-- The check at issue of a whole .core or .clus range; an empty range names no byte. -/
def rangeCheck (c : Iss) (t : Team) (spc a n : Nat) : M Unit := do
  if n != 0 && spc != 2 then
    match nearTarget (← get) t spc a with
    | none => trapInfo causeWindow c.run a
    | some (u, off) => if u.csl * 64 < off + n then trapInfo causeAllocBound c.run a

/-- The check at issue of several ranges of one size. -/
def rangeChecks (c : Iss) (t : Team) (spc n : Nat) : List Nat → M Unit
  | [] => pure ()
  | a :: r => do
    rangeCheck c t spc a n
    rangeChecks c t spc n r

/-- The places of `n` bytes from an address on, page by page; a page that does not translate is left out. -/
def pieces (dev : Device) (m : Mach) (core : Nat) (t : Team) (k : AccessKind) (spc a n : Nat) : List (Loc × Nat) :=
  if n = 0 then []
  else if spc = 2 then
    (List.range ((a % 65536 + n + 65535) / 65536)).filterMap (fun i =>
      let lo := if i = 0 then a else (a / 65536 + i) * 65536
      let hi := min (a + n) ((a / 65536 + i + 1) * 65536)
      let va := lo % pow2 64
      if pow2 56 ≤ va then none
      else match (translate dev m core k va).2 with
        | .ok l => some (l, hi - lo)
        | .error _ => none)
  else match nearTarget m t spc a with
    | some (u, off) => [(coreLoc u off, n)]
    | none => []

/-- The lines of places. -/
def pieceLines (ps : List (Loc × Nat)) : List Line := ps.flatMap (fun p => linesOf p.1 p.2)

/-- The bytes at places as they stand. -/
def Mach.snapshot (m : Mach) (ps : List (Loc × Nat)) : List (Loc × Byte) :=
  ps.flatMap (fun p => (List.range p.2).map (fun k => (p.1.add k, m.mem.get (p.1.add k))))

/-- May a source space reach a destination space? -/
def spacesMeet (a b : Nat) : Bool := (a == 2) == (b == 2)

/-- Bytes that a transfer has read at a location: a byte of its own destination may also have its value at
issue (R230). -/
def Mach.ownSource (m : Mach) (o : Op) (l : Loc) (bs : List Byte) : Mach × List Byte :=
  if o.before.isEmpty then (m, bs)
  else
    ({ m with freeCtr := m.freeCtr + bs.length }, bs.zipIdx.map (fun b =>
      match o.before.find? (fun x => x.1 == l.add b.2) with
      | some x => if Config.overlapPick (m.freeCtr + b.2) then x.2 else b.1
      | none => b.1))

/-- Write the promise (R220). -/
def writePromise (c : Iss) (d : BitVec 8) : M Unit := do
  let n ← freeNat
  let cyc := (← get).cyc
  modCur c (fun g => g.writeS (d.toNat - 192) (cyc + 16 + (Config.promiseSlack n).setWidth 64))

/-- Issue a transfer that owns its destination and gives a promise (R230). -/
def issueTransfer (c : Iss) (i : Instr) (cap : Captured) (recs : List Word) (d : BitVec 8)
    (dst : List (Loc × Nat)) (meet : Bool) : M Flow := do
  let m ← get
  let _ ← issueOwned c i cap [] (ownable (pieceLines dst)) (fun o => { o with
    recs := recs, before := if meet then m.snapshot dst else [] })
  writePromise c d
  return c.run

/-! ## COPY (R232) -/

/-- The addresses and the count of a COPY, from its captured registers. -/
def copyArgs (w : WordG) (cap : Captured) : Nat × Nat × Nat :=
  (spAddr (bitsAt w.mod 0 2) cap.sa.toNat, spAddr (mSpc w.mod) cap.sb.toNat, cap.sc.toNat)

/-- The places that a COPY has still to write from unit `p` on. -/
def copyDest (dev : Device) (m : Mach) (core : Nat) (t : Team) (w : WordG) (cap : Captured) (p : Nat) : List (Loc × Nat) :=
  let (_, d, n) := copyArgs w cap
  pieces dev m core t .engineWrite (mSpc w.mod) (d + 16 * p) (n - 16 * p)

/-- COPY at issue. -/
def execCopy (w : WordG) (s : State) : Host.Outcome State Fault Refusal :=
  memWord (.copy w) (fun c => do
    let t ← teamOf c
    let cap := captureS c w
    let (s, d, n) := copyArgs w cap
    checkAligned c 16 [s, d, n]
    rangeCheck c t (bitsAt w.mod 0 2) s n
    rangeCheck c t (mSpc w.mod) d n
    issueTransfer c (.copy w) cap [] w.d (copyDest c.dev (← get) c.g.core t w cap 0)
      (spacesMeet (bitsAt w.mod 0 2) (mSpc w.mod))) s

/-- One 16-byte unit of a COPY. -/
def copyElem (dev : Device) (w : WordG) (m : Mach) (o : Op) (u : Nat) : Elem := do
  let (s, d, _) := copyArgs w o.cap
  let a := spAddr (bitsAt w.mod 0 2) (s + 16 * u)
  let b := spAddr (mSpc w.mod) (d + 16 * u)
  let (m, ls) ← opAddr dev m o o.mask (bitsAt w.mod 0 2) .engineRead 16 a
  let (m, bs) ← opRead dev m o o.mask ls 16 a
  let (m, ld) ← opAddr dev m o o.mask (mSpc w.mod) .engineWrite 16 b
  let (m, bs) := m.ownSource o ls bs
  opWrite dev m o ld bs

/-- An operation's team, or one that nothing names. -/
def Mach.opTeam (m : Mach) (o : Op) (f : Team → List (Loc × Nat)) : List Line :=
  match m.team? o.team with
  | some t => pieceLines (f t)
  | none => []

/-- A COPY goes on. -/
def progressCopy (dev : Device) (w : WordG) (limit : Option Nat) (m : Mach) (o : Op) : Mach :=
  m.advance o ((copyArgs w o.cap).2.2 / 16) limit
    (fun p => m.opTeam o (fun t => copyDest dev m o.core t w o.cap p)) (copyElem dev w) (fun _ _ => true)

/-! ## GTHA (R233) -/

/-- The row count and the row size of a geometry word. -/
def gthaGeo (g : Word) : Nat × Nat := (bitsAt g 24 24, bitsAt g 0 16)

/-- The places that a GTHA has still to write from row `p` on. -/
def gthaDest (dev : Device) (m : Mach) (core : Nat) (t : Team) (w : WordG) (cap : Captured) (geo : Word) (p : Nat) :
    List (Loc × Nat) :=
  let (n, rowb) := gthaGeo geo
  pieces dev m core t .engineWrite (mSpc w.mod) (spAddr (mSpc w.mod) cap.sc.toNat + rowb * p) (rowb * (n - p))

/-- GTHA at issue. -/
def execGtha (w : WordG) (s : State) : Host.Outcome State Fault Refusal :=
  memWord (.gtha w) (fun c => do
    let t ← teamOf c
    let cap := captureS c w
    let geo := c.g.sReg (w.c.toNat - 192 + 1)
    let (n, rowb) := gthaGeo geo
    if bitsAt geo 16 8 != 0 || bitsAt geo 48 16 != 0 || rowb = 0 || rowb % 16 != 0 then trapWord c causeEngineArg
    let (tsp, lsp, dsp) := (bitsAt w.mod 0 2, bitsAt w.mod 2 2, mSpc w.mod)
    let base := spAddr tsp cap.sa.toNat
    let list := spAddr lsp cap.sb.toNat
    let dst := spAddr dsp cap.sc.toNat
    checkAligned c 16 [base, dst]
    checkAligned c 4 [list]
    rangeCheck c t lsp list (4 * n)
    rangeCheck c t dsp dst (rowb * n)
    issueTransfer c (.gtha w) cap [geo] w.d (gthaDest c.dev (← get) c.g.core t w cap geo 0)
      (spacesMeet tsp dsp)) s

/-- The checks of R207 on a row: its places with their addresses. A .glob row is checked by 16 bytes. -/
def opSpan (dev : Device) (m : Mach) (o : Op) (spc : Nat) (k : AccessKind) (a n : Nat) :
    Except Halt (Mach × List (Loc × Nat × Nat)) :=
  if spc = 2 then
    (List.range (n / 16)).foldlM (fun acc i => do
      let va := (a + 16 * i) % pow2 64
      let (m, l) ← opAddr dev acc.1 o o.mask spc k 16 va
      return (m, acc.2 ++ [(l, 16, va)])) (m, [])
  else match (m.team? o.team).bind (fun t => nearTarget m t spc a) with
    | none => .error (.trap m causeWindow o.mask a)
    | some (u, off) =>
      if u.csl * 64 < off + n then .error (.trap m causeAllocBound o.mask a)
      else .ok (m, [(coreLoc u off, n, a)])

/-- The bytes of a row. -/
def readSpan (dev : Device) (o : Op) (m : Mach) : List (Loc × Nat × Nat) → Except Halt (Mach × List Byte)
  | [] => .ok (m, [])
  | (l, n, a) :: r => do
    let (m, bs) ← opRead dev m o o.mask l n a
    let (m, bs) := m.ownSource o l bs
    let (m, rest) ← readSpan dev o m r
    return (m, bs ++ rest)

/-- Write a row. -/
def writeSpan (dev : Device) (o : Op) (m : Mach) : List (Loc × Nat × Nat) → List Byte → Elem
  | [], _ => .ok m
  | (l, n, _) :: r, bs => do
    let m ← opWrite dev m o l (bs.take n)
    writeSpan dev o m r (bs.drop n)

/-- One row of a GTHA: one read of its index (R222), the row's bytes or zeros, its write. -/
def gthaElem (dev : Device) (w : WordG) (m : Mach) (o : Op) (i : Nat) : Elem := do
  let (_, rowb) := gthaGeo (o.recs.getD 0 0)
  let (tsp, lsp, dsp) := (bitsAt w.mod 0 2, bitsAt w.mod 2 2, mSpc w.mod)
  let ia := spAddr lsp (spAddr lsp o.cap.sb.toNat + 4 * i)
  let (m, il) ← opAddr dev m o o.mask lsp .engineRead 4 ia
  let (m, ib) ← opRead dev m o o.mask il 4 ia
  let x := leNat ib
  let zero := mBit w.mod 4 && x == 4294967295
  let a := spAddr tsp (spAddr tsp o.cap.sa.toNat + x * rowb)
  let (m, src) ← if zero then pure (m, []) else opSpan dev m o tsp .engineRead a rowb
  let (m, bs) ← if zero then pure (m, List.replicate rowb 0) else readSpan dev o m src
  let (m, dst) ← opSpan dev m o dsp .engineWrite (spAddr dsp (spAddr dsp o.cap.sc.toNat + i * rowb)) rowb
  writeSpan dev o m dst bs

/-- A GTHA goes on. -/
def progressGtha (dev : Device) (w : WordG) (limit : Option Nat) (m : Mach) (o : Op) : Mach :=
  let geo := o.recs.getD 0 0
  m.advance o (gthaGeo geo).1 limit
    (fun p => m.opTeam o (fun t => gthaDest dev m o.core t w o.cap geo p)) (gthaElem dev w) (fun _ _ => true)

/-! ## TMOV (R231) -/

/-- A box: source origin, destination origin, extents; and whether it keeps its table. -/
def boxOf (ws : List Word) (rank : Nat) : (List Int × List Int × List Nat) × Bool :=
  let i32 (o : Nat) : Int := readTy (.int 32) (rec32 ws o)
  let ext (k : Nat) : Nat := nbits (ws.getD (8 + k / 4) 0).toNat (k % 4 * 16) 16
  let ks := List.range rank
  let above := (List.range 7).all (fun k => k < rank ||
    (rec32 ws (4 * k) == 0 && rec32 ws (32 + 4 * k) == 0 && ext k == 0))
  let ok := above && rec32 ws 28 == 0 && rec32 ws 60 == 0 && ext 7 == 0 &&
    (List.range 6).all (fun k => ws.getD (10 + k) 0 == 0)
  ((ks.map (fun k => i32 (4 * k)), ks.map (fun k => i32 (32 + 4 * k)), ks.map ext), ok)

/-- The box coordinates of element `e`, dimension 0 fastest. -/
def boxCoords : List Nat → Nat → List Nat
  | [], _ => []
  | x :: r, e => e % x :: boxCoords r (e / x)

/-- A TMOV's records as read at issue. -/
structure Move where
  src : Shape
  dst : Shape
  sorg : List Int
  dorg : List Int
  ext : List Nat
  deriving DecidableEq, Repr

/-- The records of a TMOV from their 48 words. -/
def moveOf (ws : List Word) : Move :=
  let src := (shapeOf (ws.take 16)).1
  let ((so, d, x), _) := boxOf (ws.drop 32) src.rank
  { src := src, dst := (shapeOf ((ws.drop 16).take 16)).1, sorg := so, dorg := d, ext := x }

/-- The number of elements. -/
def Move.count (v : Move) : Nat := v.ext.foldl (· * ·) 1

/-- The source and destination coordinates of an element. -/
def Move.at (v : Move) (e : Nat) : List Int × List Int :=
  let b := boxCoords v.ext e
  (v.sorg.zipWith (fun x y => x + y) (b.map Int.ofNat), v.dorg.zipWith (fun x y => x + y) (b.map Int.ofNat))

/-- The destination addresses of the elements from `p` on that lie inside the destination. -/
def Move.targets (v : Move) (p : Nat) : List Nat :=
  (List.range (v.count - p)).filterMap (fun k =>
    let t := (v.at (p + k)).2
    if v.dst.inside t then some (v.dst.addr t) else none)

/-- The places that a TMOV has still to write. -/
def moveDest (dev : Device) (m : Mach) (core : Nat) (t : Team) (v : Move) (p : Nat) : List (Loc × Nat) :=
  (v.targets p).flatMap (fun a => pieces dev m core t .engineWrite v.dst.tspc a (pow2 v.dst.esz))

/-- TMOV at issue. -/
def execTmov (w : WordG) (s : State) : Host.Outcome State Fault Refusal :=
  memWord (.tmov w) (fun c => do
    let t ← teamOf c
    let cap := captureS c w
    let la ← recordCheck c t cap.sa.toNat
    let lb ← recordCheck c t cap.sb.toNat
    let lc ← recordCheck c t cap.sc.toNat
    let mem := (← get).mem
    let ws := mem.words la 16 ++ mem.words lb 16 ++ mem.words lc 16
    let (src, ok1) := shapeOf (ws.take 16)
    let (dst, ok2) := shapeOf ((ws.drop 16).take 16)
    let (_, ok3) := boxOf (ws.drop 32) src.rank
    if !ok1 || !ok2 || src.rank != dst.rank || src.esz != dst.esz || !ok3 then trapWord c causeShape
    let v := moveOf ws
    rangeChecks c t dst.tspc (pow2 dst.esz) (v.targets 0)
    issueTransfer c (.tmov w) cap ws w.d (moveDest c.dev (← get) c.g.core t v 0) (spacesMeet src.tspc dst.tspc)) s

/-- `n` bytes of a source, read with the rest of their aligned piece of 16 bytes in one access, whose later bytes the
elements after it use (R336; DEDUCED, log 78). -/
def tmovRead (dev : Device) (m : Mach) (o : Op) (l : Loc) (n va : Nat) : Except Halt (Mach × List Byte) :=
  let held := ((m.op? o.id).map (·.held)).getD []
  let kept := (List.range n).filterMap (fun k => (held.find? (fun x => x.1 == l.add k)).map (·.2))
  let keep (m : Mach) (xs : List (Loc × Byte)) : Mach := m.modOp o.id (fun o => { o with held := xs })
  if kept.length = n then
    .ok ((keep m (held.filter (fun x => l.addr + n ≤ x.1.addr))).ownSource o l kept)
  else do
    let skip := l.addr % 16
    let start : Loc := { l with addr := l.addr - skip }
    let (m, bs) ← opRead dev m o o.mask start 16 (va - skip)
    .ok ((keep m ((bytesAt start bs).drop (skip + n))).ownSource o l ((bs.drop skip).take n))

/-- One element of a TMOV. -/
def tmovElem (dev : Device) (m : Mach) (o : Op) (e : Nat) : Elem :=
  let v := moveOf o.recs
  let (s, t) := v.at e
  let n := pow2 v.dst.esz
  if !v.dst.inside t then .ok m
  else do
    let (m, bs) ←
      if !v.src.inside s then pure (m, natLe n v.src.fillVal)
      else do
        let a := v.src.addr s
        let (m, l) ← opAddr dev m o o.mask v.src.tspc .engineRead n a
        tmovRead dev m o l n a
    let (m, l) ← opAddr dev m o o.mask v.dst.tspc .engineWrite n (v.dst.addr t)
    opWrite dev m o l bs

/-- Behind the last of the elements from `k` on, at most `fuel`, that ascend in the aligned piece of 16 bytes that the
element before `last` is written to, at address `a`; elements outside the destination are passed over. -/
def Move.pieceEnd (v : Move) : Nat → Nat → Nat → Nat → Nat
  | 0, _, _, last => last
  | fuel + 1, a, k, last =>
    let t := (v.at k).2
    if !v.dst.inside t then v.pieceEnd fuel a (k + 1) last
    else if a < v.dst.addr t && v.dst.addr t / 16 == a / 16 then v.pieceEnd fuel (v.dst.addr t) (k + 1) (k + 1)
    else last

/-- The number of elements from `e` on up to the last that a TMOV writes into one aligned piece of 16 bytes (R336). -/
def Move.piece (v : Move) (e : Nat) : Nat :=
  let t := (v.at e).2
  if v.dst.inside t then v.pieceEnd (v.count - (e + 1)) (v.dst.addr t) (e + 1) (e + 1) - e else 1

/-- Up to `n` elements of a piece after those it has done: none of them while one waits; those before one that stops. -/
def tmovRest (dev : Device) (m0 : Mach) (o : Op) : Nat → Mach → Nat → Elem
  | 0, m, _ => .ok m
  | n + 1, m, e =>
    match tmovElem dev m o e with
    | .ok m => tmovRest dev m0 o n (m.modOp o.id (fun o => { o with pix := o.pix + 1 })) (e + 1)
    | .error (.wait m') => .error (.wait (m0.waits m'))
    | .error _ => .ok m

/-- The elements of a TMOV from PIX on that share an aligned piece of 16 bytes, in one step (R336). -/
def tmovPiece (dev : Device) (m : Mach) (o : Op) (e : Nat) : Elem :=
  match tmovElem dev m o e with
  | .ok m' => tmovRest dev m o ((moveOf o.recs).piece e - 1) m' (e + 1)
  | r => r

/-- A TMOV goes on. -/
def progressTmov (dev : Device) (limit : Option Nat) (m : Mach) (o : Op) : Mach :=
  let v := moveOf o.recs
  m.advance o v.count limit (fun p => m.opTeam o (fun t => moveDest dev m o.core t v p)) (tmovPiece dev) (fun _ _ => true)

/-! ## TIERH (R234) -/

/-- TIERH at issue. -/
def execTierh (w : WordG) (s : State) : Host.Outcome State Fault Refusal :=
  memWord (.tierh w) (fun c => do
    let cap := captureS c w
    if pow2 32 < cap.sb.toNat then trapWord c causeEngineArg
    let _ ← issueOp c (.tierh w) cap [] (fun o => o)
    return c.run) s

/-- The pages that a TIERH names. -/
def tierhPages (o : Op) : Nat :=
  let a := o.cap.sa.toNat
  let b := o.cap.sb.toNat
  if b = 0 then 0 else (a + b - 1) / 65536 - a / 65536 + 1

/-- A hint reaches a port: it enters the hint queue, or is dropped when the port takes none or the queue is
full (R388 to R390). -/
def Mach.hint (dev : Device) (m : Mach) (l : Loc) : Mach :=
  let p := l.addr / tierSpan
  if (vget dev.tiers p TierRegs.reset).st = .up then
    { m with tiers := vmod m.tiers p (fun u =>
        if u.hints.length < 4096 then { u with hints := u.hints ++ [l.addr % tierSpan / 65536] } else u) }
  else m

/-- One page of a TIERH: a hint when its leaf lies in the capacity tier. -/
def tierhElem (dev : Device) (m : Mach) (o : Op) (k : Nat) : Elem :=
  let va := (o.cap.sa.toNat / 65536 + k) * 65536
  if pow2 56 ≤ va then .ok m
  else if m.transHeld dev o.core (some o.quarter) va then .error (.wait m)
  else match translateIn dev m o.core o.quarter .engineRead va with
    | (m, .ok l) => if l.space = .tier then .ok (m.hint dev l) else .ok m
    | (m, .error _) => .ok m

/-- A TIERH goes on. -/
def progressTierh (dev : Device) (limit : Option Nat) (m : Mach) (o : Op) : Mach :=
  m.advance o (tierhPages o) limit (fun _ => []) (tierhElem dev) (fun _ _ => true)

/-! ## Sharing groups (R50 to R52, R235) -/

/-- CJOIN at issue. -/
def execCjoin (w : WordG) (s : State) : Host.Outcome State Fault Refusal :=
  memWord (.cjoin w) (fun c => do
    let _ ← issueOp c (.cjoin w) Captured.none [] (fun o => o)
    return c.run) s

/-- CLEAVE at issue. -/
def execCleave (w : WordG) (s : State) : Host.Outcome State Fault Refusal :=
  memWord (.cleave w) (fun c => do
    let _ ← issueOp c (.cleave w) Captured.none [] (fun o => o)
    return c.run) s

/-- CQUERY at issue. -/
def execCquery (w : WordG) (s : State) : Host.Outcome State Fault Refusal :=
  memWord (.cquery w) (fun c => do
    let _ ← issueOp c (.cquery w) Captured.none [.s (w.d.toNat - 192)] (fun o => o)
    return c.run) s

/-- Does a running operation of team `t` read or write the allocation of another member through the window? -/
def opUsesWindow (o : Op) (t : Team) (member : Nat) : Bool :=
  let hit (spc a : Nat) : Bool := spc == 1 && a % pow2 32 / pow2 28 == member
  o.st == .running && o.team == t.tid &&
  (match o.instr with
   | .copy w => hit (bitsAt w.mod 0 2) o.cap.sa.toNat || hit (mSpc w.mod) o.cap.sb.toNat
   | .gtha w => bitsAt w.mod 0 2 == 1 || hit (bitsAt w.mod 2 2) o.cap.sb.toNat || hit (mSpc w.mod) o.cap.sc.toNat
   | .tmov _ => (moveOf o.recs).src.tspc == 1 || (moveOf o.recs).dst.tspc == 1
   | .atom w => mBit w.mod 4 && mSpc w.mod == 1
   | .red w => mBit w.mod 4 && mSpc w.mod == 1
   | .cas w => mBit w.mod 4 && mSpc w.mod == 1
   | _ => false)

/-- May a team leave its sharing group: no operation uses a window between it and another member (R52)? -/
def Mach.canLeave (m : Mach) (t : Team) : Bool :=
  let others := (List.range 12).filterMap (fun k => if k = t.member then none else memberTeam m t k)
  others.all (fun u => m.ctx.ops.all (fun o => !opUsesWindow o u t.member && !opUsesWindow o t u.member))

/-- What CQUERY answers (R235). -/
def queryWord (m : Mach) (t : Team) : Nat :=
  (t.sgrp.getD 255) + t.member * pow2 20 +
  (List.range 12).foldl (fun a k => if (memberTeam m t k).isSome then a + pow2 (8 + k) else a) 0

/-- Does an earlier sharing-group instruction of the team wait? Each core's arrive in issue order. -/
def Mach.sharingBefore (m : Mach) (o : Op) : Bool :=
  m.ctx.ops.any (fun p => p.team == o.team && p.seq < o.seq && (match p.instr with
    | .cjoin _ => true
    | .cleave _ => true
    | .cquery _ => true
    | _ => false))

/-- A team's sharing group becomes another one, or none. -/
def Mach.setSharing (m : Mach) (tid : Nat) (k : Option Nat) : Mach := m.modTeam tid (fun t => { t with sgrp := k })

/-- CJOIN, CLEAVE and CQUERY reach the cluster, in a serial order, and complete (R51, R52). -/
def progressSharing (m : Mach) (o : Op) : Mach :=
  match m.team? o.team with
  | none => m.completeOp o
  | some t =>
    if m.sharingBefore o then m
    else
      match o.instr with
      | .cjoin w =>
        let k := bitsAt w.mod 0 2
        if t.sgrp = some k then m.completeOp o
        else if m.canLeave t then (m.setSharing t.tid (some k)).completeOp o
        else m
      | .cleave _ => if m.canLeave t then (m.setSharing t.tid none).completeOp o else m
      | .cquery w =>
        let m := m.oweS o.id (w.d.toNat - 192) (queryWord m t)
        match m.op? o.id with
        | some o => m.completeOp o
        | none => m
      | _ => m

end Sys2Proof.Machine
end

