-- ==== Sys2Proof/Machine/Matrix.lean ====
section
/-!
DEFINITION. The matrix engine: OMAP, MMA, MZERO, MLDA, MDRAIN and the rows of a peer drain (R135 to R140,
R236 to R243).
-/
namespace Sys2Proof.Machine

/-! ## Tiles (R236) -/

/-- A tile that nothing has placed or written. -/
def Tile.unplaced (core num : Nat) : Tile :=
  { core := core, num := num, f16 := false, cf := false, bad := false, seed := 0, fill := none, elems := [] }

/-- Tile `num` of a core. -/
def Mach.tile (m : Mach) (core num : Nat) : Tile :=
  (m.tiles.find? (fun t => t.core == core && t.num == num)).getD (Tile.unplaced core num)

/-- Replace a tile. -/
def Mach.setTile (m : Mach) (t : Tile) : Mach :=
  if m.tiles.any (fun u => u.core == t.core && u.num == t.num) then
    { m with tiles := m.tiles.map (fun u => if u.core == t.core && u.num == t.num then t else u) }
  else { m with tiles := m.tiles ++ [t] }

/-- A format of elements. -/
def tileFmt (f16 : Bool) : Fmt := if f16 then fmtF16 else fmtF32

/-- The code of an element read in a format: a free value where nothing has been written since placement,
or where the contents were written in the other format (DESIGN CHOICE, log 4). -/
def Tile.get (t : Tile) (f16 : Bool) (e : Nat) : Nat :=
  let free := (Config.freshElement t.seed e).toNat
  let x := if t.cf = f16 then
      (match t.elems.find? (fun p => p.1 == e) with
       | some p => p.2.toNat
       | none => (match t.fill with
         | some v => v.toNat
         | none => free))
    else free
  x % pow2 (tileFmt f16).width

/-- Merge two rising lists of elements; the second wins. -/
def mergeElems : List (Nat × BitVec 32) → List (Nat × BitVec 32) → List (Nat × BitVec 32)
  | xs, [] => xs
  | xs, (k, v) :: r =>
    let below := xs.takeWhile (fun x => x.1 < k)
    let rest := (xs.dropWhile (fun x => x.1 < k)).filter (fun x => x.1 != k)
    below ++ (k, v) :: mergeElems rest r

/-- Write elements, in rising order, in a format. Contents in another format become free values. -/
def Tile.put (t : Tile) (f16 : Bool) (seed : Nat) (es : List (Nat × BitVec 32)) : Tile :=
  let t := if t.cf = f16 then t else { t with cf := f16, seed := seed, fill := none, elems := [] }
  { t with elems := mergeElems t.elems es }

/-! ## Regions (R237) -/

/-- The number of element (i, j) of a region in its tile. -/
def TileRegion.elem (r : TileRegion) (i j : Nat) : Nat := (r.row0 + i) * 128 + r.col0 + j

/-! ## OMAP (R238) -/

/-- A map's fields. -/
def OpMap.base (p : OpMap) : Nat := bitsAt p.a 0 32
def OpMap.sbase (p : OpMap) : Nat := bitsAt p.a 32 32
def OpMap.pitch (p : OpMap) : Nat := bitsAt p.b 0 32
def OpMap.klen (p : OpMap) : Nat := bitsAt p.b 32 32
def OpMap.perm (p : OpMap) : Nat := bitsAt p.c 0 2
def OpMap.kmaj (p : OpMap) : Bool := p.c.getLsbD 2
def OpMap.spitch (p : OpMap) : Nat := bitsAt p.c 16 16
def OpMap.xsbase (p : OpMap) : Nat := bitsAt p.c 32 32

/-- Does a map keep its limits? -/
def OpMap.ok (p : OpMap) : Bool :=
  let al := if p.perm = 0 then 16 else 128
  p.base % al == 0 && p.pitch % al == 0 && 16 ≤ p.pitch && p.pitch ≤ 1048560 &&
  1 ≤ p.klen && p.klen ≤ 65536 && bitsAt p.c 3 13 == 0

/-- The .core offset of element (k, x) of a map. -/
def OpMap.elem (p : OpMap) (es k x : Nat) : Nat :=
  p.base + permBank p.perm (if p.kmaj then x * p.pitch + k * es else k * p.pitch + x * es)

/-- OMAP: the slot is written at issue. -/
def execOmap (w : WordG) (s : State) : Host.Outcome State Fault Refusal :=
  memWord (.omap w) (fun c => do
    let p : OpMap := { a := fieldS c.g w.a, b := fieldS c.g w.b, c := fieldS c.g w.c }
    if !p.ok then trapWord c causeEngineArg
    modCur c (fun g => { g with m := vset g.m w.d.toNat (some p) })
    return c.run) s

/-! ## Which operations take turns on which tiles (R236, R243) -/

/-- The core's tile that a team's An names. -/
def Team.tile (t : Team) (n : Nat) : Nat := t.tiles.getD n 0

/-- The team that a peer drain names in its C register. -/
def Mach.drainTarget (m : Mach) (grid : BitVec 32) (x : Word) : Option Team :=
  m.ctx.teams.find? (fun t => t.grid == grid && t.lin == bitsAt x 0 32)

/-- The tiles that an operation takes its turn on: core, tile, and the number under which it reached it. A
peer drain holds its source tile until it has sent its rows, and its target tile from its first row on. -/
def Mach.tileUses (m : Mach) (o : Op) : List (Nat × Nat × Nat) :=
  match m.team? o.team with
  | none => []
  | some t =>
    let own (n : BitVec 8) : Nat × Nat × Nat := (o.core, t.tile n.toNat, o.seq)
    match o.instr with
    | .mma w => own w.d :: (if mBit w.mod 4 then [own w.a] else [])
    | .mzero w => [own w.d]
    | .mlda w => [own w.d]
    | .mdrain w =>
      if mBit w.mod 4 then
        (if o.recs.isEmpty then [own w.a] else []) ++
        (if o.aux = 0 then [] else match m.drainTarget o.grid o.cap.sc with
          | some u => [(u.core, u.tile (bitsAt o.cap.sc 32 3), o.aux)]
          | none => [])
      else [own w.a]
    | _ => []

/-- Is it an operation's turn on all its tiles: has every one that reached them before finished (R236)? One that has
stopped has not. -/
def Mach.tileTurn (m : Mach) (o : Op) : Bool :=
  (m.tileUses o).all (fun u => m.ctx.ops.all (fun p => p.id == o.id ||
    (m.tileUses p).all (fun v => v.1 != u.1 || v.2.1 != u.2.1 || u.2.2 ≤ v.2.2)))

/-- MACHINE_CHECK on a tile with an uncorrectable error that an operation reads (R372). -/
def tileCheck (m : Mach) (o : Op) : Elem :=
  match (m.tileUses o).find? (fun u => (m.tile u.1 u.2.1).bad) with
  | some u => .error (.trap m causeMachineCheck o.mask (2 + 256 * u.2.1))
  | none => .ok m

/-- An operation of the matrix engine goes on when its turn has come. -/
def Mach.advanceTile (m : Mach) (o : Op) (total : Nat) (limit : Option Nat) (lines : Nat → List Line)
    (elem : Mach → Op → Nat → Elem) : Mach :=
  if o.st = .running && !m.tileTurn o then m
  else m.advance o total limit lines (fun m o k => do elem (← tileCheck m o) o k) (fun _ _ => true)

/-! ## MMA (R239, R240) -/

/-- A format word's fields (R135). -/
structure FormatWord where
  afmt : Nat
  bfmt : Nat
  accf : Bool
  scm : Nat
  dcr : Nat
  dcs : Bool
  res : Nat
  deriving DecidableEq, Repr

/-- The fields of a format word. -/
def formatOf (x : Nat) : FormatWord :=
  { afmt := nbits x 26 6, bfmt := nbits x 20 6, accf := nbits x 19 1 == 1, scm := nbits x 16 3,
    dcr := nbits x 13 3, dcs := nbits x 12 1 == 1, res := nbits x 0 12 }

/-- The 8-bit class and the 16-bit class (R136). -/
def class8 (c : Nat) : Bool := c == 0 || c == 4 || (0x20 ≤ c && c ≤ 0x3B)
def class16 (c : Nat) : Bool := c == 0x0D || c == 0x0E

/-- Is a format word valid (R136)? -/
def FormatWord.ok (f : FormatWord) : Bool :=
  ((class8 f.afmt && class8 f.bfmt) || (class16 f.afmt && class16 f.bfmt)) &&
  f.scm ≤ 3 && (f.scm == 0 || class8 f.afmt) && f.dcr ≤ 4 && f.res == 0

/-- Element size, and chunk length. -/
def FormatWord.es (f : FormatWord) : Nat := if class8 f.afmt then 1 else 2
def FormatWord.chunk (f : FormatWord) : Nat := if class8 f.afmt then 32 else 16

/-- Does an MMA scale A, or B? -/
def FormatWord.scaleA (f : FormatWord) : Bool := f.scm % 2 == 1
def FormatWord.scaleB (f : FormatWord) : Bool := 2 ≤ f.scm

/-- The offset of a scale byte of A (or of a down-converted A), and of B (R240). -/
def scaleAddrA (asrc : Bool) (ma mb : OpMap) (i c : Nat) : Nat :=
  if asrc then mb.xsbase + c * mb.spitch + i else ma.sbase + c * ma.spitch + i
def scaleAddrB (mb : OpMap) (j c : Nat) : Nat := mb.sbase + c * mb.spitch + j

/-- The offsets of every element and scale byte that an MMA reads in one chunk: of A, of B, of the scales. -/
def chunkOffsets (f : FormatWord) (asrc : Bool) (ma mb : OpMap) (r : TileRegion) (c : Nat) :
    List Nat × List Nat × List Nat :=
  let ks := (List.range f.chunk).map (c * f.chunk + ·)
  (if asrc then [] else (List.range r.rows).flatMap (fun i => ks.map (fun k => ma.elem f.es k i)),
   (List.range r.cols).flatMap (fun j => ks.map (fun k => mb.elem f.es k j)),
   (if f.scaleA then (List.range r.rows).map (fun i => scaleAddrA asrc ma mb i c) else []) ++
   (if f.scaleB then (List.range r.cols).map (fun j => scaleAddrB mb j c) else []))

/-- The lowest offset at which an element or scale byte beyond the allocation begins. -/
def lowestBeyond (f : FormatWord) (asrc : Bool) (ma mb : OpMap) (r : TileRegion) (size : Nat) : Option Nat :=
  (List.range (mb.klen / f.chunk)).foldl (fun acc c =>
    let (xs, ys, zs) := chunkOffsets f asrc ma mb r c
    let low (acc : Option Nat) (l : List Nat) (n : Nat) : Option Nat := l.foldl (fun a x =>
      if size < x + n then some (match a with
        | some y => min x y
        | none => x) else a) acc
    low (low (low acc xs f.es) ys f.es) zs 1) none

/-- TILE_BOUND for An (R236). -/
def tileBound (c : Iss) (t : Team) (n : BitVec 8) : M Unit := do
  if t.tiles.length ≤ n.toNat then trapWord c causeTileBound

/-- MMA at issue. FORMAT_DIVERGENCE has the lanes that R136 names, not the whole run (DEDUCED, log 71). -/
def execMma (w : WordG) (s : State) : Host.Outcome State Fault Refusal :=
  memWord (.mma w) (fun c => do
    let t ← teamOf c
    if c.lanes != BitVec.allOnes 32 then trapWord c causeConvergence
    let asrc := mBit w.mod 4
    tileBound c t w.d
    if asrc then tileBound c t w.a
    if asrc && w.a == w.d then trapWord c causeTileAlias
    let fw (l : Nat) : Nat := src32 c c.g w.c l
    let diff := Mask.ofFn (fun l => fw l != fw 0)
    if diff != 0 then throw (.trap causeFormatDivergence diff c.word)
    let f := formatOf (fw 0)
    if !f.ok then trapWord c causeFormatInvalid
    if f.accf != ((← get).tile c.g.core (t.tile w.d.toNat)).f16 then trapWord c causeTileFormat
    let g ← curGroup c
    match vget g.m w.b.toNat none, (if asrc then vget g.m w.b.toNat none else vget g.m w.a.toNat none) with
    | some mb, some ma =>
      if mb.klen % f.chunk != 0 || (asrc && 128 < mb.klen) then trapWord c causeMap
      match lowestBeyond f asrc ma mb (regionOf w.mod) (t.csl * 64) with
      | some x => trapInfo causeAllocBound c.run x
      | none => pure ()
      let tf := asrc && ((← get).tile c.g.core (t.tile w.a.toNat)).f16
      let _ ← issueOp c (.mma w) Captured.none [] (fun o => { o with
        maps := [ma, mb], recs := [BitVec.ofNat 64 (fw 0)], aux := if tf then 1 else 0 })
    | _, _ => trapWord c causeMap
    return c.run) s

/-- The element size's number at a .core offset of an operation's team, as an engine read. -/
def opCore (dev : Device) (t : Team) (o : Op) (n : Nat) (m : Mach) (off : Nat) : Except Halt (Mach × Nat) := do
  let (m, bs) ← opRead dev m o o.mask (coreLoc t off) n off
  return (m, leNat bs)

/-- The numbers at a list of offsets. -/
def opCores (dev : Device) (t : Team) (o : Op) (n : Nat) (m : Mach) : List Nat → Except Halt (Mach × List Nat)
  | [] => .ok (m, [])
  | x :: r => do
    let (m, v) ← opCore dev t o n m x
    let (m, vs) ← opCores dev t o n m r
    return (m, v :: vs)

/-- One element's chunk sum: the exact products' sum, scaled (R137 to R139). -/
def chunkSum (as bs : List Num) (sa sb : Option Num) : Num :=
  let x := Num.sum false (as.zipWith Num.mul bs)
  let x := match sa with
    | some s => Num.mul x s
    | none => x
  match sb with
  | some s => Num.mul x s
  | none => x

/-- One chunk of an MMA (R240): operands read, region updated. -/
def mmaElem (dev : Device) (w : WordG) (m : Mach) (o : Op) (c : Nat) : Elem := do
  match m.team? o.team, o.maps with
  | some t, [ma, mb] =>
    let f := formatOf (o.recs.getD 0 0).toNat
    let asrc := mBit w.mod 4
    let r := regionOf w.mod
    let (xs, ys, zs) := chunkOffsets f asrc ma mb r c
    let (m, av) ← opCores dev t o f.es m xs
    let (m, bv) ← opCores dev t o f.es m ys
    let (m, sv) ← opCores dev t o 1 m zs
    let at' := m.tile o.core (t.tile w.a.toNat)
    let aty := (tyOfCode f.afmt).getD (.int 8)
    let bty := (tyOfCode f.bfmt).getD (.int 8)
    -- a down-converted A (R140)
    let down (i k : Nat) : Nat :=
      let tf := o.aux == 1
      roundTy aty f.dcr f.dcs ((tileFmt tf).decode (at'.get tf ((32 * bitsAt w.mod 2 2 + i) * 128 + k)))
    let aRow (i : Nat) : List Num := ((if asrc then (List.range f.chunk).map (fun k => down i (c * f.chunk + k))
      else (av.drop (i * f.chunk)).take f.chunk)).map (valOf aty)
    let bCol (j : Nat) : List Num := ((bv.drop (j * f.chunk)).take f.chunk).map (valOf bty)
    let scale := (fmtQ8 1 true true).decode
    let sa (i : Nat) : Option Num := if f.scaleA then some (scale (sv.getD i 0)) else none
    let sb (j : Nat) : Option Num :=
      if f.scaleB then some (scale (sv.getD (j + if f.scaleA then r.rows else 0) 0)) else none
    let d := m.tile o.core (t.tile w.d.toNat)
    let acc := tileFmt f.accf
    let new := (List.range r.rows).flatMap (fun i => (List.range r.cols).map (fun j =>
      let old := acc.decode (d.get f.accf (r.elem i j))
      (r.elem i j, BitVec.ofNat 32 (acc.round 0 false (Num.add false old (chunkSum (aRow i) (bCol j) (sa i) (sb j)))))))
    .ok (({ m with freeCtr := m.freeCtr + 1 }).setTile (d.put f.accf m.freeCtr new))
  | _, _ => .error (.wait m)

/-- An MMA goes on. -/
def progressMma (dev : Device) (w : WordG) (limit : Option Nat) (m : Mach) (o : Op) : Mach :=
  let f := formatOf (o.recs.getD 0 0).toNat
  m.advanceTile o (((o.maps.getD 1 { a := 0, b := 0, c := 0 }).klen) / f.chunk) limit (fun _ => []) (mmaElem dev w)

/-! ## MZERO and MLDA (R241) -/

/-- The checks of TILE_BOUND and TILE_FORMAT. -/
def regionChecks (c : Iss) (w : WordG) : M Team := do
  let t ← teamOf c
  tileBound c t w.d
  if mShp w.mod != 0 && mBit w.mod 4 != ((← get).tile c.g.core (t.tile w.d.toNat)).f16 then trapWord c causeTileFormat
  return t

/-- With SHP = 0 the tag is set at issue. -/
def setTag (c : Iss) (t : Team) (w : WordG) : M Unit := do
  if mShp w.mod = 0 then
    modify (fun m => m.setTile { m.tile c.g.core (t.tile w.d.toNat) with f16 := mBit w.mod 4 })

/-- MZERO at issue. -/
def execMzero (w : WordG) (s : State) : Host.Outcome State Fault Refusal :=
  memWord (.mzero w) (fun c => do
    let t ← regionChecks c w
    let _ ← issueOp c (.mzero w) Captured.none [] (fun o => o)
    setTag c t w
    return c.run) s

/-- MLDA at issue. -/
def execMlda (w : WordG) (s : State) : Host.Outcome State Fault Refusal :=
  memWord (.mlda w) (fun c => do
    let t ← regionChecks c w
    let cap := captureS c w
    let r := regionOf w.mod
    let es := if mBit w.mod 4 then 2 else 4
    checkAligned c 16 [cap.sa.toNat, cap.sb.toNat]
    if t.csl * 64 < cap.sa.toNat + (r.rows - 1) * cap.sb.toNat + r.cols * es then
      trapInfo causeAllocBound c.run cap.sa.toNat
    let _ ← issueOp c (.mlda w) cap [] (fun o => o)
    setTag c t w
    return c.run) s

/-- The whole effect of an MZERO: +0 in every element of its region. -/
def mzeroElem (w : WordG) (m : Mach) (o : Op) (_ : Nat) : Elem :=
  match m.team? o.team with
  | none => .ok m
  | some t =>
    let r := regionOf w.mod
    let d := m.tile o.core (t.tile w.d.toNat)
    let d := if mShp w.mod = 0 then { d with cf := mBit w.mod 4, bad := false, fill := some 0, elems := [] }
      else d.put (mBit w.mod 4) m.freeCtr
        ((List.range r.rows).flatMap (fun i => (List.range r.cols).map (fun j => (r.elem i j, (0 : BitVec 32)))))
    .ok (({ m with freeCtr := m.freeCtr + 1 }).setTile d)

/-- An MZERO goes on. -/
def progressMzero (w : WordG) (m : Mach) (o : Op) : Mach :=
  if o.st = .running && !m.tileTurn o then m
  else m.advance o 1 none (fun _ => []) (mzeroElem w) (fun _ _ => true)

/-- One row of an MLDA, copied exactly. -/
def mldaElem (dev : Device) (w : WordG) (m : Mach) (o : Op) (i : Nat) : Elem := do
  match m.team? o.team with
  | none => .ok m
  | some t =>
    let r := regionOf w.mod
    let es := if mBit w.mod 4 then 2 else 4
    let off := o.cap.sa.toNat + i * o.cap.sb.toNat
    let (m, bs) ← opRead dev m o o.mask (coreLoc t off) (r.cols * es) off
    let new := (List.range r.cols).map (fun j => (r.elem i j, BitVec.ofNat 32 (leNat ((bs.drop (j * es)).take es))))
    .ok (({ m with freeCtr := m.freeCtr + 1 }).setTile
      ((m.tile o.core (t.tile w.d.toNat)).put (mBit w.mod 4) m.freeCtr new))

/-- An MLDA goes on. -/
def progressMlda (dev : Device) (w : WordG) (limit : Option Nat) (m : Mach) (o : Op) : Mach :=
  m.advanceTile o (regionOf w.mod).rows limit (fun _ => []) (mldaElem dev w)

/-! ## MDRAIN (R242, R243) -/

/-- The formats that MDRAIN converts to. -/
def drainFmt (c : Nat) : Bool := class8 c || class16 c || c == 0x0C || c == 1 || c == 5 || c == 2 || c == 6

/-- The type of OFMT in an MDRAIN's B register. -/
def drainTy (x : Word) : Ty := (tyOfCode (bitsAt x 32 6)).getD .f32

/-- The lines that a drain has still to write from row `p` on. -/
def drainLines (t : Team) (r : TileRegion) (off pitch oes p : Nat) : List Line :=
  (List.range (r.rows - p)).flatMap (fun k => linesOf (coreLoc t (off + (p + k) * pitch)) (r.cols * oes))

/-- MDRAIN with PEER = 0 at issue. -/
def issueDrain (c : Iss) (w : WordG) (t : Team) : M Unit := do
  let cap := captureS c w
  let b := cap.sb
  if !drainFmt (bitsAt b 32 6) || 5 ≤ bitsAt b 38 3 || bitsAt b 42 22 != 0 then trapWord c causeEngineArg
  let off := cap.sd.toNat
  let pitch := bitsAt b 0 32
  checkAligned c 16 [off, pitch]
  let r := regionOf w.mod
  let oes := tyWidth (drainTy b) / 8
  if t.csl * 64 < off + (r.rows - 1) * pitch + r.cols * oes then trapInfo causeAllocBound c.run off
  let tf := ((← get).tile c.g.core (t.tile w.a.toNat)).f16
  let _ ← issueOwned c (.mdrain w) cap [] (ownable (drainLines t r off pitch oes 0)) (fun o =>
    { o with aux := if tf then 1 else 0 })

/-- MDRAIN with PEER = 1 at issue: the target team holds the drain until it has completed. -/
def issuePeerDrain (c : Iss) (w : WordG) (t : Team) : M Unit := do
  let cap := captureS c w
  let x := cap.sc
  if x.getLsbD 35 || bitsAt x 41 23 != 0 then trapWord c causeEngineArg
  match (← get).drainTarget t.grid x with
  | none => trapWord c causeDrainNoPeer
  | some u =>
    if u.tiles.length ≤ bitsAt x 32 3 then trapWord c causeDrainNoPeer
    if u.tid = t.tid && bitsAt x 32 3 = w.a.toNat then trapWord c causeTileAlias
    let tf := ((← get).tile c.g.core (t.tile w.a.toNat)).f16
    let id ← issueOp c (.mdrain w) { cap with sd := if tf then 1 else 0 } [] (fun o => o)
    modify (fun m => m.modTeam u.tid (fun u => { u with drains := u.drains ++ [id] }))

/-- MDRAIN. -/
def execMdrain (w : WordG) (s : State) : Host.Outcome State Fault Refusal :=
  memWord (.mdrain w) (fun c => do
    let t ← teamOf c
    tileBound c t w.a
    if mBit w.mod 4 then issuePeerDrain c w t else issueDrain c w t
    return c.run) s

/-- One row of a drain to the core store. -/
def mdrainElem (dev : Device) (w : WordG) (m : Mach) (o : Op) (i : Nat) : Elem :=
  match m.team? o.team with
  | none => .ok m
  | some t =>
    let r := regionOf w.mod
    let b := o.cap.sb
    let ty := drainTy b
    let oes := tyWidth ty / 8
    let tf := o.aux == 1
    let tile := m.tile o.core (t.tile w.a.toNat)
    let bs := (List.range r.cols).flatMap (fun j =>
      natLe oes (roundTy ty (bitsAt b 38 3) (b.getLsbD 41) ((tileFmt tf).decode (tile.get tf (r.elem i j)))))
    opWrite dev m o (coreLoc t (o.cap.sd.toNat + i * bitsAt b 0 32)) bs

/-- A peer drain ends: its region is released, it arrives on BN, its flag falls (R243). -/
def Mach.endPeerDrain (m : Mach) (o : Op) (arrive : Bool) : Mach :=
  let x := o.cap.sc
  match m.drainTarget o.grid x with
  | none => m.completeOp o
  | some u =>
    let m := m.modTeam u.tid (fun u => { u with drains := u.drains.filter (· != o.id) })
    let m := if arrive && x.getLsbD 40 then m.modBarrier (.team u.tid (bitsAt x 36 4)) Barrier.drain else m
    m.completeOp o

/-- A peer drain sends its rows from PIX on, once its turn on its source tile has come. -/
def sendRows (w : WordG) (m : Mach) (o : Op) : Mach :=
  let r := regionOf w.mod
  match m.team? o.team with
  | none => m
  | some t =>
    if o.st = .done then m.endPeerDrain o false
    else if o.st != .running || !o.recs.isEmpty then m
    else if r.rows ≤ o.pix then m.endPeerDrain o true
    else if !m.tileTurn o then m
    else if (m.tile o.core (t.tile w.a.toNat)).bad then m.stopOp o causeMachineCheck o.mask (2 + 256 * t.tile w.a.toNat)
    else
      let tf := o.cap.sd == 1
      let tile := m.tile o.core (t.tile w.a.toNat)
      m.modOp o.id (fun o => { o with recs := (List.range (r.rows - o.pix)).flatMap (fun i =>
        (List.range r.cols).map (fun j => BitVec.ofNat 64 (tile.get tf (r.elem (o.pix + i) j)))) })

/-- An MDRAIN goes on: the rows of a peer drain arrive one by one at the target. -/
def progressMdrain (dev : Device) (w : WordG) (limit : Option Nat) (m : Mach) (o : Op) : Mach :=
  if mBit w.mod 4 then sendRows w m o
  else
    let r := regionOf w.mod
    let oes := tyWidth (drainTy o.cap.sb) / 8
    m.advanceTile o r.rows limit
      (fun p => match m.team? o.team with
        | some t => drainLines t r o.cap.sd.toNat (bitsAt o.cap.sb 0 32) oes p
        | none => []) (mdrainElem dev w)

/-- A row of a peer drain at its target: with the first it reaches the tile; then the row is added, each
element rounded once (R243). -/
def drainRow (w : WordG) (m : Mach) (o : Op) (u : Team) : Mach :=
  let r := regionOf w.mod
  let m := if o.aux = 0 then { m.modOp o.id (fun o => { o with aux := m.nextId }) with nextId := m.nextId + 1 } else m
  match m.op? o.id with
  | none => m
  | some o =>
    let n := u.tile (bitsAt o.cap.sc 32 3)
    if !m.tileTurn o then m
    else if (m.tile u.core n).bad then m.stopOp o causeMachineCheck o.mask (2 + 256 * n)
    else
      let d := m.tile u.core n
      let fs := tileFmt (o.cap.sd == 1)
      let fd := tileFmt d.f16
      let new := (List.range r.cols).map (fun j =>
        let x := fs.decode (o.recs.getD j 0).toNat
        let e := r.elem o.pix j
        (e, BitVec.ofNat 32 (fd.round 0 false (Num.add false (fd.decode (d.get d.f16 e)) x))))
      let m := ({ m with freeCtr := m.freeCtr + 1 }).setTile (d.put d.f16 m.freeCtr new)
      let m := m.modOp o.id (fun o => { o with pix := o.pix + 1, recs := o.recs.drop r.cols })
      if r.rows ≤ o.pix + 1 then m.endPeerDrain { o with pix := o.pix + 1 } true else m

/-- PEER_DRAIN_ROW (R243). -/
def execPeerDrainRow (op : Nat) (s : State) : Host.Outcome State Fault Refusal :=
  match s.mach.op? op with
  | none => .next s
  | some o =>
    match o.instr with
    | .mdrain w =>
      match s.mach.drainTarget o.grid o.cap.sc with
      | none => .next s
      | some u =>
        if mBit w.mod 4 && o.st == .running && !o.recs.isEmpty then .next { s with mach := drainRow w s.mach o u }
        else .next s
    | _ => .next s

end Sys2Proof.Machine
end

