-- ==== Sys2Proof/Machine/Stream.lean ====
section
/-!
DEFINITION. The stream unit: SOPEN, SNEXT, SSKIP, SISECT, SUNION, SCLOSE, SSTAT, LISECT (R245 to R258,
R308 to R317).
-/
namespace Sys2Proof.Machine

/-! ## Order on one stream register (R311) -/

/-- The stream registers that an instruction names while it runs. -/
def streamRegs : Instr → List Nat
  | .sopen w => [w.d.toNat]
  | .snext w => [w.a.toNat]
  | .sskip w => [w.a.toNat]
  | .sisect w => [w.a.toNat, w.b.toNat]
  | .sunion w => [w.a.toNat, w.b.toNat]
  | _ => []

/-- Does an operation hold up later ones on its registers? Not while a kind-S trap of it is queued. -/
def Op.holdsStream (o : Op) (gid : Nat) (regs : List Nat) : Bool :=
  o.gid == gid && (streamRegs o.instr).any (fun n => regs.contains n) &&
  (match o.st with
   | .trapped => false
   | .done => false
   | _ => true)

/-- Is some stream register of a word waiting for an earlier instruction? -/
def Mach.streamBusy (m : Mach) (gid : Nat) (regs : List Nat) : Bool := m.ctx.ops.any (fun o => o.holdsStream gid regs)

/-- Does an operation wait for an earlier one on its registers? -/
def Mach.streamBehind (m : Mach) (o : Op) : Bool :=
  (m.ctx.ops.takeWhile (fun p => p.id != o.id)).any (fun p => p.holdsStream o.gid (streamRegs o.instr))

/-- Stream register `n` of a group. -/
def Group.stream (g : Group) (n : Nat) : Stream := vget g.f n Stream.closedReg

/-- Write a stream register. -/
def Mach.setStream (m : Mach) (gid n : Nat) (f : Stream) : Mach := m.modGroup gid (fun g => { g with f := vset g.f n f })

/-- The stream register of an operation's group. -/
def Mach.opStream (m : Mach) (o : Op) (n : Nat) : Stream := ((m.group? o.gid).map (·.stream n)).getD Stream.closedReg

/-- The check of R251: a CLOSED register raises STREAM_CLOSED; while an earlier instruction may still open
it the word waits. -/
def streamOpen (c : Iss) (n : Nat) : M Unit := do
  if ((← curGroup c).stream n).st = .closed then
    if (← get).streamBusy c.gid [n] then stall
    trapWord c causeStreamClosed

/-! ## Fields (R245, R249) -/

/-- KIND, BLD and SIZE of a specifier's first word. -/
def Stream.kind (f : Stream) : Nat := bitsAt f.spec0 62 2
def Stream.bld (f : Stream) : Nat := bitsAt f.spec0 56 4
def Stream.size (f : Stream) : Nat := bitsAt f.spec0 0 32
/-- The space of the arrays: DSPC in bit 60 of LSPEC. -/
def Stream.spc (f : Stream) : Nat := if f.spec0.getLsbD 60 then 0 else 2

/-- Words of 8 bytes read by an operation. -/
def opWords (dev : Device) (o : Op) (spc : Nat) (m : Mach) : List Nat → Except Halt (Mach × List Word)
  | [] => .ok (m, [])
  | a :: r => do
    let (m, l) ← opAddr dev m o o.mask spc .engineRead 8 a
    let (m, bs) ← opRead dev m o o.mask l 8 a
    let (m, ws) ← opWords dev o spc m r
    return (m, BitVec.ofNat 64 (leNat bs) :: ws)

/-- A 4-byte value read by an operation. -/
def opN32 (dev : Device) (m : Mach) (o : Op) (spc a : Nat) : Except Halt (Mach × Nat) := do
  let a := spAddr spc a
  let (m, l) ← opAddr dev m o o.mask spc .engineRead 4 a
  let (m, bs) ← opRead dev m o o.mask l 4 a
  return (m, leNat bs)

/-! ## Opening (R250, R312) -/

/-- Does a descriptor header keep its table, for level `k` and the space of SP? -/
def headerFits (ws : List Word) (k spc : Nat) : Bool :=
  let h := ws.getD 0 0
  bitsAt h 48 16 == 0xAE0D && bitsAt h 40 8 == 1 && bitsAt h 4 36 == 0 &&
  (ws.drop 1).all (· == 0) && bitsAt h 0 3 != 0 && k < bitsAt h 0 3 && h.getLsbD 3 == (spc == 0)

/-- Does a level specifier keep its table under parent `p`? -/
def specifierFits (ws : List Word) (k p spc : Nat) : Bool :=
  let s := ws.getD 0 0
  let pos := (ws.getD 1 0).toNat
  let crd := (ws.getD 2 0).toNat
  let kind := bitsAt s 62 2
  let bld := bitsAt s 56 4
  let size := bitsAt s 0 32
  (if kind = 2 then 2 ≤ bld && bld ≤ 4 && size ≤ pow2 (6 * bld) else bld == 0) &&
  bitsAt s 60 2 == 0 && bitsAt s 32 24 == 0 && ws.getD 3 0 == 0 &&
  (match kind with
   | 0 => pos == 0 && crd == 0
   | 1 => pos % 4 == 0 && crd % 4 == 0
   | 2 => pos % 64 == 0 && crd == 0
   | _ => pos == 0 && crd % 4 == 0) &&
  (spc == 2 || (pos < pow2 32 && crd < pow2 32)) &&
  (k != 0 || p == 0) && ((kind != 0 && kind != 2) || (p + 1) * size ≤ pow2 32)

/-- SOPEN at issue. -/
def execSopen (w : WordG) (s : State) : Host.Outcome State Fault Refusal :=
  memWord (.sopen w) (fun c => do
    let cap := captureS c w
    let a := spAddr (if mBit w.mod 0 then 0 else 2) cap.sa.toNat
    if a % 64 != 0 then trapInfo causeMisaligned c.run a
    if bitsAt cap.sb 35 29 != 0 then trapWord c causeEngineArg
    let _ ← issueOp c (.sopen w) cap [] (fun o => o)
    return c.run) s

/-- The whole open (R250): the header, the specifier, POS; then Fn is written. -/
def sopenElem (dev : Device) (w : WordG) (m : Mach) (o : Op) : Elem := do
  let spc := if mBit w.mod 0 then 0 else 2
  let a := spAddr spc o.cap.sa.toNat
  let p := bitsAt o.cap.sb 0 32
  let k := bitsAt o.cap.sb 32 3
  let (m, hs) ← opWords dev o spc m ((List.range 4).map (fun i => spAddr spc (a + 8 * i)))
  if !headerFits hs k spc then .error (.trap m causeStreamDesc o.mask a)
  else
    let (m, ws) ← opWords dev o spc m ((List.range 4).map (fun i => spAddr spc (a + 32 + 32 * k + 8 * i)))
    if !specifierFits ws k p spc then .error (.trap m causeStreamDesc o.mask a)
    else
      let s := ws.getD 0 0
      let pos := (ws.getD 1 0).toNat
      let (m, cur, fin) ← match bitsAt s 62 2 with
        | 1 => do
          let (m, x) ← opN32 dev m o spc (pos + 4 * p)
          let (m, y) ← opN32 dev m o spc (pos + 4 * p + 4)
          pure (m, x, y)
        | 3 => pure (m, p, p + 1)
        | _ => pure (m, 0, bitsAt s 0 32)
      let f : Stream :=
        { desc := BitVec.ofNat 64 a, st := if cur < fin then .opened else .done, lv := false,
          lev := BitVec.ofNat 3 k, ppos := BitVec.ofNat 32 p, fin := BitVec.ofNat 32 fin,
          cur := BitVec.ofNat 32 cur, lastc := 0,
          spec0 := s ||| (if spc = 0 then BitVec.ofNat 64 (pow2 60) else 0), spec1 := ws.getD 1 0,
          spec2 := ws.getD 2 0, spec3 := ws.getD 3 0 }
      .ok (m.setStream o.gid w.d.toNat f)

/-- A SOPEN goes on. -/
def progressSopen (dev : Device) (w : WordG) (m : Mach) (o : Op) : Mach :=
  if o.st = .running && m.streamBehind o then m
  else
    -- PIX counts nothing: a resumption performs the whole open again (R309)
    let o := if o.st = .running then { o with pix := 0 } else o
    (m.modOp o.id (fun p => { p with pix := o.pix })).advance o 1 none (fun _ => [])
      (fun m o _ => sopenElem dev w m o) (fun _ _ => true)

/-! ## The next entry (R246 to R248) -/

/-- An entry as read: its index (or coordinate), its coordinate, its child position. -/
structure Entry where
  idx : Nat
  crd : Nat
  pos : Nat
  deriving DecidableEq, Repr

/-- The word count of bitmap level `j` of a level of a size. -/
def bitmapWords (size : Nat) : Nat → Nat
  | 0 => (size + 63) / 64
  | j + 1 => (bitmapWords size j + 63) / 64

/-- The address of word `i` of bitmap level `j` in the fibre of parent `p`. -/
def bitmapAddr (f : Stream) (j i : Nat) : Nat :=
  let all := (List.range f.bld).foldl (fun a k => a + bitmapWords f.size k) 0
  let fb := (8 * all + 63) / 64 * 64
  let above := (List.range f.bld).foldl (fun a k => if j < k then a + bitmapWords f.size k else a) 0
  f.spec1.toNat + f.ppos.toNat * fb + 8 * (above + i)

/-- The first reachable leaf bit at or above coordinate `lo` under word `i` of bitmap level `j`; words that
end below `lo` are not read. -/
def bitmapFind (dev : Device) (o : Op) (f : Stream) (lo : Nat) : Nat → Nat → Mach → Except Halt (Mach × Option Nat)
  | 0, i, m => do
    let (m, ws) ← opWords dev o f.spc m [spAddr f.spc (bitmapAddr f 0 i)]
    let w := ws.getD 0 0
    return (m, ((List.range 64).map (fun b => 64 * i + b)).find? (fun x => w.getLsbD (x - 64 * i) && lo ≤ x))
  | j + 1, i, m => do
    let (m, ws) ← opWords dev o f.spc m [spAddr f.spc (bitmapAddr f (j + 1) i)]
    let w := ws.getD 0 0
    let span := pow2 (6 * (j + 1))
    (List.range 64).foldlM (fun (acc : Mach × Option Nat) b => do
      let k := 64 * i + b
      if acc.2.isSome || !w.getLsbD b || bitmapWords f.size j ≤ k || (k + 1) * span ≤ lo then return acc
      else bitmapFind dev o f lo j k acc.1) (m, none)

/-- The next entry, read but not checked; none when a bitmap has no further bit. -/
def nextEntry (dev : Device) (m : Mach) (o : Op) (f : Stream) : Except Halt (Mach × Option Entry) := do
  let e := f.cur.toNat
  match f.kind with
  | 0 => return (m, some { idx := e, crd := e, pos := f.ppos.toNat * f.size + e })
  | 2 => do
    let (m, r) ← bitmapFind dev o f e (f.bld - 1) 0 m
    return (m, r.map (fun c => { idx := c, crd := c, pos := f.ppos.toNat * f.size + c }))
  | _ => do
    let (m, x) ← opN32 dev m o f.spc (f.spec2.toNat + 4 * e)
    return (m, some { idx := e, crd := x, pos := e })

/-- Is an entry malformed (R248)? -/
def Stream.malformed (f : Stream) (x : Entry) : Bool :=
  f.kind != 0 && (f.size ≤ x.crd || (f.kind == 1 && f.lv && x.crd ≤ f.lastc.toNat))

/-- TRINFO of MALFORMED_COORD (R257). -/
def malformedInfo (f : Stream) (n : Nat) (x : Entry) : Nat := x.idx % pow2 32 * pow2 32 + f.lev.toNat * 256 + n

/-- A stream just after an entry is consumed (R249, R252). -/
def Stream.consume (f : Stream) (x : Entry) : Stream :=
  let cur := if f.kind = 0 || f.kind = 2 then x.crd + 1 else x.idx + 1
  { f with cur := BitVec.ofNat 32 cur, lastc := BitVec.ofNat 32 x.crd, lv := true,
           st := if f.fin.toNat ≤ cur then .done else f.st }

/-- A stream that has no further entry. -/
def Stream.exhaust (f : Stream) : Stream := { f with cur := f.fin, st := .done }

/-- Read and check the next entry of an OPEN stream register of an operation; a stream that has none
becomes DONE. -/
def takeEntry (dev : Device) (m : Mach) (o : Op) (n : Nat) : Except Halt (Mach × Option (Entry × Bool)) := do
  let f := m.opStream o n
  if f.st != .opened then return (m, none)
  else
    let (m, r) ← nextEntry dev m o f
    match r with
    | none => return (m.setStream o.gid n f.exhaust, none)
    | some x => return (m, some (x, f.malformed x))

/-- Consume an entry. -/
def Mach.eat (m : Mach) (o : Op) (n : Nat) (x : Entry) : Mach := m.setStream o.gid n ((m.opStream o n).consume x)

/-- The stop of MALFORMED_COORD. -/
def malformedStop {α : Type} (m : Mach) (o : Op) (n : Nat) (x : Entry) : Except Halt α :=
  .error (.trap m causeMalformed o.mask (malformedInfo (m.opStream o n) n x))

/-! ## Batches (R252 to R254, R313 to R315) -/

/-- Write values to consecutive V registers of one lane at once: a stopped batch has them (R256). -/
def Mach.deliverLane (m : Mach) (o : Op) (d lane : Nat) (vs : List Nat) : Mach :=
  m.modGroup o.gid (fun g => if g.retired then g else
    vs.zipIdx.foldl (fun g v => g.writeHome m.freeCtr (Mask.one lane) (o.base + d + v.2) (laneFn (fun _ => v.1))) g)

/-- The end of a batch: lanes without an entry get all ones, S[C] the count. -/
def endBatch (m : Mach) (o : Op) (d regs c : Nat) : Mach :=
  let rest := o.mask.lanes.drop o.pix
  let m := rest.foldl (fun m l => m.deliverLane o d l (List.replicate regs 4294967295)) m
  m.oweS o.id (c - 192) o.pix

/-- What one step of a stream instruction did. -/
inductive StreamStep where
  | more (m : Mach)
  | finished (m : Mach)
  deriving DecidableEq, Repr

/-- Deliver the values of the next lane of the batch. -/
def Mach.deliverNext (m : Mach) (o : Op) (d : Nat) (vs : List Nat) : Mach :=
  (m.deliverLane o d (o.mask.lanes.getD o.pix 0) vs).modOp o.id (fun o => { o with pix := o.pix + 1 })

/-- One step of SNEXT. -/
def snextStep (dev : Device) (w : WordG) (m : Mach) (o : Op) : Except Halt StreamStep := do
  let n := w.a.toNat
  let fin (m : Mach) : StreamStep := .finished (endBatch m o w.d.toNat 2 w.c.toNat)
  if o.mask.count ≤ o.pix then return fin m
  else
    let (m, r) ← takeEntry dev m o n
    match r with
    | none => return fin m
    | some (x, bad) =>
      if bad then malformedStop m o n x
      else return .more ((m.eat o n x).deliverNext o w.d.toNat [x.crd, x.pos])

/-- One step of SSKIP to coordinate `c`. -/
def sskipStep (dev : Device) (w : WordG) (m : Mach) (o : Op) : Except Halt StreamStep := do
  let n := w.a.toNat
  let c := bitsAt o.cap.sb 0 32
  let f := m.opStream o n
  let fin (m : Mach) (x : Nat) : StreamStep := .finished (m.oweS o.id (w.d.toNat - 192) x)
  if f.st != .opened then return fin m 4294967295
  else if f.kind = 0 then
    let new := min (max f.cur.toNat c) f.fin.toNat
    let g := if f.cur.toNat < new then f.consume { idx := new - 1, crd := new - 1, pos := 0 } else f
    return fin (m.setStream o.gid n g) (if g.st = .opened then g.cur.toNat else 4294967295)
  else
    let (m, r) ← takeEntry dev m o n
    match r with
    | none => return fin m 4294967295
    | some (x, bad) =>
      if bad then malformedStop m o n x
      else if c ≤ x.crd then return fin m x.crd
      else return .more (m.eat o n x)

/-- One step of SISECT or SUNION. -/
def mergeStep (dev : Device) (w : WordG) (union : Bool) (m : Mach) (o : Op) : Except Halt StreamStep := do
  let na := w.a.toNat
  let nb := w.b.toNat
  let none' := 4294967295
  let fin (m : Mach) : StreamStep := .finished (endBatch m o w.d.toNat 3 w.c.toNat)
  let isOpen (m : Mach) (n : Nat) : Bool := (m.opStream o n).st == .opened
  if o.mask.count ≤ o.pix || (!union && !(isOpen m na && isOpen m nb)) then return fin m
  else
    let (m, ra) ← takeEntry dev m o na
    let (m, rb) ← takeEntry dev m o nb
    let badA := (ra.map (·.2)).getD false
    let badB := (rb.map (·.2)).getD false
    match ra, rb with
    | none, none => return fin m
    | some (x, _), none =>
      if badA then malformedStop m o na x
      else if union then return .more ((m.eat o na x).deliverNext o w.d.toNat [x.crd, x.pos, none'])
      else return fin m
    | none, some (y, _) =>
      if badB then malformedStop m o nb y
      else if union then return .more ((m.eat o nb y).deliverNext o w.d.toNat [y.crd, none', y.pos])
      else return fin m
    | some (x, _), some (y, _) =>
      if badA && (!badB || na < nb) then malformedStop m o na x
      else if badB then malformedStop m o nb y
      else if x.crd = y.crd then
        return .more (((m.eat o na x).eat o nb y).deliverNext o w.d.toNat [x.crd, x.pos, y.pos])
      else if x.crd < y.crd then
        let m := m.eat o na x
        return .more (if union then m.deliverNext o w.d.toNat [x.crd, x.pos, none'] else m)
      else
        let m := m.eat o nb y
        return .more (if union then m.deliverNext o w.d.toNat [y.crd, none', y.pos] else m)

/-- Perform up to `fuel` steps. -/
def runStream (id : Nat) (step : Mach → Op → Except Halt StreamStep) : Nat → Mach → Mach
  | 0, m => m
  | fuel + 1, m =>
    match m.op? id with
    | none => m
    | some o =>
      if o.st != .running then m
      else match step m o with
        | .ok (.more m) => runStream id step fuel m
        | .ok (.finished m) => (match m.op? id with
          | some o => m.completeOp o
          | none => m)
        | .error (.wait m') => m.waits m'
        | .error (.trap m cause mask info) => m.stopOp o cause mask info
        | .error (.fault m va k cause lvl) => m.faultOp o va k cause lvl

/-- Steps that certainly end an instruction: every entry left, every lane, and the last look. -/
def streamFuel (m : Mach) (o : Op) : Nat :=
  (streamRegs o.instr).foldl (fun a n => a + ((m.opStream o n).fin.toNat - (m.opStream o n).cur.toNat)) 34

/-- A stream instruction goes on, in its turn on its registers. -/
def progressStream (limit : Option Nat) (step : Mach → Op → Except Halt StreamStep) (m : Mach) (o : Op) : Mach :=
  match o.st with
  | .done => m.completeOp { o with writes := [], lost := [] }
  | .running =>
    if m.streamBehind o then m
    else runStream o.id step (match limit with
      | some n => n
      | none => streamFuel m o) m
  | _ => m

/-! ## The words at issue -/

/-- SNEXT at issue. -/
def execSnext (w : WordG) (s : State) : Host.Outcome State Fault Refusal :=
  memWord (.snext w) (fun c => do
    streamOpen c w.a.toNat
    let _ ← issueOp c (.snext w) Captured.none
      (markV c [w.d.toNat, w.d.toNat + 1] ++ [.s (w.c.toNat - 192)]) (fun o => o)
    return c.run) s

/-- SSKIP at issue. -/
def execSskip (w : WordG) (s : State) : Host.Outcome State Fault Refusal :=
  memWord (.sskip w) (fun c => do
    streamOpen c w.a.toNat
    let _ ← issueOp c (.sskip w) (captureS c w) [.s (w.d.toNat - 192)] (fun o => o)
    return c.run) s

/-- The issue of a merge. -/
def issueMerge (i : Instr) (w : WordG) (c : Iss) : M Flow := do
  streamOpen c w.a.toNat
  streamOpen c w.b.toNat
  let _ ← issueOp c i Captured.none
    (markV c [w.d.toNat, w.d.toNat + 1, w.d.toNat + 2] ++ [.s (w.c.toNat - 192)]) (fun o => o)
  return c.run

/-- SISECT at issue. -/
def execSisect (w : WordG) (s : State) : Host.Outcome State Fault Refusal :=
  memWord (.sisect w) (issueMerge (.sisect w) w) s

/-- SUNION at issue. -/
def execSunion (w : WordG) (s : State) : Host.Outcome State Fault Refusal :=
  memWord (.sunion w) (issueMerge (.sunion w) w) s

/-- SCLOSE: waits for earlier instructions on its registers, then closes them (R251, R316). -/
def execSclose (w : WordG) (s : State) : Host.Outcome State Fault Refusal :=
  memWord (.sclose w) (fun c => do
    let regs := if mBit w.mod 0 then List.range 8 else [w.a.toNat]
    if (← get).streamBusy c.gid regs then stall
    modCur c (fun g => { g with f := regs.foldl (fun f n => vset f n Stream.closedReg) g.f })
    return c.run) s

/-- Word `k` of a stream register's 64 bytes (R249). -/
def Stream.word (f : Stream) (k : Nat) : Word :=
  let st : Nat := match f.st with
    | .closed => 0
    | .opened => 1
    | .done => 2
  match k with
  | 0 => f.desc
  | 1 => BitVec.ofNat 64 (st * pow2 62 + (if f.lv then pow2 61 else 0) + f.lev.toNat * pow2 56 + f.ppos.toNat)
  | 2 => BitVec.ofNat 64 (f.fin.toNat * pow2 32 + f.cur.toNat)
  | 3 => f.lastc.setWidth 64
  | 4 => f.spec0
  | 5 => f.spec1
  | 6 => f.spec2
  | _ => f.spec3

/-- SSTAT: the state after every earlier instruction on the register (R316). -/
def execSstat (w : WordG) (s : State) : Host.Outcome State Fault Refusal :=
  memWord (.sstat w) (fun c => do
    if (← get).streamBusy c.gid [w.a.toNat] then stall
    streamOpen c w.a.toNat
    let f := (← curGroup c).stream w.a.toNat
    modCur c (fun g => g.writeS (w.d.toNat - 192) (f.word (bitsAt w.mod 0 3)))
    return c.run) s

/-! ## LISECT (R255, R317) -/

/-- The merge of two lists: the matches, and how far each has been passed. -/
def listMerge (lt : Nat → Nat → Bool) (a b : List Nat) : Nat → Nat → Nat → List (Nat × Nat) × Nat × Nat
  | 0, i, j => ([], i, j)
  | fuel + 1, i, j =>
    match a[i]?, b[j]? with
    | some x, some y =>
      if x = y then
        let (ms, r) := listMerge lt a b fuel (i + 1) (j + 1)
        ((i, j) :: ms, r)
      else if lt x y then listMerge lt a b fuel (i + 1) j
      else listMerge lt a b fuel i (j + 1)
    | _, _ => ([], i, j)

/-- LISECT. -/
def execLisect (w : WordG) (s : State) : Host.Outcome State Fault Refusal :=
  memWord (.lisect w) (fun c => do
    let ls := c.lanes.lanes
    let vs (x : BitVec 8) : List Nat := ls.map (src32 c c.g x)
    let lt (x y : Nat) : Bool :=
      if mBit w.mod 0 then readTy (.int 32) x < readTy (.int 32) y else x < y
    let (ms, i, j) := listMerge lt (vs w.a) (vs w.b) 64 0 0
    let at' (l : Nat) : Nat × Nat := ms.getD (ls.findIdx (· == l)) (4294967295, 4294967295)
    modCur c (fun g =>
      let g := (g.writeV c.free c.lanes w.d.toNat (fun l => (at' l).1)).writeV c.free c.lanes (w.d.toNat + 1)
        (fun l => (at' l).2)
      (g.writeS (w.c.toNat - 192) (BitVec.ofNat 64 i)).writeS (w.c.toNat - 191) (BitVec.ofNat 64 j))
    return c.run) s

end Sys2Proof.Machine
end

