-- ==== Sys2Proof/Machine/Table.lean ====
section
/-!
DEFINITION. The hash unit and the retrieval tables: HFAM, HCODE, HPROBE, HINS, HDEL, HREH, HSYNC, and the
table requests at their homes (R259 to R267, R318 to R324).
-/
namespace Sys2Proof.Machine

/-! ## Hash families (R259, R319) -/

/-- A family record's fields, and whether it keeps its table (R259). -/
def familyOf (ws : List Word) : HashFam × Bool :=
  let a := ws.getD 0 0
  let b := ws.getD 1 0
  let f : HashFam := { planes := bitsAt a 0 32, pfmt := bitsAt b 58 6, dim := bitsAt b 32 16,
                       lt := bitsAt b 16 8, kb := bitsAt b 8 8 }
  let n := if class8 f.pfmt then 32 else 16
  (f, bitsAt a 32 32 == 0 && f.planes % 16 == 0 && (class8 f.pfmt || class16 f.pfmt) && bitsAt b 48 10 == 0 &&
    f.dim % n == 0 && n ≤ f.dim && f.dim ≤ 4096 && bitsAt b 24 8 == 0 && 1 ≤ f.lt && f.lt ≤ 16 && 1 ≤ f.kb &&
    f.kb ≤ 24 && bitsAt b 0 8 == 0 && (ws.drop 2).all (· == 0))

/-- Element size of a family. -/
def HashFam.es (f : HashFam) : Nat := if class8 f.pfmt then 1 else 2
/-- Chunk length of a family. -/
def HashFam.chunk (f : HashFam) : Nat := if class8 f.pfmt then 32 else 16

/-- HFAM (R319). -/
def execHfam (w : WordG) (s : State) : Host.Outcome State Fault Refusal :=
  memWord (.hfam w) (fun c => do
    let t ← teamOf c
    let a := (fieldS c.g w.a).toNat
    if a % 16 != 0 then trapInfo causeMisaligned c.run a
    if t.csl * 64 < a + 64 then trapInfo causeAllocBound c.run a
    let ws ← issueWords c (coreLoc t a) a 8
    let (f, ok) := familyOf ws
    if !ok then trapInfo causeFamily c.run a
    if t.csl * 64 < f.planes + f.lt * f.kb * f.dim * f.es then trapInfo causeAllocBound c.run f.planes
    modify (fun m => m.modTeam t.tid (fun t => { t with hash := vset t.hash w.d.toNat (some f) }))
    return c.run) s

/-! ## HCODE (R260, R320) -/

/-- The lanes of a list whose offset fails a test trap. -/
def checkLanes (cause : Nat) (xs : List (Nat × Nat)) (bad : Nat → Bool) : M Unit := checkAddr none cause xs bad

/-- HCODE at issue. -/
def execHcode (w : WordG) (s : State) : Host.Outcome State Fault Refusal :=
  memWord (.hcode w) (fun c => do
    let t ← teamOf c
    match vget t.hash w.b.toNat none with
    | none =>
      let n ← freeNat
      throw (.trap causeFamily c.run (Config.emptySlotInfo n))
    | some f =>
      let xs := c.lanes.lanes.map (fun l => (l, src32 c c.g w.a l))
      checkLanes causeMisaligned xs (fun a => a % 16 != 0)
      checkLanes causeAllocBound xs (fun a => t.csl * 64 < a + f.dim * f.es)
      let ds := (List.range f.lt).map (w.d.toNat + ·)
      if ds.any (fun j => c.g.framed ≤ j) then trapWord c causeFrameBound
      let g ← curGroup c
      if (markV c ds).any (fun r => g.marks.any (fun p => p.2 == r)) then stall
      let _ ← issueOp c (.hcode w) { Captured.none with va := [laneFn (fun l => src32 c c.g w.a l)] } (markV c ds)
        (fun o => { o with fam := some f })
      return c.run) s

/-- `n` elements of a size from a .core offset on, as an operation reads them. -/
def opElems (dev : Device) (t : Team) (o : Op) (m : Mach) (off es n : Nat) : Except Halt (Mach × List Nat) := do
  let (m, bs) ← opRead dev m o o.mask (coreLoc t off) (es * n) off
  return (m, (List.range n).map (fun k => leNat ((bs.drop (es * k)).take es)))

/-- The projection of a vector on a hyperplane: chunk by chunk, each sum rounded to f32 (R260). -/
def project (f : HashFam) (xs ps : List Num) : Nat :=
  (List.range (f.dim / f.chunk)).foldl (fun s c =>
    let cut (l : List Num) : List Num := (l.drop (c * f.chunk)).take f.chunk
    fmtF32.round 0 false (Num.add false (fmtF32.decode s) (chunkSum (cut xs) (cut ps) none none))) 0

/-- Is an f32 code above zero (NaN is not)? -/
def f32Positive (x : Nat) : Bool := 0 < x && x ≤ 0x7F800000

/-- The hyperplanes of a family, as read. -/
def readPlanes (dev : Device) (t : Team) (o : Op) (f : HashFam) (ty : Ty) (m : Mach) :
    Except Halt (Mach × List (List Num)) :=
  (List.range (f.lt * f.kb)).foldlM (fun acc h => do
    let (m, xs) ← opElems dev t o acc.1 (f.planes + h * f.dim * f.es) f.es f.dim
    return (m, acc.2 ++ [xs.map (valOf ty)])) (m, [])

/-- The whole effect of an HCODE. -/
def hcodeElem (dev : Device) (w : WordG) (m : Mach) (o : Op) (_ : Nat) : Elem := do
  match m.team? o.team, o.fam with
  | some t, some f =>
    let ty := (tyOfCode f.pfmt).getD (.int 8)
    let (m, planes) ← readPlanes dev t o f ty m
    let offs := o.cap.va.headD (laneFn (fun _ => 0))
    let (m, codes) ← o.mask.lanes.foldlM (fun (acc : Mach × List (Nat × List Nat)) l => do
      let (m, xs) ← opElems dev t o acc.1 (vget offs l 0).toNat f.es f.dim
      let x := xs.map (valOf ty)
      let code (t : Nat) : Nat := (List.range f.kb).foldl (fun a b =>
        if f32Positive (project f x (planes.getD (t * f.kb + b) [])) then a + pow2 b else a) 0
      return (m, acc.2 ++ [(l, (List.range f.lt).map code)])) (m, [])
    .ok ((List.range f.lt).foldl (fun m t => m.oweV o.id (o.base + w.d.toNat + t) o.mask (fun l =>
      ((codes.find? (fun p => p.1 == l)).map (fun p => p.2.getD t 0)).getD 0)) m)
  | _, _ => .ok m

/-- An HCODE goes on: whole or not at all. -/
def progressHcode (dev : Device) (w : WordG) (m : Mach) (o : Op) : Mach :=
  m.advanceWhole o (hcodeElem dev w)

/-! ## Descriptors (R261) -/

/-- What a table request knows of its table. -/
structure TableRef where
  /-- The word at 0x00. -/
  head : Word
  bkt : Nat
  ovf : Nat
  nbmax : Nat
  deriving DecidableEq, Repr

def TableRef.kb (t : TableRef) : Nat := bitsAt t.head 32 5
def TableRef.pol (t : TableRef) : Nat := bitsAt t.head 30 2
def TableRef.lvl (t : TableRef) : Nat := bitsAt t.head 24 5
def TableRef.scur (t : TableRef) : Nat := bitsAt t.head 0 24

/-- Does the word at 0x00 of a descriptor keep its table? -/
def tableHeadOk (x : Word) : Bool :=
  let kb := bitsAt x 32 5
  let n := bitsAt x 24 5
  bitsAt x 48 16 == 0xAE0E && bitsAt x 40 8 == 1 && bitsAt x 37 3 == 0 && 1 ≤ kb && kb ≤ 24 && bitsAt x 30 2 != 3 &&
  bitsAt x 29 1 == 0 && n ≤ 23 && n ≤ kb && bitsAt x 0 24 < pow2 n

/-- A descriptor's fields. -/
def tableOf (ws : List Word) : TableRef :=
  { head := ws.getD 0 0, bkt := (ws.getD 1 0).toNat, ovf := (ws.getD 2 0).toNat, nbmax := bitsAt (ws.getD 4 0) 0 32 }

/-- Does a descriptor keep its table? -/
def tableOk (ws : List Word) : Bool :=
  let t := tableOf ws
  tableHeadOk t.head && t.bkt % 4096 == 0 &&
  (if t.pol = 0 then t.ovf % 4096 == 0 else t.ovf == 0 && bitsAt (ws.getD 3 0) 32 32 == 0) &&
  bitsAt (ws.getD 4 0) 32 32 == 0 && pow2 t.lvl + t.scur ≤ t.nbmax && t.nbmax ≤ pow2 24 && (ws.drop 5).all (· == 0)

/-- The addresses of `n` descriptors, checked as records of 64 bytes. -/
def tableAddrs (c : Iss) (a n : Nat) : M (List (Nat × Loc)) := do
  let xs := (List.range n).map (fun t => (t, (a + 64 * t) % pow2 64))
  checkAddr (some c.run) causeAddrRange xs (fun a => pow2 56 ≤ a)
  checkAddr (some c.run) causeMisaligned xs (fun a => a % 64 != 0)
  let ls ← transLanes c .laneRead (some c.run) xs
  return ls.map (fun x => ((a + 64 * x.1) % pow2 64, x.2))

/-- A page of a table, translated as a read: it must be a die-store page. -/
def tablePage (c : Iss) (desc va : Nat) : M Unit := do
  checkAddr (some c.run) causeAddrRange [(0, va)] (fun a => pow2 56 ≤ a)
  let ls ← transLanes c .laneRead (some c.run) [(0, va)]
  if ls.any (fun x => x.2.space != .die) then trapInfo causeTable c.run desc

/-- Read and check descriptors. -/
def tableWords (c : Iss) : List (Nat × Loc) → M (List Word)
  | [] => return []
  | d :: r => do
    let ws ← issueWords c d.2 d.1 8
    if !tableOk ws then trapInfo causeTable c.run d.1
    return ws ++ (← tableWords c r)

/-- Check the pages that descriptors name. -/
def tablePages (c : Iss) (ws : List Word) : List (Nat × Loc) → M Unit
  | [] => pure ()
  | d :: r => do
    let t := tableOf ws
    tablePage c d.1 t.bkt
    if t.pol = 0 then tablePage c d.1 t.ovf
    tablePages c (ws.drop 8) r

/-- Read and check descriptors, then the pages that they name. -/
def tableRead (c : Iss) (ds : List (Nat × Loc)) : M (List Word) := do
  let out ← tableWords c ds
  tablePages c out ds
  return out

/-! ## HSYNC's order (R267, R324) -/

/-- The descriptors that a table request names. -/
def tableNames (o : Op) : List Word :=
  match o.instr with
  | .hins _ => [o.cap.sa]
  | .hdel _ => [o.cap.sa]
  | .hreh _ => [o.cap.sa]
  | _ => []

/-- A table request of a group waits for every HSYNC that the group issued before it, whatever table each names (R267,
R324). -/
def tableGate (c : Iss) : M Unit := do
  if (← get).ctx.ops.any (fun o => o.gid == c.gid && (match o.instr with
      | .hsync _ => true
      | _ => false)) then stall

/-- HSYNC at issue. -/
def execHsync (w : WordG) (s : State) : Host.Outcome State Fault Refusal :=
  memWord (.hsync w) (fun c => do
    let cap := captureS c w
    if cap.sa.toNat % 64 != 0 then trapInfo causeMisaligned c.run cap.sa.toNat
    let _ ← issueOp c (.hsync w) cap [] (fun o => o)
    return c.run) s

/-- An HSYNC completes once its group's earlier updates of the table have been performed. -/
def progressHsync (m : Mach) (o : Op) : Mach :=
  if m.ctx.ops.any (fun p => p.gid == o.gid && p.seq < o.seq && (tableNames p).contains o.cap.sa) then m
  else m.completeOp o

/-! ## Buckets (R262, R263) -/

/-- Why a table request does not perform. -/
inductive TableStop where
  /-- A line that an engine operation owns: later. -/
  | wait
  /-- An expander that does not answer holds the request at a location. -/
  | ask (l : Loc)
  /-- The request answers this status and changes nothing. -/
  | status (n : Nat)
  deriving DecidableEq, Repr

def stPresent : Nat := 1
def stAbsent : Nat := 2
def stSpilled : Nat := 3
def stEvicted : Nat := 4
def stRejected : Nat := 5
def stPoolFull : Nat := 6
def stCorrupt : Nat := 7
def stGrowFull : Nat := 8
def stTableFault : Nat := 9

/-- An entry of a bucket. -/
structure BucketEntry where
  id : Nat
  code : Nat
  age : Nat
  deriving DecidableEq, Repr

/-- A bucket as read. -/
structure Bucket where
  loc : Loc
  blv : Nat
  ovv : Bool
  ovx : Nat
  entries : List BucketEntry
  deriving DecidableEq, Repr

/-- Does ownership hold an operation's table request at the lines of `n` bytes? An update is held at every line that
another operation owns, a probe as R218 has it for reads by engines. -/
def Mach.tableHeld (m : Mach) (q : Op) (k : AccessKind) (l : Loc) (n : Nat) : Bool :=
  match k with
  | .laneRead => m.srcWaits q l n
  | _ => m.dstWaits q l n

/-- The place of a bucket for a request of operation `q`: 128 bytes on a die-store page. -/
def bucketLoc (dev : Device) (m : Mach) (q : Op) (k : AccessKind) (va : Nat) : Except TableStop Loc :=
  if pow2 56 ≤ va then .error (.status stTableFault)
  else if m.walkHeld dev va then .error .wait
  else match translateRaw dev m k va with
    | .error _ => .error (.status stTableFault)
    | .ok l =>
      if l.space != .die || m.mem.rangePoisoned l 128 then .error (.status stTableFault)
      else if m.tableHeld q k l 128 then .error .wait
      else .ok l

/-- Read a bucket at its home. -/
def readBucket (dev : Device) (m : Mach) (q : Op) (k : AccessKind) (va : Nat) : Except TableStop Bucket := do
  let l ← bucketLoc dev m q k va
  let h : Word := BitVec.ofNat 64 (m.mem.readNat l 4)
  return { loc := l, blv := bitsAt h 22 5, ovv := h.getLsbD 27, ovx := bitsAt h 0 22,
           entries := (List.range (bitsAt h 28 4)).map (fun s =>
             let x := m.mem.readNat (l.add (68 + 4 * s)) 4
             { id := m.mem.readNat (l.add (4 + 4 * s)) 4, code := x % pow2 24, age := x / pow2 28 }) }

/-- The 128 bytes of a bucket: its ID line and its code line. -/
def bucketBytes (b : Bucket) : List Byte :=
  let word (f : BucketEntry → Nat) (s : Nat) : Nat := ((b.entries[s]?).map f).getD 0
  natLe 4 (b.entries.length * pow2 28 + (if b.ovv then pow2 27 else 0) + b.blv * pow2 22 + b.ovx) ++
  (List.range 15).flatMap (fun s => natLe 4 (word (·.id) s)) ++ natLe 4 0 ++
  (List.range 15).flatMap (fun s => natLe 4 (word (fun e => e.age * pow2 28 + e.code) s))

/-- Write a bucket at its home. -/
def Mach.writeBucket (m : Mach) (b : Bucket) : Mach := m.writeBytes (bytesAt b.loc (bucketBytes b))

/-- Bucket(x) from the word at 0x00 (R263), with the number of bits used. -/
def startBucket (t : TableRef) (x : Nat) : Nat × Nat :=
  let b := x % pow2 t.lvl
  if b < t.scur then (x % pow2 (t.lvl + 1), t.lvl + 1) else (b, t.lvl)

/-- The bucket at which a request performs: forwarded while it finds a higher bucket level. Levels rise and
none passes KB, so 25 steps suffice. -/
def findBucket (dev : Device) (m : Mach) (q : Op) (k : AccessKind) (t : TableRef) (x : Nat) :
    Nat → Nat → Nat → Except TableStop Bucket
  | 0, _, _ => .error (.status stCorrupt)
  | fuel + 1, b, v => do
    let r ← readBucket dev m q k (t.bkt + 128 * b)
    if t.kb < r.blv || r.blv < v then .error (.status stCorrupt)
    else if r.blv = v then return r
    else findBucket dev m q k t x fuel (x % pow2 r.blv) r.blv

/-- The bucket of a code. -/
def bucketOf (dev : Device) (m : Mach) (q : Op) (k : AccessKind) (t : TableRef) (x : Nat) : Except TableStop Bucket :=
  let x := x % pow2 t.kb
  findBucket dev m q k t x 25 (startBucket t x).1 (startBucket t x).2

/-- The overflow bucket of a bucket. -/
def overflowOf (dev : Device) (m : Mach) (q : Op) (k : AccessKind) (t : TableRef) (b : Bucket) :
    Except TableStop (Option Bucket) :=
  if b.ovv then do
    let r ← readBucket dev m q k (t.ovf + 128 * b.ovx)
    return some r
  else .ok none

/-- Insert a number into a rising list, once. -/
def insertId (x : Nat) : List Nat → List Nat
  | [] => [x]
  | k :: r => if x = k then k :: r else if x < k then x :: k :: r else k :: insertId x r

/-- The ids that a probe finds: of the bucket and of its overflow bucket, rising and without repeats (R264). -/
def probeIds (dev : Device) (m : Mach) (q : Op) (t : TableRef) (x : Nat) : Except TableStop (List Nat) := do
  let b ← bucketOf dev m q .laneRead t x
  let o ← overflowOf dev m q .laneRead t b
  let all := b.entries ++ (match o with
    | some o => o.entries
    | none => [])
  return (all.map (·.id)).foldl (fun acc i => insertId i acc) []

/-! ## Inserts and deletes (R265, R322) -/

/-- Put an entry in its sorted place. -/
def enterSorted (e : BucketEntry) : List BucketEntry → List BucketEntry
  | [] => [e]
  | k :: r => if e.id < k.id then e :: k :: r else k :: enterSorted e r

/-- Insert an entry; under EVICT_OLDEST the others grow older. -/
def Bucket.enter (b : Bucket) (evict : Bool) (id code : Nat) : Bucket :=
  let old := if evict then b.entries.map (fun e => { e with age := e.age + 1 }) else b.entries
  { b with entries := enterSorted { id := id, code := code, age := 0 } old }

/-- Remove an id; under EVICT_OLDEST the older ones fall by 1. -/
def Bucket.remove (b : Bucket) (evict : Bool) (id : Nat) : Bucket :=
  let a := ((b.entries.find? (fun e => e.id == id)).map (·.age)).getD 0
  let rest := b.entries.filter (fun e => e.id != id)
  { b with entries := if evict then rest.map (fun e => { e with age := if a < e.age then e.age - 1 else e.age }) else rest }

/-- Does a bucket hold an id? -/
def Bucket.holds (b : Bucket) (id : Nat) : Bool := b.entries.any (fun e => e.id == id)

/-- Are the ages of a bucket 0 to CNT − 1, each once? -/
def Bucket.agesOk (b : Bucket) : Bool :=
  (List.range b.entries.length).all (fun a => b.entries.any (fun e => e.age == a))

/-- Raise OVU at the descriptor's home: the pool bucket taken, or why none is (R261, R265). -/
def raisePool (dev : Device) (m : Mach) (q : Op) (desc : Nat) : Except TableStop (Mach × Nat) :=
  match walkRaw dev m .laneWrite desc with
  | none => .error .wait
  | some (_, .error _) => .error (.status stTableFault)
  | some (m, .ok l) =>
    if m.tableHeld q .laneWrite l 64 then .error .wait
    else match m.homeRead dev (l.add 24) 8 with
      | none => .error (.ask l)
      | some (m, bs, bad) =>
        let x := leNat bs
        if !bad.isEmpty then .error (.status stTableFault)
        else if x / pow2 32 ≤ x % pow2 32 then .error (.status stPoolFull)
        else match m.homeWrite dev (l.add 24) ((natLe 8 (x + 1)).zipIdx.map (fun p => (p.2, p.1))) with
          | none => .error (.ask l)
          | some m => .ok (m, x % pow2 32)

/-- A pool bucket taken for bucket `b`, with its first entries. -/
def freshPool (dev : Device) (m : Mach) (q : Op) (t : TableRef) (desc : Nat) (b : Bucket) (es : List BucketEntry) :
    Except TableStop Mach := do
  let (m, x) ← raisePool dev m q desc
  let l ← bucketLoc dev m q .laneWrite (t.ovf + 128 * x)
  let p : Bucket := { loc := l, blv := b.blv, ovv := false, ovx := 0, entries := es }
  return (m.writeBucket p).writeBucket { b with ovv := true, ovx := x }

/-- One lane's insert or delete at its bucket: the status and the evicted id. -/
def updateTable (dev : Device) (m : Mach) (q : Op) (t : TableRef) (desc : Nat) (insert : Bool) (x id : Nat) :
    Except TableStop (Mach × Nat × Nat) := do
  let b ← bucketOf dev m q .laneWrite t x
  let o ← overflowOf dev m q .laneWrite t b
  let evict := t.pol == 1
  if evict && !b.agesOk then .error (.status stCorrupt)
  let code := x % pow2 t.kb
  let inOver := ((o.map (fun o => o.holds id)).getD false)
  if !insert then
    if b.holds id then return (m.writeBucket (b.remove evict id), 0, 0)
    else match o with
      | some o => if o.holds id then return (m.writeBucket (o.remove false id), 0, 0) else return (m, stAbsent, 0)
      | none => return (m, stAbsent, 0)
  else if b.holds id || inOver then return (m, stPresent, 0)
  else if b.entries.length < 15 then return (m.writeBucket (b.enter evict id code), 0, 0)
  else if evict then
    let out := ((b.entries.find? (fun e => e.age == 14)).map (·.id)).getD 0
    let rest := { b with entries := b.entries.filter (fun e => e.age != 14) }
    return (m.writeBucket (rest.enter true id code), stEvicted, out)
  else if t.pol = 2 then return (m, stRejected, 0)
  else match o with
    | some o =>
      if o.entries.length < 15 then return (m.writeBucket (o.enter false id code), stSpilled, 0)
      else return (m, stRejected, 0)
    | none => do
      let m ← freshPool dev m q t desc b [{ id := id, code := code, age := 0 }]
      return (m, stSpilled, 0)

/-- Issue a HINS or HDEL. -/
def issueUpdate (i : Instr) (w : WordG) (ds : List Nat) (c : Iss) : M Flow := do
  let a := (fieldS c.g w.a).toNat
  tableGate c
  let ws ← tableRead c (← tableAddrs c a 1)
  let cap := { captureS c w with vb := [laneFn (fun l => src32 c c.g w.b l)], vc := [laneFn (fun l => src32 c c.g w.c l)] }
  let _ ← issueOp c i cap (markV c ds) (fun o => { o with recs := ws })
  return c.run

/-- HINS at issue. -/
def execHins (w : WordG) (s : State) : Host.Outcome State Fault Refusal :=
  memWord (.hins w) (issueUpdate (.hins w) w [w.d.toNat, w.d.toNat + 1]) s

/-- HDEL at issue. -/
def execHdel (w : WordG) (s : State) : Host.Outcome State Fault Refusal :=
  memWord (.hdel w) (issueUpdate (.hdel w) w [w.d.toNat]) s

/-- Lane `l` of captured values. -/
def capLane (vs : List LaneVals) (l : Nat) : Nat := ((vs.head?).map (fun v => (vget v l 0).toNat)).getD 0

/-- Has a lane's request been performed? Its status is then owed. -/
def Op.laneDone (o : Op) (l : Nat) : Bool := o.writes.any (fun x => x.mask.has l)

/-- Does a lower lane that has not been performed name the same bucket? -/
def lowerFirst (dev : Device) (m : Mach) (o : Op) (t : TableRef) (l : Nat) : Bool :=
  let at' (l : Nat) : Option Loc := match bucketOf dev m o .laneWrite t (capLane o.cap.vb l) with
    | .ok b => some b.loc
    | .error _ => none
  (o.mask.lanes.filter (fun k => k < l && !o.laneDone k)).any (fun k => (at' k).isSome && at' k == at' l)

/-- One lane's table request, at its home. -/
def updateLane (dev : Device) (w : WordG) (insert : Bool) (m : Mach) (o : Op) (l : Nat) : Mach :=
  let t := tableOf o.recs
  if !o.mask.has l || o.laneDone l || m.writesBehind o || lowerFirst dev m o t l then m
  else
    let owe (m : Mach) (st out : Nat) : Mach :=
      let m := m.oweV o.id (o.base + w.d.toNat) (Mask.one l) (fun _ => st)
      if insert then m.oweV o.id (o.base + w.d.toNat + 1) (Mask.one l) (fun _ => out) else m
    match updateTable dev m o t o.cap.sa.toNat insert (capLane o.cap.vb l) (capLane o.cap.vc l) with
    | .ok (m, st, out) => owe m st out
    | .error (.status st) => owe m st 0
    | .error (.ask l) => m.askTier dev l
    | .error .wait => m

/-- A HINS or HDEL goes on: its lanes in turn; it completes when each has its status. -/
def progressUpdate (dev : Device) (w : WordG) (insert : Bool) (lanes : List Nat) (m : Mach) (o : Op) : Mach :=
  let m := lanes.foldl (fun m l => match m.op? o.id with
    | some o => updateLane dev w insert m o l
    | none => m) m
  match m.op? o.id with
  | some o => if o.mask.lanes.all (fun l => o.laneDone l) then m.completeOp o else m
  | none => m

/-! ## Splits (R266, R323) -/

/-- HREH at issue. -/
def execHreh (w : WordG) (s : State) : Host.Outcome State Fault Refusal :=
  memWord (.hreh w) (fun c => do
    let cap := captureS c w
    let a := cap.sa.toNat
    tableGate c
    let ds ← tableAddrs c a 1
    let ws ← tableRead c ds
    if 256 < cap.sb.toNat then trapWord c causeEngineArg
    let _ ← issueOp c (.hreh w) cap [.s (w.d.toNat - 192)] (fun o => { o with recs := ws })
    return c.run) s

/-- The ages of entries ranked again from 0, the order kept. -/
def rankAges (es : List BucketEntry) : List BucketEntry :=
  es.zipIdx.map (fun p => { p.1 with age := (es.zipIdx.filter (fun q =>
    q.1.age < p.1.age || (q.1.age == p.1.age && q.2 < p.2))).length })

/-- Entries after a split: ranked under EVICT_OLDEST. -/
def afterSplit (t : TableRef) (es : List BucketEntry) : List BucketEntry := if t.pol = 1 then rankAges es else es

/-- The descriptor's word at 0x00 with another level and cursor. -/
def tableHead (x : Word) (n c : Nat) : Word :=
  BitVec.ofNat 64 (x.toNat / pow2 29 * pow2 29 + n * pow2 24 + c)

/-- Write the descriptor's word at 0x00 at its home. -/
def writeHead (dev : Device) (m : Mach) (q : Op) (desc : Nat) (x : Word) : Except TableStop Mach :=
  match walkRaw dev m .laneWrite desc with
  | none => .error .wait
  | some (_, .error _) => .error (.status stTableFault)
  | some (m, .ok l) =>
    if m.tableHeld q .laneWrite l 64 then .error .wait
    else match m.homeRead dev l 8 with
      | none => .error (.ask l)
      | some (m, _, bad) =>
        if !bad.isEmpty then .error (.status stTableFault)
        else match m.homeWrite dev l ((natLe 8 x.toNat).zipIdx.map (fun p => (p.2, p.1))) with
          | none => .error (.ask l)
          | some m => .ok m

/-- One split (R266): the descriptor's new word and the machine after it. -/
def splitBucket (dev : Device) (m : Mach) (q : Op) (t : TableRef) (desc : Nat) : Except TableStop (Mach × Word) := do
  let n := t.lvl
  let c := t.scur
  if t.nbmax < pow2 n + c + 1 || t.kb < n + 1 then .error (.status stGrowFull)
  let b ← readBucket dev m q .laneWrite (t.bkt + 128 * c)
  if t.kb < b.blv || b.blv < n then .error (.status stCorrupt)
  let o ← overflowOf dev m q .laneWrite t b
  let l ← bucketLoc dev m q .laneWrite (t.bkt + 128 * (c + pow2 n))
  let goes (e : BucketEntry) : Bool := e.code / pow2 n % 2 == 1
  let ovf := (o.map (·.entries)).getD []
  let moved := (b.entries ++ ovf).filter goes |>.foldl (fun acc e => enterSorted e acc) []
  let keep := { b with blv := n + 1, entries := afterSplit t (b.entries.filter (fun e => !goes e)) }
  let new : Bucket := { loc := l, blv := n + 1, ovv := false, ovx := 0, entries := afterSplit t (moved.take 15) }
  let m ← if moved.length ≤ 15 then .ok (m.writeBucket new)
    else freshPool dev m q t desc new (moved.drop 15)
  let m := m.writeBucket keep
  let m := match o with
    | some o => m.writeBucket { o with entries := o.entries.filter (fun e => !goes e) }
    | none => m
  let x := if c + 1 = pow2 n then tableHead t.head (n + 1) 0 else tableHead t.head n (c + 1)
  let m ← writeHead dev m q desc x
  return (m, x)

/-- A HREH ends with a status and its count of splits. -/
def endHreh (w : WordG) (m : Mach) (o : Op) (st : Nat) : Mach :=
  let m := m.oweS o.id (w.d.toNat - 192) (st + o.pix * pow2 32)
  match m.op? o.id with
  | some o => m.completeOp o
  | none => m

/-- Up to `fuel` splits of a HREH; it ends after the last, or at the first that cannot be made. -/
def runSplits (dev : Device) (w : WordG) (id : Nat) : Nat → Mach → Mach
  | 0, m => m
  | fuel + 1, m =>
    match m.op? id with
    | none => m
    | some o =>
      if m.writesBehind o then m
      else if bitsAt o.cap.sb 0 32 ≤ o.pix then endHreh w m o 0
      else match splitBucket dev m o (tableOf o.recs) o.cap.sa.toNat with
        | .ok (m, x) =>
          runSplits dev w id fuel (m.modOp id (fun o => { o with pix := o.pix + 1, recs := x :: o.recs.drop 1 }))
        | .error (.status st) => endHreh w m o st
        | .error (.ask l) => m.askTier dev l
        | .error .wait => m

/-! ## HPROBE (R264, R321) -/

/-- Bytes of a probe block of `l` tables. -/
def blockBytes (l : Nat) : Nat := 256 + 120 * l

/-- The number of tables of an HPROBE. -/
def probeTables (w : WordG) : Nat := bitsAt w.mod 0 4 + 1

/-- The lanes whose block overlaps a lower lane's block. -/
def overlapping (xs : List (Nat × Nat)) (size : Nat → Nat) : Mask :=
  Mask.ofFn (fun l => xs.any (fun x => x.1 == l && xs.any (fun y => y.1 < l && y.2 < x.2 + size l && x.2 < y.2 + size y.1)))

/-- The lines of the blocks of lanes `ls`. -/
def blockLines (t : Team) (offs : Nat → Nat) (ls : List Nat) (n : Nat) : List Line :=
  ls.flatMap (fun l => linesOf (coreLoc t (offs l)) (blockBytes n))

/-- The descriptors of an HPROBE, read at issue, and its lanes' blocks, checked. -/
def hprobeRead (c : Iss) (t : Team) (w : WordG) : M (List Word) := do
  let n := probeTables w
  let a := (fieldS c.g w.a).toNat
  tableGate c
  let ds ← tableAddrs c a n
  let xs := c.lanes.lanes.map (fun l => (l, src32 c c.g w.d l))
  checkLanes causeMisaligned xs (fun a => a % 128 != 0)
  checkLanes causeAllocBound xs (fun a => t.csl * 64 < a + blockBytes n)
  let ws ← tableRead c ds
  let higher := overlapping xs (fun _ => blockBytes n)
  if higher != 0 then throw (.trap causeEngineArg higher c.word)
  return ws

/-- HPROBE at issue. -/
def execHprobe (w : WordG) (s : State) : Host.Outcome State Fault Refusal :=
  memWord (.hprobe w) (fun c => do
    let t ← teamOf c
    let n := probeTables w
    let off (l : Nat) : Nat := src32 c c.g w.d l
    let ws ← hprobeRead c t w
    let cap := { captureS c w with vd := [laneFn off], vb := vals c w.b n }
    let _ ← issueOwned c (.hprobe w) cap (markV c [w.c.toNat])
      (ownable (blockLines t off c.lanes.lanes n)) (fun o => { o with recs := ws ++ List.replicate 32 0 })
    return c.run) s

/-- The words of a probe block's header and level specifiers, and POS[0] (R264). -/
def blockHead (off n : Nat) : List Byte :=
  ([0xAE0D * pow2 48 + pow2 40 + 8 + 2, 0, 0, 0, n, 0, 0, 0, pow2 62 + 4294967295, off + 0x80, off + 0x100, 0] :
    List Nat).flatMap (natLe 8)

/-- What a unit's table gives: its ids, or the status bit of the lane that it sets. A unit of a resumed
HPROBE reads its descriptor's first word again. -/
def probeUnit (dev : Device) (m : Mach) (o : Op) (t code : Nat) : Except TableStop (List Nat) := do
  let ref := tableOf (o.recs.drop (8 * t))
  let head : Except TableStop Word :=
    if o.aux = 0 then .ok ref.head
    else if m.walkHeld dev ((o.cap.sa.toNat + 64 * t) % pow2 64) then .error .wait
    else match translateRaw dev m .laneRead ((o.cap.sa.toNat + 64 * t) % pow2 64) with
      | .error _ => .error (.status stTableFault)
      | .ok l => match m.homeRead dev l 8 with
        | none => .error (.ask l)
        | some (_, bs, bad) =>
          if !bad.isEmpty then .error (.status stTableFault)
          else
            let x : Word := BitVec.ofNat 64 (leNat bs)
            if tableHeadOk x then .ok x else .error (.status stCorrupt)
  let x ← head
  probeIds dev m o { ref with head := x } code

/-- One probe unit: (lane, table) pairs, lane-major. -/
def probeElem (dev : Device) (w : WordG) (m : Mach) (o : Op) (u : Nat) : Elem := do
  let n := probeTables w
  let lane := o.mask.lanes.getD (u / n) 0
  let t := u % n
  let off := capLane o.cap.vd lane
  match m.team? o.team with
  | none => .ok m
  | some team =>
    let found := if m.writesBehind o then .error .wait else probeUnit dev m o t (capLane (o.cap.vb.drop t) lane)
    let m ← match found with
      | .error .wait => .error (.wait m)
      | .error (.ask l) => .error (.wait (m.askTier dev l))
      | _ => .ok m
    let (ids, bit) : List Nat × Nat := match found with
      | .ok ids => (ids, 0)
      | .error (.status 9) => ([], pow2 (16 + t))
      | .error _ => ([], pow2 t)
    let at' (k : Nat) : Loc := coreLoc team (off + k)
    let m ← if t = 0 then do
        let m ← opWrite dev m o (at' 0) (blockHead off n)
        opWrite dev m o (at' 0x80) (natLe 4 0)
      else .ok m
    let (m, bs) ← opRead dev m o o.mask (at' (0x80 + 4 * t)) 4 (off + 0x80 + 4 * t)
    let p := leNat bs
    let m ← opWrite dev m o (at' (0x100 + 4 * p)) (ids.flatMap (natLe 4))
    let m ← opWrite dev m o (at' (0x84 + 4 * t)) (natLe 4 (p + ids.length))
    let k := 8 * n + lane
    -- a unit performed again answers anew for its table (R367)
    let st := (o.recs.getD k 0).toNat &&& (pow2 32 - 1 - pow2 t - pow2 (16 + t)) ||| bit
    let m := m.modOp o.id (fun o => { o with recs := o.recs.set k (BitVec.ofNat 64 st) })
    if t + 1 = n then
      let lines := linesOf (at' 0) (blockBytes n)
      .ok ({ m with own := m.own.filter (fun p => p.2 != o.id || !lines.contains p.1) }.oweV o.id
        (o.base + w.c.toNat) (Mask.one lane) (fun _ => st))
    else .ok m

/-- An HPROBE goes on, unit by unit. -/
def progressHprobe (dev : Device) (w : WordG) (limit : Option Nat) (m : Mach) (o : Op) : Mach :=
  let n := probeTables w
  m.advance o (o.mask.count * n) limit
    (fun p => match m.team? o.team with
      | some t => blockLines t (capLane o.cap.vd) (o.mask.lanes.drop (p / n)) n
      | none => []) (probeElem dev w) (fun _ _ => true)

/-! ## TABLE_REQUEST -/

/-- TABLE_REQUEST (R265): a unit of an operation performs: the next probe unit, a lane's insert or delete, the
next split. -/
def execTableRequest (op unit : Nat) (s : State) : Host.Outcome State Fault Refusal :=
  match s.mach.op? op with
  | none => .next s
  | some o =>
    if o.st != .running then .next s
    else
      let m := s.mach
      match o.instr with
      | .hprobe w => .next { s with mach := if unit = o.pix then progressHprobe s.dev w (some 1) m o else m }
      | .hins w => .next { s with mach := progressUpdate s.dev w true [unit] m o }
      | .hdel w => .next { s with mach := progressUpdate s.dev w false [unit] m o }
      | .hreh w => .next { s with mach := if unit = o.pix then runSplits s.dev w op 1 m else m }
      | _ => .next s

end Sys2Proof.Machine
end

