-- ==== Sys2Proof/Machine/Ray.lean ====
section
/-!
DEFINITION. Rays: RAYE, ANYR, TRBEGIN, TRPUB, and the steps of the cellars that accept, queue, stage,
traverse, forward, spill and end rays (R284 to R297, R326 to R328).
-/
namespace Sys2Proof.Machine

/-! ## What a cellar reads (R286) -/

/-- A cellar's read of .glob memory. -/
inductive CellarRead where
  /-- An expander does not answer yet. -/
  | wait (l : Loc)
  | fail
  /-- A line is poisoned: the machine after the read. -/
  | poison (m : Mach)
  /-- The machine after the read, and the bytes. -/
  | ok (m : Mach) (bs : List Byte)
  deriving Repr

/-- The place of a .glob address for a cellar: a peer counts as a failed translation, and so does a page that
nobody serves. -/
def cellarLoc (dev : Device) (m : Mach) (va : Nat) : Option Loc :=
  if pow2 56 ≤ va then none
  else match translateRaw dev m .engineRead va with
    | .error _ => none
    | .ok l =>
      match l.space with
      | .peer _ => none
      | _ => if served dev m l = .absent then none else some l

/-- Does ownership hold a cellar's read for an operation (R218)? -/
def Mach.cellarHeld (m : Mach) (q : Option Op) (l : Loc) (n : Nat) : Bool :=
  match q with
  | some o => m.srcWaits o l n
  | none => (linesOf l n).any (fun ln => (m.ownerOf ln).isSome)

/-- A read of `n` bytes that do not cross a page, for an operation. -/
def cellarRead (dev : Device) (m : Mach) (q : Option Op) (va n : Nat) : CellarRead :=
  if m.walkHeld dev va then .wait (rootLoc dev)
  else match cellarLoc dev m va with
  | none => .fail
  | some l =>
    if m.cellarHeld q l n then .wait l
    else match (m.touchWalk dev va).homeRead dev l n with
      | none => .wait l
      | some (m, bs, bad) => if bad.isEmpty then .ok m bs else .poison m

/-- A read that finds an expander silent waits there. -/
def Mach.askRead (dev : Device) (m : Mach) (va : Nat) : Mach :=
  match cellarLoc dev m va with
  | some l => m.askTier dev l
  | none => m

/-- A scene entry (R284). -/
structure Scene where
  gen : Nat
  ttb : Nat
  v : Bool
  root : Nat
  nt : Nat
  deriving DecidableEq, Repr

/-- A treelet's table entry (R284). -/
structure TreeletEntry where
  tva : Nat
  v : Bool
  stk : Nat
  sz : Nat
  deriving DecidableEq, Repr

/-- Two little-endian words of 16 bytes. -/
def twoWords (bs : List Byte) : Word × Word := (BitVec.ofNat 64 (leNat (bs.take 8)), BitVec.ofNat 64 (leNat (bs.drop 8)))

/-- The read of entry `k` of the scene table, as the cellar of a stack sees it. -/
def readScene (dev : Device) (m : Mach) (q : Option Op) (stack k : Nat) : CellarRead :=
  cellarRead dev m q ((vget dev.cellars stack CellarRegs.reset).scn.toNat * 4096 + 16 * k) 16

/-- A scene entry's fields; its res bits are ignored (DEDUCED, log 50). -/
def sceneOf (bs : List Byte) : Scene :=
  let (a, b) := twoWords bs
  { gen := bitsAt a 56 8, ttb := bitsAt a 0 56, v := b.getLsbD 63, root := bitsAt b 24 24, nt := bitsAt b 0 24 }

/-- A treelet entry's fields; its res bits are ignored (DEDUCED, log 50). -/
def treeletOf (bs : List Byte) : TreeletEntry :=
  let (a, b) := twoWords bs
  { tva := bitsAt a 0 56, v := b.getLsbD 63, stk := bitsAt b 56 3, sz := bitsAt b 32 7 }

/-! ## Ends of rays (R288) -/

/-- STATUS codes of a final record. -/
def rayHit : Nat := 0
def rayMiss : Nat := 1
def rayTreeletFault : Nat := 2
def rayGenStale : Nat := 3
def raySceneInvalid : Nat := 4
def rayPoison : Nat := 5

/-- Change a ray. -/
def Mach.modRay (m : Mach) (id : Nat) (f : Ray → Ray) : Mach :=
  { m with ctx := { m.ctx with rays := m.ctx.rays.map (fun r => if r.id == id then f r else r) } }

/-- The ray of a name. -/
def Mach.ray? (m : Mach) (id : Nat) : Option Ray := m.ctx.rays.find? (fun r => r.id == id)

/-- The fields T, PRIM, INST, U, V of a final record. A MISS has its own; a HIT and an end that keeps the best
hit have the committed ones; T of a ray that has been accepted is HT; no value is stated of the rest. -/
def recordFields (m : Mach) (r : Ray) (status : Nat) : List Nat :=
  let free (k : Nat) : Nat := (Config.recordField (m.freeCtr + k)).toNat
  if status = rayMiss then [0x7F800000, 4294967295, 4294967295, 0, 0]
  else if r.hit then [r.ht, r.hprim, r.hinst, r.hu, r.hv].map (·.toNat)
  else [if status = rayGenStale || status = raySceneInvalid || r.nt = 0 then free 0 else r.ht.toNat,
        free 1, free 2, free 3, free 4]

/-- A RAYE completes when its last ray has ended (R326). -/
def Mach.rayeDone (m : Mach) (op : Nat) : Mach :=
  match m.op? op with
  | none => m
  | some o =>
    if o.st == .running && o.mask.count ≤ o.pix && m.ctx.rays.all (fun r => r.op != op) then m.completeOp o else m

/-- A ray ends: its final record is written whole, its slot line is released (R288). -/
def Mach.endRay (m : Mach) (r : Ray) (status : Nat) : Mach :=
  let bs := (recordFields m r status ++ [r.rayid.toNat, status + 256 * r.tv, 0]).flatMap (natLe 4)
  let m := match m.team? r.team with
    | some t => m.writeBytes (bytesAt (coreLoc t r.slot) bs)
    | none => m
  let m := m.dropOwn r.id
  let m : Mach := { m with
    freeCtr := m.freeCtr + 5
    ctx := { m.ctx with rays := m.ctx.rays.filter (fun q => q.id != r.id) } }
  m.rayeDone r.op

/-! ## Queues (R291, R292, R294) -/

/-- The table entry of a ray's treelet, which is what names a treelet (R284, R328): scenes with one treelet
table share its treelets. -/
def Ray.entry (r : Ray) : Nat := r.ttb + 16 * r.treelet

/-- A treelet's state; one that nothing has closed or published is open, version 0. -/
def Mach.treelet (m : Mach) (entry : Nat) : TreeletSt :=
  (m.ctx.treelets.find? (fun x => x.entry == entry)).getD { entry := entry, closed := false, version := 0 }

/-- Set a treelet's state. -/
def Mach.setTreelet (m : Mach) (x : TreeletSt) : Mach :=
  let others := m.ctx.treelets.filter (fun y => y.entry != x.entry)
  { m with ctx := { m.ctx with treelets := others ++ [x] } }

/-- Ray entries that a cellar's queues hold (R287). -/
def queueRoom : Nat := 131072

/-- Is a ray in the queue memory of a stack? -/
def Ray.inQueues (r : Ray) (stack : Nat) : Bool :=
  r.stack == stack && (match r.st with
    | .queued => true
    | .held => true
    | .parked => true
    | .inside => true
    | _ => false)

/-- Is a ray in the spill region of a stack? -/
def Ray.spilledAt (r : Ray) (stack : Nat) : Bool := r.stack == stack && r.st == .spilled

/-- The staged copy of a treelet's version at a stack. -/
def Mach.stagedCopy (m : Mach) (stack entry version : Nat) : Option Staged :=
  m.staged.find? (fun s => s.stack == stack && s.entry == entry && s.version == version)

/-- Is a ray inside a staged copy: traversing it, or parked on a callback in it (R294, R297)? -/
def Mach.insideCopy (m : Mach) (r : Ray) : Bool :=
  (r.st == .inside || r.st == .parked) && !r.ended && r.version != 0 &&
    (m.stagedCopy r.stack r.entry (r.version - 1)).isSome

/-- A ray is written to the spill region of a stack, last in the order of spilling (R292, R297). -/
def Mach.spillRay (m : Mach) (id stack : Nat) : Mach :=
  let (k, m) := m.fresh
  m.modRay id (fun r => { r with st := .spilled, stack := stack, arrived := m.cyc.toNat, spillSeq := k })

/-- A ray arrives at the cellar of `stack` for its treelet: faulty treelets end it, an entry that names
another stack forwards it, a full or spilling cellar spills it, a closed treelet holds it. -/
def Mach.arriveRay (dev : Device) (m : Mach) (r : Ray) (stack : Nat) (refill : Bool) : Mach :=
  if r.nt ≤ r.treelet then m.endRay r rayTreeletFault
  else match cellarRead dev m (m.op? r.op) (r.ttb + 16 * r.treelet) 16 with
    | .wait l => m.askTier dev l
    | .fail => m.endRay r rayTreeletFault
    | .poison m => m.endRay r rayPoison
    | .ok m1 bs =>
      let e := treeletOf bs
      if !e.v then m1.endRay r rayTreeletFault
      else if e.stk != stack then m1.modRay r.id (fun r => { r with st := .moving, stack := e.stk })
      else
        let spills := m.ctx.rays.any (fun q => q.id != r.id && q.spilledAt stack)
        let full := queueRoom ≤ (m.ctx.rays.filter (fun q => q.id != r.id && q.inQueues stack)).length
        let st : RaySt := if (m.treelet r.entry).closed then .held else .queued
        if full && refill then m
        else if full || (spills && !refill) then m1.spillRay r.id stack
        else m1.modRay r.id (fun r => { r with st := st, stack := stack, arrived := m.cyc.toNat })

/-! ## RAYE (R326) -/

/-- Is the ray path enabled (R273)? -/
def rayPath (dev : Device) : Bool := dev.cellars.all (fun c => dev.rmax.toNat * 256 ≤ c.spn.toNat * 65536)

/-- The checks of lanes' slot offsets. -/
def slotChecks (c : Iss) (t : Team) (x : BitVec 8) : M (List (Nat × Nat)) := do
  let xs := c.lanes.lanes.map (fun l => (l, src32 c c.g x l))
  checkLanes causeMisaligned xs (fun a => a % 64 != 0)
  checkLanes causeAllocBound xs (fun a => t.csl * 64 < a + 64)
  return xs

/-- The slot lines of lanes. -/
def slotLines (t : Team) (offs : List Nat) : List Line := offs.map (fun a => lineOf (coreLoc t a))

/-- RAYE at issue. -/
def execRaye (w : WordG) (s : State) : Host.Outcome State Fault Refusal :=
  memWord (.raye w) (fun c => do
    let t ← teamOf c
    let xs ← slotChecks c t w.c
    let d := fieldS c.g w.d
    if bitsAt d 28 36 != 0 then trapWord c causeEngineArg
    let higher := Mask.ofFn (fun l => xs.any (fun x => x.1 == l && xs.any (fun y => y.1 < l && y.2 == x.2)))
    if higher != 0 then throw (.trap causeEngineArg higher c.word)
    if !rayPath c.dev then trapWord c causeEngineArg
    let cap := { captureS c w with
      va := vals c w.a 8, vb := vals c w.b 1, vc := [laneFn (fun l => src32 c c.g w.c l)] }
    let _ ← issueOwned c (.raye w) cap [] (ownable (slotLines t (xs.map (·.2)))) (fun o => o)
    return c.run) s

/-- The ray of one lane of a RAYE, as it is sent (R287). -/
def rayOf (m : Mach) (o : Op) (id lane : Nat) : Ray :=
  let v (k : Nat) : Slice := vget (o.cap.va.getD k (laneFn (fun _ => 0))) lane 0
  let w := o.cap.sd
  { id := id, op := o.id, team := o.team, core := o.core, lane := lane, slot := capLane o.cap.vc lane,
    gsl := o.quarter * 32 + o.slot, ox := v 0, oy := v 1, oz := v 2, dx := v 3, dy := v 4, dz := v 5,
    tmin := v 6, tmax := v 7, flags := BitVec.ofNat 8 (bitsAt w 24 8), gen := BitVec.ofNat 8 (bitsAt w 16 8),
    scene := BitVec.ofNat 8 (bitsAt w 8 8), mask := BitVec.ofNat 8 (bitsAt w 0 8),
    rayid := BitVec.ofNat 32 (capLane o.cap.vb lane), stack := 2 * (o.core / 16), ttb := 0, nt := 0, treelet := 0,
    ht := 0, hprim := 0, hinst := 0, hu := 0, hv := 0, hit := false, tv := 0, cont := [], st := .sent,
    cand := [], cbseq := 0, version := 0, arrived := m.cyc.toNat, spillSeq := 0, ended := false }

/-- One ray is sent once fewer than RMAX are in flight and the writes before its word have been performed (R326, R342); its
slot line passes to it. -/
def raySendElem (dev : Device) (m : Mach) (o : Op) (k : Nat) : Elem :=
  if dev.rmax.toNat ≤ m.ctx.rays.length || m.writesBehind o then .error (.wait m)
  else match m.team? o.team with
    | none => .ok m
    | some t =>
      let (id, m) := m.fresh
      let r := rayOf m o id (o.mask.lanes.getD k 0)
      let ln := lineOf (coreLoc t r.slot)
      .ok { m with
        own := m.own.map (fun p => if p.1 == ln && p.2 == o.id then (ln, id) else p),
        ctx := { m.ctx with rays := m.ctx.rays ++ [r] } }

/-- A RAYE goes on: it sends its rays, and completes when all have ended. -/
def progressRaye (dev : Device) (limit : Option Nat) (m : Mach) (o : Op) : Mach :=
  m.advance o o.mask.count limit
    (fun p => match m.team? o.team with
      | some t => slotLines t ((o.mask.lanes.drop p).map (capLane o.cap.vc))
      | none => []) (raySendElem dev) (fun m o => m.ctx.rays.all (fun r => r.op != o.id))

/-- RAY_SEND (R292). -/
def execRaySend (op : Nat) (s : State) : Host.Outcome State Fault Refusal :=
  if s.dev.ctxst != .running then .next s else
  match s.mach.op? op with
  | none => .next s
  | some o =>
    match o.instr with
    | .raye _ => .next { s with mach := if o.st = .running then progressRaye s.dev (some 1) s.mach o else s.mach }
    | _ => .next s

/-! ## Acceptance (R289) -/

/-- Is an f32 code finite? -/
def f32Finite (x : Slice) : Bool :=
  match fmtF32.decode x.toNat with
  | .fin _ _ _ => true
  | _ => false

/-- Is an f32 code a NaN? -/
def f32Nan (x : Slice) : Bool := (fmtF32.decode x.toNat).isNan

/-- The cellar of stack 2d accepts a ray, which arrives or with `refill` returns from the spill region (R289, R297). -/
def acceptRay (dev : Device) (m : Mach) (r : Ray) (refill : Bool) : Mach :=
  if !([r.ox, r.oy, r.oz, r.dx, r.dy, r.dz].all f32Finite) || f32Nan r.tmin || f32Nan r.tmax then m.endRay r rayMiss
  else match readScene dev m (m.op? r.op) r.stack r.scene.toNat with
    | .wait l => m.askTier dev l
    | .fail => m.endRay r raySceneInvalid
    | .poison m => m.endRay r rayPoison
    | .ok m bs =>
      let e := sceneOf bs
      if !e.v then m.endRay r raySceneInvalid
      else if e.gen != r.gen.toNat then m.endRay r rayGenStale
      else
        let r := { r with treelet := e.root, ttb := e.ttb, nt := e.nt, ht := r.tmax, st := .moving }
        (m.modRay r.id (fun _ => r)).arriveRay dev r r.stack refill

/-- RAY_ACCEPT. -/
def execRayAccept (ray : Nat) (s : State) : Host.Outcome State Fault Refusal :=
  if s.dev.ctxst != .running then .next s else
  match s.mach.ray? ray with
  | some r => .next { s with mach := if r.st = .sent then acceptRay s.dev s.mach r false else s.mach }
  | none => .next s

/-- RAY_ARRIVAL (R292): a forwarded ray arrives at its treelet's cellar. -/
def execRayArrival (ray : Nat) (s : State) : Host.Outcome State Fault Refusal :=
  if s.dev.ctxst != .running then .next s else
  match s.mach.ray? ray with
  | some r => .next { s with mach := if r.st = .moving then s.mach.arriveRay s.dev r r.stack false else s.mach }
  | none => .next s

/-- The ray that was spilled first at a stack (R292, R297). -/
def Mach.firstSpilled (m : Mach) (stack : Nat) : Option Ray :=
  (m.ctx.rays.filter (fun r => r.spilledAt stack)).foldl (fun a r => match a with
    | none => some r
    | some b => if r.spillSeq < b.spillSeq then some r else some b) none

/-- A spilled ray returns: to the queues, or to its hold; one that a switch-out found on its way to its first cellar is
accepted (R297). -/
def Mach.refillRay (dev : Device) (m : Mach) (r : Ray) (stack : Nat) : Mach :=
  if r.nt = 0 then acceptRay dev m r true else m.arriveRay dev r stack true

/-- RAY_REFILL (R292): the ray spilled first returns. -/
def execRayRefill (stack : Nat) (s : State) : Host.Outcome State Fault Refusal :=
  if s.dev.ctxst != .running then .next s else
  match s.mach.firstSpilled stack with
  | some r => .next { s with mach := s.mach.refillRay s.dev r stack }
  | none => .next s

/-! ## Staging (R285, R291) -/

/-- An image's 4-byte value at an offset. -/
def imageN32 (im : List Host.Cell) (o : Nat) : Nat := leNat (cellsTake im o 4)

/-- NN and NTRI of an image's header. -/
def imageCounts (im : List Host.Cell) : Nat × Nat := (imageN32 im 0, imageN32 im 8)

/-- Is an image's header right? -/
def imageHeader (im : List Host.Cell) : Bool :=
  imageN32 im 4 == 0xAE10 * 65536 && imageN32 im 12 == 0 && (cellsTake im 16 48).all (· == 0)

/-- The places of an extent, 4 KiB by 4 KiB, when every page lies in a stack. -/
def extentPages (dev : Device) (m : Mach) (e : TreeletEntry) : Option (List Loc) :=
  (List.range e.sz).mapM (fun k =>
    match cellarLoc dev m (e.tva + 4096 * k) with
    | some l => if l.space = .hbm && l.addr / stackBytes = e.stk then some l else none
    | none => none)

/-- The bytes of an extent as cells by offset. -/
def extentCells (m : Mach) (ls : List Loc) : List Host.Cell :=
  ls.zipIdx.flatMap (fun p =>
    (m.mem.hbm.cells.filter (fun c => p.1.addr ≤ c.1 && c.1 < p.1.addr + 4096)).map
      (fun c => (c.1 - p.1.addr + 4096 * p.2, c.2)))

/-- Does a child reference name something beyond an image? -/
def refBeyond (ref nn ntri : Nat) : Bool :=
  match ref / pow2 30 with
  | 1 => nn ≤ ref % pow2 30
  | 2 => ntri < ref % pow2 24 + (ref / pow2 24 % 64 + 1)
  | _ => false

/-- The child references of node `n`. -/
def nodeRef (im : List Host.Cell) (n k : Nat) : Nat := imageN32 im (64 + 256 * n + 32 * k + 24)

/-- What reading the first `n` bytes of an extent does to its cellar (R276, R278, R279). -/
def Mach.touchExtent (dev : Device) (m : Mach) (ls : List Loc) (n : Nat) : Mach :=
  ls.zipIdx.foldl (fun m p => m.touchCellar dev p.1 (min 4096 (n - 4096 * p.2)) true) m

/-- An image read whole, for the operation of a ray: none while it waits, a status when it is faulty or poisoned. -/
def readImage (dev : Device) (m : Mach) (q : Option Op) (va : Nat) :
    Option (Mach × Except Nat (TreeletEntry × List Host.Cell × Nat)) :=
  match cellarRead dev m q va 16 with
  | .wait _ => none
  | .fail => some (m, .error rayTreeletFault)
  | .poison m => some (m, .error rayPoison)
  | .ok m bs =>
    let e := treeletOf bs
    if !e.v || 64 < e.sz || e.sz = 0 then some (m, .error rayTreeletFault)
    else match extentPages dev m e with
      | none => some (m, .error rayTreeletFault)
      | some ls =>
        if !ls.all (fun l => m.cellarOpen l && !m.bankBusy dev l 4096) then none else
        let bad (n : Nat) : Bool := (List.range ((n + 63) / 64)).any (fun k =>
          match ls[k / 64]? with
          | some l => m.mem.poisoned (l.add (64 * (k % 64)))
          | none => false)
        let im := extentCells m ls
        let (nn, ntri) := imageCounts im
        let size := 64 + 256 * nn + 48 * ntri
        let head := m.touchExtent dev ls 64
        let whole := head.touchExtent dev ls size
        if bad 64 then some (head, .error rayPoison)
        else if !imageHeader im || e.sz * 4096 < size then some (head, .error rayTreeletFault)
        else if bad size then some (whole, .error rayPoison)
        else if (List.range nn).any (fun n => (List.range 8).any (fun k => refBeyond (nodeRef im n k) nn ntri)) then
          some (whole, .error rayTreeletFault)
        else some (whole, .ok (e, im, size))

/-- The open treelets of a stack with queued rays and no staged copy, with their queued rays. -/
def Mach.stageable (m : Mach) (stack : Nat) : List (Ray × List Ray) :=
  let queued := m.ctx.rays.filter (fun r => r.stack == stack && r.st == .queued &&
    !(m.treelet r.entry).closed &&
    (m.stagedCopy stack r.entry (m.treelet r.entry).version).isNone)
  queued.map (fun r => (r, queued.filter (fun q => q.entry == r.entry)))

/-- The treelet that is staged next, as one of its rays with all of them (R291). -/
def stageNext (dev : Device) (m : Mach) (stack : Nat) : Option (Ray × List Ray) :=
  let xs := m.stageable stack
  let oldest := xs.foldl (fun a x => match a with
    | none => some x
    | some y => if x.1.arrived < y.1.arrived then some x else some y) none
  let best := xs.foldl (fun a x => match a with
    | none => some x
    | some y => if y.2.length < x.2.length ||
        (y.2.length == x.2.length && (x.1.treelet < y.1.treelet ||
          (x.1.treelet == y.1.treelet && x.1.entry < y.1.entry))) then some x else some y) none
  match oldest with
  | none => none
  | some x =>
    let tage := (vget dev.cellars stack CellarRegs.reset).tage.toNat
    if tage = 0 || tage < m.cyc.toNat - x.1.arrived then some x else best

/-- A slot for another image: a free one, or that of the least recently used copy with no ray in it. -/
def Mach.freeSlot (m : Mach) (stack : Nat) : Option Mach :=
  let mine := m.staged.filter (fun s => s.stack == stack)
  if mine.length < 64 then some m
  else
    let idle := mine.filter (fun s => m.ctx.rays.all (fun r => !(m.insideCopy r && r.stack == stack &&
      r.entry == s.entry && r.version == s.version + 1)))
    (idle.foldl (fun a s => match a with
      | none => some s
      | some b => if s.used < b.used then some s else some b) none).map (fun s =>
        { m with staged := m.staged.erase s })

/-- Stage the treelet that the scheduler chooses; the rays of a faulty one end. -/
def stageTreelet (dev : Device) (m : Mach) (stack : Nat) : Mach :=
  match stageNext dev m stack with
  | none => m
  | some (r, rs) =>
    if (m.freeSlot stack).isNone then m
    else match readImage dev m (m.op? r.op) (r.ttb + 16 * r.treelet) with
      | none => m.askRead dev (r.ttb + 16 * r.treelet)
      | some (m, .error st) => rs.foldl (fun m q => m.endRay q st) m
      | some (m, .ok (e, im, size)) =>
        if e.stk != stack then rs.foldl (fun m q => m.arriveRay dev q stack false) m
        else match m.freeSlot stack with
          | none => m
          | some m => { m with staged := m.staged ++
              [{ stack := stack, entry := r.entry,
                 version := (m.treelet r.entry).version, image := im, size := size, used := m.cyc.toNat }] }

/-- TREELET_STAGE. -/
def execTreeletStage (stack : Nat) (s : State) : Host.Outcome State Fault Refusal :=
  if s.dev.ctxst != .running then .next s else
  .next { s with mach := stageTreelet s.dev s.mach stack }

/-! ## Exact geometry (R290) -/

/-- A finite f32 value in units of 2^-149. -/
def f32Units (x : Nat) : Option Int :=
  match fmtF32.decode x with
  | .fin neg m e =>
    let y : Int := (m * pow2 (e + 149).toNat : Nat)
    some (if neg then -y else y)
  | _ => none

/-- A rational number or an infinity. -/
inductive Ext where
  | ninf
  | fin (n : Int) (d : Nat)
  | pinf
  deriving DecidableEq, Repr

/-- Order of extended rationals; denominators are above 0. -/
def Ext.le : Ext → Ext → Bool
  | .ninf, _ => true
  | _, .pinf => true
  | .pinf, _ => false
  | _, .ninf => false
  | .fin a b, .fin c d => a * d ≤ c * b

/-- An f32 code over a denominator, in units of 2^-149; none for a NaN. -/
def Ext.ofF32 (d : Nat) (x : Nat) : Option Ext :=
  match fmtF32.decode x with
  | .nan => none
  | .inf neg => some (if neg then .ninf else .pinf)
  | .fin _ _ _ => (f32Units x).map (fun n => .fin n d)

/-- The largest finite f32: an exact t of no more than this is not rounded to an infinity. -/
def f32Top : Nat := pow2 128 - pow2 104

/-- A bound on t widened by more than half a unit in the last place of an f32, so that every exact t whose rounded value
keeps the bound lies within it (R290): beyond the largest finite f32, t may round to an infinite bound. -/
def Ext.widen (up : Bool) : Ext → Ext
  | .fin n d =>
    let s : Int := (n.natAbs * pow2 140 + d * pow2 22 : Nat)
    let n' := n * (pow2 162 : Nat)
    .fin (if up then n' + s else n' - s) (d * pow2 162)
  | .pinf => if up then .pinf else .fin f32Top 1
  | .ninf => if up then .fin (-(f32Top : Int)) 1 else .ninf

/-- Where a ray crosses a plane of a box: (a − o) / d, for d other than 0. -/
def slabT (o d : Int) : Ext → Ext
  | .ninf => if d < 0 then .pinf else .ninf
  | .pinf => if d < 0 then .ninf else .pinf
  | .fin n k => let x := n - o * k; .fin (if d < 0 then -x else x) (d.natAbs * k)

/-- The slab test: does a ray meet a box between its bounds on t? -/
def slabTest (o d : List Int) (lo hi : List Ext) (tmin tmax : Ext) : Bool :=
  let axes := (o.zip d).zip (lo.zip hi)
  let flat := axes.all (fun a => a.1.2 != 0 || (a.2.1.le (.fin a.1.1 1) && (Ext.fin a.1.1 1).le a.2.2))
  let ts := (axes.filter (fun a => a.1.2 != 0)).map (fun a => (slabT a.1.1 a.1.2 a.2.1, slabT a.1.1 a.1.2 a.2.2))
  let lows := tmin :: ts.map (fun t => if t.1.le t.2 then t.1 else t.2)
  let highs := tmax :: ts.map (fun t => if t.1.le t.2 then t.2 else t.1)
  flat && lows.all (fun a => highs.all (fun b => a.le b))

/-- Is a box whose six bounds are f32 codes entered, as far as its slab test says? A NaN bound enters it. -/
def boxTest (r : Ray) (bs : List Nat) : Bool :=
  let os := [r.ox, r.oy, r.oz].filterMap (fun x => f32Units x.toNat)
  let ds := [r.dx, r.dy, r.dz].filterMap (fun x => f32Units x.toNat)
  match bs.mapM (Ext.ofF32 1), Ext.ofF32 (pow2 149) r.tmin.toNat, Ext.ofF32 (pow2 149) r.ht.toNat with
  | some es, some a, some b => slabTest os ds (es.take 3) (es.drop 3) (a.widen false) (b.widen true)
  | _, _, _ => true

/-- Vectors of three integers. -/
abbrev Vec3 := Int × Int × Int
def Vec3.sub (a b : Vec3) : Vec3 := (a.1 - b.1, a.2.1 - b.2.1, a.2.2 - b.2.2)
def Vec3.cross (a b : Vec3) : Vec3 :=
  (a.2.1 * b.2.2 - a.2.2 * b.2.1, a.2.2 * b.1 - a.1 * b.2.2, a.1 * b.2.1 - a.2.1 * b.1)
def Vec3.dot (a b : Vec3) : Int := a.1 * b.1 + a.2.1 * b.2.1 + a.2.2 * b.2.2

/-- RoundTo(f32, RNE, n / d). -/
def ratioF32 (n : Int) (d : Nat) : Nat :=
  if n = 0 then 0 else divRound fmtF32 (n < 0) n.natAbs 0 d 0

/-- The exact triangle test: front, and t, u, v rounded; none where the triangle is not hit. -/
def triangleHit (o d v0 v1 v2 : Vec3) : Option (Bool × Nat × Nat × Nat) :=
  let e1 := Vec3.sub v1 v0
  let e2 := Vec3.sub v2 v0
  let p := Vec3.cross d e2
  let det := Vec3.dot e1 p
  let s := Vec3.sub o v0
  let q := Vec3.cross s e1
  let flip (x : Int) : Int := if det < 0 then -x else x
  let u := flip (Vec3.dot s p)
  let v := flip (Vec3.dot d q)
  let t := flip (Vec3.dot e2 q)
  let n := det.natAbs
  if det = 0 || u < 0 || v < 0 || (n : Int) < u + v then none
  else some (0 < det, ratioF32 t n, ratioF32 u n, ratioF32 v n)

/-- Three units from codes. -/
def vec3Of (xs : List Nat) : Option Vec3 :=
  match xs.mapM f32Units with
  | some [a, b, c] => some (a, b, c)
  | _ => none

/-! ## Traversal (R290, R293) -/

/-- A triangle of an image: its nine codes, PRIM, INST, TMASK and AH. -/
def imageTri (im : List Host.Cell) (nn k : Nat) : List Nat × Nat × Nat × Nat × Bool :=
  let o := 64 + 256 * nn + 48 * k
  let w := imageN32 im (o + 44)
  ((List.range 9).map (fun j => imageN32 im (o + 4 * j)), imageN32 im (o + 36), imageN32 im (o + 40), w % 256,
   w / 256 % 2 == 1)

/-- FLAGS bits. -/
def Ray.first (r : Ray) : Bool := r.flags.getLsbD 0
def Ray.opaque' (r : Ray) : Bool := r.flags.getLsbD 1
def Ray.cullBack (r : Ray) : Bool := r.flags.getLsbD 2
def Ray.cullFront (r : Ray) : Bool := r.flags.getLsbD 3

/-- The hit of a ray on a triangle before the limits on t: front, t, u, v. -/
def rayTriangle (m : Mach) (r : Ray) (vs : List Nat) : Option (Bool × Nat × Nat × Nat) :=
  match vec3Of (vs.take 3), vec3Of ((vs.drop 3).take 3), vec3Of (vs.drop 6),
      vec3Of ([r.ox, r.oy, r.oz].map (·.toNat)), vec3Of ([r.dx, r.dy, r.dz].map (·.toNat)) with
  | some v0, some v1, some v2, some o, some d => triangleHit o d v0 v1 v2
  | _, _, _, _, _ =>
    let x := Config.oddTriangle m.freeCtr
    if x.1 then some (x.2.1, x.2.2.1.toNat, x.2.2.2.1.toNat, x.2.2.2.2.toNat) else none

/-- Is a hit a candidate? -/
def isCandidate (r : Ray) (tr prim inst : Nat) : Bool :=
  let t := fmtF32.decode tr
  let lo := fmtF32.decode r.tmin.toNat
  let hi := fmtF32.decode r.ht.toNat
  let le (a b : Num) : Bool := Num.lt a b || Num.eqv a b
  le lo t && le t hi &&
    (!(Num.eqv t hi && r.hit) || inst < r.hinst.toNat || (inst == r.hinst.toNat && prim < r.hprim.toNat))

/-- A candidate is committed. -/
def Ray.commit (r : Ray) (c : List Slice) : Ray :=
  { r with hit := true, ht := c.getD 0 0, hu := c.getD 1 0, hv := c.getD 2 0, hprim := c.getD 3 0,
           hinst := c.getD 4 0, cand := [] }

/-- What a part of a traversal came to. -/
inductive Visit where
  | more (r : Ray)
  | park (r : Ray)
  | finish (r : Ray)
  deriving DecidableEq, Repr

/-- A triangle is tested. -/
def visitTriangle (m : Mach) (im : List Host.Cell) (nn : Nat) (r : Ray) (k : Nat) : Visit :=
  let (vs, prim, inst, tmask, ah) := imageTri im nn k
  if r.mask.toNat &&& tmask = 0 then .more r
  else match rayTriangle m r vs with
    | none => .more r
    | some (front, t, u, v) =>
      if (front && r.cullFront) || (!front && r.cullBack) || !isCandidate r t prim inst then .more r
      else
        let c : List Slice := [t, u, v, prim, inst].map (BitVec.ofNat 32)
        if ah && !r.opaque' then .park { r with cand := c }
        else if r.first then .finish (r.commit c)
        else .more (r.commit c)

/-- The children of a node whose boxes are entered, in slot order: what is visited here, and links. -/
def nodeItems (m : Mach) (im : List Host.Cell) (r : Ray) (n : Nat) : List RayItem × List RayItem :=
  let items := (List.range 8).filterMap (fun k =>
    let o := 64 + 256 * n + 32 * k
    let ref := imageN32 im (o + 24)
    let enter := boxTest r ((List.range 6).map (fun j => imageN32 im (o + 4 * j))) || Config.boxEntered (m.freeCtr + k)
    if !enter then none
    else match ref / pow2 30 with
      | 0 => none
      | 1 => some (RayItem.node (ref % pow2 30))
      | 2 => some (RayItem.tris (ref % pow2 24) (ref / pow2 24 % 64 + 1))
      | _ => some (RayItem.link (ref % pow2 24)))
  items.partition (fun i => match i with
    | .link _ => false
    | _ => true)

/-- Up to `fuel` items of a ray's continuation inside a staged copy. -/
def walkRay (im : List Host.Cell) (nn : Nat) : Nat → Mach → Ray → Mach × Visit
  | 0, m, r => (m, .more r)
  | fuel + 1, m, r =>
    match r.cont with
    | .node n :: rest =>
      let (here, links) := nodeItems m im r n
      walkRay im nn fuel { m with freeCtr := m.freeCtr + 8 } { r with cont := here ++ rest ++ links }
    | .tris f c :: rest =>
      let r := { r with cont := if c ≤ 1 then rest else .tris (f + 1) (c - 1) :: rest }
      let m' := { m with freeCtr := m.freeCtr + 1 }
      (match visitTriangle m im nn r f with
       | .more r => walkRay im nn fuel m' r
       | x => (m', x))
    | _ => (m, .more r)

/-- Has a ray nothing left in its treelet? -/
def Ray.leaving (r : Ray) : Bool :=
  match r.cont with
  | .node _ :: _ => false
  | .tris _ _ :: _ => false
  | _ => true

/-- A ray parks on a callback: the record is written and the slot line released (R293). -/
def Mach.parkRay (m : Mach) (r : Ray) : Mach :=
  let r := { r with st := .parked, cbseq := r.cbseq + 1 }
  let bs := (r.cand.map (·.toNat) ++ [r.rayid.toNat, r.cbseq % 65536, 0]).flatMap (natLe 4)
  let m := match m.team? r.team with
    | some t => m.writeBytes (bytesAt (coreLoc t (r.slot + 32)) bs)
    | none => m
  (m.dropOwn r.id).modRay r.id (fun _ => r)

/-- A ray leaves its treelet for the next link of its continuation, or ends. -/
def Mach.leaveTreelet (dev : Device) (m : Mach) (r : Ray) : Mach :=
  match r.cont with
  | .link t :: rest =>
    let r := { r with cont := rest, treelet := t, version := 0, st := .moving }
    (m.modRay r.id (fun _ => r)).arriveRay dev r r.stack false
  | _ => m.endRay r (if r.hit then rayHit else rayMiss)

/-- Items that one RAY_VISIT takes at most: an image may hold a ring of nodes, which is never left. -/
def visitFuel : Nat := 65536

/-- A ray traverses a staged copy from where it stands. -/
def visitCopy (dev : Device) (m : Mach) (r : Ray) (s : Staged) : Mach :=
  let m := { m with staged := m.staged.map (fun x => if x == s then { x with used := m.cyc.toNat } else x) }
  match walkRay s.image (imageCounts s.image).1 visitFuel m r with
  | (m, .park r) => m.parkRay r
  | (m, .finish r) => m.endRay r rayHit
  | (m, .more r) => if r.leaving then m.leaveTreelet dev r else m.modRay r.id (fun _ => r)

/-- A queued ray enters its treelet's staged copy: a continuation that names nodes of another version is
dropped, and the traversal starts at node 0 (R296). -/
def Ray.enter (r : Ray) (version nn : Nat) : Ray :=
  let r := { r with st := .inside, tv := min (r.tv + 1) (pow2 24 - 1) }
  if r.version = version + 1 then r
  else
    { r with
      version := version + 1,
      cont := (if nn = 0 then [] else [.node 0]) ++ r.cont.filter (fun i => match i with
        | .link _ => true
        | _ => false) }

/-- A visit of a ray. -/
def visitRay (dev : Device) (m : Mach) (r : Ray) : Mach :=
  match r.st with
  | .queued =>
    let t := m.treelet r.entry
    if t.closed then m
    else match m.stagedCopy r.stack r.entry t.version with
      | some s => visitCopy dev m (r.enter t.version (imageCounts s.image).1) s
      | none => m
  | .inside =>
    (match m.stagedCopy r.stack r.entry (r.version - 1) with
     | some s => visitCopy dev m r s
     | none => m)
  | _ => m

/-- RAY_VISIT. -/
def execRayVisit (ray : Nat) (s : State) : Host.Outcome State Fault Refusal :=
  if s.dev.ctxst != .running then .next s else
  match s.mach.ray? ray with
  | some r => .next { s with mach := visitRay s.dev s.mach r }
  | none => .next s

/-! ## ANYR (R293, R327) -/

/-- ANYR at issue: it takes Own of each slot line. -/
def execAnyr (w : WordG) (s : State) : Host.Outcome State Fault Refusal :=
  memWord (.anyr w) (fun c => do
    let t ← teamOf c
    let xs ← slotChecks c t w.a
    let at' (x : BitVec 8) : List LaneVals := [laneFn (fun l => src32 c c.g x l)]
    let cap := { Captured.none with va := at' w.a, vb := at' w.b, vc := at' w.c }
    let _ ← issueOwned c (.anyr w) cap (markV c [w.d.toNat]) (ownable (slotLines t (xs.map (·.2)))) (fun o => o)
    return c.run) s

/-- A ray takes its answer: it owns its slot line again, and goes on or ends. -/
def Mach.answerRay (m : Mach) (r : Ray) (line : Line) (op answer : Nat) : Mach :=
  let m : Mach := { m with own := m.own.map (fun p => if p.1 == line && p.2 == op then (line, r.id) else p) }
  let r' := if answer = 1 then { r with cand := [] } else r.commit r.cand
  if answer = 2 || (answer = 0 && r.first) then m.endRay r' rayHit
  else
    -- inside the copy it goes on; a ray whose visit was ended re-enters its treelet's queue (R297)
    m.modRay r.id (fun _ => { r' with st := if m.insideCopy r then .inside else .moving, ended := false })

/-- One lane's answer: its status, after its effect. -/
def anyrLane (m : Mach) (o : Op) (t : Team) (l : Nat) : Mach × Nat :=
  let slot := capLane o.cap.va l
  let line := lineOf (coreLoc t slot)
  let answer := capLane o.cap.vc l
  -- a line that a later lane of the operation names stays owned for its answer (R327)
  let later := o.mask.lanes.any (fun k => l < k && capLane o.cap.va k == slot)
  let drop (m : Mach) : Mach :=
    if later then m else { m with own := m.own.filter (fun p => !(p.1 == line && p.2 == o.id)) }
  if 3 ≤ answer then (drop m, 2)
  else match m.ctx.rays.find? (fun r => r.team == o.team && r.slot == slot && r.st == .parked &&
      r.cbseq % 65536 == capLane o.cap.vb l) with
    | none => (drop m, 1)
    | some r => (m.answerRay r line o.id answer, 0)

/-- An ANYR goes on: every lane's answer acts, and it completes. -/
def progressAnyr (w : WordG) (m : Mach) (o : Op) : Mach :=
  if o.st != .running then m
  else match m.team? o.team with
    | none => m.completeOp o
    | some t =>
      let m := o.mask.lanes.foldl (fun m l =>
        let (m, st) := anyrLane m o t l
        m.oweV o.id (o.base + w.d.toNat) (Mask.one l) (fun _ => st)) m
      match m.op? o.id with
      | some o => m.completeOp o
      | none => m

/-! ## TRBEGIN and TRPUB (R294, R295, R328) -/

/-- TRBEGIN at issue. -/
def execTrbegin (w : WordG) (s : State) : Host.Outcome State Fault Refusal :=
  memWord (.trbegin w) (fun c => do
    let cap := captureS c w
    if bitsAt cap.sa 32 32 != 0 then trapWord c causeEngineArg
    let _ ← issueOp c (.trbegin w) cap [.s (w.d.toNat - 192)] (fun o => o)
    return c.run) s

/-- TRPUB at issue. -/
def execTrpub (w : WordG) (s : State) : Host.Outcome State Fault Refusal :=
  memWord (.trpub w) (fun c => do
    let cap := captureS c w
    if bitsAt cap.sa 32 32 != 0 then trapWord c causeEngineArg
    let _ ← issueOp c (.trpub w) { cap with sc := c.g.sReg (w.b.toNat - 192 + 1) } [.s (w.d.toNat - 192)]
      (fun o => o)
    return c.run) s

/-- An operation ends with a status in an S register. -/
def Mach.endStatus (m : Mach) (o : Op) (reg st : Nat) : Mach :=
  let m := m.oweS o.id reg st
  match m.op? o.id with
  | some o => m.completeOp o
  | none => m

/-- The scene and treelet that a TRBEGIN or TRPUB names. -/
def trNames (o : Op) : BitVec 8 × Nat := (BitVec.ofNat 8 (bitsAt o.cap.sa 24 8), bitsAt o.cap.sa 0 24)

/-- The table entry's address, by the cellar of stack 2d, after its reads: an error while it waits, no address
for TREELET_BAD. -/
def trEntry (dev : Device) (m : Mach) (o : Op) : Except Mach (Mach × Option Nat) :=
  let (scene, t) := trNames o
  match readScene dev m (some o) (2 * (o.core / 16)) scene.toNat with
  | .wait l => .error (m.askTier dev l)
  | .ok m1 bs =>
    let e := sceneOf bs
    if !e.v || e.nt ≤ t then .ok (m1, none)
    else (match cellarRead dev m1 (some o) (e.ttb + 16 * t) 16 with
      | .wait l => .error (m.askTier dev l)
      | .ok m _ => .ok (m, some (e.ttb + 16 * t))
      | .poison m => .ok (m, none)
      | .fail => .ok (m, none))
  | .poison m => .ok (m, none)
  | .fail => .ok (m, none)

/-- Is a ray inside the copy of a treelet that a TRBEGIN has closed? -/
def Mach.raysInside (m : Mach) (entry : Nat) : Bool :=
  m.ctx.rays.any (fun r => r.entry == entry && m.insideCopy r)

/-- A TRBEGIN goes on: it closes its treelet, then waits, with the entry's address + 1 noted, for the rays
inside. -/
def progressTrbegin (dev : Device) (w : WordG) (m : Mach) (o : Op) : Mach :=
  let reg := w.d.toNat - 192
  if o.st != .running then m
  else if o.aux != 0 then (if m.raysInside (o.aux - 1) then m else m.endStatus o reg 0)
  else if m.writesBehind o then m
  else match trEntry dev m o with
    | .error m => m
    | .ok (m, none) => m.endStatus o reg 3
    | .ok (m, some entry) =>
      let x := m.treelet entry
      if x.closed then m.endStatus o reg 1
      else
        -- rays that already stand in its queues are held (R294)
        let m := m.setTreelet { x with closed := true }
        let m : Mach := { m with ctx := { m.ctx with rays := m.ctx.rays.map (fun r =>
          if r.entry == entry && r.st == .queued then { r with st := .held } else r) } }
        if m.raysInside entry then m.modOp o.id (fun o => { o with aux := entry + 1 }) else m.endStatus o reg 0

/-- TRBEGIN_DONE (R294): no ray remains inside the old copy. -/
def execTrbeginDone (op : Nat) (s : State) : Host.Outcome State Fault Refusal :=
  match s.mach.op? op with
  | none => .next s
  | some o =>
    match o.instr with
    | .trbegin w => .next { s with mach := if o.aux != 0 then progressTrbegin s.dev w s.mach o else s.mach }
    | _ => .next s

/-- Publish a treelet (R295): the entry is written, its copies are no longer taken, its held rays arrive; none
while another operation owns a line of the entry (R218, R219) or its home does not answer. -/
def Mach.publish (dev : Device) (m : Mach) (o : Op) (va : Nat) (a b : Word) : Option Mach :=
  match cellarLoc dev m va with
  | none => none
  | some l =>
    if m.dstWaits o l 16 then none
    else match m.homeWrite dev l ((natLe 8 a.toNat ++ natLe 8 b.toNat).zipIdx.map (fun p => (p.2, p.1))) with
    | none => none
    | some m =>
      let x := m.treelet va
      let m := m.setTreelet { x with closed := false, version := x.version + 1 }
      let held := m.ctx.rays.filter (fun r => r.entry == va && r.st == .held)
      let m := held.foldl (fun m r => m.arriveRay dev r r.stack true) m
      some { m with staged := m.staged.filter (fun s => s.entry != va || m.raysInside va) }

/-- A TRPUB goes on: the run's earlier writes first, then the publication. -/
def progressTrpub (dev : Device) (w : WordG) (m : Mach) (o : Op) : Mach :=
  let reg := w.d.toNat - 192
  if o.st != .running then m
  else if m.writesBehind o then m
  else match trEntry dev m o with
    | .error m => m
    | .ok (m1, none) => m1.endStatus o reg 3
    | .ok (m1, some va) =>
      if !(m1.treelet va).closed then m1.endStatus o reg 2
      else match m1.publish dev o va o.cap.sb o.cap.sc with
        | some m => m.endStatus o reg 0
        | none => m.askRead dev va

end Sys2Proof.Machine
end

