-- ==== Sys2Proof/Machine/Filter.lean ====
section
/-!
DEFINITION. Filtering at the cellars: TEXF, HGF and the requests that they send (R298 to R301, R329, R330).
-/
namespace Sys2Proof.Machine

/-! ## Arithmetic of samples -/

/-- F(x) = RoundTo(f32, RNE, x), as a value. -/
def rndF32 (x : Num) : Num := fmtF32.decode (fmtF32.round 0 false x)

/-- The code of a value in f32. -/
def codeF32 (x : Num) : Nat := fmtF32.round 0 false x

/-- ⌊x⌋; none for an infinity or a NaN. -/
def floorNum : Num → Option Int
  | .fin neg m e => some (roundInt 3 neg m e)
  | _ => none

/-- A value with NaN read as 0. -/
def nanZero (x : Num) : Num := if x.isNan then .zero false else x

/-- A value clamped between two others. -/
def clampNum (lo hi x : Num) : Num := if Num.lt x lo then lo else if Num.lt hi x then hi else x

/-- x − n for an integer. -/
def Num.subInt (x : Num) (n : Int) : Num := Num.add false x (.ofInt (-n))

/-- F(1 − x). -/
def oneMinus (x : Num) : Num := rndF32 (Num.add false (.ofInt 1) x.neg)

/-! ## What a filter reads (R286, R301) -/

/-- The status FILTER_FAULT, and FILTER_POISON. -/
def filterFault : Nat := 1
def filterPoison : Nat := 2

/-- The stack that holds the page of an address. -/
def stackOf (dev : Device) (m : Mach) (va : Nat) : Option Nat :=
  match cellarLoc dev m va with
  | some l => if l.space = .hbm then some (l.addr / stackBytes) else none
  | none => none

/-- How a filter request ends before its sample. -/
inductive FilterStop where
  /-- It waits for its memory: its channel serves nobody now (R283). -/
  | wait
  /-- It ends with a status; the machine after its reads. -/
  | status (m : Mach) (st : Nat)
  deriving Repr

/-- A read of the filter unit of the stack that holds the page at `base`, for an operation. -/
def filterRead (dev : Device) (m : Mach) (o : Op) (base va n : Nat) : Except FilterStop (Mach × List Byte) :=
  if stackOf dev m va != stackOf dev m base || (stackOf dev m base).isNone then .error (.status m filterFault)
  else match cellarRead dev m (some o) va n with
    | .ok m bs => .ok (m, bs)
    | .poison m => .error (.status m filterPoison)
    | .wait _ => .error .wait
    | .fail => .error (.status m filterFault)

/-! ## Textures (R298, R299) -/

/-- A texture's descriptor. -/
structure Texture where
  base : Nat
  wv : Nat
  wu : Nat
  fmt : Nat
  nlv : Nat
  h : Nat
  w : Nat
  deriving DecidableEq, Repr

/-- A descriptor's fields, and whether it keeps its table. -/
def textureOf (ws : List Word) : Texture × Bool :=
  let b := ws.getD 1 0
  let t : Texture := { base := (ws.getD 0 0).toNat, wv := bitsAt b 42 2, wu := bitsAt b 40 2, fmt := bitsAt b 36 4,
                       nlv := bitsAt b 32 4, h := bitsAt b 16 16, w := bitsAt b 0 16 }
  (t, t.base % 256 == 0 && bitsAt b 44 20 == 0 && t.wv != 3 && t.wu != 3 && t.fmt ≤ 2 && 1 ≤ t.nlv &&
    1 ≤ t.h && t.h ≤ 16384 && 1 ≤ t.w && t.w ≤ 16384 && (ws.drop 2).all (· == 0))

/-- Texel size. -/
def Texture.es (t : Texture) : Nat := if t.fmt = 1 then 8 else 4
/-- Width and height of a level. -/
def Texture.wl (t : Texture) (l : Nat) : Nat := max 1 (t.w / pow2 l)
def Texture.hl (t : Texture) (l : Nat) : Nat := max 1 (t.h / pow2 l)
/-- Bytes of a row of a level. -/
def Texture.row (t : Texture) (l : Nat) : Nat := (t.wl l * t.es + 255) / 256 * 256
/-- Where a level begins. -/
def Texture.level (t : Texture) (l : Nat) : Nat :=
  t.base + (List.range l).foldl (fun a k => a + t.row k * t.hl k) 0

/-- Wrap (R299). -/
def wrapCoord (mode : Nat) (k : Int) (n : Nat) : Nat :=
  match mode with
  | 0 => (max 0 (min k (n - 1))).toNat
  | 1 => (k % n).toNat
  | _ => let x := (k % (2 * n)).toNat; if x < n then x else 2 * n - 1 - x

/-- The four channels of a texel's bytes. -/
def texelOf (fmt : Nat) (bs : List Byte) : List Num :=
  match fmt with
  | 0 => (List.range 4).map (fun k => fmtF32.decode (fDiv fmtF32 (.ofInt ((bs.getD k 0).toNat : Nat)) (.ofInt 255)))
  | 1 => (List.range 4).map (fun k => fmtF16.decode (leNat ((bs.drop (2 * k)).take 2)))
  | _ => [fmtF32.decode (leNat bs), .zero false, .zero false, .ofInt 1]

/-- The bilinear sample at a level: four values; no value is stated for an infinite coordinate. -/
def bilinear (dev : Device) (m : Mach) (o : Op) (t : Texture) (l : Nat) (u v : Num) :
    Except FilterStop (Mach × Option (List Num)) := do
  let half : Num := .fin true 1 (-1)
  let at' (c : Num) (n : Nat) : Num := rndF32 (Num.add false (rndF32 (Num.mul (nanZero c) (.ofInt n))) half)
  let x := at' u (t.wl l)
  let y := at' v (t.hl l)
  match floorNum x, floorNum y with
  | some i, some j =>
    let a := x.subInt i
    let b := y.subInt j
    let wx (k : Nat) : Num := if k = 0 then oneMinus a else a
    let wy (k : Nat) : Num := if k = 0 then oneMinus b else b
    let (m, acc) ← (List.range 4).foldlM (fun (acc : Mach × List Num) k => do
      let tx := wrapCoord t.wu (i + (k / 2 : Nat)) (t.wl l)
      let ty := wrapCoord t.wv (j + (k % 2 : Nat)) (t.hl l)
      let (m, bs) ← filterRead dev acc.1 o t.base (t.level l + ty * t.row l + tx * t.es) t.es
      let w := rndF32 (Num.mul (wx (k / 2)) (wy (k % 2)))
      return (m, acc.2.zipWith (fun s c => rndF32 (Num.add false s (rndF32 (Num.mul w c)))) (texelOf t.fmt bs)))
      (m, List.replicate 4 (.zero false))
    return (m, some acc)
  | _, _ => return (m, none)

/-- The sample of a lane: bilinear at level 0, or trilinear. -/
def textureSample (dev : Device) (m : Mach) (o : Op) (t : Texture) (tri : Bool) (u v lam : Num) :
    Except FilterStop (Mach × Option (List Num)) := do
  if !tri then bilinear dev m o t 0 u v
  else
    let x := clampNum (.zero false) (.ofInt (t.nlv - 1 : Nat)) (nanZero lam)
    let l0 := ((floorNum x).getD 0).toNat
    let beta := x.subInt l0
    if beta.isZero || l0 + 1 = t.nlv then bilinear dev m o t l0 u v
    else
      let (m, s0) ← bilinear dev m o t l0 u v
      let (m, s1) ← bilinear dev m o t (l0 + 1) u v
      match s0, s1 with
      | some a, some b => return (m, some (a.zipWith (fun p q =>
          rndF32 (Num.add false (rndF32 (Num.mul (oneMinus beta) p)) (rndF32 (Num.mul beta q)))) b))
      | _, _ => return (m, none)

/-- The texture descriptor of a TEXF, read and checked at issue. -/
def texfRead (c : Iss) (t : Team) (w : WordG) : M (List Word) := do
  let a := (fieldS c.g w.a).toNat
  let ls ← addrCheck c t 2 .laneRead 64 (some c.run) [(0, a)]
  let ws ← issueWords c ((ls.map (·.2)).headD { space := .hbm, addr := 0 }) a 8
  if !(textureOf ws).2 then trapWord c causeEngineArg
  return ws

/-- TEXF at issue (R329). -/
def execTexf (w : WordG) (s : State) : Host.Outcome State Fault Refusal :=
  memWord (.texf w) (fun c => do
    let cap := captureS c w
    let ws ← texfRead c (← teamOf c) w
    let ds := (List.range (if mBit w.mod 1 then 2 else 4)).map (w.d.toNat + ·)
    let cap := { cap with vb := vals c w.b (if mBit w.mod 0 then 3 else 2) }
    let _ ← issueOp c (.texf w) cap (markV c (ds ++ [w.c.toNat])) (fun o => { o with recs := ws })
    return c.run) s

/-- Lane `l` of captured register `k`, as an f32 value. -/
def capF32 (vs : List LaneVals) (k l : Nat) : Num := fmtF32.decode (capLane (vs.drop k) l)

/-- The register values of a sample's four channels. -/
def channelRegs (half : Bool) (cs : List Nat) : List Nat :=
  if half then
    let h (k : Nat) : Nat := fmtF16.round 0 false (fmtF32.decode (cs.getD k 0))
    [h 0 + 65536 * h 1, h 2 + 65536 * h 3]
  else cs

/-- The sample request of one lane of a TEXF, behind the writes before its word (R342). -/
def texfLane (dev : Device) (w : WordG) (m : Mach) (o : Op) (l : Nat) : Mach :=
  let stat (m : Mach) (st : Nat) : Mach := m.oweV o.id (o.base + w.c.toNat) (Mask.one l) (fun _ => st)
  let half := mBit w.mod 1
  if m.writesBehind o then m
  else match textureSample dev m o (textureOf o.recs).1 (mBit w.mod 0) (capF32 o.cap.vb 0 l) (capF32 o.cap.vb 1 l)
      (capF32 o.cap.vb 2 l) with
  | .error .wait => m
  | .error (.status m st) => stat m st
  | .ok (m, r) =>
    let cs : List Nat := match r with
      | some xs => xs.map codeF32
      | none => (List.range 4).map (fun k => (Config.infiniteSample (m.freeCtr + k)).toNat)
    let m := { m with freeCtr := m.freeCtr + 4 }
    stat ((channelRegs half cs).zipIdx.foldl (fun m x =>
      m.oweV o.id (o.base + w.d.toNat + x.2) (Mask.one l) (fun _ => x.1)) m) 0

/-! ## Hash grids (R300, R330) -/

/-- A level record. -/
structure GridLevel where
  tbase : Nat
  f4 : Bool
  tl : Nat
  res : Nat
  deriving DecidableEq, Repr

/-- A level record's fields, and whether it keeps its table. -/
def gridLevelOf (a b : Word) : GridLevel × Bool :=
  let g : GridLevel := { tbase := a.toNat, f4 := b.getLsbD 38, tl := bitsAt b 32 5, res := bitsAt b 0 32 }
  (g, g.tbase % 64 == 0 && bitsAt b 39 25 == 0 && bitsAt b 37 1 == 0 && g.tl ≤ 22 && 1 ≤ g.res && g.res ≤ pow2 24)

/-- Features of a level. -/
def GridLevel.feats (g : GridLevel) : Nat := if g.f4 then 4 else 2

/-- The levels in a list of words. -/
def gridLevels : List Word → List GridLevel
  | a :: b :: r => (gridLevelOf a b).1 :: gridLevels r
  | _ => []

/-- Bytes of a result area. -/
def gridArea (w : WordG) (gs : List GridLevel) : Nat :=
  gs.foldl (fun a g => a + g.feats) 0 * (if mBit w.mod 4 then 2 else 4)

/-- Read and check the level records of an HGF. -/
def gridWords (c : Iss) (a : Nat) : List (Nat × Loc) → M (List Word)
  | [] => return []
  | x :: r => do
    let ws ← issueWords c x.2 ((a + 16 * x.1) % pow2 64) 2
    if !(gridLevelOf (ws.getD 0 0) (ws.getD 1 0)).2 then trapWord c causeEngineArg
    return ws ++ (← gridWords c a r)

/-- The level records of an HGF, read at issue, and its lanes' result areas, checked: the records, the lines. -/
def hgfRead (c : Iss) (t : Team) (w : WordG) : M (List Word × List Line) := do
  let a := (fieldS c.g w.a).toNat
  let n := bitsAt w.mod 0 4 + 1
  if a % 16 != 0 then trapInfo causeMisaligned c.run a
  let xs := (List.range n).map (fun k => (k, (a + 16 * k) % pow2 64))
  checkAddr (some c.run) causeAddrRange xs (fun a => pow2 56 ≤ a)
  let ls ← transLanes c .laneRead (some c.run) xs
  let ws ← gridWords c a ls
  let area := gridArea w (gridLevels ws)
  let os := c.lanes.lanes.map (fun l => (l, src32 c c.g w.d l))
  checkLanes causeMisaligned os (fun a => a % 16 != 0)
  checkLanes causeAllocBound os (fun a => t.csl * 64 < a + area)
  let higher := overlapping os (fun _ => area)
  if higher != 0 then throw (.trap causeEngineArg higher c.word)
  return (ws, os.flatMap (fun x => linesOf (coreLoc t x.2) area))

/-- HGF at issue. -/
def execHgf (w : WordG) (s : State) : Host.Outcome State Fault Refusal :=
  memWord (.hgf w) (fun c => do
    let t ← teamOf c
    let cap := captureS c w
    let (ws, lines) ← hgfRead c t w
    let cap := { cap with vb := vals c w.b 3, vd := [laneFn (fun l => src32 c c.g w.d l)] }
    let _ ← issueOwned c (.hgf w) cap (markV c [w.c.toNat]) (ownable lines) (fun o => { o with recs := ws })
    return c.run) s

/-- One level's features at a position. -/
def gridSample (dev : Device) (m : Mach) (o : Op) (g : GridLevel) (ps : List Num) :
    Except FilterStop (Mach × List Num) := do
  let xs := ps.map (fun p => rndF32 (Num.mul (clampNum (.zero false) (.ofInt 1) (nanZero p)) (.ofInt g.res)))
  let is := xs.map (fun x => ((floorNum x).getD 0).toNat)
  let as := (xs.zip is).map (fun p => p.1.subInt p.2)
  let i (c : Nat) : Nat := is.getD c 0
  let wt (c d : Nat) : Num := let a := as.getD c (.zero false); if d = 0 then oneMinus a else a
  (List.range 8).foldlM (fun (acc : Mach × List Num) k => do
    let (dx, dy, dz) := (k / 4 % 2, k / 2 % 2, k % 2)
    let h := ((i 0 + dx) % pow2 32) ^^^ ((i 1 + dy) * 433494437 % pow2 32) ^^^ ((i 2 + dz) * 2971215073 % pow2 32)
    let e := h % pow2 g.tl
    let w := rndF32 (Num.mul (rndF32 (Num.mul (wt 0 dx) (wt 1 dy))) (wt 2 dz))
    let (m, bs) ← filterRead dev acc.1 o g.tbase (g.tbase + e * g.feats * 2) (2 * g.feats)
    let fs := (List.range g.feats).map (fun j => fmtF16.decode (leNat ((bs.drop (2 * j)).take 2)))
    return (m, acc.2.zipWith (fun s f => rndF32 (Num.add false s (rndF32 (Num.mul w f)))) fs))
    (m, List.replicate g.feats (.zero false))

/-- The lines of a lane's area that no other unfinished lane's area shares. -/
def areaLines (t : Team) (o : Op) (area l : Nat) : List Line :=
  let of (k : Nat) : List Line := linesOf (coreLoc t (capLane o.cap.vd k)) area
  (of l).filter (fun ln => o.mask.lanes.all (fun k => k = l || o.laneDone k || !(of k).contains ln))

/-- Lines of an operation are released. -/
def Mach.dropLines (m : Mach) (id : Nat) (ls : List Line) : Mach :=
  { m with own := m.own.filter (fun p => p.2 != id || !ls.contains p.1) }

/-- The sample request of one lane of an HGF, behind the writes before its word (R342). -/
def hgfLane (dev : Device) (w : WordG) (m : Mach) (o : Op) (l : Nat) : Mach :=
  match m.team? o.team with
  | none => m
  | some t =>
    let gs := gridLevels o.recs
    let half := mBit w.mod 4
    let ps := [capF32 o.cap.vb 0 l, capF32 o.cap.vb 1 l, capF32 o.cap.vb 2 l]
    let r : Except FilterStop (Mach × List Num) := gs.foldlM (fun (acc : Mach × List Num) g => do
      let (m, xs) ← gridSample dev acc.1 o g ps
      return (m, acc.2 ++ xs)) (m, [])
    let free := areaLines t o (gridArea w gs) l
    let fin (m : Mach) (st : Nat) : Mach :=
      (m.dropLines o.id free).oweV o.id (o.base + w.c.toNat) (Mask.one l) (fun _ => st)
    if m.writesBehind o then m
    else match r with
    | .error .wait => m
    | .error (.status m st) => fin m st
    | .ok (m, xs) =>
      let bs := xs.flatMap (fun x =>
        if half then natLe 2 (fmtF16.round 0 false x) else natLe 4 (codeF32 x))
      fin (m.writeBytes (bytesAt (coreLoc t (capLane o.cap.vd l)) bs)) 0

/-! ## FILTER_REQUEST -/

/-- The requests of lanes of a TEXF or HGF, and its completion with the last. -/
def progressFilter (lane : Mach → Op → Nat → Mach) (lanes : List Nat) (m : Mach) (o : Op) : Mach :=
  if o.st != .running then m
  else
    let m := lanes.foldl (fun m l => match m.op? o.id with
      | some o => if o.mask.has l && !o.laneDone l then lane m o l else m
      | none => m) m
    match m.op? o.id with
    | some o => if o.mask.lanes.all (fun l => o.laneDone l) then m.completeOp o else m
    | none => m

/-- FILTER_REQUEST (R299 to R301): a cellar serves the sample of one lane. -/
def execFilterRequest (op lane : Nat) (s : State) : Host.Outcome State Fault Refusal :=
  match s.mach.op? op with
  | none => .next s
  | some o =>
    match o.instr with
    | .texf w => .next { s with mach := progressFilter (texfLane s.dev w) [lane] s.mach o }
    | .hgf w => .next { s with mach := progressFilter (hgfLane s.dev w) [lane] s.mach o }
    | _ => .next s

end Sys2Proof.Machine
end

