-- ==== Sys2Proof/Machine/Attn.lean ====
section
/-!
DEFINITION. Attention at the cellars and channel modes: ATTN, BFILL, their commands, and the steps by which a
channel changes mode (R141, R283, R302 to R305, R331 to R333).
-/
namespace Sys2Proof.Machine

/-! ## The reserved region (R302) -/

/-- The place of a block-table entry in the list of regions. -/
def regionKey (stack ch e : Nat) : Nat := stack * pow2 20 + ch * pow2 14 + e

/-- A block-table entry; an unlisted one is 0. -/
def regionGet (r : Region) (k : Nat) : BitVec 32 := ((r.find? (fun p => p.1 == k)).map (·.2)).getD 0

/-- Write a block-table entry, in rising order. -/
def regionSet : Region → Nat → BitVec 32 → Region
  | [], k, v => if v = 0 then [] else [(k, v)]
  | (j, w) :: r, k, v =>
    if j = k then (if v = 0 then r else (k, v) :: r)
    else if k < j then (if v = 0 then (j, w) :: r else (k, v) :: (j, w) :: r)
    else (j, w) :: regionSet r k v

/-! ## The attention sequence (R141) -/

/-- Products, sums and differences of f16 codes, each rounded. -/
def hMul (a b : Nat) : Nat := fmtF16.round 0 false (Num.mul (fmtF16.decode a) (fmtF16.decode b))
def hAdd (a b : Nat) : Nat := fmtF16.round 0 false (Num.add false (fmtF16.decode a) (fmtF16.decode b))
def hSub (a b : Nat) : Nat := fmtF16.round 0 false (Num.add false (fmtF16.decode a) (fmtF16.decode b).neg)

/-- max, NaN if either is NaN; of two zeros of opposite sign, of which the spec names no greater one, the first (DESIGN
CHOICE, log 63). -/
def hMax (a b : Nat) : Nat :=
  let x := fmtF16.decode a
  let y := fmtF16.decode b
  if x.isNan || y.isNan then fmtF16.nanCode else if Num.lt x y then b else a

/-- −∞ in f16. -/
def f16NegInf : Nat := 0xFC00

/-- The running state of one command: m, l, o. -/
structure AttnAcc where
  m : Nat
  l : Nat
  o : List Nat
  deriving DecidableEq, Repr

/-- Before any key. -/
def AttnAcc.init (d : Nat) : AttnAcc := { m := f16NegInf, l := 0, o := List.replicate d 0 }

/-- One key and its value. -/
def AttnAcc.key (a : AttnAcc) (sigma : Nat) (q k v : List Nat) : AttnAcc :=
  let s := (q.zip k).foldl (fun s p => hAdd s (hMul p.1 p.2)) 0
  let s := hMul s sigma
  let mn := hMax a.m s
  let c := if mn = f16NegInf then 0x3C00 else attnExp (hSub a.m mn)
  let e := if mn = f16NegInf then 0 else attnExp (hSub s mn)
  { m := mn, l := hAdd (hMul a.l c) e, o := a.o.zipWith (fun x y => hAdd (hMul x c) (hMul e y)) v }

/-- out[d]. -/
def AttnAcc.out (a : AttnAcc) : List Nat :=
  a.o.map (fun x => if (fmtF16.decode a.l).isZero then 0 else fDiv fmtF16 (fmtF16.decode x) (fmtF16.decode a.l))

/-! ## Commands (R303, R304, R331) -/

/-- A command record's fields. -/
structure AttnCmd where
  qoff : Nat
  ooff : Nat
  bmask : Nat
  sigma : Nat
  dlen : Nat
  stk : Nat
  ch : Nat
  nb : Nat
  e0 : Nat
  deriving DecidableEq, Repr

/-- A command record's fields from its words. -/
def attnCmdOf (ws : List Word) : AttnCmd :=
  let a := ws.getD 0 0
  let b := ws.getD 1 0
  let c := ws.getD 2 0
  { qoff := bitsAt a 32 32, ooff := bitsAt a 0 32, bmask := bitsAt b 32 32, sigma := bitsAt b 16 16,
    dlen := bitsAt b 0 10, stk := bitsAt c 53 3, ch := bitsAt c 48 5, nb := bitsAt c 16 16, e0 := bitsAt c 0 16 }

/-- Are the res fields of a command record zero? -/
def attnResOk (ws : List Word) : Bool :=
  bitsAt (ws.getD 1 0) 10 6 == 0 && bitsAt (ws.getD 2 0) 56 8 == 0 && bitsAt (ws.getD 2 0) 32 16 == 0 &&
  (ws.drop 3).all (· == 0)

/-- Bytes of q, and of the result area. -/
def AttnCmd.qBytes (a : AttnCmd) : Nat := 2 * min a.dlen 512
def AttnCmd.outBytes (a : AttnCmd) : Nat := 8 + a.qBytes

/-- The status of a command that is rejected; 0 for one that runs. -/
def AttnCmd.reject (a : AttnCmd) : Nat :=
  if a.dlen = 0 || 512 < a.dlen then 1
  else if 16384 < a.e0 + a.nb then 2
  else if parityChannel a.ch then 3
  else if a.bmask % 65536 != a.bmask / 65536 then 4
  else 0

/-- Values of f16 from a place in HBM on, after the read of their row; none when a line is poisoned. -/
def readHalves (dev : Device) (m : Mach) (pa n : Nat) : Mach × Option (List Nat) :=
  let l : Loc := { space := .hbm, addr := pa }
  (m.touchCellar dev l (2 * n) true,
    if m.mem.rangePoisoned l (2 * n) then none
    else some ((List.range n).map (fun k => m.mem.readNat (l.add (2 * k)) 2)))

/-- The used keys of one page (R303): the physical addresses of each key and its value. -/
def pageKeys (a : AttnCmd) (e : BitVec 32) : List (Nat × Nat) :=
  if !e.getLsbD 15 then []
  else
    let base := framePa a.stk a.ch (e.toNat % 32768)
    let slots := 2048 / (2 * a.dlen)
    (List.range (min (16 * slots) (e.toNat / 65536))).filterMap (fun j =>
      let b := j / slots
      let off := 2 * a.dlen * (j % slots)
      if a.bmask.testBit b && a.bmask.testBit (b + 16) then
        some (base + b * 2048 + off, base + (b + 16) * 2048 + off)
      else none)

/-- One key of a command and its value; after poison the command reads no more. -/
def attnStep (dev : Device) (a : AttnCmd) (q : List Nat) (r : Mach × Option AttnAcc) (p : Nat × Nat) :
    Mach × Option AttnAcc :=
  match r.2 with
  | none => r
  | some acc =>
    match readHalves dev r.1 p.1 a.dlen with
    | (m, none) => (m, none)
    | (m, some k) =>
      let (m, v) := readHalves dev m p.2 a.dlen
      (m, v.map (acc.key a.sigma q k))

/-- A command runs: the machine after its reads and its final state, or none when it meets poison. -/
def runAttn (dev : Device) (m : Mach) (a : AttnCmd) (q : List Nat) : Mach × Option AttnAcc :=
  (List.range a.nb).foldl (fun r i =>
    (pageKeys a (regionGet m.ctx.regions (regionKey a.stk a.ch (a.e0 + i)))).foldl (attnStep dev a q) r)
    (m, some (AttnAcc.init a.dlen))

/-! ## ATTN (R332) -/

/-- Words of q that an operation keeps for each lane. -/
def attnQWords : Nat := 128

/-- The command of the `k`-th lane of an ATTN, and its q. -/
def attnLaneCmd (o : Op) (l : Nat) : AttnCmd :=
  attnCmdOf (o.recs.drop (3 * o.mask.lanes.findIdx (· == l)))

/-- The f16 codes of a lane's q. -/
def attnQ (o : Op) (l : Nat) (n : Nat) : List Nat :=
  let ws := o.recs.drop (3 * o.mask.count + attnQWords * o.mask.lanes.findIdx (· == l))
  (List.range n).map (fun d => bitsAt (ws.getD (d / 4) 0) (16 * (d % 4)) 16)

/-- An ATTN keeps the lanes whose command has ended as bits of PIX, and those whose command their cellar has
accepted as bits of AUX. -/
def Op.attnDone (o : Op) (l : Nat) : Bool := o.pix.testBit l
def Op.attnTaken (o : Op) (l : Nat) : Bool := o.aux.testBit l

/-- Cellars accept the commands of an ATTN whose channel is not on its way back to NORMAL (R283): the machine, and
the operation's lanes whose commands have been accepted. -/
def Mach.takeCommands (m : Mach) (o : Op) : Mach × Nat :=
  o.mask.lanes.foldl (fun r l =>
    let a := attnLaneCmd o l
    if o.attnDone l || o.attnTaken l || a.reject != 0 || (r.1.chan a.stk a.ch).mode = .toNormal then r
    else
      (r.1.modChan a.stk a.ch (fun c => { c with
        attn := c.attn + 1, mode := if c.mode = .normal then .toCompute else c.mode }), r.2 + pow2 l)) (m, o.aux)

/-- Cellars accept the commands of an ATTN that waits. -/
def Mach.acceptAttn (m : Mach) (o : Op) : Mach :=
  match m.op? o.id with
  | none => m
  | some p =>
    let (m, aux) := m.takeCommands p
    m.modOp o.id (fun p => { p with aux := aux })

/-- The records of the lanes of an ATTN, read at issue. -/
def attnRecords (c : Iss) (t : Team) : List (Nat × Nat) → M (List (Nat × List Word))
  | [] => return []
  | x :: r => do
    let ws ← issueWords { c with lanes := Mask.one x.1 } (coreLoc t x.2) x.2 8
    return (x.1, ws) :: (← attnRecords c t r)

/-- The query vectors of the lanes of an ATTN, read at issue, each filled up to one length. -/
def attnQueries (c : Iss) (t : Team) : List (Nat × AttnCmd) → M (List Word)
  | [] => return []
  | x :: r => do
    let ws ← issueWords { c with lanes := Mask.one x.1 } (coreLoc t x.2.qoff) x.2.qoff ((x.2.qBytes + 7) / 8)
    return ws ++ List.replicate (attnQWords - ws.length) 0 ++ (← attnQueries c t r)

/-- The commands of an ATTN, read and checked at issue (R299, R332): what the operation keeps of them, and the
lines of their results. -/
def attnRead (c : Iss) (t : Team) (w : WordG) : M (List Word × List Line) := do
  let xs := c.lanes.lanes.map (fun l => (l, src32 c c.g w.a l))
  checkLanes causeMisaligned xs (fun a => a % 64 != 0)
  checkLanes causeAllocBound xs (fun a => t.csl * 64 < a + 64)
  let rs ← attnRecords c t xs
  let cmds := rs.map (fun r => (r.1, attnCmdOf r.2))
  let badOff (a : AttnCmd) : Option Nat :=
    if a.qoff % 16 != 0 then some a.qoff else if a.ooff % 16 != 0 then some a.ooff else none
  let badEnd (a : AttnCmd) : Option Nat :=
    if t.csl * 64 < a.qoff + a.qBytes then some a.qoff
    else if t.csl * 64 < a.ooff + a.outBytes then some a.ooff else none
  let check (cause : Nat) (f : AttnCmd → Option Nat) : M Unit :=
    match (cmds.filterMap (fun x => f x.2)).head? with
    | some a => trapInfo cause (Mask.ofFn (fun l => cmds.any (fun x => x.1 == l && (f x.2).isSome))) a
    | none => pure ()
  check causeMisaligned badOff
  check causeAllocBound badEnd
  let res := Mask.ofFn (fun l => rs.any (fun r => r.1 == l && !attnResOk r.2))
  if res != 0 then throw (.trap causeEngineArg res c.word)
  let size (l : Nat) : Nat := ((cmds.find? (fun x => x.1 == l)).map (fun x => x.2.outBytes)).getD 0
  let higher := overlapping (cmds.map (fun x => (x.1, x.2.ooff))) size
  if higher != 0 then throw (.trap causeEngineArg higher c.word)
  let qs ← attnQueries c t cmds
  return (rs.flatMap (fun r => r.2.take 3) ++ qs, cmds.flatMap (fun x => linesOf (coreLoc t x.2.ooff) x.2.outBytes))

/-- ATTN at issue. -/
def execAttn (w : WordG) (s : State) : Host.Outcome State Fault Refusal :=
  memWord (.attn w) (fun c => do
    let t ← teamOf c
    let (ws, lines) ← attnRead c t w
    flagRoom c
    let id ← takeLines c (ownable lines)
    let (m, aux) := (← get).takeCommands { c.newOp (← get) id (.attn w) Captured.none with recs := ws }
    set m
    issueAs c id (.attn w) Captured.none [] (fun o => { o with recs := ws, aux := aux })
    return c.run) s

/-- The channel that an ATTN's lane or a BFILL names, when it has not ended there. -/
def usesChannel (o : Op) (stk ch : Nat) : Bool :=
  match o.instr with
  | .attn _ => o.mask.lanes.any (fun l => !o.attnDone l && (attnLaneCmd o l).stk == stk && (attnLaneCmd o l).ch == ch)
  | .bfill _ => bitsAt o.cap.sa 37 3 == stk && bitsAt o.cap.sa 32 5 == ch
  | _ => false

/-- Does an earlier command of the group to the channel stand before operation `o` (R305)? -/
def Mach.channelBehind (m : Mach) (o : Op) (stk ch : Nat) : Bool :=
  m.ctx.ops.any (fun p => p.gid == o.gid && p.seq < o.seq && usesChannel p stk ch)

/-- The lines of a lane's result area that no other unfinished lane shares. -/
def attnLines (t : Team) (o : Op) (l : Nat) : List Line :=
  let of (k : Nat) : List Line := linesOf (coreLoc t (attnLaneCmd o k).ooff) (attnLaneCmd o k).outBytes
  (of l).filter (fun ln => o.mask.lanes.all (fun k => k = l || o.attnDone k || !(of k).contains ln))

/-- A command ends: its word at 0x00, and with OK its vector, are written and its area is released. -/
def Mach.endAttn (m : Mach) (o : Op) (t : Team) (l st : Nat) (a : AttnAcc) : Mach :=
  let cmd := attnLaneCmd o l
  let bs := natLe 8 (st * pow2 32 + (if st = 0 then a.m + 65536 * a.l else 0)) ++
    (if st = 0 then a.out.flatMap (natLe 2) else [])
  let m := m.writeBytes (bytesAt (coreLoc t cmd.ooff) bs)
  let m := m.dropLines o.id (attnLines t o l)
  let m := m.modOp o.id (fun o => { o with pix := o.pix + pow2 l })
  match m.op? o.id with
  | some o => if o.mask.lanes.all (fun l => o.attnDone l) then m.completeOp o else m
  | none => m

/-- One command of an ATTN at its cellar, behind the writes before its word (R342). -/
def attnLane (dev : Device) (m : Mach) (o : Op) (l : Nat) : Mach :=
  match m.team? o.team with
  | none => m
  | some t =>
    let a := attnLaneCmd o l
    let ch := m.chan a.stk a.ch
    if o.st != .running || !o.mask.has l || o.attnDone l || m.writesBehind o then m
    else if a.reject != 0 then m.endAttn o t l a.reject (AttnAcc.init 0)
    else if !o.attnTaken l || !(ch.mode = .compute || ch.mode = .toNormal) || m.channelBehind o a.stk a.ch ||
        o.mask.lanes.any (fun k => k < l && !o.attnDone k && (attnLaneCmd o k).reject == 0 &&
          (attnLaneCmd o k).stk == a.stk && (attnLaneCmd o k).ch == a.ch) then m
    else
      let m := m.modChan a.stk a.ch (fun c => { c with attn := c.attn - 1, attnEnd := m.cyc.toNat })
      let m := { m with attnInWindow := true, attnLast := m.cyc.toNat }
      match runAttn dev m a (attnQ o l a.dlen) with
      | (m, some r) => m.endAttn o t l 0 r
      | (m, none) => m.endAttn o t l 5 (AttnAcc.init 0)

/-- ATTN_COMMAND (R304). -/
def execAttnCommand (op lane : Nat) (s : State) : Host.Outcome State Fault Refusal :=
  match s.mach.op? op with
  | none => .next s
  | some o =>
    match o.instr with
    | .attn _ => .next { s with mach := attnLane s.dev s.mach o lane }
    | _ => .next s

/-- An ATTN goes on: every command that can run does. -/
def progressAttn (dev : Device) (m : Mach) (o : Op) : Mach :=
  o.mask.lanes.foldl (fun m l => match m.op? o.id with
    | some o => attnLane dev m o l
    | none => m) m

/-! ## BFILL (R302, R333) -/

/-- BFILL at issue. -/
def execBfill (w : WordG) (s : State) : Host.Outcome State Fault Refusal :=
  memWord (.bfill w) (fun c => do
    let t ← teamOf c
    let cap := captureS c w
    let a := cap.sa
    let b := cap.sb.toNat
    let n := bitsAt a 16 16
    if b % 4 != 0 then trapInfo causeMisaligned c.run b
    if t.csl * 64 < b + 4 * n then trapInfo causeAllocBound c.run b
    if 16384 < bitsAt a 0 16 + n || parityChannel (bitsAt a 32 5) || bitsAt a 40 24 != 0 then trapWord c causeEngineArg
    let _ ← issueOp c (.bfill w) cap [] (fun o => o)
    return c.run) s

/-- The whole effect of a BFILL. -/
def bfillElem (dev : Device) (m : Mach) (o : Op) (_ : Nat) : Elem := do
  match m.team? o.team with
  | none => .ok m
  | some t =>
    let a := o.cap.sa
    let n := bitsAt a 16 16
    let (m, xs) ← opCores dev t o 4 m ((List.range n).map (fun k => o.cap.sb.toNat + 4 * k))
    let put (r : Region) (x : Nat × Nat) : Region :=
      regionSet r (regionKey (bitsAt a 37 3) (bitsAt a 32 5) (bitsAt a 0 16 + x.2)) (BitVec.ofNat 32 x.1)
    .ok { m with ctx := { m.ctx with regions := xs.zipIdx.foldl put m.ctx.regions } }

/-- A BFILL goes on, behind the group's earlier commands to its channel (R305). -/
def progressBfill (dev : Device) (m : Mach) (o : Op) : Mach :=
  if m.channelBehind o (bitsAt o.cap.sa 37 3) (bitsAt o.cap.sa 32 5) then m
  else m.advanceWhole o (bfillElem dev)

/-! ## Channel modes (R283) -/

/-- FNRM_REQUEST (R273, R283): each bit asks for normal mode; a channel in COMPUTE starts back at once, and a
channel in NORMAL has nothing to honour. -/
def execFnrmRequest (stack : Nat) (v : Word) (s : State) : Host.Outcome State Fault Refusal :=
  let ask (c : Channel) : Channel := match c.mode with
    | .normal => c
    | .compute => { c with fnrm := true, mode := .toNormal }
    | _ => { c with fnrm := true }
  let all (m : Mach) : Mach := (List.range 32).foldl (fun m ch => if v.getLsbD ch then m.modChan stack ch ask else m) m
  -- a nonzero res field breaks a limit, and the write is discarded (R273)
  .next { s with mach := if bitsAt v 32 32 = 0 then all s.mach else s.mach }

/-- The machine with every bank of a channel precharged. -/
def closeBanks (s : State) (stack ch : Nat) : Mach :=
  let ath := (vget s.dev.cellars stack CellarRegs.reset).ath
  s.mach.closeChannel ath stack ch

/-- CHANNEL_TO_COMPUTE_DONE: column commands have ended and every bank is precharged. -/
def execChannelToComputeDone (stack ch : Nat) (s : State) : Host.Outcome State Fault Refusal :=
  if (s.mach.chan stack ch).mode = .toCompute then
    .next { s with mach := (closeBanks s stack ch).modChan stack ch (fun c => { c with mode := .compute }) }
  else .next s

/-- CHANNEL_COMPUTE_IDLE: no ATTN queued or running for 2,048 cycles, or an FNRM bit. -/
def execChannelComputeIdle (stack ch : Nat) (s : State) : Host.Outcome State Fault Refusal :=
  .next { s with mach := s.mach.modChan stack ch (fun c =>
    if c.mode = .compute && (c.fnrm || (c.attn = 0 && c.attnEnd + 2048 ≤ s.mach.cyc.toNat)) then
      { c with mode := .toNormal } else c) }

/-- CHANNEL_TO_NORMAL_DONE: every accepted command has ended and every bank is precharged: the FNRM bit clears,
log event 6 is written, and a waiting ATTN starts a new TO_COMPUTE. -/
def execChannelToNormalDone (stack ch : Nat) (s : State) : Host.Outcome State Fault Refusal :=
  let c := s.mach.chan stack ch
  if c.mode = .toNormal && c.attn = 0 then
    let m := (closeBanks s stack ch).modChan stack ch (fun c => { c with mode := .normal, fnrm := false })
    let entry : LogEntry := { evt := 6, stk := stack, ch := ch, bnk := 0, row := 0, col := 0, cyc := m.cyc }
    let take (m : Mach) (o : Op) : Mach := match o.instr with
      | .attn _ => m.acceptAttn o
      | _ => m
    let m := { m with logs := m.logs ++ [entry] }
    .next { s with mach := m.ctx.ops.foldl take m }
  else .next s

end Sys2Proof.Machine
end

