-- ==== Sys2Proof/Machine/Ready.lean ====
section
/-!
DEFINITION. When a group may issue, when it is ready, and which groups wait for a place (R100 to R105).
-/
namespace Sys2Proof.Machine

/-- May the group issue (R101, R103, R104)? -/
def Mach.canIssue (m : Mach) (g : Group) : Bool :=
  g.sched.active && !g.retired && g.frozen.isNone && !g.asleep && g.frameResident && !m.heldBack g &&
    g.sched.holdUntil ≤ m.cyc.toNat

/-- Is a trap of the group to be delivered before any further word (R361, R362)? -/
def Mach.deliverable (m : Mach) (g : Group) : Bool :=
  g.nextTrap.isSome && g.handling.isNone && g.pair.isNone && g.frozen.isNone && !g.retired &&
    g.frameResident && !m.heldBack g

/-- Does a header's WAIT hold (R54)? -/
def waitHolds (g : Group) (h : Header) : Bool :=
  (List.range 12).all (fun k => !h.wait.getLsbD k || g.flagCount k == 0)

/-- Has a waiting word's wait passed, as far as a barrier tells (R103, R352)? -/
def Mach.barPassed (m : Mach) (w : BarWait) : Bool :=
  match w.bar with
  | .team t b => match m.team? t with
    | some t => (vget t.bars b { ph := 0, cnt := 0, tgt := 0 }).ph != w.phase
    | none => true
  | .cluster c b => match m.cluster? c with
    | some k => (vget k.bars b { ph := 0, cnt := 0, tgt := 0 }).ph != w.phase
    | none => true

/-- The header at which a group's lowest run stands, when the clause cache holds it. -/
def Mach.cachedHeader (m : Mach) (g : Group) : Option Header :=
  match g.nextPc, m.gridOfGroup? g with
  | some pc, some grid =>
    let p := g.lane (firstLane (g.runAt pc))
    if p.idx = 0 then
      (m.cache.find? (fun (k : CachedClause) => k.core == g.core && k.va == codeVa grid p.hdr)).map
        (fun (k : CachedClause) => fieldsHeader (k.words.headD 0))
    else none
  | _, _ => none

/-- The header at which a group's lowest run stands, as the clause cache or else memory holds it; none where it cannot be read
now. A clause whose first word has not issued stands at its header (R98). -/
def Mach.headerAt (dev : Device) (m : Mach) (g : Group) : Option Header :=
  match g.clause with
  | some cl => if cl.begun then none else some cl.header
  | none =>
    match m.cachedHeader g with
    | some h => some h
    | none =>
      match g.nextPc, m.gridOfGroup? g with
      | some pc, some grid =>
        let p := g.lane (firstLane (g.runAt pc))
        if p.idx != 0 || grid.hdr.codeb < p.hdr + 8 then none
        else if m.transHeld dev g.core none (codeVa grid p.hdr) then none
        else match translateRaw dev m .fetch (codeVa grid p.hdr) with
          | .error _ => none
          | .ok l => match served dev m l with
            | .at x =>
              let w := BitVec.ofNat 64 (m.mem.readNat x 8)
              if isHeader w then some (fieldsHeader w) else none
            | _ => none
      | _, _ => none

/-- Does the group stand at a header that fails WAIT (R103)? -/
def Mach.headerWaits (dev : Device) (m : Mach) (g : Group) : Bool :=
  match m.headerAt dev g with
  | some h => !waitHolds g h
  | none => false

/-- Does the waiting word at which a group's run stands still wait (R103): its phase, what its FENCE waits for, the line
that it waits to own? -/
def Mach.wordWaits (dev : Device) (m : Mach) (g : Group) (p : LanePC) : Bool :=
  g.barWaits.any (fun b => b.hdr == p.hdr && b.idx == p.idx && b.level == p.level && !m.barPassed b) ||
  (match g.ownWait, g.ownAt with
   | some id, some l => m.lineHeld (m.unsentBytes dev g.gid m.nextId) id l
   | _, _ => false) ||
  (match g.clause with
   | some c =>
     let w := c.words.getD (p.idx - 1) 0
     (match ofOpcode (bitsAt w 54 10) w with
      | some (.fence f) => g.sched.waitSince.isSome && m.fenceWaits g.gid g.core f
      | _ => false)
   | none => false)

/-- The last condition of R101: a header that passes WAIT, or a word free of interlocks whose wait has passed when it
is a waiting word. A word or header that cannot be read now counts as ready, so that its fetch is tried. -/
def Mach.wordReady (dev : Device) (m : Mach) (g : Group) : Bool :=
  match g.nextPc, m.gridOfGroup? g with
  | some pc, some _ =>
    let p := g.lane (firstLane (g.runAt pc))
    if p.idx = 0 || (g.clause.isSome && !g.midClause) then !m.headerWaits dev g
    else
      !m.wordWaits dev g p &&
      (match g.clause with
       | some c => !pairBlocked g c (p.idx - 1)
       | none => true)
  | _, _ => false

/-- Is the group ready (R101)? -/
def Mach.isReady (dev : Device) (m : Mach) (g : Group) : Bool :=
  !g.retired && g.frozen.isNone && g.frameResident && !m.heldBack g &&
    (m.deliverable g || (!g.asleep && m.wordReady dev g))

/-- Does the group's wait at its header or waiting word still hold (R103)? -/
def Mach.stillWaits (dev : Device) (m : Mach) (g : Group) : Bool :=
  match g.nextPc with
  | none => false
  | some pc =>
    let p := g.lane (firstLane (g.runAt pc))
    if p.idx = 0 then !m.wordReady dev g else m.wordWaits dev g p

/-- The next word of a group, or the first one of its next clause, as far as the clause is at hand. -/
def Mach.nextWord (m : Mach) (g : Group) : Option Instr :=
  match g.nextPc, m.gridOfGroup? g with
  | some pc, some grid =>
    let p := g.lane (firstLane (g.runAt pc))
    let words := match g.clause with
      | some c => c.words
      | none => ((m.cache.find? (fun (k : CachedClause) => k.core == g.core && k.va == codeVa grid p.hdr)).map
          (fun (k : CachedClause) => k.words.drop 1)).getD []
    let w := words.getD (p.idx - 1) 0
    ofOpcode (bitsAt w 54 10) w
  | _, _ => none

/-- Groups of a group's quarter that are ready and pending. -/
def Mach.readyPending (dev : Device) (m : Mach) (core quarter : Nat) : List Group :=
  (m.inQuarter core quarter).filter (fun g => !g.sched.active && m.isReady dev g)

end Sys2Proof.Machine
end

