-- ==== Sys2Proof/Machine/Control.lean ====
section
/-!
DEFINITION. Clause headers and class 000: branches, calls and returns, exits, sleeps, traps, special
registers, LAUNCH and FETCHW (R53 to R56, R118, R119, R144 to R165).
-/
namespace Sys2Proof.Machine

/-! ## Regions and outstanding lane accesses (R368) -/

/-- Is an instruction a lane load, a uniform load or a returning atomic (R368)? -/
def isLaneLoad : Instr → Bool
  | .ld _ => true
  | .ldt _ => true
  | .atom w => !mBit w.mod 3
  | .cas w => !mBit w.mod 3
  | _ => false

/-- Does the group have a lane load outstanding, or a kind-G trap outside its queue (R368)? -/
def Mach.regionHeld (m : Mach) (g : Group) : Bool :=
  m.ctx.ops.any (fun o => o.gid == g.gid && isLaneLoad o.instr && o.st != .done) ||
  g.trapsOut.any (fun t => t.kind == .g)

/-! ## Clause headers (R54 to R57) -/

/-- The run of the group whose turn it is, when its header is to issue (R56). -/
def headerAtIssue (s : State) : Option (Group × Mask × Nat) :=
  match s.mach.group? s.mach.cur with
  | none => none
  | some g =>
    match g.nextPc with
    | some pc =>
      let run := g.runAt pc
      let p := g.lane (firstLane run)
      if p.idx != 0 || g.retired then none else some (g, run, p.hdr)
    | none => none

/-- A trap at a header (R55, R72): no word of the clause has issued. -/
def trapHeader (s : State) (g : Group) (run : Mask) (hdr cause : Nat) (info : Word) : State :=
  trapAt s g hdr s.mach.nextId cause run info

/-- CLAUSE_HEADER_ISSUE (R54 to R57): checks 2 and 3 of R55 trap; a flag that WAIT names, or an
outstanding lane load before a region entry (R368), leaves the run waiting; otherwise the run stands at
word 1 under this header. -/
def execClauseHeaderIssue (h : Header) (s : State) : Host.Outcome State Fault Refusal :=
  match headerAtIssue s with
  | none => .fault .noIssuingRun
  | some (g, run, hdr) =>
    let word := encodeHeader h
    if h.ecls = 7 then .next (trapHeader s g run hdr causeClause word)
    else if !headerOk h then .next (trapHeader s g run hdr causeEncoding word)
    else if !waitHolds g h then
      -- with SWP = 1 the group leaves the active set at once (R103)
      .next { s with mach := s.mach.modGroup g.gid (fun g => { g with sched :=
        { g.sched with waitSince := some (g.sched.waitSince.getD s.mach.cyc.toNat),
                       active := g.sched.active && !h.swp && !g.sched.claim, claim := false,
                       since := if h.swp || g.sched.claim then s.mach.cyc.toNat else g.sched.since } }) }
    else if h.reg && s.mach.regionHeld g then .next s
    else
      let words := match s.mach.gridOfGroup? g with
        | none => []
        | some grid =>
          match s.mach.cache.find? (fun k => k.core == g.core && k.va == codeVa grid hdr) with
          | some k => k.words.drop 1
          | none => []
      .next { s with mach := s.mach.modGroup g.gid (fun g =>
        { g.setLanes run (fun _ p => { p with idx := 1 }) with
          clause := some { hdr := hdr, header := h, words := words, begun := false },
          faultWait := .none,
          sched := { g.sched with waitSince := none } }) }

/-! ## Transfers (R146 to R155) -/

/-- The byte offset of a J word's OFF. -/
def jOff (w : WordJ) : Int := w.off.toInt * 8

/-- Straggler release (R107): a backward branch that moves a lane under Y lets the run with the lowest PC
above the lowest one issue one clause. -/
def grantRelease (c : Iss) (off : Int) (g : Group) : Group :=
  if c.header.y && off < 0 && c.g.serve.isNone then
    match g.minPc g.atLevel with
    | none => g
    | some p =>
      match g.minPc (fun l => g.atLevel l && p < (g.lane l).pc) with
      | none => g
      | some q => { g with serve := some (g.runAt q) }
  else g

/-- Move the lanes of `mask` to a checked target, as BRA, JMP and UBRA do (R148 to R150); the run's other
lanes step on (R58). -/
def branchTo (c : Iss) (mask : Mask) (off : Int) : M Flow := do
  let grid ← gridOf c
  let t : Int := c.off + off
  if !(← isTarget c grid mask t) then trapInfo causeTarget mask (wrapNat 64 t)
  -- lanes that are not moved take index 0 at the next header (R58)
  modCur c (fun g => ((g.stepLanes (c.run &&& ~~~mask) c.header).moveLanes mask t.toNat))
  modCur c (grantRelease c off)
  return 0

def execBra (w : WordJ) (s : State) : Host.Outcome State Fault Refusal :=
  runWord (.bra w) (fun c => branchTo c c.lanes (jOff w)) s

/-- JMP (R149): OFF + S[D]·2^SC words, exact. -/
def execJmp (w : WordJ) (s : State) : Host.Outcome State Fault Refusal :=
  runWord (.jmp w) (fun c =>
    branchTo c c.lanes (8 * (w.off.toInt + (fieldS c.g w.d).toInt * (pow2 (bitsAt w.jmod 0 2) : Nat)))) s

/-- UBRA (R150): the whole run moves when Q[QN] XOR QS is 1, and otherwise steps. -/
def execUbra (w : WordJ) (s : State) : Host.Outcome State Fault Refusal :=
  runWord (.ubra w) (fun c =>
    if c.g.qReg (bitsAt w.jmod 0 2) != w.jmod.getLsbD 2 then branchTo c c.run (jOff w) else return c.run) s

/-- The targets of BRX and CALLX: code-section offsets in the low 32 bits of A, lane by lane (R151). -/
def laneTargets (c : Iss) (a : BitVec 8) : List (Nat × Nat) := c.lanes.lanes.map (fun l => (l, src32 c c.g a l))

/-- The lanes whose targets fail among those still to be checked, and the first failing target (R71). -/
def badTargets (c : Iss) (grid : Grid) : List (Nat × Nat) → M (Mask × Option Nat)
  | [] => return (0, none)
  | x :: r => do
    let ok ← isTarget c grid c.lanes x.2
    let (bad, info) ← badTargets c grid r
    return (if ok then (bad, info) else (Mask.one x.1 ||| bad, some x.2))

/-- Check each lane's target (R151, R153): a trap takes the mask of the failing lanes, and the lowest one's
target. -/
def checkTargets (c : Iss) (grid : Grid) (ts : List (Nat × Nat)) : M Unit := do
  let (bad, info) ← badTargets c grid ts
  match info with
  | some a => trapInfo causeTarget bad a
  | none => pure ()

def execBrx (w : WordG) (s : State) : Host.Outcome State Fault Refusal :=
  runWord (.brx w) (fun c => do
    let grid ← gridOf c
    let ts := laneTargets c w.a
    checkTargets c grid ts
    modCur c (fun g => (g.stepLanes (c.run &&& ~~~c.lanes) c.header).setLanes c.lanes
      (fun l p => { p with hdr := src32 c c.g w.a l, idx := 0 }))
    return 0) s

/-- Registers of the register home that frames may use, in registers (R117, R118). -/
def homeRegs (grid : Grid) : Nat := (grid.hdr.homek * 1024 - 8192) / 128

/-- A transfer that changes levels does not issue while a lane load is outstanding (R368). -/
def regionStall (c : Iss) : M Unit := do
  let m ← get
  if m.regionHeld (← curGroup c) then stall

/-- CALL and CALLX (R152, R153): the frame at the next level, the moved lanes at their targets there, and
the reservation sought at once (R115). -/
def callTo (c : Iss) (dem cato : Nat) (cm : Bool) (ts : Nat → Nat) : M Flow := do
  let grid ← gridOf c
  regionStall c
  let l := c.g.level
  let k := c.g.link l
  let win := min 16 (min k.dem dem)
  let base := k.base + k.dem - win
  if l + 1 = 512 || homeRegs grid < base + dem then trapInfo causeFrameOverflow c.run l
  let link : Link := { reto := c.off + 8, cato := cato, base := base, dem := dem, win := win, cm := cm, held := 0 }
  modCur c (fun g =>
    let g := g.stepLanes (c.run &&& ~~~c.lanes) c.header
    let g := g.setLanes c.lanes (fun i p => { p with hdr := ts i, idx := 0, level := l + 1, region := ts i })
    -- the new frame's own registers are not materialised (R116)
    { g.keepPlaces (fun h => h < k.base + k.dem) with
      links := g.links.take (l + 1) ++ [link], regcnt := g.regcnt + 1 })
  modify (fun m => m.seekFrame c.gid)
  return 0

/-- CALL (R152). -/
def execCall (w : WordJ) (s : State) : Host.Outcome State Fault Refusal :=
  runWord (.call w) (fun c => do
    let grid ← gridOf c
    let t : Int := c.off + jOff w
    if !(← isTarget c grid c.lanes t) then trapInfo causeTarget c.lanes (wrapNat 64 t)
    let ct := w.jmod.getLsbD 0
    callTo c (8 * w.d.toNat) (if ct then c.off + 8 + 8 * bitsAt w.jmod 1 8 else 0) ct (fun _ => t.toNat)) s

/-- CALLX (R153). -/
def execCallx (w : WordG) (s : State) : Host.Outcome State Fault Refusal :=
  runWord (.callx w) (fun c => do
    let grid ← gridOf c
    checkTargets c grid (laneTargets c w.a)
    callTo c (8 * bitsAt w.mod 0 5) 0 false (fun l => src32 c c.g w.a l)) s

/-- The lowest level that RET and UNWIND may leave to: the handler frame's own level in a handler (R363). -/
def floorLevel (g : Group) : Nat :=
  match g.handling with
  | some h => h.level
  | none => 0

/-- The lanes of a word that leaves to a level stand there, at a code-section offset; the run's other lanes
step on. -/
def Group.leave (c : Iss) (level target : Nat) (g : Group) : Group :=
  (g.stepLanes (c.run &&& ~~~c.lanes) c.header).setLanes c.lanes
    (fun _ p => { p with hdr := target, idx := 0, level := level, region := target })

/-- The highest frame that is still needed once lanes have left: a live lane's, or the handler's. -/
def topAfter (g after : Group) : Nat := max after.level (floorLevel g)

/-- Lanes leave to a lower level at a code-section offset (R119): frames that no live lane needs are
released, which waits for their pending marks (R146), and the reservation of the frame that becomes current
is sought (R115). -/
def leaveTo (c : Iss) (level target : Nat) : M Flow := do
  regionStall c
  if c.g.marksAbove (topAfter c.g (c.g.leave c level target)) then stall
  modCur c (fun g => { (g.leave c level target).releaseFrames (floorLevel g) with regcnt := g.regcnt + 1 })
  modify (fun m => m.seekFrame c.gid)
  return 0

/-- RET (R154). The return point is checked under R71. -/
def execRet (w : WordG) (s : State) : Host.Outcome State Fault Refusal :=
  runWord (.ret w) (fun c => do
    let grid ← gridOf c
    let l := c.g.level
    if l ≤ floorLevel c.g then trapInfo causeFrameUnderflow c.run l
    let t := (c.g.link l).reto
    if !(← isTarget c grid c.lanes t) then trapInfo causeTarget c.lanes t
    leaveTo c (l - 1) t) s

/-- The highest level at or below `l` and above `low` whose frame is marked (R155, R363). -/
def markedLevel (g : Group) (low : Nat) : Nat → Option Nat
  | 0 => none
  | l + 1 => if l + 1 ≤ low then none else if (g.link (l + 1)).cm then some (l + 1) else markedLevel g low l

/-- UNWIND (R155): to the nearest marked frame, or down by a count. -/
def execUnwind (w : WordI) (s : State) : Host.Outcome State Fault Refusal :=
  runWord (.unwind w) (fun c => do
    let grid ← gridOf c
    let l := c.g.level
    let n := w.imm.toNat
    if n = 0 then
      match markedLevel c.g (floorLevel c.g) l with
      | none => trapInfo causeFrameUnderflow c.run l
      | some m =>
        let t := (c.g.link m).cato
        if !(← isTarget c grid c.lanes t) then trapInfo causeTarget c.lanes t
        leaveTo c (m - 1) t
    else if l < n + (match c.g.handling with
        | some h => h.level + 1
        | none => 0) then trapInfo causeFrameUnderflow c.run l
    else
      let t := (c.g.link (l - n + 1)).reto
      if !(← isTarget c grid c.lanes t) then trapInfo causeTarget c.lanes t
      leaveTo c (l - n) t) s

/-- The lanes of an EXIT leave the PC table; the run's other lanes step on. -/
def Group.leaveTable (c : Iss) (g : Group) : Group :=
  (g.stepLanes (c.run &&& ~~~c.lanes) c.header).exitLanes c.lanes

/-- EXIT (R156): lanes leave the PC table; frames that no live lane needs are released. A pending mark in them stalls it, but
not the EXIT of the group's last lanes (R146, R379; DEDUCED, log 76). -/
def execExit (w : WordG) (s : State) : Host.Outcome State Fault Refusal :=
  runWord (.exit w) (fun c => do
    let after := c.g.leaveTable c
    if after.livem != 0 && c.g.marksAbove (topAfter c.g after) then stall
    modCur c (fun g => (g.leaveTable c).releaseFrames (floorLevel g))
    modify (fun m => m.seekFrame c.gid)
    return 0) s

/-! ## NOP, YIELD, SLEEP (R157 to R159) -/

def execNop (w : WordG) (s : State) : Host.Outcome State Fault Refusal :=
  runWord (.nop w) (fun c => return c.run) s

/-- YIELD (R157): the group gives up its place at the end of the clause if a ready pending group exists,
which WAIT_SWAP_OUT finds out. -/
def execYield (w : WordG) (s : State) : Host.Outcome State Fault Refusal :=
  runWord (.yield w) (fun c => do
    let m ← get
    if !(m.readyPending c.dev c.g.core c.g.quarter).isEmpty then
      modCur c (fun g => { g with sched := { g.sched with leave := true } })
    return c.run) s

/-- SLEEP (R158, R159): asleep from the end of its clause. -/
def execSleep (w : WordG) (s : State) : Host.Outcome State Fault Refusal :=
  runWord (.sleep w) (fun c => do
    let m ← get
    let a := fieldS c.g w.a
    let z : Sleep := match mOpx w.mod with
      | 0 => .until a
      | 1 => .until (BitVec.ofNat 64 (min (pow2 64 - 1) (m.cyc.toNat + a.toNat)))
      | _ => .promise a (bitsAt w.mod 0 4) c.off c.lanes c.regcnt c.seq none
          (if c.idx ≤ c.header.cnt.toNat then (c.hdr, c.idx + 1) else (c.hdr + 8 * (c.header.cnt.toNat + 2), 0))
    modCur c (fun g => { g with sleep := some z })
    return c.run) s

/-! ## BKPT, TRAP, TRET (R160, R161, R365) -/

/-- A kind-N trap after the word (R160): every lane of the run stands at the next word. -/
def softTrap (c : Iss) (cause : Nat) (code : BitVec 16) : M Flow := do
  modCur c (fun g => g.stepLanes c.run c.header)
  modify (fun m => m.raise c.gid
    { cause := cause, kind := .n, mask := c.lanes, off := c.off, info := code.setWidth 64, regcnt := c.regcnt,
      op := none, seq := c.seq })
  return 0

def execBkpt (w : WordI) (s : State) : Host.Outcome State Fault Refusal :=
  runWord (.bkpt w) (fun c => softTrap c causeBreakpoint w.imm) s

def execTrap (w : WordI) (s : State) : Host.Outcome State Fault Refusal :=
  runWord (.trap w) (fun c => softTrap c causeUserTrap w.imm) s

/-- A peer drain whose PIX has been written: the rows on their way before it are none of it, and rows before those that it
has sent are read again (R243, R367). -/
def Op.rowsFrom (o : Op) (pix : Nat) : Op :=
  match o.instr with
  | .mdrain w =>
    let cols := (regionOf w.mod).cols
    if !mBit w.mod 4 || pix = o.pix then o
    else { o with recs := if o.pix < pix then o.recs.drop ((pix - o.pix) * cols) else [] }
  | _ => o

/-- Resume the operation of a kind-S trap at TRET from the value that PIX holds then (R367); all ones
cancels it. It goes behind the operations issued meanwhile (R311). -/
def Mach.resumeOp (m : Mach) (id : Nat) (pix : Word) : Mach :=
  let st : OpSt := if pix = BitVec.allOnes 64 then .done else .running
  let (mine, rest) := m.ctx.ops.partition (fun o => o.id == id)
  { m with ctx := { m.ctx with ops := rest ++ mine.map (fun o => { o.rowsFrom pix.toNat with pix := pix.toNat, st := st }) } }

/-- Does a register lie in no frame of the group any more (R119)? -/
def Group.released (g : Group) : Reg → Bool
  | .v h => (let k := g.link (g.links.length - 1)
             k.base + k.dem ≤ h)
  | _ => false

/-- Results still to come for registers of released frames are discarded when they come (R156). -/
def Mach.dropResults (m : Mach) (gid : Nat) (regs : List Reg) : Mach :=
  match m.group? gid with
  | none => m
  | some g =>
    let gone := (regs.filter g.released).filterMap (fun r => match r with
      | .v h => some h
      | _ => none)
    if gone.isEmpty then m
    else { m with ctx := { m.ctx with ops := m.ctx.ops.map (fun o => if o.gid == gid then { o with gone := o.gone ++ gone } else o) } }

/-- RETURNING FROM THE EXCEPTION (R365): each lane that was live at delivery exits, or takes its saved or
rewritten PC, level and region entry; the handler frame is released; a stopped operation goes on from PIX;
the trap leaves the queue. -/
def Mach.tret (m : Mach) (gid : Nat) (h : Handling) (v0 v1 v2 : LaneVals) : Mach :=
  let kill (l : Nat) : Bool := (vget v1 l 0).getLsbD 30
  let was (l : Nat) : LanePC := vget h.saved l LanePC.absent
  let pix := ((m.group? gid).map (·.pix)).getD 0
  let marks := ((m.group? gid).map (·.marks)).getD []
  let m := m.modGroup gid (fun g =>
    let live := Mask.ofFn (fun l => (was l).live && (g.lane l).live)
    let dead := Mask.ofFn (fun l => live.has l && kill l)
    let back := live &&& ~~~dead
    let g := g.setLanes back (fun l p =>
      let o := (vget v0 l 0).toNat
      { p with hdr := o, idx := if o = (was l).hdr then (was l).idx else 0, level := (was l).level,
               region := (vget v2 l 0).toNat })
    let g := g.exitLanes dead
    let g := { g with handling := none, clause := none, serve := none }
    let g := g.dequeueTrap h.trap
    let g := g.releaseFrames 0
    let g := { g with marks := g.marks.filter (fun p => !g.released p.2) }
    { g with barWaits := g.barWaits.filter (fun b =>
        laneSlots.any (fun l => b.mask.has l && (g.lane l).live && (g.lane l).hdr == b.hdr && (g.lane l).idx == b.idx)) })
  let m := match h.trap.op with
    | some id => m.resumeOp id pix
    | none => m
  (m.dropResults gid (marks.map (·.2))).seekFrame gid

/-- The rewritten PCs of a handler's lanes, checked before any lane changes (R365). -/
def tretTargets (c : Iss) (grid : Grid) (h : Handling) (v0 v1 : LaneVals) : List Nat → M Unit
  | [] => pure ()
  | l :: r => do
    let was := vget h.saved l LanePC.absent
    if was.live && !(vget v1 l 0).getLsbD 30 && (vget v0 l 0).toNat != was.hdr then
      if !(← isTarget c grid c.lanes (vget v0 l 0).toNat) then
        trapInfo causeTarget c.lanes (vget v0 l 0).toNat
    tretTargets c grid h v0 v1 r

/-- TRET (R161): legal only in the handler frame. A rewritten PC is checked under R71 before any lane
changes. -/
def execTret (w : WordG) (s : State) : Host.Outcome State Fault Refusal :=
  runWord (.tret w) (fun c => do
    let grid ← gridOf c
    match c.g.handling with
    | none => trapInfo causeNotInHandler c.run 0
    | some h =>
      if c.g.level != h.level then trapInfo causeNotInHandler c.run 0
      -- V0 to V2 are sources that no field names (R99)
      if (markV c [0, 1, 2]).any (fun r => c.g.marks.any (fun p => p.2 == r)) then stall
      let v0 := c.g.vReg c.free 0
      let v1 := c.g.vReg c.free 1
      let v2 := c.g.vReg c.free 2
      tretTargets c grid h v0 v1 c.g.livem.lanes
      modify (fun m => m.tret c.gid h v0 v1 v2)
      return 0) s

/-! ## Special registers (R73, R162, R163, R360) -/

/-- TQS (R360). -/
def Group.tqs (g : Group) : Nat :=
  (if g.trapsOut.isEmpty then 0 else 32) + (if g.handling.isSome then 16 else 0) + g.traps.length

/-- KIND codes of TRCAUSE (R360). -/
def trapKindCode : TrapKind → Nat
  | .w => 0
  | .n => 1
  | .s => 2
  | .g => 3

/-- The trap record registers 0x16 to 0x1B: zero outside a handler (R360). -/
def Group.trapReg (g : Group) (n : Nat) : Nat :=
  match g.handling with
  | none => 0
  | some h =>
    match n with
    | 0x16 => trapKindCode h.trap.kind * 4096 + h.trap.cause
    | 0x17 => h.trap.mask.toNat
    | 0x18 => h.trap.off % pow2 32
    | 0x19 => h.trap.info.toNat
    | 0x1A => h.trap.regcnt.toNat
    | _ => (vget h.saved (firstLane h.trap.mask) LanePC.absent).region % pow2 32

/-- A uniform special register of R73. -/
def specialReg (c : Iss) (m : Mach) (t : Team) (grid : Grid) (n : Nat) : Nat :=
  let g := c.g
  match n with
  | 0x01 => g.num
  | 0x04 => grid.hdr.tx + grid.hdr.ty * pow2 11 + grid.hdr.tz * pow2 22
  | 0x05 => t.x + t.y * pow2 32 + t.z * pow2 48
  | 0x06 => t.lin
  | 0x07 => grid.gx + grid.gy * pow2 32 + grid.gz * pow2 48
  | 0x08 => t.member + (t.x % max 1 grid.hdr.cw) * 256 + (t.y % max 1 grid.hdr.ch) * 4096
  | 0x09 => grid.handle.toNat
  | 0x0A => g.loc
  | 0x0B => c.dev.devnum.toNat
  | 0x0C => m.cyc.toNat
  | 0x0D => (match g.handling with
      | some h => if h.trap.kind = .s then g.pix.toNat else 0
      | none => g.pix.toNat)
  | 0x0E => g.fbb.toNat
  | 0x0F => g.tqs
  | 0x10 => g.livem.toNat
  | 0x11 => c.run.toNat
  | 0x12 => g.framed
  | 0x13 => if g.satf then 1 else 0
  | 0x14 => t.sgrp.getD 0xFF
  | k => g.trapReg k

/-- A lane special register of R73: LANEID, TEAMPOS, LANEXYZ. -/
def laneReg (g : Group) (grid : Grid) (n l : Nat) : Nat :=
  let p := g.num * 32 + l
  let tx := max 1 grid.hdr.tx
  let ty := max 1 grid.hdr.ty
  match n with
  | 0x00 => l
  | 0x02 => p
  | _ => p % tx + (p / tx % ty) * pow2 10 + (p / (tx * ty)) * pow2 20

/-- SREAD (R162). -/
def execSread (w : WordI) (s : State) : Host.Outcome State Fault Refusal :=
  runWord (.sread w) (fun c => do
    let m ← get
    let t ← teamOf c
    let grid ← gridOf c
    let n := bitsAt w.imm 0 8
    let ty : Ty := match mTyD w.mod with
      | .bits 64 => .nat 64
      | _ => .nat 32
    let val (l : Nat) : Nat := if srLane n then laneReg c.g grid n l else specialReg c m t grid n
    if 192 ≤ w.d.toNat then
      modCur c (fun g => g.writeS (w.d.toNat - 192) (BitVec.ofNat 64 (wrapNat (tyWidth ty) (val 0))))
    else modCur c (fun g => writeTy c g ty w.d (fun l => val l))
    return c.run) s

/-- Invalidate clause caches: one core's, or every core's (R75). -/
def Mach.dropClauses (m : Mach) (core : Option Nat) : Mach :=
  { m with cache := match core with
      | some k => m.cache.filter (fun e => e.core != k)
      | none => [] }

/-- Do packets of the core still have to be performed that an acquire at .dev waits for (R337, R340)? -/
def Mach.coreBusy (m : Mach) (core : Nat) (lanesOf : Pkt → Bool) : Bool :=
  m.net.any (fun p => p.core == core && !p.performed && lanesOf p)

/-- SWRITE (R163): PIX, SATF or CCINV (R75). -/
def execSwrite (w : WordI) (s : State) : Host.Outcome State Fault Refusal :=
  runWord (.swrite w) (fun c => do
    let a := fieldS c.g w.a
    match bitsAt w.imm 0 8 with
    | 0x0D => modCur c (fun g => { g with pix := a })
    | 0x13 => modCur c (fun g => { g with satf := a.getLsbD 0 })
    | _ =>
      if 2 ≤ a.toNat then trapWord c causeEncoding
      modify (fun m => m.dropClauses (if a.getLsbD 0 then none else some c.g.core))
    return c.run) s

/-! ## LAUNCH and FETCHW (R164, R165) -/

/-- LAUNCH (R164): one request to the distributor, with release semantics at .dev scope. -/
def execLaunch (w : WordG) (s : State) : Host.Outcome State Fault Refusal :=
  runWord (.launch w) (fun c => do
    let cv := fieldS c.g w.c
    if cv.toNat % 8 != 0 then trapInfo causeMisaligned c.run cv.toNat
    let _ ← transLanes c .laneWrite (some c.run) [(0, cv.toNat)]
    if c.lanes = 0 then return c.run
    flagRoom c
    -- release at .dev: every earlier access of the group and write of its core is performed first (R40, R340)
    releaseWait c 2 3
    let id ← issueOp c (.launch w) (captureS c w) [] (fun o => o)
    modify (fun m => { m with ctx := { m.ctx with launches := m.ctx.launches ++
      [{ reached := m.cyc.toNat, op := id, a := fieldS c.g w.a, patch := fieldS c.g w.b, status := cv }] } })
    return c.run) s

/-- A handed team retires (R49): its grid no longer counts it. -/
def Group.dropHanded (g : Group) : Group := { g with handed := none }

/-- FETCHW (R165). -/
def execFetchw (w : WordG) (s : State) : Host.Outcome State Fault Refusal :=
  runWord (.fetchw w) (fun c => do
    let t ← teamOf c
    let b := (fieldS c.g w.b).toNat
    if b % 16 != 0 then trapInfo causeMisaligned c.run b
    if t.csl * 64 < b + 16 then trapInfo causeAllocBound c.run b
    let m ← get
    if m.ctx.fetches.any (fun f => f.gid == c.gid) ||
        m.ctx.ops.any (fun o => o.gid == c.gid && o.st != .done && (match o.instr with
          | .fetchw _ => true
          | _ => false)) then stall
    if c.lanes = 0 then return c.run
    let l := coreLoc t b
    recallLines c [l] 16
    flagRoom c
    modify (fun m => { m with mem := m.mem.writeNat (l.add 14) 2 0 })
    modCur c Group.dropHanded
    let id ← issueOp c (.fetchw w) (captureS c w) [] (fun o => o)
    modify (fun m => { m with ctx := { m.ctx with fetches := m.ctx.fetches ++
      [{ op := id, gid := c.gid, handle := BitVec.ofNat 32 (fieldS c.g w.a).toNat, mailbox := b }] } })
    return c.run) s

end Sys2Proof.Machine
end

