-- ==== Sys2Proof/Machine/Uniform.lean ====
section
/-!
DEFINITION. Class 001, the uniform integer family (R166 to R172), and QAND, QOR, QNOT (R176).
-/
namespace Sys2Proof.Machine

/-- IMM16 as the last source of a type: sign-extended for .iN, zero-extended otherwise (R166, R177). -/
def immBits (t : Ty) (imm : BitVec 16) : Nat :=
  match t with
  | .int _ => wrapNat 64 imm.toInt
  | _ => imm.toNat

/-- Write a uniform result of a type, extended to 64 bits (R124, R166). -/
def uniOut (g : Group) (d : BitVec 8) (t : Ty) (x : Int) : Group :=
  g.writeS (d.toNat - 192) (BitVec.ofNat 64 (extendTy t 64 x))

/-- An operation on two sources read by type. -/
def uni2 (m : BitVec 12) (d : BitVec 8) (a b : Nat) (f : Ty → Int → Int → Int) (g : Group) : Group :=
  let t := mTyD m
  uniOut g d t (f t (readTy t a) (readTy t b))

/-- Wrap or clamp an exact result (R167). -/
def fit (m : BitVec 12) (t : Ty) (x : Int) : Int := (fitInt t (mSat m) x).1

/-! The operations of R167 and R180 on exact values. -/

def opAdd (m : BitVec 12) (t : Ty) (a b : Int) : Int := fit m t (a + b)
def opSub (m : BitVec 12) (t : Ty) (a b : Int) : Int := fit m t (a - b)
def opMul (_ : Ty) (a b : Int) : Int := a * b
/-- The high N bits of the 2N-bit product. -/
def opMulh (t : Ty) (a b : Int) : Int := (a * b) / ((pow2 (tyWidth t) : Nat) : Int)
def opMin (_ : Ty) (a b : Int) : Int := min a b
def opMax (_ : Ty) (a b : Int) : Int := max a b
def opAnd (_ : Ty) (a b : Int) : Int := (a.toNat &&& b.toNat : Nat)
def opOr (_ : Ty) (a b : Int) : Int := (a.toNat ||| b.toNat : Nat)
def opXor (_ : Ty) (a b : Int) : Int := (a.toNat ^^^ b.toNat : Nat)
def opNot (t : Ty) (a : Int) : Int := (pow2 (tyWidth t) : Nat) - 1 - a

/-- A shifted left by a count; 0 from the width on (R167). -/
def opShl (t : Ty) (a : Int) (n : Nat) : Int := if tyWidth t ≤ n then 0 else a * (pow2 n : Nat)

/-- A shifted right: sign bits for .iN, zeros otherwise; all of them from the width on (R167). -/
def opShr (t : Ty) (a : Int) (n : Nat) : Int :=
  if tyWidth t ≤ n then (if a < 0 then -1 else 0) else a / ((pow2 n : Nat) : Int)

/-- The 64 bits of an S source. -/
def s64 (c : Iss) (x : BitVec 8) : Nat := (fieldS c.g x).toNat

/-- A two-source word in format G. -/
def uniG2 (i : Instr) (w : WordG) (f : Ty → Int → Int → Int) (s : State) : Host.Outcome State Fault Refusal :=
  regWord i (fun c g => uni2 w.mod w.d (s64 c w.a) (s64 c w.b) f g) s

/-- A two-source word in format I. -/
def uniI2 (i : Instr) (w : WordI) (f : Ty → Int → Int → Int) (s : State) : Host.Outcome State Fault Refusal :=
  regWord i (fun c g => uni2 w.mod w.d (s64 c w.a) (immBits (mTyD w.mod) w.imm) f g) s

def execSadd (w : WordG) (s : State) : Host.Outcome State Fault Refusal := uniG2 (.sadd w) w (opAdd w.mod) s
def execSaddI (w : WordI) (s : State) : Host.Outcome State Fault Refusal := uniI2 (.saddI w) w (opAdd w.mod) s
def execSsub (w : WordG) (s : State) : Host.Outcome State Fault Refusal := uniG2 (.ssub w) w (opSub w.mod) s
def execSsubI (w : WordI) (s : State) : Host.Outcome State Fault Refusal := uniI2 (.ssubI w) w (opSub w.mod) s
def execSmul (w : WordG) (s : State) : Host.Outcome State Fault Refusal := uniG2 (.smul w) w opMul s
def execSmulI (w : WordI) (s : State) : Host.Outcome State Fault Refusal := uniI2 (.smulI w) w opMul s
def execSmulh (w : WordG) (s : State) : Host.Outcome State Fault Refusal := uniG2 (.smulh w) w opMulh s
def execSand (w : WordG) (s : State) : Host.Outcome State Fault Refusal := uniG2 (.sand w) w opAnd s
def execSandI (w : WordI) (s : State) : Host.Outcome State Fault Refusal := uniI2 (.sandI w) w opAnd s
def execSor (w : WordG) (s : State) : Host.Outcome State Fault Refusal := uniG2 (.sor w) w opOr s
def execSorI (w : WordI) (s : State) : Host.Outcome State Fault Refusal := uniI2 (.sorI w) w opOr s
def execSxor (w : WordG) (s : State) : Host.Outcome State Fault Refusal := uniG2 (.sxor w) w opXor s
def execSxorI (w : WordI) (s : State) : Host.Outcome State Fault Refusal := uniI2 (.sxorI w) w opXor s
def execSmin (w : WordG) (s : State) : Host.Outcome State Fault Refusal := uniG2 (.smin w) w opMin s
def execSminI (w : WordI) (s : State) : Host.Outcome State Fault Refusal := uniI2 (.sminI w) w opMin s
def execSmax (w : WordG) (s : State) : Host.Outcome State Fault Refusal := uniG2 (.smax w) w opMax s
def execSmaxI (w : WordI) (s : State) : Host.Outcome State Fault Refusal := uniI2 (.smaxI w) w opMax s

/-- SMAD: A × B + C, wrap. -/
def execSmad (w : WordG) (s : State) : Host.Outcome State Fault Refusal :=
  regWord (.smad w) (fun c g =>
    let t := mTyD w.mod
    uniOut g w.d t (readTy t (s64 c w.a) * readTy t (s64 c w.b) + readTy t (s64 c w.c))) s

def execSnot (w : WordG) (s : State) : Host.Outcome State Fault Refusal :=
  regWord (.snot w) (fun c g => let t := mTyD w.mod; uniOut g w.d t (opNot t (readTy t (s64 c w.a)))) s

/-- SSHL: the count is all 64 bits of B (R167). -/
def execSshl (w : WordG) (s : State) : Host.Outcome State Fault Refusal :=
  regWord (.sshl w) (fun c g => let t := mTyD w.mod; uniOut g w.d t (opShl t (readTy t (s64 c w.a)) (s64 c w.b))) s

/-- A shift count in the I form is zero-extended (R166). -/
def execSshlI (w : WordI) (s : State) : Host.Outcome State Fault Refusal :=
  regWord (.sshlI w) (fun c g => let t := mTyD w.mod; uniOut g w.d t (opShl t (readTy t (s64 c w.a)) w.imm.toNat)) s

def execSshr (w : WordG) (s : State) : Host.Outcome State Fault Refusal :=
  regWord (.sshr w) (fun c g => let t := mTyD w.mod; uniOut g w.d t (opShr t (readTy t (s64 c w.a)) (s64 c w.b))) s

def execSshrI (w : WordI) (s : State) : Host.Outcome State Fault Refusal :=
  regWord (.sshrI w) (fun c g => let t := mTyD w.mod; uniOut g w.d t (opShr t (readTy t (s64 c w.a)) w.imm.toNat)) s

/-- SSEL: A if Q[OPX] is 1, else B. -/
def execSsel (w : WordG) (s : State) : Host.Outcome State Fault Refusal :=
  regWord (.ssel w) (fun c g =>
    let t := mTyD w.mod
    uniOut g w.d t (readTy t (if c.g.qReg (mOpx w.mod) then s64 c w.a else s64 c w.b))) s

/-- SCMP (R168): Q[D] := A CMP B. -/
def execScmp (w : WordG) (s : State) : Host.Outcome State Fault Refusal :=
  regWord (.scmp w) (fun c g => g.writeQ w.d.toNat (cmpInt (mTyD w.mod) (mRnd w.mod) (s64 c w.a) (s64 c w.b))) s

def execScmpI (w : WordI) (s : State) : Host.Outcome State Fault Refusal :=
  regWord (.scmpI w) (fun c g =>
    g.writeQ w.d.toNat (cmpInt (mTyD w.mod) (mRnd w.mod) (s64 c w.a) (immBits (mTyD w.mod) w.imm))) s

def execSmov (w : WordG) (s : State) : Host.Outcome State Fault Refusal :=
  regWord (.smov w) (fun c g => let t := mTyD w.mod; uniOut g w.d t (readTy t (s64 c w.a))) s

/-- SMOVI (R169): IMM41 sign-extended. -/
def execSmovi (w : WordL) (s : State) : Host.Outcome State Fault Refusal :=
  regWord (.smovi w) (fun _ g => g.writeS (w.d.toNat - 192) (w.imm.signExtend 64)) s

/-- A bit field of a value, of a given width, zero- or sign-extended (R170, R183). -/
def bitField (signed : Bool) (a pos len : Nat) : Int :=
  let x := a / pow2 pos % pow2 len
  if signed && len != 0 && pow2 (len - 1) ≤ x then (x : Int) - (pow2 len : Nat) else x

/-- A value with a bit field replaced (R170, R183). -/
def insertField (width d a pos len : Nat) : Nat :=
  let mask := (pow2 len - 1) * pow2 pos
  (d &&& (pow2 width - 1 - mask)) ||| (a % pow2 len * pow2 pos)

/-- SBFE (R170). -/
def execSbfe (w : WordG) (s : State) : Host.Outcome State Fault Refusal :=
  regWord (.sbfe w) (fun c g =>
    let t := mTyD w.mod
    let pos := s64 c w.b % 64
    uniOut g w.d t (bitField (isInt t) (s64 c w.a) pos (min (s64 c w.c % 128) (64 - pos)))) s

/-- SBFI (R170): D is read as well as written. -/
def execSbfi (w : WordG) (s : State) : Host.Outcome State Fault Refusal :=
  regWord (.sbfi w) (fun c g =>
    let pos := s64 c w.b % 64
    g.writeS (w.d.toNat - 192)
      (BitVec.ofNat 64 (insertField 64 (s64 c w.d) (s64 c w.a) pos (min (s64 c w.c % 128) (64 - pos))))) s

/-- SPOPC: the count is written as a 64-bit value. -/
def execSpopc (w : WordG) (s : State) : Host.Outcome State Fault Refusal :=
  regWord (.spopc w) (fun c g =>
    g.writeS (w.d.toNat - 192) (BitVec.ofNat 64 (popCount (tyWidth (mTyD w.mod)) (s64 c w.a)))) s

def execSclz (w : WordG) (s : State) : Host.Outcome State Fault Refusal :=
  regWord (.sclz w) (fun c g =>
    g.writeS (w.d.toNat - 192) (BitVec.ofNat 64 (leadZeros (tyWidth (mTyD w.mod)) (s64 c w.a)))) s

/-- SADDR (R171): A + B·2^SH + C, and Q3. -/
def execSaddr (w : WordG) (s : State) : Host.Outcome State Fault Refusal :=
  regWord (.saddr w) (fun c g =>
    let x := s64 c w.a + s64 c w.b * pow2 (bitsAt w.mod 6 6) + s64 c w.c
    (g.writeS (w.d.toNat - 192) (BitVec.ofNat 64 x)).writeQ 3 (addrOverflow x)) s

/-- The byte of a const section at an offset: what stands there, or where writes to the section have changed it since the grid
became ready one of the bytes that have stood there, free which (R20). -/
def constByte (grid : Grid) (free off : Nat) (now : Byte) : Byte :=
  let olds := (grid.old.filter (fun p => p.1 == off)).map (·.2)
  if olds.isEmpty then now else (now :: olds).getD (Config.constPick free % (olds.length + 1)) now

/-- The bytes of a const section from an offset on, as SLDC takes them. -/
def constBytes (grid : Grid) (free off : Nat) (bs : List Byte) : List Byte :=
  bs.zipIdx.map (fun p => constByte grid (free + p.2) (off + p.2) p.1)

/-- SLDC (R172): the parameter copy, where an uncorrectable word that the access touches traps, or the const section through
a read translation. Bytes beyond the end read as zero and are never read. -/
def execSldc (w : WordI) (s : State) : Host.Outcome State Fault Refusal :=
  runWord (.sldc w) (fun c => do
    let grid ← gridOf c
    let t := mTyD w.mod
    let n := tyWidth t / 8
    let o := s64 c w.a + w.imm.toNat
    if o % n != 0 then trapInfo causeMisaligned c.run o
    if mOpx w.mod = 0 then
      if o < grid.pbytes && grid.badParams.contains (o / 8 * 8) then trapInfo causePoison c.run o
      let x := leNat ((List.range n).map (fun k => if o + k < grid.pbytes then cellGet grid.params (o + k) else 0))
      modCur c (fun g => g.writeS (w.d.toNat - 192) (BitVec.ofNat 64 x))
    else if grid.hdr.constb ≤ o then
      modCur c (fun g => g.writeS (w.d.toNat - 192) 0)
    else
      let va := grid.image + grid.hdr.consto + o
      let ls ← transLanes c .laneRead (some c.run) [(0, va)]
      let m ← get
      match ls.head? with
      | none => stall
      | some x =>
        match m.homeRead c.dev x.2 n with
        | none =>
          set (m.askTier c.dev x.2)
          stall
        | some (m, bs, bad) =>
          if !bad.isEmpty then trapInfo causePoison c.run (va - va % 64)
          set m
          let bs := constBytes grid c.free o bs
          -- a .b64 read whose last word lies beyond CONSTB reads zero there
          let v := leNat ((List.range n).map (fun k => if o + k < grid.hdr.constb then bs.getD k 0 else 0))
          modCur c (fun g => g.writeS (w.d.toNat - 192) (BitVec.ofNat 64 v))
    return c.run) s

/-! ## Q predicates (R176) -/

def execQand (w : WordG) (s : State) : Host.Outcome State Fault Refusal :=
  regWord (.qand w) (fun c g => g.writeQ w.d.toNat (c.g.qReg w.a.toNat && c.g.qReg w.b.toNat)) s
def execQor (w : WordG) (s : State) : Host.Outcome State Fault Refusal :=
  regWord (.qor w) (fun c g => g.writeQ w.d.toNat (c.g.qReg w.a.toNat || c.g.qReg w.b.toNat)) s
def execQnot (w : WordG) (s : State) : Host.Outcome State Fault Refusal :=
  regWord (.qnot w) (fun c g => g.writeQ w.d.toNat (!c.g.qReg w.a.toNat)) s

end Sys2Proof.Machine
end

