-- ==== Sys2Proof/Machine/VecInt.lean ====
section
/-!
DEFINITION. Class 010, the vector integer family: R180 to R190.
-/
namespace Sys2Proof.Machine

/-- A vector word whose lanes write a result of a type, each saying whether a clamp changed it: SATF is set
when one did in some lane of Lanes(run) (R178, R180). -/
def laneWord (i : Instr) (t : Ty) (d : BitVec 8) (f : Iss → Nat → Int × Bool) (s : State) :
    Host.Outcome State Fault Refusal :=
  regWord i (fun c g =>
    let g := writeTy c g t d (fun l => (f c l).1)
    if c.lanes.lanes.any (fun l => (f c l).2) then { g with satf := true } else g) s

/-- A two-source integer word in format G: the exact result, wrapped or clamped (R180). -/
def vecG2 (i : Instr) (w : WordG) (f : Int → Int → Int) (s : State) : Host.Outcome State Fault Refusal :=
  let t := mTyD w.mod
  laneWord i t w.d (fun c l =>
    fitInt t (mSat w.mod) (f (readTy t (srcTy c c.g t w.a l)) (readTy t (srcTy c c.g t w.b l)))) s

/-- A two-source integer word in format I. -/
def vecI2 (i : Instr) (w : WordI) (f : Int → Int → Int) (s : State) : Host.Outcome State Fault Refusal :=
  let t := mTyD w.mod
  laneWord i t w.d (fun c l =>
    fitInt t (mSat w.mod) (f (readTy t (srcTy c c.g t w.a l)) (readTy t (immBits t w.imm)))) s

/-- A one-source integer word. -/
def vecG1 (i : Instr) (w : WordG) (f : Int → Int) (s : State) : Host.Outcome State Fault Refusal :=
  let t := mTyD w.mod
  laneWord i t w.d (fun c l => fitInt t (mSat w.mod) (f (readTy t (srcTy c c.g t w.a l)))) s

def execVadd (w : WordG) (s : State) : Host.Outcome State Fault Refusal := vecG2 (.vadd w) w (· + ·) s
def execVaddI (w : WordI) (s : State) : Host.Outcome State Fault Refusal := vecI2 (.vaddI w) w (· + ·) s
def execVsub (w : WordG) (s : State) : Host.Outcome State Fault Refusal := vecG2 (.vsub w) w (· - ·) s
def execVsubI (w : WordI) (s : State) : Host.Outcome State Fault Refusal := vecI2 (.vsubI w) w (· - ·) s
def execVmul (w : WordG) (s : State) : Host.Outcome State Fault Refusal := vecG2 (.vmul w) w (· * ·) s
def execVmulI (w : WordI) (s : State) : Host.Outcome State Fault Refusal := vecI2 (.vmulI w) w (· * ·) s
def execVmulh (w : WordG) (s : State) : Host.Outcome State Fault Refusal :=
  vecG2 (.vmulh w) w (opMulh (mTyD w.mod)) s
def execVmin (w : WordG) (s : State) : Host.Outcome State Fault Refusal := vecG2 (.vmin w) w min s
def execVminI (w : WordI) (s : State) : Host.Outcome State Fault Refusal := vecI2 (.vminI w) w min s
def execVmax (w : WordG) (s : State) : Host.Outcome State Fault Refusal := vecG2 (.vmax w) w max s
def execVmaxI (w : WordI) (s : State) : Host.Outcome State Fault Refusal := vecI2 (.vmaxI w) w max s
def execVand (w : WordG) (s : State) : Host.Outcome State Fault Refusal := vecG2 (.vand w) w (opAnd (mTyD w.mod)) s
def execVandI (w : WordI) (s : State) : Host.Outcome State Fault Refusal := vecI2 (.vandI w) w (opAnd (mTyD w.mod)) s
def execVor (w : WordG) (s : State) : Host.Outcome State Fault Refusal := vecG2 (.vor w) w (opOr (mTyD w.mod)) s
def execVorI (w : WordI) (s : State) : Host.Outcome State Fault Refusal := vecI2 (.vorI w) w (opOr (mTyD w.mod)) s
def execVxor (w : WordG) (s : State) : Host.Outcome State Fault Refusal := vecG2 (.vxor w) w (opXor (mTyD w.mod)) s
def execVxorI (w : WordI) (s : State) : Host.Outcome State Fault Refusal := vecI2 (.vxorI w) w (opXor (mTyD w.mod)) s
def execVnot (w : WordG) (s : State) : Host.Outcome State Fault Refusal := vecG1 (.vnot w) w (opNot (mTyD w.mod)) s
def execVabs (w : WordG) (s : State) : Host.Outcome State Fault Refusal := vecG1 (.vabs w) w (fun a => a.natAbs) s
def execVneg (w : WordG) (s : State) : Host.Outcome State Fault Refusal := vecG1 (.vneg w) w (fun a => -a) s

/-- VMAD: A × B + C, wrapped or clamped. -/
def execVmad (w : WordG) (s : State) : Host.Outcome State Fault Refusal :=
  let t := mTyD w.mod
  laneWord (.vmad w) t w.d (fun c l =>
    let r (x : BitVec 8) : Int := readTy t (srcTy c c.g t x l)
    fitInt t (mSat w.mod) (r w.a * r w.b + r w.c)) s

/-- A shift in format G: the count is the low 32 bits of B as n32 (R180). -/
def vecShiftG (i : Instr) (w : WordG) (f : Ty → Int → Nat → Int) (s : State) : Host.Outcome State Fault Refusal :=
  let t := mTyD w.mod
  laneWord i t w.d (fun c l => (f t (readTy t (srcTy c c.g t w.a l)) (src32 c c.g w.b l), false)) s

/-- A shift in format I: the count is zero-extended (R177). -/
def vecShiftI (i : Instr) (w : WordI) (f : Ty → Int → Nat → Int) (s : State) : Host.Outcome State Fault Refusal :=
  let t := mTyD w.mod
  laneWord i t w.d (fun c l => (f t (readTy t (srcTy c c.g t w.a l)) w.imm.toNat, false)) s

def execVshl (w : WordG) (s : State) : Host.Outcome State Fault Refusal := vecShiftG (.vshl w) w opShl s
def execVshlI (w : WordI) (s : State) : Host.Outcome State Fault Refusal := vecShiftI (.vshlI w) w opShl s
def execVshr (w : WordG) (s : State) : Host.Outcome State Fault Refusal := vecShiftG (.vshr w) w opShr s
def execVshrI (w : WordI) (s : State) : Host.Outcome State Fault Refusal := vecShiftI (.vshrI w) w opShr s

/-- A rounding shift right of a 32-bit value, narrowed to a type (R185). -/
def shrr (m : BitVec 12) (x cnt : Nat) : Int × Bool :=
  let t := mTyD m
  let a := readTy (if isInt t then .int 32 else .nat 32) x
  fitInt t (mSat m) (roundInt (mRnd m) (a < 0) a.natAbs (-(min cnt 32 : Nat)))

def execVshrr (w : WordG) (s : State) : Host.Outcome State Fault Refusal :=
  laneWord (.vshrr w) (mTyD w.mod) w.d (fun c l => shrr w.mod (src32 c c.g w.a l) (src32 c c.g w.b l)) s

def execVshrrI (w : WordI) (s : State) : Host.Outcome State Fault Refusal :=
  laneWord (.vshrrI w) (mTyD w.mod) w.d (fun c l => shrr w.mod (src32 c c.g w.a l) w.imm.toNat) s

/-- The bit field that B and C place in a 32-bit value: its position and length (R183). -/
def fieldOf (c : Iss) (w : WordG) (l : Nat) : Nat × Nat :=
  let pos := src32 c c.g w.b l % 32
  (pos, min (src32 c c.g w.c l % 64) (32 - pos))

/-- VBFE (R183). -/
def execVbfe (w : WordG) (s : State) : Host.Outcome State Fault Refusal :=
  let t := mTyD w.mod
  laneWord (.vbfe w) t w.d (fun c l =>
    let p := fieldOf c w l
    (bitField (isInt t) (src32 c c.g w.a l) p.1 p.2, false)) s

/-- VBFI (R183): D is a fourth source. -/
def execVbfi (w : WordG) (s : State) : Host.Outcome State Fault Refusal :=
  laneWord (.vbfi w) (mTyD w.mod) w.d (fun c l =>
    let p := fieldOf c w l
    (insertField 32 (src32 c c.g w.d l) (src32 c c.g w.a l) p.1 p.2, false)) s

/-- VPOPC: a count as n32 in one register (R180). -/
def execVpopc (w : WordG) (s : State) : Host.Outcome State Fault Refusal :=
  let t := mTyD w.mod
  laneWord (.vpopc w) (.nat 32) w.d (fun c l => (popCount (tyWidth t) (srcTy c c.g t w.a l), false)) s

def execVclz (w : WordG) (s : State) : Host.Outcome State Fault Refusal :=
  let t := mTyD w.mod
  laneWord (.vclz w) (.nat 32) w.d (fun c l => (leadZeros (tyWidth t) (srcTy c c.g t w.a l), false)) s

/-- VSEL (R182). -/
def execVsel (w : WordG) (s : State) : Host.Outcome State Fault Refusal :=
  let t := mTyD w.mod
  laneWord (.vsel w) t w.d (fun c l =>
    ((srcTy c c.g t (if (c.g.pReg w.c.toNat).has l then w.a else w.b) l : Nat), false)) s

/-- A word that writes one predicate bit per lane (R108). -/
def predWord (i : Instr) (d : BitVec 8) (f : Iss → Nat → Bool) (s : State) : Host.Outcome State Fault Refusal :=
  regWord i (fun c g => g.writeP c.lanes d.toNat (Mask.ofFn (f c))) s

/-- VCMP (R181). -/
def execVcmp (w : WordG) (s : State) : Host.Outcome State Fault Refusal :=
  let t := mTyD w.mod
  predWord (.vcmp w) w.d (fun c l => cmpInt t (mRnd w.mod) (srcTy c c.g t w.a l) (srcTy c c.g t w.b l)) s

def execVcmpI (w : WordI) (s : State) : Host.Outcome State Fault Refusal :=
  let t := mTyD w.mod
  predWord (.vcmpI w) w.d (fun c l => cmpInt t (mRnd w.mod) (srcTy c c.g t w.a l) (immBits t w.imm)) s

/-- VADDCY (R184): P[C] is carry in and carry out. -/
def execVaddcy (w : WordG) (s : State) : Host.Outcome State Fault Refusal :=
  regWord (.vaddcy w) (fun c g =>
    let r (l : Nat) : Nat × Bool :=
      addCarry (mBit w.mod 6) (src32 c c.g w.a l) (src32 c c.g w.b l) ((c.g.pReg w.c.toNat).has l)
    (writeTy c g (.nat 32) w.d (fun l => (r l).1)).writeP c.lanes w.c.toNat (Mask.ofFn (fun l => (r l).2))) s

/-- One step of the packed dot product (R134). -/
def dotStep (t : Ty) (sat : Bool) (acc : Int × Bool) (prod : Int) : Int × Bool :=
  let x := acc.1 + prod
  if sat then
    (if tyMax t < x then (tyMax t, true) else if x < tyMin t then (tyMin t, true) else (x, acc.2))
  else (x, acc.2)

/-- A packed dot product of `n` elements (R134, R187). -/
def dotWord (i : Instr) (n : Nat) (w : WordG) (s : State) : Host.Outcome State Fault Refusal :=
  let t := mTyD w.mod
  let k := 32 / n
  let elem (x : Nat) (unsigned : Bool) (j : Nat) : Int :=
    readTy (if unsigned then .nat k else .int k) (x / pow2 (k * j))
  laneWord i t w.d (fun c l =>
    (List.range n).foldl
      (fun acc j => dotStep t (mSat w.mod) acc
        (elem (src32 c c.g w.a l) (mBit w.mod 7) j * elem (src32 c c.g w.b l) (mBit w.mod 6) j))
      (readTy t (src32 c c.g w.c l), false)) s

def execVdot2 (w : WordG) (s : State) : Host.Outcome State Fault Refusal := dotWord (.vdot2 w) 2 w s
def execVdot4 (w : WordG) (s : State) : Host.Outcome State Fault Refusal := dotWord (.vdot4 w) 4 w s

/-- VSAT (R188). -/
def execVsat (w : WordG) (s : State) : Host.Outcome State Fault Refusal :=
  laneWord (.vsat w) (mTyD w.mod) w.d (fun c l =>
    fitInt (mTyD w.mod) true (readTy (if mBit w.mod 6 then .nat 32 else .int 32) (src32 c c.g w.a l))) s

/-- narrow() of R189: the low bits of a 32-bit source, or its clamp. -/
def narrowTo (t : Ty) (sat : Bool) (x : Nat) : Nat × Bool :=
  let r := fitInt t sat (readTy (if isInt t then .int 32 else .nat 32) x)
  (wrapNat (tyWidth t) r.1, r.2)

/-- VPACK (R189). -/
def execVpack (w : WordG) (s : State) : Host.Outcome State Fault Refusal :=
  let t := mTyD w.mod
  laneWord (.vpack w) (.bits 32) w.d (fun c l =>
    let a := narrowTo t (mSat w.mod) (src32 c c.g w.a l)
    let b := narrowTo t (mSat w.mod) (src32 c c.g w.b l)
    let x : Nat :=
      if tyWidth t = 16 then a.1 + 65536 * b.1
      else insertField 32 (src32 c c.g w.c l) (a.1 + 256 * b.1) (16 * mOpx w.mod) 16
    (x, a.2 || b.2)) s

/-- VUNPACK (R190). -/
def execVunpack (w : WordG) (s : State) : Host.Outcome State Fault Refusal :=
  let t := mTyD w.mod
  laneWord (.vunpack w) t w.d (fun c l => (readTy t (src32 c c.g w.a l / pow2 (tyWidth t * mOpx w.mod)), false)) s

end Sys2Proof.Machine
end

