-- ==== Sys2Proof/Machine/VecFloat.lean ====
section
/-!
DEFINITION. Class 011, the vector float family (R191 to R194) and CVT (R195, R196).
-/
namespace Sys2Proof.Machine

/-- IMM16 as a float source: the encoding of a 16-bit type, or a bf16 widened to f32 (R191). -/
def immFloat (t : Ty) (imm : BitVec 16) : Nat := if t = .f32 then imm.toNat * 65536 else imm.toNat

/-- The exact value of a float source. -/
def fval (t : Ty) (x : Nat) : Num := (fmtOf t).decode x

/-- Round a lane's exact result to the word's type with its RND and SAT (R191). -/
def fround (m : BitVec 12) (x : Num) : Nat := (fmtOf (mTyD m)).round (mRnd m) (mSat m) x

/-- A float word whose lanes write codes of the word's type. -/
def floatWord (i : Instr) (m : BitVec 12) (d : BitVec 8) (f : Iss → Nat → Nat) (s : State) :
    Host.Outcome State Fault Refusal :=
  regWord i (fun c g => writeTy c g (mTyD m) d (fun l => (f c l : Nat))) s

/-- A two-source float word in format G on codes. -/
def floatG2 (i : Instr) (w : WordG) (f : Ty → Nat → Nat → Nat) (s : State) : Host.Outcome State Fault Refusal :=
  let t := mTyD w.mod
  floatWord i w.mod w.d (fun c l => f t (src32 c c.g w.a l) (src32 c c.g w.b l)) s

/-- A two-source float word in format I on codes. -/
def floatI2 (i : Instr) (w : WordI) (f : Ty → Nat → Nat → Nat) (s : State) : Host.Outcome State Fault Refusal :=
  let t := mTyD w.mod
  floatWord i w.mod w.d (fun c l => f t (src32 c c.g w.a l) (immFloat t w.imm)) s

/-- Is the rounding mode RD? It makes an exact zero sum -0 (R126). -/
def roundsDown (m : BitVec 12) : Bool := mRnd m == 3

/-! The operations of R192 on codes of a type. -/

def opFadd (m : BitVec 12) (t : Ty) (a b : Nat) : Nat :=
  (fmtOf t).round (mRnd m) (mSat m) (Num.add (roundsDown m) (fval t a) (fval t b))
def opFsub (m : BitVec 12) (t : Ty) (a b : Nat) : Nat :=
  (fmtOf t).round (mRnd m) (mSat m) (Num.add (roundsDown m) (fval t a) (fval t b).neg)
def opFmul (m : BitVec 12) (t : Ty) (a b : Nat) : Nat :=
  (fmtOf t).round (mRnd m) (mSat m) (Num.mul (fval t a) (fval t b))
/-- A × B + C with one rounding. -/
def opFfma (m : BitVec 12) (t : Ty) (a b c : Nat) : Nat :=
  (fmtOf t).round (mRnd m) (mSat m) (Num.add (roundsDown m) (Num.mul (fval t a) (fval t b)) (fval t c))
def opFmin (t : Ty) (a b : Nat) : Nat := fMinMax (fmtOf t) false a b
def opFmax (t : Ty) (a b : Nat) : Nat := fMinMax (fmtOf t) true a b

def execFadd (w : WordG) (s : State) : Host.Outcome State Fault Refusal := floatG2 (.fadd w) w (opFadd w.mod) s
def execFaddI (w : WordI) (s : State) : Host.Outcome State Fault Refusal := floatI2 (.faddI w) w (opFadd w.mod) s
def execFsub (w : WordG) (s : State) : Host.Outcome State Fault Refusal := floatG2 (.fsub w) w (opFsub w.mod) s
def execFmul (w : WordG) (s : State) : Host.Outcome State Fault Refusal := floatG2 (.fmul w) w (opFmul w.mod) s
def execFmulI (w : WordI) (s : State) : Host.Outcome State Fault Refusal := floatI2 (.fmulI w) w (opFmul w.mod) s
def execFmin (w : WordG) (s : State) : Host.Outcome State Fault Refusal := floatG2 (.fmin w) w opFmin s
def execFminI (w : WordI) (s : State) : Host.Outcome State Fault Refusal := floatI2 (.fminI w) w opFmin s
def execFmax (w : WordG) (s : State) : Host.Outcome State Fault Refusal := floatG2 (.fmax w) w opFmax s
def execFmaxI (w : WordI) (s : State) : Host.Outcome State Fault Refusal := floatI2 (.fmaxI w) w opFmax s

def execFfma (w : WordG) (s : State) : Host.Outcome State Fault Refusal :=
  floatWord (.ffma w) w.mod w.d (fun c l =>
    opFfma w.mod (mTyD w.mod) (src32 c c.g w.a l) (src32 c c.g w.b l) (src32 c c.g w.c l)) s

/-- FCMP (R193). -/
def execFcmp (w : WordG) (s : State) : Host.Outcome State Fault Refusal :=
  predWord (.fcmp w) w.d (fun c l =>
    cmpFloat (fmtOf (mTyD w.mod)) (mRnd w.mod) (src32 c c.g w.a l) (src32 c c.g w.b l)) s

def execFcmpI (w : WordI) (s : State) : Host.Outcome State Fault Refusal :=
  predWord (.fcmpI w) w.d (fun c l =>
    cmpFloat (fmtOf (mTyD w.mod)) (mRnd w.mod) (src32 c c.g w.a l) (immFloat (mTyD w.mod) w.imm)) s

/-- A value rounded to an integral value in its own format; a zero result keeps the sign (R194). -/
def frnd (f : Fmt) (mode : Rnd) (x : Nat) : Nat :=
  match f.decode x with
  | .fin neg m e => f.round 0 false (.fin neg (roundInt mode neg m e).natAbs 0)
  | v => f.round 0 false v

def execFrnd (w : WordG) (s : State) : Host.Outcome State Fault Refusal :=
  floatWord (.frnd w) w.mod w.d (fun c l => frnd (fmtOf (mTyD w.mod)) (mRnd w.mod) (src32 c c.g w.a l)) s

/-- A function of R133. -/
def elemWord (i : Instr) (fn : ElemFn) (w : WordG) (s : State) : Host.Outcome State Fault Refusal :=
  floatWord i w.mod w.d (fun c l => elemFun fn (fmtOf (mTyD w.mod)) (src32 c c.g w.a l)) s

def execFrcp (w : WordG) (s : State) : Host.Outcome State Fault Refusal := elemWord (.frcp w) .rcp w s
def execFrsq (w : WordG) (s : State) : Host.Outcome State Fault Refusal := elemWord (.frsq w) .rsq w s
def execFsqrt (w : WordG) (s : State) : Host.Outcome State Fault Refusal := elemWord (.fsqrt w) .sqrt w s
def execFexp2 (w : WordG) (s : State) : Host.Outcome State Fault Refusal := elemWord (.fexp2 w) .exp2 w s
def execFlog2 (w : WordG) (s : State) : Host.Outcome State Fault Refusal := elemWord (.flog2 w) .log2 w s
def execFsin (w : WordG) (s : State) : Host.Outcome State Fault Refusal := elemWord (.fsin w) .sin w s
def execFcos (w : WordG) (s : State) : Host.Outcome State Fault Refusal := elemWord (.fcos w) .cos w s

/-- Each half of a packed pair on its own (R192). -/
def packed2 (f : Nat → Nat → Nat) (a b : Nat) : Nat :=
  f (a % 65536) (b % 65536) + 65536 * f (a / 65536 % 65536) (b / 65536 % 65536)

def execHadd2 (w : WordG) (s : State) : Host.Outcome State Fault Refusal :=
  floatG2 (.hadd2 w) w (fun t => packed2 (opFadd w.mod t)) s
def execHmul2 (w : WordG) (s : State) : Host.Outcome State Fault Refusal :=
  floatG2 (.hmul2 w) w (fun t => packed2 (opFmul w.mod t)) s
def execHmin2 (w : WordG) (s : State) : Host.Outcome State Fault Refusal :=
  floatG2 (.hmin2 w) w (fun t => packed2 (opFmin t)) s
def execHmax2 (w : WordG) (s : State) : Host.Outcome State Fault Refusal :=
  floatG2 (.hmax2 w) w (fun t => packed2 (opFmax t)) s

def execHfma2 (w : WordG) (s : State) : Host.Outcome State Fault Refusal :=
  floatWord (.hfma2 w) w.mod w.d (fun c l =>
    let r (x : BitVec 8) : Nat := src32 c c.g x l
    let h (k : Nat) : Nat :=
      opFfma w.mod (mTyD w.mod) (r w.a / k % 65536) (r w.b / k % 65536) (r w.c / k % 65536)
    h 1 + 65536 * h 65536) s

/-- One conversion of R196: the code of the result, and whether a clamp changed it. -/
def convert (st dt : Ty) (rnd : Rnd) (sat : Bool) (x : Nat) : Int × Bool :=
  if isIN st && isIN dt then fitInt dt sat (readTy st x)
  else if isIN dt then (roundToInt dt rnd (valOf st x), false)
  else (((fmtOf dt).round rnd sat (valOf st x) : Nat), false)

/-- CVT (R195, R196): STYP in C, the source element EK in OPX. -/
def execCvt (w : WordG) (s : State) : Host.Outcome State Fault Refusal :=
  let st := (tyOfCode (bitsAt w.c 0 6)).getD (.bits 32)
  let dt := mTyD w.mod
  laneWord (.cvt w) dt w.d (fun c l =>
    convert st dt (mRnd w.mod) (mSat w.mod) (srcTy c c.g st w.a l / pow2 (tyWidth st * mOpx w.mod))) s

end Sys2Proof.Machine
end

