-- ==== Sys2Proof/Machine/Cross.lean ====
section
/-!
DEFINITION. Class 100: the cross-lane family (R197 to R205) and the vector predicates (R173 to R175).
-/
namespace Sys2Proof.Machine

/-- A word that moves raw bits into D. -/
def moveWord (i : Instr) (t : Ty) (d : BitVec 8) (f : Iss → Nat → Nat) (s : State) :
    Host.Outcome State Fault Refusal :=
  regWord i (fun c g => writeTy c g t d (fun l => (f c l : Nat))) s

/-- SHFL (R198). -/
def execShfl (w : WordG) (s : State) : Host.Outcome State Fault Refusal :=
  let t := mTyD w.mod
  moveWord (.shfl w) t w.d (fun c l =>
    let b := src32 c c.g w.b l % 32
    let j := match mOpx w.mod with
      | 0 => b
      | 1 => l ^^^ b
      | _ => (l + b) % 32
    if c.lanes.has j then srcTy c c.g t w.a j else srcTy c c.g t w.c l) s

/-- SLIDE (R199). -/
def execSlide (w : WordG) (s : State) : Host.Outcome State Fault Refusal :=
  let t := mTyD w.mod
  moveWord (.slide w) t w.d (fun c l =>
    let n := (fieldS c.g w.b).toNat
    let j : Int := if mBit w.mod 6 then l + n else (l : Int) - n
    if 0 ≤ j && j ≤ 31 && c.lanes.has j.toNat then srcTy c c.g t w.a j.toNat else srcTy c c.g t w.c l) s

/-- VOTE (R200). -/
def execVote (w : WordG) (s : State) : Host.Outcome State Fault Refusal :=
  regWord (.vote w) (fun c g =>
    let hit := c.g.pReg w.a.toNat &&& c.lanes
    match mOpx w.mod with
    | 0 => g.writeS (w.d.toNat - 192) (hit.setWidth 64)
    | 1 => g.writeQ w.d.toNat (hit != 0)
    | _ => g.writeQ w.d.toNat (hit == c.lanes)) s

/-- Minimum or maximum of a list of codes by the type's order; floats by R126. -/
def extremum (t : Ty) (isMax : Bool) (xs : List Nat) : Int :=
  match xs with
  | [] => 0
  | x :: r =>
    if isFloat t then ((r.foldl (fMinMax (fmtOf t) isMax) (fMinMax (fmtOf t) isMax x x) : Nat) : Int)
    else r.foldl (fun a y => if isMax then max a (readTy t y) else min a (readTy t y)) (readTy t x)

/-- The result of an operation over a nonempty set of lane values: an exact integer, or a code (R201). -/
def reduce (t : Ty) (op : Nat) (rnd : Rnd) (xs : List Nat) : Int :=
  match op with
  | 0 =>
    if isFloat t then (((fmtOf t).round rnd false (Num.sum (rnd == 3) (xs.map (fval t))) : Nat) : Int)
    else xs.foldl (fun a x => a + readTy t x) 0
  | 1 => extremum t false xs
  | 2 => extremum t true xs
  | 3 => (xs.foldl (fun a x => a &&& x) (pow2 64 - 1) : Nat)
  | 4 => (xs.foldl (fun a x => a ||| x) 0 : Nat)
  | _ => (xs.foldl (fun a x => a ^^^ x) 0 : Nat)

/-- The identity of an operation (R202). -/
def identity (t : Ty) (op : Nat) : Int :=
  match op with
  | 1 => if isFloat t then (fmtOf t).round 0 false (.inf false) else tyMax t
  | 2 => if isFloat t then (fmtOf t).round 0 false (.inf true) else tyMin t
  | 3 => -1
  | _ => 0

/-- VRED (R201): an integer sum is written as a 64-bit value, other results are extended by R124. -/
def execVred (w : WordG) (s : State) : Host.Outcome State Fault Refusal :=
  let t := mTyD w.mod
  regWord (.vred w) (fun c g =>
    let x := reduce t w.b.toNat (mRnd w.mod) (c.lanes.lanes.map (srcTy c c.g t w.a))
    g.writeS (w.d.toNat - 192)
      (BitVec.ofNat 64 (if w.b = 0 && !isFloat t then wrapNat 64 x else extendTy t 64 x))) s

/-- VSCAN (R202). -/
def execVscan (w : WordG) (s : State) : Host.Outcome State Fault Refusal :=
  let t := mTyD w.mod
  regWord (.vscan w) (fun c g =>
    writeTy c g t w.d (fun l =>
      let set := c.lanes.lanes.filter (fun j => if mBit w.mod 6 then j < l else j ≤ l)
      if set.isEmpty then identity t w.b.toNat
      else reduce t w.b.toNat (mRnd w.mod) (set.map (srcTy c c.g t w.a)))) s

/-- VCONFLICT (R203). -/
def execVconflict (w : WordG) (s : State) : Host.Outcome State Fault Refusal :=
  let t := mTyD w.mod
  moveWord (.vconflict w) (.bits 32) w.d (fun c l =>
    (Mask.ofFn (fun j => c.lanes.has j && j < l && srcTy c c.g t w.a j == srcTy c c.g t w.a l)).toNat) s

/-- VTOS (R204). -/
def execVtos (w : WordG) (s : State) : Host.Outcome State Fault Refusal :=
  let t := mTyD w.mod
  regWord (.vtos w) (fun c g =>
    let put (g : Group) (x : Nat) : Group := g.writeS (w.d.toNat - 192) (BitVec.ofNat 64 x)
    if mBit w.mod 6 then
      let n := (fieldS c.g w.b).toNat
      let ok := n < 32 && c.lanes.has n
      (put g (if ok then srcTy c c.g t w.a n else 0)).writeQ 3 (!ok)
    else put g (srcTy c c.g t w.a (firstLane c.lanes))) s

/-- STOV (R205). -/
def execStov (w : WordG) (s : State) : Host.Outcome State Fault Refusal :=
  let t := mTyD w.mod
  moveWord (.stov w) t w.d (fun c l => srcTy c c.g t w.a l) s

/-! ## Predicates -/

def execPand (w : WordG) (s : State) : Host.Outcome State Fault Refusal :=
  predWord (.pand w) w.d (fun c l => (c.g.pReg w.a.toNat).has l && (c.g.pReg w.b.toNat).has l) s
def execPor (w : WordG) (s : State) : Host.Outcome State Fault Refusal :=
  predWord (.por w) w.d (fun c l => (c.g.pReg w.a.toNat).has l || (c.g.pReg w.b.toNat).has l) s
def execPxor (w : WordG) (s : State) : Host.Outcome State Fault Refusal :=
  predWord (.pxor w) w.d (fun c l => (c.g.pReg w.a.toNat).has l != (c.g.pReg w.b.toNat).has l) s
def execPnot (w : WordG) (s : State) : Host.Outcome State Fault Refusal :=
  predWord (.pnot w) w.d (fun c l => !(c.g.pReg w.a.toNat).has l) s

/-- PMOVV (R174). -/
def execPmovv (w : WordG) (s : State) : Host.Outcome State Fault Refusal :=
  predWord (.pmovv w) w.d (fun c l =>
    let a := src32 c c.g w.a l
    if mOpx w.mod = 0 then a != 0 else a / pow2 l % 2 == 1) s

/-- VMOVP (R174). -/
def execVmovp (w : WordG) (s : State) : Host.Outcome State Fault Refusal :=
  moveWord (.vmovp w) (.bits 32) w.d (fun c l =>
    let p := c.g.pReg w.a.toNat
    match mOpx w.mod with
    | 0 => if p.has l then 1 else 0
    | 1 => if p.has l then 4294967295 else 0
    | _ => p.toNat) s

/-- PCOUNT (R175). -/
def execPcount (w : WordG) (s : State) : Host.Outcome State Fault Refusal :=
  regWord (.pcount w) (fun c g =>
    g.writeS (w.d.toNat - 192) (BitVec.ofNat 64 (c.g.pReg w.a.toNat &&& c.lanes).count)) s

end Sys2Proof.Machine
end

