-- ==== Sys2Proof/Machine/Packet.lean ====
section
/-!
DEFINITION. Requests on their way: scheduling and performing them at cellars, die stores and tier ports,
replies, release and flush markers, idle pseudo-channels, and the rebuilding of lines (R210, R270 to R281,
R344, R345, R388).
-/
namespace Sys2Proof.Machine

/-- The step of a device that changes the machine behind its registers alone. -/
def machStep (f : Device → Mach → Mach) (s : State) : Host.Outcome State Fault Refusal :=
  .next { s with mach := f s.dev s.mach }

/-- A step of the context in place, which waits while the context does not run (R373, R384). -/
def runStep (f : Device → Mach → Mach) (s : State) : Host.Outcome State Fault Refusal :=
  if s.dev.ctxst == .running then machStep f s else .next s

/-- A step of the distributor that teardown discards (R42, R381). -/
def distStep (f : Device → Mach → Mach) (s : State) : Host.Outcome State Fault Refusal :=
  if s.dev.ctxst == .tearing then .next s else machStep f s

/-! ## Packets as they are sent (R270, R271) -/

/-- The first word of a header: KIND, SZ, TAG, SRC; the core's number is its die, row and column. -/
def headerWord (kind sz core : Nat) (tag : BitVec 14) : Word :=
  BitVec.ofNat 64 (kind * pow2 60 + sz * pow2 58 + tag.toNat * pow2 44 + core % 64 * pow2 38)

/-- KIND of a request of lanes. -/
def Pkt.kindCode (p : Pkt) : Nat :=
  match p.kind with
  | .read => 0
  | .write _ => 1
  | .atomic _ _ _ _ => 2

/-- SZ and the bytes of a read or write of `n` bytes from a place on: the least of 32, 64 and 128 whose aligned block holds
them all (R216, R270). -/
def sizeCode (a n : Nat) : Nat × Nat :=
  if a / 32 = (a + n - 1) / 32 then (0, 32) else if a / 64 = (a + n - 1) / 64 then (1, 64) else (2, 128)

/-- SZ of a request, and the number of which its PA is a multiple: of an atomic 0 and its size (R270). -/
def Pkt.size (p : Pkt) : Nat × Nat :=
  match p.kind with
  | .atomic _ width _ _ => (0, width)
  | _ => sizeCode p.loc.addr p.len

/-- The second word of a header: PA. -/
def paWord (a size : Nat) : Word := BitVec.ofNat 64 (a / size * size % pow2 39)

/-- The 16-byte header of a request (R270). -/
def Pkt.header (p : Pkt) : Word × Word := (headerWord p.kindCode p.size.1 p.core p.tag, paWord p.loc.addr p.size.2)

/-- KIND of the requests that an operation sends its cellars: 3 to 6, and none for the others. -/
def Op.kindCode (o : Op) : Option Nat :=
  match o.instr with
  | .raye _ => some 3
  | .texf _ => some 4
  | .hgf _ => some 4
  | .attn _ => some 5
  | .trbegin _ => some 6
  | .trpub _ => some 6
  | .anyr _ => some 6
  | .bfill _ => some 6
  | _ => none

/-- TAG of the request that an operation makes for a lane (R270). -/
def Op.tagOf (o : Op) (lane : Nat) : BitVec 14 := o.tags.getD (if lanesAsk o.instr then o.mask.lanes.idxOf lane else 0) 0

/-- The header of an operation's request of kind 3 to 6 for a lane (R270). -/
def Op.header (o : Op) (lane : Nat) : Option (Word × Word) :=
  o.kindCode.map (fun k => (headerWord k 0 o.core (o.tagOf lane), 0))

/-- The header of a read, or with `write` a write, of `n` bytes of HBM that an engine makes for an operation (R270). -/
def Op.lineHeader (o : Op) (write : Bool) (a n : Nat) : Word × Word :=
  (headerWord (if write then 1 else 0) (sizeCode a n).1 o.core (o.tagOf 0), paWord a (sizeCode a n).2)

/-- STATUS of a reply (R271): POISON, CWD after a recovery stall, or OK. -/
def statusCode (poisoned delayed : Bool) : Nat := if poisoned then 2 else if delayed then 1 else 0

/-- The first word of a reply (R271), KIND and TAG where the request had them (DEDUCED, log 69). -/
def replyWord (kind status : Nat) (tag : BitVec 14) : Word := headerWord kind 0 0 tag + BitVec.ofNat 64 status

/-- STATUS of a request's reply. -/
def Pkt.status (p : Pkt) : Nat := statusCode (!p.poison.isEmpty) p.cwd

/-- The first word of a request's reply. -/
def Pkt.replyWord (p : Pkt) : Word := Machine.replyWord p.kindCode p.status p.tag

/-- The first word of the reply to an operation's request for a lane, once the cellar has performed it: a control request's, or
with `write` an engine's read or write, that met poison or a rebuild (R271). -/
def Op.replyWord (o : Op) (write : Option Bool) (lane : Nat) (poisoned delayed : Bool) : Word :=
  Machine.replyWord (match write with
    | some w => if w then 1 else 0
    | none => o.kindCode.getD 0) (statusCode poisoned delayed) (o.tagOf lane)

/-! ## Scheduling (R274, R283) -/

/-- Do two packets wait for one bank? -/
def sameBank (p q : Pkt) : Bool := p.loc.space == .hbm && q.loc.space == .hbm && bankAt p.loc.addr == bankAt q.loc.addr

/-- Does a packet hit the row that is open in its bank? -/
def Mach.hitsRow (m : Mach) (p : Pkt) : Bool :=
  (m.cellar (p.loc.addr / stackBytes)).openAt p.loc.addr == some (rowOf p.loc.addr)

/-- Is `q`, which waits for the bank of `p`, served before it: by arrival with AGE = 0 and among equals, and else as the one
of the two that hits the open row (R274; within a bank, as nothing tells whose next command can issue: DEDUCED, log
69)? -/
def Mach.servedBefore (dev : Device) (m : Mach) (p q : Pkt) : Bool :=
  let age := vget (vget dev.cellars (p.loc.addr / stackBytes) CellarRegs.reset).age (channelOf p.loc.addr) 0
  q.id != p.id && sameBank p q && m.canPerform q &&
    (if age == 0 || m.hitsRow q == m.hitsRow p then arrivedBefore p q else m.hitsRow q)

/-- May the cellar serve the packet now: its channel is in NORMAL or COMPUTE; and in its bank the request whose age has
reached the channel's cap comes first, and else no request that waits is served before it. -/
def Mach.cellarTurn (dev : Device) (m : Mach) (p : Pkt) : Bool :=
  let ch := m.chan (p.loc.addr / stackBytes) (channelOf p.loc.addr)
  (ch.mode == .normal || ch.mode == .compute) &&
  (match (m.agedAt dev (p.loc.addr / stackBytes) (channelOf p.loc.addr)).filter (sameBank p) with
   | some q => q.id == p.id
   | none => m.net.all (fun q => !m.servedBefore dev p q))

/-- A cellar serves and performs a packet of a kind (R272). -/
def Mach.cellarPerform (dev : Device) (m : Mach) (id : Nat) (kind : PktKind → Bool) : Mach :=
  match m.pkt? id with
  | none => m
  | some p =>
    if p.loc.space == .hbm && kind p.kind && m.canPerform p && m.cellarTurn dev p then
      m.perform dev p
    else m

/-- CELLAR_READ (R272, R274, R279). -/
def execCellarRead (pkt : Nat) (s : State) : Host.Outcome State Fault Refusal :=
  machStep (fun dev m => m.cellarPerform dev pkt (fun k => k == PktKind.read)) s

/-- CELLAR_WRITE (R272): its parity changes in the same step, and nobody observes the parity channels. -/
def execCellarWrite (pkt : Nat) (s : State) : Host.Outcome State Fault Refusal :=
  machStep (fun dev m => m.cellarPerform dev pkt (fun k => match k with
    | .write _ => true
    | _ => false)) s

/-- CELLAR_ATOMIC (R272, R346). -/
def execCellarAtomic (pkt : Nat) (s : State) : Host.Outcome State Fault Refusal :=
  machStep (fun dev m => m.cellarPerform dev pkt (fun k => match k with
    | .atomic _ _ _ _ => true
    | _ => false)) s

/-- A request is performed at the home of a space other than HBM. -/
def Mach.performAt (dev : Device) (m : Mach) (id : Nat) (sp : Space) : Mach :=
  match m.pkt? id with
  | none => m
  | some p => if p.loc.space == sp && m.canPerform p then m.perform dev p else m

/-- DIE_STORE_REQUEST (R77, R210): a bank controller performs a request. -/
def execDieStoreRequest (pkt : Nat) (s : State) : Host.Outcome State Fault Refusal :=
  machStep (fun dev m => m.performAt dev pkt .die) s

/-- TIER_ACCESS (R388 to R390): a port serves a request from its staging map or from the expander. -/
def execTierAccess (pkt : Nat) (s : State) : Host.Outcome State Fault Refusal :=
  machStep (fun dev m => m.performAt dev pkt .tier) s

/-! ## Replies (R271) -/

/-- A reply reaches its requester, and the request is over. -/
def Mach.reply (m : Mach) (p : Pkt) : Mach :=
  let m := { m with net := m.net.filter (fun q => q.id != p.id) }
  match m.op? p.op with
  | some o => m.takeReply o p
  | none => m

/-! ## Markers (R344, R345) -/

/-- RELEASE_MARKER (R344): the marker reaches its release's home. -/
def execReleaseMarker (pkt : Nat) (s : State) : Host.Outcome State Fault Refusal :=
  machStep (fun _ m => m.modPkt pkt (fun p => { p with atHome := true })) s

/-- HOME_REPORT (R344): a named home reports once every counted write to it has been performed. -/
def execHomeReport (pkt : Nat) (home : Home) (s : State) : Host.Outcome State Fault Refusal :=
  machStep (fun _ m =>
    match m.pkt? pkt with
    | none => m
    | some p =>
      if p.after.all (fun i => match m.pkt? i with
          | some q => q.performed || homeOf q.loc != home
          | none => true) then
        m.modPkt pkt (fun p => { p with homes := p.homes.filter (fun h => h != home) })
      else m) s

/-- FLUSH_MARKER (R345): a flush marker arrives; `path` is how many markers are still out after it. -/
def execFlushMarker (pkt path : Nat) (s : State) : Host.Outcome State Fault Refusal :=
  machStep (fun _ m => m.modPkt pkt (fun p => if p.paths = path + 1 then { p with paths := path } else p)) s

/-! ## Channels and pseudo-channels (R274, R276) -/

/-- AGE_CAP_EXPIRY (R274): the channel's oldest waiting request has waited 16·AGE cycles. -/
def execAgeCapExpiry (stack channel : Nat) (s : State) : Host.Outcome State Fault Refusal :=
  machStep (fun dev m =>
    match m.expired dev stack channel with
    | some id => m.modChan stack channel (fun c => { c with aged := some id })
    | none => m) s

/-- A pseudo-channel with no request queued: how long it has been idle (R276). -/
def Mach.idleFor (m : Mach) (stack pseudo : Nat) : Option Nat :=
  let ch := pseudo / 2
  let queued := (m.waitingAt stack ch).any (fun p => bankOf p.loc.addr / 16 == pseudo % 2)
  if (m.chan stack ch).mode != .normal || queued then none
  else some (m.cyc.toNat - (vget (m.cellar stack).pseudos pseudo { power := 0, idleSince := 0 }).idleSince)

/-- A pseudo-channel enters a power state from a lighter one once it has been idle for a time that is not 0. -/
def Mach.sleepPseudo (m : Mach) (stack pseudo time : Nat) (power : BitVec 2) : Mach :=
  match m.idleFor stack pseudo with
  | none => m
  | some t =>
    if time != 0 && time ≤ t then
      { m with cellars := vmod m.cellars stack (fun u => { u with
          pseudos := vmod u.pseudos pseudo (fun p => if p.power < power then { p with power := power } else p) }) }
    else m

/-- POWER_DOWN_ENTRY (R276). -/
def execPowerDownEntry (stack pseudo : Nat) (s : State) : Host.Outcome State Fault Refusal :=
  machStep (fun dev m => m.sleepPseudo stack pseudo (16 * (vget dev.cellars stack CellarRegs.reset).pdt.toNat) 1) s

/-- SELF_REFRESH_ENTRY (R276). -/
def execSelfRefreshEntry (stack pseudo : Nat) (s : State) : Host.Outcome State Fault Refusal :=
  machStep (fun dev m => m.sleepPseudo stack pseudo (1024 * (vget dev.cellars stack CellarRegs.reset).srt.toNat) 2) s

/-- REFRESH (R276): it holds the bank's requests for a time and changes nothing else. -/
def execRefresh (_stack _bank : Nat) (s : State) : Host.Outcome State Fault Refusal := .next s

/-! ## Rebuilding a line (R280 to R282) -/

/-- A line of HBM is poisoned, with its log entry. -/
def Mach.poisonLine (m : Mach) (pa : Nat) : Mach :=
  ({ m with mem := m.mem.setPoison { space := .hbm, addr := pa } true }).log 4 pa

/-- The tier address behind a line of a tier-backed frame, when its port is UP and the line is not poisoned
there. -/
def Mach.tierSource (dev : Device) (m : Mach) (pa : Nat) : Option Nat :=
  match m.backed.find? (fun b => b.1 == pa / 65536) with
  | none => none
  | some b =>
    let a := b.2 * 65536 + pa % 65536
    if (vget dev.tiers (a / tierSpan) TierRegs.reset).st == .up && !m.mem.poisoned { space := .tier, addr := a } then some a
    else none

/-- Requests stand behind a rebuild: their replies are CWD (R271, R280). -/
def Mach.holdWhere (m : Mach) (hit : Pkt → Bool) : Mach :=
  { m with net := m.net.map (fun p =>
      if p.loc.space == .hbm && hit p && !p.performed && p.arrive ≤ m.cyc.toNat then { p with cwd := true } else p) }

/-- Does a request touch a 64-byte line of HBM? -/
def Pkt.onLine (p : Pkt) (pa : Nat) : Bool := p.loc.addr / 64 ≤ pa / 64 && pa / 64 * 64 < p.loc.addr + p.len

/-- The requests that have reached a line's home stand behind its rebuild. -/
def Mach.holdBehind (m : Mach) (pa : Nat) : Mach := m.holdWhere (fun p => p.onLine pa)

/-- Do the other lines of a line's parity group give it: no data line of the 14 is poisoned, nor the parity line (R280)? -/
def Mach.parityHolds (m : Mach) (pa : Nat) : Bool :=
  ((parityGroup pa).filter (· != pa)).all (fun a => !m.mem.poisoned { space := .hbm, addr := a }) &&
    !(m.cellar (pa / stackBytes)).badParity.contains (parityKey pa)

/-- A line takes its bytes from the tier, or is poisoned. -/
def Mach.tierRebuild (dev : Device) (m : Mach) (a : Nat) : Mach :=
  match m.tierSource dev a with
  | none => m.poisonLine a
  | some t =>
    (({ m with mem := m.mem.write { space := .hbm, addr := a } (m.mem.read { space := .tier, addr := t } 64) }).holdBehind
      a).log 3 a

/-- The parity channel's own line is uncorrectable: its 15 data lines give it, or it is poisoned (R280, R281). The writes of its
group, which reach it, stand behind its recovery. -/
def Mach.parityRebuild (m : Mach) (a : Nat) : Mach :=
  let good := (parityGroup a).all (fun x => !m.mem.poisoned { space := .hbm, addr := x })
  let m := if good then m.holdWhere (fun p => p.isWrite && (parityGroup a).any p.onLine) else m
  let m : Mach := { m with cellars := vmod m.cellars (a / stackBytes) (fun u => { u with
    badParity := u.badParity.filter (· != parityKey a) ++ (if good then [] else [parityKey a]) }) }
  m.logParity (if good then 2 else 4) a

/-- LINE_REBUILD (R280, R281): an uncorrectable line of HBM takes the XOR of its parity group, which is the bytes that stand
there (`rebuiltByte_eq`), or the tier's bytes where a line of the group fails; when both sources fail it is poisoned. A
line already poisoned stays so. -/
def execLineRebuild (pa : Nat) (source : RebuildSource) (s : State) : Host.Outcome State Fault Refusal :=
  machStep (fun dev m =>
    let a := pa / 64 * 64
    if 8 * stackBytes ≤ a then m
    else if source = .parityLine then m.parityRebuild a
    else if m.mem.poisoned { space := .hbm, addr := a } then m
    else if source = .parity && m.parityHolds a then
      (m.holdBehind a).log 2 a
    else m.tierRebuild dev a) s

end Sys2Proof.Machine
end

