-- ==== Sys2Proof/Machine/OpEv.lean ====
section
/-!
DEFINITION. The steps in which an issued operation goes on, completes, owns its lines and releases them, and a
table walk (R78, R79, R109 to R111, R212, R213).
-/
namespace Sys2Proof.Machine

/-- The first lanes of an operation without a result yet, up to a limit. -/
def Op.openLanes (o : Op) (limit : Option Nat) : List Nat :=
  let ls := o.mask.lanes.filter (fun l => !o.laneDone l)
  match limit with
  | some n => ls.take n
  | none => ls

/-- Splits that one step performs at most. -/
def splitFuel (limit : Option Nat) : Nat := limit.getD 65536

/-- An operation goes on by up to `limit` elements, all that remain when there is no limit, and completes when
its event of R111 has come. -/
def Mach.progressOp (dev : Device) (limit : Option Nat) (m : Mach) (o : Op) : Mach :=
  match o.instr with
  | .atom w => progressAtomic dev w false false limit m o
  | .red w => progressAtomic dev w true false limit m o
  | .cas w => progressAtomic dev w false true limit m o
  | .copy w => progressCopy dev w limit m o
  | .gtha w => progressGtha dev w limit m o
  | .tmov _ => progressTmov dev limit m o
  | .tierh _ => progressTierh dev limit m o
  | .cjoin _ => progressSharing m o
  | .cleave _ => progressSharing m o
  | .cquery _ => progressSharing m o
  | .mma w => progressMma dev w limit m o
  | .mzero w => progressMzero w m o
  | .mlda w => progressMlda dev w limit m o
  | .mdrain w => progressMdrain dev w limit m o
  | .sopen w => progressSopen dev w m o
  | .snext w => progressStream limit (snextStep dev w) m o
  | .sskip w => progressStream limit (sskipStep dev w) m o
  | .sisect w => progressStream limit (mergeStep dev w false) m o
  | .sunion w => progressStream limit (mergeStep dev w true) m o
  | .hcode w => progressHcode dev w m o
  | .hprobe w => progressHprobe dev w limit m o
  | .hins w => progressUpdate dev w true (o.openLanes limit) m o
  | .hdel w => progressUpdate dev w false (o.openLanes limit) m o
  | .hreh w => runSplits dev w o.id (splitFuel limit) m
  | .hsync _ => progressHsync m o
  | .raye _ => progressRaye dev limit m o
  | .anyr w => progressAnyr w m o
  | .trbegin w => progressTrbegin dev w m o
  | .trpub w => progressTrpub dev w m o
  | .texf w => progressFilter (texfLane dev w) (o.openLanes limit) m o
  | .hgf w => progressFilter (hgfLane dev w) (o.openLanes limit) m o
  | .attn _ => progressAttn dev m o
  | .bfill _ => progressBfill dev m o
  -- LAUNCH and FETCHW complete when the distributor answers (R41, R48)
  | .launch _ => if o.st = .done then m.completeOp o else m
  | .fetchw _ => if o.st = .done then m.completeOp o else m
  -- LD, ST, LDT, STT: once every request has been answered; TEND: once it has been performed
  | _ => if m.opPending o.id then m else m.completeOp o

/-- OPERATION_COMPLETE (R111). -/
def execOperationComplete (op : Nat) (limit : Option Nat) (s : State) : Host.Outcome State Fault Refusal :=
  machStep (fun dev m =>
    match m.op? op with
    | none => m
    | some o => m.progressOp dev limit o) s

/-! ## Owning and releasing lines (R78, R79) -/

/-- A word that waits to own its lines issues again at its place. -/
def reissueOwner (i : Instr) (s : State) : Host.Outcome State Fault Refusal :=
  match i with
  | .copy w => execCopy w s
  | .gtha w => execGtha w s
  | .tmov w => execTmov w s
  | .mdrain w => execMdrain w s
  | .hprobe w => execHprobe w s
  | .raye w => execRaye w s
  | .anyr w => execAnyr w s
  | .hgf w => execHgf w s
  | .attn w => execAttn w s
  | _ => .next s

/-- OWN_ACQUIRE (R78): a group whose engine word waits takes the lines that have come free, and with the last
one the word's issue completes. -/
def execOwnAcquire (g : Nat) (s : State) : Host.Outcome State Fault Refusal :=
  let s' : State := { s with mach := { s.mach with cur := g } }
  match s.mach.group? g, wordAtIssue s' with
  | some gr, some (_, _, p, cl) =>
    let w := cl.words.getD (p.idx - 1) 0
    if s.dev.ctxst == .running && gr.ownWait.isSome && s.mach.canIssue gr && !s.mach.deliverable gr then
      (match ofOpcode (bitsAt w 54 10) w with
       | some i => reissueOwner i s'
       | none => .next s)
    else .next s
  | _, _ => .next s

/-- The lines that an operation has still to write, where it writes them in element order. -/
def Mach.linesLeft (dev : Device) (m : Mach) (o : Op) : Option (List Line) :=
  match o.instr with
  | .copy w => some (m.opTeam o (fun t => copyDest dev m o.core t w o.cap o.pix))
  | .gtha w => some (m.opTeam o (fun t => gthaDest dev m o.core t w o.cap (o.recs.getD 0 0) o.pix))
  | .tmov _ => some (m.opTeam o (fun t => moveDest dev m o.core t (moveOf o.recs) o.pix))
  | .mdrain w =>
    if mBit w.mod 4 then none
    else (m.team? o.team).map (fun t =>
      drainLines t (regionOf w.mod) o.cap.sd.toNat (bitsAt o.cap.sb 0 32) (tyWidth (drainTy o.cap.sb) / 8) o.pix)
  | .hprobe w => (m.team? o.team).map (fun t =>
      blockLines t (capLane o.cap.vd) (o.mask.lanes.drop (o.pix / probeTables w)) (probeTables w))
  | _ => none

/-- LINE_RELEASE (R78, R79): an owner that has written a line for the last time releases it, and a recalled
access to it performs when its word issues again. -/
def execLineRelease (op : Nat) (line : Line) (s : State) : Host.Outcome State Fault Refusal :=
  machStep (fun dev m =>
    match m.op? op with
    | none => m
    | some o =>
      match m.linesLeft dev o with
      | none => m
      | some ls =>
        if ls.contains line then m
        else { m with own := m.own.filter (fun p => !(p.1 == line && p.2 == op)) }) s

/-! ## Translation (R212, R213) -/

/-- TABLE_WALK: a walk that passes every check fills the core's TLB; one that fails leaves nothing, and the
access that needs it writes the fault record (R214). It waits while a channel of its entries does (R274, R283). -/
def execTableWalk (core : Nat) (va : Word) (kind : AccessKind) (s : State) : Host.Outcome State Fault Refusal :=
  machStep (fun dev m => if pow2 56 ≤ va.toNat || m.transHeld dev core none va.toNat then m else (translate dev m core kind va.toNat).1) s

end Sys2Proof.Machine
end

