-- ==== Sys2Proof/Machine/Upload.lean ====
section
/-!
DEFINITION. The distributor's reads and writes, host events, and graphs: upload, its checks and removal (R15 to
R17, R21 to R27, R30 to R32, R383, R385).
-/
namespace Sys2Proof.Machine

/-! ## Events to the host (R383) -/

/-- EVT bit `n` is set in a cycle; a bit that rises while its vector is enabled sends the vector's message. -/
def Device.event (dev : Device) (cyc : Word) (n : Nat) : Device :=
  { dev with
    evt := dev.evt ||| BitVec.ofNat 9 (pow2 n), evtAt := vset dev.evtAt n cyc,
    msix := if !dev.evt.getLsbD n && dev.msk.getLsbD n then dev.msix ++ [n] else dev.msix }

/-! ## The distributor's reads and writes -/

/-- What a read of the distributor gives: nothing yet, a failure, or the bytes. -/
inductive DistRead (α : Type) where
  | wait (l : Loc)
  | fail
  | ok (x : α)

/-- Up to 64 bytes that do not cross a page, read through the walkers. -/
def distPiece (dev : Device) (m : Mach) (va n : Nat) : DistRead (List Byte) :=
  if pow2 56 ≤ va then .fail
  else if m.walkHeld dev va then .wait (rootLoc dev)
  else match translateRaw dev m .laneRead va with
    | .error _ => .fail
    | .ok l => match m.homeRead dev l n with
      | none => .wait l
      | some (_, bs, bad) => if bad.isEmpty then .ok bs else .fail

/-- Bytes of an 8-byte-aligned record, read 8 by 8. -/
def distBytes (dev : Device) (m : Mach) (va : Nat) : Nat → DistRead (List Byte)
  | 0 => .ok []
  | n + 1 => match distPiece dev m va 8 with
    | .wait l => .wait l
    | .fail => .fail
    | .ok bs => match distBytes dev m (va + 8) n with
      | .ok r => .ok (bs ++ r)
      | x => x

/-- Words of a record. -/
def distWords (dev : Device) (m : Mach) (va n : Nat) : DistRead (List Nat) :=
  match distBytes dev m va n with
  | .ok bs => .ok ((List.range n).map (fun k => leNat ((bs.drop (8 * k)).take 8)))
  | .wait l => .wait l
  | .fail => .fail

/-- A write of the distributor or of a port at a .glob address: none while its home does not answer. A word
whose address does not translate is not written (DESIGN CHOICE, log 14). -/
def distWrite (dev : Device) (m : Mach) (va n x : Nat) : Option Mach :=
  if pow2 56 ≤ va then some m
  else match walkRaw dev m .laneWrite va with
    | none => none
    | some (m, .error _) => some m
    | some (m, .ok l) => m.homeWrite dev l ((natLe n x).zipIdx.map (fun p => (p.2, p.1)))

/-- A write of the distributor or of a port that finds an expander silent waits there. -/
def Mach.askWrite (dev : Device) (m : Mach) (va : Nat) : Mach :=
  match translateRaw dev m .laneWrite va with
  | .ok l => m.askTier dev l
  | .error _ => m

/-! ## Scheduler memory (R27, R36) -/

/-- Round up to 64. -/
def up64 (n : Nat) : Nat := (n + 63) / 64 * 64

/-- Bytes of scheduler memory. -/
def schedulerBytes : Nat := 8388608

/-- Bytes that an uploaded graph takes: header, nodes, edges, parameter area. -/
def graphBytes (nodes edges parea : Nat) : Nat := up64 (64 + 64 * nodes + 8 * edges) + up64 parea

/-- Bytes of a graph and of the copies of its parameter area. -/
def Graph.bytes (g : Graph) : Nat := graphBytes g.nodes.length g.edges.length g.parea + g.insts.length * g.parea

/-- Scheduler memory in use, but for the upload of one graph number. -/
def Ctx.schedUsed (c : Ctx) (but : Option (BitVec 8)) : Nat :=
  c.graphs.foldl (fun a g => a + (if but = some g.gnum then g.insts.length * g.parea else g.bytes)) 0 +
  c.detached.foldl (fun a d => a + ((c.graphs.find? (fun g => g.gnum == d.gnum)).map (·.parea)).getD 0) 0

/-! ## The checks of R27 -/

/-- How an upload's checks end before the graph is whole: a wait, or a reason with KIND and INDEX. -/
inductive Refuse where
  | wait (l : Loc)
  | code (reason kind index : Nat)
  deriving DecidableEq, Repr

/-- A check's result. -/
abbrev Chk := Except Refuse

/-- A read that the checks need, or reason 13. -/
def needRead {α : Type} (r : DistRead α) (kind index : Nat) : Chk α :=
  match r with
  | .wait l => .error (.wait l)
  | .fail => .error (.code 13 kind index)
  | .ok x => .ok x

/-- Refuse when a test holds. -/
def refuseIf (bad : Bool) (reason kind index : Nat) : Chk Unit := if bad then .error (.code reason kind index) else .ok ()

/-- Bits of a word of a record. -/
def fld (ws : List Nat) (k lo n : Nat) : Nat := ws.getD k 0 / pow2 lo % pow2 n

/-- A node number or a header's 0xFFFF. -/
def headerIndex : Nat := 65535

/-- Groups of a team (R10). -/
def KernelHeader.groups (h : KernelHeader) : Nat := (h.tx * h.ty * h.tz + 31) / 32

/-- A kernel header's fields; HOMEK = 0 selects 64 (R16). -/
def kernelOf (ws : List Nat) : KernelHeader :=
  { codeb := fld ws 1 32 32, codeo := fld ws 1 0 32, tx := fld ws 2 0 16, ty := fld ws 2 16 16, tz := fld ws 2 32 16,
    frame := fld ws 3 32 8, tiles := fld ws 3 28 4, cw := fld ws 3 16 4, ch := fld ws 3 20 4, csl := fld ws 3 0 16,
    entry := fld ws 4 32 32, hndl := fld ws 4 0 32, hv := fld ws 5 32 1 == 1,
    homek := if fld ws 5 16 16 = 0 then 64 else fld ws 5 16 16, constb := fld ws 6 32 32, consto := fld ws 6 0 32 }

/-- res fields of a kernel header. -/
def kernelResOk (ws : List Nat) : Bool :=
  fld ws 0 0 40 == 0 && fld ws 2 48 16 == 0 && fld ws 3 40 24 == 0 && fld ws 3 24 4 == 0 && fld ws 5 33 31 == 0 &&
  fld ws 5 0 16 == 0 && ws.getD 7 0 == 0

/-- Does a kernel's shape fit R10? -/
def KernelHeader.teamOk (h : KernelHeader) : Bool :=
  1 ≤ h.tx && h.tx ≤ 1024 && 1 ≤ h.ty && h.ty ≤ 1024 && 1 ≤ h.tz && h.tz ≤ 1024 && h.tx * h.ty * h.tz ≤ 1024

/-- Does its cluster shape fit R9? -/
def KernelHeader.clusterOk (h : KernelHeader) : Bool :=
  1 ≤ h.cw && h.cw ≤ 4 && 1 ≤ h.ch && h.ch ≤ 4 && h.cw * h.ch ≤ 12

/-- FRAME, TILES and CSL in range, and R17. -/
def KernelHeader.frameOk (h : KernelHeader) : Bool :=
  8 ≤ h.frame && h.frame ≤ 192 && h.frame % 8 == 0 && h.tiles ≤ 8 && h.csl ≤ 5120 && (h.groups + 3) / 4 * h.frame ≤ 512

/-- Sections, ENTRY and HNDL within R15 and R16. -/
def KernelHeader.sectionsOk (h : KernelHeader) : Bool :=
  h.codeb % 8 == 0 && 16 ≤ h.codeb && h.codeo % 64 == 0 && 64 ≤ h.codeo && h.entry % 8 == 0 && h.entry < h.codeb &&
  (!h.hv || (h.hndl % 8 == 0 && h.hndl < h.codeb)) && h.constb % 8 == 0 &&
  (h.constb == 0 || (h.consto % 64 == 0 && 64 ≤ h.consto &&
    (h.codeo + h.codeb ≤ h.consto || h.consto + h.constb ≤ h.codeo)))

/-- HOMEK in range. -/
def KernelHeader.homeOk (h : KernelHeader) : Bool := 32 ≤ h.homek && h.homek ≤ 4096 && h.homek % 32 == 0

/-- The frame area of a kernel node: the context's default one when both fields are 0 (R24). -/
def frameArea (c : Ctx) (addr bytes : Nat) : Nat × Nat :=
  if addr = 0 && bytes = 0 then (c.dfbase.toNat * 65536, c.dfsize.toNat * 65536) else (addr, bytes)

/-- A frame area that R23 and R24 admit. -/
def areaOk (c : Ctx) (h : KernelHeader) (addr bytes : Nat) : Bool :=
  let (a, n) := frameArea c addr bytes
  a % 65536 == 0 && n != 0 && h.groups * h.homek * 1024 ≤ n

/-- The checks of a kernel node, in the order of R27. -/
def checkKernel (dev : Device) (m : Mach) (parea i : Nat) (ws : List Nat) : Chk Node := do
  let image := ws.getD 1 0
  refuseIf (image % 4096 != 0) 2 0 i
  let ks ← needRead (distWords dev m image 8) 0 i
  let h := kernelOf ks
  refuseIf (fld ks 0 48 16 != 0xAE09 || fld ks 0 40 8 != 1) 1 0 i
  refuseIf (fld ws 0 0 60 != 0 || fld ws 2 32 32 != 0 || fld ws 3 32 32 != 0 || !kernelResOk ks ||
    ws.getD 5 0 % 8 != 0) 2 0 i
  refuseIf (!h.teamOk) 5 0 i
  refuseIf (!h.clusterOk) 6 0 i
  refuseIf (!h.frameOk) 7 0 i
  refuseIf (!h.sectionsOk) 8 0 i
  let addr := ws.getD 6 0
  let bytes := ws.getD 7 0
  refuseIf (!h.homeOk || !areaOk m.ctx h addr bytes) 9 0 i
  let gx := fld ws 2 0 32
  let gy := fld ws 3 0 16
  let gz := fld ws 3 16 16
  refuseIf (pow2 32 ≤ gx * gy * gz || gx % h.cw != 0 || gy % h.ch != 0) 10 0 i
  let pbytes := fld ws 4 32 32
  let poff := fld ws 4 0 32
  refuseIf (32768 < pbytes || parea < poff + pbytes || poff % 8 != 0 || pbytes % 8 != 0) 11 0 i
  return .kernel image h gx gy gz pbytes poff (ws.getD 5 0) addr bytes

/-- The checks of one node record (R22, R27). -/
def checkNode (dev : Device) (m : Mach) (parea i : Nat) (ws : List Nat) : Chk Node :=
  let none' (ks : List Nat) : Bool := ks.all (fun k => ws.getD k 0 == 0)
  match fld ws 0 60 4 with
  | 0 => checkKernel dev m parea i ws
  | 1 => do
    refuseIf (fld ws 0 0 60 != 0 || fld ws 3 48 16 != 0 || !none' [4, 5, 6, 7]) 2 0 i
    return .copy (ws.getD 1 0) (ws.getD 2 0) (fld ws 3 0 48)
  | 2 => do
    refuseIf (fld ws 0 0 60 != 0 || fld ws 1 8 56 != 0 || !none' [3, 4, 5, 6, 7]) 2 0 i
    return .hostwait (fld ws 1 0 8) (BitVec.ofNat 64 (ws.getD 2 0))
  | 3 => do
    refuseIf (fld ws 0 0 60 != 0 || fld ws 1 9 55 != 0 || !none' [3, 4, 5, 6, 7]) 2 0 i
    return .signal (fld ws 1 8 1 == 1) (fld ws 1 0 8) (BitVec.ofNat 64 (ws.getD 2 0))
  | _ => do
    refuseIf (fld ws 0 0 60 != 0) 2 0 i
    .error (.code 4 0 i)

/-- The node array from node `i` on. -/
def checkNodes (dev : Device) (m : Mach) (addr parea : Nat) : Nat → Nat → Chk (List Node)
  | 0, _ => .ok []
  | n + 1, i => do
    let ws ← needRead (distWords dev m (addr + 64 + 64 * i) 8) 0 i
    let x ← checkNode dev m parea i ws
    let xs ← checkNodes dev m addr parea n (i + 1)
    return x :: xs

/-- The nodes reached from a set along edges, with as many rounds as there are nodes. -/
def reach (es : List (Nat × Nat)) : Nat → List Nat → List Nat
  | 0, xs => xs
  | n + 1, xs =>
    let new := (es.filter (fun e => xs.contains e.1 && !xs.contains e.2)).map (·.2)
    if new.isEmpty then xs else reach es n (xs ++ new)

/-- The edge array from edge `i` on, with the edges before it. -/
def checkEdges (dev : Device) (m : Mach) (base nnode : Nat) : Nat → Nat → List (Nat × Nat) → Chk (List (Nat × Nat))
  | 0, _, es => .ok es
  | n + 1, i, es => do
    let ws ← needRead (distWords dev m (base + 8 * i) 1) 1 i
    refuseIf (fld ws 0 32 32 != 0) 2 1 i
    let p := fld ws 0 0 16
    let q := fld ws 0 16 16
    refuseIf (nnode ≤ p || nnode ≤ q || p == q || (reach es nnode [q]).contains p) 12 1 i
    checkEdges dev m base nnode n (i + 1) (es ++ [(p, q)])

/-- The cells of bytes from offset 0 on. -/
def cellsOf (bs : List Byte) : List Host.Cell := (bs.zipIdx.filter (fun p => p.1 != 0)).map (fun p => (p.2, p.1))

/-- Read and check a whole graph (R27). It replaces one of its number with LTR NONE (DEDUCED, log 79). -/
def checkGraph (dev : Device) (m : Mach) (addr : Nat) : Chk Graph := do
  let hs ← needRead (distWords dev m addr 8) 0 headerIndex
  refuseIf (fld hs 0 48 16 != 0xAE0A || fld hs 0 40 8 != 1) 1 0 headerIndex
  let gdone := hs.getD 3 0
  refuseIf (fld hs 0 0 32 != 0 || fld hs 1 32 32 != 0 || fld hs 2 32 32 != 0 || gdone % 8 != 0 ||
    !(hs.drop 4).all (· == 0)) 2 0 headerIndex
  let nnode := fld hs 1 0 16
  let nedge := fld hs 1 16 16
  let parea := fld hs 2 0 32
  let gnum : BitVec 8 := BitVec.ofNat 8 (fld hs 0 32 8)
  refuseIf (nnode == 0 || 4096 < nnode || 16384 < nedge || parea % 8 != 0 || pow2 20 < parea ||
    schedulerBytes < m.ctx.schedUsed (some gnum) + graphBytes nnode nedge parea) 3 0 headerIndex
  let nodes ← checkNodes dev m addr parea nnode 0
  let ebase := addr + 64 + 64 * nnode
  let edges ← checkEdges dev m ebase nnode nedge 0 []
  let area ← needRead (distBytes dev m (addr + up64 (64 + 64 * nnode + 8 * nedge)) (parea / 8)) 0 headerIndex
  return { gnum := gnum, parea := parea, gdone := gdone, nodes := nodes, edges := edges, area := cellsOf area,
           icomp := 0, ltr := 0, accepted := 0, insts := [] }

/-! ## Upload and removal (R30 to R32) -/

/-- Does an upload or removal wait or run? -/
def Upload.busy (u : Upload) : Bool := u.st == .pending || u.st == .checking

/-- Is a graph number being uploaded or removed (R32)? -/
def Device.uploading (dev : Device) (gnum : BitVec 8) : Bool :=
  dev.upload.busy && dev.upload.known && dev.upload.gnum == gnum

/-- A write to GUPL, TRIG or HFLAG while the context does not run is discarded and sets DROP (R385). -/
def runningOnly (s : State) (f : State → State) : Host.Outcome State Fault Refusal :=
  if s.dev.ctxst == .running then .next (f s) else .next { s with dev := { s.dev with drop := true } }

/-- A GUPL write is accepted, unless one waits or is being checked. A graph number that is not known yet reads 0. -/
def acceptUpload (s : State) (gnum : Option (BitVec 8)) (addr : Nat) : State :=
  if s.dev.upload.busy then { s with dev := { s.dev with upload := { s.dev.upload with lost := true } } }
  else
    { s with dev := { s.dev with upload :=
      { gnum := gnum.getD 0, known := gnum.isSome, st := .pending, lost := false, reason := 0, kind := false,
        index := 0, addr := addr } } }

/-- GNUM of the graph header at an address. -/
def headerGnum (dev : Device) (m : Mach) (addr : Nat) : DistRead (BitVec 8) :=
  match distWords dev m addr 1 with
  | .ok ws => .ok (BitVec.ofNat 8 (fld ws 0 32 8))
  | .wait l => .wait l
  | .fail => .fail

/-- A graph number that has been read. -/
def DistRead.got (r : DistRead (BitVec 8)) : Option (BitVec 8) :=
  match r with
  | .ok n => some n
  | _ => none

/-- GRAPH_UPLOAD: a GUPL write with a nonzero ADDR. A nonzero res field discards it. -/
def execGraphUpload (v : Word) (s : State) : Host.Outcome State Fault Refusal :=
  runningOnly s (fun s =>
    let addr := bitsAt v 6 50 * 64
    if bitsAt v 0 6 != 0 || addr = 0 then s else acceptUpload s (headerGnum s.dev s.mach addr).got addr)

/-- GRAPH_REMOVAL: a GUPL write with ADDR = 0. -/
def execGraphRemoval (v : Word) (s : State) : Host.Outcome State Fault Refusal :=
  runningOnly s (fun s =>
    if bitsAt v 0 6 != 0 || bitsAt v 6 50 != 0 then s else acceptUpload s (some (BitVec.ofNat 8 (bitsAt v 56 8))) 0)

/-- Has a graph number an instance queued or running, detached launches included (R32)? -/
def Ctx.graphBusy (c : Ctx) (gnum : BitVec 8) : Bool :=
  c.graphs.any (fun g => g.gnum == gnum && !g.insts.isEmpty) || c.detached.any (fun d => d.gnum == gnum)

/-- The images that a graph names. -/
def Graph.images (g : Graph) : List (Nat × Nat) :=
  g.nodes.filterMap (fun n => match n with
    | .kernel image h .. => some (image, image + h.codeo + h.codeb)
    | _ => none)

/-- A graph takes the place of its number's earlier one; cached copies of its images go (R75). -/
def Mach.installGraph (m : Mach) (g : Graph) : Mach :=
  { m with
    cache := m.cache.filter (fun k => g.images.all (fun i => k.va < i.1 || i.2 ≤ k.va)),
    ctx := { m.ctx with graphs := m.ctx.graphs.filter (fun h => h.gnum != g.gnum) ++ [g] } }

/-- An upload ends REFUSED with a reason, KIND and INDEX (R31). -/
def refuseUpload (s : State) (r k i : Nat) : State :=
  { s with dev := { s.dev with upload := { s.dev.upload with
    st := .refused, reason := BitVec.ofNat 8 r, kind := k == 1, index := BitVec.ofNat 16 i } } }

/-- The checks have begun and wait at a home that does not answer (R31). -/
def State.checkWaits (s : State) (l : Loc) : State :=
  { dev := { s.dev with upload := { s.dev.upload with st := .checking } }, mach := s.mach.askTier s.dev l }

/-- UPLOAD_CHECK (R27, R32): the number is read where it is not known yet; once no instance of it remains, a removal
removes, and an upload is checked and copied, or refused with the earlier graph left in force. A header that has come to
name another number waits for that one's instances. -/
def execUploadCheck (s : State) : Host.Outcome State Fault Refusal :=
  let u := s.dev.upload
  if s.dev.ctxst != .running || !u.busy then .next s
  else if !u.known then
    match headerGnum s.dev s.mach u.addr with
    | .ok n => .next { s with dev := { s.dev with upload := { u with gnum := n, known := true } } }
    | .wait l => .next { s with mach := s.mach.askTier s.dev l }
    | .fail => .next (refuseUpload s 13 0 headerIndex)
  else if s.mach.ctx.graphBusy u.gnum then .next s
  else if u.addr = 0 then
    .next { dev := { s.dev with upload := { u with st := .done } },
            mach := { s.mach with ctx := { s.mach.ctx with
              graphs := s.mach.ctx.graphs.filter (fun g => g.gnum != u.gnum) } } }
  else
    match checkGraph s.dev s.mach u.addr with
    | .ok g =>
      if g.gnum != u.gnum then .next { s with dev := { s.dev with upload := { u with gnum := g.gnum, st := .pending } } }
      else .next { dev := { s.dev with upload := { u with st := .done } }, mach := s.mach.installGraph g }
    | .error (.wait l) => .next (s.checkWaits l)
    | .error (.code r k i) => .next (refuseUpload s r k i)

/-- HOST_FLAG_WRITE (R22, R29). -/
def execHostFlagWrite (n : BitVec 8) (v : Word) (s : State) : Host.Outcome State Fault Refusal :=
  runningOnly s (fun s =>
    { s with mach := { s.mach with ctx := { s.mach.ctx with hflags := vset s.mach.ctx.hflags n.toNat v } } })

end Sys2Proof.Machine
end

