-- ==== Sys2Proof/Machine/Distrib.lean ====
section
/-!
DEFINITION. The distributor's graphs at work: triggers and patch lists, instances, nodes, copies, host flags and
detached launches (R13, R22, R25, R33 to R42, R381, R431).
-/
namespace Sys2Proof.Machine

/-! ## Patch lists (R34, R35) -/

/-- Result codes of a patch list, as GSTAT's LTR names them (R36). -/
inductive Patch where
  | wait (l : Loc)
  | bad
  | fault
  | ok (area : List Host.Cell)

/-- Entries from entry `i` on, applied in list order. -/
def patchEntries (dev : Device) (m : Mach) (va parea : Nat) : Nat → Nat → List Host.Cell → Patch
  | 0, _, area => .ok area
  | n + 1, i, area =>
    match distWords dev m (va + 8 + 16 * i) 2 with
    | .wait l => .wait l
    | .fail => .fault
    | .ok ws =>
      let off := fld ws 0 0 32
      if fld ws 0 32 32 != 0 || off % 8 != 0 || parea < off + 8 then .bad
      else patchEntries dev m va parea n (i + 1) (cellsPut area off (natLe 8 (ws.getD 1 0)))

/-- The parameter area of a graph with a patch list applied; no list for address 0. -/
def patched (dev : Device) (m : Mach) (g : Graph) (va : Nat) : Patch :=
  if va = 0 then .ok g.area
  else match distWords dev m va 1 with
    | .wait l => .wait l
    | .fail => .fault
    | .ok ws =>
      let n := fld ws 0 0 13
      if fld ws 0 48 16 != 0xAE0B || fld ws 0 13 35 != 0 || 4096 < n then .bad
      else patchEntries dev m va g.parea n 0 g.area

/-! ## Graphs and instances -/

/-- The graph of a number. -/
def Ctx.graph? (c : Ctx) (gnum : BitVec 8) : Option Graph := c.graphs.find? (fun g => g.gnum == gnum)

/-- Change a graph. -/
def Mach.modGraph (m : Mach) (gnum : BitVec 8) (f : Graph → Graph) : Mach :=
  { m with ctx := { m.ctx with graphs := m.ctx.graphs.map (fun g => if g.gnum == gnum then f g else g) } }

/-- Change a detached instance. -/
def Mach.modDetached (m : Mach) (id : Nat) (f : Detached → Detached) : Mach :=
  { m with ctx := { m.ctx with detached := m.ctx.detached.map (fun d => if d.id == id then f d else d) } }

/-- An accepted trigger's new instance (R35, R38). -/
def Graph.accept (g : Graph) (area : List Host.Cell) : Graph :=
  { g with
    accepted := g.accepted + 1, ltr := 1,
    insts := g.insts ++ [{ num := g.accepted + 1, area := area, nodes := g.nodes.map (fun _ => .waiting),
                           started := false }] }

/-- TRIG_WRITE (R33, R36): one result, the first refusal of R36 or the accepted instance; a write whose patch list lies
behind a silent expander waits for it. -/
def execTrigWrite (v : Word) (s : State) : Host.Outcome State Fault Refusal :=
  runningOnly s (fun s =>
    let gnum : BitVec 8 := BitVec.ofNat 8 (bitsAt v 56 8)
    let put (f : Graph → Graph) : State := { s with mach := s.mach.modGraph gnum f }
    let result (n : BitVec 8) : State := put (fun g => { g with ltr := n })
    match s.mach.ctx.graph? gnum with
    | none => { s with dev := { (s.dev.event s.mach.cyc 1) with ngn := gnum } }
    | some g =>
      if s.dev.uploading gnum then result 7
      else if bitsAt v 0 3 != 0 then result 5
      else if 8 ≤ g.insts.length then result 3
      else if schedulerBytes < s.mach.ctx.schedUsed none + g.parea then result 4
      else match patched s.dev s.mach g (bitsAt v 3 53 * 8) with
        | .wait l =>
          let m := s.mach.askTier s.dev l
          { s with mach := { m with ctx := { m.ctx with trigs := m.ctx.trigs ++ [v] } } }
        | .bad => result 5
        | .fault => result 6
        | .ok area => put (fun g => g.accept area))

/-! ## Nodes (R25, R38, R39) -/

/-- A node in place: its record, its state, the parameter area of its instance, its grid handle. -/
structure Placed where
  node : Node
  st : NodeSt
  area : List Host.Cell
  handle : BitVec 32
  started : Bool
  preds : Bool

/-- The instance that runs of a graph: the oldest (R38). -/
def Graph.current (g : Graph) : Option Instance := g.insts.head?

/-- The grid handle of a node of an instance (R39). -/
def instHandle (gnum : BitVec 8) (node num : Nat) : BitVec 32 :=
  BitVec.ofNat 32 (gnum.toNat * pow2 23 + node * pow2 11 + num % 2048)

/-- The grid handle of a detached launch. -/
def detachedHandle (id : Nat) : BitVec 32 := BitVec.ofNat 32 (pow2 31 + id)

/-- The state of node `i` of an instance. -/
def Instance.node (x : Instance) (i : Nat) : NodeSt := x.nodes.getD i .waiting

/-- Are the predecessors of a node done? -/
def predsDone (g : Graph) (x : Instance) (i : Nat) : Bool := g.edges.all (fun e => e.2 != i || x.node e.1 == .done)

/-- Find a node. -/
def Ctx.placed? (c : Ctx) (r : InstRef) (i : Nat) : Option Placed :=
  match r with
  | .graph gnum =>
    match c.graph? gnum with
    | none => none
    | some g =>
      match g.current, g.nodes[i]? with
      | some x, some n => some { node := n, st := x.node i, area := x.area, handle := instHandle gnum i x.num,
                                 started := x.started, preds := predsDone g x i }
      | _, _ => none
  | .detached id =>
    match c.detached.find? (fun d => d.id == id) with
    | some d =>
      if d.node = i then
        some { node := d.what, st := d.st, area := d.area, handle := detachedHandle id, started := true, preds := true }
      else none
    | none => none

/-- Change a node's state. -/
def Mach.setNode (m : Mach) (r : InstRef) (i : Nat) (st : NodeSt) : Mach :=
  match r with
  | .graph gnum => m.modGraph gnum (fun g => { g with insts := match g.insts with
      | [] => []
      | x :: rest => { x with nodes := x.nodes.set i st } :: rest })
  | .detached id => m.modDetached id (fun d => { d with st := st })

/-- A kernel node's grid (R14, R39). -/
def newGrid (m : Mach) (r : InstRef) (i : Nat) (p : Placed) : Option Grid :=
  match p.node with
  | .kernel image h gx gy gz pbytes poff comp fa fb =>
    let (base, bytes) := frameArea m.ctx fa fb
    let params := (p.area.filter (fun c => poff ≤ c.1 && c.1 < poff + pbytes)).map (fun c => (c.1 - poff, c.2))
    some { handle := p.handle, ref := r, node := i, image := image, hdr := h, gx := gx, gy := gy, gz := gz, comp := comp,
           frameBase := base, frameBytes := bytes, params := params, pbytes := pbytes, badParams := [], old := [], next := 0, ready := m.cyc.toNat,
           waitSince := m.cyc.toNat, starving := false, lost := false }
  | _ => none

/-- A node starts. -/
def Mach.startNode (m : Mach) (r : InstRef) (i : Nat) : Mach :=
  match m.ctx.placed? r i with
  | none => m
  | some p =>
    if p.st != .waiting || !p.started || !p.preds then m
    else match p.node with
      | .copy _ _ _ => m.setNode r i (.copying 0 [] [])
      | _ =>
        let m' := m.setNode r i .running
        match newGrid m r i p with
        | some g => { m' with ctx := { m'.ctx with grids := m'.ctx.grids ++ [g] } }
        | none => m'

/-- NODE_START (R25). -/
def execNodeStart (r : InstRef) (node : Nat) (s : State) : Host.Outcome State Fault Refusal :=
  runStep (fun _ m => m.startNode r node) s

/-- INSTANCE_START (R38): the oldest queued instance starts with its root nodes. -/
def execInstanceStart (gnum : BitVec 8) (s : State) : Host.Outcome State Fault Refusal :=
  runStep (fun _ m =>
    match (m.ctx.graph? gnum).bind Graph.current, m.ctx.graph? gnum with
    | some x, some g =>
      if x.started then m
      else
        let m := m.modGraph gnum (fun g => { g with insts := match g.insts with
          | [] => []
          | x :: rest => { x with started := true } :: rest })
        let roots := (List.range g.nodes.length).filter (fun i => g.edges.all (fun e => e.2 != i))
        roots.foldl (fun m i => m.startNode (.graph gnum) i) m
    | _, _ => m) s

/-- HOSTWAIT_COMPLETE (R22). -/
def execHostwaitComplete (r : InstRef) (node : Nat) (s : State) : Host.Outcome State Fault Refusal :=
  runStep (fun _ m =>
    match m.ctx.placed? r node with
    | some p =>
      (match p.node with
       | .hostwait flag value =>
         if p.st == .running && value ≤ vget m.ctx.hflags flag 0 then m.setNode r node .done else m
       | _ => m)
    | none => m) s

/-- SIGNAL_NODE (R22). -/
def execSignalNode (r : InstRef) (node : Nat) (s : State) : Host.Outcome State Fault Refusal :=
  match s.mach.ctx.placed? r node with
  | some p =>
    (match p.node with
     | .signal irq flag value =>
       if p.st == .running && s.dev.ctxst == .running then
         let m := s.mach.setNode r node .done
         .next { dev := if irq then { (s.dev.event s.mach.cyc 0) with sfl := BitVec.ofNat 8 flag } else s.dev,
                 mach := { m with ctx := { m.ctx with hflags := vset m.ctx.hflags flag value } } }
       else .next s
     | _ => .next s)
  | none => .next s

/-! ## COPY nodes (R431) -/

/-- The record of a COPY node's fault: the distributor's, on compute die 0. -/
def copySrc (r : InstRef) (node : Nat) (h : BitVec 32) : FaultSrc :=
  { master := .copyNode r node, die := 0, gridh := h, dist := true, eng := false, gslot := 0, loc := 0 }

/-- The pieces of `n` bytes at an address, split at a page end. -/
def pagePieces (va n : Nat) : List (Nat × Nat) :=
  let room := 65536 - va % 65536
  if n ≤ room then [(va, n)] else [(va, room), (va + room, n - room)]

/-- The places of a unit's pieces, or the address, cause and level of the piece that fails. -/
def unitPlaces (dev : Device) (m : Mach) (k : AccessKind) : List (Nat × Nat) → Except (Nat × Nat × Nat) (List (Loc × Nat))
  | [] => .ok []
  | (va, n) :: rest =>
    if pow2 56 ≤ va then .error (va, 0, 3)
    else match translateRaw dev m k va with
      | .error (c, lvl) => .error (va, c, lvl)
      | .ok l => match unitPlaces dev m k rest with
        | .ok ls => .ok ((l, n) :: ls)
        | .error e => .error e

/-- Bytes read piece by piece: none while a home does not answer; the first poisoned piece is told. -/
def readPieces (dev : Device) (m : Mach) : List (Loc × Nat) → Option (Mach × List Byte × Bool)
  | [] => some (m, [], false)
  | (l, n) :: rest =>
    match m.homeRead dev l n with
    | none => none
    | some (m, bs, bad) =>
      match readPieces dev m rest with
      | none => none
      | some (m, r, b) => some (m, bs ++ r, b || !bad.isEmpty)

/-- Bytes written piece by piece. -/
def writePieces (dev : Device) (m : Mach) : List (Loc × Nat) → List Byte → Option Mach
  | [], _ => some m
  | (l, n) :: rest, bs =>
    match m.homeWrite dev l ((bs.take n).zipIdx.map (fun p => (p.2, p.1))) with
    | none => none
    | some m => writePieces dev m rest (bs.drop n)

/-- What became of one unit. -/
inductive CopyStep where
  | wait (m : Mach)
  | done (m : Mach)
  /-- With the page or line that ABORT would skip: a page by its number, a line as 2⁴⁸ + its number. -/
  | fault (va cause lvl : Nat) (k : AccessKind) (skip : Nat)

/-- One unit of at most 16 bytes. -/
def copyOne (dev : Device) (m0 : Mach) (src dst n : Nat) : CopyStep :=
  let walks := (pagePieces src n ++ pagePieces dst n).map (·.1)
  if walks.any (m0.walkHeld dev) then .wait m0
  else
  let m := walks.foldl (fun m va => m.touchWalk dev va) m0
  match unitPlaces dev m .engineRead (pagePieces src n) with
  | .error (va, c, lvl) => .fault va c lvl .engineRead (va / 65536)
  | .ok ss =>
    if ss.any (fun p => (linesOf p.1 p.2).any (fun ln => (m.ownerOf ln).isSome)) then .wait m0
    else match readPieces dev m ss with
      | none => .wait (ss.foldl (fun m p => m.askTier dev p.1) m0)
      | some (m, bs, bad) =>
        if bad then
          -- the first poisoned line, by an address in it
          let hurt (p : (Nat × Nat) × (Loc × Nat)) : List Nat := match m.homeRead dev p.2.1 p.2.2 with
            | some (_, _, b) => b.map (fun k => p.1.1 + (max (64 * k) p.2.1.addr - p.2.1.addr))
            | none => []
          let va := (((pagePieces src n).zip ss).flatMap hurt).headD src
          .fault va 5 0 .engineRead (pow2 48 + va / 64)
        else match unitPlaces dev m .engineWrite (pagePieces dst n) with
          | .error (va, c, lvl) => .fault va c lvl .engineWrite (va / 65536)
          | .ok ds =>
            if ds.any (fun p => (linesOf p.1 p.2).any (fun ln => (m.ownerOf ln).isSome)) then .wait m0
            else match writePieces dev m ds bs with
              | some m => .done m
              | none => .wait (ds.foldl (fun m p => m.askTier dev p.1) m0)

/-- Is a unit skipped: a page of a kind by its number, or a source line as 2⁴⁸ + its number (R431)? -/
def unitSkipped (skips : List (Nat × AccessKind)) (src dst n : Nat) : Bool :=
  skips.any (fun x =>
    let hit (va size key : Nat) : Bool := va / size ≤ key && key ≤ (va + n - 1) / size
    match x.2 with
    | .engineRead => if pow2 48 ≤ x.1 then hit src 64 (x.1 - pow2 48) else hit src 65536 x.1
    | _ => hit dst 65536 x.1)

/-- Up to `fuel` units of a COPY node. -/
def copyUnits (dev : Device) (r : InstRef) (node : Nat) (h : BitVec 32) (src dst bytes : Nat) : Nat → Nat →
    List (Nat × AccessKind) → Mach → Mach
  | 0, u, skips, m => m.setNode r node (.copying u skips [])
  | fuel + 1, u, skips, m =>
    if bytes ≤ 16 * u then m.setNode r node (.copying u skips [])
    else
      let n := min 16 (bytes - 16 * u)
      let a := (src + 16 * u) % pow2 64
      let b := (dst + 16 * u) % pow2 64
      if unitSkipped skips a b n then copyUnits dev r node h src dst bytes fuel (u + 1) skips m
      else match copyOne dev m a b n with
        | .wait m => m.setNode r node (.copying u skips [])
        | .done m => copyUnits dev r node h src dst bytes fuel (u + 1) skips m
        | .fault va c lvl k skip =>
          let m' := m.recordFault (copySrc r node h) va k c lvl
          let stopped := m'.faults.any (fun f => f.vpage == va / 65536 % pow2 40 && f.kind == k &&
            f.masters.contains (.copyNode r node))
          m'.setNode r node (.copying u skips (if stopped then [(skip, k)] else []))

/-- COPY_NODE (R431): up to `units` units, in ascending order. -/
def execCopyNode (r : InstRef) (node units : Nat) (s : State) : Host.Outcome State Fault Refusal :=
  runStep (fun dev m =>
    match m.ctx.placed? r node with
    | none => m
    | some p =>
      match p.node, p.st with
      | .copy src dst bytes, .copying u skips [] => copyUnits dev r node p.handle src dst bytes units u skips m
      | _, _ => m) s

/-- COPY_NODE_DONE (R25, R431): every unit has been copied or skipped. -/
def execCopyNodeDone (r : InstRef) (node : Nat) (s : State) : Host.Outcome State Fault Refusal :=
  runStep (fun _ m =>
    match m.ctx.placed? r node with
    | none => m
    | some p =>
      match p.node, p.st with
      | .copy _ _ bytes, .copying u _ [] => if bytes ≤ 16 * u then m.setNode r node .done else m
      | _, _ => m) s

/-- INSTANCE_COMPLETE (R38): GDONE receives the instance's number, ICOMP rises. -/
def execInstanceComplete (gnum : BitVec 8) (s : State) : Host.Outcome State Fault Refusal :=
  distStep (fun dev m =>
    match m.ctx.graph? gnum with
    | none => m
    | some g =>
      match g.current with
      | none => m
      | some x =>
        if !x.started || !x.nodes.all (· == .done) then m
        else
          let done (m : Mach) : Mach := m.modGraph gnum (fun g => { g with icomp := g.icomp + 1, insts := g.insts.drop 1 })
          if g.gdone = 0 then done m
          else match distWrite dev m g.gdone 8 x.num with
            | some m => done m
            | none => m.askWrite dev g.gdone) s

/-! ## Detached launches (R39 to R42) -/

/-- A status word (R41). -/
def launchStatus (code : Nat) (handle : BitVec 32) : Nat := code * pow2 56 + handle.toNat

/-- The next detached id: from 1 upward, after 2³¹ − 1 again 1, no id of an incomplete instance. -/
def freeDetached (used : List Nat) : Nat → Nat → Nat
  | 0, n => n
  | fuel + 1, n =>
    let n := if n = 0 || pow2 31 ≤ n then 1 else n
    if used.contains n then freeDetached used fuel (n + 1) else n

/-- What a LAUNCH request ends in. -/
inductive Launched where
  | wait (l : Loc)
  /-- Scheduler memory has no room for another parameter area (R4). -/
  | full
  | refused (code : Nat)
  | accepted (g : Graph) (what : Node) (area : List Host.Cell)

/-- The answer to a LAUNCH request: BAD_NODE, UPLOADING, BUSY, then the patch list's results. Where scheduler memory (R4)
has no room for its parameter area, no code of R41 says so, and the request waits (DESIGN CHOICE, log 70). -/
def launchAnswer (dev : Device) (m : Mach) (r : LaunchReq) : Launched :=
  let node := bitsAt r.a 8 16
  match m.ctx.graph? (BitVec.ofNat 8 (bitsAt r.a 0 8)) with
  | none => .refused 5
  | some g =>
    match g.nodes[node]? with
    | none => .refused 5
    | some n =>
      if bitsAt r.a 24 40 != 0 then .refused 5
      else if dev.uploading g.gnum then .refused 8
      else if 256 ≤ m.ctx.detached.length then .refused 4
      else if r.patch.toNat % 8 != 0 then .refused 6
      else match patched dev m g r.patch.toNat with
        | .wait l => .wait l
        | .bad => .refused 6
        | .fault => .refused 7
        | .ok area => if schedulerBytes < m.ctx.schedUsed none + g.parea then .full else .accepted g n area

/-- The LAUNCH's flag falls with its first result. -/
def Mach.launchDone (m : Mach) (id : Nat) : Mach :=
  match m.op? id with
  | some o => m.completeOp o
  | none => m

/-- LAUNCH_REQUEST (R40 to R42): the distributor takes the oldest request, in a cycle after the one in which it came
(DESIGN CHOICE, log 70), so that a teardown of that cycle wins. The handle of a refusal, which the spec does not state, is 0
(DESIGN CHOICE, log 18). -/
def execLaunchRequest (s : State) : Host.Outcome State Fault Refusal :=
  distStep (fun dev m =>
    match m.ctx.launches with
    | [] => m
    | r :: rest =>
      let taken (m : Mach) : Mach := { m with ctx := { m.ctx with launches := rest } }
      if m.cyc.toNat ≤ r.reached then m
      else match launchAnswer dev m r with
      | .wait l => m.askTier dev l
      | .full => m
      | .refused code =>
        match distWrite dev m r.status.toNat 8 (launchStatus code 0) with
        | some m => (taken m).launchDone r.op
        | none => m.askWrite dev r.status.toNat
      | .accepted g n area =>
        let id := freeDetached (m.ctx.detached.map (·.id)) 300 m.ctx.detachedNext
        match distWrite dev m r.status.toNat 8 (launchStatus 1 (detachedHandle id)) with
        | none => m.askWrite dev r.status.toNat
        | some m =>
          let d : Detached := { id := id, gnum := g.gnum, node := bitsAt r.a 8 16, what := n, area := area, st := .waiting,
                                status := r.status, op := r.op }
          let m := taken m
          { m with ctx := { m.ctx with detached := m.ctx.detached ++ [d], detachedNext := id + 1 } }.launchDone r.op) s

/-- DETACHED_COMPLETE (R41): the node has completed, and its status word receives COMPLETE. -/
def execDetachedComplete (id : Nat) (s : State) : Host.Outcome State Fault Refusal :=
  distStep (fun dev m =>
    match m.ctx.detached.find? (fun d => d.id == id) with
    | none => m
    | some d =>
      if d.st != .done then m
      else match distWrite dev m d.status.toNat 8 (launchStatus 2 (detachedHandle id)) with
        | some m => { m with ctx := { m.ctx with detached := m.ctx.detached.filter (fun d => d.id != id) } }
        | none => m.askWrite dev d.status.toNat) s

end Sys2Proof.Machine
end

