-- ==== Sys2Proof/Machine/Fetch.lean ====
section
/-!
DEFINITION. What a group's turn brings to issue: a trap's delivery, a clause header, or the next word of its
clause (R53, R55, R56, R70 order 1, R72, R75, R362), and the passing of cycles.
-/
namespace Sys2Proof.Machine

/-- What a turn brings: an instruction to execute in a state, or a state in which nothing has issued. -/
inductive Fetched where
  | run (i : Instr) (s : State)
  | idle (s : State)
  deriving DecidableEq, Repr

/-- The header of a code-section offset, with its clause in the core's cache (R72, R75). -/
def fetchHeader (s : State) (g : Group) (grid : Grid) (run : Mask) (off : Nat) : Fetched :=
  let va := codeVa grid off
  let bad := Fetched.idle (trapAt s g off s.mach.nextId causeTarget run (BitVec.ofNat 64 off))
  if grid.hdr.codeb < off + 8 then bad
  else
    match s.mach.cache.find? (fun k => k.core == g.core && k.va == va) with
    | some k =>
      let h := k.words.headD 0
      if isHeader h then .run (.clauseHeaderIssue (fieldsHeader h)) s else bad
    | none =>
      if s.mach.transHeld s.dev g.core none va then .idle s
      else
      let (m, r) := translate s.dev s.mach g.core .fetch va
      match r with
      | .error (cause, lvl) => .idle (fetchFault { s with mach := m } g run off va cause lvl)
      | .ok l => match readCode s.dev m l with
        | none => .idle { s with mach := m.askTier s.dev l }
        | some (m, h) =>
          if isHeader h then
            .run (.clauseHeaderIssue (fieldsHeader h)) { s with mach := fillClause s.dev m g.core va h }
          else bad

/-- The clause that a run inside it issues from: the copy it holds, or one read again (R56). -/
def clauseAgain (s : State) (g : Group) (grid : Grid) (run : Mask) (p : LanePC) : Except State (Mach × Clause) :=
  match g.clause with
  | some c => if c.hdr = p.hdr then .ok (s.mach, c) else again
  | none => again
where
  /-- The header read again from the cache or from memory. -/
  again : Except State (Mach × Clause) :=
    let va := codeVa grid p.hdr
    match s.mach.cache.find? (fun k => k.core == g.core && k.va == va) with
    | some k =>
      .ok (s.mach, { hdr := p.hdr, header := fieldsHeader (k.words.headD 0), words := k.words.drop 1, begun := true })
    | none =>
      if s.mach.transHeld s.dev g.core none va then .error s
      else
      let (m, r) := translate s.dev s.mach g.core .fetch va
      match r with
      | .error (cause, lvl) => .error (fetchFault { s with mach := m } g run (p.hdr + 8 * p.idx) va cause lvl)
      | .ok l => match readCode s.dev m l with
        | none => .error { s with mach := m.askTier s.dev l }
        | some (m, h) =>
        let m := fillClause s.dev m g.core va h
        .ok (m, { hdr := p.hdr, header := fieldsHeader h,
                  words := ((m.cache.headD { core := 0, va := 0, words := [] }).words).drop 1, begun := true })

/-- The next word of the clause that a run is inside. An unassigned opcode traps (R70 order 1). -/
def fetchWord (s : State) (g : Group) (grid : Grid) (run : Mask) (p : LanePC) : Fetched :=
  match clauseAgain s g grid run p with
  | .error s => .idle s
  | .ok (m, c) =>
    match clauseWord { s with mach := m } g grid run p c with
    | .error s => .idle s
    | .ok (m, c) =>
      let s : State := { s with mach := m.modGroup g.gid (fun g => { g with clause := some c }) }
      let w := c.words.getD (p.idx - 1) 0
      match ofOpcode (bitsAt w 54 10) w with
      | some i => .run i s
      | none => .idle (trapAt s g (p.hdr + 8 * p.idx) s.mach.nextId causeOpcode run w)

/-- A group's turn. -/
def fetchGroup (s : State) (gid : Nat) : Fetched :=
  match s.mach.group? gid with
  | none => .idle s
  | some g =>
    if s.mach.deliverable g then .run (.trapDelivery gid) s
    else if !s.mach.canIssue g then .idle s
    else
      match g.nextPc, s.mach.gridOfGroup? g with
      | some pc, some grid =>
        let run := g.runAt pc
        let p := g.lane (firstLane run)
        if p.idx = 0 then fetchHeader s g grid run p.hdr else fetchWord s g grid run p
      | _, _ => .idle s

/-! ## The passing of cycles (R102, R105) -/

/-- A group's time of being ready goes on or ends (R102, R105), and so does the time of an active group's wait at a
header (R103). -/
def Mach.clock (dev : Device) (m : Mach) (g : Group) : Group :=
  let r := if m.isReady dev g then some (g.sched.readySince.getD m.cyc.toNat) else none
  let w := if g.sched.active && m.headerWaits dev g then some (g.sched.waitSince.getD m.cyc.toNat) else g.sched.waitSince
  { g with sched := { g.sched with readySince := r, waitSince := w } }

/-- Cycles pass: CYC rises; an expander that answers in them answers what it was asked. -/
def Mach.tick (dev : Device) (m : Mach) (n : Nat) : Mach :=
  let gs := m.ctx.groups.map (m.clock dev)
  let heard (u : TierUnit) (p : Nat) : TierUnit := match u.asked with
    | none => u
    | some _ => if Config.expanderAnswers p m.cyc.toNat then { u with asked := none } else u
  { m with cyc := m.cyc + BitVec.ofNat 64 n, ctx := { m.ctx with groups := gs },
           tiers := Vector.ofFn (fun i : Fin 2 => heard (m.tiers.get i) i.val) }

/-- A group that is selected: its time without being selected ends; it stays raised until a word of it issues (R102). -/
def Group.selected (g : Group) : Group := { g with sched := { g.sched with readySince := none } }

/-- A group's turn begins: one cycle passes, and the group is the one selected (R98, R102). -/
def State.turn (s : State) (gid : Nat) : State :=
  let m := (s.mach.tick s.dev 1).modGroup gid Group.selected
  { s with mach := { m with cur := gid } }

end Sys2Proof.Machine
end

