-- ==== Sys2Proof/Machine/TrapEv.lean ====
section
/-!
DEFINITION. The steps that deliver a trap and move one into its queue (R361, R362).
-/
namespace Sys2Proof.Machine

/-- TRAP_DELIVERY (R362 to R364): the queued trap whose causing word issued first is delivered. -/
def execTrapDelivery (gid : Nat) (s : State) : Host.Outcome State Fault Refusal :=
  match s.mach.group? gid with
  | none => .next s
  | some g =>
    match g.nextTrap with
    | none => .next s
    | some t => if s.dev.ctxst == .running && s.mach.deliverable g then .next { s with mach := s.mach.deliver gid t } else .next s

/-- TRAP_QUEUE_ENTRY (R361): a trap that waited outside a full queue enters once an entry is free. -/
def execTrapQueueEntry (gid : Nat) (s : State) : Host.Outcome State Fault Refusal :=
  .next { s with mach := s.mach.modGroup gid (fun g =>
    match g.trapsOut with
    | [] => g
    | t :: r => if g.traps.length < 8 then { g with traps := g.traps ++ [t], trapsOut := r } else g) }

end Sys2Proof.Machine
end

