-- ==== Sys2Proof/Machine/Place.lean ====
section
/-!
DEFINITION. A running group that holds one given instruction as its next (DESIGN CHOICE, log 7): what `withFetchWord` sets.
-/
namespace Sys2Proof.Machine

/-- An engine class that admits an opcode (R57). -/
def classFor (opc : Nat) : BitVec 3 :=
  BitVec.ofNat 3 (((List.range 7).find? (fun e => admits (BitVec.ofNat 3 e) opc)).getD 0)

/-- The header of a clause of one word, with flags K0 and K1 as its flags A and B. -/
def oneWordHeader (opc : Nat) : Header :=
  { cnt := 0, ecls := classFor opc, wait := 0, fav := true, fa := 0, fbv := true, fb := 1, reg := false,
    y := false, swp := false, res := 0 }

/-- A barrier that has completed no phase (R350). -/
def Barrier.init : Barrier := { ph := 0, cnt := 0, tgt := 0 }

/-- A lane that has never opened a transaction (R354). -/
def LaneTx.init : LaneTx :=
  { act := false, doom := false, cause := 0, code := 0, granule := none, reads := [], writes := [] }

/-- The scheduling state of a group that has just entered the active set. -/
def Sched.init (cyc : Nat) (active : Bool) : Sched :=
  { active := active, since := cyc, readySince := none, raised := false, claim := false, waitSince := none,
    blockedSince := none, holdUntil := 0, leave := false }

/-- A group as placement leaves it (R44, R46): its live lanes at ENTRY, level 0, registers 0 (DESIGN CHOICE, log 3). -/
def Group.placed' (gid team num core quarter slot cyc frame entry : Nat) (fbb : Word) (live : Mask)
    (active : Bool) : Group :=
  { gid := gid, team := team, num := num, core := core, quarter := quarter, slot := slot, placed := cyc,
    fbb := fbb,
    lanes := Vector.ofFn (fun i : Fin 32 =>
      { live := live.has i.val, hdr := entry, idx := 0, level := 0, region := entry }),
    p := Vector.replicate 12 0, q := Vector.replicate 4 false, s := Vector.replicate 64 0, v := [],
    badRegs := [],
    links := [{ reto := 0, cato := 0, base := 0, dem := frame, win := 0, cm := false, held := frame }],
    k := Vector.replicate 12 0, f := Vector.replicate 8 Stream.closedReg, m := Vector.replicate 8 none,
    satf := false, pix := 0, fenced := 0, traps := [], trapsOut := [], handling := none, regcnt := 0, marks := [],
    sleep := none, frozen := none, faultWait := .none, barWaits := [], arrived := Vector.replicate 16 none,
    arrivedC := Vector.replicate 4 none, deferred := [], handed := none,
    tx := Vector.replicate 32 LaneTx.init, ownWait := none, ownAt := none, faultAt := 0,
    clean := [], homed := [], clause := none, pair := none, serve := none,
    sched := Sched.init cyc active, retired := false }

/-- The kernel of the group that `placeWord` makes. -/
def loneKernel : KernelHeader :=
  { codeb := 4294967288, codeo := 0, tx := 32, ty := 1, tz := 1, frame := 192, tiles := 8, cw := 1, ch := 1,
    csl := 5120, entry := 0, hndl := 0, hv := true, homek := 64, constb := 0, consto := 0 }

/-- A core on which no team stands; core 0 if there is none. -/
def Mach.emptyCore (m : Mach) : Nat :=
  ((List.range 64).find? (fun k => m.ctx.teams.all (fun t => t.core != k))).getD 0

/-- A handle that no grid has. -/
def Mach.newHandle (m : Mach) : BitVec 32 :=
  BitVec.ofNat 32 (m.ctx.grids.foldl (fun a g => max a (g.handle.toNat + 1)) 1)

/-- Add a grid, a cluster, a team and one group of 32 lanes, alone on a core. -/
def Mach.loneGroup (m : Mach) : Nat × Mach :=
  let gid := m.nextId
  let h := m.newHandle
  let core := m.emptyCore
  let grid : Grid :=
    { handle := h, ref := .detached 0, node := 0, image := 0, hdr := loneKernel, gx := 1, gy := 1, gz := 1,
      comp := 0, frameBase := 0, frameBytes := 65536, params := [], pbytes := 0, badParams := [], old := [], next := 1,
      ready := m.cyc.toNat, waitSince := m.cyc.toNat, starving := false, lost := false }
  let team : Team :=
    { tid := gid + 1, grid := h, lin := 0, x := 0, y := 0, z := 0, core := core, member := 0,
      cluster := gid + 2, base := 0, csl := 5120, tiles := List.range 8, bars := Vector.replicate 16 .init,
      hash := Vector.replicate 4 none, sgrp := none, drains := [] }
  let g := Group.placed' gid (gid + 1) 0 core 0 0 m.cyc.toNat 192 0 0 (BitVec.allOnes 32) true
  (gid, { m with
    nextId := gid + 3,
    ctx := { m.ctx with
      grids := m.ctx.grids ++ [grid], teams := m.ctx.teams ++ [team], groups := m.ctx.groups ++ [g],
      clusters := m.ctx.clusters ++ [{ cid := gid + 2, grid := h, bars := Vector.replicate 4 .init }] } })

/-- The group whose turn the script names first, when it would issue now. -/
def State.upNext (s : State) : Option Nat :=
  match s.mach.script with
  | .group gid :: _ =>
    if s.dev.powered && s.dev.ctxst == .running then
      let t := s.turn gid
      match t.mach.group? gid with
      | some g =>
        match g.nextPc, t.mach.gridOfGroup? g with
        | some _, some _ => if t.mach.canIssue g && !t.mach.deliverable g then some gid else none
        | _, _ => none
      | none => none
    else none
  | _ => none

/-- Put a word where a group's next issue takes it: an instruction word into a one-word clause that the
group has begun, a clause header into its core's clause cache. -/
def Mach.putWord (m : Mach) (gid : Nat) (w : Word) : Mach :=
  match m.group? gid with
  | none => m
  | some g =>
    let run := g.runAt (g.nextPc.getD 0)
    let hdr := (g.lane (firstLane run)).hdr
    if isHeader w then
      let va := ((m.gridOfGroup? g).map (fun grid => codeVa grid hdr)).getD hdr
      let m := m.modGroup gid (fun g => { g.setLanes run (fun _ p => { p with idx := 0 }) with clause := none })
      { m with cache := { core := g.core, va := va, words := [w] } :: m.cache }
    else
      m.modGroup gid (fun g =>
        { g.setLanes run (fun _ p => { p with idx := 1 }) with
          clause := some { hdr := hdr, header := oneWordHeader (bitsAt w 54 10), words := [w], begun := true } })

/-- The state with a word as the next that step fetches. -/
def placeWord (s : State) (w : Word) : State :=
  match s.upNext with
  | some gid => { s with mach := s.mach.putWord gid w }
  | none =>
    let (gid, m) := s.mach.loneGroup
    { dev := { s.dev with powered := true, ctxst := .running },
      mach := { m.putWord gid w with script := .group gid :: m.script } }

end Sys2Proof.Machine
end

