-- ==== Sys2Proof/Machine/PlaceEv.lean ====
section
/-!
DEFINITION. Placement of clusters, fetch-work, and the retirement of groups, teams and grids (R10 to R14, R23,
R43 to R52, R379 to R381).
-/
namespace Sys2Proof.Machine

/-! ## Room for a team (R43) -/

/-- Clusters of a grid (R12, R13). -/
def Grid.clusters (g : Grid) : Nat := g.gx * g.gy * g.gz / (g.hdr.cw * g.hdr.ch)

/-- Teams on a core. -/
def Mach.teamsOn (m : Mach) (core : Nat) : List Team := m.ctx.teams.filter (fun t => t.core == core)

/-- The lowest free range of lines of a core store, by its first byte. -/
def Mach.freeLines (m : Mach) (core csl : Nat) : Option Nat :=
  let ts := m.teamsOn core
  let starts := 0 :: ts.map (fun t => t.base + t.csl * 64)
  let fits (b : Nat) : Bool := b + csl * 64 ≤ coreBytes &&
    ts.all (fun t => b + csl * 64 ≤ t.base || t.base + t.csl * 64 ≤ b || t.csl == 0)
  if csl = 0 then some 0
  else (starts.filter fits).foldl (fun a b => match a with
    | none => some b
    | some c => some (min b c)) none

/-- A core's free tiles, the lowest first. -/
def Mach.freeTiles (m : Mach) (core : Nat) : List Nat :=
  (List.range 8).filter (fun n => (m.teamsOn core).all (fun t => !t.tiles.contains n))

/-- Groups of a team in a quarter (R11). -/
def KernelHeader.inQuarter (h : KernelHeader) (q : Nat) : Nat := ((List.range h.groups).filter (fun g => g % 4 == q)).length

/-- Groups on a core. -/
def Mach.groupsOn (m : Mach) (core : Nat) : Nat := (m.ctx.groups.filter (fun g => g.core == core && g.holdsSlot)).length

/-- Has the drover's third stage begun in a quarter: no other group takes a reservation there (R120)? -/
def Mach.thirdStage (m : Mach) (core quarter : Nat) : Bool :=
  match m.oldestBlocked core quarter with
  | some o => o.sched.blockedSince.getD 0 + 1024 ≤ m.cyc.toNat
  | none => false

/-- Does a core admit a team, but for its register homes? -/
def Mach.admits (m : Mach) (h : KernelHeader) (core : Nat) : Bool :=
  (m.freeLines core h.csl).isSome && h.tiles ≤ (m.freeTiles core).length && m.groupsOn core + h.groups ≤ 128 &&
  (List.range 4).all (fun q => ((m.inQuarter core q).filter Group.holdsSlot).length + h.inQuarter q ≤ 32 &&
    h.inQuarter q * h.frame ≤ m.freeRegs core q && (h.inQuarter q == 0 || !m.thirdStage core q))

/-- The register homes in use: first byte and size. -/
def Mach.homes (m : Mach) : List (Nat × Nat) :=
  (m.ctx.groups.filter (fun g => !(g.retired && g.links.isEmpty))).map (fun g =>
    (g.fbb.toNat, ((m.gridOfGroup? g).map (·.hdr.homek)).getD 64 * 1024))

/-- The free home at the lowest offset of an area (R43). -/
def freeHome (taken : List (Nat × Nat)) (base bytes size : Nat) : Option Nat :=
  ((List.range (bytes / size)).find? (fun k =>
    taken.all (fun t => t.1 + t.2 ≤ base + k * size || base + k * size + size ≤ t.1))).map (fun k => base + k * size)

/-- Homes for `n` groups, each at the lowest free offset. -/
def takeHomes (base bytes size : Nat) : Nat → List (Nat × Nat) → Option (List Nat)
  | 0, _ => some []
  | n + 1, taken => match freeHome taken base bytes size with
    | none => none
    | some a => (takeHomes base bytes size n ((a, size) :: taken)).map (fun r => a :: r)

/-- Rectangles in the order of R44: die, row, column; their cores by member number. -/
def rectangles (cw ch : Nat) : List (List Nat) :=
  (List.range 4).flatMap (fun d => (List.range (5 - ch)).flatMap (fun j => (List.range (5 - cw)).map (fun i =>
    (List.range (cw * ch)).map (fun k => d * 16 + (j + k / cw) * 4 + i + k % cw))))

/-- The rectangle that takes a cluster: for a single team the admitting core with the fewest groups, else the
first that admits (R44). -/
def Mach.rectangle (m : Mach) (h : KernelHeader) : Option (List Nat) :=
  let ok := (rectangles h.cw h.ch).filter (fun r => r.all (fun k => m.admits h k))
  if h.cw * h.ch = 1 then
    ok.foldl (fun a r => match a with
      | none => some r
      | some b => if m.groupsOn (r.headD 0) < m.groupsOn (b.headD 0) then some r else some b) none
  else ok.head?

/-- Where a grid's next cluster would go: its cores and its groups' homes. -/
def Mach.siteOf (m : Mach) (g : Grid) : Option (List Nat × List Nat) :=
  match m.rectangle g.hdr, takeHomes g.frameBase g.frameBytes (g.hdr.homek * 1024) (g.hdr.cw * g.hdr.ch * g.hdr.groups) m.homes with
  | some r, some hs => some (r, hs)
  | _, _ => none

/-! ## The order of grids (R45) -/

/-- A grid's graph number. -/
def Mach.gridGnum (m : Mach) (g : Grid) : Nat :=
  match g.ref with
  | .graph n => n.toNat
  | .detached id => ((m.ctx.detached.find? (fun d => d.id == id)).map (·.gnum.toNat)).getD 0

/-- Is grid `a` considered before grid `b` (R45)? Two of one cycle and one node, which two detached launches may make, stand in
the order of their handles (DESIGN CHOICE, log 60). -/
def Mach.gridBefore (m : Mach) (a b : Grid) : Bool :=
  let ka := m.gridGnum a
  let kb := m.gridGnum b
  a.ready < b.ready || (a.ready == b.ready && (ka < kb || (ka == kb && (a.node < b.node ||
    (a.node == b.node && a.handle < b.handle)))))

/-- Has a grid's next cluster waited 8,192 cycles? -/
def Mach.starves (m : Mach) (g : Grid) : Bool := g.starving || g.waitSince + 8192 ≤ m.cyc.toNat

/-- May a grid's next cluster be tried: no earlier grid has one that starves or that can be placed? -/
def Mach.gridTurn (m : Mach) (g : Grid) : Bool :=
  m.ctx.grids.all (fun o => !m.gridBefore o g || o.clusters ≤ o.next || (!m.starves o && (m.siteOf o).isNone))

/-- GRID_STARVATION (R45). -/
def execGridStarvation (grid : BitVec 32) (s : State) : Host.Outcome State Fault Refusal :=
  machStep (fun _ m => m.modGrid grid (fun g =>
    if g.next < g.clusters && g.waitSince + 8192 ≤ m.cyc.toNat then { g with starving := true } else g)) s

/-! ## Placing a cluster (R43, R44, R46) -/

/-- The lowest free slot of a quarter. -/
def Mach.freeSlot' (m : Mach) (core q : Nat) : Nat :=
  ((List.range 32).find? (fun n => (m.inQuarter core q).all (fun g => g.slot != n || !g.holdsSlot))).getD 0

/-- The live lanes of a group: positions inside the team (R10). -/
def KernelHeader.lanes (h : KernelHeader) (g : Nat) : Mask := Mask.ofFn (fun l => decide (32 * g + l < h.tx * h.ty * h.tz))

/-- Add one group of a new team. -/
def Mach.addGroup (m : Mach) (g : Grid) (tid core num home : Nat) : Mach :=
  let q := num % 4
  let active := ((m.inQuarter core q).filter (fun h => h.sched.active)).length < 8
  let x := Group.placed' m.nextId tid num core q (m.freeSlot' core q) m.cyc.toNat g.hdr.frame g.hdr.entry
    (BitVec.ofNat 64 home) (g.hdr.lanes num) active
  { m with nextId := m.nextId + 1, ctx := { m.ctx with groups := m.ctx.groups ++ [x] } }

/-- A team's core-store range and tiles as placement leaves them: unspecified (R46). -/
def Mach.freshTeam (m : Mach) (t : Team) : Mach :=
  let lo := t.core * 1048576 + t.base
  let m := { m with mem := { m.mem with core := m.mem.core.placeFresh lo (lo + t.csl * 64) m.freeCtr } }
  let m := t.tiles.foldl (fun m n => m.setTile { Tile.unplaced t.core n with seed := m.freeCtr, bad := (m.tile t.core n).bad }) m
  { m with freeCtr := m.freeCtr + 1 }

/-- Add member `k` of a new cluster. -/
def Mach.addTeam (m : Mach) (g : Grid) (cid index k core : Nat) (homes : List Nat) : Mach :=
  let nx := g.gx / g.hdr.cw
  let ny := g.gy / g.hdr.ch
  let x := index % nx * g.hdr.cw + k % g.hdr.cw
  let y := index / nx % ny * g.hdr.ch + k / g.hdr.cw
  let z := index / (nx * ny)
  let t : Team :=
    { tid := m.nextId, grid := g.handle, lin := x + g.gx * (y + g.gy * z), x := x, y := y, z := z, core := core,
      member := k, cluster := cid, base := (m.freeLines core g.hdr.csl).getD 0, csl := g.hdr.csl,
      tiles := (m.freeTiles core).take g.hdr.tiles, bars := Vector.replicate 16 .init, hash := Vector.replicate 4 none,
      sgrp := none, drains := [] }
  let m := ({ m with nextId := m.nextId + 1, ctx := { m.ctx with teams := m.ctx.teams ++ [t] } }).freshTeam t
  (homes.zipIdx).foldl (fun m p => m.addGroup g t.tid core p.2 p.1) m

/-- Place a grid's next cluster at a site; its members take homes by ascending member number (DESIGN CHOICE, log 80). -/
def Mach.placeCluster (m : Mach) (g : Grid) (cores homes : List Nat) : Mach :=
  let cid := m.nextId
  let n := g.hdr.groups
  let c : Cluster := { cid := cid, grid := g.handle, bars := Vector.replicate 4 .init }
  let m := { m with nextId := m.nextId + 1, ctx := { m.ctx with clusters := m.ctx.clusters ++ [c] } }
  let m := (cores.zipIdx).foldl (fun m p => m.addTeam g cid g.next p.2 p.1 ((homes.drop (n * p.2)).take n)) m
  m.modGrid g.handle (fun g => { g with next := g.next + 1, waitSince := m.cyc.toNat, starving := false })

/-- CLUSTER_PLACE (R43 to R45). -/
def execClusterPlace (grid : BitVec 32) (s : State) : Host.Outcome State Fault Refusal :=
  machStep (fun dev m =>
    match m.grid? grid with
    | none => m
    | some g =>
      if dev.ctxst == .running && g.next < g.clusters && m.gridTurn g then
        (match m.siteOf g with
         | some (r, hs) => m.placeCluster g r hs
         | none => m)
      else m) s

/-! ## Fetch-work (R47 to R49) -/

/-- The mailbox's bytes (R48). -/
def mailbox (x y z lin status : Nat) : List Byte :=
  natLe 4 x ++ natLe 2 y ++ natLe 2 z ++ natLe 4 lin ++ natLe 1 status ++ natLe 1 0 ++ natLe 2 1

/-- The answer to a FETCHW: the mailbox, and the grid whose next team is handed over. -/
def Mach.fetchAnswer (m : Mach) (h : BitVec 32) : List Byte × Option Grid :=
  match m.grid? h with
  | none => (mailbox 0 0 0 0 2, none)
  | some g =>
    if g.hdr.cw * g.hdr.ch != 1 then (mailbox 0 0 0 0 3, none)
    else if g.clusters ≤ g.next then (mailbox 0 0 0 0 1, none)
    else (mailbox (g.next % g.gx) (g.next / g.gx % g.gy) (g.next / (g.gx * g.gy)) g.next 0, some g)

/-- A team is handed over to a group: it counts as placed (R49). -/
def Mach.handOver (m : Mach) (gid : Nat) (g : Grid) : Mach :=
  let m := m.modGrid g.handle (fun g => { g with next := g.next + 1, waitSince := m.cyc.toNat, starving := false })
  m.modGroup gid (fun x => if x.retired then x else { x with handed := some (g.handle, g.next) })

/-- Could the last unplaced team of the grid that a FETCHW names be placed now (R49)? -/
def Mach.lastIsPlaceable (dev : Device) (m : Mach) (h : BitVec 32) : Bool :=
  match m.grid? h with
  | some g => dev.ctxst == .running && g.hdr.cw * g.hdr.ch == 1 && g.next + 1 == g.clusters && m.gridTurn g &&
      (m.siteOf g).isSome
  | none => false

/-- FETCHW_REQUEST (R47 to R49): the distributor answers the oldest request; it does not take a last team that could be
placed, since placement comes first. -/
def execFetchwRequest (s : State) : Host.Outcome State Fault Refusal :=
  distStep (fun dev m =>
    match m.ctx.fetches with
    | [] => m
    | f :: rest =>
      if m.lastIsPlaceable dev f.handle then m else
      let m' := { m with ctx := { m.ctx with fetches := rest } }
      match m.op? f.op with
      | none => m'
      | some o =>
        match m.team? o.team with
        | none => m'.completeOp o
        | some t =>
          let l := coreLoc t f.mailbox
          if (m.ownerOf (lineOf l)).isSome then m
          else
            let (bs, g) := m.fetchAnswer f.handle
            let m := m'.writeBytes (bytesAt l bs)
            let m := match g with
              | some g => m.handOver f.gid g
              | none => m
            m.completeOp o) s

/-! ## Retirement (R379 to R381) -/

/-- A retired group's frames and reservation are released, and its register home goes back to the frame area (R379). -/
def Group.freeFrames (g : Group) : Group := { g.keepPlaces (fun _ => false) with links := [] }

/-- An operation that keeps a retired group's registers, or its stream registers, in use. -/
def keepsGroup (o : Op) : Bool :=
  isLaneLoad o.instr || (match o.instr with
    | .sopen _ => true
    | .snext _ => true
    | .sskip _ => true
    | .sisect _ => true
    | .sunion _ => true
    | _ => false)

/-- A group whose last lane has exited retires: its traps are discarded, and the operations that they carry
are cancelled; its handed team retires. -/
def Mach.retireGroup (m : Mach) (g : Group) : Mach :=
  let stopped := (g.traps ++ g.trapsOut).filterMap (·.op)
  let h := ((m.gridOfGroup? g).map (·.handle)).getD 0
  let m := m.dropOwnWait g.gid
  let m := stopped.foldl (fun m id => m.modOp id (fun o => { o with st := .done })) m
  let m := if stopped.isEmpty then m else m.modGrid h (fun x => { x with lost := true })
  m.modGroup g.gid (fun g => { g with
    retired := true, traps := [], trapsOut := [], handling := none, handed := none, sleep := none, barWaits := [],
    faultWait := .none, clause := none, serve := none, marks := [],
    sched := { Sched.init m.cyc.toNat false with active := false } })

/-- GROUP_RETIRE (R379): a group without a live lane retires; its registers and home are free once its lane loads have
completed, its slot once its deferred arrivals have been made too. -/
def execGroupRetire (g : Nat) (s : State) : Host.Outcome State Fault Refusal :=
  machStep (fun _ m =>
    match m.group? g with
    | none => m
    | some x =>
      if x.livem != 0 then m
      else
        let m := if x.retired then m else m.retireGroup x
        if m.ctx.ops.any (fun o => o.gid == g && isLaneLoad o.instr) then m
        else
        let m := m.modGroup g Group.freeFrames
        if !x.deferred.isEmpty || m.ctx.ops.any (fun o => o.gid == g && keepsGroup o) then m
        else { m with ctx := { m.ctx with groups := m.ctx.groups.filter (fun y => y.gid != g) } }) s

/-- May a team retire (R380)? -/
def Mach.teamDone (m : Mach) (t : Team) : Bool :=
  m.ctx.groups.all (fun g => g.team != t.tid || (g.retired && g.deferred.isEmpty)) &&
  m.ctx.ops.all (fun o => o.team != t.tid) && t.drains.isEmpty && m.ctx.rays.all (fun r => r.team != t.tid) &&
  m.canLeave t

/-- TEAM_RETIRE (R380): the team leaves its sharing group, and everything that it owns is free. -/
def execTeamRetire (t : Nat) (s : State) : Host.Outcome State Fault Refusal :=
  machStep (fun _ m =>
    match m.team? t with
    | none => m
    | some x =>
      if !m.teamDone x then m
      else
        let teams := m.ctx.teams.filter (fun y => y.tid != t)
        { m with
          tiles := m.tiles.filter (fun y => y.core != x.core || !x.tiles.contains y.num),
          ctx := { m.ctx with
            teams := teams, groups := m.ctx.groups.filter (fun g => g.team != t),
            clusters := m.ctx.clusters.filter (fun c => c.cid != x.cluster || teams.any (fun y => y.cluster == c.cid)) } }) s

/-- Has every team of a grid retired, placed and handed ones alike (R49, R381)? -/
def Mach.gridDone (m : Mach) (g : Grid) : Bool :=
  g.clusters ≤ g.next && m.ctx.teams.all (fun t => t.grid != g.handle) &&
  m.ctx.groups.all (fun x => x.handed.isNone || x.handed.map (·.1) != some g.handle)

/-- The completion word of a grid (R381). -/
def completionWord (g : Grid) : Nat := (if g.lost then 2 else 1) * pow2 56 + g.handle.toNat

/-- GRID_COMPLETE (R381): the completion word is written, and the node completes with it (R25). -/
def execGridComplete (grid : BitVec 32) (s : State) : Host.Outcome State Fault Refusal :=
  distStep (fun dev m =>
    match m.grid? grid with
    | none => m
    | some g =>
      if !m.gridDone g then m
      else
        let fin (m : Mach) : Mach :=
          let m := { m with ctx := { m.ctx with grids := m.ctx.grids.filter (fun x => x.handle != grid) } }
          m.setNode g.ref g.node .done
        if g.comp = 0 then fin m
        else match distWrite dev m g.comp 8 (completionWord g) with
          | some m => fin m
          | none => m.askWrite dev g.comp) s

end Sys2Proof.Machine
end

