-- ==== Sys2Proof/Machine/SchedEv.lean ====
section
/-!
DEFINITION. The steps of a quarter's issue unit and of its drover: raises, swaps, claims, frames taken and
granted, sleepers woken (R100 to R105, R115 to R122, R158, R159).
-/
namespace Sys2Proof.Machine

/-! ## Raising and swapping (R102 to R105) -/

/-- Change a group's place in the active and pending sets. -/
def Mach.modSched (m : Mach) (gid : Nat) (f : Sched → Sched) : Mach :=
  m.modGroup gid (fun g => { g with sched := f g.sched })

/-- The change of a group's place, made when a test on it holds. -/
def schedStep (gid : Nat) (test : Device → Mach → Group → Bool) (f : Device → Mach → Group → Mach) (s : State) :
    Host.Outcome State Fault Refusal :=
  runStep (fun dev m =>
    match m.group? gid with
    | none => m
    | some g => if test dev m g then f dev m g else m) s

/-- Has a time since a cycle passed? -/
def Mach.since (m : Mach) (t : Option Nat) (n : Nat) : Bool :=
  match t with
  | some t => t + n ≤ m.cyc.toNat
  | none => false

/-- GROUP_RAISE (R102): a ready active group has not been selected for 64 cycles. -/
def execGroupRaise (g : Nat) (s : State) : Host.Outcome State Fault Refusal :=
  schedStep g (fun dev m g => g.sched.active && m.isReady dev g && m.since g.sched.readySince 64)
    (fun _ m g => m.modSched g.gid (fun x => { x with raised := true })) s

/-- Does the group stand at a header that fails WAIT and asks it to leave at once (R103: SWP = 1)? -/
def Mach.swapsNow (dev : Device) (m : Mach) (g : Group) : Bool :=
  match m.headerAt dev g with
  | some h => h.swp && !waitHolds g h
  | none => false

/-- A group leaves the active set. -/
def Mach.leaveActive (m : Mach) (gid : Nat) : Mach :=
  m.modSched gid (fun x => { x with active := false, since := m.cyc.toNat, claim := false })

/-- WAIT_SWAP_OUT (R103): the wait has held for 16 cycles, or is at a header with SWP = 1. A group to which a trap is to be
delivered is ready (R101) and does not wait. -/
def execWaitSwapOut (g : Nat) (s : State) : Host.Outcome State Fault Refusal :=
  schedStep g (fun dev m g => g.sched.active && !m.deliverable g &&
      (m.swapsNow dev g || (m.since g.sched.waitSince 16 && m.stillWaits dev g)))
    (fun _ m g => m.leaveActive g.gid) s

/-- Does the group stand at a clause boundary, or at a waiting word whose wait has not passed (R103)? -/
def Mach.mayLeave (dev : Device) (m : Mach) (g : Group) : Bool :=
  !g.midClause || (g.sched.waitSince.isSome && m.stillWaits dev g)

/-- The group of a list that comes first by a time, the older one of two. -/
def firstBy (time : Group → Nat) (gs : List Group) : Option Group :=
  gs.foldl (fun a g => match a with
    | none => some g
    | some b =>
      if time g < time b || (time g == time b && (g.placed < b.placed || (g.placed == b.placed && g.num < b.num))) then
        some g else some b) none

/-- An active group's place is claimed: it leaves at once, or at its next clause boundary (R103). -/
def Mach.claimPlace (dev : Device) (m : Mach) (v : Group) : Mach :=
  if m.mayLeave dev v then m.leaveActive v.gid else m.modSched v.gid (fun x => { x with claim := true })

/-- A quarter's pending groups that have been ready for 1,024 cycles. -/
def Mach.claimants (dev : Device) (m : Mach) (core quarter : Nat) : List Group :=
  (m.inQuarter core quarter).filter (fun h => !h.sched.active && m.isReady dev h && m.since h.sched.readySince 1024)

/-- PENDING_RAISE (R105): a pending group ready for 1,024 cycles claims the place of the group that has been
active longest; a quarter serves one claim at a time, in the order in which groups reached 1,024 cycles. -/
def execPendingRaise (g : Nat) (s : State) : Host.Outcome State Fault Refusal :=
  schedStep g
    (fun dev m g => !g.sched.active && m.isReady dev g && m.since g.sched.readySince 1024 &&
      (firstBy (fun h => h.sched.readySince.getD 0) (m.claimants dev g.core g.quarter)).map (·.gid) == some g.gid &&
      (m.inQuarter g.core g.quarter).all (fun h => !h.sched.claim))
    (fun dev m g =>
      match firstBy (fun h => h.sched.since) ((m.inQuarter g.core g.quarter).filter (fun h => h.sched.active)) with
      | none => m
      | some v => (m.modSched g.gid (fun x => { x with claim := true })).claimPlace dev v) s

/-- Does the group's next word read a V register, as far as its clause is at hand (R104)? -/
def Mach.nextReadsV (m : Mach) (g : Group) : Bool :=
  match m.nextWord g with
  | some i => (match wordSpec i, wordOf i with
      | some t, some a => !(readsV i t a).isEmpty
      | _, _ => false)
  | none => false

/-- The pending group that a free place goes to. While a claimed group is still active a claimant waits for its place, and
other places go to the one of the others that has been pending longest (R103); the place that the claimed group has left is
the claimant's (R105). -/
def Mach.nextIn (dev : Device) (m : Mach) (core quarter : Nat) : Option Group :=
  let ready := m.readyPending dev core quarter
  let longest := firstBy (fun h => h.sched.since)
  if (m.inQuarter core quarter).any (fun h => h.sched.active && h.sched.claim) then
    longest (ready.filter (fun h => !h.sched.claim))
  else
    match ready.find? (fun h => h.sched.claim) with
    | some h => some h
    | none => longest ready

/-- Active groups of a quarter. -/
def Mach.activeCount (m : Mach) (core quarter : Nat) : Nat :=
  ((m.inQuarter core quarter).filter (fun h => h.sched.active)).length

/-- GROUP_SWAP_IN (R103, R104): a free place goes to a ready pending group, whose first word issues two cycles
later, or three when it reads a V register. -/
def execGroupSwapIn (g : Nat) (s : State) : Host.Outcome State Fault Refusal :=
  schedStep g
    (fun dev m g => m.activeCount g.core g.quarter < 8 && (m.nextIn dev g.core g.quarter).map (·.gid) == some g.gid)
    (fun _ m g => m.modSched g.gid (fun x => { x with
      active := true, since := m.cyc.toNat, claim := false, waitSince := none,
      holdUntil := m.cyc.toNat + 2 + (if m.nextReadsV g then 1 else 0) })) s

/-! ## The register home (R117, R122) -/

/-- Write bytes of a register home at an offset, where the frame area is mapped for writing; none while the walk or the
write waits. -/
def Mach.putHome (dev : Device) (m : Mach) (g : Group) (off : Nat) (bs : List Byte) : Option Mach :=
  match walkRaw dev m .engineWrite (g.fbb.toNat + off) with
  | none => none
  | some (m, .ok l) => m.homeWrite dev l (bs.zipIdx.map (fun b => (b.2, b.1)))
  | some (m, .error _) => some m

/-- Write pieces of a register home, one after another. -/
def Mach.putHomes (dev : Device) (m : Mach) (g : Group) : List (Nat × List Byte) → Option Mach
  | [] => some m
  | (off, bs) :: r => (m.putHome dev g off bs).bind (fun m => m.putHomes dev g r)

/-- The two words of a link record. -/
def Link.bytes (k : Link) : List Byte :=
  natLe 8 (k.reto * pow2 32 + k.cato) ++
  natLe 8 (k.base * pow2 48 + k.dem * pow2 40 + k.win * pow2 32 + (if k.cm then pow2 31 else 0))

/-- Places of a frame's own part, but for its `keep` highest registers, whose registers are materialised. -/
def Group.ownPlaces (g : Group) (lv keep : Nat) : List Nat :=
  let k := g.link lv
  (g.v.filter (fun p => k.base + k.win ≤ p.1 && p.1 < k.base + k.dem - keep)).map (·.1)

/-- Write the materialised registers of a frame's own part, but for its `keep` highest ones, and its link record to the
home; none while a write waits there. A register whose copy there is its own already is not written again (R122). An LD of
the home by its own group finds what has last been written there (DESIGN CHOICE, log 54). -/
def Mach.flushFrame (dev : Device) (m : Mach) (g : Group) (lv keep : Nat) : Option Mach :=
  let k := g.link lv
  let homek := ((m.gridOfGroup? g).map (·.hdr.homek)).getD 64
  let own := g.v.filter (fun p => (g.ownPlaces lv keep).contains p.1 && !g.clean.contains p.1)
  m.putHomes dev g (own.map (fun p => (128 * p.1, p.2.toList.flatMap (fun x => natLe 4 x.toNat))) ++
    [(homek * 1024 - 8192 + 16 * lv, k.bytes)])

/-! ## The drover (R120) -/

/-- The registers of a frame, but for its `keep` highest ones, now stand in the home, from which they are read back (R120,
R122). -/
def Group.toHome (lv keep : Nat) (g : Group) : Group :=
  let new := g.ownPlaces lv keep
  { g with clean := g.clean ++ new.filter (fun h => !g.clean.contains h),
           homed := g.homed ++ new.filter (fun h => !g.homed.contains h) }

/-- Take a frame down to `keep` reserved registers: it is written to the home; a group whose current frame is
no longer resident is blocked from now on. None while the home's writes wait. -/
def Mach.takeFrame (dev : Device) (m : Mach) (gid lv keep : Nat) : Option Mach :=
  match m.group? gid with
  | none => some m
  | some g =>
    if (g.link lv).held ≤ keep then some m
    else
      (m.flushFrame dev g lv keep).map (fun m => m.modGroup gid (fun g =>
        let g := g.toHome lv keep
        let g := { g with links := g.links.zipIdx.map (fun p => if p.2 == lv then { p.1 with held := keep } else p.1) }
        if g.frameResident then g
        else { g with sched := { g.sched with blockedSince := some (g.sched.blockedSince.getD m.cyc.toNat) } }))

/-- Blocked groups of a quarter. -/
def Mach.blocked (m : Mach) (core quarter : Nat) : List Group :=
  (m.inQuarter core quarter).filter (fun g => g.sched.blockedSince.isSome && !g.retired)

/-- Registers that a quarter's blocked groups need. -/
def Mach.blockedNeed (m : Mach) (core quarter : Nat) : Nat := (m.blocked core quarter).foldl (fun a g => a + g.frameNeed) 0

/-- Take frames (group, level, registers kept) in order until a need is met, or one has to wait. -/
def Mach.takeUntil (dev : Device) (m : Mach) (core quarter need : Nat) : List (Nat × Nat × Nat) → Mach
  | [] => m
  | x :: r =>
    if need ≤ m.freeRegs core quarter then m
    else match m.takeFrame dev x.1 x.2.1 x.2.2 with
      | none => m
      | some m => m.takeUntil dev core quarter need r

/-- A quarter's pending groups that are not blocked, the one pending longest first. -/
def insertSince (g : Group) : List Group → List Group
  | [] => [g]
  | h :: r => if g.sched.since < h.sched.since then g :: h :: r else h :: insertSince g r

/-- Every frame of a group, the lowest level first. -/
def Group.frames (g : Group) : List (Nat × Nat × Nat) := (List.range g.links.length).map (fun lv => (g.gid, lv, 0))

/-- How long the oldest blocked group of a quarter has been blocked. -/
def Mach.blockedFor (m : Mach) (core quarter n : Nat) : Bool :=
  match m.oldestBlocked core quarter with
  | some o => m.since o.sched.blockedSince n
  | none => false

/-- DROVER_STAGE_1: frames of pending groups that are not blocked. -/
def execDroverStage1 (core quarter : Nat) (s : State) : Host.Outcome State Fault Refusal :=
  runStep (fun dev m =>
    if m.blockedFor core quarter 0 then
      let gs := ((m.inQuarter core quarter).filter (fun g =>
        !g.sched.active && g.sched.blockedSince.isNone && !g.retired)).foldl (fun a g => insertSince g a) []
      m.takeUntil dev core quarter (m.blockedNeed core quarter) (gs.flatMap Group.frames)
    else m) s

/-- DROVER_STAGE_2: after 256 cycles, lower frames of blocked groups but for the registers that their current
frame's window aliases. -/
def execDroverStage2 (core quarter : Nat) (s : State) : Host.Outcome State Fault Refusal :=
  runStep (fun dev m =>
    if m.blockedFor core quarter 256 then
      m.takeUntil dev core quarter (m.blockedNeed core quarter)
        ((m.blocked core quarter).flatMap (fun g => (List.range g.level).map (fun lv => (g.gid, lv, g.wanted lv))))
    else m) s

/-- DROVER_STAGE_3: after 1,024 cycles, every frame of every other group; active groups leave at their next
clause boundary or waiting word first. -/
def execDroverStage3 (core quarter : Nat) (s : State) : Host.Outcome State Fault Refusal :=
  runStep (fun dev m =>
    match m.oldestBlocked core quarter with
    | none => m
    | some o =>
      if m.since o.sched.blockedSince 1024 then
        let others := (m.inQuarter core quarter).filter (fun g => g.gid != o.gid && !g.retired)
        let gone := others.filter (fun g => !g.sched.active || m.mayLeave dev g)
        let m := (others.filter (fun g => g.sched.active)).foldl (fun m g => m.claimPlace dev g) m
        m.takeUntil dev core quarter (m.blockedNeed core quarter) (gone.flatMap Group.frames)
      else m) s

/-- FRAME_GRANT (R115, R120): a blocked group's registers are free, and no third stage keeps them for another. -/
def execFrameGrant (g : Nat) (s : State) : Host.Outcome State Fault Refusal :=
  schedStep g
    (fun _ m g => g.sched.blockedSince.isSome && g.frameNeed ≤ m.freeRegs g.core g.quarter && !m.stage3 g)
    (fun _ m g => m.modGroup g.gid Group.reserveFrame) s

/-! ## Sleep (R158, R159) -/

/-- SLEEP_WAKE: the deadline has come; a promise wait also needs its flag to have been zero then. -/
def execSleepWake (g : Nat) (s : State) : Host.Outcome State Fault Refusal :=
  schedStep g
    (fun _ m g => g.asleep && (match g.sleep with
      | some (.until d) => decide (d.toNat ≤ m.cyc.toNat)
      | some (.promise d f _ _ _ _ z _) =>
        decide (d.toNat ≤ m.cyc.toNat) && g.flagCount f == 0 && (match z with
          | some c => decide (c.toNat < d.toNat)
          | none => true)
      | none => false))
    (fun _ m g => m.modGroup g.gid (fun g => { g with sleep := none })) s

/-- PROMISE_MISSED (R159): the flag has reached zero only after the deadline; in the next cycle the group wakes
with the trap queued. -/
def execPromiseMissed (g : Nat) (s : State) : Host.Outcome State Fault Refusal :=
  runStep (fun _ m =>
    match m.group? g with
    | none => m
    | some gr =>
      match gr.sleep with
      | some (.promise d f off mask reg seq (some c) back) =>
        if gr.asleep && gr.flagCount f == 0 && d.toNat ≤ c.toNat && c.toNat < m.cyc.toNat then
          (m.modGroup g (fun g => { g with sleep := none })).raise g
            { cause := causePromiseMissed, kind := .n, mask := mask, off := off, info := c, regcnt := reg,
              op := none, seq := seq, back := some back }
        else m
      | _ => m) s

end Sys2Proof.Machine
end

