-- ==== Sys2Proof/Machine/CtxEv.lean ====
section
/-!
DEFINITION. Context commands: LOAD, SAVE, TEARDOWN and THAW, and their ends (R42, R297, R373 to R377, R384).
-/
namespace Sys2Proof.Machine

/-! ## Commands (R384) -/

/-- A command that is not accepted: BUSY while another one runs, else BAD. -/
def refuseCommand (s : State) : State :=
  { s with dev := { s.dev with last :=
      if s.dev.ctxst == .loading || s.dev.ctxst == .saving || s.dev.ctxst == .tearing then 1 else 2 } }

/-- A command ends: its state, LAST = OK, EVT bit 5. -/
def endCommand (cyc : Word) (dev : Device) (st : CtxSt) : Device := { dev with ctxst := st, last := 0 }.event cyc 5

/-- CTX_LOAD: accepted in EMPTY. -/
def execCtxLoad (fresh : Bool) (s : State) : Host.Outcome State Fault Refusal :=
  if s.dev.ctxst == .empty then
    .next { s with dev := { s.dev with ctxst := .loading, fresh := fresh, drop := false } }
  else .next (refuseCommand s)

/-! ## SAVE (R297, R373, R374) -/

/-- Can an operation stop with PIX (R370)? -/
def stoppable (i : Instr) : Bool :=
  match i with
  | .mma _ => true
  | .mdrain _ => true
  | .mlda _ => true
  | .tmov _ => true
  | .copy _ => true
  | .gtha _ => true
  | .sopen _ => true
  | .snext _ => true
  | .sskip _ => true
  | .sisect _ => true
  | .sunion _ => true
  | .hprobe _ => true
  | .raye _ => true
  | .atom w => mBit w.mod 4
  | .red w => mBit w.mod 4
  | .cas w => mBit w.mod 4
  | _ => false

/-- May the context be saved as far as an operation goes: it has stopped, it can stop now, or it is an
unanswered FETCHW? Rows of a peer drain that are on their way arrive first. -/
def Op.savable (o : Op) : Bool :=
  match o.st with
  | .running =>
    (match o.instr with
     | .fetchw _ => true
     | .mdrain w => !mBit w.mod 4 || o.recs.isEmpty
     | i => stoppable i)
  | .done => false
  | _ => true

/-- Every treelet visit ends and every ray goes to the spill regions, those on their way too, behind the ones that are there
already (R297, R373): a parked ray stays parked, with its visit ended. -/
def Mach.spillRays (m : Mach) : Mach :=
  m.ctx.rays.foldl (fun m r => match r.st with
    | .parked => m.modRay r.id (fun r => { r with ended := true })
    | .spilled => m
    | _ => m.spillRay r.id r.stack) m

/-- Hints not yet sent are dropped, every treelet visit ends. -/
def Mach.startSave (m : Mach) : Mach :=
  let m := (m.dropHints (fun _ => true)).spillRays
  { m with staged := [] }

/-- CTX_SAVE: accepted in RUNNING; from now on no group issues and no team is placed. -/
def execCtxSave (s : State) : Host.Outcome State Fault Refusal :=
  if s.dev.ctxst == .running then
    .next { dev := { s.dev with ctxst := .saving }, mach := s.mach.startSave }
  else .next (refuseCommand s)

/-- A group as the save keeps it: its transactions are doomed, a stall has had no effect, and a run whose clause's first
word has not issued stands at its header (R56, R98). -/
def Group.stopForSave (g : Group) : Group :=
  { (g.atHeader.doom g.livem 7) with faultWait := .none, ownWait := none, ownAt := none }

/-- A stopped operation as the save keeps it: one that awaited an answer to a fault tries again, and a probe
reads its head slot again. -/
def Op.stopForSave (o : Op) : Op :=
  let o : Op := match o.st with
    | .faulted _ _ => { o with st := .running }
    | _ => o
  match o.instr with
  | .hprobe _ => { o with aux := 1 }
  | .mdrain w => if mBit w.mod 4 then { o with aux := 0 } else o
  | _ => { o with held := [] }

/-- A COPY node that awaits an answer to a fault tries again. -/
def Mach.resumeCopies (m : Mach) : Mach :=
  m.faults.foldl (fun m f => f.masters.foldl (fun m x => match x with
    | .copyNode r i =>
      (match (m.ctx.placed? r i).map (fun p => p.st) with
       | some (NodeSt.copying u skips _) => m.setNode r i (.copying u skips [])
       | _ => m)
    | _ => m) m) m

/-- Every frame of a group stands in its register home, from which its registers are read back (R120). -/
def Group.allHome (g : Group) : Group := (List.range g.links.length).foldl (fun g lv => g.toHome lv 0) g

/-- Every frame of every group goes to the register homes, but for registers that an earlier take has written (R122,
R373); none while a write waits. -/
def Mach.flushAll (dev : Device) (m : Mach) : Option Mach :=
  let frames := m.ctx.groups.flatMap (fun g => (List.range g.links.length).map (fun lv => (g, lv)))
  (frames.foldlM (fun (m : Mach) x => m.flushFrame dev x.1 x.2 0) m).map (fun m =>
    { m with ctx := { m.ctx with groups := m.ctx.groups.map Group.allHome } })

/-- Fault records without their context: those already written await no answer, the others are still reported. -/
def orphanFaults (fs : List FaultRec) : List FaultRec :=
  (fs.filter (fun f => f.idx.isNone)).map (fun f => { f with masters := [] })

/-- The machine without a context: nothing translated, cached, owned or staged for one. -/
def Mach.vacate (m : Mach) : Mach :=
  { m with ctx := .empty, own := [], tlb := [], cache := [], staged := [], faults := orphanFaults m.faults }

/-- Bytes of a save area (R383). -/
def saveBytes : Nat := 96 * 1048576

/-- The save is complete: the context is kept at its address, whose area in HBM no program can read a meaning
into (DESIGN CHOICE, log 9). -/
def Mach.keepSave (dev : Device) (m : Mach) : Mach :=
  let lo := dev.save.toNat * 65536
  let slots := m.own.filter (fun p => m.ctx.rays.any (fun r => r.id == p.2))
  let kept : Saved := { addr := dev.save, ctx := m.ctx, core := m.mem.core, tiles := m.tiles, own := slots }
  let clear (x : Saved) : Bool := x.addr.toNat * 65536 + saveBytes ≤ lo || lo + saveBytes ≤ x.addr.toNat * 65536
  let m : Mach := { m with
    saves := m.saves.filter clear ++ [kept], freeCtr := m.freeCtr + 1,
    mem := { m.mem with hbm := (m.mem.hbm.zero lo (lo + saveBytes)).placeFresh lo (lo + saveBytes) m.freeCtr } }
  m.vacate

/-- Everything has stopped: the rays that were sent or freed meanwhile follow the others to the spill regions, and the context
is saved (R373); none while a register home's write waits. -/
def Mach.save (dev : Device) (m : Mach) : Option Mach :=
  let m := m.spillRays.resumeCopies
  let m : Mach := { m with ctx := { m.ctx with
    groups := m.ctx.groups.map Group.stopForSave, ops := m.ctx.ops.map Op.stopForSave } }
  (m.flushAll dev).map (fun m => m.keepSave dev)

/-! ## TEARDOWN (R42) -/

/-- CTX_TEARDOWN: accepted in RUNNING. -/
def execCtxTeardown (s : State) : Host.Outcome State Fault Refusal :=
  if s.dev.ctxst == .running then .next { s with dev := { s.dev with ctxst := .tearing } }
  else .next (refuseCommand s)

/-- Write status words; none while a home does not answer. -/
def writeStatuses (dev : Device) (m : Mach) : List (Word × Nat) → Option Mach
  | [] => some m
  | (va, x) :: rest =>
    match distWrite dev m va.toNat 8 x with
    | some m => writeStatuses dev m rest
    | none => none

/-- The status words that teardown writes: TORN_DOWN to every launch that waits and every detached instance
that has not completed; COMPLETE to one that has. -/
def Ctx.lastWords (c : Ctx) : List (Word × Nat) :=
  c.launches.map (fun r => (r.status, launchStatus 3 0)) ++
    c.detached.map (fun d => (d.status, launchStatus (if d.st == .done then 2 else 3) (detachedHandle d.id)))

/-! ## THAW (R377, R431) -/

/-- Every frozen group, operation and COPY node goes on. -/
def Mach.thaw (m : Mach) : Mach :=
  let c := m.ctx
  let waits (x : Master) : Bool := m.faults.any (fun f => f.masters.contains x)
  let node (r : InstRef) (i : Nat) (st : NodeSt) : NodeSt := match st with
    | .copying u skips stop => .copying u skips (if waits (.copyNode r i) then stop else [])
    | st => st
  { m with ctx := { c with
    groups := c.groups.map (fun g => { g with frozen := none }),
    ops := c.ops.map (fun o => if o.st = .frozen then { o with st := .running } else o),
    graphs := c.graphs.map (fun g => { g with insts := g.insts.map (fun x =>
      { x with nodes := x.nodes.zipIdx.map (fun p => node (.graph g.gnum) p.2 p.1) }) }),
    detached := c.detached.map (fun d => { d with st := node (.detached d.id) d.node d.st }) } }

/-- CTX_THAW: accepted in RUNNING, and ends at once. -/
def execCtxThaw (s : State) : Host.Outcome State Fault Refusal :=
  if s.dev.ctxst == .running then .next { dev := endCommand s.mach.cyc s.dev .running, mach := s.mach.thaw }
  else .next (refuseCommand s)

/-! ## The ends of commands -/

/-- A fresh context (R384): zeroed core stores, accumulator stores and reserved regions, no graphs, and the
default frame area that the host has set (R24). -/
def Mach.loadFresh (dev : Device) (m : Mach) : Mach :=
  { m with mem := { m.mem with core := .empty }, tiles := [],
           ctx := { Ctx.empty with dfbase := dev.dfbase, dfsize := dev.dfsize } }

/-- A saved context comes back to its cores (R375). -/
def Mach.restore (m : Mach) (x : Saved) : Mach :=
  { m with mem := { m.mem with core := x.core }, tiles := x.tiles, own := x.own, ctx := x.ctx }

/-- CTX_COMMAND_END: a LOAD ends in RUNNING; a SAVE once every operation has completed or stopped, and a
TEARDOWN once every request has been answered, in EMPTY. -/
def execCtxCommandEnd (s : State) : Host.Outcome State Fault Refusal :=
  let m := s.mach
  match s.dev.ctxst with
  | .loading =>
    if s.dev.fresh then .next { dev := endCommand m.cyc s.dev .running, mach := m.loadFresh s.dev }
    else match m.saves.find? (fun x => x.addr == s.dev.save) with
      | some x =>
        .next { dev := endCommand m.cyc { s.dev with dfbase := x.ctx.dfbase, dfsize := x.ctx.dfsize } .running,
                mach := m.restore x }
      | none => .next { dev := endCommand m.cyc s.dev .running, mach := m.loadFresh s.dev }
  | .saving =>
    (match if m.net.isEmpty && m.ctx.ops.all Op.savable then m.save s.dev else none with
     | some m => .next { dev := endCommand m.cyc s.dev .empty, mach := m }
     | none => .next s)
  | .tearing =>
    if m.net.isEmpty then
      (match writeStatuses s.dev m m.ctx.lastWords with
       | none => .next { s with mach := m.ctx.lastWords.foldl (fun m x => m.askWrite s.dev x.1.toNat) m }
       | some m =>
         let quiet (u : CellarUnit) : CellarUnit := { u with chans := u.chans.map (fun c => { c with attn := 0 }) }
         .next { dev := endCommand m.cyc s.dev .empty, mach := { m.vacate with cellars := m.cellars.map quiet } })
    else .next s
  | _ => .next s

end Sys2Proof.Machine
end

