-- ==== Sys2Proof/Machine/HostEv.lean ====
section
/-!
DEFINITION. What the host is told and answers: report queues, answers to fault records, TLB invalidations (R213 to
R215, R282, R376 to R378, R386, R387, R431).
-/
namespace Sys2Proof.Machine

/-! ## Report queues (R386) -/

/-- A fault record (R215). -/
def FaultRec.words (f : FaultRec) : Nat × Nat :=
  (f.vpage * pow2 16 + kindCode f.kind * pow2 12 + f.cause * pow2 8 + f.lvl,
   f.gridh.toNat * pow2 32 + (if f.dist then pow2 14 else 0) + (if f.eng then pow2 13 else 0) + f.gslot * pow2 8 + f.loc)

/-- A freeze record (R378). -/
def FreezeRec.words (f : FreezeRec) : Nat × Nat :=
  (f.why * pow2 56 + f.cause * pow2 48 + f.off % pow2 32,
   f.gridh.toNat * pow2 32 + (if f.dist then pow2 14 else 0) + (if f.eng then pow2 13 else 0) + f.gslot * pow2 8 + f.loc)

/-- A cellar log entry (R282). -/
def LogEntry.words (e : LogEntry) : Nat × Nat :=
  (e.evt * pow2 56 + e.stk * pow2 53 + e.ch * pow2 48 + e.bnk * pow2 43 + e.row * pow2 28 + e.col * pow2 17, e.cyc.toNat)

/-- Is a queue full: unset, or as many entries as it holds wait for the host? -/
def Queue.full (q : Queue) : Bool := q.size == 0 || q.prod - q.cons == q.size

/-- Write an entry at a queue's producer index, then the index rises and EVT shows it; an entry whose place has to wait in its
cellar is not written yet, and `s` stays (R274, R283). -/
def putEntry (s : State) (n : Nat) (q : Queue) (ws : Nat × Nat) (f : Mach → Mach) : State :=
  let l : Loc := { space := .hbm, addr := q.base.toNat * 4096 + 16 * (q.prod.toNat % q.size.toNat) }
  match (f s.mach).homeWrite s.dev l ((natLe 8 ws.1 ++ natLe 8 ws.2).zipIdx.map (fun b => (b.2, b.1))) with
  | none => s
  | some m => { dev := { s.dev with queues := vset s.dev.queues n { q with prod := q.prod + 1 } }.event m.cyc (2 + n), mach := m }

/-- Number the first fault record that has not been written. -/
def numberFault (i : BitVec 32) : List FaultRec → List FaultRec
  | [] => []
  | f :: r => if f.idx.isNone then { f with idx := some i } :: r else f :: numberFault i r

/-- REPORT_QUEUE_WRITE: fault and freeze records wait while their queue is full, log entries are dropped and
counted. -/
def execReportQueueWrite (queue : Nat) (s : State) : Host.Outcome State Fault Refusal :=
  let q := vget s.dev.queues queue Queue.reset
  let m := s.mach
  match queue with
  | 0 =>
    (match m.faults.find? (fun f => f.idx.isNone) with
     | some f =>
       if q.full then .next s
       else .next (putEntry s 0 q f.words (fun m => { m with faults := numberFault q.prod m.faults }))
     | none => .next s)
  | 1 =>
    (match m.freezes with
     | f :: r => if q.full then .next s else .next (putEntry s 1 q f.words (fun m => { m with freezes := r }))
     | [] => .next s)
  | 2 =>
    (match m.logs with
     | e :: r =>
       if q.full then
         .next { dev := { s.dev with queues := vset s.dev.queues 2 { q with drops := q.drops + 1 } }, mach := { m with logs := r } }
       else .next (putEntry s 2 q e.words (fun m => { m with logs := r }))
     | [] => .next s)
  | _ => .next s

/-- QUEUE_CONSUME: the host writes QCONS. -/
def execQueueConsume (queue : Nat) (v : Word) (s : State) : Host.Outcome State Fault Refusal :=
  .next { s with dev := { s.dev with queues := vmod s.dev.queues queue (fun q => { q with cons := v.setWidth 32 }) } }

/-! ## Answers to fault records (R214, R431) -/

/-- The three answers. -/
inductive FaultAnswer where
  | replay
  | abort
  | freeze
  deriving DecidableEq, Repr

/-- An answer for a stalled group. FREEZE freezes the group that made the record, also when a trap has ended its stall
(R376). -/
def Mach.answerGroup (m : Mach) (f : FaultRec) (a : FaultAnswer) (gid : Nat) : Mach :=
  match m.group? gid with
  | none => m
  | some g =>
    match a, g.faultWait with
    | .replay, .waiting _ _ => m.modGroup gid (fun g => { g with faultWait := .none })
    | .abort, .waiting _ _ => m.modGroup gid (fun g => { g with faultWait := .aborted f.vpage f.kind })
    | .freeze, _ =>
      if g.retired then m else (m.modGroup gid (fun g => { g with faultWait := .none })).freezeGroup gid 1 0 g.faultAt
    | _, _ => m

/-- The lanes that an operation's fault traps: all that issued it, or the failing lane of a scatter (R348, R360). -/
def Op.faultMask (o : Op) : Mask :=
  match o.instr with
  | .atom w => if mBit w.mod 4 then Mask.one (o.mask.lanes.getD o.pix 0) else o.mask
  | .red w => if mBit w.mod 4 then Mask.one (o.mask.lanes.getD o.pix 0) else o.mask
  | .cas w => if mBit w.mod 4 then Mask.one (o.mask.lanes.getD o.pix 0) else o.mask
  | _ => o.mask

/-- An answer for a stopped operation. -/
def Mach.answerOp (m : Mach) (f : FaultRec) (a : FaultAnswer) (id : Nat) : Mach :=
  match m.op? id with
  | none => m
  | some o =>
    match o.st with
    | .faulted va k =>
      if va / 65536 % pow2 40 != f.vpage || k != f.kind then m
      else match a with
        | .replay => m.modOp id (fun o => { o with st := .running })
        | .abort => m.stopOp o causeTranslation o.faultMask va
        | .freeze =>
          (m.modOp id (fun o => { o with st := .frozen })).pushFreeze
            { why := 1, cause := 0, off := o.off, gridh := o.grid, dist := false, eng := true, gslot := o.slot,
              loc := o.core % 64 + 64 * (o.quarter % 4) }
    | _ => m

/-- An answer for a stopped COPY node: ABORT skips the failing page, or for poison the failing line. -/
def Mach.answerCopy (m : Mach) (f : FaultRec) (a : FaultAnswer) (r : InstRef) (i : Nat) : Mach :=
  match m.ctx.placed? r i with
  | none => m
  | some p =>
    match p.node, p.st with
    | .copy _ _ _, .copying u skips (x :: xs) =>
      (match a with
       | .replay => m.setNode r i (.copying u skips [])
       | .abort => m.setNode r i (.copying u (skips ++ x :: xs) [])
       | .freeze =>
         m.pushFreeze { why := 1, cause := 0, off := 0, gridh := f.gridh, dist := true, eng := false, gslot := 0, loc := 0 })
    | _, _ => m

/-- A FANS write: an index that names no unanswered record is discarded (R386). -/
def answerFault (a : FaultAnswer) (idx : BitVec 32) (s : State) : Host.Outcome State Fault Refusal :=
  match s.mach.faults.find? (fun f => f.idx == some idx) with
  | none => .next s
  | some f =>
    let m := { s.mach with faults := s.mach.faults.filter (fun g => g.idx != some idx) }
    .next { s with mach := f.masters.foldl (fun m x => match x with
      | .group gid => m.answerGroup f a gid
      | .op id => m.answerOp f a id
      | .copyNode r i => m.answerCopy f a r i) m }

/-- FAULT_REPLAY. -/
def execFaultReplay (idx : BitVec 32) (s : State) : Host.Outcome State Fault Refusal := answerFault .replay idx s

/-- FAULT_ABORT. -/
def execFaultAbort (idx : BitVec 32) (s : State) : Host.Outcome State Fault Refusal := answerFault .abort idx s

/-- FAULT_FREEZE. -/
def execFaultFreeze (idx : BitVec 32) (s : State) : Host.Outcome State Fault Refusal := answerFault .freeze idx s

/-! ## TLB invalidation (R213, R387) -/

/-- A TLBI write that asks for something: one is in progress and up to 8 wait; a further one sets LOST. -/
def queueTlbi (v : Word) (s : State) : State :=
  if s.dev.tlbiQueue.length < 9 then
    { s with dev := { s.dev with tlbiQueue := s.dev.tlbiQueue ++ [v], tlbiBusy := true } }
  else { s with dev := { s.dev with tlbiLost := true } }

/-- TLBI_ALL: a TLBI write with ALL = 1. -/
def execTlbiAll (v : Word) (s : State) : Host.Outcome State Fault Refusal :=
  .next (if v.getLsbD 63 then queueTlbi v s else s)

/-- TLBI_RANGE: a TLBI write with ALL = 0; no pages, no invalidation. -/
def execTlbiRange (v : Word) (s : State) : Host.Outcome State Fault Refusal :=
  .next (if v.getLsbD 63 || bitsAt v 0 16 = 0 then s else queueTlbi v s)

/-- Does a TLBI write name some byte from `lo` to below `hi`? -/
def tlbiHits (v : Word) (lo hi : Nat) : Bool :=
  let first := bitsAt v 16 40 * 65536
  v.getLsbD 63 || (lo < first + bitsAt v 0 16 * 65536 && first < hi)

/-- TLB_INVALIDATION_DONE: once every access translated by an old entry has been performed, the leaves go. -/
def execTlbInvalidationDone (s : State) : Host.Outcome State Fault Refusal :=
  match s.dev.tlbiQueue with
  | [] => .next s
  | v :: rest =>
    if s.mach.net.any (fun p => !p.performed && tlbiHits v p.va.toNat (p.va.toNat + p.len)) then .next s
    else
      .next { dev := { s.dev with tlbiQueue := rest, tlbiBusy := !rest.isEmpty }.event s.mach.cyc 8,
              mach := { s.mach with tlb := s.mach.tlb.filter (fun t => !tlbiHits v t.vbase (t.vbase + t.size)) } }

end Sys2Proof.Machine
end

