-- ==== Sys2Proof/Machine/TierEv.lean ====
section
/-!
DEFINITION. The ports of the capacity tier: their control register, hints, fills, write-backs and quarantine (R280,
R388 to R390).
-/
namespace Sys2Proof.Machine

/-! ## Moving a page -/

/-- Ranges with the addresses from `lo` to below `hi` taken out. -/
def freshErase (rs : List (Nat × Nat × Nat)) (lo hi : Nat) : List (Nat × Nat × Nat) :=
  rs.flatMap (fun r =>
    (if r.1 < min r.2.1 lo then [(r.1, min r.2.1 lo, r.2.2)] else []) ++
    (if max r.1 hi < r.2.1 then [(max r.1 hi, r.2.1, r.2.2)] else []))

/-- The cells of `n` bytes from `a`, as they stand from `b` on. -/
def cellsMoved (cs : List Host.Cell) (a b n : Nat) : List Host.Cell :=
  (cs.filter (fun c => a ≤ c.1 && c.1 < a + n)).map (fun c => (c.1 - a + b, c.2))

/-- Copy `n` bytes of one store, from `a`, into another, to `b`; lines keep their poison. Addresses and size are
multiples of 64. -/
def Store.copyTo (src dst : Store) (a b n : Nat) : Store :=
  let poison := (src.poison.filter (fun l => a ≤ 64 * l && 64 * l < a + n)).map (fun l => l - a / 64 + b / 64)
  let base : Store :=
    { cells := dst.cells.filter (fun c => c.1 < b) ++ cellsMoved src.cells a b n ++
        dst.cells.filter (fun c => b + n ≤ c.1),
      poison := dst.poison.filter (fun l => 64 * l < b) ++ poison ++ dst.poison.filter (fun l => b + n ≤ 64 * l),
      fresh := freshErase dst.fresh b (b + n) }
  let loose := (src.fresh.flatMap (fun r => (List.range (min r.2.1 (a + n) - max r.1 a)).map (max r.1 a + ·)))
  loose.foldl (fun s x => s.set (x - a + b) (src.get x)) base

/-- The tier address of a port's page. -/
def tierAddr (port page : Nat) : Nat := port * tierSpan + page * 65536

/-- The place of a staging frame. -/
def framePlace (dev : Device) (port frame : Nat) : Loc := { space := .hbm, addr := frameAddr dev port frame }

/-- Must a port's access to a whole frame wait in its cellar (R274, R283)? -/
def Mach.frameHeld (dev : Device) (m : Mach) (port frame : Nat) : Bool := m.placeHeld dev (framePlace dev port frame) 65536

/-- A staged frame's bytes, read in its cellar, go back to the expander. -/
def Mach.writeBack (dev : Device) (m : Mach) (port : Nat) (f : TierFrame) : Mach :=
  let m := m.touchCellar dev (framePlace dev port f.frame) 65536 true
  let tier := m.mem.hbm.copyTo m.mem.tier (frameAddr dev port f.frame) (tierAddr port f.page) 65536
  { m with mem := { m.mem with tier := tier } }

/-- A port's unit changes. -/
def Mach.modTier (m : Mach) (port : Nat) (f : TierUnit → TierUnit) : Mach := { m with tiers := vmod m.tiers port f }

/-- A port's unit. -/
def Mach.tierUnit (m : Mach) (port : Nat) : TierUnit := vget m.tiers port TierUnit.empty

/-- A port's registers. -/
def Device.tierRegs (dev : Device) (port : Nat) : TierRegs := vget dev.tiers port TierRegs.reset

/-- A port's registers change. -/
def Device.modTier (dev : Device) (port : Nat) (f : TierRegs → TierRegs) : Device :=
  { dev with tiers := vmod dev.tiers port f }

/-! ## TPCTL (R388) -/

/-- The dirty frames of a port. -/
def TierUnit.dirtyFrames (u : TierUnit) : List TierFrame := u.frames.filter (fun f => f.dirty)

/-- A port is DOWN: its staging map is emptied, and EVT bit 6 is set. -/
def tierFinish (s : State) (port : Nat) : State :=
  { dev := (s.dev.modTier port (fun r => { r with st := .down })).event s.mach.cyc 6,
    mach := s.mach.modTier port (fun u => { u with frames := [], fills := [], hints := [], closing := none }) }

/-- A port goes DOWN: hints and fills stop; an UP port writes its dirty frames back first, and waits for an expander that does
not answer or a frame's cellar that does not serve; a quarantined one loses them. -/
def tierDown (s : State) (port : Nat) : State :=
  let dirty := (s.mach.tierUnit port).dirtyFrames
  let up := (s.dev.tierRegs port).st == .up
  if up && !dirty.isEmpty && (!Config.expanderAnswers port s.mach.cyc.toNat ||
      dirty.any (fun f => s.mach.frameHeld s.dev port f.frame)) then
    { s with mach := s.mach.modTier port (fun u => { u with
        fills := [], hints := [], closing := some (u.closing.getD s.mach.cyc.toNat) }) }
  else
    tierFinish { s with mach := if up then dirty.foldl (fun m f => m.writeBack s.dev port f) s.mach else s.mach } port

/-- A write-back of a port that goes DOWN is answered; one that the expander has not answered by the time-out is abandoned, as
are all that are unanswered then. After the last one the port is DOWN (R388). -/
def tierClose (s : State) (port since frame : Nat) : State :=
  let now := s.mach.cyc.toNat
  if since + 1024 * (s.dev.tierRegs port).tto.toNat ≤ now then tierFinish s port
  else if !Config.expanderAnswers port now || s.mach.frameHeld s.dev port frame then s
  else
    match (s.mach.tierUnit port).dirtyFrames.find? (fun f => f.frame == frame) with
    | none => s
    | some f =>
      let m := (s.mach.writeBack s.dev port f).modTier port (fun u => { u with
        frames := u.frames.map (fun x => if x.frame == frame then { x with dirty := false } else x) })
      if (m.tierUnit port).dirtyFrames.isEmpty then tierFinish { s with mach := m } port else { s with mach := m }

/-- A write of TPCTL: TTO = 0 discards it; CLRQ returns a quarantined port whose link is up to UP; EN enables the
port, which trains from DOWN, or with 0 takes it DOWN. -/
def writeTpctl (port : Nat) (v : Word) (s : State) : State :=
  let r := s.dev.tierRegs port
  if 2 ≤ port || bitsAt v 32 16 = 0 then s
  else
    let back := v.getLsbD 1 && r.st == .quarantined && Config.linkUp port s.mach.cyc.toNat
    let s : State := { s with dev := s.dev.modTier port (fun r => { r with
      tto := BitVec.ofNat 16 (bitsAt v 32 16), en := v.getLsbD 0, st := if back then .up else r.st }) }
    if r.en && !v.getLsbD 0 then tierDown s port else s

/-- TIER_PORT_ENABLE: a TPCTL write with EN = 1. -/
def execTierPortEnable (port : Nat) (v : Word) (s : State) : Host.Outcome State Fault Refusal :=
  .next (if v.getLsbD 0 then writeTpctl port v s else s)

/-- TIER_PORT_DISABLE: a TPCTL write with EN = 0. -/
def execTierPortDisable (port : Nat) (v : Word) (s : State) : Host.Outcome State Fault Refusal :=
  .next (if v.getLsbD 0 then s else writeTpctl port v s)

/-- TIER_CLEAR_QUARANTINE: a TPCTL write with CLRQ = 1. -/
def execTierClearQuarantine (port : Nat) (v : Word) (s : State) : Host.Outcome State Fault Refusal :=
  .next (if v.getLsbD 1 then writeTpctl port v s else s)

/-- TIER_LINK_UP: training of an enabled port ends; CAP is read again, at most 2 TiB. -/
def execTierLinkUp (port : Nat) (cap : BitVec 32) (s : State) : Host.Outcome State Fault Refusal :=
  let r := s.dev.tierRegs port
  if r.en && r.st == .down then
    .next { s with dev := s.dev.modTier port (fun r => { r with
      st := .up, cap := BitVec.ofNat 32 (min cap.toNat 33554432) }) }
  else .next s

/-! ## Hints, fills, write-backs (R389) -/

/-- TIER_HINT: the port takes a hint: it starts a fill, unless the page is staged or being filled. -/
def execTierHint (port page : Nat) (s : State) : Host.Outcome State Fault Refusal :=
  let r := s.dev.tierRegs port
  let u := s.mach.tierUnit port
  if !u.hints.contains page then .next s
  else
    let fill := r.st == .up && u.closing.isNone && r.tsn != 0 && page < r.cap.toNat && u.frames.all (fun f => f.page != page) &&
      u.fills.all (fun f => f.page != page)
    .next { s with mach := s.mach.modTier port (fun u => { u with
      hints := u.hints.erase page,
      fills := if fill then u.fills ++ [{ page := page, waitFrame := none, since := s.mach.cyc.toNat }] else u.fills }) }

/-- A page is copied into a frame and installed; the frame is tier-backed, the oldest mark making room (R280). -/
def Mach.installPage (dev : Device) (m : Mach) (port page frame : Nat) : Mach :=
  let at0 := frameAddr dev port frame
  let marks := m.backed.filter (fun b => b.1 != at0 / 65536)
  let m := m.touchCellar dev (framePlace dev port frame) 65536 false
  let hbm := m.mem.tier.copyTo m.mem.hbm (tierAddr port page) at0 65536
  let m : Mach := { m with
    mem := { m.mem with hbm := hbm },
    backed := marks.drop (marks.length - 65535) ++ [(at0 / 65536, tierAddr port page / 65536)] }
  m.modTier port (fun u => { u with
    frames := u.frames.filter (fun f => f.frame != frame) ++
      [{ page := page, frame := frame, dirty := false, used := m.cyc.toNat }],
    fills := u.fills.filter (fun f => f.page != page) })

/-- The frame staged or used least recently that no fill waits for. -/
def TierUnit.leastUsed (u : TierUnit) : Option TierFrame :=
  (u.frames.filter (fun f => u.fills.all (fun x => x.waitFrame != some f.frame))).foldl (fun a f => match a with
    | none => some f
    | some b => if f.used < b.used then some f else some b) none

/-- TIER_FILL_DATA: a fill's data have arrived: it takes a free frame, or the least recently used one, which when
dirty is first written back, by a request that an answer from the next cycle on may meet. -/
def execTierFillData (port page : Nat) (s : State) : Host.Outcome State Fault Refusal :=
  let r := s.dev.tierRegs port
  let m := s.mach
  let u := m.tierUnit port
  if r.st != .up || !Config.expanderAnswers port m.cyc.toNat ||
      !u.fills.any (fun f => f.page == page && f.waitFrame.isNone) then .next s
  else
    match (List.range r.tsn.toNat).find? (fun n => u.frames.all (fun f => f.frame != n)) with
    | some n => .next { s with mach := if m.frameHeld s.dev port n then m else m.installPage s.dev port page n }
    | none =>
      match u.leastUsed with
      | none => .next s
      | some f =>
        if f.dirty then
          .next { s with mach := m.modTier port (fun u => { u with fills := u.fills.map (fun x =>
            if x.page == page then { x with waitFrame := some f.frame, since := m.cyc.toNat + 1 } else x) }) }
        else .next { s with mach := if m.frameHeld s.dev port f.frame then m else m.installPage s.dev port page f.frame }

/-- TIER_WRITEBACK_REPLY: the dirty frame is on the expander, and the waiting fill takes it; of a port that goes DOWN, see
`tierClose`. -/
def execTierWritebackReply (port frame : Nat) (s : State) : Host.Outcome State Fault Refusal :=
  let m := s.mach
  let u := m.tierUnit port
  match u.closing with
  | some since => .next (tierClose s port since frame)
  | none =>
    match u.fills.find? (fun f => f.waitFrame == some frame), u.frames.find? (fun f => f.frame == frame) with
    | some x, some f =>
      if (s.dev.tierRegs port).st == .up && Config.expanderAnswers port m.cyc.toNat && !m.frameHeld s.dev port frame then
        .next { s with mach := (m.writeBack s.dev port f).installPage s.dev port x.page frame }
      else .next s
    | _, _ => .next s

/-! ## Quarantine (R390) -/

/-- The registers as they would be with a port quarantined. -/
def Device.quarantined (dev : Device) (port : Nat) : Device := dev.modTier port (fun r => { r with st := .quarantined })

/-- Has a request to a port's expander stayed unanswered for the time-out: a packet since it arrived, a fill, or a request
of an agent that sends no packet? -/
def Mach.tierTimedOut (dev : Device) (m : Mach) (port : Nat) : Bool :=
  let now := m.cyc.toNat
  let u := m.tierUnit port
  let old (since : Nat) : Bool := since + (dev.tierRegs port).tto.toNat * 1024 ≤ now && silentSince port since now
  let misses (l : Loc) : Bool :=
    l.space == .tier && l.addr / tierSpan == port && u.frames.all (fun f => f.page != l.addr % tierSpan / 65536)
  m.net.any (fun p => !p.performed && misses p.loc && old p.arrive) || u.fills.any (fun f => old f.since) || u.asked.any old

/-- TIER_QUARANTINE: in one step the status word is written, fills and hints end, every request that misses the staging map
is answered TIER_ABSENT from now on, and EVT bit 6 is set; a port that was going DOWN has lost its write-backs (R388).
While the word's home does not serve the write, the step waits. -/
def execTierQuarantine (port : Nat) (s : State) : Host.Outcome State Fault Refusal :=
  let r := s.dev.tierRegs port
  if 2 ≤ port || r.st != .up || !s.mach.tierTimedOut s.dev port then .next s
  else
    let m := s.mach.modTier port (fun u => { u with fills := [], hints := [], quarantines := u.quarantines + 1, asked := none })
    let dev := (s.dev.quarantined port).event m.cyc 6
    let word := 2 * pow2 56 + (m.tierUnit port).quarantines.toNat
    match (if r.tpsw = 0 then some m else distWrite dev m r.tpsw.toNat 8 word) with
    | none => .next { s with mach := s.mach.askWrite dev r.tpsw.toNat }
    | some m =>
      let t : State := { dev := dev, mach := m }
      .next (if (m.tierUnit port).closing.isSome then tierFinish t port else t)

end Sys2Proof.Machine
end

