-- ==== Sys2Proof/Machine/NycelEv.lean ====
section
/-!
DEFINITION. Nycel ports: training, flits, requests of peers, a port that leaves service or is frozen (R376 to R378,
R391, R392).
-/
namespace Sys2Proof.Machine

/-- A port's registers. -/
def Device.nycelRegs (dev : Device) (port : Nat) : NycelRegs := vget dev.nycels port NycelRegs.reset

/-- A port's registers change. -/
def Device.modNycel (dev : Device) (port : Nat) (f : NycelRegs → NycelRegs) : Device :=
  { dev with nycels := vmod dev.nycels port f }

/-- A port's unit changes. -/
def Mach.modNycel (m : Mach) (port : Nat) (f : NycelUnit → NycelUnit) : Mach := { m with nycels := vmod m.nycels port f }

/-- A port's unit. -/
def Mach.nycelUnit (m : Mach) (port : Nat) : NycelUnit := vget m.nycels port NycelUnit.reset

/-- Code of a state. -/
def nycelCode : NycelSt → Nat
  | .down => 0
  | .training => 1
  | .up => 2
  | .frozen => 3

/-! ## Leaving service (R392) -/

/-- Has a request been sent over a port that has not been answered? -/
def onPort (port : Nat) (p : Pkt) : Bool := !p.performed && p.port == some port

/-- A request completed as TIER_ABSENT completes it: a returning one with all ones. -/
def absentReply (p : Pkt) : Pkt := { p with performed := true, data := List.replicate p.len 255, poison := [] }

/-- A port that has left service writes its status word, which holds its state and the count, and the requests that it has
left complete, so that none is answered before the word can be read (R392); while the word's home does not answer, it stays
due. -/
def nycelWord (s : State) (port : Nat) : State :=
  let r := s.dev.nycelRegs port
  let word := nycelCode r.st * pow2 56 + (s.mach.nycelUnit port).completed.toNat
  match (if r.npsw = 0 then some s.mach else distWrite s.dev s.mach r.npsw.toNat 8 word) with
  | some m =>
    let m : Mach := { m with net := m.net.map (fun p => if onPort port p then absentReply p else p) }
    { s with mach := m.modNycel port (fun u => { u with wordDue := false }) }
  | none => { s with mach := s.mach.askWrite s.dev r.npsw.toNat }

/-- An UP port leaves service for a state: EVT bit 7 is set, its status word is written, its unanswered requests complete. -/
def leaveService (s : State) (port : Nat) (st : NycelSt) : State :=
  let gone := s.mach.net.filter (onPort port)
  let m := s.mach.modNycel port (fun u => { u with
    completed := u.completed + BitVec.ofNat 32 gone.length, wordDue := true })
  nycelWord { dev := (s.dev.modNycel port (fun r => { r with st := st })).event m.cyc 7, mach := m } port

/-- NYCEL_PORT_LEAVE: the link of an UP port fails, or its far end is frozen; of a port that has left with its status word
still due, the word is written. -/
def execNycelPortLeave (port : Nat) (s : State) : Host.Outcome State Fault Refusal :=
  if (s.dev.nycelRegs port).st == .up then .next (leaveService s port .down)
  else if (s.mach.nycelUnit port).wordDue then .next (nycelWord s port)
  else .next s

/-! ## NPCTL, training, flits (R391) -/

/-- A write of NPCTL: THAW returns a frozen port, whose status word has been written (DEDUCED, log 25), to UP; EN starts
training of a DOWN port; without EN the port goes DOWN, and an UP one leaves service. -/
def writeNpctl (port : Nat) (v : Word) (s : State) : State :=
  if 16 ≤ port then s
  else
    let due := (s.mach.nycelUnit port).wordDue
    let thaw (r : NycelRegs) : NycelRegs := if v.getLsbD 1 && r.st == .frozen && !due then { r with st := .up } else r
    let s1 : State := { s with dev := s.dev.modNycel port (fun r => { thaw r with en := v.getLsbD 0 }) }
    let st := (s1.dev.nycelRegs port).st
    if v.getLsbD 0 then
      (if st == .down then { s1 with dev := s1.dev.modNycel port (fun r => { r with st := .training }) } else s1)
    else if st == .up then leaveService s1 port .down
    else { s1 with dev := s1.dev.modNycel port (fun r => { r with st := .down }) }

/-- NYCEL_PORT_ENABLE: a write of NPCTL with EN = 1 or, to disable the port, EN = 0. -/
def execNycelPortEnable (port : Nat) (v : Word) (s : State) : Host.Outcome State Fault Refusal :=
  .next (writeNpctl port v s)

/-- NYCEL_PORT_THAW: a write of NPCTL with THAW = 1. -/
def execNycelPortThaw (port : Nat) (v : Word) (s : State) : Host.Outcome State Fault Refusal :=
  .next (if v.getLsbD 1 then writeNpctl port v s else s)

/-- NYCEL_LINK_UP: training of an enabled port ends, and PEER holds the far device's number; a port whose far end
was frozen comes back the same way. A port whose status word is due writes it first. -/
def execNycelLinkUp (port : Nat) (peer : BitVec 12) (s : State) : Host.Outcome State Fault Refusal :=
  let r := s.dev.nycelRegs port
  if r.en && (r.st == .training || r.st == .down) && !(s.mach.nycelUnit port).wordDue then
    .next { s with dev := s.dev.modNycel port (fun r => { r with st := .up, peer := peer }) }
  else .next s

/-- NYCEL_FLIT: an UP port takes a flit whose CRC holds, and asks again for another. -/
def execNycelFlit (port : Nat) (flit : Flit) (s : State) : Host.Outcome State Fault Refusal :=
  if (s.dev.nycelRegs port).st == .up then
    .next { s with mach := s.mach.modNycel port (fun u =>
      if flit.crcOk then { u with taken := u.taken + 1 } else { u with replays := u.replays + 1 }) }
  else .next s

/-! ## Requests of peers (R212, R376, R392) -/

/-- A port is frozen and reported. -/
def freezePort (s : State) (port : Nat) : State :=
  let s := leaveService s port .frozen
  let r : FreezeRec := { why := 6, cause := 0, off := 0, gridh := 0, dist := false, eng := false, gslot := 0, loc := port }
  { s with mach := s.mach.pushFreeze r }

/-- Bytes of a peer's request, and what it is to a walk. -/
def peerSize : PeerOp → Nat × AccessKind
  | .read n => (n, .laneRead)
  | .write bs => (bs.length, .laneWrite)
  | .atomic _ width _ _ _ => (width, .laneAtomic)

/-- The places of a peer's request here, when every piece translates to memory of this device. -/
def peerPlaces (s : State) (req : PeerReq) : Option (List (Loc × Nat)) :=
  match unitPlaces s.dev s.mach (peerSize req.op).2 (pagePieces req.va.toNat (peerSize req.op).1) with
  | .ok ls => if ls.any (fun p => match p.1.space with
      | .peer _ => true
      | _ => false) then none else some ls
  | .error _ => none

/-- A peer's request is performed at its homes; none while a line of it is owned or a home does not serve it. -/
def peerPerform (dev : Device) (m : Mach) (ls : List (Loc × Nat)) (op : PeerOp) : Option Mach :=
  if ls.any (fun p => (linesOf p.1 p.2).any (fun ln => (m.ownerOf ln).isSome)) then none
  else match op with
    | .read _ => (readPieces dev m ls).map (·.1)
    | .write bs => writePieces dev m ls bs
    | .atomic op width b c returns =>
      match ls with
      | [(l, _)] => (m.homeAtomic dev l op width b.toNat c.toNat returns).map (·.1)
      | _ => some m

/-- REPLY (R271): of a request that has been performed; a peer performs a request here as it answers, over the port that the
request was sent on (DEDUCED, log 25), and its packet freezes a port that does not admit it. A request for which no port was
UP is answered once no status word is due (R392). -/
def execReply (pkt : Nat) (s : State) : Host.Outcome State Fault Refusal :=
  match s.mach.pkt? pkt with
  | none => .next s
  | some p =>
    if p.performed then .next { s with mach := s.mach.reply p }
    else match p.loc.space with
      | .peer d =>
        if !s.mach.canPerform p then .next s
        else match p.port with
          | some port =>
            if (s.dev.nycelRegs port).st != .up then .next s
            else if !admitsPeer s.dev port d then .next (freezePort s port)
            else
              let (m, bs) := s.mach.peerBytes p.len
              .next { s with mach := m.reply { p with performed := true, data := bs } }
          | none =>
            if s.mach.nycels.toList.any (fun u => u.wordDue) then .next s
            else .next { s with mach := s.mach.reply (absentReply p) }
      | _ => .next s

/-- A peer's request at a port: it freezes the port when its pages do not all translate to memory of this device; else it is
performed at its home, or waits there behind those that wait already. -/
def peerArrives (port : Nat) (req : PeerReq) (s : State) : State :=
  if req.va.toNat < pow2 56 && (pagePieces req.va.toNat (peerSize req.op).1).any (fun x => s.mach.walkHeld s.dev x.1) then
    { s with mach := s.mach.modNycel port (fun u => { u with waiting := u.waiting ++ [req] }) }
  else match peerPlaces s req with
    | none => freezePort s port
    | some ls =>
      match (if (s.mach.nycelUnit port).waiting.isEmpty then peerPerform s.dev s.mach ls req.op else none) with
      | some m => { s with mach := m }
      | none => { s with mach := (ls.foldl (fun m p => m.askTier s.dev p.1) s.mach).modNycel port (fun u => { u with
          waiting := u.waiting ++ [req] }) }

/-- PEER_REQUEST: it freezes the port when its source is not admitted, when the context does not run, or when it
fails translation here; else it is performed at its home, which holds it while a line is owned or an expander does not answer
(R79, R390). -/
def execPeerRequest (port : Nat) (req : PeerReq) (s : State) : Host.Outcome State Fault Refusal :=
  if (s.dev.nycelRegs port).st != .up then .next s
  else if !admitsPeer s.dev port req.src.toNat then .next (freezePort s port)
  else .next (peerArrives port req s)

/-- The oldest of the requests of peers that wait at a port is performed; none while it still waits. -/
def servePeer (s : State) (port : Nat) : Option State :=
  match (s.mach.nycelUnit port).waiting with
  | [] => none
  | req :: rest =>
    let t := peerArrives port req { s with mach := s.mach.modNycel port (fun u => { u with waiting := [] }) }
    if (t.mach.nycelUnit port).waiting.isEmpty then
      some { t with mach := t.mach.modNycel port (fun u => { u with waiting := rest }) }
    else none

end Sys2Proof.Machine
end

