-- ==== Sys2Proof/Machine/Regs.lean ====
section
/-!
DEFINITION. The registers of BAR0 as the host writes and reads them, and accesses through BAR2 (R29, R31, R36, R273,
R382, R383, R385, R386, R388, R391).
-/
namespace Sys2Proof.Machine

/-! ## Writes (R273, R383, R386, R388, R391) -/

/-- Is a ray in a cellar: queued, held, parked, inside a staged copy, or spilled (R273, R287)? -/
def Mach.rayIn (m : Mach) (stack : Nat) : Bool := m.ctx.rays.any (fun r => r.inQueues stack || r.spilledAt stack)

/-- A cellar's registers change. -/
def Device.modCellar (dev : Device) (stack : Nat) (f : CellarRegs → CellarRegs) : Device :=
  { dev with cellars := vmod dev.cellars stack f }

/-- Bits from `lo` on, as a field of another width. -/
def field (v : Word) (lo n : Nat) : BitVec n := BitVec.ofNat n (bitsAt v lo n)

/-- A write to a cellar's register at an offset from its base: one that breaks a field's limits is discarded
whole. FNRM has a step of its own. -/
def writeCellar (stack off : Nat) (v : Word) (s : State) : State :=
  let set (f : CellarRegs → CellarRegs) : State := { s with dev := s.dev.modCellar stack f }
  let zero (lo n : Nat) : Bool := bitsAt v lo n == 0
  if off = 0 then
    (if zero 48 16 && zero 16 16 then set (fun r => { r with srt := field v 32 16, pdt := field v 0 16 }) else s)
  else if off = 8 then
    (if 256 ≤ v.toNat && v.toNat ≤ 16383 then set (fun r => { r with ath := field v 0 14 }) else s)
  else if off = 16 then (if zero 32 32 then set (fun r => { r with tage := field v 0 32 }) else s)
  else if off = 24 then
    (if zero 56 8 && !s.mach.rayIn stack then set (fun r => { r with spb := field v 16 40, spn := field v 0 16 }) else s)
  else if off = 32 then
    (let small := s.dev.cellars.toList.any (fun r => r.spn.toNat * 65536 < v.toNat * 256)
     if stack = 0 && 1 ≤ v.toNat && v.toNat ≤ 1048576 && (s.mach.ctx.rays.isEmpty || !small) then
       { s with dev := { s.dev with rmax := field v 0 21 } }
     else s)
  else if off = 40 then (if zero 56 8 && zero 0 12 then set (fun r => { r with scn := field v 12 44 }) else s)
  else if 256 ≤ off && off < 512 && zero 16 48 then
    set (fun r => { r with age := vset r.age ((off - 256) / 8) (field v 0 16) })
  else s

/-- A write to a tier port's register: TSB and TSN only while the port is DOWN. -/
def writeTier (port off : Nat) (v : Word) (s : State) : State :=
  if off = 0 then writeTpctl port v s
  else if off = 16 then
    { s with dev := s.dev.modTier port (fun r => { r with tpsw := BitVec.ofNat 64 (bitsAt v 3 53 * 8) }) }
  else if off = 24 && (s.dev.tierRegs port).st == .down then
    { s with dev := s.dev.modTier port (fun r => { r with tsb := field v 16 40, tsn := field v 0 16 }) }
  else s

/-- A write to a Nycel port's register. -/
def writeNycel (port off : Nat) (v : Word) (s : State) : State :=
  if off = 0 then writeNpctl port v s
  else if off = 16 then
    { s with dev := s.dev.modNycel port (fun r => { r with hi := field v 16 12, lo := field v 0 12 }) }
  else if off = 24 then
    { s with dev := s.dev.modNycel port (fun r => { r with npsw := BitVec.ofNat 64 (bitsAt v 3 53 * 8) }) }
  else s

/-- Is a number a power of two from 16 to 65,536 (R386)? -/
def queueSizeOk (n : Nat) : Bool := (List.range 13).any (fun k => n == pow2 (4 + k))

/-- A write to a report queue's register: QBASE, or the count of QSIZE; QPROD is read only. -/
def writeQueue (q off : Nat) (v : Word) (s : State) : State :=
  let set (f : Queue → Queue) : State := { s with dev := { s.dev with queues := vmod s.dev.queues q f } }
  if off = 0 then set (fun x => { x with base := field v 12 44 })
  else if off = 8 && queueSizeOk (bitsAt v 0 32) then set (fun x => { x with size := field v 0 32 })
  else s

/-- A route is set; one of no port is not listed. -/
def setRoute (rs : List (Nat × BitVec 16)) (d : Nat) (x : BitVec 16) : List (Nat × BitVec 16) :=
  let rest := rs.filter (fun r => r.1 != d)
  if x = 0 then rest else (d, x) :: rest

/-- A bit as a number. -/
def bit (b : Bool) : Nat := if b then 1 else 0

/-- A write to one of the registers below 0x80 or from 0x100 to 0x120. -/
def writeGlobal (off : Nat) (v : Word) (s : State) : State :=
  let d := s.dev
  let set (d : Device) : State := { s with dev := d }
  if off = 0x18 then
    -- an event of the same cycle leaves its bit set (R383)
    set { d with evt := d.evt &&& ~~~(BitVec.ofNat 9 ((List.range 9).foldl (fun a k =>
      a + bit (v.getLsbD k && vget d.evtAt k 0 != s.mach.cyc) * pow2 k) 0)) }
  else if off = 0x20 then set { d with msk := field v 0 9 }
  else if off = 0x30 then
    (if d.nycels.toList.all (fun r => r.st == .down) then set { d with devnum := field v 0 12 } else s)
  else if off = 0x38 then
    (if bitsAt v 62 2 = 3 then s else set { d with w2tgt := field v 62 2, w2base := field v 36 20 })
  else if off = 0x40 then
    (if bitsAt v 62 2 ≤ 1 && d.ctxst == .empty then set { d with rtgt := field v 62 2, root := field v 20 36 } else s)
  else if off = 0x48 then set { d with save := field v 16 40 }
  else if off = 0x50 then (if 1 ≤ bitsAt v 60 4 && bitsAt v 60 4 ≤ 4 then s else refuseCommand s)
  else if off = 0x118 then (if d.ctxst == .empty then set { d with dfbase := field v 16 40 } else s)
  else if off = 0x120 then (if d.ctxst == .empty then set { d with dfsize := field v 0 32 } else s)
  else s

/-- REGISTER_WRITE: one aligned 8-byte write; any other has no effect. An offset not listed discards it, and so do
the registers whose writes are steps of their own. -/
def execRegisterWrite (off size : Nat) (v : Word) (s : State) : Host.Outcome State Fault Refusal :=
  .next
    (if size != 8 || off % 8 != 0 then s
     else if 0x80 ≤ off && off < 0xE0 then writeQueue ((off - 0x80) / 0x20) (off % 0x20) v s
     else if off < 0x128 then writeGlobal off v s
     else if 0x3000 ≤ off && off < 0x3200 then writeTier ((off - 0x3000) / 0x100) (off % 0x100) v s
     else if 0x3400 ≤ off && off < 0x3800 then writeNycel ((off - 0x3400) / 0x40) (off % 0x40) v s
     else if 0x4000 ≤ off && off < 0xC000 then writeCellar ((off - 0x4000) / 0x1000) (off % 0x1000) v s
     else if 0x10000 ≤ off && off < 0x18000 then
       { s with dev := { s.dev with routes := setRoute s.dev.routes ((off - 0x10000) / 8) (field v 0 16) } }
     else s)

/-! ## Reads -/

/-- A word of fields: (value, lowest bit). -/
def packed (fs : List (Nat × Nat)) : Word := BitVec.ofNat 64 (fs.foldl (fun a f => a + f.1 * pow2 f.2) 0)

/-- Bits of 32 channels. -/
def chanBits (f : Nat → Bool) : Nat := (List.range 32).foldl (fun a c => a + bit (f c) * pow2 c) 0

/-- Codes of GUPS.STATE (R31). -/
def upCode : UpSt → Nat
  | .idle => 0
  | .pending => 1
  | .checking => 2
  | .done => 3
  | .refused => 4

/-- GUPS (R31). -/
def readGups (u : Upload) : Word :=
  packed [(u.gnum.toNat, 56), (upCode u.st, 52), (bit u.lost, 51), (u.reason.toNat, 40), (bit u.kind, 16), (u.index.toNat, 0)]

/-- A GSTAT word (R36). -/
def readGstat (c : Ctx) (gnum : BitVec 8) : Word :=
  match c.graph? gnum with
  | some g => packed [(g.icomp.toNat, 32), (g.insts.length, 16), (g.ltr.toNat, 8)]
  | none => 0

/-- Codes of DEVST.ST, CTXST.STATE, FWST and TPSTAT.STATE (R383, R388). -/
def devCode : DevSt → Nat
  | .reset => 0
  | .boot => 1
  | .ready => 2
  | .failed => 3

def ctxCode : CtxSt → Nat
  | .empty => 0
  | .running => 1
  | .loading => 2
  | .saving => 3
  | .tearing => 4

def fwCode : FwSt → Nat
  | .idle => 0
  | .busy => 1
  | .done => 2
  | .refused => 3

def tierCode : TierSt → Nat
  | .down => 0
  | .up => 1
  | .quarantined => 2

/-- A cellar's register (R273). -/
def readCellar (s : State) (stack off : Nat) : Word :=
  let r := vget s.dev.cellars stack CellarRegs.reset
  let mode (c : Nat) : Channel := s.mach.chan stack c
  if off = 0 then packed [(r.srt.toNat, 32), (r.pdt.toNat, 0)]
  else if off = 8 then packed [(r.ath.toNat, 0)]
  else if off = 16 then packed [(r.tage.toNat, 0)]
  else if off = 24 then packed [(r.spb.toNat, 16), (r.spn.toNat, 0)]
  else if off = 32 then (if stack = 0 then packed [(s.dev.rmax.toNat, 0)] else 0)
  else if off = 40 then packed [(r.scn.toNat, 12)]
  else if off = 48 then packed [(chanBits (fun c => (mode c).fnrm), 0)]
  else if off = 56 then
    packed [(chanBits (fun c => (mode c).mode == .compute || (mode c).mode == .toCompute), 0),
            (chanBits (fun c => (mode c).mode == .toNormal || (mode c).mode == .toCompute), 32)]
  else if off = 64 then (if stack = 0 then packed [(s.dev.gstep.toNat, 0)] else 0)
  else if 256 ≤ off && off < 512 then packed [((vget r.age ((off - 256) / 8) 64).toNat, 0)]
  else 0

/-- A tier port's register (R388). -/
def readTier (s : State) (port off : Nat) : Word :=
  let r := s.dev.tierRegs port
  if off = 0 then packed [(r.tto.toNat, 32), (bit r.en, 0)]
  else if off = 8 then packed [(r.cap.toNat, 8), (tierCode r.st, 0)]
  else if off = 16 then r.tpsw
  else if off = 24 then packed [(r.tsb.toNat, 16), (r.tsn.toNat, 0)]
  else 0

/-- A Nycel port's register (R391). -/
def readNycel (s : State) (port off : Nat) : Word :=
  let r := s.dev.nycelRegs port
  if off = 0 then packed [(bit r.en, 0)]
  else if off = 8 then packed [(r.peer.toNat, 16), (nycelCode r.st, 0)]
  else if off = 16 then packed [(r.hi.toNat, 16), (r.lo.toNat, 0)]
  else if off = 24 then r.npsw
  else 0

/-- A report queue's register (R386). -/
def readQueue (q : Queue) (off : Nat) : Word :=
  if off = 0 then packed [(q.base.toNat, 12)]
  else if off = 8 then packed [(q.drops.toNat, 32), (q.size.toNat, 0)]
  else if off = 16 then packed [(q.prod.toNat, 0)]
  else packed [(q.cons.toNat, 0)]

/-- One of the registers below 0x80 or from 0x100 to 0x120; TRIG, GUPL, CTXCMD and FANS are write only. -/
def readGlobal (d : Device) (off : Nat) : Word :=
  if off = 0x10 then readGups d.upload
  else if off = 0x18 then packed [(d.ngn.toNat, 56), (d.sfl.toNat, 48), (d.evt.toNat, 0)]
  else if off = 0x20 then packed [(d.msk.toNat, 0)]
  else if off = 0x28 then packed [(devCode d.st, 60), (d.berr.toNat, 0)]
  else if off = 0x30 then packed [(d.devnum.toNat, 0)]
  else if off = 0x38 then packed [(d.w2tgt.toNat, 62), (d.w2base.toNat, 36)]
  else if off = 0x40 then packed [(d.rtgt.toNat, 62), (d.root.toNat, 20)]
  else if off = 0x48 then packed [(d.save.toNat, 16)]
  else if off = 0x58 then packed [(ctxCode d.ctxst, 60), (d.last.toNat, 56), (bit d.drop, 0)]
  else if off = 0x60 then packed [(bit d.tlbiLost, 1), (bit d.tlbiBusy, 0)]
  else if off = 0x70 then packed [(d.pwr.toNat, 0)]
  else if off = 0x78 then packed [(bit d.alert, 16), (d.temp.toNat, 0)]
  else if off = 0x100 then packed [(d.atreq.toNat, 12)]
  else if off = 0x108 then packed [(fwCode d.fwst, 60)]
  else if off = 0x110 then packed [(d.fwup.toNat, 12)]
  else if off = 0x118 then packed [(d.dfbase.toNat, 16)]
  else if off = 0x120 then packed [(d.dfsize.toNat, 0)]
  else 0

/-- ROUTE of a device number. -/
def routeOf (d : Device) (n : Nat) : BitVec 16 := ((d.routes.find? (fun r => r.1 == n)).map (fun r => r.2)).getD 0

/-- What one aligned 8-byte read of BAR0 returns; HFLAG and GSTAT read zero while the context does not run. -/
def bar0Read (s : State) (off : Nat) : Word :=
  let run := s.dev.ctxst == .running
  if off % 8 != 0 then 0
  else if 0x80 ≤ off && off < 0xE0 then readQueue (vget s.dev.queues ((off - 0x80) / 0x20) Queue.reset) (off % 0x20)
  else if off < 0x128 then readGlobal s.dev off
  else if 0x1000 ≤ off && off < 0x1800 then (if run then vget s.mach.ctx.hflags ((off - 0x1000) / 8) 0 else 0)
  else if 0x2000 ≤ off && off < 0x2800 then
    (if run then readGstat s.mach.ctx (BitVec.ofNat 8 ((off - 0x2000) / 8)) else 0)
  else if 0x3000 ≤ off && off < 0x3200 then readTier s ((off - 0x3000) / 0x100) (off % 0x100)
  else if 0x3400 ≤ off && off < 0x3800 then readNycel s ((off - 0x3400) / 0x40) (off % 0x40)
  else if 0x4000 ≤ off && off < 0xC000 then readCellar s ((off - 0x4000) / 0x1000) (off % 0x1000)
  else if 0x10000 ≤ off && off < 0x18000 then
    packed [((routeOf s.dev ((off - 0x10000) / 8)).toNat, 0)]
  else 0

/-- What a host read of BAR0 returns: zeros unless it is one aligned access of 8 bytes (R29). -/
def bar0Access (s : State) (off size : Nat) : Word := if size != 8 || off % 8 != 0 then 0 else bar0Read s off

/-! ## BAR2 (R382) -/

/-- `n` bytes from an address, cut at 64-byte lines. -/
def linePieces (a n : Nat) : List (Nat × Nat) :=
  if n = 0 then [] else
    (List.range ((a + n - 1) / 64 - a / 64 + 1)).map (fun k =>
      let lo := max a (64 * (a / 64 + k))
      (lo, min (a + n) (64 * (a / 64 + k) + 64) - lo))

/-- The location behind an offset of BAR2. -/
def bar2Loc (dev : Device) (a : Nat) : Loc :=
  { space := if dev.w2tgt = 0 then .hbm else if dev.w2tgt = 1 then .die else .tier, addr := dev.w2base.toNat * pow2 36 + a }

/-- A host read, line by line: bytes of a poisoned line are all ones; none while a home does not answer. -/
def bar2Read (dev : Device) (m : Mach) : List (Nat × Nat) → Option (Mach × List Byte × Bool)
  | [] => some (m, [], false)
  | (a, n) :: rest =>
    let l := bar2Loc dev a
    let here : Option (Mach × List Byte × Bool) :=
      if populated dev l.space l.addr then
        (m.homeRead dev l n).map (fun x => (x.1, if x.2.2.isEmpty then x.2.1 else List.replicate n 255, !x.2.2.isEmpty))
      else some ({ m with freeCtr := m.freeCtr + n }, (List.range n).map (fun k => Config.hostByte (m.freeCtr + k)), false)
    match here with
    | none => none
    | some (m, bs, bad) =>
      match bar2Read dev m rest with
      | none => none
      | some (m, r, b) => some (m, bs ++ r, bad || b)

/-- A host write, line by line; where no memory lies it is discarded. -/
def bar2Write (dev : Device) (m : Mach) : List (Nat × Nat) → List Byte → Option Mach
  | [], _ => some m
  | (a, n) :: rest, bs =>
    let l := bar2Loc dev a
    let here := if populated dev l.space l.addr then m.homeWrite dev l ((bs.take n).zipIdx.map (fun p => (p.2, p.1)))
      else some m
    match here with
    | none => none
    | some m => bar2Write dev m rest (bs.drop n)

/-- BAR2_ACCESS: the window reaches 64 GiB; a failed boot disables it. An access to an owned line waits (R79), and so
does one to an expander that does not answer: the host's later accesses wait behind it. -/
def execBar2Access (a : Bar2Access) (s : State) : Host.Outcome State Fault Refusal :=
  let (off, n) : Nat × Nat := match a with
    | .read off n => (off, n)
    | .write off bs => (off, bs.length)
  let ps := linePieces off n
  if s.dev.st == .failed || pow2 36 < off + n then .next s
  else if ps.any (fun p => (s.mach.ownerOf (lineOf (bar2Loc s.dev p.1))).isSome) then
    .next { s with mach := { s.mach with posted := s.mach.posted ++ [.bar2 a] } }
  else
    let m := ps.foldl (fun m p => m.askTier s.dev (bar2Loc s.dev p.1)) s.mach
    let asking : State := { s with mach := { m with posted := m.posted ++ [.bar2 a] } }
    match a with
    | .read _ _ =>
      (match bar2Read s.dev s.mach ps with
       | some (m, bs, bad) => .next { dev := { s.dev with bar2Data := bs, bar2Poison := bad }, mach := m }
       | none => .next asking)
    | .write _ bs =>
      (match bar2Write s.dev s.mach ps bs with
       | some m => .next { s with mach := m }
       | none => .next asking)

end Sys2Proof.Machine
end

