-- ==== Sys2Proof/Machine/Power.lean ====
section
/-!
DEFINITION. Boot, firmware and attestation, the joint governor and temperature (R306, R383, R393 to R395).
-/
namespace Sys2Proof.Machine

/-! ## Boot, firmware, attestation (R394, R395) -/

/-- Places of the module's flash that hold firmware images (R394, R395). -/
def imagePlaces : Nat := Config.imageCount.toNat + 1

/-- The name of the image at a place of the flash: of the one that an update has written there, or of the one that the module
was made with. -/
def Device.imageAt (dev : Device) (place : Nat) : Nat := ((dev.flash.find? (fun p => p.1 == place)).map (·.2)).getD place

/-- Does an image pass the check of its security version against the fused counter (R394)? -/
def imageFresh (name : Nat) : Bool := Config.fusedVersion.toNat ≤ (Config.imageVersion name).toNat

/-- The registers after the boot ROM has run: it checks the signature and then the version of every image in flash (the
order of the images is a DESIGN CHOICE, log 11), the memory trains and the module tests itself; the first check that fails
ends in FAILED. How training and self-test end is the event's (DESIGN CHOICE, log 11). -/
def Device.bootRom (dev : Device) (outcome : BootOutcome) : Device :=
  let names := (List.range imagePlaces).map dev.imageAt
  let fail (n : Nat) : Device := { dev with st := .failed, berr := BitVec.ofNat 8 n }
  if !names.all Config.imageSigned then fail 1
  else if !names.all imageFresh then fail 2
  else match outcome with
    | .memoryTraining => fail 3
    | .selfTest => fail 4
    | _ => { dev with st := .ready, berr := 0, booted := (List.range imagePlaces).map (fun p => (p, dev.imageAt p)) }

/-- The module after a reset: every register and all other state at its value at reset, but for flash, which holds the images
that the next boot verifies (DEDUCED, log 68). The turns that are still to come and the numbers of the free values are the
model's own fields and go on. -/
def State.hardReset (s : State) : State :=
  { dev := { Device.reset with flash := s.dev.flash },
    mach := { Mach.reset with script := s.mach.script, freeCtr := s.mach.freeCtr } }

/-- BOOT: at reset the boot ROM runs. The step in a module that has booted already, or that has failed to, is its next reset
(DESIGN CHOICE, log 75). -/
def execBoot (outcome : BootOutcome) (s : State) : Host.Outcome State Fault Refusal :=
  let s := if s.dev.st == .reset || s.dev.st == .boot then s else s.hardReset
  .next { s with dev := s.dev.bootRom outcome }

/-- A job for the firmware starts, unless one runs. -/
def startJob (s : State) (d : Device) (job : FwJob) : State :=
  if s.dev.fwst == .busy then s else { s with dev := { d with fwst := .busy, fwjob := some job } }

/-- ATTESTATION_REQUEST: a write to ATREQ. -/
def execAttestationRequest (v : Word) (s : State) : Host.Outcome State Fault Refusal :=
  .next (startJob s { s.dev with atreq := field v 12 44 } (.attest (bitsAt v 12 44 * 4096)))

/-- FIRMWARE_UPDATE: a write to FWUP; the image that the host has placed gets a name of its own. -/
def execFirmwareUpdate (v : Word) (s : State) : Host.Outcome State Fault Refusal :=
  .next (startJob s { s.dev with fwup := field v 12 44 } (.update (bitsAt v 12 44 * 4096) (8 + s.mach.freeCtr)))

/-- Byte `j` of the record of image `i` (R395): its digest, then its security version; a record past the last image holds
bytes of which no value is stated. -/
def imageByte (dev : Device) (free i j : Nat) : Byte :=
  match dev.booted[i]? with
  | some p =>
    if j < 64 then BitVec.ofNat 8 ((Config.imageDigest p.2).toNat / pow2 (8 * j))
    else BitVec.ofNat 8 ((Config.imageVersion p.2).toNat / pow2 (8 * (j - 64)))
  | none => Config.attestUnused (free + 72 * i + j)

/-- Byte `k` of what the report's signature covers: signature, version and image count, the serial number, the nonce as it
stands in the buffer, the images, the public key. -/
def signedByte (dev : Device) (m : Mach) (a k : Nat) : Byte :=
  if k < 8 then BitVec.ofNat 8 ((0xAE11 * pow2 48 + pow2 40 + dev.booted.length) / pow2 (8 * k))
  else if k < 0x10 then BitVec.ofNat 8 (Config.serialNumber.toNat / pow2 (8 * (k - 8)))
  else if k < 0x50 then m.mem.get { space := .hbm, addr := a + k }
  else if k < 0x290 then imageByte dev m.freeCtr ((k - 0x50) / 72) ((k - 0x50) % 72)
  else Config.attestKey (k - 0x290)

/-- The bytes of the report in the buffer at an HBM address: what is signed, the signature over its digest, and zeros. -/
def reportBytes (dev : Device) (m : Mach) (a : Nat) : List Byte :=
  let signed := (List.range 0xA30).map (signedByte dev m a)
  let digest := Config.shake256 signed
  signed ++ (List.range 3309).map (Config.attestSignature digest m.freeCtr) ++ List.replicate (8192 - 0x171D) 0

/-- The report fills its 8 KiB buffer. -/
def Mach.report (m : Mach) (dev : Device) (a : Nat) : Mach :=
  let l : Loc := { space := .hbm, addr := a }
  { (m.touchCellar dev l 8192 false).writeBytes (bytesAt l (reportBytes dev m a)) with freeCtr := m.freeCtr + 1024 }

/-- An image is written to its place in flash; it is booted at the next reset. -/
def Device.writeFlash (dev : Device) (name : Nat) : Device :=
  let place := Config.imagePlace name % imagePlaces
  { dev with flash := dev.flash.filter (fun p => p.1 != place) ++ [(place, name)] }

/-- FIRMWARE_JOB_DONE: an update whose image passes the checks of the boot ROM is written to flash, and FWST reads done;
another is refused. An attestation that is done has written its report; whether it is, is the event's (DESIGN CHOICE, log
11). -/
def execFirmwareJobDone (ok : Bool) (s : State) : Host.Outcome State Fault Refusal :=
  let ended (b : Bool) : Device := { s.dev with fwst := if b then .done else .refused, fwjob := none }
  match s.dev.fwjob with
  | none => .next s
  | some (.update _ name) =>
    let good := Config.imageSigned name && imageFresh name
    .next { dev := if good then (ended true).writeFlash name else ended false,
            mach := { s.mach with freeCtr := s.mach.freeCtr + 1 } }
  | some (.attest a) => .next { dev := ended ok, mach := if ok then s.mach.report s.dev a else s.mach }

/-! ## The joint governor (R306, R393) -/

/-- The step after a window: held at 4 while ALERT = 1; with an ATTN in the window one down above 3,000 W and one up
below 2,850 W; 0 when none has run for 4,096 cycles. -/
def nextGstep (s : State) (mw : Nat) : BitVec 3 :=
  let g := s.dev.gstep.toNat
  if s.dev.alert then 4
  else if s.mach.attnInWindow then
    (if 3000000 < mw then BitVec.ofNat 3 (min 4 (g + 1)) else if mw < 2850000 then BitVec.ofNat 3 (g - 1) else s.dev.gstep)
  else if s.mach.attnLast + 4096 ≤ s.mach.cyc.toNat then 0
  else s.dev.gstep

/-- GOVERNOR_WINDOW: a window of 1,024 cycles has ended, with an estimate of the module's power; the next one begins where it
ended. -/
def execGovernorWindow (mw : Nat) (s : State) : Host.Outcome State Fault Refusal :=
  if s.mach.govFrom + 1024 ≤ s.mach.cyc.toNat then
    .next { dev := { s.dev with pwr := BitVec.ofNat 32 mw, gstep := nextGstep s mw },
            mach := { s.mach with attnInWindow := false, govFrom := s.mach.govFrom + 1024 } }
  else .next s

/-- GOVERNOR_IDLE_RESET: no ATTN has run for 4,096 cycles. -/
def execGovernorIdleReset (s : State) : Host.Outcome State Fault Refusal :=
  if s.mach.attnLast + 4096 ≤ s.mach.cyc.toNat && !s.dev.alert then .next { s with dev := { s.dev with gstep := 0 } }
  else .next s

/-- The module off: all state is lost; flash, from which the module boots, is no such state (DEDUCED, log 68). -/
def State.off (s : State) : State :=
  { dev := { Device.reset with powered := false, flash := s.dev.flash }, mach := .reset }

/-- THERMAL_ALERT: a die reaches 100 °C; step 4 is held from now on. One that has reached 115 °C powers the module off. -/
def execThermalAlert (temp : BitVec 16) (s : State) : Host.Outcome State Fault Refusal :=
  if 1840 ≤ temp.toNat then .next s.off
  else if 1600 ≤ temp.toNat then .next { s with dev := { s.dev with temp := temp, alert := true, gstep := 4 } }
  else .next s

/-- THERMAL_ALERT_CLEAR: the hottest die falls below 100 °C; the governor steps on from there. -/
def execThermalAlertClear (temp : BitVec 16) (s : State) : Host.Outcome State Fault Refusal :=
  if temp.toNat < 1600 then .next { s with dev := { s.dev with temp := temp, alert := false } } else .next s

/-- THERMAL_SHUTDOWN: at 115 °C the module powers off. -/
def execThermalShutdown (s : State) : Host.Outcome State Fault Refusal := .next s.off

end Sys2Proof.Machine
end

