-- ==== Sys2Proof/Machine/Scrub.lean ====
section
/-!
DEFINITION. Uncorrectable errors of SRAM arrays as scrubbing finds them (R361, R372).
-/
namespace Sys2Proof.Machine

/-- A line of a core or die store is marked poisoned in place. -/
def Mach.markLine (m : Mach) (l : Loc) : Mach := { m with mem := m.mem.setPoison l true }

/-- The header offset of the lowest PC among a group's live lanes (R378). -/
def Group.lowestHeader (g : Group) : Nat :=
  match g.minPc (fun l => (g.lane l).live) with
  | some pc => (g.lane (firstLane (Mask.ofFn (fun l => (g.lane l).live && (g.lane l).pc == pc)))).hdr
  | none => 0

/-- A filter or attention read that meets an error ends its lane with its poison status. -/
def filterError (m : Mach) (o : Op) (lane : Nat) : Mach :=
  match o.instr with
  | .texf w => progressFilter (fun m o l => m.oweV o.id (o.base + w.c.toNat) (Mask.one l) (fun _ => filterPoison)) [lane] m o
  | .hgf w =>
    progressFilter (fun m o l => match m.team? o.team with
      | some t => (m.dropLines o.id (areaLines t o (gridArea w (gridLevels o.recs)) l)).oweV o.id (o.base + w.c.toNat)
          (Mask.one l) (fun _ => filterPoison)
      | none => m) [lane] m o
  | .attn _ =>
    (match m.team? o.team with
     | some t =>
       let a := attnLaneCmd o lane
       if o.st == .running && o.mask.has lane && !o.attnDone lane && o.attnTaken lane then
         ({ m with attnInWindow := true, attnLast := m.cyc.toNat }.modChan a.stk a.ch (fun c =>
           { c with attn := c.attn - 1, attnEnd := m.cyc.toNat })).endAttn o t lane 5 (AttnAcc.init 0)
       else m
     | none => m)
  | _ => m

/-- Marks, or ends, what an error has struck. -/
def Mach.strike (dev : Device) (m : Mach) : SramError → Mach
  | .vectorRegister gid reg => m.modGroup gid (fun g => { g with badRegs := if g.badRegs.contains reg then g.badRegs else reg :: g.badRegs })
  | .tile core n => m.setTile { m.tile core n with bad := true }
  | .coreStoreLine core line => if core < 64 && line * 64 < coreBytes then m.markLine { space := .core core, addr := line * 64 } else m
  | .dieStoreLine line => if populated dev .die (line * 64) then m.markLine { space := .die, addr := line * 64 } else m
  | .clauseCache core => { m with cache := m.cache.filter (fun (k : CachedClause) => k.core != core) }
  | .groupState gid =>
    (match m.group? gid with
     | some g => if g.frozen.isSome || g.retired then m else m.freezeGroup gid 5 0 g.lowestHeader
     | none => m)
  | .parameterWord grid off => m.modGrid grid (fun g => { g with badParams := off / 8 * 8 :: g.badParams })
  | .cellarRay id =>
    (match m.ctx.rays.find? (fun r => r.id == id) with
     | some r => m.endRay r rayPoison
     | none => m)
  | .cellarFilter op lane =>
    (match m.op? op with
     | some o => filterError m o lane
     | none => m)
  | .reservedEntry stack ch e =>
    let k := regionKey stack ch e
    { m with ctx := { m.ctx with regions := regionSet m.ctx.regions k (regionGet m.ctx.regions k &&& ~~~(BitVec.ofNat 32 32768)) } }

/-- SCRUB_ERROR (R172, R372): the error acts, and it is reported to the host (how, the spec does not say: DESIGN CHOICE, log
29). -/
def execScrubError (err : SramError) (s : State) : Host.Outcome State Fault Refusal :=
  machStep (fun dev m => { m.strike dev err with reports := m.reports ++ [(m.cyc, err)] }) s

end Sys2Proof.Machine
end

