-- ==== Sys2Proof/Machine/Dispatch.lean ====
section
/-!
DEFINITION. The dispatcher: one arm for each constructor of `Instr`, a direct call of its meaning.
-/
namespace Sys2Proof.Machine

/-- Execute one instruction, or one step of the device. -/
def exec (i : Instr) (s : State) : Host.Outcome State Fault Refusal :=
  match i with
  | .bra w => Sys2Proof.Machine.execBra w s
  | .jmp w => Sys2Proof.Machine.execJmp w s
  | .ubra w => Sys2Proof.Machine.execUbra w s
  | .brx w => Sys2Proof.Machine.execBrx w s
  | .call w => Sys2Proof.Machine.execCall w s
  | .callx w => Sys2Proof.Machine.execCallx w s
  | .ret w => Sys2Proof.Machine.execRet w s
  | .unwind w => Sys2Proof.Machine.execUnwind w s
  | .exit w => Sys2Proof.Machine.execExit w s
  | .nop w => Sys2Proof.Machine.execNop w s
  | .yield w => Sys2Proof.Machine.execYield w s
  | .sleep w => Sys2Proof.Machine.execSleep w s
  | .bkpt w => Sys2Proof.Machine.execBkpt w s
  | .trap w => Sys2Proof.Machine.execTrap w s
  | .tret w => Sys2Proof.Machine.execTret w s
  | .sread w => Sys2Proof.Machine.execSread w s
  | .swrite w => Sys2Proof.Machine.execSwrite w s
  | .launch w => Sys2Proof.Machine.execLaunch w s
  | .fetchw w => Sys2Proof.Machine.execFetchw w s
  | .sadd w => Sys2Proof.Machine.execSadd w s
  | .saddI w => Sys2Proof.Machine.execSaddI w s
  | .ssub w => Sys2Proof.Machine.execSsub w s
  | .ssubI w => Sys2Proof.Machine.execSsubI w s
  | .smul w => Sys2Proof.Machine.execSmul w s
  | .smulI w => Sys2Proof.Machine.execSmulI w s
  | .smulh w => Sys2Proof.Machine.execSmulh w s
  | .smad w => Sys2Proof.Machine.execSmad w s
  | .sand w => Sys2Proof.Machine.execSand w s
  | .sandI w => Sys2Proof.Machine.execSandI w s
  | .sor w => Sys2Proof.Machine.execSor w s
  | .sorI w => Sys2Proof.Machine.execSorI w s
  | .sxor w => Sys2Proof.Machine.execSxor w s
  | .sxorI w => Sys2Proof.Machine.execSxorI w s
  | .snot w => Sys2Proof.Machine.execSnot w s
  | .sshl w => Sys2Proof.Machine.execSshl w s
  | .sshlI w => Sys2Proof.Machine.execSshlI w s
  | .sshr w => Sys2Proof.Machine.execSshr w s
  | .sshrI w => Sys2Proof.Machine.execSshrI w s
  | .smin w => Sys2Proof.Machine.execSmin w s
  | .sminI w => Sys2Proof.Machine.execSminI w s
  | .smax w => Sys2Proof.Machine.execSmax w s
  | .smaxI w => Sys2Proof.Machine.execSmaxI w s
  | .ssel w => Sys2Proof.Machine.execSsel w s
  | .scmp w => Sys2Proof.Machine.execScmp w s
  | .scmpI w => Sys2Proof.Machine.execScmpI w s
  | .smov w => Sys2Proof.Machine.execSmov w s
  | .smovi w => Sys2Proof.Machine.execSmovi w s
  | .sbfe w => Sys2Proof.Machine.execSbfe w s
  | .sbfi w => Sys2Proof.Machine.execSbfi w s
  | .spopc w => Sys2Proof.Machine.execSpopc w s
  | .sclz w => Sys2Proof.Machine.execSclz w s
  | .saddr w => Sys2Proof.Machine.execSaddr w s
  | .sldc w => Sys2Proof.Machine.execSldc w s
  | .vadd w => Sys2Proof.Machine.execVadd w s
  | .vaddI w => Sys2Proof.Machine.execVaddI w s
  | .vsub w => Sys2Proof.Machine.execVsub w s
  | .vsubI w => Sys2Proof.Machine.execVsubI w s
  | .vmul w => Sys2Proof.Machine.execVmul w s
  | .vmulI w => Sys2Proof.Machine.execVmulI w s
  | .vmulh w => Sys2Proof.Machine.execVmulh w s
  | .vmad w => Sys2Proof.Machine.execVmad w s
  | .vmin w => Sys2Proof.Machine.execVmin w s
  | .vminI w => Sys2Proof.Machine.execVminI w s
  | .vmax w => Sys2Proof.Machine.execVmax w s
  | .vmaxI w => Sys2Proof.Machine.execVmaxI w s
  | .vabs w => Sys2Proof.Machine.execVabs w s
  | .vneg w => Sys2Proof.Machine.execVneg w s
  | .vand w => Sys2Proof.Machine.execVand w s
  | .vandI w => Sys2Proof.Machine.execVandI w s
  | .vor w => Sys2Proof.Machine.execVor w s
  | .vorI w => Sys2Proof.Machine.execVorI w s
  | .vxor w => Sys2Proof.Machine.execVxor w s
  | .vxorI w => Sys2Proof.Machine.execVxorI w s
  | .vnot w => Sys2Proof.Machine.execVnot w s
  | .vshl w => Sys2Proof.Machine.execVshl w s
  | .vshlI w => Sys2Proof.Machine.execVshlI w s
  | .vshr w => Sys2Proof.Machine.execVshr w s
  | .vshrI w => Sys2Proof.Machine.execVshrI w s
  | .vshrr w => Sys2Proof.Machine.execVshrr w s
  | .vshrrI w => Sys2Proof.Machine.execVshrrI w s
  | .vbfe w => Sys2Proof.Machine.execVbfe w s
  | .vbfi w => Sys2Proof.Machine.execVbfi w s
  | .vpopc w => Sys2Proof.Machine.execVpopc w s
  | .vclz w => Sys2Proof.Machine.execVclz w s
  | .vsel w => Sys2Proof.Machine.execVsel w s
  | .vcmp w => Sys2Proof.Machine.execVcmp w s
  | .vcmpI w => Sys2Proof.Machine.execVcmpI w s
  | .vaddcy w => Sys2Proof.Machine.execVaddcy w s
  | .vdot2 w => Sys2Proof.Machine.execVdot2 w s
  | .vdot4 w => Sys2Proof.Machine.execVdot4 w s
  | .vsat w => Sys2Proof.Machine.execVsat w s
  | .vpack w => Sys2Proof.Machine.execVpack w s
  | .vunpack w => Sys2Proof.Machine.execVunpack w s
  | .fadd w => Sys2Proof.Machine.execFadd w s
  | .faddI w => Sys2Proof.Machine.execFaddI w s
  | .fsub w => Sys2Proof.Machine.execFsub w s
  | .fmul w => Sys2Proof.Machine.execFmul w s
  | .fmulI w => Sys2Proof.Machine.execFmulI w s
  | .ffma w => Sys2Proof.Machine.execFfma w s
  | .fmin w => Sys2Proof.Machine.execFmin w s
  | .fminI w => Sys2Proof.Machine.execFminI w s
  | .fmax w => Sys2Proof.Machine.execFmax w s
  | .fmaxI w => Sys2Proof.Machine.execFmaxI w s
  | .fcmp w => Sys2Proof.Machine.execFcmp w s
  | .fcmpI w => Sys2Proof.Machine.execFcmpI w s
  | .frnd w => Sys2Proof.Machine.execFrnd w s
  | .frcp w => Sys2Proof.Machine.execFrcp w s
  | .frsq w => Sys2Proof.Machine.execFrsq w s
  | .fsqrt w => Sys2Proof.Machine.execFsqrt w s
  | .fexp2 w => Sys2Proof.Machine.execFexp2 w s
  | .flog2 w => Sys2Proof.Machine.execFlog2 w s
  | .fsin w => Sys2Proof.Machine.execFsin w s
  | .fcos w => Sys2Proof.Machine.execFcos w s
  | .hadd2 w => Sys2Proof.Machine.execHadd2 w s
  | .hmul2 w => Sys2Proof.Machine.execHmul2 w s
  | .hfma2 w => Sys2Proof.Machine.execHfma2 w s
  | .hmin2 w => Sys2Proof.Machine.execHmin2 w s
  | .hmax2 w => Sys2Proof.Machine.execHmax2 w s
  | .cvt w => Sys2Proof.Machine.execCvt w s
  | .shfl w => Sys2Proof.Machine.execShfl w s
  | .slide w => Sys2Proof.Machine.execSlide w s
  | .vote w => Sys2Proof.Machine.execVote w s
  | .vred w => Sys2Proof.Machine.execVred w s
  | .vscan w => Sys2Proof.Machine.execVscan w s
  | .vconflict w => Sys2Proof.Machine.execVconflict w s
  | .vtos w => Sys2Proof.Machine.execVtos w s
  | .stov w => Sys2Proof.Machine.execStov w s
  | .pand w => Sys2Proof.Machine.execPand w s
  | .por w => Sys2Proof.Machine.execPor w s
  | .pxor w => Sys2Proof.Machine.execPxor w s
  | .pnot w => Sys2Proof.Machine.execPnot w s
  | .pmovv w => Sys2Proof.Machine.execPmovv w s
  | .vmovp w => Sys2Proof.Machine.execVmovp w s
  | .pcount w => Sys2Proof.Machine.execPcount w s
  | .qand w => Sys2Proof.Machine.execQand w s
  | .qor w => Sys2Proof.Machine.execQor w s
  | .qnot w => Sys2Proof.Machine.execQnot w s
  | .ld w => Sys2Proof.Machine.execLd w s
  | .st w => Sys2Proof.Machine.execSt w s
  | .ldt w => Sys2Proof.Machine.execLdt w s
  | .stt w => Sys2Proof.Machine.execStt w s
  | .tmov w => Sys2Proof.Machine.execTmov w s
  | .copy w => Sys2Proof.Machine.execCopy w s
  | .gtha w => Sys2Proof.Machine.execGtha w s
  | .tierh w => Sys2Proof.Machine.execTierh w s
  | .cjoin w => Sys2Proof.Machine.execCjoin w s
  | .cleave w => Sys2Proof.Machine.execCleave w s
  | .cquery w => Sys2Proof.Machine.execCquery w s
  | .atom w => Sys2Proof.Machine.execAtom w s
  | .red w => Sys2Proof.Machine.execRed w s
  | .cas w => Sys2Proof.Machine.execCas w s
  | .fence w => Sys2Proof.Machine.execFence w s
  | .bar w => Sys2Proof.Machine.execBar w s
  | .bara w => Sys2Proof.Machine.execBara w s
  | .barw w => Sys2Proof.Machine.execBarw w s
  | .cbar w => Sys2Proof.Machine.execCbar w s
  | .tbegin w => Sys2Proof.Machine.execTbegin w s
  | .tend w => Sys2Proof.Machine.execTend w s
  | .tabort w => Sys2Proof.Machine.execTabort w s
  | .tstat w => Sys2Proof.Machine.execTstat w s
  | .omap w => Sys2Proof.Machine.execOmap w s
  | .mma w => Sys2Proof.Machine.execMma w s
  | .mzero w => Sys2Proof.Machine.execMzero w s
  | .mlda w => Sys2Proof.Machine.execMlda w s
  | .mdrain w => Sys2Proof.Machine.execMdrain w s
  | .sopen w => Sys2Proof.Machine.execSopen w s
  | .snext w => Sys2Proof.Machine.execSnext w s
  | .sskip w => Sys2Proof.Machine.execSskip w s
  | .sisect w => Sys2Proof.Machine.execSisect w s
  | .sunion w => Sys2Proof.Machine.execSunion w s
  | .sclose w => Sys2Proof.Machine.execSclose w s
  | .sstat w => Sys2Proof.Machine.execSstat w s
  | .lisect w => Sys2Proof.Machine.execLisect w s
  | .hfam w => Sys2Proof.Machine.execHfam w s
  | .hcode w => Sys2Proof.Machine.execHcode w s
  | .hprobe w => Sys2Proof.Machine.execHprobe w s
  | .hins w => Sys2Proof.Machine.execHins w s
  | .hdel w => Sys2Proof.Machine.execHdel w s
  | .hreh w => Sys2Proof.Machine.execHreh w s
  | .hsync w => Sys2Proof.Machine.execHsync w s
  | .raye w => Sys2Proof.Machine.execRaye w s
  | .anyr w => Sys2Proof.Machine.execAnyr w s
  | .trbegin w => Sys2Proof.Machine.execTrbegin w s
  | .trpub w => Sys2Proof.Machine.execTrpub w s
  | .texf w => Sys2Proof.Machine.execTexf w s
  | .hgf w => Sys2Proof.Machine.execHgf w s
  | .attn w => Sys2Proof.Machine.execAttn w s
  | .bfill w => Sys2Proof.Machine.execBfill w s
  | .clauseHeaderIssue h => Sys2Proof.Machine.execClauseHeaderIssue h s
  | .trigWrite v => Sys2Proof.Machine.execTrigWrite v s
  | .graphUpload v => Sys2Proof.Machine.execGraphUpload v s
  | .graphRemoval v => Sys2Proof.Machine.execGraphRemoval v s
  | .uploadCheck => Sys2Proof.Machine.execUploadCheck s
  | .hostFlagWrite n v => Sys2Proof.Machine.execHostFlagWrite n v s
  | .instanceStart gnum => Sys2Proof.Machine.execInstanceStart gnum s
  | .nodeStart r node => Sys2Proof.Machine.execNodeStart r node s
  | .copyNode r node units => Sys2Proof.Machine.execCopyNode r node units s
  | .copyNodeDone r node => Sys2Proof.Machine.execCopyNodeDone r node s
  | .hostwaitComplete r node => Sys2Proof.Machine.execHostwaitComplete r node s
  | .signalNode r node => Sys2Proof.Machine.execSignalNode r node s
  | .clusterPlace grid => Sys2Proof.Machine.execClusterPlace grid s
  | .gridStarvation grid => Sys2Proof.Machine.execGridStarvation grid s
  | .launchRequest => Sys2Proof.Machine.execLaunchRequest s
  | .detachedComplete id => Sys2Proof.Machine.execDetachedComplete id s
  | .fetchwRequest => Sys2Proof.Machine.execFetchwRequest s
  | .gridComplete grid => Sys2Proof.Machine.execGridComplete grid s
  | .instanceComplete gnum => Sys2Proof.Machine.execInstanceComplete gnum s
  | .groupRetire g => Sys2Proof.Machine.execGroupRetire g s
  | .teamRetire t => Sys2Proof.Machine.execTeamRetire t s
  | .groupRaise g => Sys2Proof.Machine.execGroupRaise g s
  | .waitSwapOut g => Sys2Proof.Machine.execWaitSwapOut g s
  | .pendingRaise g => Sys2Proof.Machine.execPendingRaise g s
  | .groupSwapIn g => Sys2Proof.Machine.execGroupSwapIn g s
  | .droverStage1 core quarter => Sys2Proof.Machine.execDroverStage1 core quarter s
  | .droverStage2 core quarter => Sys2Proof.Machine.execDroverStage2 core quarter s
  | .droverStage3 core quarter => Sys2Proof.Machine.execDroverStage3 core quarter s
  | .frameGrant g => Sys2Proof.Machine.execFrameGrant g s
  | .operationComplete op limit => Sys2Proof.Machine.execOperationComplete op limit s
  | .ownAcquire g => Sys2Proof.Machine.execOwnAcquire g s
  | .lineRelease op line => Sys2Proof.Machine.execLineRelease op line s
  | .sleepWake g => Sys2Proof.Machine.execSleepWake g s
  | .promiseMissed g => Sys2Proof.Machine.execPromiseMissed g s
  | .barrierWaitPass g => Sys2Proof.Machine.execBarrierWaitPass g s
  | .deferredArrival team index => Sys2Proof.Machine.execDeferredArrival team index s
  | .peerDrainRow op => Sys2Proof.Machine.execPeerDrainRow op s
  | .trapDelivery g => Sys2Proof.Machine.execTrapDelivery g s
  | .trapQueueEntry g => Sys2Proof.Machine.execTrapQueueEntry g s
  | .tableWalk core va kind => Sys2Proof.Machine.execTableWalk core va kind s
  | .reportQueueWrite queue => Sys2Proof.Machine.execReportQueueWrite queue s
  | .ctxLoad fresh => Sys2Proof.Machine.execCtxLoad fresh s
  | .ctxSave => Sys2Proof.Machine.execCtxSave s
  | .ctxTeardown => Sys2Proof.Machine.execCtxTeardown s
  | .ctxThaw => Sys2Proof.Machine.execCtxThaw s
  | .ctxCommandEnd => Sys2Proof.Machine.execCtxCommandEnd s
  | .tlbiAll v => Sys2Proof.Machine.execTlbiAll v s
  | .tlbiRange v => Sys2Proof.Machine.execTlbiRange v s
  | .tlbInvalidationDone => Sys2Proof.Machine.execTlbInvalidationDone s
  | .faultReplay idx => Sys2Proof.Machine.execFaultReplay idx s
  | .faultAbort idx => Sys2Proof.Machine.execFaultAbort idx s
  | .faultFreeze idx => Sys2Proof.Machine.execFaultFreeze idx s
  | .queueConsume queue v => Sys2Proof.Machine.execQueueConsume queue v s
  | .registerWrite off size v => Sys2Proof.Machine.execRegisterWrite off size v s
  | .bar2Access a => Sys2Proof.Machine.execBar2Access a s
  | .attestationRequest v => Sys2Proof.Machine.execAttestationRequest v s
  | .firmwareUpdate v => Sys2Proof.Machine.execFirmwareUpdate v s
  | .firmwareJobDone ok => Sys2Proof.Machine.execFirmwareJobDone ok s
  | .boot outcome => Sys2Proof.Machine.execBoot outcome s
  | .tierPortEnable port v => Sys2Proof.Machine.execTierPortEnable port v s
  | .tierPortDisable port v => Sys2Proof.Machine.execTierPortDisable port v s
  | .tierClearQuarantine port v => Sys2Proof.Machine.execTierClearQuarantine port v s
  | .tierLinkUp port cap => Sys2Proof.Machine.execTierLinkUp port cap s
  | .tierHint port page => Sys2Proof.Machine.execTierHint port page s
  | .tierFillData port page => Sys2Proof.Machine.execTierFillData port page s
  | .tierWritebackReply port frame => Sys2Proof.Machine.execTierWritebackReply port frame s
  | .tierQuarantine port => Sys2Proof.Machine.execTierQuarantine port s
  | .nycelPortEnable port v => Sys2Proof.Machine.execNycelPortEnable port v s
  | .nycelPortThaw port v => Sys2Proof.Machine.execNycelPortThaw port v s
  | .nycelLinkUp port peer => Sys2Proof.Machine.execNycelLinkUp port peer s
  | .nycelFlit port flit => Sys2Proof.Machine.execNycelFlit port flit s
  | .peerRequest port req => Sys2Proof.Machine.execPeerRequest port req s
  | .nycelPortLeave port => Sys2Proof.Machine.execNycelPortLeave port s
  | .releaseMarker pkt => Sys2Proof.Machine.execReleaseMarker pkt s
  | .homeReport pkt home => Sys2Proof.Machine.execHomeReport pkt home s
  | .flushMarker pkt path => Sys2Proof.Machine.execFlushMarker pkt path s
  | .cellarRead pkt => Sys2Proof.Machine.execCellarRead pkt s
  | .cellarWrite pkt => Sys2Proof.Machine.execCellarWrite pkt s
  | .cellarAtomic pkt => Sys2Proof.Machine.execCellarAtomic pkt s
  | .reply pkt => Sys2Proof.Machine.execReply pkt s
  | .ageCapExpiry stack channel => Sys2Proof.Machine.execAgeCapExpiry stack channel s
  | .powerDownEntry stack pseudo => Sys2Proof.Machine.execPowerDownEntry stack pseudo s
  | .selfRefreshEntry stack pseudo => Sys2Proof.Machine.execSelfRefreshEntry stack pseudo s
  | .lineRebuild pa source => Sys2Proof.Machine.execLineRebuild pa source s
  | .scrubError err => Sys2Proof.Machine.execScrubError err s
  | .fnrmRequest stack v => Sys2Proof.Machine.execFnrmRequest stack v s
  | .channelToComputeDone stack channel => Sys2Proof.Machine.execChannelToComputeDone stack channel s
  | .channelComputeIdle stack channel => Sys2Proof.Machine.execChannelComputeIdle stack channel s
  | .channelToNormalDone stack channel => Sys2Proof.Machine.execChannelToNormalDone stack channel s
  | .raySend op => Sys2Proof.Machine.execRaySend op s
  | .rayAccept ray => Sys2Proof.Machine.execRayAccept ray s
  | .treeletStage stack => Sys2Proof.Machine.execTreeletStage stack s
  | .rayVisit ray => Sys2Proof.Machine.execRayVisit ray s
  | .rayArrival ray => Sys2Proof.Machine.execRayArrival ray s
  | .rayRefill stack => Sys2Proof.Machine.execRayRefill stack s
  | .trbeginDone op => Sys2Proof.Machine.execTrbeginDone op s
  | .filterRequest op lane => Sys2Proof.Machine.execFilterRequest op lane s
  | .attnCommand op lane => Sys2Proof.Machine.execAttnCommand op lane s
  | .tableRequest op unit => Sys2Proof.Machine.execTableRequest op unit s
  | .governorWindow milliwatts => Sys2Proof.Machine.execGovernorWindow milliwatts s
  | .governorIdleReset => Sys2Proof.Machine.execGovernorIdleReset s
  | .thermalAlert temp => Sys2Proof.Machine.execThermalAlert temp s
  | .thermalShutdown => Sys2Proof.Machine.execThermalShutdown s
  | .refresh stack bank => Sys2Proof.Machine.execRefresh stack bank s
  | .thermalAlertClear temp => Sys2Proof.Machine.execThermalAlertClear temp s
  | .dieStoreRequest pkt => Sys2Proof.Machine.execDieStoreRequest pkt s
  | .tierAccess pkt => Sys2Proof.Machine.execTierAccess pkt s

end Sys2Proof.Machine
end

