-- ==== Sys2Proof/Machine/Schedule.lean ====
section
/-!
DEFINITION. Whose turn it is (DESIGN CHOICE, log 1): the script says, and where it says nothing a fixed default does.
-/
namespace Sys2Proof.Machine

/-! ## The default: steps of the device that are due -/

/-- The steps that a request may be due for. -/
def pktSteps (p : Pkt) : List Instr :=
  let serve : Instr := match p.loc.space, p.kind with
    | .hbm, .read => .cellarRead p.id
    | .hbm, .write _ => .cellarWrite p.id
    | .hbm, .atomic _ _ _ _ => .cellarAtomic p.id
    | .die, _ => .dieStoreRequest p.id
    | .tier, _ => .tierAccess p.id
    | _, _ => .reply p.id
  (if p.release && !p.atHome then [.releaseMarker p.id] else []) ++ p.homes.map (fun h => .homeReport p.id h) ++
    (if p.paths = 0 then [] else [.flushMarker p.id (p.paths - 1)]) ++ [serve, .reply p.id]

/-- The steps that a node of an instance may be due for. -/
def nodeSteps (r : InstRef) (n : Nat) : List Instr :=
  (List.range n).flatMap (fun i =>
    [.nodeStart r i, .hostwaitComplete r i, .signalNode r i, .copyNode r i 1024, .copyNodeDone r i])

/-- The steps that the distributor may be due for. -/
def distSteps (c : Ctx) : List Instr :=
  c.graphs.flatMap (fun g => [.instanceStart g.gnum] ++ nodeSteps (.graph g.gnum) g.nodes.length ++ [.instanceComplete g.gnum]) ++
    c.detached.flatMap (fun d => [.nodeStart (.detached d.id) d.node, .hostwaitComplete (.detached d.id) d.node,
      .signalNode (.detached d.id) d.node, .copyNode (.detached d.id) d.node 1024,
      .copyNodeDone (.detached d.id) d.node, .detachedComplete d.id]) ++
    c.grids.flatMap (fun g => [.clusterPlace g.handle, .gridStarvation g.handle, .gridComplete g.handle]) ++
    [.launchRequest, .fetchwRequest]

/-- The steps that a group may be due for beside its own issue. -/
def groupSteps (g : Group) : List Instr :=
  [.groupRetire g.gid, .trapQueueEntry g.gid, .sleepWake g.gid, .promiseMissed g.gid, .frameGrant g.gid,
   .barrierWaitPass g.gid, .ownAcquire g.gid, .groupRaise g.gid, .waitSwapOut g.gid, .pendingRaise g.gid, .groupSwapIn g.gid,
   .droverStage1 g.core g.quarter, .droverStage2 g.core g.quarter, .droverStage3 g.core g.quarter]

/-- The steps that an operation may be due for. -/
def opSteps (o : Op) : List Instr :=
  match o.instr with
  | .raye _ => [.raySend o.id, .operationComplete o.id none]
  | .trbegin _ => [.trbeginDone o.id, .operationComplete o.id none]
  | .mdrain _ => [.peerDrainRow o.id, .operationComplete o.id none]
  | _ => [.operationComplete o.id none]

/-- The steps that a ray may be due for. -/
def raySteps (r : Ray) : List Instr :=
  [.rayAccept r.id, .rayArrival r.id, .treeletStage r.stack, .rayVisit r.id, .rayRefill r.stack]

/-- The steps that a tier port may be due for. -/
def tierSteps (m : Mach) (p : Nat) : List Instr :=
  let u := vget m.tiers p TierUnit.empty
  u.hints.map (fun x => .tierHint p x) ++
    u.fills.flatMap (fun f => match f.waitFrame with
      | none => [.tierFillData p f.page]
      | some n => [.tierWritebackReply p n]) ++
    (if u.closing.isSome then u.frames.map (fun f => .tierWritebackReply p f.frame) else [])

/-- The steps that channels away from NORMAL may be due for. -/
def chanSteps (m : Mach) : List Instr :=
  (List.range 8).flatMap (fun s => (List.range 32).flatMap (fun c => match (m.chan s c).mode with
    | .normal => []
    | .toCompute => [.channelToComputeDone s c]
    | .compute => [.channelComputeIdle s c]
    | .toNormal => [.channelToNormalDone s c]))

/-- The steps of the device that may be due, in the order in which the default takes them. Steps that the host,
a peer, a sensor or an expander brings about are not among them. -/
def dueSteps (s : State) : List Instr :=
  let m := s.mach
  [.ctxCommandEnd, .uploadCheck, .tlbInvalidationDone, .reportQueueWrite 0, .reportQueueWrite 1, .reportQueueWrite 2] ++
    m.net.flatMap pktSteps ++ m.ctx.ops.flatMap opSteps ++ m.ctx.rays.flatMap raySteps ++ chanSteps m ++
    tierSteps m 0 ++ tierSteps m 1 ++
    (m.ctx.teams.flatMap (fun t => (m.ctx.groups.filter (fun g => g.team == t.tid)).flatMap (fun g =>
      (List.range g.deferred.length).map (fun k => .deferredArrival t.tid k)))) ++
    m.ctx.groups.flatMap groupSteps ++ m.ctx.teams.map (fun t => .teamRetire t.tid) ++ distSteps m.ctx

/-- Does a step change anything now? -/
def changes (i : Instr) (s : State) : Bool :=
  match exec i s with
  | .next t => t != s
  | _ => false

/-- The step of the device that the default takes before any group issues. -/
def dueEvent (s : State) : Option Instr := (dueSteps s).find? (fun i => changes i s)

/-- Does group `a` come before group `b` (R101, R102)? Neither does where both were placed in one cycle with one GROUPID, as
groups of two teams may be: the order of the list decides (DESIGN CHOICE, log 74). -/
def older (a b : Group) : Bool :=
  (a.sched.raised && !b.sched.raised) ||
  (a.sched.raised == b.sched.raised && (a.placed < b.placed || (a.placed == b.placed && a.num < b.num)))

/-- The slot that a group's next word needs (R98): 0 a vector pipe, 1 the vector pipe of FRCP to FCOS, 2 uniform, 3 engine; 4
for a group whose next word is not at hand, or that has a trap to deliver. -/
def Mach.slotOf (m : Mach) (g : Group) : Nat :=
  if m.deliverable g then 4
  else match m.nextWord g with
    | none => 4
    | some i => match i with
      | .frcp _ => 1
      | .frsq _ => 1
      | .fsqrt _ => 1
      | .fexp2 _ => 1
      | .flog2 _ => 1
      | .fsin _ => 1
      | .fcos _ => 1
      | i => match parts i with
        | some (opc, _) => if isVectorOp opc then 0 else if opc / 128 ≤ 1 || opc / 128 == 4 then 2 else 3
        | none => 4

/-- For each slot of each quarter the oldest ready active group whose next word needs it, raised ones first (R102); of
these, which issue in one cycle, the one that has not been selected for longest is first (DESIGN CHOICE, log 1). -/
def Mach.pick (dev : Device) (m : Mach) : Option Nat :=
  let all := (m.ctx.groups.filter (fun g => m.canIssue g && m.isReady dev g)).map (fun g => (m.slotOf g, g))
  let first := all.filter (fun x => all.all (fun y =>
    !(y.1 == x.1 && y.2.core == x.2.core && y.2.quarter == x.2.quarter && older y.2 x.2)))
  (firstBy (fun g => g.sched.readySince.getD m.cyc.toNat) (first.map (·.2))).map (·.gid)

/-- Is it a step of the device, and no word or header that only a group issues? -/
def isEvent (i : Instr) : Bool :=
  match i with
  | .clauseHeaderIssue _ => false
  | i => (parts i).isNone

/-- The turn of a group, when the context in place runs (R383). -/
def groupTurn (s : State) (gid : Nat) : Fetched :=
  if s.dev.ctxst == .running then fetchGroup (s.turn gid) gid else .idle s

/-! ## The host's accesses in order (R36, R382) -/

/-- Is a step an access of the host? -/
def isHostAccess (i : Instr) : Bool :=
  match i with
  | .registerWrite _ _ _ => true
  | .bar2Access _ => true
  | .trigWrite _ => true
  | .graphUpload _ => true
  | .graphRemoval _ => true
  | .hostFlagWrite _ _ => true
  | .queueConsume _ _ => true
  | .faultReplay _ => true
  | .faultAbort _ => true
  | .faultFreeze _ => true
  | .tlbiAll _ => true
  | .tlbiRange _ => true
  | .ctxLoad _ => true
  | .ctxSave => true
  | .ctxTeardown => true
  | .ctxThaw => true
  | .fnrmRequest _ _ => true
  | .attestationRequest _ => true
  | .firmwareUpdate _ => true
  | .tierPortEnable _ _ => true
  | .tierPortDisable _ _ => true
  | .tierClearQuarantine _ _ => true
  | .nycelPortEnable _ _ => true
  | .nycelPortThaw _ _ => true
  | _ => false

/-- The state with an access of the host waiting behind those that wait already; none where it may be performed. A host
access waits behind a posted BAR2 write, a TRIG write also behind another one. -/
def State.waitsBehind (s : State) (i : Instr) : Option State :=
  if isHostAccess i && !s.mach.posted.isEmpty then
    some { s with mach := { s.mach with posted := s.mach.posted ++ [.access i] } }
  else match i with
    | .trigWrite v =>
      if s.mach.ctx.trigs.isEmpty then none
      else some { s with mach := { s.mach with ctx := { s.mach.ctx with trigs := s.mach.ctx.trigs ++ [v] } } }
    | _ => none

/-- The first of the host's waiting accesses is performed; none while it still waits. -/
def State.servePosted (s : State) : Option State :=
  match s.mach.posted with
  | [] => none
  | x :: rest =>
    let alone : State := { s with mach := { s.mach with posted := [] } }
    let back (t : State) : State := { t with mach := { t.mach with posted := rest } }
    let done (r : Host.Outcome State Fault Refusal) : Option State := match r with
      | .next t => if t.mach.posted.isEmpty then some (back t) else none
      | _ => none
    match x with
    | .bar2 a => done (execBar2Access a alone)
    | .access i =>
      match alone.waitsBehind i with
      | some t => some (back t)
      | none => done (exec i alone)

/-- The first of the waiting TRIG writes is processed; none while it still waits. -/
def State.serveTrig (s : State) : Option State :=
  match s.mach.ctx.trigs with
  | [] => none
  | v :: rest =>
    let put (t : State) (l : List Word) : State := { t with mach := { t.mach with ctx := { t.mach.ctx with trigs := l } } }
    match execTrigWrite v (put s []) with
    | .next t => if t.mach.ctx.trigs.isEmpty then some (put t rest) else none
    | _ => none

/-- What a port may do now: its status word that is still due is written, if its home answers; a reply that it does not admit
freezes it; the oldest request of a peer that waits is performed (R390, R392). -/
def State.servePort (s : State) (p : Nat) : Option State :=
  let u := s.mach.nycelUnit p
  let t := nycelWord s p
  if u.wordDue then (if (t.mach.nycelUnit p).wordDue then none else some t)
  else if u.refused then
    let s : State := { s with mach := s.mach.modNycel p (fun u => { u with refused := false }) }
    some (if (s.dev.nycelRegs p).st == .up then freezePort s p else s)
  else servePeer s p

/-- The first port that may do something does it. -/
def State.serveWords (s : State) : Option State := (List.range 16).findSome? s.servePort

/-- One waiting access of the host is performed, if one can be, or what a port has still to do. -/
def State.serveHost (s : State) : Option State :=
  match s.servePosted, (if s.dev.ctxst == .running then s.serveTrig else none) with
  | some t, _ => some t
  | none, some t => some t
  | none, none => s.serveWords

/-- What the next turn brings: the head of the script; with an empty script a step of the device that is
due, else the oldest ready group, else one cycle passes. A waiting access of the host is performed before that, as soon
as it can be, and when cycles have passed. -/
def nextTurn (s : State) : Fetched :=
  match s.mach.script with
  | t :: r =>
    let s : State := { s with mach := { s.mach with script := r } }
    match t with
    | .event i =>
      if isEvent i then (match s.waitsBehind i with
        | some t => .idle t
        | none => .run i s)
      else .idle s
    | .group gid => groupTurn s gid
    | .time n =>
      let t : State := { s with mach := s.mach.tick s.dev n }
      .idle (t.serveHost.getD t)
  | [] =>
    match s.serveHost with
    | some t => .idle t
    | none =>
    match dueEvent s with
    | some i => .run i s
    | none =>
      match s.mach.pick s.dev with
      | some gid => groupTurn s gid
      | none => .idle { s with mach := s.mach.tick s.dev 1 }

end Sys2Proof.Machine
end

