-- ==== Sys2Proof/Machine/Step.lean ====
section
/-!
DEFINITION. One step of the machine, and the state in which a given word is the next instruction.
-/
namespace Sys2Proof.Machine

/-- One step: whose turn it is, what it brings to issue, and that instruction's meaning. -/
def step (s : State) : Host.Outcome State Fault Refusal :=
  if s.dev.powered then
    match nextTurn s with
    | .run i s' => exec i s'
    | .idle s' => .next s'
  else .fault .poweredOff

/-- The state with an instruction of `nbits` bits `w` where step fetches its next instruction (DESIGN CHOICE, log 7). -/
def State.withFetchWord (s : State) (_nbits w : Nat) : State := placeWord s (BitVec.ofNat 64 w)

end Sys2Proof.Machine
end

