-- ==== Sys2Proof/Safety.lean ====
section
/-!
DEFINITION. What counts as a safe run, and the terms in which statements about the machine are made: the start
of a word's issue, what a word leaves as it was, where its run goes on.
-/
namespace Sys2Proof.Machine

/-! ## Safe runs -/

/-- `k` steps of which none stops: a run goes on until the module has powered off (R393). -/
def SafeFor : Nat → State → Prop
  | 0, _ => True
  | k + 1, s => ∃ t, step s = .next t ∧ SafeFor k t

/-! ## A word at issue -/

/-- The word `i` is next in the run whose turn it is, it passes R70's checks, no register that it names is
pending, a lane of its guard is there: `b` holds the issue's context and the machine in which its effect
begins. -/
abbrev Starts (i : Instr) (s : State) (b : Start) : Prop := beginWord i s = .go b

/-- The state in which a word has ended with its run going on, its effect having made the machine `m`. -/
abbrev wordDone (i : Instr) (s : State) (b : Start) (m : Mach) : State := endWord i s b (.ok b.c.run m)

/-- The state in which a word has ended that moved its lanes itself. -/
abbrev wordMoved (i : Instr) (s : State) (b : Start) (m : Mach) : State := endWord i s b (.ok 0 m)

/-! ## What stays as it was -/

/-- A group without what the end of a word's issue changes: its PC table, its clause and co-issued pair, its
waits, its place in the active set, its region counter. -/
def Group.still (g : Group) : Group :=
  { g with lanes := Vector.replicate 32 LanePC.absent, clause := none, pair := none, serve := none, barWaits := [],
           sched := Sched.init 0 false, regcnt := 0 }

/-- What a group keeps beside its general registers, with which of them stand in its register home too, predicates and SATF. -/
def Group.beside (g : Group) : Group :=
  { g.still with v := [], badRegs := [], clean := [], homed := [], s := Vector.replicate 64 0, p := Vector.replicate 12 0,
                 q := Vector.replicate 4 false, satf := false }

/-- The machine without one group's entry and the counters of names and free values. -/
def Mach.besides (m : Mach) (gid : Nat) : Mach :=
  { m with nextId := 0, freeCtr := 0,
           ctx := { m.ctx with groups := m.ctx.groups.filter (fun g => g.gid != gid) } }

/-- Nothing outside one group has changed: no register of the host's, no memory, no request, no operation, no
other group. -/
def SameElsewhere (gid : Nat) (s t : State) : Prop := t.dev = s.dev ∧ t.mach.besides gid = s.mach.besides gid

/-- A tier port without the times at which its staged pages were used and its unanswered request. -/
def TierUnit.sansReads (u : TierUnit) : TierUnit :=
  { u with frames := u.frames.map (fun f => { f with used := 0 }), asked := none }

/-- A cellar without what every access to it changes (R276, R278, R279): idle timers, open rows, their counters, the count of
corrected errors and that of accesses. -/
def CellarUnit.sansReads (u : CellarUnit) : CellarUnit := { CellarUnit.reset with chans := u.chans, badParity := u.badParity }

/-- A Nycel port without the note that a reply has come from a device which it does not admit (R392). -/
def NycelUnit.sansReads (u : NycelUnit) : NycelUnit := { u with refused := false }

/-- The machine without what reads at issue change: the TLBs, the times at which staged pages were used, what an access does
to its cellar, with the log entries of a failed counter parity and an overflowed count, what a reply of a peer's does to its
port, the numbers of free values. -/
def Mach.sansReads (m : Mach) : Mach :=
  { m with tlb := [], tiers := m.tiers.map TierUnit.sansReads, cellars := m.cellars.map CellarUnit.sansReads,
           nycels := m.nycels.map NycelUnit.sansReads,
           logs := m.logs.filter (fun e => e.evt != 1 && e.evt != 7), freeCtr := 0 }

/-- Nothing outside one group has changed but what reads at issue change. -/
def SameButReads (gid : Nat) (s t : State) : Prop :=
  t.dev = s.dev ∧ (t.mach.besides gid).sansReads = (s.mach.besides gid).sansReads

/-- The stored values of a V register by its place in the register home; none where it is not materialised. -/
def Group.vStored (g : Group) (home : Nat) : Option LaneVals := (g.v.find? (fun p => p.1 == home)).map (·.2)

/-- Where a lane of a run stands when its word has issued (R56, R58): at the next word, or at the header after
the clause. -/
def LanePC.onward (p : LanePC) (h : Header) : Nat × Nat :=
  if p.idx ≤ h.cnt.toNat then (p.hdr, p.idx + 1) else (p.hdr + 8 * (h.cnt.toNat + 2), 0)

/-- The run's lanes have gone on past their word; every other lane stands where it stood. -/
def RunOnward (b : Start) (g' : Group) : Prop :=
  ∀ l < 32,
    if b.c.run.has l then
      (g'.lane l).live = (b.g.lane l).live ∧ (g'.lane l).level = (b.g.lane l).level ∧
        ((g'.lane l).hdr, (g'.lane l).idx) = (b.g.lane l).onward b.c.header
    else g'.lane l = b.g.lane l

/-- The places of the V registers that a word marks dead (R116). -/
def deadPlaces (i : Instr) (b : Start) : List Nat :=
  match wordSpec i, parts i with
  | some t, some (_, w) => if b.c.run = b.g.livem then (lastReads t w).map (b.g.base + ·) else []
  | _, _ => []

/-- A WORD HAS RUN that acts on its group alone: the machine goes on, nothing outside the group has changed,
and of the group nothing but its registers, predicates and SATF and the run's advance. -/
def RanInGroup (i : Instr) (s : State) (b : Start) (g' : Group) (t : State) : Prop :=
  exec i s = .next t ∧ SameElsewhere b.g.gid s t ∧ t.mach.group? b.g.gid = some g' ∧
    g'.beside = b.g.beside ∧ RunOnward b g'

/-- Every S register, P register and Q predicate outside three lists is as before. -/
def KeepsSPQ (b : Start) (g' : Group) (ss ps qs : List Nat) : Prop :=
  (∀ n, n ∉ ss → g'.sReg n = b.g.sReg n) ∧ (∀ n, n ∉ ps → g'.pReg n = b.g.pReg n) ∧
    (∀ n, n ∉ qs → g'.qReg n = b.g.qReg n)

/-- Every V register outside a list of places is as before; one that the word marks dead holds nothing. -/
def KeepsV (i : Instr) (b : Start) (g' : Group) (homes : List Nat) : Prop :=
  ∀ h, h ∉ homes → g'.vStored h = if h ∈ deadPlaces i b then none else b.g.vStored h

/-- The places of the V registers that a result of a type fills (R124). -/
def vDest (b : Start) (t : Ty) (d : BitVec 8) : List Nat :=
  if tyWidth t = 64 then [b.g.base + d.toNat, b.g.base + d.toNat + 1] else [b.g.base + d.toNat]

/-- The registers at these places are written in the lanes of Lanes(run): they are materialised, and a lane
outside keeps what it held (R108). -/
def WroteV (i : Instr) (b : Start) (g' : Group) (homes : List Nat) : Prop :=
  ∀ h ∈ homes, ∃ y, g'.vStored h = some y ∧
    ∀ x, b.g.vStored h = some x → h ∉ deadPlaces i b → ∀ l < 32, b.c.lanes.has l = false → vget y l 0 = vget x l 0

/-- The 32 bits of lane `l` of V register `d` of the current frame hold a value. -/
def LaneHolds (b : Start) (g' : Group) (d : BitVec 8) (l : Nat) (x : Slice) : Prop :=
  ∃ y, g'.vStored (b.g.base + d.toNat) = some y ∧ vget y l 0 = x

/-- May a vector word set SATF: VSAT, CVT.sat between integer types, and any other word with SAT = 1 (R123, R178, R196)? -/
def mayClamp (i : Instr) : Bool :=
  match i, parts i with
  | .vsat _, _ => true
  | .cvt w, _ => mSat w.mod && isIN (mTyD w.mod) && isIN ((tyOfCode (bitsAt w.c 0 6)).getD (.bits 32))
  | _, some (_, .g w) => mSat w.mod
  | _, some (_, .i w) => mSat w.mod
  | _, _ => false

/-- No register has changed; a V register that the word marks dead holds nothing. -/
def KeepsRegs (i : Instr) (b : Start) (g' : Group) : Prop :=
  KeepsSPQ b g' [] [] [] ∧ KeepsV i b g' [] ∧ g'.satf = b.g.satf

/-- Of the V registers those at places below `n` are as before, apart from those that the word marks dead; those
from `n` on hold nothing. -/
def KeepsVBelow (i : Instr) (b : Start) (g' : Group) (n : Nat) : Prop :=
  ∀ h, g'.vStored h = if h < n ∧ h ∉ deadPlaces i b then b.g.vStored h else none

/-! ## Words that move lanes (R146 to R161) -/

/-- The lanes of `mask` stand at the headers that `target` says, at the levels that `level` says; the run's other
lanes have gone on; no other lane has moved. -/
def LanesMoved (b : Start) (g' : Group) (mask : Mask) (target level : Nat → Nat) : Prop :=
  ∀ l < 32,
    if mask.has l then
      (g'.lane l).live = (b.g.lane l).live ∧ (g'.lane l).hdr = target l ∧ (g'.lane l).idx = 0 ∧
        (g'.lane l).level = level l
    else if b.c.run.has l then
      (g'.lane l).live = (b.g.lane l).live ∧ (g'.lane l).level = (b.g.lane l).level ∧
        ((g'.lane l).hdr, (g'.lane l).idx) = (b.g.lane l).onward b.c.header
    else g'.lane l = b.g.lane l

/-- A WORD HAS MOVED LANES at their level: beside the PC table nothing of the group has changed, and elsewhere
nothing but what the reads of the targets change. -/
def MovedLanes (i : Instr) (s : State) (b : Start) (mask : Mask) (target : Nat → Nat) : Prop :=
  ∃ t g', exec i s = .next t ∧ SameButReads b.g.gid s t ∧ t.mach.group? b.g.gid = some g' ∧
    g'.beside = b.g.beside ∧ KeepsRegs i b g' ∧ LanesMoved b g' mask target (fun l => (b.g.lane l).level)

/-- THE EXCEPTION `tr` HAS BEEN RAISED for the group that stood as `g` and stands as `g'` (R361, R376): it is
queued, or waits outside a full queue; in a kernel without a handler, or raised by the handler's own word, it has
frozen the group, and a freeze record says why. -/
def TrapRaised (s t : State) (g g' : Group) (tr : Trap) : Prop :=
  let frozen (why : Nat) : Prop := g'.frozen = some why ∧ g'.traps = g.traps ∧ g'.trapsOut = g.trapsOut ∧
    ∃ r, t.mach.freezes = s.mach.freezes ++ [r] ∧ r.why = why ∧ r.cause = tr.cause ∧ r.off = tr.off ∧ r.gslot = g.slot
  let own : Bool := tr.byHandler || (match g.handling with
    | some h => h.seq ≤ tr.seq
    | none => false)
  if ((s.mach.gridOfGroup? g).map (·.hdr.hv)).getD false = false then frozen 2
  else if own = true then frozen 3
  else
    g'.frozen = g.frozen ∧ t.mach.freezes = s.mach.freezes ∧
      if g.traps.length < 8 ∧ g.trapsOut = [] then g'.traps = g.traps ++ [tr] ∧ g'.trapsOut = []
      else g'.traps = g.traps ∧ g'.trapsOut = g.trapsOut ++ [tr]

/-- A link record without the count of reserved registers. -/
def Link.bare (k : Link) : Link := { k with held := 0 }

/-- Lanes have left to a level or exited: the frames above `top` are gone with their registers, every other link
record and register is as it was. -/
def FramesLeft (i : Instr) (b : Start) (g' : Group) (top : Nat) : Prop :=
  KeepsSPQ b g' [] [] [] ∧ g'.satf = b.g.satf ∧
    g'.links.map Link.bare = (b.g.links.map Link.bare).take (top + 1) ∧
    if top + 1 < b.g.links.length then KeepsVBelow i b g' ((b.g.link top).base + (b.g.link top).dem)
    else KeepsV i b g' []

/-! ## Words that issue an operation (R109 to R112) -/

/-- What a group keeps when a word of it issues an operation. -/
def Group.besideIssue (g : Group) : Group :=
  { g.beside with
    marks := [], k := Vector.replicate 12 0, tx := Vector.replicate 32 LaneTx.init, ownWait := none, ownAt := none }

/-- The machine without one group's entry, its operations, the owners of lines, and the counters of names and
free values. -/
def Mach.besidesOps (m : Mach) (gid : Nat) : Mach :=
  let m := m.besides gid
  { m with own := [], ctx := { m.ctx with ops := [] } }

/-- No acquire of the group is outstanding (R340), and the flag of the word has room (R110). -/
def MayIssue (b : Start) : Prop :=
  b.m.acquiring b.g.gid = false ∧ ∀ k, b.c.flag = some k → b.g.flagCount k ≠ 63

/-- The operation stands as its word issued it: running, no unit done, with the word's group, lanes and flag. -/
def IssuedBy (o : Op) (i : Instr) (b : Start) : Prop :=
  o.instr = i ∧ o.gid = b.g.gid ∧ o.team = b.g.team ∧ o.core = b.g.core ∧ o.mask = b.c.lanes ∧ o.off = b.c.off ∧
    o.flag = b.c.flag ∧ o.st = .running ∧ o.pix = 0

/-- The open transactions of the lanes of Lanes(run) are doomed with INSTR (R355); every other one is as it was. -/
def TxDoomed (b : Start) (g' : Group) : Prop := ∀ l < 32, g'.txOf l = (b.g.doom b.c.lanes 6).txOf l

/-- What the issue of an operation leaves in its group: the flag of the word has risen by one, its destination
registers carry the operation's marks, the lanes' open transactions are doomed, the S registers `ss` may have been
written and the V registers at the places `vs` be dead; nothing else has changed, and the run has gone on. -/
def GroupIssued (i : Instr) (b : Start) (o : Op) (marks : List Reg) (ss vs : List Nat) (g' : Group) : Prop :=
  g'.besideIssue = b.g.besideIssue ∧ KeepsSPQ b g' ss [] [] ∧ KeepsV i b g' vs ∧ g'.satf = b.g.satf ∧
    RunOnward b g' ∧ g'.marks = b.g.marks ++ marks.map (fun r => (o.id, r)) ∧
    (∀ k < 12, g'.flagCount k = b.g.flagCount k + if b.c.flag = some k then 1 else 0) ∧ TxDoomed b g'

/-- A WORD HAS ISSUED AN OPERATION: the machine goes on with it as the last of the operations, `lines` have become
its own and no other line has changed owner; beside its group nothing has changed, no byte of memory either. -/
def IssuedOp (i : Instr) (s : State) (b : Start) (o : Op) (marks : List Reg) (ss : List Nat) (lines : List Line)
    (t : State) : Prop :=
  exec i s = .next t ∧ t.dev = s.dev ∧ t.mach.ctx.ops = s.mach.ctx.ops ++ [o] ∧ IssuedBy o i b ∧
    (t.mach.besidesOps b.g.gid).sansReads = (s.mach.besidesOps b.g.gid).sansReads ∧
    (∀ l, t.mach.ownerOf l = if l ∈ lines then some o.id else s.mach.ownerOf l) ∧
    ∃ g', t.mach.group? b.g.gid = some g' ∧ GroupIssued i b o marks ss [] g'

/-- Every line is free, with no access before it that has still to be performed, or is one that this word, waiting here
before, has taken already (R78, R219); and no scatter of the group has lanes to send (R335). -/
def FreeLines (b : Start) (lines : List Line) : Prop :=
  b.m.scattering b.c.gid = false ∧
    ∀ l ∈ lines, (b.m.ownerOf l = none ∧ b.m.lineBusy l = false) ∨
      ∃ id, b.g.ownWait = some id ∧ b.m.ownerOf l = some id

/-- A WORD OF CLASSES 101 TO 111 HAS RUN that acts on its group alone. -/
def RanBesideTx (i : Instr) (s : State) (b : Start) (g' : Group) (t : State) : Prop :=
  exec i s = .next t ∧ SameElsewhere b.g.gid s t ∧ t.mach.group? b.g.gid = some g' ∧
    { g' with tx := b.g.tx }.beside = b.g.beside ∧ RunOnward b g' ∧ TxDoomed b g'

/-! ## Memory -/

/-- Two locations name one byte of one store. -/
def SameByte (x y : Loc) : Prop :=
  storeAddr x = storeAddr y ∧ (match x.space, y.space with
    | .core _, .core _ => True
    | a, b => a = b)

/-- A location is outside `n` bytes from another on. -/
def Outside (x l : Loc) (n : Nat) : Prop := ∀ k < n, ¬ SameByte x (l.add k)

/-- A LOAD, STORE OR ATOMIC HAS ISSUED with the requests `ps`: they are the last of the machine's requests, of the
operation and not performed; beside its group and the bytes of memory nothing else has changed. -/
def IssuedRequests (i : Instr) (s : State) (b : Start) (o : Op) (marks : List Reg) (vs : List Nat) (ps : List Pkt)
    (t : State) : Prop :=
  exec i s = .next t ∧ t.dev = s.dev ∧ t.mach.ctx.ops = s.mach.ctx.ops ++ [o] ∧ IssuedBy o i b ∧
    t.mach.net = s.mach.net ++ ps ∧ (∀ p ∈ ps, p.op = o.id ∧ p.core = b.g.core ∧ p.performed = false) ∧
    ({ t.mach with mem := s.mach.mem, net := [] }.besidesOps b.g.gid).sansReads =
      ({ s.mach with net := [] }.besidesOps b.g.gid).sansReads ∧
    (∀ l, t.mach.ownerOf l = s.mach.ownerOf l) ∧
    ∃ g', t.mach.group? b.g.gid = some g' ∧ GroupIssued i b o marks [] vs g'

/-- No lane of Lanes(run) has an open transaction. -/
def NoTx (b : Start) : Prop := ∀ l < 32, b.c.lanes.has l = true → (b.g.txOf l).act = false

/-- The accesses of `n` bytes lie inside their core stores (R209), in lines that no operation owns and that hold no
uncorrectable error. -/
def FreeAndSound (b : Start) (n : Nat) (rs : List LaneRef) : Prop :=
  ∀ r ∈ rs, r.2.2.addr + n ≤ 1048576 ∧ ∀ k ∈ linesOf r.2.2 n,
    b.m.ownerOf k = none ∧ b.m.mem.poisoned { space := k.space, addr := k.index * 64 } = false

/-- No operation owns a line of the accesses of `n` bytes (R79), and no lane that an earlier scatter of the group has still to
send touches their bytes (R335). -/
def NotHeld (m : Mach) (b : Start) (n : Nat) (rs : List LaneRef) : Prop :=
  ∀ r ∈ rs, (∀ k ∈ linesOf r.2.2 n, m.ownerOf k = none) ∧ m.unsentMeets b.c.dev b.c.gid b.c.seq r.2.2 n = false

/-- A release has no lanes of an earlier scatter of the group before it (R340). -/
def ReleaseSent (b : Start) (ord : Nat) : Prop := ord < 2 ∨ b.m.scattering b.c.gid = false

/-- An access to a core store has nothing to wait for that a release orders before it (R340). -/
def ReleaseFree (b : Start) (ord scp : Nat) : Prop :=
  ord < 2 ∨ scp < 2 ∨ b.m.before b.c.gid b.c.g.core = []

/-! ## Exceptions of a word's encoding -/

/-- A word that its clause's class admits, and that is no misplaced transfer, raises ILLEGAL_ENCODING (R70 order 4)
and has no effect. -/
def RaisesEncoding (i : Instr) : Prop :=
  ∀ (s : State) (g : Group) (run : Mask) (p : LanePC) (cl : Clause) (opc : Nat) (w : AnyWord),
    wordAtIssue s = some (g, run, p, cl) → parts i = some (opc, w) → admits cl.header.ecls opc = true →
    (isTransfer opc = true → p.idx = cl.header.cnt.toNat + 1) →
    ∃ t g' tr, exec i s = .next t ∧ t.dev = s.dev ∧ t.mach.mem = s.mach.mem ∧ t.mach.group? g.gid = some g' ∧
      TrapRaised s t g g' tr ∧ tr.cause = 2 ∧ tr.kind = .w ∧ tr.mask = run ∧ tr.off = p.hdr + 8 * p.idx ∧
      g'.lanes = g.lanes ∧ g'.s = g.s ∧ g'.p = g.p ∧ g'.q = g.q ∧ g'.v = g.v

/-! ## What an operation owes (R109, R111) -/

/-- The value that an operation's last owed write has for lane `l` of the V register at a place of the home; none where the
register's frame has been released (R156). -/
def Op.owedV (o : Op) (home l : Nat) : Option Slice :=
  if o.gone.contains home then none else
  (o.writes.reverse.find? (fun w => w.reg == .v home && w.mask.has l)).map (fun w => vget w.vals l 0)

/-- The value that an operation's last owed write has for S register `n`. -/
def Op.owedS (o : Op) (n : Nat) : Option Word := (o.writes.reverse.find? (fun w => w.reg == .s n)).map (·.word)

/-- The bit that an operation's last owed write has for lane `l` of P register `n`. -/
def Op.owedP (o : Op) (n l : Nat) : Option Bool :=
  (o.writes.reverse.find? (fun w => w.reg == .p n && w.mask.has l)).map (fun w => vget w.vals l 0 != 0)

/-! ## Steps of the device -/

/-- Some lane of an operation other than `l` has no result yet. -/
def OthersOpen (o : Op) (l : Nat) : Prop := ∃ k < 32, k ≠ l ∧ o.mask.has k = true ∧ o.laneDone k = false

/-- One value owed to one lane of the V register `reg` of the operation's frame. -/
def Op.laneWrite (o : Op) (reg l x : Nat) : RegWrite :=
  { reg := .v (o.base + reg), mask := Mask.one l, vals := laneFn (fun _ => x), word := 0 }

/-- Beside one operation nothing has changed but memory, what reads and writes at homes change, and cellars. -/
def OpStep (id : Nat) (s t : State) : Prop :=
  t.dev = s.dev ∧ t.mach.ctx.groups = s.mach.ctx.groups ∧ t.mach.net = s.mach.net ∧
    t.mach.ctx.ops.filter (fun o => o.id != id) = s.mach.ctx.ops.filter (fun o => o.id != id)

/-- NOTHING HINDERS AN OPERATION at the core stores: it runs; no request of its core, nor one to a die store, is still on its
way, and its group's scatters have sent their lanes; no other operation owns a line. -/
def Unhindered (s : State) (o : Op) : Prop :=
  o.st = .running ∧ (∀ p ∈ s.mach.net, p.performed = true ∨ (p.core ≠ o.core ∧ p.loc.space = .hbm)) ∧
    s.mach.unsentBytes s.dev o.gid o.seq = [] ∧ ∀ x ∈ s.mach.own, x.2 = o.id

/-- `n` bytes from a location on lie in a core store, in lines without an uncorrectable error. -/
def SoundAt (m : Mach) (l : Loc) (n : Nat) : Prop := isNear l = true ∧ ∀ k < n, m.mem.poisoned (l.add k) = false

/-- A place is served at once: no request is still to be performed, and the channels of its `n` bytes serve (R274, R283). -/
def ServedNow (s : State) (l : Loc) (n : Nat) : Prop :=
  (∀ q ∈ s.mach.net, q.performed = true) ∧ ∀ k < n, s.mach.cellarOpen (l.add k) = true

/-- Every place is served at once: no request is still to be performed (R272, R274), every channel serves (R283), and no
expander is silent (R390) nor any port's status word due (R392). -/
def AllServed (s : State) : Prop :=
  (∀ q ∈ s.mach.net, q.performed = true) ∧ ∀ l, s.mach.cellarOpen l = true ∧ served s.dev s.mach l ≠ .silent

/-- The context in place without the bytes that a running grid's const section has held (R20), of which a write to the
section keeps the one that it replaces. -/
def Ctx.sansOld (c : Ctx) : Ctx := { c with grids := c.grids.map (fun g => { g with old := [] }) }

/-- An operation has performed one element, and others remain. -/
def ElemDone (o : Op) (s t : State) : Prop := OpStep o.id s t ∧ t.mach.op? o.id = some { o with pix := o.pix + 1 }

/-- The bytes from a location on have become those of a list, and no other byte of memory has changed. -/
def BytesPut (s t : State) (l : Loc) (bs : List Byte) : Prop :=
  (∀ k < bs.length, t.mach.mem.get (l.add k) = bs.getD k 0) ∧
    ∀ y, Outside y l bs.length → t.mach.mem.get y = s.mach.mem.get y

/-- Lane `l` of the V register `d` of an operation's frame holds a value. -/
def OpLane (o : Op) (g : Group) (d l x : Nat) : Prop :=
  ∃ y, g.vStored (o.base + d) = some y ∧ vget y l 0 = BitVec.ofNat 32 x

/-- One group alone has changed: it stands as `g'`. -/
def GroupStep (gid : Nat) (s t : State) (g' : Group) : Prop := SameElsewhere gid s t ∧ t.mach.group? gid = some g'

/-- Frames have been taken: of no group anything else has changed but how many of its frames' registers are reserved,
never more than before, which registers stand in the home, and its places in the active set and among the blocked
groups. -/
def FramesTaken (s t : State) : Prop :=
  t.dev = s.dev ∧ ∀ gid g, s.mach.group? gid = some g →
    ∃ g', t.mach.group? gid = some g' ∧ { g' with links := g.links, sched := g.sched, clean := g.clean, homed := g.homed } = g ∧
      g'.links.map Link.bare = g.links.map Link.bare ∧ ∀ lv, (g'.link lv).held ≤ (g.link lv).held

/-- No two groups bear one name. -/
def NamesDiffer (s : State) : Prop := (s.mach.ctx.groups.map (·.gid)).Nodup

/-- The instance of a node keeps a state for it. -/
def NodeKept (c : Ctx) (r : InstRef) (i : Nat) : Prop :=
  match r with
  | .graph n => ∃ g x, c.graph? n = some g ∧ g.current = some x ∧ i < x.nodes.length
  | .detached _ => True

/-- A node stands in a state. -/
def NodeIs (c : Ctx) (r : InstRef) (i : Nat) (st : NodeSt) : Prop := ∃ p, c.placed? r i = some p ∧ p.st = st

/-- Where a status word's address is 0 nothing is written; else the word has been written. -/
def WordWritten (dev : Device) (m : Mach) (va n x : Nat) (m' : Mach) : Prop :=
  (va = 0 ∧ m' = m) ∨ (va ≠ 0 ∧ distWrite dev m va n x = some m')

/-! ## What the host's writes keep (R273, R383, R386, R388) -/

/-- The limits that the spec sets to fields of the host's registers, whatever is written to them. -/
def HostLimits (s : State) : Prop :=
  (∀ q < 3, let n := (vget s.dev.queues q Queue.reset).size.toNat
    n = 0 ∨ ∃ k, 4 ≤ k ∧ k ≤ 16 ∧ n = 2 ^ k) ∧
  (∀ k < 8, let c := vget s.dev.cellars k CellarRegs.reset
    256 ≤ c.ath.toNat ∧ c.ath.toNat ≤ 16383) ∧
  (1 ≤ s.dev.rmax.toNat ∧ s.dev.rmax.toNat ≤ 1048576) ∧
  (∀ k < 2, let r := vget s.dev.tiers k TierRegs.reset
    1 ≤ r.tto.toNat ∧ r.cap.toNat ≤ 33554432) ∧
  s.dev.rtgt.toNat ≤ 1 ∧ s.dev.w2tgt ≠ 3 ∧ s.dev.gstep.toNat ≤ 4

end Sys2Proof.Machine
end

