-- ==== Sys2Proof/Certificates/Slice0/Obligations.lean ====
section
/-!
DEFINITION. The statements about the MB9 that are to be proved.
-/
open Sys2Proof Sys2Proof.Machine

/-! ## Uniform words (R113, R166 to R176) -/

/-- R113, R166: a uniform word whose Lanes(run) is not empty executes once. It writes the S register that its D names
and nothing else: every other S register, every P, Q and V register, SATF and every byte of memory are as before, and
its run goes on. R168, R176: SCMP, QAND, QOR and QNOT execute once and write Q[D] alone: the outcome of the compare by
the type's order, or the logical result of two predicates. Every S and P register, every other Q, every V register and
SATF are as before. -/
def Obligations.UniformWordsWriteOneRegister : Prop :=
  (∀ (s : State) (b : Start),
     (∀ w : WordG, ∀ i ∈ [Instr.sadd w, .ssub w, .smul w, .smulh w, .smad w, .sand w, .sor w, .sxor w, .snot w,
         .sshl w, .sshr w, .smin w, .smax w, .ssel w, .smov w, .sbfe w, .sbfi w, .spopc w, .sclz w, .vred w, .pcount w],
       Starts i s b → ∃ t g', RanInGroup i s b g' t ∧ KeepsSPQ b g' [w.d.toNat - 192] [] [] ∧ KeepsV i b g' [] ∧
         g'.satf = b.g.satf) ∧
     (∀ w : WordI, ∀ i ∈ [Instr.saddI w, .ssubI w, .smulI w, .sandI w, .sorI w, .sxorI w, .sshlI w, .sshrI w,
         .sminI w, .smaxI w],
       Starts i s b → ∃ t g', RanInGroup i s b g' t ∧ KeepsSPQ b g' [w.d.toNat - 192] [] [] ∧ KeepsV i b g' [] ∧
         g'.satf = b.g.satf) ∧
     (∀ w : WordL, Starts (.smovi w) s b →
       ∃ t g', RanInGroup (.smovi w) s b g' t ∧ KeepsSPQ b g' [w.d.toNat - 192] [] [] ∧ KeepsV (.smovi w) b g' [] ∧
         g'.satf = b.g.satf)) ∧
  (∀ (s : State) (b : Start),
     (∀ (w : WordG) (i : Instr) (x : Bool),
       (i, x) ∈ [(Instr.scmp w, cmpInt (mTyD w.mod) (mRnd w.mod) (s64 b.c w.a) (s64 b.c w.b)),
         (.qand w, b.c.g.qReg w.a.toNat && b.c.g.qReg w.b.toNat),
         (.qor w, b.c.g.qReg w.a.toNat || b.c.g.qReg w.b.toNat), (.qnot w, !b.c.g.qReg w.a.toNat)] →
       Starts i s b → w.d.toNat < 4 →
         ∃ t g', RanInGroup i s b g' t ∧ KeepsSPQ b g' [] [] [w.d.toNat] ∧ KeepsV i b g' [] ∧ g'.satf = b.g.satf ∧
           g'.qReg w.d.toNat = x) ∧
     (∀ w : WordI, Starts (.scmpI w) s b → w.d.toNat < 4 →
       ∃ t g', RanInGroup (.scmpI w) s b g' t ∧ KeepsSPQ b g' [] [] [w.d.toNat] ∧ KeepsV (.scmpI w) b g' [] ∧
         g'.satf = b.g.satf ∧
         g'.qReg w.d.toNat = cmpInt (mTyD w.mod) (mRnd w.mod) (s64 b.c w.a) (immBits (mTyD w.mod) w.imm)))

/-- R166, R167, R124: SADD, SSUB and SMUL without .sat keep the low N bits of the exact result, and the result is
extended to the S register: of a 64-bit type it is the sum, difference or product modulo 2^64; of .i32 the low 32 bits
sign-extended; of .n32 the low 32 bits zero-extended. R167, R166: SSHL and SSHR read their count as all 64 bits of B,
whatever the type, and zero-extend it in the I form. Of .i64, .n64 and .b64: a count of 64 or more leaves 0, or all
sign bits for SSHR.i64; a lower count shifts. -/
def Obligations.UniformArithmeticWraps : Prop :=
  (∀ (w : WordG) (s : State) (b : Start), mSat w.mod = false →
     (∀ (i : Instr) (x : Word),
       (i, x) ∈ [(Instr.sadd w, fieldS b.c.g w.a + fieldS b.c.g w.b), (.ssub w, fieldS b.c.g w.a - fieldS b.c.g w.b),
         (.smul w, fieldS b.c.g w.a * fieldS b.c.g w.b)] →
       192 ≤ w.d.toNat → Starts i s b →
         ∃ t g', exec i s = .next t ∧ t.mach.group? b.g.gid = some g' ∧
           (mTyD w.mod = .int 64 ∨ mTyD w.mod = .nat 64 → g'.sReg (w.d.toNat - 192) = x) ∧
           (mTyD w.mod = .int 32 → g'.sReg (w.d.toNat - 192) = (x.setWidth 32).signExtend 64) ∧
           (mTyD w.mod = .nat 32 → g'.sReg (w.d.toNat - 192) = (x.setWidth 32).setWidth 64))) ∧
  (∀ (s : State) (b : Start),
     (∀ w : WordG, 192 ≤ w.d.toNat → mTyD w.mod ∈ [Ty.int 64, .nat 64, .bits 64] →
       (Starts (.sshl w) s b → ∃ t g', exec (.sshl w) s = .next t ∧ t.mach.group? b.g.gid = some g' ∧
         g'.sReg (w.d.toNat - 192) = fieldS b.c.g w.a <<< (fieldS b.c.g w.b).toNat) ∧
       (Starts (.sshr w) s b → ∃ t g', exec (.sshr w) s = .next t ∧ t.mach.group? b.g.gid = some g' ∧
         g'.sReg (w.d.toNat - 192) =
           if mTyD w.mod = .int 64 then (fieldS b.c.g w.a).sshiftRight (fieldS b.c.g w.b).toNat
           else fieldS b.c.g w.a >>> (fieldS b.c.g w.b).toNat)) ∧
     (∀ w : WordI, 192 ≤ w.d.toNat → mTyD w.mod ∈ [Ty.int 64, .nat 64, .bits 64] →
       (Starts (.sshlI w) s b → ∃ t g', exec (.sshlI w) s = .next t ∧ t.mach.group? b.g.gid = some g' ∧
         g'.sReg (w.d.toNat - 192) = fieldS b.c.g w.a <<< w.imm.toNat) ∧
       (Starts (.sshrI w) s b → ∃ t g', exec (.sshrI w) s = .next t ∧ t.mach.group? b.g.gid = some g' ∧
         g'.sReg (w.d.toNat - 192) =
           if mTyD w.mod = .int 64 then (fieldS b.c.g w.a).sshiftRight w.imm.toNat
           else fieldS b.c.g w.a >>> w.imm.toNat)))

/-- R171: SADDR writes A + B × 2^SH + C modulo 2^64, and Q3 is 1 exactly when the exact sum reaches 2^64 or the
result has a bit above bit 55. It writes nothing else. A shift above 16 and any type but .n64 raise ILLEGAL_ENCODING. -/
def Obligations.SaddrChecksItsSum : Prop :=
  (∀ (w : WordG) (s : State) (b : Start), 192 ≤ w.d.toNat → Starts (.saddr w) s b →
    ∃ t g', RanInGroup (.saddr w) s b g' t ∧ KeepsSPQ b g' [w.d.toNat - 192] [] [3] ∧ KeepsV (.saddr w) b g' [] ∧
      g'.satf = b.g.satf ∧
      (let x := (fieldS b.c.g w.a).toNat + (fieldS b.c.g w.b).toNat * 2 ^ (w.mod.toNat / 64) + (fieldS b.c.g w.c).toNat
       g'.sReg (w.d.toNat - 192) = BitVec.ofNat 64 x ∧
        (g'.qReg 3 = true ↔ 2 ^ 64 ≤ x ∨ (BitVec.ofNat 64 x).extractLsb' 56 8 ≠ 0))) ∧
    ∀ w : WordG, w.mod.toNat % 64 ≠ 7 ∨ 16 < w.mod.toNat / 64 → RaisesEncoding (.saddr w)

/-- R200, R204, R205: VOTE writes the ballot of a predicate over Lanes(run), or whether some or every lane of
Lanes(run) has it; VTOS writes the lowest lane's value, or a named lane's with Q3 clear, or zero with Q3 set. -/
def Obligations.VoteAndVtosAnswer : Prop :=
  ∀ (w : WordG) (s : State) (b : Start),
    (Starts (.vote w) s b →
      (mOpx w.mod = 0 → 192 ≤ w.d.toNat → ∃ t g', RanInGroup (.vote w) s b g' t ∧
        KeepsSPQ b g' [w.d.toNat - 192] [] [] ∧ KeepsV (.vote w) b g' [] ∧ g'.satf = b.g.satf ∧
        ∀ l < 64, (g'.sReg (w.d.toNat - 192)).getLsbD l =
          (decide (l < 32) && b.c.lanes.getLsbD l && (b.c.g.pReg w.a.toNat).getLsbD l)) ∧
      (mOpx w.mod = 1 → w.d.toNat < 4 → ∃ t g', RanInGroup (.vote w) s b g' t ∧
        KeepsSPQ b g' [] [] [w.d.toNat] ∧ KeepsV (.vote w) b g' [] ∧ g'.satf = b.g.satf ∧
        (g'.qReg w.d.toNat = true ↔ ∃ l < 32, b.c.lanes.getLsbD l = true ∧ (b.c.g.pReg w.a.toNat).getLsbD l = true)) ∧
      (mOpx w.mod = 2 → w.d.toNat < 4 → ∃ t g', RanInGroup (.vote w) s b g' t ∧
        KeepsSPQ b g' [] [] [w.d.toNat] ∧ KeepsV (.vote w) b g' [] ∧ g'.satf = b.g.satf ∧
        (g'.qReg w.d.toNat = true ↔ ∀ l < 32, b.c.lanes.getLsbD l = true → (b.c.g.pReg w.a.toNat).getLsbD l = true))) ∧
    (Starts (.vtos w) s b → 192 ≤ w.d.toNat →
      ∃ t g', RanInGroup (.vtos w) s b g' t ∧ KeepsSPQ b g' [w.d.toNat - 192] [] [3] ∧ KeepsV (.vtos w) b g' [] ∧
        g'.satf = b.g.satf ∧
        (mBit w.mod 6 = false → g'.qReg 3 = b.g.qReg 3 ∧
          g'.sReg (w.d.toNat - 192) = BitVec.ofNat 64 (srcTy b.c b.c.g (mTyD w.mod) w.a (firstLane b.c.lanes))) ∧
        (mBit w.mod 6 = true →
          let n := (fieldS b.c.g w.b).toNat
          if n < 32 ∧ b.c.lanes.has n = true then
            g'.qReg 3 = false ∧ g'.sReg (w.d.toNat - 192) = BitVec.ofNat 64 (srcTy b.c b.c.g (mTyD w.mod) w.a n)
          else g'.qReg 3 = true ∧ g'.sReg (w.d.toNat - 192) = 0))

/-! ## Vector words (R173, R177 to R205) -/

/-- R108, R173, R174, R181, R193: a word that writes one vector predicate writes its bit in each lane of Lanes(run)
and keeps every other bit of it, every other predicate, every register and SATF. PAND, POR, PXOR and PNOT write the
logical result; the compares write the outcome by the type's order. R108, R177, R178: a vector word that takes its
whole effect at issue writes the register, or for a 64-bit type the pair, that its D names, in the lanes of Lanes(run)
alone; every other register and predicate, and every byte of memory, is as before, and its run goes on. SATF is never
cleared, and only a clamping word may set it: VSAT, CVT.sat between integer types, and the other integer words with .sat.
Of every other word SATF is as before. -/
def Obligations.VectorWordsWriteTheirLanes : Prop :=
  (∀ (s : State) (b : Start),
     (∀ (w : WordG) (i : Instr) (f : Nat → Bool),
       (i = .pand w ∧ f = fun l => (b.c.g.pReg w.a.toNat).has l && (b.c.g.pReg w.b.toNat).has l) ∨
       (i = .por w ∧ f = fun l => (b.c.g.pReg w.a.toNat).has l || (b.c.g.pReg w.b.toNat).has l) ∨
       (i = .pxor w ∧ f = fun l => xor ((b.c.g.pReg w.a.toNat).has l) ((b.c.g.pReg w.b.toNat).has l)) ∨
       (i = .pnot w ∧ f = fun l => !(b.c.g.pReg w.a.toNat).has l) ∨
       (i = .pmovv w ∧ f = fun l => if mOpx w.mod = 0 then src32 b.c b.c.g w.a l != 0 else
         (src32 b.c b.c.g w.a l).testBit l) ∨
       (i = .vcmp w ∧ f = fun l => cmpInt (mTyD w.mod) (mRnd w.mod) (srcTy b.c b.c.g (mTyD w.mod) w.a l)
         (srcTy b.c b.c.g (mTyD w.mod) w.b l)) ∨
       (i = .fcmp w ∧ f = fun l => cmpFloat (fmtOf (mTyD w.mod)) (mRnd w.mod) (src32 b.c b.c.g w.a l)
         (src32 b.c b.c.g w.b l)) →
       w.d.toNat < 12 → Starts i s b →
         ∃ t g', RanInGroup i s b g' t ∧ KeepsSPQ b g' [] [w.d.toNat] [] ∧ KeepsV i b g' [] ∧ g'.satf = b.g.satf ∧
           ∀ l < 32, (g'.pReg w.d.toNat).has l = if b.c.lanes.has l then f l else (b.g.pReg w.d.toNat).has l) ∧
     (∀ (w : WordI) (i : Instr) (f : Nat → Bool),
       (i = .vcmpI w ∧ f = fun l => cmpInt (mTyD w.mod) (mRnd w.mod) (srcTy b.c b.c.g (mTyD w.mod) w.a l)
         (immBits (mTyD w.mod) w.imm)) ∨
       (i = .fcmpI w ∧ f = fun l => cmpFloat (fmtOf (mTyD w.mod)) (mRnd w.mod) (src32 b.c b.c.g w.a l)
         (immFloat (mTyD w.mod) w.imm)) →
       w.d.toNat < 12 → Starts i s b →
         ∃ t g', RanInGroup i s b g' t ∧ KeepsSPQ b g' [] [w.d.toNat] [] ∧ KeepsV i b g' [] ∧ g'.satf = b.g.satf ∧
           ∀ l < 32, (g'.pReg w.d.toNat).has l = if b.c.lanes.has l then f l else (b.g.pReg w.d.toNat).has l)) ∧
  (∀ (s : State) (b : Start),
     (∀ (w : WordG) (i : Instr) (t : Ty),
       (i ∈ [Instr.vadd w, .vsub w, .vmul w, .vmulh w, .vmad w, .vmin w, .vmax w, .vabs w, .vneg w, .vand w, .vor w,
           .vxor w, .vnot w, .vshl w, .vshr w, .vshrr w, .vbfe w, .vbfi w, .vsel w, .vdot2 w, .vdot4 w, .vsat w,
           .vunpack w, .cvt w] ∧ t = mTyD w.mod) ∨
       (i ∈ [Instr.vpopc w, .vclz w] ∧ t = .nat 32) ∨ (i = .vpack w ∧ t = .bits 32) →
       Starts i s b → ∃ u g', RanInGroup i s b g' u ∧ KeepsSPQ b g' [] [] [] ∧ KeepsV i b g' (vDest b t w.d) ∧
         WroteV i b g' (vDest b t w.d) ∧ (b.g.satf = true → g'.satf = true) ∧
         (mayClamp i = false → g'.satf = b.g.satf)) ∧
     (∀ (w : WordI) (i : Instr),
       i ∈ [Instr.vaddI w, .vsubI w, .vmulI w, .vminI w, .vmaxI w, .vandI w, .vorI w, .vxorI w, .vshlI w, .vshrI w,
           .vshrrI w] →
       Starts i s b → ∃ u g', RanInGroup i s b g' u ∧ KeepsSPQ b g' [] [] [] ∧
         KeepsV i b g' (vDest b (mTyD w.mod) w.d) ∧ WroteV i b g' (vDest b (mTyD w.mod) w.d) ∧
         (b.g.satf = true → g'.satf = true) ∧ (mayClamp i = false → g'.satf = b.g.satf)) ∧
     (∀ (w : WordG) (i : Instr) (t : Ty),
       (i ∈ [Instr.fadd w, .fsub w, .fmul w, .ffma w, .fmin w, .fmax w, .frnd w, .frcp w, .frsq w, .fsqrt w, .fexp2 w,
           .flog2 w, .fsin w, .fcos w, .hadd2 w, .hmul2 w, .hfma2 w, .hmin2 w, .hmax2 w, .shfl w, .slide w, .vscan w,
           .stov w] ∧ t = mTyD w.mod) ∨
       (i ∈ [Instr.vconflict w, .vmovp w] ∧ t = .bits 32) ∨ (i = .tstat w ∧ t = .nat 32) →
       Starts i s b → ∃ u g', RanInGroup i s b g' u ∧ KeepsSPQ b g' [] [] [] ∧ KeepsV i b g' (vDest b t w.d) ∧
         WroteV i b g' (vDest b t w.d) ∧ g'.satf = b.g.satf) ∧
     (∀ (w : WordI) (i : Instr), i ∈ [Instr.faddI w, .fmulI w, .fminI w, .fmaxI w] →
       Starts i s b → ∃ u g', RanInGroup i s b g' u ∧ KeepsSPQ b g' [] [] [] ∧
         KeepsV i b g' (vDest b (mTyD w.mod) w.d) ∧ WroteV i b g' (vDest b (mTyD w.mod) w.d) ∧ g'.satf = b.g.satf))

/-- R180: VADD, VSUB and VMUL of a 32-bit type without .sat write, in each lane of Lanes(run), the sum, difference or
product of the lane's sources modulo 2^32, and leave SATF as it is. R123, R178, R180: VADD.sat.i32 writes the exact
sum of the sources clamped to −2^31 to 2^31 − 1, and SATF is afterwards 1 exactly when it was 1 or the clamp changed
the value in some lane of Lanes(run). -/
def Obligations.VectorSumsWrapOrSaturate : Prop :=
  (∀ (w : WordG) (s : State) (b : Start), mTyD w.mod ∈ [Ty.int 32, .nat 32] → mSat w.mod = false →
     ∀ (i : Instr) (f : Slice → Slice → Slice),
       (i = .vadd w ∧ f = fun x y => x + y) ∨ (i = .vsub w ∧ f = fun x y => x - y) ∨
         (i = .vmul w ∧ f = fun x y => x * y) →
       Starts i s b → ∃ t g', exec i s = .next t ∧ t.mach.group? b.g.gid = some g' ∧ g'.satf = b.g.satf ∧
         ∀ l < 32, b.c.lanes.has l = true → LaneHolds b g' w.d l
           (f (BitVec.ofNat 32 (src32 b.c b.c.g w.a l)) (BitVec.ofNat 32 (src32 b.c b.c.g w.b l)))) ∧
  (∀ (w : WordG) (s : State) (b : Start), mTyD w.mod = .int 32 → mSat w.mod = true → Starts (.vadd w) s b →
     let x (l : Nat) : Int := (BitVec.ofNat 32 (src32 b.c b.c.g w.a l)).toInt + (BitVec.ofNat 32 (src32 b.c b.c.g w.b l)).toInt
     ∃ t g', exec (.vadd w) s = .next t ∧ t.mach.group? b.g.gid = some g' ∧
       (∀ l < 32, b.c.lanes.has l = true →
         LaneHolds b g' w.d l (BitVec.ofInt 32 (max (-2147483648) (min 2147483647 (x l))))) ∧
       (g'.satf = true ↔ b.g.satf = true ∨
         ∃ l < 32, b.c.lanes.has l = true ∧ (x l < -2147483648 ∨ 2147483647 < x l)))

/-- R184: VADDCY adds or subtracts, by its bit 6 of MOD, with the lane's bit of P[C] as carry in and writes it as carry
out; lanes outside Lanes(run) keep their slice and their bit, and nothing else changes. Any type but .n32, a C that is
no P number, and OPX[7], RND or SAT that is not 0 raise ILLEGAL_ENCODING. -/
def Obligations.VaddcyCarriesByLane : Prop :=
  (∀ (w : WordG) (s : State) (b : Start), w.c.toNat < 12 → Starts (.vaddcy w) s b →
    let x (l : Nat) : Int :=
      if mBit w.mod 6 then (src32 b.c b.c.g w.a l : Int) - src32 b.c b.c.g w.b l - ((b.c.g.pReg w.c.toNat).has l).toNat
      else (src32 b.c b.c.g w.a l : Int) + src32 b.c b.c.g w.b l + ((b.c.g.pReg w.c.toNat).has l).toNat
    ∃ t g', RanInGroup (.vaddcy w) s b g' t ∧ KeepsSPQ b g' [] [w.c.toNat] [] ∧
      KeepsV (.vaddcy w) b g' [b.g.base + w.d.toNat] ∧ WroteV (.vaddcy w) b g' [b.g.base + w.d.toNat] ∧
      g'.satf = b.g.satf ∧
      ∀ l < 32,
        if b.c.lanes.has l then
          LaneHolds b g' w.d l (BitVec.ofInt 32 (x l)) ∧
            ((g'.pReg w.c.toNat).has l = true ↔ if mBit w.mod 6 then x l < 0 else 2 ^ 32 ≤ x l)
        else (g'.pReg w.c.toNat).has l = (b.g.pReg w.c.toNat).has l) ∧
    ∀ w : WordG, w.mod.toNat % 64 ≠ 6 ∨ 12 ≤ w.c.toNat ∨ w.mod.toNat / 128 ≠ 0 → RaisesEncoding (.vaddcy w)

/-- R198: SHFL gives each lane of Lanes(run) the A of lane j, or its own C where j is not in Lanes(run): 32 bits, or for
.b64 both registers of the pairs. j is the low five bits of B, the lane's number XOR them, or the sum modulo 32. Code 3,
a type but .b32 and .b64, and RND or SAT that is not 0 raise ILLEGAL_ENCODING. -/
def Obligations.ShflMovesBetweenLanes : Prop :=
  (∀ (w : WordG) (s : State) (b : Start), Starts (.shfl w) s b →
    ∃ t g', exec (.shfl w) s = .next t ∧ t.mach.group? b.g.gid = some g' ∧
      ∀ l < 32, b.c.lanes.has l = true →
        let k := src32 b.c b.c.g w.b l % 32
        let j := if mOpx w.mod = 0 then k else if mOpx w.mod = 1 then l ^^^ k else (l + k) % 32
        (mTyD w.mod = .bits 32 → LaneHolds b g' w.d l (BitVec.ofNat 32
          (if b.c.lanes.has j then src32 b.c b.c.g w.a j else src32 b.c b.c.g w.c l))) ∧
        (mTyD w.mod = .bits 64 →
          let x := if b.c.lanes.has j then src64 b.c b.c.g w.a j else src64 b.c b.c.g w.c l
          LaneHolds b g' w.d l (BitVec.ofNat 32 x) ∧ LaneHolds b g' (w.d + 1) l (BitVec.ofNat 32 (x / 2 ^ 32)))) ∧
    ∀ w : WordG, mOpx w.mod = 3 ∨ (w.mod.toNat % 64 ≠ 10 ∧ w.mod.toNat % 64 ≠ 11) ∨ w.mod.toNat / 256 ≠ 0 →
      RaisesEncoding (.shfl w)

/-! ## Number formats (R125 to R131) -/

/-- R130: RoundTo leaves a value that its format holds as it is, in every rounding mode, with and without .sat where
the value is finite: for f32, f16, bf16 and every binary8 format, rounding the value of a code that is no NaN gives
that code, the one zero of binary8 and both zeros of the others included. R126, R193: a float comparison with a NaN
operand is true for `.ne` and `.un` and false for every other code; without one `.or` is true, `.un` false, −0 equals
+0, and of `.eq`, `.lt` and `.gt` exactly one holds. -/
def Obligations.FloatValuesKeepAndCompare : Prop :=
  (∀ (f : Fmt), (f ∈ [fmtF32, fmtF16, fmtBf16] ∨ ∃ p u x, 1 ≤ p ∧ p ≤ 7 ∧ f = fmtQ8 p u x) →
     ∀ (code : Nat) (mode : Rnd) (sat : Bool), code < 2 ^ f.width → mode ≤ 4 →
       match f.decode code with
       | .nan => True
       | .inf n => f.round mode false (.inf n) = code
       | .fin n m e => f.round mode sat (.fin n m e) = code) ∧
  (∀ (f : Fmt) (a b : Nat),
     ((f.decode a).isNan = true ∨ (f.decode b).isNan = true →
       ∀ code ≤ 7, cmpFloat f code a b = (code == 1 || code == 6)) ∧
     ((f.decode a).isNan = false → (f.decode b).isNan = false →
       cmpFloat f 7 a b = true ∧ cmpFloat f 6 a b = false ∧ cmpFloat f 1 a b = !cmpFloat f 0 a b ∧
       cmpFloat f 3 a b = (cmpFloat f 2 a b || cmpFloat f 0 a b) ∧ cmpFloat f 5 a b = !cmpFloat f 2 a b ∧
       cmpFloat f 2 a b = cmpFloat f 4 b a ∧
       ((cmpFloat f 0 a b).toNat + (cmpFloat f 2 a b).toNat + (cmpFloat f 4 a b).toNat = 1) ∧
       ((f.decode a).isZero = true → (f.decode b).isZero = true → cmpFloat f 0 a b = true)))

/-! ## Encodings (R54, R59 to R70) -/

/-- R54, R59, R63, R69: the word that encodes a well-formed instruction or clause header decodes to it, with every
field at the value it had, also from the bytes in memory order and whatever follows them. -/
def Obligations.DecodeAfterEncode : Prop :=
  ∀ (i : Instr) (x : Word), WellFormed i → encode i = some x →
    decode x = .ok i ∧ decodeTableWord 64 x.toNat = some i ∧
      ∀ rest, decodeBytes (bytesOfWord x ++ rest) = .ok (i, rest)

/-- R55, R59 to R70: what the decoder accepts is well formed, and its encoding is the word itself: no two words stand
for one instruction, and no bit of a word is passed over. -/
def Obligations.EncodeAfterDecode : Prop :=
  ∀ (x : Word) (i : Instr), decode x = .ok i → WellFormed i ∧ encode i = some x

/-- R54, R59, R63, R69 and the encodings that the spec prints: words written out from the spec decode to the
instructions they stand for. -/
def Obligations.PrintedWordsDecode : Prop :=
  decode 0x303D8B8A00201003#64 = .ok (.saddI ⟨15, false, 197, 197, 16, false, 0, false, true, 0x003⟩) ∧
    decode 0x60CC08020407000C#64 = .ok (.ffma ⟨3, false, 4, 1, 2, 3, true, false, false, false, false, 0x00C⟩) ∧
    decode 0xD100000000000000#64 = .ok (.clauseHeaderIssue ⟨1, 0, 0, false, 0, false, 0, false, false, false, 0⟩) ∧
    decode 0x00BC01FFFFFFFA01#64 = .ok (.ubra ⟨15, false, 0, 0xFFFFFFFD, 1⟩)

/-- R70: a word of the set, the engine class, a transfer's place, its fields and its V operands are checked in this
order whatever its guard, and the first check that fails raises ILLEGAL_CLAUSE, ILLEGAL_ENCODING or FRAME_BOUND with
the word's address, its bits and the run's lane mask. The word has no effect: no register, no lane, no memory and no
request has changed. -/
def Obligations.IllegalWordsTrap : Prop :=
  ∀ (i : Instr) (s : State) (g : Group) (run : Mask) (p : LanePC) (cl : Clause) (t : WordSpec) (opc : Nat)
    (w : AnyWord),
    wordAtIssue s = some (g, run, p, cl) → wordSpec i = some t → parts i = some (opc, w) →
    let class' : Prop := admits cl.header.ecls opc = false ∨ (isTransfer opc = true ∧ p.idx ≠ cl.header.cnt.toNat + 1)
    let fields : Prop := ¬ WellFormed i
    let frame : Prop := ∃ j ∈ namedV t w, g.framed ≤ j
    class' ∨ fields ∨ frame →
      ∃ u g' tr, exec i s = .next u ∧ u.dev = s.dev ∧ u.mach.mem = s.mach.mem ∧ u.mach.net = s.mach.net ∧
        u.mach.group? g.gid = some g' ∧ TrapRaised s u g g' tr ∧ tr.kind = .w ∧ tr.mask = run ∧
        tr.off = p.hdr + 8 * p.idx ∧ tr.info = encodeParts opc w ∧
        ((class' ∧ tr.cause = 3) ∨ (¬ class' ∧ fields ∧ tr.cause = 2) ∨ (¬ class' ∧ ¬ fields ∧ tr.cause = 5)) ∧
        g'.lanes = g.lanes ∧ g'.s = g.s ∧ g'.p = g.p ∧ g'.q = g.q ∧ g'.v = g.v ∧ g'.satf = g.satf

/-- R56, R70 order 1, R72, R75: a step runs what stands at the program counter. On a group's turn, when it may issue, a
word of the clause it holds is decoded and executed; so is a header, from the clause cache or from memory; an
unassigned opcode raises ILLEGAL_OPCODE. A turn of the device executes its step; an access of the host behind which an
earlier one still waits is kept waiting itself (R36, R382); a machine that is off stops. Whose turn it is, is the model's
choice (DESIGN CHOICE, log 1). -/
def Obligations.StepRunsDecodedWord : Prop :=
  ∀ (s : State) (rest : List Turn),
    let at' (gid : Nat) : State := ({ s with mach := { s.mach with script := rest } } : State).turn gid
    (s.dev.powered = false → step s = .fault .poweredOff) ∧
    (s.dev.powered = true → ∀ i, s.mach.script = .event i :: rest → isEvent i = true →
      let s0 : State := { s with mach := { s.mach with script := rest } }
      (s0.waitsBehind i = none → step s = exec i s0) ∧ ∀ t, s0.waitsBehind i = some t → step s = .next t) ∧
    (∀ gid g pc grid, s.dev.powered = true → s.mach.script = .group gid :: rest → s.dev.ctxst = .running →
      (at' gid).mach.group? gid = some g → (at' gid).mach.deliverable g = false → (at' gid).mach.canIssue g = true →
      g.nextPc = some pc → (at' gid).mach.gridOfGroup? g = some grid →
      let p := g.lane (firstLane (g.runAt pc))
      (∀ cl k x, p.idx = k + 1 → g.clause = some cl → cl.hdr = p.hdr → cl.words[k]? = some x →
        let s1 : State := { at' gid with mach := (at' gid).mach.modGroup g.gid (fun g => { g with clause := some cl }) }
        (∀ i, isHeader x = false → decode x = .ok i → step s = exec i s1) ∧
        (ofOpcode (x.extractLsb' 54 10).toNat x = none →
          step s = .next (trapAt s1 g (p.hdr + 8 * p.idx) s1.mach.nextId 1 (g.runAt pc) x))) ∧
      (∀ k, p.idx = 0 → p.hdr + 8 ≤ grid.hdr.codeb →
        (at' gid).mach.cache.find? (fun k => k.core == g.core && k.va == codeVa grid p.hdr) = some k →
        isHeader (k.words.headD 0) = true →
        step s = exec (.clauseHeaderIssue (fieldsHeader (k.words.headD 0))) (at' gid)) ∧
      (∀ m l m1 h, p.idx = 0 → p.hdr + 8 ≤ grid.hdr.codeb →
        (at' gid).mach.cache.find? (fun k => k.core == g.core && k.va == codeVa grid p.hdr) = none →
        (at' gid).mach.transHeld s.dev g.core none (codeVa grid p.hdr) = false →
        translate s.dev (at' gid).mach g.core .fetch (codeVa grid p.hdr) = (m, .ok l) →
        readCode s.dev m l = some (m1, h) → isHeader h = true →
        step s = exec (.clauseHeaderIssue (fieldsHeader h))
          { at' gid with mach := fillClause s.dev m1 g.core (codeVa grid p.hdr) h }))

/-- R54 to R58: a legal header whose WAIT names no busy flag, and which no outstanding lane load holds back, puts every
lane of its run at word 1 under it; the group takes the clause from the cache. A header with reserved bits, a flag
number without its valid bit or the reserved class traps; one whose WAIT names a busy flag leaves its lanes where they
stand, and of its group only the scheduler's state may change. In all three cases no register, no memory and nothing of the
host's changes. -/
def Obligations.HeadersOpenClauses : Prop :=
  ∀ (h : Header) (s : State) (g : Group) (run : Mask) (hdr : Nat), headerAtIssue s = some (g, run, hdr) →
    (headerOk h = true → (∀ k < 12, h.wait.getLsbD k = true → g.flagCount k = 0) →
      (h.reg = true → s.mach.regionHeld g = false) →
      ∃ t g' cl, exec (.clauseHeaderIssue h) s = .next t ∧ SameElsewhere g.gid s t ∧
        t.mach.group? g.gid = some g' ∧ g'.beside = { g with faultWait := .none }.beside ∧ g'.s = g.s ∧ g'.p = g.p ∧
        g'.q = g.q ∧ g'.v = g.v ∧ g'.satf = g.satf ∧ g'.clause = some cl ∧ cl.hdr = hdr ∧ cl.header = h ∧
        (∀ grid k, s.mach.gridOfGroup? g = some grid →
          s.mach.cache.find? (fun k => k.core == g.core && k.va == codeVa grid hdr) = some k →
          cl.words = k.words.drop 1) ∧
        ∀ l < 32, g'.lane l = if run.has l then { g.lane l with idx := 1 } else g.lane l) ∧
    (headerOk h = false → ∃ t g' tr, exec (.clauseHeaderIssue h) s = .next t ∧ t.mach.group? g.gid = some g' ∧
      TrapRaised s t g g' tr ∧ tr.cause = (if h.ecls = 7 then 3 else 2) ∧ tr.mask = run ∧ tr.off = hdr ∧
      tr.info = encodeHeader h ∧ g'.lanes = g.lanes ∧ t.dev = s.dev ∧ t.mach.mem = s.mach.mem ∧ g'.s = g.s ∧
      g'.p = g.p ∧ g'.q = g.q ∧ g'.v = g.v ∧ g'.satf = g.satf) ∧
    (headerOk h = true → (∃ k < 12, h.wait.getLsbD k = true ∧ g.flagCount k ≠ 0) →
      ∃ t g', exec (.clauseHeaderIssue h) s = .next t ∧ SameElsewhere g.gid s t ∧ t.mach.group? g.gid = some g' ∧
        { g' with sched := g.sched } = g)

/-! ## Control flow (R146 to R165) -/

/-- R148 to R151: BRA and JMP move the lanes of Lanes(run) to their target, UBRA its whole run when its predicate says
so and none otherwise, BRX each lane to its own target, once R71 has passed the targets. The run's other lanes go on.
No register and no memory changes. R152, R153, R114, R116: CALL and CALLX move the lanes of Lanes(run) to their
targets one level up, under a new frame whose record holds the return point after the word, the demand, the window of
at most 16 registers shared with the caller, the base above the caller's own registers, and CALL's catch point. The
caller's registers and every S, P and Q register are as before; the frame's own registers hold nothing. -/
def Obligations.TransfersMoveLanes : Prop :=
  (∀ (s : State) (b : Start) (grid : Grid) (m : Mach), b.m.gridOfGroup? b.c.g = some grid →
     (∀ w : WordJ, Starts (.bra w) s b →
       (isTarget b.c grid b.c.lanes (b.c.off + 8 * w.off.toInt)).run b.m = .ok true m →
       MovedLanes (.bra w) s b b.c.lanes (fun _ => (b.c.off + 8 * w.off.toInt).toNat)) ∧
     (∀ w : WordJ, Starts (.jmp w) s b →
       let x : Int := b.c.off + 8 * (w.off.toInt + (fieldS b.c.g w.d).toInt * 2 ^ (w.jmod.toNat % 4))
       (isTarget b.c grid b.c.lanes x).run b.m = .ok true m → MovedLanes (.jmp w) s b b.c.lanes (fun _ => x.toNat)) ∧
     (∀ w : WordJ, Starts (.ubra w) s b →
       (isTarget b.c grid b.c.run (b.c.off + 8 * w.off.toInt)).run b.m = .ok true m →
       if b.c.g.qReg (w.jmod.toNat % 4) = w.jmod.getLsbD 2 then
         ∃ t g', RanInGroup (.ubra w) s b g' t ∧ KeepsRegs (.ubra w) b g'
       else MovedLanes (.ubra w) s b b.c.run (fun _ => (b.c.off + 8 * w.off.toInt).toNat)) ∧
     (∀ w : WordG, Starts (.brx w) s b →
       (checkTargets b.c grid (b.c.lanes.lanes.map (fun l => (l, src32 b.c b.c.g w.a l)))).run b.m = .ok () m →
       MovedLanes (.brx w) s b b.c.lanes (fun l => src32 b.c b.c.g w.a l))) ∧
  (∀ (s : State) (b : Start) (grid : Grid) (m : Mach), b.m.gridOfGroup? b.c.g = some grid →
     s.mach.regionHeld b.g = false → b.g.level ≠ 511 →
     let k := b.g.link b.g.level
     let made (i : Instr) (dem cato : Nat) (cm : Bool) (target : Nat → Nat) : Prop :=
       let win := min 16 (min k.dem dem)
       let base := k.base + k.dem - win
       base + dem ≤ homeRegs grid →
       ∃ t g', exec i s = .next t ∧ SameButReads b.g.gid s t ∧ t.mach.group? b.g.gid = some g' ∧
         KeepsSPQ b g' [] [] [] ∧ g'.satf = b.g.satf ∧ KeepsVBelow i b g' (k.base + k.dem) ∧
         LanesMoved b g' b.c.lanes target (fun _ => b.g.level + 1) ∧
         (∀ l < 32, b.c.lanes.has l = true → (g'.lane l).region = target l) ∧
         g'.links.map Link.bare = (b.g.links.map Link.bare).take (b.g.level + 1) ++
           [{ reto := b.c.off + 8, cato := cato, base := base, dem := dem, win := win, cm := cm, held := 0 }]
     (∀ w : WordJ, Starts (.call w) s b →
       (isTarget b.c grid b.c.lanes (b.c.off + 8 * w.off.toInt)).run b.m = .ok true m →
       made (.call w) (8 * w.d.toNat) (if w.jmod.getLsbD 0 then b.c.off + 8 + 8 * (w.jmod.toNat / 2) else 0)
         (w.jmod.getLsbD 0) (fun _ => (b.c.off + 8 * w.off.toInt).toNat)) ∧
     (∀ w : WordG, Starts (.callx w) s b →
       (checkTargets b.c grid (b.c.lanes.lanes.map (fun l => (l, src32 b.c b.c.g w.a l)))).run b.m = .ok () m →
       made (.callx w) (8 * (w.mod.toNat % 32)) 0 false (fun l => src32 b.c b.c.g w.a l)))

/-- R154, R155, R119: RET moves the lanes of Lanes(run) one level down to their frame's return point; UNWIND down to
the return point below the frame that its count names, or to the catch point of the nearest marked frame. Frames that
no live lane needs are released with their registers; everything else is as before. R156, R119: EXIT takes the lanes
of Lanes(run) out of the PC table for good; the run's other lanes go on. Frames that no live lane needs are released;
no S, P or Q register, nothing outside the group and no byte of memory changes. -/
def Obligations.LeavingLanesReleaseFrames : Prop :=
  (∀ (s : State) (b : Start) (grid : Grid) (m : Mach), b.m.gridOfGroup? b.c.g = some grid →
     s.mach.regionHeld b.g = false →
     let low := floorLevel b.g
     let left (i : Instr) (level target : Nat) : Prop :=
       let top := topAfter b.c.g (b.c.g.leave b.c level target)
       (isTarget b.c grid b.c.lanes target).run b.m = .ok true m → b.g.marksAbove top = false →
       ∃ t g', exec i s = .next t ∧ SameButReads b.g.gid s t ∧ t.mach.group? b.g.gid = some g' ∧
         LanesMoved b g' b.c.lanes (fun _ => target) (fun _ => level) ∧
         (∀ l < 32, b.c.lanes.has l = true → (g'.lane l).region = target) ∧ FramesLeft i b g' top
     (∀ w : WordG, Starts (.ret w) s b → low < b.g.level →
       left (.ret w) (b.g.level - 1) (b.g.link b.g.level).reto) ∧
     (∀ w : WordI, Starts (.unwind w) s b → w.imm ≠ 0 →
       w.imm.toNat + (match b.g.handling with
         | some h => h.level + 1
         | none => 0) ≤ b.g.level →
       left (.unwind w) (b.g.level - w.imm.toNat) (b.g.link (b.g.level - w.imm.toNat + 1)).reto) ∧
     (∀ (w : WordI) (n : Nat), Starts (.unwind w) s b → w.imm = 0 → low < n → n ≤ b.g.level →
       (b.g.link n).cm = true → (∀ k, n < k → k ≤ b.g.level → (b.g.link k).cm = false) →
       left (.unwind w) (n - 1) (b.g.link n).cato)) ∧
  (∀ (w : WordG) (s : State) (b : Start), Starts (.exit w) s b →
     let after := b.c.g.leaveTable b.c
     (after.livem = 0 ∨ b.g.marksAbove (topAfter b.c.g after) = false) →
     ∃ t g', exec (.exit w) s = .next t ∧ SameElsewhere b.g.gid s t ∧ t.mach.group? b.g.gid = some g' ∧
       (∀ l < 32,
         if b.c.lanes.has l then (g'.lane l).live = false ∧ (g'.txOf l).act = false
         else if b.c.run.has l then (g'.lane l).live = (b.g.lane l).live ∧ (g'.lane l).level = (b.g.lane l).level ∧
           ((g'.lane l).hdr, (g'.lane l).idx) = (b.g.lane l).onward b.c.header
         else g'.lane l = b.g.lane l) ∧
       FramesLeft (.exit w) b g' (topAfter b.c.g after))

/-- R144, R157 to R159, R163: NOP and YIELD change nothing but that the run goes on; SLEEP puts its group to sleep until a
value of CYC, for a number of cycles, or until a flag falls, with the place of the word after it; SWRITE writes PIX, SATF or
empties clause caches. No other register, no lane beside the run and no memory changes. -/
def Obligations.QuietWordsGoOn : Prop :=
  ∀ (s : State) (b : Start),
    (∀ w : WordG, ∀ i ∈ [Instr.nop w, .yield w], Starts i s b →
      ∃ t g', RanInGroup i s b g' t ∧ KeepsRegs i b g') ∧
    (∀ w : WordG, Starts (.sleep w) s b → ∃ t g', exec (.sleep w) s = .next t ∧ SameElsewhere b.g.gid s t ∧
      t.mach.group? b.g.gid = some g' ∧ KeepsRegs (.sleep w) b g' ∧ RunOnward b g' ∧
      { g' with sleep := b.g.sleep }.beside = b.g.beside ∧
      (mOpx w.mod = 0 → g'.sleep = some (.until (fieldS b.c.g w.a))) ∧
      (mOpx w.mod = 1 → s.mach.cyc.toNat + (fieldS b.c.g w.a).toNat < 2 ^ 64 →
        g'.sleep = some (.until (s.mach.cyc + fieldS b.c.g w.a))) ∧
      (mOpx w.mod = 2 → ∃ n q, g'.sleep =
        some (.promise (fieldS b.c.g w.a) (w.mod.toNat % 16) b.c.off b.c.lanes n q none
          (if b.c.idx ≤ b.c.header.cnt.toNat then (b.c.hdr, b.c.idx + 1)
           else (b.c.hdr + 8 * (b.c.header.cnt.toNat + 2), 0))))) ∧
    (∀ w : WordI, Starts (.swrite w) s b →
      let a := fieldS b.c.g w.a
      (w.imm.toNat % 256 = 13 → ∃ t g', exec (.swrite w) s = .next t ∧ SameElsewhere b.g.gid s t ∧
        t.mach.group? b.g.gid = some g' ∧ KeepsRegs (.swrite w) b g' ∧ RunOnward b g' ∧
        { g' with pix := b.g.pix }.beside = b.g.beside ∧ g'.pix = a) ∧
      (w.imm.toNat % 256 = 19 → ∃ t g', RanInGroup (.swrite w) s b g' t ∧ KeepsSPQ b g' [] [] [] ∧
        KeepsV (.swrite w) b g' [] ∧ g'.satf = a.getLsbD 0) ∧
      (w.imm.toNat % 256 ≠ 13 → w.imm.toNat % 256 ≠ 19 → a.toNat < 2 → ∃ t g', exec (.swrite w) s = .next t ∧
        t.dev = s.dev ∧ { t.mach with cache := [] }.besides b.g.gid = { s.mach with cache := [] }.besides b.g.gid ∧
        t.mach.group? b.g.gid = some g' ∧ g'.beside = b.g.beside ∧ KeepsRegs (.swrite w) b g' ∧ RunOnward b g' ∧
        t.mach.cache = if a = 1 then [] else s.mach.cache.filter (fun e => e.core != b.g.core)))

/-- R160, R359, R361, R376: BKPT and TRAP are executed, every lane of the run goes on past the word, and then BREAKPOINT
or USER_TRAP of kind N is raised with the lanes of Lanes(run) and the word's 16 bits in TRINFO. No register and no
memory changes. -/
def Obligations.BkptAndTrapRaise : Prop :=
  ∀ (w : WordI) (s : State) (b : Start) (i : Instr) (cause : Nat),
    (i = .bkpt w ∧ cause = 9) ∨ (i = .trap w ∧ cause = 10) → Starts i s b →
      ∃ t g' tr, exec i s = .next t ∧ t.dev = s.dev ∧ t.mach.mem = s.mach.mem ∧ t.mach.net = s.mach.net ∧
        t.mach.group? b.g.gid = some g' ∧ KeepsRegs i b g' ∧ RunOnward b g' ∧ TrapRaised s t b.g g' tr ∧
        tr.cause = cause ∧ tr.kind = .n ∧ tr.mask = b.c.lanes ∧ tr.off = b.c.off ∧ tr.info = w.imm.setWidth 64

/-- R362 to R364: delivering a trap saves the PC table, makes a frame of 32 registers at the level above every live
lane, moves every live lane to HNDL at that level, dooms open transactions, ends a sleep, and writes the saved state
into V0 to V2 of the new frame: each lane's header offset, its index and level with a bit for the trap's mask, and its
region entry. A trap of kind G saves the region entry as the place of the lanes of its mask, PROMISE_MISSED the word after
the SLEEP (R359). Every other register is as it was. That the sleep ends is the model's (DEDUCED, log 38), and so is that
lanes in a clause whose first word has not issued save its header (R98; DEDUCED, log 67). -/
def Obligations.TrapDeliveryEntersHandler : Prop :=
  ∀ (gid : Nat) (s : State) (g : Group) (grid : Grid) (tr : Trap),
    s.dev.ctxst = .running → s.mach.group? gid = some g → s.mach.gridOfGroup? g = some grid →
    s.mach.deliverable g = true → g.nextTrap = some tr → g.level ≠ 511 →
    let k := g.link g.level
    let base := k.base + k.dem
    base + 32 ≤ homeRegs grid →
    let at' (l : Nat) : LanePC := (g.atDelivery tr).lane l
    let saved (l : Nat) : LanePC :=
      if tr.mask.has l = false then at' l
      else if tr.kind = .g then { at' l with hdr := (at' l).region, idx := 0 }
      else match tr.back with
        | some x => { at' l with hdr := x.1, idx := x.2 }
        | none => at' l
    ∃ t g' h, exec (.trapDelivery gid) s = .next t ∧ t.dev = s.dev ∧ t.mach.mem = s.mach.mem ∧
      t.mach.group? gid = some g' ∧ g'.handling = some h ∧ h.trap = tr ∧ h.level = g.level + 1 ∧
      (∀ l < 32, vget h.saved l LanePC.absent = saved l) ∧
      (∀ l < 32, g'.lane l = if (g.lane l).live then
        { g.lane l with hdr := grid.hdr.hndl, idx := 0, level := g.level + 1 } else g.lane l) ∧
      g'.links.map Link.bare = (g.links.map Link.bare).take (g.level + 1) ++
        [{ reto := 0, cato := 0, base := base, dem := 32, win := 0, cm := false, held := 0 }] ∧
      g'.s = g.s ∧ g'.p = g.p ∧ g'.q = g.q ∧ g'.satf = g.satf ∧ g'.traps = g.traps ∧ g'.sleep = none ∧
      g'.clause = none ∧ (∀ l < 32, (g.lane l).live = true → (g'.txOf l).act = true → (g'.txOf l).doom = true) ∧
      (∀ h < base, g'.vStored h = g.vStored h) ∧
      (∀ h, base + 3 ≤ h → g'.vStored h = none) ∧
      ∃ v0 v1 v2, g'.vStored base = some v0 ∧ g'.vStored (base + 1) = some v1 ∧ g'.vStored (base + 2) = some v2 ∧
        ∀ l < 32,
          if (g.lane l).live then
            vget v0 l 0 = BitVec.ofNat 32 (saved l).hdr ∧
            vget v1 l 0 = BitVec.ofNat 32 ((if tr.mask.has l then 16384 else 0) + 32 * (saved l).level + (saved l).idx) ∧
            vget v2 l 0 = BitVec.ofNat 32 (saved l).region
          else vget v0 l 0 = 0 ∧ vget v1 l 0 = 0 ∧ vget v2 l 0 = 0

/-- R161, R365, R367: TRET in the handler frame puts every lane that was live at delivery back where V0 to V2 say, at the
level it was saved with, or exits it where bit 30 of its V1 is set; an unchanged offset keeps the saved index, a rewritten
one starts its clause. It issues once no result for V0 to V2 is owed (R99). The trap leaves the queue, one that waited
enters, and a stopped operation goes on from PIX, or is cancelled by all ones. Every S, P and Q register is as it was. -/
def Obligations.TretReturns : Prop :=
  ∀ (w : WordG) (s : State) (b : Start) (grid : Grid) (h : Handling) (m : Mach), Starts (.tret w) s b →
    b.m.gridOfGroup? b.c.g = some grid → b.g.handling = some h → b.g.level = h.level →
    (∀ p ∈ b.g.marks, ∀ k < 3, p.2 ≠ .v (b.g.base + k)) →
    let v0 := b.c.g.vReg b.c.free 0
    let v1 := b.c.g.vReg b.c.free 1
    let v2 := b.c.g.vReg b.c.free 2
    (tretTargets b.c grid h v0 v1 b.c.g.livem.lanes).run b.m = .ok () m →
    ∃ t g', exec (.tret w) s = .next t ∧ t.dev = s.dev ∧ t.mach.mem = s.mach.mem ∧
      t.mach.group? b.g.gid = some g' ∧ KeepsSPQ b g' [] [] [] ∧ g'.satf = b.g.satf ∧ g'.handling = none ∧
      (∀ l < 32,
        let was := vget h.saved l LanePC.absent
        if was.live = true ∧ (b.g.lane l).live = true then
          if (vget v1 l 0).getLsbD 30 then (g'.lane l).live = false
          else
            let dest := (vget v0 l 0).toNat
            g'.lane l = ⟨true, dest, if dest = was.hdr then was.idx else 0, was.level, (vget v2 l 0).toNat⟩
        else g'.lane l = b.g.lane l) ∧
      (match b.g.trapsOut with
        | [] => g'.traps = b.g.traps.erase h.trap ∧ g'.trapsOut = []
        | u :: us => g'.traps = b.g.traps.erase h.trap ++ [u] ∧ g'.trapsOut = us) ∧
      ∀ id, h.trap.op = some id → ∀ o, t.mach.op? id = some o →
        o.pix = b.g.pix.toNat ∧ o.st = if b.g.pix = BitVec.allOnes 64 then .done else .running

/-- R162, R73, R360: SREAD writes the special register that its immediate names, to an S register or to every lane of
Lanes(run), and changes nothing else: identity and geometry of team, cluster, grid and lane, CYC, PIX, the live and run
masks, FRAMED, SATF, the state of the trap queue, and in a handler the record of its trap, zero outside one. PIX reads zero
in the handler of a trap that has stopped no operation. -/
def Obligations.SreadReadsSpecialRegisters : Prop :=
  ∀ (w : WordI) (s : State) (b : Start) (tm : Team) (grid : Grid), Starts (.sread w) s b →
    s.mach.team? b.g.team = some tm → s.mach.gridOfGroup? b.g = some grid →
    let wide : Bool := mTyD w.mod = .bits 64
    let uniform : List (Nat × Nat) :=
      [(0x01, b.g.num), (0x06, tm.lin), (0x09, grid.handle.toNat), (0x0B, s.dev.devnum.toNat), (0x0C, s.mach.cyc.toNat),
       (0x04, grid.hdr.tx + grid.hdr.ty * 2 ^ 11 + grid.hdr.tz * 2 ^ 22),
       (0x08, tm.member + tm.x % max 1 grid.hdr.cw * 256 + tm.y % max 1 grid.hdr.ch * 4096),
       (0x0F, (if b.g.trapsOut = [] then 0 else 32) + (if b.g.handling.isSome then 16 else 0) + b.g.traps.length),
       (0x0E, b.g.fbb.toNat), (0x10, b.g.livem.toNat), (0x11, b.c.run.toNat),
       (0x12, b.g.framed), (0x13, b.g.satf.toNat), (0x05, tm.x + tm.y * 2 ^ 32 + tm.z * 2 ^ 48),
       (0x07, grid.gx + grid.gy * 2 ^ 32 + grid.gz * 2 ^ 48), (0x0A, b.g.core % 64 + 64 * (b.g.quarter % 4)),
       (0x14, tm.sgrp.getD 255)] ++
      (match b.g.handling with
       | none => (0x0D, b.g.pix.toNat) :: [0x16, 0x17, 0x18, 0x19, 0x1A, 0x1B].map (fun n => (n, 0))
       | some h => [(0x0D, if h.trap.kind = .s then b.g.pix.toNat else 0),
           (0x16, h.trap.cause + 4096 * (match h.trap.kind with
             | .w => 0
             | .n => 1
             | .s => 2
             | .g => 3)),
           (0x17, h.trap.mask.toNat), (0x18, h.trap.off % 2 ^ 32), (0x19, h.trap.info.toNat),
           (0x1A, h.trap.regcnt.toNat),
           (0x1B, (vget h.saved (firstLane h.trap.mask) LanePC.absent).region % 2 ^ 32)])
    let n := w.imm.toNat % 256
    (srLane n = false → 192 ≤ w.d.toNat → ∃ t g', RanInGroup (.sread w) s b g' t ∧
      KeepsSPQ b g' [w.d.toNat - 192] [] [] ∧ KeepsV (.sread w) b g' [] ∧ g'.satf = b.g.satf ∧
      ∀ x, (n, x) ∈ uniform →
        g'.sReg (w.d.toNat - 192) = if wide then BitVec.ofNat 64 x else (BitVec.ofNat 32 x).setWidth 64) ∧
    (w.d.toNat < 192 → ∃ t g', RanInGroup (.sread w) s b g' t ∧ KeepsSPQ b g' [] [] [] ∧
      (let ty : Ty := if wide then .nat 64 else .nat 32
       KeepsV (.sread w) b g' (vDest b ty w.d) ∧ WroteV (.sread w) b g' (vDest b ty w.d)) ∧ g'.satf = b.g.satf ∧
      ∀ l < 32, b.c.lanes.has l = true →
        (n = 0 → LaneHolds b g' w.d l (BitVec.ofNat 32 l)) ∧
        (n = 2 → LaneHolds b g' w.d l (BitVec.ofNat 32 (b.g.num * 32 + l))) ∧
        (n = 3 → LaneHolds b g' w.d l (BitVec.ofNat 32 (
          let k := b.g.num * 32 + l
          let x := max 1 grid.hdr.tx
          let y := max 1 grid.hdr.ty
          k % x + k / x % y * 2 ^ 10 + k / (x * y) * 2 ^ 20))) ∧
        ∀ x, (n, x) ∈ uniform → LaneHolds b g' w.d l (BitVec.ofNat 32 x))

/-- R172: SLDC writes to its S register the bytes that stand at A plus its immediate in the parameter copy or, by a read
translation, in the const section; bytes past the end read as zero and an access wholly past the const section's end
reads zero without a translation. It changes nothing else. Of a const section written to since the grid became ready each
byte is what stands there or one that has stood there since (R20). A word of the parameter copy with an uncorrectable error
raises DATA_POISON, with the offset in TRINFO. -/
def Obligations.SldcLoadsConstants : Prop :=
  ∀ (w : WordI) (s : State) (b : Start) (grid : Grid), Starts (.sldc w) s b → s.mach.gridOfGroup? b.g = some grid →
    let n := tyWidth (mTyD w.mod) / 8
    let o := (fieldS b.c.g w.a).toNat + w.imm.toNat
    let wrote (t : State) (g' : Group) (x : Nat) : Prop :=
      exec (.sldc w) s = .next t ∧ t.mach.group? b.g.gid = some g' ∧ g'.beside = b.g.beside ∧ RunOnward b g' ∧
        KeepsSPQ b g' [w.d.toNat - 192] [] [] ∧ KeepsV (.sldc w) b g' [] ∧ g'.satf = b.g.satf ∧
        g'.sReg (w.d.toNat - 192) = BitVec.ofNat 64 x
    o % n = 0 → 192 ≤ w.d.toNat →
    (mOpx w.mod = 0 → ¬ (o < grid.pbytes ∧ grid.badParams.contains (o / 8 * 8) = true) →
      ∃ t g', SameElsewhere b.g.gid s t ∧ wrote t g'
      (leNat ((List.range n).map (fun k => if o + k < grid.pbytes then cellGet grid.params (o + k) else 0)))) ∧
    (mOpx w.mod ≠ 0 → grid.hdr.constb ≤ o → ∃ t g', SameElsewhere b.g.gid s t ∧ wrote t g' 0) ∧
    (∀ l m m1 bs, mOpx w.mod ≠ 0 → o < grid.hdr.constb →
      (transLanes b.c .laneRead (some b.c.run) [(0, grid.image + grid.hdr.consto + o)]).run b.m = .ok [(0, l)] m →
      m.homeRead b.c.dev l n = some (m1, bs, []) →
      ∃ (t : State) (g' : Group) (now : Nat → Byte), SameButReads b.g.gid s t ∧ wrote t g'
        (leNat ((List.range n).map (fun k => if o + k < grid.hdr.constb then now k else 0))) ∧
        ∀ k < n, now k = bs.getD k 0 ∨ (o + k, now k) ∈ grid.old) ∧
    (mOpx w.mod = 0 → o < grid.pbytes → grid.badParams.contains (o / 8 * 8) = true →
      ∃ t g' tr, exec (.sldc w) s = .next t ∧ t.dev = s.dev ∧ t.mach.mem = s.mach.mem ∧
        t.mach.group? b.g.gid = some g' ∧ TrapRaised s t b.g g' tr ∧ tr.cause = causePoison ∧ tr.kind = .w ∧
        tr.mask = b.c.run ∧ tr.info = BitVec.ofNat 64 o ∧ g'.lanes = b.g.lanes ∧ g'.s = b.g.s)

/-- R164, R165, R40, R49, R109: LAUNCH and FETCHW, once every earlier access of their group and write of their core has been
performed or no other FETCHW of their group is outstanding, each send the distributor one request and issue an operation that raises
their flag; FETCHW first writes zero to the last two bytes of its mailbox and gives its handed team back. No register
and no other byte of memory changes. -/
def Obligations.RequestsToTheDistributor : Prop :=
  ∀ (w : WordG) (s : State) (b : Start), (∀ k, b.c.flag = some k → b.g.flagCount k ≠ 63) →
    let sent (i : Instr) (t : State) (o : Op) : Prop :=
      exec i s = .next t ∧ t.dev = s.dev ∧ t.mach.net = s.mach.net ∧ t.mach.ctx.ops = s.mach.ctx.ops ++ [o] ∧
        IssuedBy o i b ∧ ∃ g', t.mach.group? b.g.gid = some g' ∧ KeepsRegs i b g' ∧ RunOnward b g' ∧
          (∀ k < 12, g'.flagCount k = b.g.flagCount k + if b.c.flag = some k then 1 else 0)
    (∀ (x : Loc) (m : Mach), Starts (.launch w) s b → (fieldS b.c.g w.c).toNat % 8 = 0 →
      (transLanes b.c .laneWrite (some b.c.run) [(0, (fieldS b.c.g w.c).toNat)]).run b.m = .ok [(0, x)] m →
      s.mach.before b.g.gid b.g.core = [] → s.mach.scattering b.g.gid = false →
      ∃ t o, sent (.launch w) t o ∧ t.mach.mem = s.mach.mem ∧ t.mach.ctx.fetches = s.mach.ctx.fetches ∧
        t.mach.ctx.launches = s.mach.ctx.launches ++
          [{ reached := s.mach.cyc.toNat, op := o.id, a := fieldS b.c.g w.a, patch := fieldS b.c.g w.b, status := fieldS b.c.g w.c }]) ∧
    (∀ tm : Team, Starts (.fetchw w) s b → s.mach.team? b.g.team = some tm →
      let x := (fieldS b.c.g w.b).toNat
      x % 16 = 0 → x + 16 ≤ tm.csl * 64 → s.mach.ctx.fetches.all (fun f => f.gid != b.g.gid) = true →
      (∀ o ∈ s.mach.ctx.ops, o.gid = b.g.gid → o.st ≠ .done → ∀ v, o.instr ≠ .fetchw v) →
      (∀ k ∈ linesOf (coreLoc tm x) 16, b.m.ownerOf k = none) →
      ∃ t o, sent (.fetchw w) t o ∧ t.mach.ctx.launches = s.mach.ctx.launches ∧
        t.mach.ctx.fetches = s.mach.ctx.fetches ++
          [{ op := o.id, gid := b.g.gid, handle := (fieldS b.c.g w.a).setWidth 32, mailbox := x }] ∧
        (∀ g', t.mach.group? b.g.gid = some g' → g'.handed = none) ∧
        t.mach.mem.get (coreLoc tm (x + 14)) = 0 ∧ t.mach.mem.get (coreLoc tm (x + 15)) = 0 ∧
        ∀ y, Outside y (coreLoc tm (x + 14)) 2 → t.mach.mem.get y = s.mach.mem.get y)

/-! ## Lane accesses to memory (R206 to R229, R346 to R348) -/

/-- R216, R223 to R225, R109: LD whose addresses pass R207 issues an operation. The values of core stores are read at
once and owed to its destination, and so are those that lanes take from their core's write queue (R337: which lanes do is
left open, Config.queueRead); the others go out as the requests of R216, reads in the lanes' order. Its destination takes
marks, its flag rises, and no byte of memory changes. -/
def Obligations.LoadsIssue : Prop :=
  ∀ (w : WordG) (s : State) (b : Start) (tm : Team) (ls : List (Nat × Loc)) (m : Mach), Starts (.ld w) s b →
    MayIssue b → NoTx b → s.mach.team? b.g.team = some tm →
    let sz := w.mod.toNat % 8
    let n := szBytes sz
    let uniform : Bool := 192 ≤ w.d.toNat
    let xs := (if uniform then [0] else b.c.lanes.lanes).map (fun l => (l, laneAddr b.c w n l))
    (addrCheck b.c tm (mSpc w.mod) .laneRead n (if uniform then some b.c.lanes else none) xs).run b.m = .ok ls m →
    let rs := laneRefs xs ls
    let near := rs.filter (fun r => isNear r.2.2)
    let away := rs.filter (fun r => !isNear r.2.2)
    let quick := fromQueue b.c m b.g uniform (mOrd w.mod) (mScp w.mod) n away
    let far := away.filter (fun r => quick.all (fun q => q.1 != r.1))
    NotHeld m b n rs → FreeAndSound b n near →
    s.mach.outstanding b.g.core + (requests (far.map (·.2.2))).length ≤ 16384 →
    ∃ t o ps, IssuedRequests (.ld w) s b o
        (if uniform then [.s (w.d.toNat - 192)] else
          (List.range (szSlices sz 0).length).map (fun k => .v (b.g.base + (w.d.toNat + k)))) [] ps t ∧
      t.mach.mem = s.mach.mem ∧ o.writes = o.results (near.map (fun r => (r.1, s.mach.mem.readNat r.2.2 n)) ++ quick) ∧
      o.addrs = far.map (fun r => (r.1, r.2.2)) ∧ o.lost = [] ∧
      ps.map (fun p => (p.loc, p.len)) = requests (far.map (·.2.2)) ∧ ∀ p ∈ ps, p.kind = .read ∧ p.returns = true

/-- R216, R223, R224, R226, R208, R109: ST whose addresses pass R207 issues an operation. The bytes of core stores are
written at once: each lane's are those of its data, lowest byte first, where no higher lane of the word writes the
same byte, and every byte outside the lanes' places is as before. The others go out as masked write requests. No
register changes. -/
def Obligations.StoresWriteTheirBytes : Prop :=
  ∀ (w : WordG) (s : State) (b : Start) (tm : Team) (ls : List (Nat × Loc)) (m : Mach), Starts (.st w) s b →
    MayIssue b → NoTx b → s.mach.team? b.g.team = some tm →
    let n := szBytes (w.mod.toNat % 8)
    let xs := b.c.lanes.lanes.map (fun l => (l, laneAddr b.c w n l))
    (addrCheck b.c tm (mSpc w.mod) .laneWrite n none xs).run b.m = .ok ls m →
    let rs := laneRefs xs ls
    let near := rs.filter (fun r => isNear r.2.2)
    let far := rs.filter (fun r => !isNear r.2.2)
    let data (l : Nat) : List Byte := natLe n (storeData b.c w.d ((n + 3) / 4) l)
    NotHeld m b n rs → ReleaseSent b (mOrd w.mod) →
    FreeAndSound b n near → (near = [] ∨ ReleaseFree b (mOrd w.mod) (mScp w.mod)) →
    s.mach.outstanding b.g.core + (requests (far.map (·.2.2))).length ≤ 16384 →
    ∃ t o ps, IssuedRequests (.st w) s b o [] [] ps t ∧ o.writes = [] ∧
      ps.map (fun p => (p.loc, p.len)) = requests (far.map (·.2.2)) ∧
      (∀ p ∈ ps, p.kind = .write (requestData (far.map (fun r => (r, data r.1))) (p.loc, p.len))) ∧
      (∀ y, (∀ r ∈ near, Outside y r.2.2 n) → t.mach.mem.get y = s.mach.mem.get y) ∧
      ∀ r ∈ near, ∀ k < n, (∀ q ∈ near, r.1 < q.1 → Outside (r.2.2.add k) q.2.2 n) →
        t.mach.mem.get (r.2.2.add k) = (data r.1).getD k 0

/-- R227, R229, R109: LDT and STT whose record and addresses pass their checks issue an operation over the lanes whose
coordinates lie inside the record's extents. A clipped lane of LDT is owed FILL at once and a clipped lane of STT
writes nothing; the others are accessed as LD and ST access theirs, but in no transaction: those that are open are doomed
(R355). -/
def Obligations.TensorAccessesIssue : Prop :=
  ∀ (w : WordG) (s : State) (b : Start) (sh : Shape) (rs : List LaneRef) (out : List Nat) (m : Mach),
    MayIssue b →
    let n := 2 ^ sh.esz
    let near := rs.filter (fun r => isNear r.2.2)
    let away := rs.filter (fun r => !isNear r.2.2)
    let quick := fromQueue b.c m b.g false (mOrd w.mod) (mScp w.mod) n away
    let coords := (List.range sh.rank).map (fun k => b.g.base + (w.b.toNat + k))
    NotHeld m b n rs → FreeAndSound b n near →
    (Starts (.ldt w) s b → (tensorAddrs b.c w .laneRead).run b.m = .ok (sh, rs, out) m →
      let far := away.filter (fun r => quick.all (fun q => q.1 != r.1))
      s.mach.outstanding b.g.core + (requests (far.map (·.2.2))).length ≤ 16384 →
      ∃ t o ps, IssuedRequests (.ldt w) s b o
          ((List.range (szSlices sh.esz 0).length).map (fun k => .v (b.g.base + (w.d.toNat + k)))) coords ps t ∧
        t.mach.mem = s.mach.mem ∧ o.aux = sh.esz ∧ o.addrs = far.map (fun r => (r.1, r.2.2)) ∧
        o.writes = o.results (near.map (fun r => (r.1, s.mach.mem.readNat r.2.2 n)) ++ quick ++
          out.map (fun l => (l, sh.fillVal))) ∧
        ps.map (fun p => (p.loc, p.len)) = requests (far.map (·.2.2)) ∧ ∀ p ∈ ps, p.kind = .read) ∧
    (Starts (.stt w) s b → (tensorAddrs b.c w .laneWrite).run b.m = .ok (sh, rs, out) m →
      ReleaseSent b (mOrd w.mod) → (near = [] ∨ ReleaseFree b (mOrd w.mod) (mScp w.mod)) →
      s.mach.outstanding b.g.core + (requests (away.map (·.2.2))).length ≤ 16384 →
      let data (l : Nat) : List Byte := natLe n (storeData b.c w.d ((n + 3) / 4) l)
      ∃ t o ps, IssuedRequests (.stt w) s b o [] coords ps t ∧
        ps.map (fun p => (p.loc, p.len)) = requests (away.map (·.2.2)) ∧
        (∀ y, (∀ r ∈ near, Outside y r.2.2 n) → t.mach.mem.get y = s.mach.mem.get y) ∧
        ∀ r ∈ near, ∀ k < n, (∀ q ∈ near, r.1 < q.1 → Outside (r.2.2.add k) q.2.2 n) →
          t.mach.mem.get (r.2.2.add k) = (data r.1).getD k 0)

/-- R347, R348, R109: ATOM, RED and CAS in their lane and uniform forms whose addresses pass R207 issue an operation:
at core stores each lane's operation is performed at once and indivisibly, lane after lane, and at other homes it goes
out as one request; the scatter form issues whole, with each lane's address, operand and new value. A returning form
marks its destination. -/
def Obligations.AtomicsIssue : Prop :=
  ∀ (w : WordG) (s : State) (b : Start) (i : Instr) (red cas : Bool),
    (i = .atom w ∧ red = false ∧ cas = false) ∨ (i = .red w ∧ red = true ∧ cas = false) ∨
      (i = .cas w ∧ red = false ∧ cas = true) →
    Starts i s b → MayIssue b →
    let f := atomForm w red cas
    let marks : List Reg :=
      if f.returns = false then []
      else if f.uniform then [.s (w.d.toNat - 192)]
      else (List.range (f.width / 4)).map (fun k => .v (b.g.base + (w.d.toNat + k)))
    (f.scatter = true → ∃ t o, IssuedOp i s b o marks [] [] t ∧ o.recs = b.c.lanes.lanes.flatMap (fun l =>
      let x := atomOperands b.c w f cas l
      [BitVec.ofNat 64 x.1, BitVec.ofNat 64 x.2.1, BitVec.ofNat 64 x.2.2])) ∧
    (∀ (tm : Team) (ls : List (Nat × Loc)) (m : Mach), f.scatter = false → s.mach.team? b.g.team = some tm →
      let xs := (if f.uniform then [0] else b.c.lanes.lanes).map (fun l => (l, (atomOperands b.c w f cas l).1))
      (addrCheck b.c tm (mSpc w.mod) .laneAtomic f.width (if f.uniform then some b.c.lanes else none) xs).run b.m =
        .ok ls m →
      let rs := laneRefs xs ls
      let near := rs.filter (fun r => isNear r.2.2)
      let far := rs.filter (fun r => !isNear r.2.2)
      NotHeld m b f.width rs → ReleaseSent b (mOrd w.mod) →
      (near = [] ∨ ReleaseFree b (mOrd w.mod) (mScp w.mod)) → s.mach.outstanding b.g.core + far.length ≤ 16384 →
      ∃ t o ps, IssuedRequests i s b o marks [] ps t ∧
        t.mach.mem = (near.foldl (fun m r =>
          let x := atomOperands b.c w f cas r.1
          (m.atomicAt r.2.2 f.op f.width x.2.1 x.2.2 f.returns).1) s.mach).mem ∧
        o.addrs = far.map (fun r => (r.1, r.2.2)) ∧
        ps.map (fun p => (p.loc, p.len, p.lane)) = far.map (fun r => (r.2.2, f.width, r.1)))

/-- R346: an atomic at a location of 4 or 8 bytes in a sound line returns the old value and leaves there, lowest byte
first, what its operation makes of it: the sum modulo the width, the lesser or greater as signed or unsigned, the
bitwise results, the operand itself, or for a compare and swap the new value where the old one equals the operand. No
other byte changes. -/
def Obligations.AtomicsCompute : Prop :=
  ∀ (m : Mach) (l : Loc) (width op b c : Nat) (ret : Bool), width = 4 ∨ width = 8 → l.addr % width = 0 →
    (∀ d, l.space ≠ .peer d) → m.mem.poisoned l = false → b < 2 ^ (8 * width) → c < 2 ^ (8 * width) →
    let v := m.mem.readNat l width
    let r := m.atomicAt l op width b c ret
    let i (x : Nat) : Int := if x < 2 ^ (8 * width - 1) then x else x - 2 ^ (8 * width)
    r.2 = (v, false) ∧ (∀ y, Outside y l width → r.1.mem.get y = m.mem.get y) ∧
    (∀ x, (op, x) ∈ [(0, (v + b) % 2 ^ (8 * width)), (1, if i b < i v then b else v), (2, if i v < i b then b else v),
      (3, min v b), (4, max v b), (5, v &&& b), (6, v ||| b), (7, v ^^^ b), (8, b), (16, if v = b then c else v)] →
      r.1.mem.readNat l width = x)

/-! ## Ordering, barriers, transactions (R339 to R357) -/

/-- R341, R345, R349, R352: a FENCE that has nothing to wait for, a BARW of a group without an arrival or whose
barrier's phase has passed, and a CBAR of its waiting form in that case, change nothing, and the run goes on; a word that
has waited already passes by the phase that it waited for. A FENCE with release at .dev or .sys waits for the answers to its
group's writes. After one with acquire at .clus or wider its lanes' loads take no value from the write queue (R337). -/
def Obligations.SatisfiedWaitsPass : Prop :=
  ∀ (w : WordG) (s : State) (b : Start), b.m.acquiring b.g.gid = false →
    let passes (i : Instr) : Prop := ∃ t g', RanBesideTx i s b g' t ∧ KeepsRegs i b g'
    let passed (r : BarRef) : Prop := match waitingHere b.c b.g with
      | some x => (s.mach.barrier x.bar).ph ≠ x.phase
      | none => ∀ ph, b.g.arrival r = some ph → (s.mach.barrier r).ph ≠ ph
    (Starts (.fence w) s b → (mOrd w.mod ≠ 0 → s.mach.scattering b.g.gid = false) →
      (3 ≤ mScp w.mod → 2 ≤ mOrd w.mod → ∀ p ∈ s.mach.net, p.isWrite = true → s.mach.pktGroup p ≠ some b.g.gid) →
      (2 ≤ mScp w.mod → (2 ≤ mOrd w.mod → s.mach.before b.g.gid b.g.core = []) ∧
        (mOrd w.mod % 2 = 1 → ∀ p ∈ s.mach.before b.g.gid b.g.core, s.mach.pktGroup p ≠ some b.g.gid)) →
      (w.mod.getLsbD 0 = true → ∀ o ∈ s.mach.ctx.ops, o.gid ≠ b.g.gid) →
      ∃ t g', exec (.fence w) s = .next t ∧ SameElsewhere b.g.gid s t ∧ t.mach.group? b.g.gid = some g' ∧
        { g' with tx := b.g.tx, fenced := b.g.fenced }.beside = b.g.beside ∧ RunOnward b g' ∧ TxDoomed b g' ∧
        KeepsRegs (.fence w) b g' ∧
        g'.fenced = if mOrd w.mod % 2 = 1 ∧ 2 ≤ mScp w.mod then b.g.fenced ||| b.c.lanes else b.g.fenced) ∧
    (Starts (.barw w) s b → passed (.team b.g.team (w.mod.toNat % 16)) → passes (.barw w)) ∧
    (∀ tm, Starts (.cbar w) s b → s.mach.team? b.g.team = some tm → w.mod.toNat / 4 % 4 = 2 →
      passed (.cluster tm.cluster (w.mod.toNat % 4)) → passes (.cbar w))

/-- R350 to R352: BAR, BARA and CBAR arrive at their barrier with the target of their S register when it is legal and the
one set, if one is: CNT rises, and when it reaches the target the phase rises, the target is taken from CNT and cleared. An
arrival without a wait goes on; one with a wait goes on when it completes the phase, and else stands at its word. Memory and
registers are as before. That the group whose own arrival completes the phase goes on in the same issue is the model's
choice (DEDUCED, log 39; R352 lets a wait pass in the cycle after the phase has changed). R353: BARA with .eng, while fewer
than four wait, defers its arrival behind the operations that the group has outstanding; the barrier is as it was. -/
def Obligations.BarriersCountArrivals : Prop :=
  (∀ (w : WordG) (s : State) (b : Start) (tm : Team), b.m.acquiring b.g.gid = false →
     s.mach.team? b.g.team = some tm → waitingHere b.c b.g = none → b.m.scattering b.c.gid = false →
     let a := (fieldS b.c.g w.a).toNat
     1 ≤ a → a < 65536 →
     let arrives (i : Instr) (r : BarRef) (waits : Bool) : Prop :=
       let x := s.mach.barrier r
       Starts i s b → x.tgt = 0 ∨ x.tgt.toNat = a →
       let full := a ≤ (x.cnt + 1).toNat
       ∃ t g', exec i s = .next t ∧ t.dev = s.dev ∧ t.mach.mem = s.mach.mem ∧ t.mach.net = s.mach.net ∧
         t.mach.group? b.g.gid = some g' ∧ g'.s = b.g.s ∧ g'.p = b.g.p ∧ g'.q = b.g.q ∧ g'.satf = b.g.satf ∧
         g'.arrival r = some x.ph ∧
         t.mach.barrier r = (if full then { ph := x.ph + 1, cnt := x.cnt + 1 - BitVec.ofNat 16 a, tgt := 0 }
           else { ph := x.ph, cnt := x.cnt + 1, tgt := BitVec.ofNat 16 a }) ∧
         if waits = true ∧ ¬ full then g'.lanes = b.g.lanes ∧ g'.v = b.g.v ∧ (waitingHere b.c g').isSome
         else RunOnward b g'
     arrives (.bar w) (.team b.g.team (w.mod.toNat % 16)) true ∧
     (w.mod.getLsbD 4 = false → arrives (.bara w) (.team b.g.team (w.mod.toNat % 16)) false) ∧
     (s.mach.cluster? tm.cluster ≠ none → ReleaseFree b 2 2 →
       (w.mod.toNat / 4 % 4 = 0 → arrives (.cbar w) (.cluster tm.cluster (w.mod.toNat % 4)) true) ∧
       (w.mod.toNat / 4 % 4 = 1 → arrives (.cbar w) (.cluster tm.cluster (w.mod.toNat % 4)) false))) ∧
  (∀ (w : WordG) (s : State) (b : Start), Starts (.bara w) s b → b.m.acquiring b.g.gid = false →
     w.mod.getLsbD 4 = true → b.g.deferred.length < 4 →
     let a := (fieldS b.c.g w.a).toNat
     1 ≤ a → a < 65536 →
     ∃ t g', exec (.bara w) s = .next t ∧ SameElsewhere b.g.gid s t ∧ t.mach.group? b.g.gid = some g' ∧
       KeepsRegs (.bara w) b g' ∧ RunOnward b g' ∧
       g'.deferred = b.g.deferred ++ [{ team := b.g.team, bar := w.mod.toNat % 16, target := BitVec.ofNat 16 a,
                                        ops := (s.mach.ctx.ops.filter (fun o => o.gid == b.g.gid)).map (·.id) }] ∧
       { g' with deferred := b.g.deferred, tx := b.g.tx }.beside = b.g.beside)

/-- R355, R357: TBEGIN opens an empty transaction in each lane of Lanes(run) that has none, and dooms an open one with NEST
unless it is doomed already; TABORT dooms the open ones with EXPLICIT and the low 16 bits of each lane's A. Other lanes'
transactions, registers and memory are as before. R356, R357: TEND ends the open transaction of each lane of Lanes(run). It
commits, in ascending lane order, those that are not doomed, meet no lower lane's that is not, and whose recorded bytes
memory still holds at their turn: their bytes are written, and their bits of the predicate are owed as 1, all others' as 0.
A lane that had none is told so. With ORD = 3 at .clus or wider the lanes that fail take no later load from the write queue
(R337), as after a FENCE. A granule whose mapping CLEAVE has taken away is no such case (R52: window fault), nor is a line that
has to wait in its cellar (R274, R283). That TEND does this when it issues is the model's choice (DESIGN CHOICE, log 8). -/
def Obligations.TransactionsBeginAndEnd : Prop :=
  (∀ (w : WordG) (s : State) (b : Start), b.m.acquiring b.g.gid = false →
     let ran (i : Instr) (f : Nat → LaneTx → LaneTx) : Prop :=
       ∃ t g', exec i s = .next t ∧ SameElsewhere b.g.gid s t ∧ t.mach.group? b.g.gid = some g' ∧ KeepsRegs i b g' ∧
         RunOnward b g' ∧ { g' with tx := b.g.tx }.beside = b.g.beside ∧
         ∀ l < 32, g'.txOf l = if b.c.lanes.has l then f l (b.g.txOf l) else b.g.txOf l
     (Starts (.tbegin w) s b → ran (.tbegin w) (fun _ x =>
       if x.act then (if x.doom then x else { x with doom := true, cause := 8 })
       else { act := true, doom := false, cause := 0, code := 0, granule := none, reads := [], writes := [] })) ∧
     (Starts (.tabort w) s b → ran (.tabort w) (fun l x =>
       if x.act && !x.doom then { x with doom := true, cause := 5, code := BitVec.ofNat 16 (src32 b.c b.c.g w.a l) }
       else x))) ∧
  (∀ (w : WordG) (s : State) (b : Start), Starts (.tend w) s b → MayIssue b →
     let tx (l : Nat) : LaneTx := b.g.txOf l
     let open' := b.c.lanes.lanes.filter (fun l => (tx l).act)
     let lines := open'.flatMap (fun l => if (tx l).doom then [] else (tx l).rset ++ (tx l).wset)
     (∀ k ∈ lines, b.m.ownerOf k = none ∧ ∀ p ∈ s.mach.net, p.core = b.g.core → p.performed = false →
       p.loc.space = k.space → p.loc.addr / 64 ≤ k.index → (p.loc.addr + p.len - 1) / 64 < k.index) →
     (∀ k ∈ lines, b.m.placeHeld s.dev { space := k.space, addr := k.index * 64 } 64 = false) →
     (mOrd w.mod = 3 → ReleaseFree b 2 (mScp w.mod) ∧ ReleaseSent b 2 ∧
       (3 ≤ mScp w.mod → ∀ p ∈ s.mach.net, p.isWrite = true → s.mach.pktGroup p ≠ some b.g.gid)) →
     (∀ l ∈ open', (tx l).doom = false → b.m.holdsSets b.g (tx l) = true) →
     let lost := doomLower tx open'
     let r := s.mach.commits tx (open'.filter (fun l => !(tx l).doom && !lost.contains l))
     ∃ t g' o, exec (.tend w) s = .next t ∧ t.dev = s.dev ∧ t.mach.mem = r.1.mem ∧ t.mach.net = s.mach.net ∧
       t.mach.ctx.ops = s.mach.ctx.ops ++ [o] ∧ IssuedBy o (.tend w) b ∧ t.mach.group? b.g.gid = some g' ∧
       KeepsRegs (.tend w) b g' ∧ RunOnward b g' ∧ g'.marks = b.g.marks ++ [(o.id, .p w.d.toNat)] ∧
       g'.fenced = (if mOrd w.mod = 3 ∧ 2 ≤ mScp w.mod then b.g.fenced ||| (b.c.lanes &&& ~~~r.2.1) else b.g.fenced) ∧
       (∀ l < 32, b.c.lanes.has l = true → (g'.txOf l).act = false ∧
         ((tx l).act = false → (g'.txOf l).cause = 9) ∧ (r.2.1.has l = true → (g'.txOf l).doom = false) ∧
         (r.2.2.has l = true → (g'.txOf l).doom = true ∧ (g'.txOf l).cause = 1)) ∧
       (∀ l < 32, b.c.lanes.has l = false → g'.txOf l = tx l) ∧
       ∃ x, o.writes = [x] ∧ x.reg = .p w.d.toNat ∧ x.mask = b.c.lanes ∧
         ∀ l < 32, vget x.vals l 0 = if r.2.1.has l then 1 else 0)

/-! ## Engine words (R217 to R243) -/

/-- R230 to R233, R220, R78, R109: COPY, GTHA and TMOV whose addresses, ranges and records pass their checks, and
whose destination lines are free, issue an operation that owns those lines, and write a promise of at least 16 cycles
past CYC to their D. No byte of memory changes at issue. R234, R235, R50 to R52, R109: TIERH with at most 2^32 bytes,
CJOIN, CLEAVE and CQUERY issue an operation that owns no line; CQUERY's destination takes its mark. How far past the 16
cycles a promise lies is a free value (DESIGN CHOICE, log 4). -/
def Obligations.TransfersAndHintsIssue : Prop :=
  (∀ (w : WordG) (s : State) (b : Start) (tm : Team), MayIssue b → s.mach.team? b.g.team = some tm → 192 ≤ w.d.toNat →
     let cap := captureS b.c w
     let issues (i : Instr) (recs : List Word) (dst : List (Loc × Nat)) : Prop :=
       Starts i s b → FreeLines b (ownable (pieceLines dst)) →
       ∃ t o, IssuedOp i s b o [] [w.d.toNat - 192] (ownable (pieceLines dst)) t ∧ o.recs = recs ∧
         ∃ n g', t.mach.group? b.g.gid = some g' ∧
           g'.sReg (w.d.toNat - 192) = s.mach.cyc + 16 + (Config.promiseSlack n).setWidth 64
     let range (spc a n : Nat) : Prop := (rangeCheck b.c tm spc a n).run b.m = .ok () b.m
     (let a := copyArgs w cap
      let src := w.mod.toNat % 4
      a.1 % 16 = 0 → a.2.1 % 16 = 0 → a.2.2 % 16 = 0 → range src a.1 a.2.2 → range (mSpc w.mod) a.2.1 a.2.2 →
      issues (.copy w) [] (copyDest s.dev b.m b.g.core tm w cap 0)) ∧
     (let geo := b.c.g.sReg (w.c.toNat - 192 + 1)
      let rows := geo.toNat / 2 ^ 24 % 2 ^ 24
      let rowb := geo.toNat % 2 ^ 16
      let lsp := w.mod.toNat / 4 % 4
      geo.toNat / 2 ^ 16 % 2 ^ 8 = 0 → geo.toNat / 2 ^ 48 = 0 → rowb ≠ 0 → rowb % 16 = 0 →
      spAddr (w.mod.toNat % 4) cap.sa.toNat % 16 = 0 → spAddr (mSpc w.mod) cap.sc.toNat % 16 = 0 →
      spAddr lsp cap.sb.toNat % 4 = 0 → range lsp (spAddr lsp cap.sb.toNat) (4 * rows) →
      range (mSpc w.mod) (spAddr (mSpc w.mod) cap.sc.toNat) (rowb * rows) →
      issues (.gtha w) [geo] (gthaDest s.dev b.m b.g.core tm w cap geo 0)) ∧
     (∀ la lb lc, (recordCheck b.c tm cap.sa.toNat).run b.m = .ok la b.m →
       (recordCheck b.c tm cap.sb.toNat).run b.m = .ok lb b.m → (recordCheck b.c tm cap.sc.toNat).run b.m = .ok lc b.m →
       let mem := s.mach.mem
       let ws := mem.words la 16 ++ mem.words lb 16 ++ mem.words lc 16
       let src := shapeOf (mem.words la 16)
       let dst := shapeOf (mem.words lb 16)
       src.2 = true → dst.2 = true → src.1.rank = dst.1.rank → src.1.esz = dst.1.esz →
       (boxOf (mem.words lc 16) src.1.rank).2 = true →
       (rangeChecks b.c tm dst.1.tspc (2 ^ dst.1.esz) ((moveOf ws).targets 0)).run b.m = .ok () b.m →
       issues (.tmov w) ws (moveDest s.dev b.m b.g.core tm (moveOf ws) 0))) ∧
  (∀ (w : WordG) (s : State) (b : Start), MayIssue b →
     (Starts (.tierh w) s b → (fieldS b.c.g w.b).toNat ≤ 2 ^ 32 →
       ∃ t o, IssuedOp (.tierh w) s b o [] [] [] t ∧ o.cap = captureS b.c w) ∧
     (Starts (.cjoin w) s b → ∃ t o, IssuedOp (.cjoin w) s b o [] [] [] t) ∧
     (Starts (.cleave w) s b → ∃ t o, IssuedOp (.cleave w) s b o [] [] [] t) ∧
     (Starts (.cquery w) s b → ∃ t o, IssuedOp (.cquery w) s b o [.s (w.d.toNat - 192)] [] [] t))

/-- R236 to R243: OMAP with a legal map writes its map slot and nothing else. MMA with every lane, tiles that the team
has, one legal format word in all lanes, the accumulator's tag and maps that fit issues an operation with the maps and
the format word. MZERO and MLDA issue theirs, and with SHP = 0 set their tile's tag at once; MDRAIN issues one that
owns the lines of its rows, or holds the peer team that it drains to. -/
def Obligations.MatrixWordsIssue : Prop :=
  ∀ (w : WordG) (s : State) (b : Start) (tm : Team), MayIssue b → s.mach.team? b.g.team = some tm →
    let n := tm.tile w.d.toNat
    let old := s.mach.tile b.g.core n
    let asrc := w.mod.getLsbD 4
    (∀ p : OpMap, Starts (.omap w) s b → p = ⟨fieldS b.c.g w.a, fieldS b.c.g w.b, fieldS b.c.g w.c⟩ → p.ok = true →
      w.d.toNat < 8 → ∃ t g', exec (.omap w) s = .next t ∧ SameElsewhere b.g.gid s t ∧
        t.mach.group? b.g.gid = some g' ∧ { g' with m := b.g.m, tx := b.g.tx }.beside = b.g.beside ∧
        KeepsRegs (.omap w) b g' ∧ RunOnward b g' ∧ vget g'.m w.d.toNat none = some p ∧
        ∀ k, k ≠ w.d.toNat → vget g'.m k none = vget b.g.m k none) ∧
    (∀ (x : Nat) (ma mb : OpMap), Starts (.mma w) s b → b.c.lanes = BitVec.allOnes 32 → w.d.toNat < tm.tiles.length →
      (asrc = true → w.a.toNat < tm.tiles.length ∧ w.a ≠ w.d) → (∀ l < 32, src32 b.c b.c.g w.c l = x) →
      (formatOf x).ok = true → (formatOf x).accf = old.f16 → vget b.g.m w.b.toNat none = some mb →
      (if asrc then ma = mb else vget b.g.m w.a.toNat none = some ma) → mb.klen % (formatOf x).chunk = 0 →
      (asrc = true → mb.klen ≤ 128) →
      lowestBeyond (formatOf x) asrc ma mb (regionOf w.mod) (tm.csl * 64) = none →
      ∃ t o, IssuedOp (.mma w) s b o [] [] [] t ∧ o.maps = [ma, mb] ∧ o.recs = [BitVec.ofNat 64 x]) ∧
    (∀ (i : Instr), i = .mzero w ∨ i = .mlda w → Starts i s b → w.d.toNat < tm.tiles.length →
      (mShp w.mod ≠ 0 → old.f16 = w.mod.getLsbD 4) →
      (i = .mlda w → let r := regionOf w.mod
        let x := (fieldS b.c.g w.a).toNat
        let y := (fieldS b.c.g w.b).toNat
        x % 16 = 0 ∧ y % 16 = 0 ∧
          x + (r.rows - 1) * y + r.cols * (if w.mod.getLsbD 4 then 2 else 4) ≤ tm.csl * 64) →
      ∃ t g' o, exec i s = .next t ∧ t.dev = s.dev ∧ t.mach.mem = s.mach.mem ∧ t.mach.net = s.mach.net ∧
        t.mach.own = s.mach.own ∧ t.mach.ctx.ops = s.mach.ctx.ops ++ [o] ∧ IssuedBy o i b ∧
        t.mach.group? b.g.gid = some g' ∧ GroupIssued i b o [] [] [] g' ∧
        t.mach.tile b.g.core n = (if mShp w.mod = 0 then { old with f16 := w.mod.getLsbD 4 } else old) ∧
        ∀ c k, (c, k) ≠ (b.g.core, n) → t.mach.tile c k = s.mach.tile c k) ∧
    (Starts (.mdrain w) s b → w.a.toNat < tm.tiles.length → w.mod.getLsbD 4 = false →
      let y := fieldS b.c.g w.b
      let off := (fieldS b.c.g w.d).toNat
      let pitch := y.toNat % 2 ^ 32
      let r := regionOf w.mod
      let oes := tyWidth (drainTy y) / 8
      drainFmt (y.toNat / 2 ^ 32 % 2 ^ 6) = true → y.toNat / 2 ^ 38 % 8 < 5 → y.toNat / 2 ^ 42 = 0 → off % 16 = 0 →
      pitch % 16 = 0 → off + (r.rows - 1) * pitch + r.cols * oes ≤ tm.csl * 64 →
      let lines := ownable (drainLines tm r off pitch oes 0)
      FreeLines b lines → ∃ t o, IssuedOp (.mdrain w) s b o [] [] lines t ∧ o.cap = captureS b.c w) ∧
    (∀ u : Team, Starts (.mdrain w) s b → w.a.toNat < tm.tiles.length → w.mod.getLsbD 4 = true →
      let x := fieldS b.c.g w.c
      x.getLsbD 35 = false → x.toNat / 2 ^ 41 = 0 → s.mach.drainTarget tm.grid x = some u →
      x.toNat / 2 ^ 32 % 8 < u.tiles.length → ¬ (u.tid = tm.tid ∧ x.toNat / 2 ^ 32 % 8 = w.a.toNat) →
      ∃ t g' o, exec (.mdrain w) s = .next t ∧ t.dev = s.dev ∧ t.mach.mem = s.mach.mem ∧ t.mach.own = s.mach.own ∧
        t.mach.ctx.ops = s.mach.ctx.ops ++ [o] ∧ IssuedBy o (.mdrain w) b ∧ t.mach.group? b.g.gid = some g' ∧
        GroupIssued (.mdrain w) b o [] [] [] g' ∧
        (t.mach.team? u.tid).map (·.drains) = (s.mach.team? u.tid).map (fun v => v.drains ++ [o.id]))

/-! ## Stream words (R244 to R256, R312 to R317) -/

/-- R250 to R254, R312, R316, R109: SOPEN with a descriptor's aligned address and no reserved bit, SNEXT, SSKIP,
SISECT and SUNION on registers that are not CLOSED issue an operation; their destinations take marks. R249, R251,
R316: once no earlier instruction on its registers is outstanding, SCLOSE makes one stream register, or all eight,
CLOSED with every field zero; SSTAT writes one 8-byte word of an open register's 64 bytes to its S register. Nothing
else changes. -/
def Obligations.StreamWordsTakeEffect : Prop :=
  (∀ (w : WordG) (s : State) (b : Start), MayIssue b →
     let open' (x : BitVec 8) : Prop := (b.g.stream x.toNat).st ≠ .closed
     let v (k : Nat) : Reg := .v (b.g.base + (w.d.toNat + k))
     (Starts (.sopen w) s b → spAddr (if w.mod.getLsbD 0 then 0 else 2) (fieldS b.c.g w.a).toNat % 64 = 0 →
       (fieldS b.c.g w.b).toNat < 2 ^ 35 →
       ∃ t o, IssuedOp (.sopen w) s b o [] [] [] t ∧ o.cap = captureS b.c w) ∧
     (Starts (.snext w) s b → open' w.a →
       ∃ t o, IssuedOp (.snext w) s b o [v 0, v 1, .s (w.c.toNat - 192)] [] [] t) ∧
     (Starts (.sskip w) s b → open' w.a →
       ∃ t o, IssuedOp (.sskip w) s b o [.s (w.d.toNat - 192)] [] [] t ∧ o.cap = captureS b.c w) ∧
     ∀ i ∈ [Instr.sisect w, .sunion w], Starts i s b → open' w.a → open' w.b →
       ∃ t o, IssuedOp i s b o [v 0, v 1, v 2, .s (w.c.toNat - 192)] [] [] t) ∧
  (∀ (w : WordG) (s : State) (b : Start), b.m.acquiring b.g.gid = false →
     (Starts (.sclose w) s b → w.a.toNat < 8 →
       let regs := if w.mod.getLsbD 0 then List.range 8 else [w.a.toNat]
       s.mach.streamBusy b.g.gid regs = false →
       ∃ t g', exec (.sclose w) s = .next t ∧ SameElsewhere b.g.gid s t ∧ t.mach.group? b.g.gid = some g' ∧
         KeepsRegs (.sclose w) b g' ∧ RunOnward b g' ∧ { g' with f := b.g.f, tx := b.g.tx }.beside = b.g.beside ∧
         ∀ n < 8, g'.stream n = if n ∈ regs then ⟨0, .closed, false, 0, 0, 0, 0, 0, 0, 0, 0, 0⟩ else b.g.stream n) ∧
     (Starts (.sstat w) s b → s.mach.streamBusy b.g.gid [w.a.toNat] = false →
       let f := b.g.stream w.a.toNat
       f.st ≠ .closed → 192 ≤ w.d.toNat →
       ∃ t g', RanBesideTx (.sstat w) s b g' t ∧ KeepsSPQ b g' [w.d.toNat - 192] [] [] ∧ KeepsV (.sstat w) b g' [] ∧
         g'.satf = b.g.satf ∧
         ∀ x, (w.mod.toNat % 8, x) ∈ [(0, f.desc), (2, f.fin.setWidth 64 <<< 32 ||| f.cur.setWidth 64),
             (3, f.lastc.setWidth 64), (4, f.spec0), (5, f.spec1), (6, f.spec2), (7, f.spec3)] →
           g'.sReg (w.d.toNat - 192) = x))

/-- R255, R317: LISECT gives each lane of Lanes(run) two V registers, with all ones past the last match, and writes
how far it has passed each list to two S registers; no other register and no memory changes. R255: of two strictly
rising lists of at most 32 values, the merge of LISECT finds exactly the pairs of places with equal values, in rising
order of the first list, and stops where one list ends. -/
def Obligations.ListMergesFindCommonValues : Prop :=
  (∀ (w : WordG) (s : State) (b : Start), Starts (.lisect w) s b → b.m.acquiring b.g.gid = false →
     192 ≤ w.c.toNat → w.c.toNat < 255 →
     let ls := b.c.lanes.lanes
     let vs (x : BitVec 8) : List Nat := ls.map (src32 b.c b.c.g x)
     let lt (x y : Nat) : Bool :=
       if w.mod.getLsbD 0 then (BitVec.ofNat 32 x).toInt < (BitVec.ofNat 32 y).toInt else x < y
     let r := listMerge lt (vs w.a) (vs w.b) 64 0 0
     let homes := [b.g.base + w.d.toNat, b.g.base + (w.d.toNat + 1)]
     ∃ t g', RanBesideTx (.lisect w) s b g' t ∧ KeepsSPQ b g' [w.c.toNat - 192, w.c.toNat - 191] [] [] ∧
       KeepsV (.lisect w) b g' homes ∧ WroteV (.lisect w) b g' homes ∧ g'.satf = b.g.satf ∧
       g'.sReg (w.c.toNat - 192) = BitVec.ofNat 64 r.2.1 ∧ g'.sReg (w.c.toNat - 191) = BitVec.ofNat 64 r.2.2 ∧
       ∀ k < ls.length, ∃ y z, g'.vStored (b.g.base + w.d.toNat) = some y ∧
         g'.vStored (b.g.base + (w.d.toNat + 1)) = some z ∧
         vget y (ls.getD k 0) 0 = BitVec.ofNat 32 ((r.1.getD k (4294967295, 4294967295)).1) ∧
         vget z (ls.getD k 0) 0 = BitVec.ofNat 32 ((r.1.getD k (4294967295, 4294967295)).2)) ∧
  (∀ (a b : List Nat), a.length ≤ 32 → b.length ≤ 32 → a.Pairwise (· < ·) → b.Pairwise (· < ·) →
     let r := listMerge (fun x y => decide (x < y)) a b 64 0 0
     (∀ i j, (i, j) ∈ r.1 ↔ ∃ x, a[i]? = some x ∧ b[j]? = some x) ∧ r.1.Pairwise (fun p q => p.1 < q.1 ∧ p.2 < q.2) ∧
       r.2.1 ≤ a.length ∧ r.2.2 ≤ b.length ∧ (r.2.1 = a.length ∨ r.2.2 = b.length))

/-! ## Retrieval, ray, filter and cellar words (R257 to R304, R318 to R333) -/

/-- R257 to R267, R318 to R324, R109: HFAM with a valid record at its offset puts it into the team's slot. HCODE with a
filled slot, HPROBE, HINS, HDEL and HREH whose descriptors are read and pass their checks, and HSYNC issue an
operation that keeps what was read; their destinations take marks, and HPROBE owns its lanes' blocks. -/
def Obligations.RetrievalWordsIssue : Prop :=
  ∀ (w : WordG) (s : State) (b : Start) (tm : Team), MayIssue b → s.mach.team? b.g.team = some tm →
    let v (x : BitVec 8) (n : Nat) : List Reg := (List.range n).map (fun k => .v (b.g.base + (x.toNat + k)))
    let a := (fieldS b.c.g w.a).toNat
    (∀ ws m, Starts (.hfam w) s b → w.d.toNat < 4 → a % 16 = 0 → a + 64 ≤ tm.csl * 64 →
      (issueWords b.c (coreLoc tm a) a 8).run b.m = .ok ws m → (familyOf ws).2 = true →
      (let f := (familyOf ws).1
       f.planes + f.lt * f.kb * f.dim * f.es ≤ tm.csl * 64) →
      ∃ t g', exec (.hfam w) s = .next t ∧ t.dev = s.dev ∧ t.mach.mem = s.mach.mem ∧ t.mach.ctx.ops = s.mach.ctx.ops ∧
        t.mach.group? b.g.gid = some g' ∧ KeepsRegs (.hfam w) b g' ∧ RunOnward b g' ∧
        ∀ k, ((t.mach.team? tm.tid).bind (fun u => vget u.hash k none)) =
          if k = w.d.toNat then some (familyOf ws).1 else vget tm.hash k none) ∧
    (∀ f, Starts (.hcode w) s b → vget tm.hash w.b.toNat none = some f →
      (∀ l ∈ b.c.lanes.lanes, let x := src32 b.c b.c.g w.a l
        x % 16 = 0 ∧ x + f.dim * f.es ≤ tm.csl * 64) →
      w.d.toNat + f.lt ≤ b.g.framed → (∀ p ∈ b.g.marks, p.2 ∉ v w.d f.lt) →
      ∃ t o, IssuedOp (.hcode w) s b o (v w.d f.lt) [] [] t ∧ o.fam = some f) ∧
    (∀ ws m, Starts (.hprobe w) s b → (hprobeRead b.c tm w).run b.m = .ok ws m →
      let lines := ownable (blockLines tm (fun l => src32 b.c b.c.g w.d l) b.c.lanes.lanes (w.mod.toNat % 16 + 1))
      FreeLines b lines →
      ∃ t o, IssuedOp (.hprobe w) s b o (v w.c 1) [] lines t ∧ o.recs = ws ++ List.replicate 32 0) ∧
    (∀ (i : Instr) (n : Nat) ds m ws m1, (i = .hins w ∧ n = 2) ∨ (i = .hdel w ∧ n = 1) → Starts i s b →
      (tableGate b.c).run b.m = .ok () b.m → (tableAddrs b.c a 1).run b.m = .ok ds m →
      (tableRead b.c ds).run m = .ok ws m1 → ∃ t o, IssuedOp i s b o (v w.d n) [] [] t ∧ o.recs = ws) ∧
    (∀ ds m ws m1, Starts (.hreh w) s b → (tableGate b.c).run b.m = .ok () b.m →
      (tableAddrs b.c a 1).run b.m = .ok ds m → (tableRead b.c ds).run m = .ok ws m1 →
      (fieldS b.c.g w.b).toNat ≤ 256 →
      ∃ t o, IssuedOp (.hreh w) s b o [.s (w.d.toNat - 192)] [] [] t ∧ o.recs = ws) ∧
    (Starts (.hsync w) s b → a % 64 = 0 → ∃ t o, IssuedOp (.hsync w) s b o [] [] [] t)

/-- R286, R293 to R295, R326 to R328, R109: RAYE with legal, different slots and enabled cellars and ANYR with legal
slots issue an operation that owns the slots' lines; TRBEGIN and TRPUB without reserved bits issue one that marks
their status register. R298 to R304, R329 to R333, R109: TEXF and HGF whose records are read and pass their checks
issue an operation that keeps them and marks their channels and status; HGF owns its result areas. BFILL within its
channel's entries issues one. ATTN whose commands are read and pass their checks issues one that owns its results'
lines, and the cellars accept its commands. -/
def Obligations.CellarWordsIssue : Prop :=
  (∀ (w : WordG) (s : State) (b : Start) (tm : Team), MayIssue b → s.mach.team? b.g.team = some tm →
     let slots (x : BitVec 8) : List Nat := b.c.lanes.lanes.map (fun l => src32 b.c b.c.g x l)
     let legal (x : BitVec 8) : Prop := ∀ a ∈ slots x, a % 64 = 0 ∧ a + 64 ≤ tm.csl * 64
     let lines (x : BitVec 8) : List Line := ownable (slotLines tm (slots x))
     (Starts (.raye w) s b → legal w.c → (slots w.c).Nodup → (fieldS b.c.g w.d).toNat < 2 ^ 28 →
       rayPath s.dev = true → FreeLines b (lines w.c) →
       ∃ t o, IssuedOp (.raye w) s b o [] [] (lines w.c) t ∧ o.cap.sd = fieldS b.c.g w.d) ∧
     (Starts (.anyr w) s b → legal w.a → FreeLines b (lines w.a) →
       ∃ t o, IssuedOp (.anyr w) s b o [.v (b.g.base + w.d.toNat)] [] (lines w.a) t) ∧
     ∀ i ∈ [Instr.trbegin w, .trpub w], Starts i s b → (fieldS b.c.g w.a).toNat < 2 ^ 32 →
       ∃ t o, IssuedOp i s b o [.s (w.d.toNat - 192)] [] [] t) ∧
  (∀ (w : WordG) (s : State) (b : Start) (tm : Team), MayIssue b → s.mach.team? b.g.team = some tm →
     let v (x : BitVec 8) (n : Nat) : List Reg := (List.range n).map (fun k => .v (b.g.base + (x.toNat + k)))
     (∀ ws m, Starts (.texf w) s b → (texfRead b.c tm w).run b.m = .ok ws m →
       ∃ t o, IssuedOp (.texf w) s b o (v w.d (if w.mod.getLsbD 1 then 2 else 4) ++ v w.c 1) [] [] t ∧ o.recs = ws) ∧
     (∀ ws lines m, Starts (.hgf w) s b → (hgfRead b.c tm w).run b.m = .ok (ws, lines) m → FreeLines b (ownable lines) →
       ∃ t o, IssuedOp (.hgf w) s b o (v w.c 1) [] (ownable lines) t ∧ o.recs = ws) ∧
     (Starts (.bfill w) s b →
       let x := (fieldS b.c.g w.a).toNat
       let y := (fieldS b.c.g w.b).toNat
       let n := x / 2 ^ 16 % 2 ^ 16
       y % 4 = 0 → y + 4 * n ≤ tm.csl * 64 → x % 2 ^ 16 + n ≤ 16384 → parityChannel (x / 2 ^ 32 % 32) = false →
       x < 2 ^ 40 → ∃ t o, IssuedOp (.bfill w) s b o [] [] [] t ∧ o.cap = captureS b.c w) ∧
     (∀ ws lines m, Starts (.attn w) s b → (attnRead b.c tm w).run b.m = .ok (ws, lines) m → FreeLines b (ownable lines) →
       ∃ t g' o, exec (.attn w) s = .next t ∧ t.dev = s.dev ∧ t.mach.mem = s.mach.mem ∧ t.mach.net = s.mach.net ∧
         t.mach.ctx.ops = s.mach.ctx.ops ++ [o] ∧ IssuedBy o (.attn w) b ∧ o.recs = ws ∧
         (∀ l, t.mach.ownerOf l = if l ∈ ownable lines then some o.id else s.mach.ownerOf l) ∧
         t.mach.group? b.g.gid = some g' ∧ GroupIssued (.attn w) b o [] [] [] g' ∧
         ∀ l ∈ b.c.lanes.lanes, let c := attnLaneCmd o l
           c.reject = 0 → (s.mach.chan c.stk c.ch).mode ≠ .toNormal → o.attnTaken l = true))

/-! ## Requests at their homes (R77, R208, R210, R271, R272, R344 to R346) -/

/-- R77, R210, R272, R346, R388: CELLAR_READ, CELLAR_WRITE, CELLAR_ATOMIC, DIE_STORE_REQUEST and TIER_ACCESS perform a
request that is next at its home, in one step: a read takes the bytes that stand there and changes none; a write
leaves each of its bytes at its place and no other byte changes; an atomic takes the old value and leaves what its
operation makes of it, and with one that returns nothing go the others of its word on the same bytes, lane after lane (R208,
R347). No other request and nothing of the context in place changes, but that a running grid keeps a byte of its const section
that is replaced (R20). R271, R344, R345: RELEASE_MARKER
brings a release to its home; HOME_REPORT takes a home off the list once every write to it that the release is ordered
after has been performed; FLUSH_MARKER counts the markers still out; REPLY ends a request that has been performed and
brings a load its values for the lanes it served. No register and no byte of memory changes. -/
def Obligations.HomesPerformAndAnswer : Prop :=
  (∀ (s : State) (id : Nat) (p : Pkt) (x : Loc) (i : Instr), s.mach.pkt? id = some p → s.mach.canPerform p = true →
     served s.dev s.mach p.loc = .at x → s.mach.cellarOpen x = true →
     (p.loc.space = .hbm ∧ s.mach.cellarTurn s.dev p = true ∧
         i = (match p.kind with
           | .read => .cellarRead id
           | .write _ => .cellarWrite id
           | .atomic _ _ _ _ => .cellarAtomic id)) ∨
       (p.loc.space = .die ∧ i = .dieStoreRequest id) ∨ (p.loc.space = .tier ∧ i = .tierAccess id) →
     ∃ t q, exec i s = .next t ∧ t.dev = s.dev ∧ t.mach.ctx.sansOld = s.mach.ctx.sansOld ∧ t.mach.pkt? id = some q ∧
       q.performed = true ∧ (∀ k, (∀ y ∈ s.mach.sameWord p, y.id ≠ k) → t.mach.pkt? k = s.mach.pkt? k) ∧
       match p.kind with
       | .read => t.mach.mem = s.mach.mem ∧ q.data = s.mach.mem.read x p.len
       | .write data => (∀ e ∈ data, s.mach.mem.poisoned (x.add e.1) = false) → (data.map (·.1)).Nodup →
           (∀ e ∈ data, t.mach.mem.get (x.add e.1) = e.2) ∧
           ∀ y, (∀ e ∈ data, ¬ SameByte y (x.add e.1)) → t.mach.mem.get y = s.mach.mem.get y
       | .atomic op width b c =>
         if p.returns = true then t.mach.mem = (s.mach.atomicAt x op width b.toNat c.toNat true).1.mem ∧
           q.data = natLe width (s.mach.mem.readNat x width)
         else t.mach.mem = ((s.mach.sameWord p).foldl (fun m y => match y.kind with
           | .atomic op width b c => (m.atomicAt x op width b.toNat c.toNat false).1
           | _ => m) s.mach).mem) ∧
  (∀ (s : State) (id : Nat) (p : Pkt), s.mach.pkt? id = some p →
     let still (t : State) : Prop := t.dev = s.dev ∧ t.mach.mem = s.mach.mem ∧ t.mach.ctx.groups = s.mach.ctx.groups
     (∃ t, exec (.releaseMarker id) s = .next t ∧ still t ∧ t.mach.pkt? id = some { p with atHome := true }) ∧
     (∀ h, (∀ q ∈ s.mach.net, q.id ∈ p.after → homeOf q.loc = h → q.performed = true) →
       ∃ t, exec (.homeReport id h) s = .next t ∧ still t ∧
         t.mach.pkt? id = some { p with homes := p.homes.filter (fun k => k != h) }) ∧
     (∀ n, p.paths = n + 1 → ∃ t, exec (.flushMarker id n) s = .next t ∧ still t ∧
       t.mach.pkt? id = some { p with paths := n }) ∧
     (p.performed = true → (∀ d, p.loc.space ≠ .peer d) →
       ∃ t, exec (.reply id) s = .next t ∧ still t ∧ t.mach.pkt? id = none ∧
         (∀ k, k ≠ id → t.mach.pkt? k = s.mach.pkt? k) ∧
         ∀ o, s.mach.op? p.op = some o → p.kind = .read → p.returns = true → p.poison = [] →
           let mine := o.addrs.filter (fun x => x.2.space == p.loc.space && p.loc.addr ≤ x.2.addr &&
             x.2.addr < p.loc.addr + p.len)
           mine ≠ [] → ∃ o', t.mach.op? p.op = some o' ∧ o'.writes = o.writes ++ o.results (mine.map (fun x =>
             (x.1, leNat ((p.data.drop (x.2.addr - p.loc.addr)).take (szBytes o.dest.2)))))))

/-! ## Cellars: ages, power, refresh, repair, channel modes (R268 to R283, R372) -/

/-- R274, R276: AGE_CAP_EXPIRY marks a channel's oldest waiting request once it has waited 16 AGE cycles;
POWER_DOWN_ENTRY and SELF_REFRESH_ENTRY put a pseudo-channel that has been idle for 16 PDT or 1,024 SRT cycles into
the deeper state; REFRESH changes nothing but time. Memory and the context are as before. R283, R273: FNRM_REQUEST
notes its bits in channels away from NORMAL and starts one in COMPUTE back at once; CHANNEL_TO_COMPUTE_DONE,
CHANNEL_COMPUTE_IDLE and CHANNEL_TO_NORMAL_DONE take a channel from mode to mode when their conditions hold; the last
clears the request bit and writes a log entry, behind those of the rows that it precharges (R278). That REFRESH changes
nothing is the model's choice (DESIGN CHOICE, log 53), and so is that an FNRM bit does nothing to a channel in NORMAL and
that each return to NORMAL writes its entry (DEDUCED, log 52). A request's wait counts from its arrival at the cellar
(DEDUCED, log 24). -/
def Obligations.ChannelsSleepAndChangeMode : Prop :=
  (∀ (s : State) (stack ch : Nat), stack < 8 →
     let regs := vget s.dev.cellars stack CellarRegs.reset
     let same (t : State) : Prop := t.dev = s.dev ∧ t.mach.mem = s.mach.mem ∧ t.mach.ctx = s.mach.ctx ∧ t.mach.net = s.mach.net
     let pseudo (m : Mach) (k : Nat) : Pseudo := vget (m.cellar stack).pseudos k { power := 0, idleSince := 0 }
     (∀ p, ch < 32 → s.mach.oldestAt stack ch = some p → (vget regs.age ch 0) ≠ 0 →
       p.arrive + 16 * (vget regs.age ch 0).toNat ≤ s.mach.cyc.toNat →
       ∃ t, exec (.ageCapExpiry stack ch) s = .next t ∧ same t ∧ (t.mach.chan stack ch).aged = some p.id) ∧
     (∀ n k, ch < 64 → s.mach.idleFor stack ch = some n →
       (regs.pdt.toNat ≠ 0 → 16 * regs.pdt.toNat ≤ n → k = (pseudo s.mach ch).power → ∃ t,
         exec (.powerDownEntry stack ch) s = .next t ∧ same t ∧ (pseudo t.mach ch).power = if k < 1 then 1 else k) ∧
       (regs.srt.toNat ≠ 0 → 1024 * regs.srt.toNat ≤ n → k = (pseudo s.mach ch).power → ∃ t,
         exec (.selfRefreshEntry stack ch) s = .next t ∧ same t ∧ (pseudo t.mach ch).power = if k < 2 then 2 else k)) ∧
     ∀ bank, exec (.refresh stack bank) s = .next s) ∧
  (∀ (s : State) (stack ch : Nat), stack < 8 → ch < 32 →
     let c := s.mach.chan stack ch
     (∀ v : Word, v.toNat < 2 ^ 32 → ∃ t, exec (.fnrmRequest stack v) s = .next t ∧ t.dev = s.dev ∧
       t.mach.mem = s.mach.mem ∧ t.mach.chan stack ch =
         if v.getLsbD ch = false ∨ c.mode = .normal then c
         else { c with fnrm := true, mode := if c.mode = .compute then .toNormal else c.mode }) ∧
     (c.mode = .toCompute → ∃ t, exec (.channelToComputeDone stack ch) s = .next t ∧ t.mach.mem = s.mach.mem ∧
       t.mach.chan stack ch = { c with mode := .compute }) ∧
     (c.mode = .compute → c.fnrm = true ∨ (c.attn = 0 ∧ c.attnEnd + 2048 ≤ s.mach.cyc.toNat) →
       ∃ t, exec (.channelComputeIdle stack ch) s = .next t ∧ t.mach.mem = s.mach.mem ∧
         t.mach.chan stack ch = { c with mode := .toNormal }) ∧
     (c.mode = .toNormal → c.attn = 0 → (∀ o ∈ s.mach.ctx.ops, ∀ w, o.instr ≠ .attn w) →
       ∃ t es e, exec (.channelToNormalDone stack ch) s = .next t ∧ t.mach.mem = s.mach.mem ∧
         t.mach.chan stack ch = { c with mode := .normal, fnrm := false } ∧ t.mach.logs = s.mach.logs ++ es ++ [e] ∧
         (∀ x ∈ es, x.evt = 1) ∧ e.evt = 6 ∧ e.stk = stack ∧ e.ch = ch))

/-- R271, R279 to R282, R172, R361, R372: LINE_REBUILD of a sound line restores it from its parity group, which changes no
byte, while no other line of the group fails, else from the tier address behind it, and logs which; requests that have
reached it are answered CWD; with neither source it poisons the line. A parity channel's own line is rebuilt from its data
lines, or fails with them. SCRUB_ERROR marks the register, tile, line or word of a parameter copy that it strikes, empties a
core's clause cache, or freezes a group with reason 5. That an error is reported to the host as one entry of a list is the
model's choice (DESIGN CHOICE, log 29). -/
def Obligations.ErrorsAreRepairedOrMarked : Prop :=
  ∀ (s : State),
    (∀ pa a, a = pa / 64 * 64 → a < 8 * stackBytes → s.mach.mem.poisoned { space := .hbm, addr := a } = false →
      let logged (t : State) (evt : Nat) : Prop := ∃ e, t.mach.logs = s.mach.logs ++ [e] ∧ e.evt = evt
      let answered (t : State) : Prop := ∀ q ∈ t.mach.net, q.loc.space = .hbm → q.loc.addr / 64 ≤ pa / 64 →
        a < q.loc.addr + q.len → q.performed = false → q.arrive ≤ s.mach.cyc.toNat → q.cwd = true
      (s.mach.parityHolds a = true → ∃ t, exec (.lineRebuild pa .parity) s = .next t ∧ t.mach.mem = s.mach.mem ∧
        logged t 2 ∧ answered t) ∧
      (s.mach.parityHolds a = false → exec (.lineRebuild pa .parity) s = exec (.lineRebuild pa .tier) s) ∧
      (s.mach.tierSource s.dev a = none → exec (.lineRebuild pa .tier) s = exec (.lineRebuild pa .neither) s) ∧
      (∃ t, exec (.lineRebuild pa .parityLine) s = .next t ∧ t.mach.mem = s.mach.mem ∧
        logged t (if ∀ x ∈ parityGroup a, s.mach.mem.poisoned { space := .hbm, addr := x } = false then 2 else 4)) ∧
      (s.mach.tierSource s.dev a = none → ∃ t, exec (.lineRebuild pa .neither) s = .next t ∧ logged t 4 ∧
        t.mach.mem.poisoned { space := .hbm, addr := a } = true ∧ ∀ y, t.mach.mem.get y = s.mach.mem.get y) ∧
      (∀ b, s.mach.tierSource s.dev a = some b → ∃ t, exec (.lineRebuild pa .tier) s = .next t ∧ logged t 3 ∧
        answered t ∧
        ∀ k < 64, t.mach.mem.get { space := .hbm, addr := a + k } = s.mach.mem.get { space := .tier, addr := b + k })) ∧
    (∀ err, ∃ t, exec (.scrubError err) s = .next t ∧ t.dev = s.dev ∧
      t.mach.reports = s.mach.reports ++ [(s.mach.cyc, err)]) ∧
    (∀ h off grid, s.mach.grid? h = some grid → ∃ t g', exec (.scrubError (.parameterWord h off)) s = .next t ∧
      t.mach.grid? h = some g' ∧ off / 8 * 8 ∈ g'.badParams ∧ g'.params = grid.params) ∧
    (∀ gid reg g, s.mach.group? gid = some g → ∃ t g', exec (.scrubError (.vectorRegister gid reg)) s = .next t ∧
      t.mach.group? gid = some g' ∧ reg ∈ g'.badRegs ∧ g'.v = g.v ∧ t.mach.mem = s.mach.mem) ∧
    (∀ core n, ∃ t, exec (.scrubError (.tile core n)) s = .next t ∧ (t.mach.tile core n).bad = true) ∧
    (∀ core line, core < 64 → line * 64 < 327680 → ∃ t, exec (.scrubError (.coreStoreLine core line)) s = .next t ∧
      t.mach.mem.poisoned { space := .core core, addr := line * 64 } = true ∧
      ∀ y, t.mach.mem.get y = s.mach.mem.get y) ∧
    (∀ core, ∃ t, exec (.scrubError (.clauseCache core)) s = .next t ∧ t.mach.ctx = s.mach.ctx ∧
      ∀ k ∈ t.mach.cache, k.core ≠ core) ∧
    (∀ gid g, s.mach.group? gid = some g → g.frozen = none → g.retired = false →
      ∃ t g', exec (.scrubError (.groupState gid)) s = .next t ∧ t.mach.group? gid = some g' ∧ g'.frozen = some 5)

/-! ## Boot, firmware, power (R306, R393 to R395) -/

/-- R306, R393 to R395: BOOT ends in FAILED with the number of the check that fails first: an image's signature, its
security version, the training of memory, the self-test; or in READY, with the images of its flash booted. An ATREQ or FWUP
write starts a job unless one runs; an update is done when its image passes the boot ROM's checks, which puts it into flash,
and else refused; an attestation that is done has filled its buffer. A window of 1,024 cycles reports the power and moves
the step by at most one; a die at 100 degrees holds step 4 until it cools; one at 115 degrees powers the module off, as a
shutdown does, and every register and all other state are as after reset. FOUR CLAUSES ARE THE MODEL'S CHOICE: that the
signatures of all images are checked before any version, an order among images that R394 does not give (DESIGN CHOICE, log
11); that a GOVERNOR_WINDOW step before its 1,024 cycles have passed changes nothing (DESIGN CHOICE, log 1); that BOOT in a
module that has booted, or failed to, is its next reset (DESIGN CHOICE, log 75); that ATREQ and FWUP take every value,
reserved bits among them (DESIGN CHOICE, log 23). How training, self-test and an attestation end and what a sensor measures
come from outside (DESIGN CHOICE, log 11); that flash outlives a reset and a shutdown is the model's (DEDUCED, log 68). -/
def Obligations.BootFirmwareAndPower : Prop :=
  ∀ (s : State),
    (∀ o, s.dev.st = .reset ∨ s.dev.st = .boot →
      let names := (List.range imagePlaces).map s.dev.imageAt
      let fails (n : BitVec 8) : Prop := ∃ t, exec (.boot o) s = .next t ∧ t.dev.st = .failed ∧ t.dev.berr = n ∧
        t.mach = s.mach
      ((∃ x ∈ names, Config.imageSigned x = false) → fails 1) ∧
      ((∀ x ∈ names, Config.imageSigned x = true) →
        ((∃ x ∈ names, imageFresh x = false) → fails 2) ∧
        ((∀ x ∈ names, imageFresh x = true) →
          (o = .memoryTraining → fails 3) ∧ (o = .selfTest → fails 4) ∧
          (o ≠ .memoryTraining → o ≠ .selfTest → ∃ t, exec (.boot o) s = .next t ∧ t.dev.st = .ready ∧ t.dev.berr = 0 ∧
            t.dev.booted = (List.range imagePlaces).map (fun p => (p, s.dev.imageAt p)) ∧ t.mach = s.mach)))) ∧
    (∀ o, s.dev.st = .ready ∨ s.dev.st = .failed → exec (.boot o) s = exec (.boot o) s.hardReset) ∧
    (∀ v : Word, s.dev.fwst ≠ .busy →
      (∃ t, exec (.attestationRequest v) s = .next t ∧ t.dev.fwst = .busy ∧ t.dev.atreq = v.extractLsb' 12 44 ∧
        t.dev.fwjob = some (.attest (v.toNat / 4096 % 2 ^ 44 * 4096)) ∧ t.mach = s.mach) ∧
      (∃ t n, exec (.firmwareUpdate v) s = .next t ∧ t.dev.fwst = .busy ∧ t.dev.fwup = v.extractLsb' 12 44 ∧
        t.dev.fwjob = some (.update (v.toNat / 4096 % 2 ^ 44 * 4096) n) ∧ t.mach = s.mach)) ∧
    (∀ a name ok, s.dev.fwjob = some (.update a name) → ∃ t, exec (.firmwareJobDone ok) s = .next t ∧
      t.dev.fwjob = none ∧ t.mach.mem = s.mach.mem ∧
      if Config.imageSigned name = true ∧ imageFresh name = true then
        t.dev.fwst = .done ∧ t.dev.imageAt (Config.imagePlace name % imagePlaces) = name
      else t.dev.fwst = .refused ∧ t.dev.flash = s.dev.flash) ∧
    (∀ a ok, s.dev.fwjob = some (.attest a) → a % 64 = 0 → ∃ t, exec (.firmwareJobDone ok) s = .next t ∧
      t.dev.fwjob = none ∧ t.dev.fwst = (if ok then .done else .refused) ∧ (ok = false → t.mach = s.mach) ∧
      (ok = true → ∀ k < 8192,
        t.mach.mem.get { space := .hbm, addr := a + k } = (reportBytes s.dev s.mach a).getD k 0)) ∧
    (∀ mw, s.mach.govFrom + 1024 ≤ s.mach.cyc.toNat → ∃ t, exec (.governorWindow mw) s = .next t ∧
      t.dev.pwr = BitVec.ofNat 32 mw ∧ t.mach.govFrom = s.mach.govFrom + 1024 ∧ t.mach.mem = s.mach.mem ∧
      (s.dev.alert = true → t.dev.gstep = 4) ∧
      (s.dev.alert = false → s.mach.attnInWindow = true → s.dev.gstep.toNat ≤ 4 →
        t.dev.gstep.toNat = if 3000000 < mw then min 4 (s.dev.gstep.toNat + 1)
          else if mw < 2850000 then s.dev.gstep.toNat - 1 else s.dev.gstep.toNat)) ∧
    (∀ mw, s.mach.cyc.toNat < s.mach.govFrom + 1024 → exec (.governorWindow mw) s = .next s) ∧
    (s.mach.attnLast + 4096 ≤ s.mach.cyc.toNat → s.dev.alert = false →
      exec .governorIdleReset s = .next { s with dev := { s.dev with gstep := 0 } }) ∧
    (∀ x : BitVec 16, 1840 ≤ x.toNat → exec (.thermalAlert x) s = exec .thermalShutdown s) ∧
    (∀ x : BitVec 16, 1600 ≤ x.toNat → x.toNat < 1840 →
      exec (.thermalAlert x) s = .next { s with dev := { s.dev with temp := x, alert := true, gstep := 4 } }) ∧
    (∀ x : BitVec 16, x.toNat < 1600 →
      exec (.thermalAlertClear x) s = .next { s with dev := { s.dev with temp := x, alert := false } }) ∧
    ∃ t, exec .thermalShutdown s = .next t ∧ t.mach = Mach.reset ∧
      t.dev = { Device.reset with powered := false, flash := s.dev.flash } ∧ step t = .fault .poweredOff

/-! ## Operations go on and complete (R78, R109 to R111, R212, R213, R243, R265, R299, R304) -/

/-- R109, R111: a load, store or TEND whose requests have all been answered completes: each register that it owes
receives the last value owed to it and no other changes, its marks clear, its flag falls by one, its lines are free, and
it is an operation no more. No memory and no lane changes. -/
def Obligations.OperationsCompleteWithTheirResults : Prop :=
  ∀ (s : State) (id : Nat) (limit : Option Nat) (o : Op) (g : Group) (w : WordG), s.mach.op? id = some o →
    s.mach.group? o.gid = some g → o.instr ∈ [Instr.ld w, .st w, .ldt w, .stt w, .tend w] → o.lost = [] →
    s.mach.opPending id = false →
    ∃ t g', exec (.operationComplete id limit) s = .next t ∧ t.dev = s.dev ∧ t.mach.mem = s.mach.mem ∧
      t.mach.net = s.mach.net ∧ t.mach.ctx.ops = s.mach.ctx.ops.filter (fun p => p.id != id) ∧
      t.mach.own = s.mach.own.filter (fun p => p.2 != id) ∧ t.mach.group? o.gid = some g' ∧
      g'.lanes = g.lanes ∧ g'.q = g.q ∧ g'.satf = g.satf ∧ g'.marks = g.marks.filter (fun p => p.1 != id) ∧
      (∀ n < 64, g'.sReg n = (o.owedS n).getD (g.sReg n)) ∧
      (∀ n < 12, ∀ l < 32, (g'.pReg n).has l = (o.owedP n l).getD ((g.pReg n).has l)) ∧
      (∀ h, ∀ l < 32, match o.owedV h l with
        | some x => ∃ y, g'.vStored h = some y ∧ vget y l 0 = x
        | none => ∀ x, g.vStored h = some x → ∃ y, g'.vStored h = some y ∧ vget y l 0 = vget x l 0) ∧
      ∀ k < 12, g'.flagCount k = g.flagCount k - if o.flag = some k then 1 else 0

/-- R243, R265, R299, R304: one unit of an operation is performed at its cellar or tile while others remain. TABLE_REQUEST
owes a lane of HINS or HDEL its status and output, writes the ids that a unit of HPROBE finds behind those before them in
its lane's block, with the place where they end, and makes one split of HREH, which moves the cursor on; FILTER_REQUEST owes
a lane of TEXF its channels and status 0, and writes a lane of HGF its features; ATTN_COMMAND writes the result of the
command that it has run; PEER_DRAIN_ROW adds a row to the target tile, each element rounded once. No group changes. R246,
R248, R252 to R254: a step of SNEXT, SSKIP, SISECT or SUNION consumes the next entry of its stream, or of each stream that
stands at the lower coordinate, and delivers what it has found to the next lane of the batch; a dense level gives the
coordinate at the cursor without a read. R260, R302, R309: HCODE owes each of its lanes its tables' codes, a bit for each
hyperplane on whose positive side the lane's vector lies, and BFILL writes the entries of its channel's region, each whole.
-/
def Obligations.EnginesPerformUnits : Prop :=
  ∀ (s : State) (id l : Nat) (o : Op) (w : WordG), s.mach.op? id = some o → o.st = .running →
    (∀ (ins : Bool) (m : Mach) (st out : Nat), o.instr = (if ins then .hins w else .hdel w) → o.mask.has l = true →
      o.laneDone l = false → OthersOpen o l → s.mach.writesBehind o = false →
      lowerFirst s.dev s.mach o (tableOf o.recs) l = false →
      updateTable s.dev s.mach o (tableOf o.recs) o.cap.sa.toNat ins (capLane o.cap.vb l) (capLane o.cap.vc l) =
        .ok (m, st, out) →
      ∃ t, exec (.tableRequest id l) s = .next t ∧ OpStep id s t ∧ t.mach.mem = m.mem ∧
        t.mach.op? id = some { o with writes := o.writes ++ o.laneWrite w.d.toNat l st ::
          if ins then [o.laneWrite (w.d.toNat + 1) l out] else [] }) ∧
    (∀ tm ids, o.instr = .hprobe w → Unhindered s o → s.mach.team? o.team = some tm →
      let n := probeTables w
      let lane := o.mask.lanes.getD (o.pix / n) 0
      let k := o.pix % n
      o.pix < o.mask.count * n → probeUnit s.dev s.mach o k (capLane (o.cap.vb.drop k) lane) = .ok ids →
      let at' (x : Nat) : Loc := coreLoc tm (capLane o.cap.vd lane + x)
      let p := if k = 0 then 0 else s.mach.mem.readNat (at' (0x80 + 4 * k)) 4
      SoundAt s.mach (at' 0) (0x100 + 4 * (p + ids.length)) →
      ∃ t, exec (.tableRequest id o.pix) s = .next t ∧ t.dev = s.dev ∧
        t.mach.mem.readNat (at' (0x84 + 4 * k)) 4 = (p + ids.length) % 2 ^ 32 ∧
        (∀ q < ids.length, t.mach.mem.readNat (at' (0x100 + 4 * (p + q))) 4 = ids.getD q 0 % 2 ^ 32) ∧
        (k = 0 → t.mach.mem.readNat (at' 0x80) 4 = 0 ∧ t.mach.mem.readNat (at' 0) 8 = 0xAE0D01000000000A) ∧
        ∀ y, Outside y (at' 0) (0x100 + 4 * (p + ids.length)) → t.mach.mem.get y = s.mach.mem.get y) ∧
    (∀ m x, o.instr = .hreh w → s.mach.writesBehind o = false → o.pix < o.cap.sb.toNat % 2 ^ 32 →
      let r := tableOf o.recs
      splitBucket s.dev s.mach o r o.cap.sa.toNat = .ok (m, x) →
      x = (if r.scur + 1 = 2 ^ r.lvl then tableHead r.head (r.lvl + 1) 0 else tableHead r.head r.lvl (r.scur + 1)) ∧
      ∃ t, exec (.tableRequest id o.pix) s = .next t ∧ OpStep id s t ∧ t.mach.mem = m.mem ∧
        t.mach.op? id = some { o with pix := o.pix + 1, recs := x :: o.recs.drop 1 }) ∧
    (∀ m xs, o.instr = .texf w → o.mask.has l = true → o.laneDone l = false → OthersOpen o l →
      s.mach.writesBehind o = false →
      textureSample s.dev s.mach o (textureOf o.recs).1 (mBit w.mod 0) (capF32 o.cap.vb 0 l) (capF32 o.cap.vb 1 l)
        (capF32 o.cap.vb 2 l) = .ok (m, some xs) →
      ∃ t, exec (.filterRequest id l) s = .next t ∧ OpStep id s t ∧ t.mach.mem = s.mach.mem ∧
        t.mach.op? id = some { o with writes := o.writes ++
          (channelRegs (mBit w.mod 1) (xs.map codeF32)).zipIdx.map (fun x => o.laneWrite (w.d.toNat + x.2) l x.1) ++
          [o.laneWrite w.c.toNat l 0] }) ∧
    (∀ tm m xs, o.instr = .hgf w → s.mach.team? o.team = some tm → o.mask.has l = true → o.laneDone l = false →
      OthersOpen o l → s.mach.writesBehind o = false →
      (gridLevels o.recs).foldlM (fun (acc : Mach × List Machine.Num) g => do
        let (m, xs) ← gridSample s.dev acc.1 o g [capF32 o.cap.vb 0 l, capF32 o.cap.vb 1 l, capF32 o.cap.vb 2 l]
        return (m, acc.2 ++ xs)) (s.mach, ([] : List Machine.Num)) = .ok (m, xs) →
      let bs := xs.flatMap (fun x => if mBit w.mod 4 then natLe 2 (fmtF16.round 0 false x) else natLe 4 (codeF32 x))
      SoundAt s.mach (coreLoc tm (capLane o.cap.vd l)) bs.length →
      ∃ t, exec (.filterRequest id l) s = .next t ∧ OpStep id s t ∧ BytesPut s t (coreLoc tm (capLane o.cap.vd l)) bs ∧
        t.mach.op? id = some { o with writes := o.writes ++ [o.laneWrite w.c.toNat l 0] }) ∧
    (∀ tm m r, o.instr = .attn w → s.mach.team? o.team = some tm → o.mask.has l = true → o.attnDone l = false →
      o.attnTaken l = true → (∃ k < 32, k ≠ l ∧ o.mask.has k = true ∧ o.attnDone k = false) →
      s.mach.writesBehind o = false →
      let a := attnLaneCmd o l
      a.reject = 0 → (s.mach.chan a.stk a.ch).mode = .compute ∨ (s.mach.chan a.stk a.ch).mode = .toNormal →
      s.mach.channelBehind o a.stk a.ch = false →
      (∀ k < l, o.mask.has k = true → o.attnDone k = true ∨ (attnLaneCmd o k).reject ≠ 0 ∨
        (attnLaneCmd o k).stk ≠ a.stk ∨ (attnLaneCmd o k).ch ≠ a.ch) →
      let m0 : Mach := { s.mach.modChan a.stk a.ch (fun c => { c with attn := c.attn - 1, attnEnd := s.mach.cyc.toNat }) with
        attnInWindow := true, attnLast := s.mach.cyc.toNat }
      runAttn s.dev m0 a (attnQ o l a.dlen) = (m, some r) →
      ∃ t, exec (.attnCommand id l) s = .next t ∧ OpStep id s t ∧
        t.mach.op? id = some { o with pix := o.pix + 2 ^ l } ∧
        t.mach.mem = (s.mach.writeBytes (bytesAt (coreLoc tm a.ooff)
          (natLe 8 (r.m + 65536 * r.l) ++ r.out.flatMap (natLe 2)))).mem ∧
        (t.mach.chan a.stk a.ch).attn = (s.mach.chan a.stk a.ch).attn - 1) ∧
    (∀ u, o.instr = .mdrain w → mBit w.mod 4 = true → o.recs ≠ [] → o.aux ≠ 0 → o.pix + 1 < (regionOf w.mod).rows →
      s.mach.drainTarget o.grid o.cap.sc = some u → s.mach.tileTurn o = true →
      let r := regionOf w.mod
      let n := u.tile (bitsAt o.cap.sc 32 3)
      let d := s.mach.tile u.core n
      let fd := tileFmt d.f16
      d.bad = false →
      ∃ t, exec (.peerDrainRow id) s = .next t ∧ OpStep id s t ∧ t.mach.mem = s.mach.mem ∧
        t.mach.op? id = some { o with pix := o.pix + 1, recs := o.recs.drop r.cols } ∧
        ∀ j < r.cols, (t.mach.tile u.core n).get d.f16 (r.elem o.pix j) =
          fd.round 0 false (Machine.Num.add false (fd.decode (d.get d.f16 (r.elem o.pix j)))
            ((tileFmt (o.cap.sd == 1)).decode (o.recs.getD j 0).toNat)) % 2 ^ fd.width) ∧
    -- streams
    (∀ g m x n, s.mach.streamBehind o = false → n < 8 → m.group? o.gid = some g → g.retired = false →
      m.op? id = some o → takeEntry s.dev s.mach o n = .ok (m, some (x, false)) →
      let f := g.stream n
      let eaten (f' : Stream) : Prop := f'.lastc = BitVec.ofNat 32 x.crd ∧ f'.lv = true ∧
        f'.cur = BitVec.ofNat 32 (1 + if f.kind = 0 ∨ f.kind = 2 then x.crd else x.idx)
      (f.kind = 0 → x = ⟨f.cur.toNat, f.cur.toNat, f.ppos.toNat * f.size + f.cur.toNat⟩) ∧
      (o.instr = .snext w → n = w.a.toNat → o.pix < o.mask.count →
        ∃ t g', exec (.operationComplete id (some 1)) s = .next t ∧ t.dev = s.dev ∧ t.mach.mem = m.mem ∧
          t.mach.op? id = some { o with pix := o.pix + 1 } ∧ t.mach.group? o.gid = some g' ∧ eaten (g'.stream n) ∧
          OpLane o g' w.d.toNat (o.mask.lanes.getD o.pix 0) x.crd ∧
          OpLane o g' (w.d.toNat + 1) (o.mask.lanes.getD o.pix 0) x.pos) ∧
      (o.instr = .sskip w → n = w.a.toNat → f.kind ≠ 0 → o.lost = [] → o.writes = [] → 192 ≤ w.d.toNat →
        (x.crd < o.cap.sb.toNat % 2 ^ 32 → ∃ t g', exec (.operationComplete id (some 1)) s = .next t ∧ t.dev = s.dev ∧
          t.mach.mem = m.mem ∧ t.mach.op? id = some o ∧ t.mach.group? o.gid = some g' ∧ eaten (g'.stream n)) ∧
        (o.cap.sb.toNat % 2 ^ 32 ≤ x.crd → ∃ t g', exec (.operationComplete id (some 1)) s = .next t ∧ t.dev = s.dev ∧
          t.mach.mem = m.mem ∧ t.mach.op? id = none ∧ t.mach.group? o.gid = some g' ∧ g'.stream n = f ∧
          g'.sReg (w.d.toNat - 192) = BitVec.ofNat 64 x.crd)) ∧
      (∀ (un : Bool) g2 m2 y, o.instr = (if un then .sunion w else .sisect w) → n = w.a.toNat → w.b.toNat < 8 →
        w.a ≠ w.b → o.pix < o.mask.count → (s.mach.opStream o w.b.toNat).st = .opened →
        takeEntry s.dev m o w.b.toNat = .ok (m2, some (y, false)) → m2.group? o.gid = some g2 → g2.retired = false →
        g2.stream n = f → m2.op? id = some o →
        let h := g2.stream w.b.toNat
        let lane := o.mask.lanes.getD o.pix 0
        ∃ t g', exec (.operationComplete id (some 1)) s = .next t ∧ t.dev = s.dev ∧ t.mach.mem = m2.mem ∧
          t.mach.group? o.gid = some g' ∧
          (if x.crd ≤ y.crd then eaten (g'.stream n) else g'.stream n = f) ∧
          (if y.crd ≤ x.crd then (g'.stream w.b.toNat).lastc = BitVec.ofNat 32 y.crd else g'.stream w.b.toNat = h) ∧
          (if x.crd = y.crd ∨ un = true then
             t.mach.op? id = some { o with pix := o.pix + 1 } ∧ OpLane o g' w.d.toNat lane (min x.crd y.crd) ∧
             OpLane o g' (w.d.toNat + 1) lane (if x.crd ≤ y.crd then x.pos else 4294967295) ∧
             OpLane o g' (w.d.toNat + 2) lane (if y.crd ≤ x.crd then y.pos else 4294967295)
           else t.mach.op? id = some o))) ∧
    (∀ g, o.instr = .sskip w → s.mach.streamBehind o = false → w.a.toNat < 8 → s.mach.group? o.gid = some g →
      g.retired = false → o.lost = [] → o.writes = [] → 192 ≤ w.d.toNat →
      let f := g.stream w.a.toNat
      f.st = .opened → f.kind = 0 →
      let new := min (max f.cur.toNat (o.cap.sb.toNat % 2 ^ 32)) f.fin.toNat
      f.cur.toNat < f.fin.toNat →
      ∃ t g', exec (.operationComplete id (some 1)) s = .next t ∧ t.dev = s.dev ∧ t.mach.mem = s.mach.mem ∧
        t.mach.op? id = none ∧ t.mach.group? o.gid = some g' ∧ (g'.stream w.a.toNat).cur = BitVec.ofNat 32 new ∧
        g'.sReg (w.d.toNat - 192) = BitVec.ofNat 64 (if new < f.fin.toNat then new else 4294967295)) ∧
    -- operations that never stop
    (∀ tm f g, o.instr = .hcode w → Unhindered s o → s.mach.team? o.team = some tm → o.fam = some f → o.writes = [] →
      o.lost = [] → o.gone = [] → s.mach.group? o.gid = some g →
      let offs := o.cap.va.headD (laneFn (fun _ => 0))
      let off (k : Nat) : Nat := (vget offs k 0).toNat
      let vec (a : Nat) : List Machine.Num := (List.range f.dim).map (fun e =>
        valOf ((tyOfCode f.pfmt).getD (.int 8)) (s.mach.mem.readNat (coreLoc tm (a + f.es * e)) f.es))
      let plane (h : Nat) : List Machine.Num := vec (f.planes + h * f.dim * f.es)
      SoundAt s.mach (coreLoc tm f.planes) (f.lt * f.kb * f.dim * f.es) →
      (∀ k ∈ o.mask.lanes, SoundAt s.mach (coreLoc tm (off k)) (f.dim * f.es)) →
      ∃ t g', exec (.operationComplete id none) s = .next t ∧ t.dev = s.dev ∧ t.mach.mem = s.mach.mem ∧
        t.mach.op? id = none ∧ t.mach.group? o.gid = some g' ∧
        ∀ k ∈ o.mask.lanes, ∀ e < f.lt, OpLane o g' (w.d.toNat + e) k ((List.range f.kb).foldl (fun a b =>
          if f32Positive (project f (vec (off k)) (plane (e * f.kb + b))) then a + 2 ^ b else a) 0)) ∧
    (∀ tm, o.instr = .bfill w → Unhindered s o → s.mach.team? o.team = some tm →
      let a := o.cap.sa
      let stk := bitsAt a 37 3
      let ch := bitsAt a 32 5
      let n := bitsAt a 16 16
      bitsAt a 0 16 + n ≤ 16384 → s.mach.channelBehind o stk ch = false → o.lost = [] →
      SoundAt s.mach (coreLoc tm o.cap.sb.toNat) (4 * n) →
      ∃ t, exec (.operationComplete id none) s = .next t ∧ t.dev = s.dev ∧ t.mach.mem = s.mach.mem ∧
        t.mach.op? id = none ∧
        (∀ k < n, regionGet t.mach.ctx.regions (regionKey stk ch (bitsAt a 0 16 + k)) =
          BitVec.ofNat 32 (s.mach.mem.readNat (coreLoc tm (o.cap.sb.toNat + 4 * k)) 4)) ∧
        ∀ x, (∀ k < n, x ≠ regionKey stk ch (bitsAt a 0 16 + k)) →
          regionGet t.mach.ctx.regions x = regionGet s.mach.ctx.regions x)

/-- R78, R79, R212, R213: OWN_ACQUIRE issues a waiting engine word again at its place; LINE_RELEASE frees a line that its
owner has written for the last time; TABLE_WALK leaves in the core's TLB the leaf of an address that passes every check, so
that the next translation answers at once, and of one that fails no leaf enters it; it waits while a place of its entries
serves nobody (R274, R283). R230 to R233, R237 to R242: an engine
operation that nothing hinders performs its next element at OPERATION_COMPLETE. COPY writes the 16 bytes at its source to
its destination; GTHA the row that its index names, or zeros; TMOV an element that stands alone in its aligned 16 bytes, or
the source record's FILL where it lies outside the source, and nothing where it lies outside the destination. A chunk of an MMA adds to each
element of its region the scaled sum of its products, rounded once; MLDA loads a row of its region, MDRAIN writes one in its
output format, and MZERO clears its region whole and ends. Every byte and element beside those is as before. THREE CLAUSES
ARE THE MODEL'S CHOICE: that the FILL which TMOV writes for an element outside the source is the source record's (R231 says
only FILL; DEDUCED, log 43); that a chunk of an MMA reads its operands in one moment (DEDUCED, log 55); that TMOV reads its
source by aligned pieces of 16 bytes, of which the elements after one use the bytes that it has read (R336; DEDUCED, log 78),
so that the clause is about an element of which none has been read yet. -/
def Obligations.LinesAndLeavesChangeHands : Prop :=
  (∀ (s : State),
     (∀ gid g g1 run p cl w i, s.dev.ctxst = .running → s.mach.group? gid = some g → g.ownWait.isSome = true →
       s.mach.canIssue g = true → s.mach.deliverable g = false →
       let s' : State := { s with mach := { s.mach with cur := gid } }
       wordAtIssue s' = some (g1, run, p, cl) →
       ofOpcode (bitsAt (cl.words.getD (p.idx - 1) 0) 54 10) (cl.words.getD (p.idx - 1) 0) = some i →
       i ∈ [Instr.copy w, .gtha w, .tmov w, .mdrain w, .hprobe w, .raye w, .anyr w, .hgf w, .attn w] →
       ∃ t, exec (.ownAcquire gid) s = .next t ∧ exec i s' = .next t) ∧
     (∀ id line o ls, s.mach.op? id = some o → s.mach.linesLeft s.dev o = some ls → line ∉ ls →
       ∃ t, exec (.lineRelease id line) s = .next t ∧ t.dev = s.dev ∧
         { t.mach with own := [] } = { s.mach with own := [] } ∧ (∀ p ∈ t.mach.own, p ≠ (line, id)) ∧
         ∀ k, k ≠ line → t.mach.ownerOf k = s.mach.ownerOf k) ∧
     (∀ core (va : Word) kind, va.toNat < 2 ^ 56 →
       s.mach.transHeld s.dev core none va.toNat = false →
       (∀ m l, translate s.dev s.mach core kind va.toNat = (m, .ok l) →
         ∃ t, exec (.tableWalk core va kind) s = .next t ∧ t.dev = s.dev ∧ t.mach.sansReads = s.mach.sansReads ∧
           (tlbLeaf t.mach core va.toNat).isSome = true ∧
           (tlbLeaf s.mach core va.toNat = none → translate t.dev t.mach core kind va.toNat = (t.mach, .ok l))) ∧
       (∀ m e, translate s.dev s.mach core kind va.toNat = (m, .error e) →
         ∃ t, exec (.tableWalk core va kind) s = .next t ∧ t.mach.tlb = s.mach.tlb))) ∧
  (∀ (s : State) (o : Op) (tm : Team) (w : WordG), s.mach.op? o.id = some o → s.mach.team? o.team = some tm →
     Unhindered s o →
     let own (l : Loc) (n : Nat) : Prop := ∀ k < n, ∀ x ∈ o.before, x.1 ≠ l.add k
     let done (bs : List Byte) (d : Loc) : Prop :=
       ∃ t, exec (.operationComplete o.id (some 1)) s = .next t ∧ ElemDone o s t ∧ BytesPut s t d bs
     (∀ ls ld, o.instr = .copy w →
       let a := copyArgs w o.cap
       let src := w.mod.toNat % 4
       o.pix + 1 < a.2.2 / 16 →
       opAddr s.dev s.mach o o.mask src .engineRead 16 (spAddr src (a.1 + 16 * o.pix)) = .ok (s.mach, ls) →
       opAddr s.dev s.mach o o.mask (mSpc w.mod) .engineWrite 16 (spAddr (mSpc w.mod) (a.2.1 + 16 * o.pix)) =
         .ok (s.mach, ld) →
       SoundAt s.mach ls 16 → SoundAt s.mach ld 16 → own ls 16 → done (s.mach.mem.read ls 16) ld) ∧
     (∀ il ld b, o.instr = .gtha w →
       let geo := gthaGeo (o.recs.getD 0 0)
       let rowb := geo.2
       let tsp := w.mod.toNat % 4
       let lsp := w.mod.toNat / 4 % 4
       let dsp := mSpc w.mod
       o.pix + 1 < geo.1 → 0 < rowb →
       opAddr s.dev s.mach o o.mask lsp .engineRead 4 (spAddr lsp (spAddr lsp o.cap.sb.toNat + 4 * o.pix)) =
         .ok (s.mach, il) →
       opSpan s.dev s.mach o dsp .engineWrite (spAddr dsp (spAddr dsp o.cap.sc.toNat + o.pix * rowb)) rowb =
         .ok (s.mach, [(ld, rowb, b)]) →
       SoundAt s.mach il 4 → SoundAt s.mach ld rowb →
       let x := s.mach.mem.readNat il 4
       (w.mod.getLsbD 4 = true → x = 4294967295 → done (List.replicate rowb 0) ld) ∧
       ∀ ls a, w.mod.getLsbD 4 = false ∨ x ≠ 4294967295 →
         opSpan s.dev s.mach o tsp .engineRead (spAddr tsp (spAddr tsp o.cap.sa.toNat + x * rowb)) rowb =
           .ok (s.mach, [(ls, rowb, a)]) →
         SoundAt s.mach ls rowb → own ls rowb → done (s.mach.mem.read ls rowb) ld) ∧
     (o.instr = .tmov w →
       let v := moveOf o.recs
       let n := 2 ^ v.dst.esz
       let e := v.at o.pix
       o.pix + 1 < v.count → v.piece o.pix = 1 →
       (v.dst.inside e.2 = false → ∃ t, exec (.operationComplete o.id (some 1)) s = .next t ∧ ElemDone o s t ∧
         t.mach.mem = s.mach.mem) ∧
       ∀ ld, v.dst.inside e.2 = true →
         opAddr s.dev s.mach o o.mask v.dst.tspc .engineWrite n (v.dst.addr e.2) = .ok (s.mach, ld) → SoundAt s.mach ld n →
         (v.src.inside e.1 = false → done (natLe n v.src.fillVal) ld) ∧
         ∀ ls, v.src.inside e.1 = true →
           opAddr s.dev s.mach o o.mask v.src.tspc .engineRead n (v.src.addr e.1) = .ok (s.mach, ls) →
           SoundAt s.mach ls n → own ls n → (∀ k < n, ∀ x ∈ o.held, x.1 ≠ ls.add k) →
           ∃ t held, exec (.operationComplete o.id (some 1)) s = .next t ∧ OpStep o.id s t ∧
             t.mach.op? o.id = some { o with pix := o.pix + 1, held := held } ∧ BytesPut s t ld (s.mach.mem.read ls n)) ∧
     (s.mach.tileTurn o = true → (∀ u ∈ s.mach.tileUses o, (s.mach.tile u.1 u.2.1).bad = false) →
       let r := regionOf w.mod
       let at' (x : Nat) : Loc := coreLoc tm x
       let n := tm.tile w.d.toNat
       let d := s.mach.tile o.core n
       let inside (e : Nat) : Prop := ∃ i < r.rows, ∃ j < r.cols, e = r.elem i j
       (∀ ma mb, o.instr = .mma w → o.maps = [ma, mb] →
         let f := formatOf (o.recs.getD 0 0).toNat
         let c := o.pix
         let asrc := mBit w.mod 4
         let aty := (tyOfCode f.afmt).getD (.int 8)
         let bty := (tyOfCode f.bfmt).getD (.int 8)
         let src := s.mach.tile o.core (tm.tile w.a.toNat)
         let rd (es x : Nat) : Nat := s.mach.mem.readNat (at' x) es
         let elA (i k : Nat) : Nat :=
           if asrc then roundTy aty f.dcr f.dcs ((tileFmt (o.aux == 1)).decode
             (src.get (o.aux == 1) ((32 * bitsAt w.mod 2 2 + i) * 128 + k)))
           else rd f.es (ma.elem f.es k i)
         let scale (x : Nat) : Machine.Num := (fmtQ8 1 true true).decode (rd 1 x)
         let ks := (List.range f.chunk).map (c * f.chunk + ·)
         let sum (i j : Nat) : Machine.Num := chunkSum (ks.map (fun k => valOf aty (elA i k)))
           (ks.map (fun k => valOf bty (rd f.es (mb.elem f.es k j))))
           (if f.scaleA then some (scale (scaleAddrA asrc ma mb i c)) else none)
           (if f.scaleB then some (scale (scaleAddrB mb j c)) else none)
         let acc := tileFmt f.accf
         let offs := chunkOffsets f asrc ma mb r c
         (∀ x ∈ offs.1 ++ offs.2.1, SoundAt s.mach (at' x) f.es) → (∀ x ∈ offs.2.2, SoundAt s.mach (at' x) 1) →
         c + 1 < mb.klen / f.chunk →
         ∃ t, exec (.operationComplete o.id (some 1)) s = .next t ∧ ElemDone o s t ∧ t.mach.mem = s.mach.mem ∧
           (∀ i < r.rows, ∀ j < r.cols, (t.mach.tile o.core n).get f.accf (r.elem i j) =
             acc.round 0 false (Machine.Num.add false (acc.decode (d.get f.accf (r.elem i j))) (sum i j)) % 2 ^ acc.width) ∧
           (d.cf = f.accf → ∀ e, ¬ inside e → (t.mach.tile o.core n).get f.accf e = d.get f.accf e)) ∧
       (o.instr = .mzero w → o.lost = [] → o.pix = 0 →
         let f16 := mBit w.mod 4
         ∃ t, exec (.operationComplete o.id none) s = .next t ∧ t.dev = s.dev ∧ t.mach.mem = s.mach.mem ∧
           t.mach.op? o.id = none ∧ (∀ i < r.rows, ∀ j < r.cols, (t.mach.tile o.core n).get f16 (r.elem i j) = 0) ∧
           (mShp w.mod ≠ 0 → d.cf = f16 → ∀ e, ¬ inside e → (t.mach.tile o.core n).get f16 e = d.get f16 e)) ∧
       (o.instr = .mlda w → o.pix + 1 < r.rows →
         let f16 := mBit w.mod 4
         let es := if f16 then 2 else 4
         let off := o.cap.sa.toNat + o.pix * o.cap.sb.toNat
         SoundAt s.mach (at' off) (r.cols * es) →
         ∃ t, exec (.operationComplete o.id (some 1)) s = .next t ∧ ElemDone o s t ∧ t.mach.mem = s.mach.mem ∧
           (∀ j < r.cols, (t.mach.tile o.core n).get f16 (r.elem o.pix j) = s.mach.mem.readNat (at' (off + j * es)) es) ∧
           (d.cf = f16 → ∀ e, (∀ j < r.cols, e ≠ r.elem o.pix j) → (t.mach.tile o.core n).get f16 e = d.get f16 e)) ∧
       (o.instr = .mdrain w → mBit w.mod 4 = false → o.pix + 1 < r.rows →
         let y := o.cap.sb
         let oes := tyWidth (drainTy y) / 8
         let src := s.mach.tile o.core (tm.tile w.a.toNat)
         let dst := at' (o.cap.sd.toNat + o.pix * (y.toNat % 2 ^ 32))
         SoundAt s.mach dst (r.cols * oes) →
         done ((List.range r.cols).flatMap (fun j => natLe oes (roundTy (drainTy y) (bitsAt y 38 3) (y.getLsbD 41)
           ((tileFmt (o.aux == 1)).decode (src.get (o.aux == 1) (r.elem o.pix j)))))) dst)))

/-! ## Turns, swaps, sleep, frames (R100 to R105, R115 to R122, R158, R159, R352, R353, R361) -/

/-- R102 to R105, R158, R159, R352, R353, R361: a ready active group is raised after 64 cycles; one to which no trap is to
be delivered and whose wait has held for 16 leaves the active set, at a header with SWP at once; the pending group that was
the first to be ready for 1,024 cycles claims the place of the one active longest; a free place admits a group, whose first
word waits two or three cycles; a sleeper wakes at its deadline, with a trap when its promise was missed; a changed phase
ends a barrier wait; a deferred arrival arrives once its operations have completed; a trap that waited enters the queue. No
register and no lane changes. -/
def Obligations.GroupsTakeTurns : Prop :=
  ∀ (s : State) (gid : Nat) (g : Group), s.mach.group? gid = some g →
    let now := s.mach.cyc.toNat
    let moved (t : State) (f : Sched → Sched) : Prop := GroupStep gid s t { g with sched := f g.sched }
    (∀ c, s.dev.ctxst = .running → g.sched.active = true → s.mach.isReady s.dev g = true → g.sched.readySince = some c →
      c + 64 ≤ now → ∃ t, exec (.groupRaise gid) s = .next t ∧ moved t (fun x => { x with raised := true })) ∧
    (∀ c, s.dev.ctxst = .running → g.sched.active = true → g.sched.waitSince = some c → c + 16 ≤ now →
      s.mach.stillWaits s.dev g = true → s.mach.deliverable g = false → ∃ t, exec (.waitSwapOut gid) s = .next t ∧
        moved t (fun x => { x with active := false, since := now, claim := false })) ∧
    (∀ h, s.dev.ctxst = .running → g.sched.active = true → s.mach.headerAt s.dev g = some h → h.swp = true →
      waitHolds g h = false → s.mach.deliverable g = false → ∃ t, exec (.waitSwapOut gid) s = .next t ∧
        moved t (fun x => { x with active := false, since := now, claim := false })) ∧
    (∀ c, s.dev.ctxst = .running → NamesDiffer s → g.sched.active = false → s.mach.isReady s.dev g = true →
      g.sched.readySince = some c → c + 1024 ≤ now →
      (∀ h ∈ s.mach.inQuarter g.core g.quarter, h.sched.claim = false) →
      (∀ h ∈ s.mach.inQuarter g.core g.quarter, h.gid ≠ gid → h.sched.active = false → s.mach.isReady s.dev h = true →
        ∀ d, h.sched.readySince = some d → d + 1024 ≤ now →
          c < d ∨ (c = d ∧ (g.placed < h.placed ∨ (g.placed = h.placed ∧ g.num < h.num)))) →
      (∃ h ∈ s.mach.inQuarter g.core g.quarter, h.sched.active = true) →
      ∃ t v v', exec (.pendingRaise gid) s = .next t ∧ t.dev = s.dev ∧ v ∈ s.mach.inQuarter g.core g.quarter ∧
        v.sched.active = true ∧
        (∀ h ∈ s.mach.inQuarter g.core g.quarter, h.sched.active = true → v.sched.since ≤ h.sched.since) ∧
        t.mach.group? gid = some { g with sched := { g.sched with claim := true } } ∧
        t.mach.group? v.gid = some v' ∧ v' = { v with sched := v'.sched } ∧
        (s.mach.mayLeave s.dev v = true → v'.sched.active = false) ∧
        (s.mach.mayLeave s.dev v = false → v'.sched.claim = true) ∧
        ∀ k, k ≠ gid → k ≠ v.gid → t.mach.group? k = s.mach.group? k) ∧
    (s.dev.ctxst = .running → s.mach.activeCount g.core g.quarter < 8 →
      (s.mach.nextIn s.dev g.core g.quarter).map (·.gid) = some gid → ∃ t, exec (.groupSwapIn gid) s = .next t ∧
        moved t (fun x => { x with active := true, since := now, claim := false, waitSince := none,
                                   holdUntil := now + 2 + if s.mach.nextReadsV g then 1 else 0 })) ∧
    (s.dev.ctxst = .running → g.clause = none →
      (∃ d, g.sleep = some (.until d) ∧ d.toNat ≤ now) ∨
        (∃ d f off mask reg seq z back, g.sleep = some (.promise d f off mask reg seq z back) ∧ d.toNat ≤ now ∧ g.flagCount f = 0 ∧
          ∀ c, z = some c → c.toNat < d.toNat) →
      ∃ t, exec (.sleepWake gid) s = .next t ∧ GroupStep gid s t { g with sleep := none }) ∧
    (∀ (d : Word) (f off : Nat) (mask : Mask) (reg : Word) (seq : Nat) (c : Word) (back : Nat × Nat)
      (grid : Grid),
      s.dev.ctxst = .running → g.clause = none → g.sleep = some (.promise d f off mask reg seq (some c) back) →
      g.flagCount f = 0 → d.toNat ≤ c.toNat → c.toNat < now → g.retired = false → s.mach.gridOfGroup? g = some grid →
      grid.hdr.hv = true →
      ∃ t g' tr, exec (.promiseMissed gid) s = .next t ∧ t.dev = s.dev ∧ t.mach.mem = s.mach.mem ∧
        t.mach.group? gid = some g' ∧ TrapRaised s t g g' tr ∧ tr.cause = 11 ∧ tr.kind = .n ∧ tr.mask = mask ∧
        tr.off = off ∧ tr.info = c ∧ tr.regcnt = reg ∧ tr.back = some back ∧ g'.sleep = none ∧ g'.lanes = g.lanes ∧ g'.s = g.s ∧ g'.v = g.v) ∧
    ((∃ b ∈ g.barWaits, (s.mach.barrier b.bar).ph ≠ b.phase) → ∃ t, exec (.barrierWaitPass gid) s = .next t ∧
      moved t (fun x => { x with waitSince := none, readySince := some (x.readySince.getD now) })) ∧
    (∀ u us, g.trapsOut = u :: us → g.traps.length < 8 → ∃ t, exec (.trapQueueEntry gid) s = .next t ∧
      GroupStep gid s t { g with traps := g.traps ++ [u], trapsOut := us }) ∧
    ∀ (team index k : Nat) (d : Deferred) (tm : Team),
      ((s.mach.ctx.groups.filter (fun x => x.team == team)).flatMap
        (fun x => x.deferred.zipIdx.map (fun e => (x.gid, e.2, e.1))))[index]? = some (gid, k, d) →
      (∀ o ∈ s.mach.ctx.ops, o.id ∉ d.ops) → s.mach.team? d.team = some tm → d.bar < 16 → d.target ≠ 0 →
      let x := s.mach.barrier (.team d.team d.bar)
      let target : BitVec 16 := if x.tgt = 0 then d.target else x.tgt
      ∃ t, exec (.deferredArrival team index) s = .next t ∧ t.dev = s.dev ∧ t.mach.mem = s.mach.mem ∧
        t.mach.group? gid = some { g with deferred := g.deferred.eraseIdx k } ∧
        t.mach.barrier (.team d.team d.bar) =
          if target.toNat ≤ (x.cnt + 1).toNat then { ph := x.ph + 1, cnt := x.cnt + 1 - target, tgt := 0 }
          else { ph := x.ph, cnt := x.cnt + 1, tgt := target }

/-- R115, R117, R120, R122: the drover's stages take frames of pending groups that are not blocked; after 256 cycles lower
frames of the blocked groups, but for registers that the current frame's window names; after 1,024 cycles frames of every
other group that has left or stands where it may leave, the active ones leaving at their next boundary; each stage until the
blocked groups' need is met, where no write to a home has to wait (R274, R283, R390). A grant reserves a blocked group's frame. No register's value, no lane and no link record
changes. -/
def Obligations.DroverTakesAndGrantsFrames : Prop :=
  ∀ (s : State) (core quarter : Nat) (o : Group) (c : Nat), s.dev.ctxst = .running → NamesDiffer s → AllServed s →
    s.mach.oldestBlocked core quarter = some o → o.sched.blockedSince = some c →
    let now := s.mach.cyc.toNat
    let need := s.mach.blockedNeed core quarter
    let here := s.mach.inQuarter core quarter
    let emptied (t : State) (g : Group) : Prop := ∃ g', t.mach.group? g.gid = some g' ∧ g'.reserved = 0
    (c ≤ now → ∃ t, exec (.droverStage1 core quarter) s = .next t ∧ FramesTaken s t ∧
      (need ≤ t.mach.freeRegs core quarter ∨
        ∀ g ∈ here, g.sched.active = false → g.sched.blockedSince = none → g.retired = false → emptied t g)) ∧
    (c + 256 ≤ now → ∃ t, exec (.droverStage2 core quarter) s = .next t ∧ FramesTaken s t ∧
      (need ≤ t.mach.freeRegs core quarter ∨
        ∀ g ∈ here, g.sched.blockedSince.isSome = true → g.retired = false → ∀ lv < g.level,
          ∃ g', t.mach.group? g.gid = some g' ∧ (g'.link lv).held ≤ g.wanted lv)) ∧
    (c + 1024 ≤ now → ∃ t, exec (.droverStage3 core quarter) s = .next t ∧ FramesTaken s t ∧
      (need ≤ t.mach.freeRegs core quarter ∨
        ∀ g ∈ here, g.gid ≠ o.gid → g.retired = false → g.sched.active = false ∨ s.mach.mayLeave s.dev g = true → emptied t g) ∧
      ∀ g ∈ here, g.gid ≠ o.gid → g.retired = false → g.sched.active = true →
        ∃ g', t.mach.group? g.gid = some g' ∧ (g'.sched.active = false ∨ g'.sched.claim = true)) ∧
    ∀ gid g, s.mach.group? gid = some g → g.sched.blockedSince.isSome = true →
      g.frameNeed ≤ s.mach.freeRegs g.core g.quarter → s.mach.stage3 g = false →
      ∃ t g', exec (.frameGrant gid) s = .next t ∧ GroupStep gid s t g' ∧ g'.frameResident = true ∧
        g'.sched.blockedSince = none ∧ { g' with links := g.links, sched := g.sched } = g ∧
        g'.links.map Link.bare = g.links.map Link.bare

/-! ## Graphs, instances, nodes (R21 to R42, R431) -/

/-- R29 to R32, R36, R383, R385: while the context runs, a GUPL write waits as the upload or removal of its graph; once no
instance of the number remains a removal takes the graph away, a checked upload takes its place, and a refused one
leaves it and gives its reason; HFLAG takes its value. While no context runs these writes are discarded and set DROP.
A TRIG write that passes R36 queues an instance; one that names no graph sets EVT bit 1 and NGN. -/
def Obligations.HostWritesReachTheDistributor : Prop :=
  ∀ (s : State) (v : Word),
    let discarded (i : Instr) : Prop := exec i s = .next { s with dev := { s.dev with drop := true } }
    (s.dev.ctxst ≠ .running → discarded (.graphUpload v) ∧ discarded (.graphRemoval v) ∧ discarded (.trigWrite v) ∧
      ∀ n, discarded (.hostFlagWrite n v)) ∧
    (s.dev.ctxst = .running → ∀ n : BitVec 8, ∃ t, exec (.hostFlagWrite n v) s = .next t ∧ t.dev = s.dev ∧
      t.mach.mem = s.mach.mem ∧ ∀ k < 256, vget t.mach.ctx.hflags k 0 = if k = n.toNat then v else vget s.mach.ctx.hflags k 0) ∧
    (s.dev.ctxst = .running → s.dev.upload.busy = false → v.toNat % 64 = 0 →
      (v.toNat / 64 % 2 ^ 50 ≠ 0 → ∃ t, exec (.graphUpload v) s = .next t ∧ t.mach = s.mach ∧ t.dev.upload.st = .pending ∧
        t.dev.upload.addr = v.toNat / 64 % 2 ^ 50 * 64 ∧ t.dev.upload.lost = false) ∧
      (v.toNat / 64 % 2 ^ 50 = 0 → ∃ t, exec (.graphRemoval v) s = .next t ∧ t.mach = s.mach ∧ t.dev.upload.st = .pending ∧
        t.dev.upload.gnum = v.extractLsb' 56 8 ∧ t.dev.upload.addr = 0)) ∧
    (s.dev.ctxst = .running → s.dev.upload.busy = true → s.dev.upload.known = false →
      ∀ n, headerGnum s.dev s.mach s.dev.upload.addr = .ok n → ∃ t, exec .uploadCheck s = .next t ∧ t.mach = s.mach ∧
        t.dev.upload = { s.dev.upload with gnum := n, known := true }) ∧
    (s.dev.ctxst = .running → s.dev.upload.busy = true → s.dev.upload.known = true →
      s.mach.ctx.graphBusy s.dev.upload.gnum = true → exec .uploadCheck s = .next s) ∧
    (s.dev.ctxst = .running → s.dev.upload.busy = true → s.dev.upload.known = true →
      s.mach.ctx.graphBusy s.dev.upload.gnum = false →
      let others (t : State) (n : BitVec 8) : Prop := ∀ k, k ≠ n → t.mach.ctx.graph? k = s.mach.ctx.graph? k
      (s.dev.upload.addr = 0 → ∃ t, exec .uploadCheck s = .next t ∧ t.dev.upload.st = .done ∧
        t.mach.ctx.graph? s.dev.upload.gnum = none ∧ others t s.dev.upload.gnum) ∧
      (∀ g, s.dev.upload.addr ≠ 0 → checkGraph s.dev s.mach s.dev.upload.addr = .ok g →
        g.gnum = s.dev.upload.gnum → ∃ t, exec .uploadCheck s = .next t ∧ t.dev.upload.st = .done ∧ t.mach.ctx.graph? g.gnum = some g ∧
          others t g.gnum ∧ t.mach.mem = s.mach.mem) ∧
      ∀ r k i, s.dev.upload.addr ≠ 0 → checkGraph s.dev s.mach s.dev.upload.addr = .error (.code r k i) →
        ∃ t, exec .uploadCheck s = .next t ∧ t.mach = s.mach ∧ t.dev.upload.st = .refused ∧
          t.dev.upload.reason = BitVec.ofNat 8 r ∧ t.dev.upload.index = BitVec.ofNat 16 i) ∧
    (s.dev.ctxst = .running → s.mach.ctx.graph? (v.extractLsb' 56 8) = none → ∃ t, exec (.trigWrite v) s = .next t ∧
      t.mach = s.mach ∧ t.dev.evt.getLsbD 1 = true ∧ t.dev.ngn = v.extractLsb' 56 8) ∧
    ∀ g area, s.dev.ctxst = .running → s.mach.ctx.graph? (v.extractLsb' 56 8) = some g →
      s.dev.uploading (v.extractLsb' 56 8) = false → v.toNat % 8 = 0 → g.insts.length < 8 →
      s.mach.ctx.schedUsed none + g.parea ≤ 8388608 → patched s.dev s.mach g (v.toNat % 2 ^ 56) = .ok area →
      ∃ t g' x, exec (.trigWrite v) s = .next t ∧ t.dev = s.dev ∧ t.mach.mem = s.mach.mem ∧
        t.mach.ctx.graph? (v.extractLsb' 56 8) = some g' ∧ g'.insts = g.insts ++ [x] ∧ x.num = g.accepted + 1 ∧
        x.area = area ∧ x.started = false ∧ x.nodes = g.nodes.map (fun _ => .waiting) ∧ g'.accepted = g.accepted + 1 ∧
        g'.ltr = 1 ∧ g'.icomp = g.icomp

/-- R22, R25, R38, R39, R431: the oldest instance starts with its root nodes; a node whose predecessors are done starts, a
kernel node with its grid; HOSTWAIT ends once the flag has reached its value; SIGNAL sets a flag, and with IRQ the
event; a COPY node copies its units in order and is done after the last; an instance whose nodes are all done writes
its number to GDONE, counts, and leaves. -/
def Obligations.InstancesRunTheirNodes : Prop :=
  ∀ (s : State) (r : InstRef) (i : Nat) (p : Placed),
    (s.dev.ctxst = .running → s.mach.ctx.placed? r i = some p → NodeKept s.mach.ctx r i →
      (p.st = .waiting → p.started = true → p.preds = true →
        ∃ t, exec (.nodeStart r i) s = .next t ∧ t.dev = s.dev ∧ t.mach.mem = s.mach.mem ∧
          NodeIs t.mach.ctx r i (match p.node with
            | .copy _ _ _ => .copying 0 [] []
            | _ => .running) ∧
          t.mach.ctx.grids = s.mach.ctx.grids ++ (newGrid s.mach r i p).toList) ∧
      (∀ flag value, p.node = .hostwait flag value → p.st = .running → value ≤ vget s.mach.ctx.hflags flag 0 →
        ∃ t, exec (.hostwaitComplete r i) s = .next t ∧ t.dev = s.dev ∧ t.mach.mem = s.mach.mem ∧
          NodeIs t.mach.ctx r i .done) ∧
      (∀ irq flag value, p.node = .signal irq flag value → p.st = .running → flag < 256 →
        ∃ t, exec (.signalNode r i) s = .next t ∧ NodeIs t.mach.ctx r i .done ∧ t.mach.mem = s.mach.mem ∧
          vget t.mach.ctx.hflags flag 0 = value ∧
          (irq = true → t.dev.evt.getLsbD 0 = true ∧ t.dev.sfl = BitVec.ofNat 8 flag) ∧ (irq = false → t.dev = s.dev)) ∧
      (∀ src dst bytes u skips m, p.node = .copy src dst bytes → p.st = .copying u skips [] → 16 * u < bytes →
        let a := (src + 16 * u) % 2 ^ 64
        let b := (dst + 16 * u) % 2 ^ 64
        let n := min 16 (bytes - 16 * u)
        unitSkipped skips a b n = false → copyOne s.dev s.mach a b n = .done m →
        ∃ t, exec (.copyNode r i 1) s = .next t ∧ t.dev = s.dev ∧ t.mach.mem = m.mem ∧
          NodeIs t.mach.ctx r i (.copying (u + 1) skips [])) ∧
      ∀ src dst bytes u skips, p.node = .copy src dst bytes → p.st = .copying u skips [] → bytes ≤ 16 * u →
        ∃ t, exec (.copyNodeDone r i) s = .next t ∧ t.dev = s.dev ∧ t.mach.mem = s.mach.mem ∧
          NodeIs t.mach.ctx r i .done) ∧
    (∀ n g x rest, s.dev.ctxst = .running → s.mach.ctx.graph? n = some g → g.insts = x :: rest → x.started = false →
      x.nodes = g.nodes.map (fun _ => .waiting) →
      ∃ t g' x', exec (.instanceStart n) s = .next t ∧ t.dev = s.dev ∧ t.mach.mem = s.mach.mem ∧
        t.mach.ctx.graph? n = some g' ∧ g'.insts = x' :: rest ∧ x'.started = true ∧ x'.area = x.area ∧
        ∀ k < g.nodes.length, x'.node k ≠ .waiting ↔ ∀ e ∈ g.edges, e.2 ≠ k) ∧
    ∀ n g x rest m, s.dev.ctxst ≠ .tearing → s.mach.ctx.graph? n = some g → g.insts = x :: rest → x.started = true →
      (∀ st ∈ x.nodes, st = .done) → WordWritten s.dev s.mach g.gdone 8 x.num m →
      ∃ t g', exec (.instanceComplete n) s = .next t ∧ t.dev = s.dev ∧ t.mach.mem = m.mem ∧
        t.mach.ctx.graph? n = some g' ∧ g'.insts = rest ∧ g'.icomp = g.icomp + 1

/-- R9 to R14, R43 to R46: a grid whose turn it is and whose next cluster has a site places it: one team on each core of the
site, its groups in order with homes from the grid's frame area, every lane inside the team live at ENTRY, no flag, no map,
no stream and no trap; a cluster that has waited 8,192 cycles starves. Groups that stood before are as before. R379 to R381,
R38: a group without a live lane frees its registers and home once its lane loads are over, and leaves its slot once its
deferred arrivals are made too; a team of which nothing remains leaves with its tiles and core-store range; a grid whose
teams have all retired writes its completion word, which says whether an operation of it was lost, and its node is done. -/
def Obligations.WorkIsPlacedAndRetires : Prop :=
  (∀ (s : State) (h : BitVec 32) (g : Grid), s.mach.grid? h = some g →
     (∀ cores homes, s.dev.ctxst = .running → g.next < g.clusters → s.mach.gridTurn g = true →
       s.mach.siteOf g = some (cores, homes) →
       ∃ t ts gs g', exec (.clusterPlace h) s = .next t ∧ t.dev = s.dev ∧
         t.mach.ctx.teams = s.mach.ctx.teams ++ ts ∧ t.mach.ctx.groups = s.mach.ctx.groups ++ gs ∧
         ts.map (·.core) = cores ∧ ts.map (·.member) = List.range cores.length ∧
         (∀ tm ∈ ts, tm.grid = h ∧ tm.csl = g.hdr.csl ∧ tm.tiles.length = g.hdr.tiles ∧ tm.lin = tm.x + g.gx * (tm.y + g.gy * tm.z) ∧
           tm.bars = Vector.replicate 16 { ph := 0, cnt := 0, tgt := 0 }) ∧
         gs.length = cores.length * g.hdr.groups ∧ gs.map (·.fbb) = homes.map (BitVec.ofNat 64) ∧
         (∀ x ∈ gs, x.quarter = x.num % 4 ∧ x.num < g.hdr.groups ∧ x.marks = [] ∧ x.traps = [] ∧ x.handling = none ∧
           x.k = Vector.replicate 12 0 ∧ x.m = Vector.replicate 8 none ∧ x.retired = false ∧
           (∀ n < 8, (vget x.f n Stream.closedReg).st = .closed) ∧ x.framed = g.hdr.frame ∧
           ∀ l < 32, (x.lane l).live = decide (32 * x.num + l < g.hdr.tx * g.hdr.ty * g.hdr.tz) ∧
             (x.lane l).hdr = g.hdr.entry ∧ (x.lane l).idx = 0 ∧ (x.lane l).level = 0) ∧
         t.mach.grid? h = some g' ∧ g'.next = g.next + 1) ∧
     (g.next < g.clusters → g.waitSince + 8192 ≤ s.mach.cyc.toNat →
       ∃ t, exec (.gridStarvation h) s = .next t ∧ t.dev = s.dev ∧ t.mach.mem = s.mach.mem ∧
         t.mach.grid? h = some { g with starving := true })) ∧
  (∀ (s : State),
     (∀ gid g, s.mach.group? gid = some g → g.livem = 0 → g.deferred = [] →
       (∀ o ∈ s.mach.ctx.ops, o.gid = gid → keepsGroup o = false) →
       ∃ t, exec (.groupRetire gid) s = .next t ∧ t.dev = s.dev ∧ t.mach.mem = s.mach.mem ∧
         t.mach.ctx.groups = s.mach.ctx.groups.filter (fun x => x.gid != gid)) ∧
     (∀ gid g, s.mach.group? gid = some g → g.livem = 0 → (∀ o ∈ s.mach.ctx.ops, o.gid = gid → isLaneLoad o.instr = false) →
       ∃ t, exec (.groupRetire gid) s = .next t ∧ t.dev = s.dev ∧ t.mach.mem = s.mach.mem ∧
         ∀ x, t.mach.group? gid = some x → x.retired = true ∧ x.links = [] ∧
           (g.retired = false → x.traps = [] ∧ x.trapsOut = [])) ∧
     (∀ tid x, s.mach.team? tid = some x → s.mach.teamDone x = true →
       ∃ t, exec (.teamRetire tid) s = .next t ∧ t.dev = s.dev ∧ t.mach.mem = s.mach.mem ∧
         t.mach.ctx.teams = s.mach.ctx.teams.filter (fun y => y.tid != tid) ∧
         t.mach.ctx.groups = s.mach.ctx.groups.filter (fun g => g.team != tid) ∧
         ∀ y ∈ t.mach.tiles, y.core = x.core → y.num ∉ x.tiles) ∧
     ∀ h g p m, s.dev.ctxst ≠ .tearing → s.mach.grid? h = some g → s.mach.gridDone g = true →
       s.mach.ctx.placed? g.ref g.node = some p → NodeKept s.mach.ctx g.ref g.node →
       WordWritten s.dev s.mach g.comp 8 ((if g.lost then 2 else 1) * 2 ^ 56 + g.handle.toNat) m →
       ∃ t, exec (.gridComplete h) s = .next t ∧ t.dev = s.dev ∧ t.mach.mem = m.mem ∧
         t.mach.ctx.sansOld.grids = s.mach.ctx.sansOld.grids.filter (fun x => x.handle != h) ∧ NodeIs t.mach.ctx g.ref g.node .done)

/-- R40, R41, R47 to R49: the distributor answers the oldest LAUNCH with a status word, and an accepted one becomes a
detached instance with its own patched area; a detached instance that has completed writes COMPLETE and leaves; the
oldest FETCHW gets its mailbox, and a team handed over counts as placed; a last team that can be placed is not handed
over. The answered operation completes. That a request is taken in a cycle after the one in which it came, and that a
refusal's handle is 0, are the model's (DESIGN CHOICE, log 70; DESIGN CHOICE, log 18). -/
def Obligations.RequestsAreAnswered : Prop :=
  ∀ (s : State), s.dev.ctxst ≠ .tearing →
    let gone (t : State) (id : Nat) : Prop := ∀ o ∈ t.mach.ctx.ops, o.id ≠ id
    (∀ r rest, s.mach.ctx.launches = r :: rest → s.mach.cyc.toNat ≤ r.reached → exec .launchRequest s = .next s) ∧
    (∀ r rest m, s.mach.ctx.launches = r :: rest → r.reached < s.mach.cyc.toNat →
      (∀ code, launchAnswer s.dev s.mach r = .refused code →
        distWrite s.dev s.mach r.status.toNat 8 (code * 2 ^ 56) = some m →
        ∃ t, exec .launchRequest s = .next t ∧ t.dev = s.dev ∧ t.mach.mem = m.mem ∧ t.mach.ctx.launches = rest ∧
          t.mach.ctx.detached = s.mach.ctx.detached ∧ gone t r.op) ∧
      ∀ g n area, launchAnswer s.dev s.mach r = .accepted g n area →
        let id := freeDetached (s.mach.ctx.detached.map (·.id)) 300 s.mach.ctx.detachedNext
        distWrite s.dev s.mach r.status.toNat 8 (2 ^ 56 + (BitVec.ofNat 32 (2 ^ 31 + id)).toNat) = some m →
        ∃ t d, exec .launchRequest s = .next t ∧ t.dev = s.dev ∧ t.mach.mem = m.mem ∧ t.mach.ctx.launches = rest ∧
          t.mach.ctx.detached = s.mach.ctx.detached ++ [d] ∧ d.id = id ∧ d.gnum = g.gnum ∧ d.what = n ∧ d.area = area ∧
          d.st = .waiting ∧ d.status = r.status ∧ gone t r.op) ∧
    (∀ id d m, s.mach.ctx.detached.find? (fun d => d.id == id) = some d → d.st = .done →
      distWrite s.dev s.mach d.status.toNat 8 (2 * 2 ^ 56 + (BitVec.ofNat 32 (2 ^ 31 + id)).toNat) = some m →
      ∃ t, exec (.detachedComplete id) s = .next t ∧ t.dev = s.dev ∧ t.mach.mem = m.mem ∧
        ∀ x ∈ t.mach.ctx.detached, x.id ≠ id) ∧
    (∀ f rest, s.mach.ctx.fetches = f :: rest → s.mach.lastIsPlaceable s.dev f.handle = true →
      exec .fetchwRequest s = .next s) ∧
    ∀ f rest o tm, s.mach.ctx.fetches = f :: rest → s.mach.op? f.op = some o → s.mach.team? o.team = some tm →
      s.mach.lastIsPlaceable s.dev f.handle = false →
      s.mach.ownerOf (lineOf (coreLoc tm f.mailbox)) = none →
      ∃ t, exec .fetchwRequest s = .next t ∧ t.dev = s.dev ∧ t.mach.ctx.fetches = rest ∧ gone t f.op ∧
        t.mach.mem = (s.mach.writeBytes (bytesAt (coreLoc tm f.mailbox) (s.mach.fetchAnswer f.handle).1)).mem ∧
        ∀ g, s.mach.grid? f.handle = some g → g.hdr.cw = 1 → g.hdr.ch = 1 → g.next < g.clusters →
          (s.mach.fetchAnswer f.handle).1 = natLe 4 (g.next % g.gx) ++ natLe 2 (g.next / g.gx % g.gy) ++
            natLe 2 (g.next / (g.gx * g.gy)) ++ natLe 4 g.next ++ [0, 0, 1, 0] ∧
          (∃ g', t.mach.grid? f.handle = some g' ∧ g'.next = g.next + 1) ∧
          ∀ x, o.lost = [] → s.mach.group? f.gid = some x → x.retired = false →
            ∃ x', t.mach.group? f.gid = some x' ∧ x'.handed = some (g.handle, g.next)

/-! ## Context commands, reports, answers (R373 to R378, R384 to R387) -/

/-- R24, R42, R297, R373 to R377, R383, R384: a command that its state does not admit is refused with BUSY or BAD; LOAD ends
in RUNNING with an empty context or the saved one; SAVE ends in EMPTY once every request has been answered, every operation
has stopped and no write to a register home has to wait, having kept each group's registers and lanes; TEARDOWN writes the last status words and drops the
context; THAW sets every frozen group and operation going. The end of a command sets EVT bit 5. That a save is kept as
data by its address, that a fresh context's host flags are 0 and its next detached instance is the first, and that LAST
reads OK at the end, are the model's (DESIGN CHOICE, log 9; DESIGN CHOICE, log 6; DEDUCED, log 15), and so is that a clause
whose first word has not issued is kept at its header (DEDUCED, log 67). -/
def Obligations.ContextCommandsTakeEffect : Prop :=
  ∀ (s : State),
    let busy : Prop := s.dev.ctxst = .loading ∨ s.dev.ctxst = .saving ∨ s.dev.ctxst = .tearing
    let refused (i : Instr) : Prop := ∃ t, exec i s = .next t ∧ t.mach = s.mach ∧ t.dev.ctxst = s.dev.ctxst ∧
      (busy → t.dev.last = 1) ∧ (¬ busy → t.dev.last = 2)
    let ended (t : State) (st : CtxSt) : Prop := t.dev.ctxst = st ∧ t.dev.last = 0 ∧ t.dev.evt.getLsbD 5 = true
    (∀ fresh, (s.dev.ctxst = .empty → ∃ t, exec (.ctxLoad fresh) s = .next t ∧ t.mach = s.mach ∧
        t.dev.ctxst = .loading ∧ t.dev.fresh = fresh ∧ t.dev.drop = false) ∧
      (s.dev.ctxst ≠ .empty → refused (.ctxLoad fresh))) ∧
    (s.dev.ctxst = .running → (∃ t, exec .ctxSave s = .next t ∧ t.dev.ctxst = .saving ∧ t.mach.mem = s.mach.mem ∧
        t.mach.ctx.groups = s.mach.ctx.groups) ∧
      (∃ t, exec .ctxTeardown s = .next t ∧ t.dev.ctxst = .tearing ∧ t.mach = s.mach) ∧
      ∃ t, exec .ctxThaw s = .next t ∧ ended t .running ∧ t.mach.mem = s.mach.mem ∧
        t.mach.ctx.groups = s.mach.ctx.groups.map (fun g => { g with frozen := none }) ∧
        (∀ o ∈ t.mach.ctx.ops, o.st ≠ .frozen)) ∧
    (s.dev.ctxst ≠ .running → refused .ctxSave ∧ refused .ctxTeardown ∧ refused .ctxThaw) ∧
    (s.dev.ctxst = .loading → (s.dev.fresh = true → ∃ t, exec .ctxCommandEnd s = .next t ∧ ended t .running ∧
        t.mach.ctx = { Ctx.empty with dfbase := s.dev.dfbase, dfsize := s.dev.dfsize } ∧ t.mach.tiles = [] ∧
        t.mach.mem.hbm = s.mach.mem.hbm ∧ ∀ k a, t.mach.mem.get { space := .core k, addr := a } = 0) ∧
      ∀ x, s.dev.fresh = false → s.mach.saves.find? (fun x => x.addr == s.dev.save) = some x →
        ∃ t, exec .ctxCommandEnd s = .next t ∧ ended t .running ∧ t.mach.ctx = x.ctx ∧ t.mach.mem.core = x.core ∧
          t.mach.tiles = x.tiles ∧ t.mach.mem.hbm = s.mach.mem.hbm) ∧
    (s.dev.ctxst = .saving → s.mach.net = [] → (∀ o ∈ s.mach.ctx.ops, o.savable = true) → AllServed s →
      ∃ t x, exec .ctxCommandEnd s = .next t ∧ ended t .empty ∧ t.mach.ctx = Ctx.empty ∧ x ∈ t.mach.saves ∧
        x.addr = s.dev.save ∧ x.ctx.groups.length = s.mach.ctx.groups.length ∧
        ∀ g ∈ s.mach.ctx.groups, ∃ g' ∈ x.ctx.groups, g'.beside = { g.atHeader with
            faultWait := .none, ownWait := none, ownAt := none, tx := g'.tx }.beside ∧
          (∀ l < 32, (g'.txOf l).act = true → g.livem.has l = true → (g'.txOf l).doom = true) ∧
          g'.s = g.s ∧ g'.p = g.p ∧ g'.q = g.q ∧ g'.v = g.v ∧ g'.satf = g.satf ∧ g'.lanes = g.atHeader.lanes ∧ g'.regcnt = g.regcnt) ∧
    ∀ m, s.dev.ctxst = .tearing → s.mach.net = [] → writeStatuses s.dev s.mach s.mach.ctx.lastWords = some m →
      ∃ t, exec .ctxCommandEnd s = .next t ∧ ended t .empty ∧ t.mach.ctx = Ctx.empty ∧ t.mach.mem = m.mem

/-- R214, R215, R282, R378, R386: the first fault record that has not been written, the first freeze record and the first
log entry are written at QBASE + 16 · (QPROD mod QSIZE) once the cellar there serves (R274, R283), then QPROD rises and EVT shows it; a full queue holds records
back and drops log entries. An answer to a written record ends it: REPLAY lets its masters try again, ABORT tells a
stalled group so and traps a stopped operation, FREEZE freezes them. QCONS takes the host's value; that it takes every
value is the model's (DESIGN CHOICE, log 23). -/
def Obligations.ReportsAndAnswersReachTheirQueues : Prop :=
  ∀ (s : State),
    let q (n : Nat) : Queue := vget s.dev.queues n Queue.reset
    let wrote (n : Nat) (ws : Nat × Nat) (t : State) : Prop :=
      let l : Loc := { space := .hbm, addr := (q n).base.toNat * 4096 + 16 * ((q n).prod.toNat % (q n).size.toNat) }
      (vget t.dev.queues n Queue.reset).prod = (q n).prod + 1 ∧ t.dev.evt.getLsbD (2 + n) = true ∧
        (s.mach.mem.poisoned l = false → t.mach.mem.read l 16 = natLe 8 ws.1 ++ natLe 8 ws.2)
    ((q 0).full = true → exec (.reportQueueWrite 0) s = .next s) ∧
    ((q 1).full = true → exec (.reportQueueWrite 1) s = .next s) ∧
    (∀ f, AllServed s → s.mach.faults.find? (fun f => f.idx.isNone) = some f → (q 0).full = false →
      ∃ t, exec (.reportQueueWrite 0) s = .next t ∧ wrote 0 f.words t ∧
        { f with idx := some (q 0).prod } ∈ t.mach.faults) ∧
    (∀ f r, AllServed s → s.mach.freezes = f :: r → (q 1).full = false →
      ∃ t, exec (.reportQueueWrite 1) s = .next t ∧ wrote 1 f.words t ∧ t.mach.freezes = r) ∧
    (∀ e r, s.mach.logs = e :: r →
      (AllServed s → (q 2).full = false → ∃ t, exec (.reportQueueWrite 2) s = .next t ∧ wrote 2 e.words t) ∧
      ((q 2).full = true → ∃ t, exec (.reportQueueWrite 2) s = .next t ∧ t.mach.logs = r ∧
        (vget t.dev.queues 2 Queue.reset).drops = (q 2).drops + 1 ∧ t.mach.mem = s.mach.mem)) ∧
    (∀ n (v : Word), n < 3 → ∃ t, exec (.queueConsume n v) s = .next t ∧ t.mach = s.mach ∧
      (vget t.dev.queues n Queue.reset).cons = v.setWidth 32 ∧ (vget t.dev.queues n Queue.reset).prod = (q n).prod) ∧
    ∀ idx f, s.mach.faults.find? (fun f => f.idx == some idx) = some f →
      let gone (t : State) : Prop := t.dev = s.dev ∧ t.mach.mem = s.mach.mem ∧ ∀ x ∈ t.mach.faults, x.idx ≠ some idx
      (∀ gid g p k, f.masters = [.group gid] → s.mach.group? gid = some g → g.faultWait = .waiting p k →
        (∃ t, exec (.faultReplay idx) s = .next t ∧ gone t ∧ t.mach.group? gid = some { g with faultWait := .none }) ∧
        (∃ t, exec (.faultAbort idx) s = .next t ∧ gone t ∧
          t.mach.group? gid = some { g with faultWait := .aborted f.vpage f.kind }) ∧
        (g.retired = false →
          ∃ t g' r, exec (.faultFreeze idx) s = .next t ∧ gone t ∧ t.mach.group? gid = some g' ∧ g'.frozen = some 1 ∧
          g'.lanes = g.lanes ∧ t.mach.freezes = s.mach.freezes ++ [r] ∧ r.why = 1)) ∧
      ∀ id o va k, f.masters = [.op id] → s.mach.op? id = some o → o.st = .faulted va k →
        va / 65536 % 2 ^ 40 = f.vpage → k = f.kind →
        (∃ t, exec (.faultReplay idx) s = .next t ∧ gone t ∧ t.mach.op? id = some { o with st := .running }) ∧
        (∀ g grid, s.mach.group? o.gid = some g → g.retired = false → g.livem ≠ 0 → s.mach.gridOfGroup? g = some grid →
          grid.hdr.hv = true → ∃ t g' tr, exec (.faultAbort idx) s = .next t ∧ gone t ∧ t.mach.group? o.gid = some g' ∧
            TrapRaised s t g g' tr ∧ tr.cause = 16 ∧ tr.kind = .s ∧ tr.op = some id ∧ tr.info = BitVec.ofNat 64 va ∧
            tr.off = o.off) ∧
        ∃ t r, exec (.faultFreeze idx) s = .next t ∧ gone t ∧ t.mach.op? id = some { o with st := .frozen } ∧
          t.mach.freezes = s.mach.freezes ++ [r] ∧ r.why = 1 ∧ r.off = o.off

/-- R387: a TLBI write that names pages or all starts the invalidation of R213; up to eight wait in order behind the one
in progress, and a further one is discarded and sets LOST. When no access that an old entry has translated is still to be
performed, the leaves that the oldest write names go, and EVT bit 8 is set. -/
def Obligations.InvalidationsWaitInOrder : Prop :=
  ∀ (s : State),
    let named (i : Instr) (v : Word) : Prop :=
      (i = .tlbiAll v ∧ v.getLsbD 63 = true) ∨ (i = .tlbiRange v ∧ v.getLsbD 63 = false ∧ v.toNat % 65536 ≠ 0)
    (∀ i v, named i v →
      (s.dev.tlbiQueue.length ≤ 8 → ∃ t, exec i s = .next t ∧ t.mach = s.mach ∧
        t.dev.tlbiQueue = s.dev.tlbiQueue ++ [v] ∧ t.dev.tlbiBusy = true ∧ t.dev.tlbiLost = s.dev.tlbiLost) ∧
      (8 < s.dev.tlbiQueue.length → ∃ t, exec i s = .next t ∧ t.mach = s.mach ∧ t.dev.tlbiQueue = s.dev.tlbiQueue ∧
        t.dev.tlbiLost = true)) ∧
    ∀ v rest, s.dev.tlbiQueue = v :: rest →
      let first := v.toNat / 65536 % 2 ^ 40 * 65536
      let hit (lo hi : Nat) : Prop := v.getLsbD 63 = true ∨ (lo < first + v.toNat % 65536 * 65536 ∧ first < hi)
      (∀ p ∈ s.mach.net, p.performed = false → ¬ hit p.va.toNat (p.va.toNat + p.len)) →
      ∃ t, exec .tlbInvalidationDone s = .next t ∧ t.dev.tlbiQueue = rest ∧ (t.dev.tlbiBusy = true ↔ rest ≠ []) ∧
        t.dev.evt.getLsbD 8 = true ∧ { t.mach with tlb := [] } = { s.mach with tlb := [] } ∧
        ∀ e, e ∈ t.mach.tlb ↔ e ∈ s.mach.tlb ∧ ¬ hit e.vbase (e.vbase + e.size)

/-! ## The host's registers and its window (R29, R273, R382, R383, R386, R388, R391) -/

/-- R29, R273, R382, R383, R386, R388, R391: one aligned 8-byte write sets the fields of the register at its offset, and one
of another size or place has no effect; a value or a state that a register's limits exclude discards the write whole; EVT
bits clear where 1 is written, but for one whose event comes in the same cycle; a BAR0 read that is no aligned access of 8
bytes returns zeros. A BAR2 write leaves its bytes where W2 places the window, a read returns the bytes that stand there,
and an access that meets an owned line waits. That the reserved bits of EVT, MSK, W2, QBASE, QSIZE and the other registers
whose text names none of them take every value is the model's (DESIGN CHOICE, log 23), and so is that posted accesses wait
in their order (DEDUCED, log 66). -/
def Obligations.HostReadsAndWritesRegisters : Prop :=
  ∀ (s : State) (v : Word),
    let write (off : Nat) : Host.Outcome State Fault Refusal := exec (.registerWrite off 8 v) s
    let sets (off : Nat) (d : Device) : Prop := write off = .next { s with dev := d }
    let keeps (off : Nat) : Prop := write off = .next s
    let cut (lo n : Nat) : Nat := v.toNat / 2 ^ lo % 2 ^ n
    (∀ off size, size ≠ 8 ∨ off % 8 ≠ 0 → exec (.registerWrite off size v) s = .next s ∧ bar0Access s off size = 0) ∧
    (∃ e, sets 0x18 { s.dev with evt := e } ∧ ∀ k < 9, e.getLsbD k =
      (s.dev.evt.getLsbD k && !(v.getLsbD k && vget s.dev.evtAt k 0 != s.mach.cyc))) ∧
    sets 0x20 { s.dev with msk := v.extractLsb' 0 9 } ∧
    ((∀ r ∈ s.dev.nycels.toList, r.st = .down) → sets 0x30 { s.dev with devnum := v.extractLsb' 0 12 }) ∧
    ((∃ r ∈ s.dev.nycels.toList, r.st ≠ .down) → keeps 0x30) ∧
    (if cut 62 2 = 3 then keeps 0x38 else sets 0x38 { s.dev with w2tgt := v.extractLsb' 62 2, w2base := v.extractLsb' 36 20 }) ∧
    (if cut 62 2 ≤ 1 ∧ s.dev.ctxst = .empty then sets 0x40 { s.dev with rtgt := v.extractLsb' 62 2, root := v.extractLsb' 20 36 }
      else keeps 0x40) ∧
    sets 0x48 { s.dev with save := v.extractLsb' 16 40 } ∧
    (if s.dev.ctxst = .empty then sets 0x118 { s.dev with dfbase := v.extractLsb' 16 40 } ∧
        sets 0x120 { s.dev with dfsize := v.extractLsb' 0 32 }
      else keeps 0x118 ∧ keeps 0x120) ∧
    (∀ q < 3, let x := vget s.dev.queues q Queue.reset
      let queue (y : Queue) : Device := { s.dev with queues := vset s.dev.queues q y }
      sets (0x80 + 32 * q) (queue { x with base := v.extractLsb' 12 44 }) ∧
      ((∃ k, 4 ≤ k ∧ k ≤ 16 ∧ cut 0 32 = 2 ^ k) → sets (0x88 + 32 * q) (queue { x with size := v.setWidth 32 })) ∧
      ((∀ k, 4 ≤ k → k ≤ 16 → cut 0 32 ≠ 2 ^ k) → keeps (0x88 + 32 * q)) ∧ keeps (0x90 + 32 * q)) ∧
    (∀ k < 8, let at0 := 0x4000 + 0x1000 * k
      let cellar (f : CellarRegs → CellarRegs) : Device :=
        { s.dev with cellars := vset s.dev.cellars k (f (vget s.dev.cellars k CellarRegs.reset)) }
      (if cut 48 16 = 0 ∧ cut 16 16 = 0 then
          sets at0 (cellar (fun r => { r with srt := v.extractLsb' 32 16, pdt := v.extractLsb' 0 16 }))
        else keeps at0) ∧
      (if 256 ≤ v.toNat ∧ v.toNat ≤ 16383 then sets (at0 + 8) (cellar (fun r => { r with ath := v.setWidth 14 }))
        else keeps (at0 + 8)) ∧
      (if v.toNat < 2 ^ 32 then sets (at0 + 16) (cellar (fun r => { r with tage := v.setWidth 32 })) else keeps (at0 + 16)) ∧
      (if v.toNat < 2 ^ 56 ∧ s.mach.rayIn k = false then
          sets (at0 + 24) (cellar (fun r => { r with spb := v.extractLsb' 16 40, spn := v.extractLsb' 0 16 }))
        else keeps (at0 + 24)) ∧
      (if v.toNat < 2 ^ 56 ∧ v.toNat % 4096 = 0 then sets (at0 + 40) (cellar (fun r => { r with scn := v.extractLsb' 12 44 }))
        else keeps (at0 + 40)) ∧
      ∀ c < 32, if v.toNat < 2 ^ 16 then
          sets (at0 + 0x100 + 8 * c) (cellar (fun r => { r with age := vset r.age c (v.setWidth 16) }))
        else keeps (at0 + 0x100 + 8 * c)) ∧
    (if 1 ≤ v.toNat ∧ v.toNat ≤ 1048576 ∧ (s.mach.ctx.rays = [] ∨
          ∀ r ∈ s.dev.cellars.toList, v.toNat * 256 ≤ r.spn.toNat * 65536) then
        sets 0x4020 { s.dev with rmax := v.setWidth 21 }
      else keeps 0x4020) ∧
    (∀ p < 2, let r := s.dev.tierRegs p
      let port (r : TierRegs) : Device := { s.dev with tiers := vset s.dev.tiers p r }
      sets (0x3010 + 0x100 * p) (port { r with tpsw := BitVec.ofNat 64 (cut 3 53 * 8) }) ∧
      (if r.st = .down then sets (0x3018 + 0x100 * p) (port { r with tsb := v.extractLsb' 16 40, tsn := v.extractLsb' 0 16 })
        else keeps (0x3018 + 0x100 * p))) ∧
    (∀ p < 16, let r := s.dev.nycelRegs p
      let port (r : NycelRegs) : Device := { s.dev with nycels := vset s.dev.nycels p r }
      sets (0x3410 + 0x40 * p) (port { r with hi := v.extractLsb' 16 12, lo := v.extractLsb' 0 12 }) ∧
      sets (0x3418 + 0x40 * p) (port { r with npsw := BitVec.ofNat 64 (cut 3 53 * 8) })) ∧
    (∀ d < 4096, ∃ rs, sets (0x10000 + 8 * d) { s.dev with routes := rs } ∧
      ∀ e, routeOf { s.dev with routes := rs } e = if e = d then v.setWidth 16 else routeOf s.dev e) ∧
    ∀ off (bs : List Byte), s.dev.st ≠ .failed → bs ≠ [] → off + bs.length ≤ 2 ^ 36 → s.dev.w2tgt = 0 →
      let l : Loc := { space := .hbm, addr := s.dev.w2base.toNat * 2 ^ 36 + off }
      l.addr + bs.length ≤ 8 * stackBytes →
      ((∃ k ∈ linesOf l bs.length, s.mach.ownerOf k ≠ none) → ∀ a, a = .write off bs ∨ a = .read off bs.length →
        exec (.bar2Access a) s = .next { s with mach := { s.mach with posted := s.mach.posted ++ [.bar2 a] } }) ∧
      ((∀ k ∈ linesOf l bs.length, s.mach.ownerOf k = none ∧ s.mach.mem.poisoned { space := .hbm, addr := 64 * k.index } = false) →
        ServedNow s l bs.length →
        (∃ t, exec (.bar2Access (.write off bs)) s = .next t ∧ t.dev = s.dev ∧ t.mach.ctx.sansOld = s.mach.ctx.sansOld ∧
          t.mach.mem.read l bs.length = bs ∧ ∀ y, Outside y l bs.length → t.mach.mem.get y = s.mach.mem.get y) ∧
        ∃ t, exec (.bar2Access (.read off bs.length)) s = .next t ∧ t.mach.ctx = s.mach.ctx ∧ t.mach.mem = s.mach.mem ∧
          t.dev.bar2Poison = false ∧ t.dev.bar2Data = s.mach.mem.read l bs.length)

/-! ## The ports (R388 to R392) -/

/-- R280, R388 to R390: a TPCTL write enables a port, takes it DOWN with its staging map emptied, or returns it from
quarantine; training ends in UP with CAP cut to 2 TiB; a hint starts a fill, whose data are staged in a free frame or,
once the dirty one has been written back, in its; a request that has waited past the time-out quarantines the port. A port
that goes DOWN with dirty frames waits for an expander that does not answer, until the time-out, and then loses them; a page
moves once the cellar of its frame serves (R274, R283).
Whether the expander answers and the link is up is the environment's (DESIGN CHOICE, log 11); from when a request waits,
which of several free frames a fill takes (the lowest), and that a TPCTL write with reserved bits set acts, are the model's
(DEDUCED, log 24; DESIGN CHOICE, log 64; DESIGN CHOICE, log 23). -/
def Obligations.TierPortsStageAndLeave : Prop :=
  ∀ (s : State) (port : Nat), port < 2 →
    let r := s.dev.tierRegs port
    let u := s.mach.tierUnit port
    let now := s.mach.cyc.toNat
    let page (k a : Nat) (t : State) : Byte := t.mach.mem.get { space := .tier, addr := tierAddr port k + a }
    let frame (n a : Nat) (t : State) : Byte := t.mach.mem.get { space := .hbm, addr := frameAddr s.dev port n + a }
    (∀ v : Word, v.toNat / 2 ^ 32 % 65536 ≠ 0 →
      (v.getLsbD 0 = true → ∃ t, exec (.tierPortEnable port v) s = .next t ∧ t.mach = s.mach ∧
        (t.dev.tierRegs port).en = true ∧ (t.dev.tierRegs port).tto.toNat = v.toNat / 2 ^ 32 % 65536) ∧
      (v.getLsbD 0 = false → r.en = true →
        u.dirtyFrames = [] ∨ (Config.expanderAnswers port now = true ∧ AllServed s) ∨ (r.st ≠ .up ∧ v.getLsbD 1 = false) →
        ∃ t, exec (.tierPortDisable port v) s = .next t ∧
        (t.dev.tierRegs port).en = false ∧ (t.dev.tierRegs port).st = .down ∧ t.dev.evt.getLsbD 6 = true ∧
        (t.mach.tierUnit port).frames = [] ∧ (t.mach.tierUnit port).fills = [] ∧ (t.mach.tierUnit port).hints = []) ∧
      (v.getLsbD 0 = false → r.en = true → r.st = .up → u.dirtyFrames ≠ [] → Config.expanderAnswers port now = false →
        ∃ t, exec (.tierPortDisable port v) s = .next t ∧ (t.dev.tierRegs port).st = .up ∧ t.mach.mem = s.mach.mem ∧
          t.dev.evt = s.dev.evt ∧ (t.mach.tierUnit port).closing = some (u.closing.getD now) ∧
          (t.mach.tierUnit port).frames = u.frames ∧ (t.mach.tierUnit port).fills = []) ∧
      (v.getLsbD 1 = true → v.getLsbD 0 = true → r.st = .quarantined → Config.linkUp port now = true →
        ∃ t, exec (.tierClearQuarantine port v) s = .next t ∧ t.mach = s.mach ∧ (t.dev.tierRegs port).st = .up)) ∧
    (∀ cap : BitVec 32, r.en = true → r.st = .down → ∃ t, exec (.tierLinkUp port cap) s = .next t ∧ t.mach = s.mach ∧
      (t.dev.tierRegs port).st = .up ∧ (t.dev.tierRegs port).cap.toNat = min cap.toNat 33554432) ∧
    (∀ k, k ∈ u.hints → ∃ t, exec (.tierHint port k) s = .next t ∧ t.dev = s.dev ∧ t.mach.mem = s.mach.mem ∧
      (t.mach.tierUnit port).hints = u.hints.erase k ∧
      (r.st = .up → u.closing = none → r.tsn ≠ 0 → k < r.cap.toNat → (∀ f ∈ u.frames, f.page ≠ k) → (∀ f ∈ u.fills, f.page ≠ k) →
        (t.mach.tierUnit port).fills = u.fills ++ [{ page := k, waitFrame := none, since := now }])) ∧
    (∀ k n, AllServed s → r.st = .up → Config.expanderAnswers port now = true → (∃ f ∈ u.fills, f.page = k ∧ f.waitFrame = none) →
      (List.range r.tsn.toNat).find? (fun n => u.frames.all (fun f => f.frame != n)) = some n →
      ∃ t, exec (.tierFillData port k) s = .next t ∧ t.dev = s.dev ∧ (∀ a < 65536, frame n a t = page k a s) ∧
        (∃ f ∈ (t.mach.tierUnit port).frames, f.page = k ∧ f.frame = n ∧ f.dirty = false) ∧
        (∀ f ∈ (t.mach.tierUnit port).fills, f.page ≠ k) ∧
        (frameAddr s.dev port n / 65536, tierAddr port k / 65536) ∈ t.mach.backed) ∧
    (∀ n since, u.closing = some since → since + 1024 * r.tto.toNat ≤ now →
      ∃ t, exec (.tierWritebackReply port n) s = .next t ∧ (t.dev.tierRegs port).st = .down ∧ t.mach.mem = s.mach.mem ∧
        t.dev.evt.getLsbD 6 = true ∧ (t.mach.tierUnit port).frames = []) ∧
    (∀ n f since, u.closing = some since → AllServed s → Config.expanderAnswers port now = true → now < since + 1024 * r.tto.toNat →
      u.dirtyFrames = [f] → f.frame = n → ∃ t, exec (.tierWritebackReply port n) s = .next t ∧
        (t.dev.tierRegs port).st = .down ∧ t.dev.evt.getLsbD 6 = true ∧ (∀ a < 65536, page f.page a t = frame n a s) ∧
        (t.mach.tierUnit port).frames = [] ∧ (t.mach.tierUnit port).closing = none) ∧
    (∀ n x f, AllServed s → r.st = .up → u.closing = none → Config.expanderAnswers port now = true →
      u.fills.find? (fun f => f.waitFrame == some n) = some x → u.frames.find? (fun f => f.frame == n) = some f →
      x.page ≠ f.page → ∃ t, exec (.tierWritebackReply port n) s = .next t ∧ t.dev = s.dev ∧
        (∀ a < 65536, page f.page a t = frame n a s ∧ frame n a t = page x.page a s) ∧
        ∃ y ∈ (t.mach.tierUnit port).frames, y.page = x.page ∧ y.frame = n) ∧
    (r.st = .up → u.closing = none → s.mach.tierTimedOut s.dev port = true → r.tpsw = 0 → ∃ t, exec (.tierQuarantine port) s = .next t ∧
      t.mach.mem = s.mach.mem ∧ (t.dev.tierRegs port).st = .quarantined ∧ t.dev.evt.getLsbD 6 = true ∧
      (t.mach.tierUnit port).fills = [] ∧ (t.mach.tierUnit port).quarantines = u.quarantines + 1)

/-- R376 to R378, R391, R392: a NPCTL write starts the training of a port that is DOWN or, with THAW, returns a frozen one
to UP; training ends in UP with the far device's number; a flit whose CRC fails is asked for again; a port that leaves
service completes its unanswered requests, all ones for those that return, and counts them. A peer's request is
performed here when its source is admitted and its pages translate, unless one waits before it, else the port is frozen and
reported. A port whose status word is still to write does not train to its end and is not thawed (DEDUCED, log 25). Which port
carries a request is free (DEDUCED, log 25); that a page that is itself a peer's freezes the port, and that an NPCTL write
with reserved bits set acts, are the model's (DEDUCED, log 26; DESIGN CHOICE, log 23). -/
def Obligations.NycelPortsServePeers : Prop :=
  ∀ (s : State) (port : Nat), port < 16 →
    let r := s.dev.nycelRegs port
    let u := s.mach.nycelUnit port
    let left (t : State) (st : NycelSt) : Prop := (t.dev.nycelRegs port).st = st ∧ t.dev.evt.getLsbD 7 = true ∧
      t.mach.mem = s.mach.mem ∧ t.mach.net.length = s.mach.net.length ∧
      (∀ p ∈ s.mach.net, ∃ q ∈ t.mach.net, q.id = p.id ∧
        if onPort port p = true then q.performed = true ∧ q.data = List.replicate p.len 255 else q = p) ∧
      (t.mach.nycelUnit port).completed = u.completed + BitVec.ofNat 32 (s.mach.net.filter (onPort port)).length
    (∀ v : Word, (v.getLsbD 0 = true → r.st = .down → ∃ t, exec (.nycelPortEnable port v) s = .next t ∧
        t.mach = s.mach ∧ (t.dev.nycelRegs port).en = true ∧ (t.dev.nycelRegs port).st = .training) ∧
      (v.getLsbD 1 = true → v.getLsbD 0 = true → r.st = .frozen → u.wordDue = false → ∃ t, exec (.nycelPortThaw port v) s = .next t ∧
        t.mach = s.mach ∧ (t.dev.nycelRegs port).st = .up) ∧
      (v.getLsbD 0 = false → r.st = .up → r.npsw = 0 → ∃ t, exec (.nycelPortEnable port v) s = .next t ∧ left t .down)) ∧
    (∀ d, r.en = true → r.st = .training → u.wordDue = false → ∃ t, exec (.nycelLinkUp port d) s = .next t ∧ t.mach = s.mach ∧
      (t.dev.nycelRegs port).st = .up ∧ (t.dev.nycelRegs port).peer = d) ∧
    (∀ f, r.st = .up → ∃ t, exec (.nycelFlit port f) s = .next t ∧ t.dev = s.dev ∧ t.mach.mem = s.mach.mem ∧
      t.mach.nycelUnit port = if f.crcOk = true then { u with taken := u.taken + 1 } else { u with replays := u.replays + 1 }) ∧
    (r.st = .up → r.npsw = 0 → ∃ t, exec (.nycelPortLeave port) s = .next t ∧ left t .down) ∧
    ∀ req : PeerReq, r.st = .up →
      (r.npsw = 0 → req.src < r.lo ∨ r.hi < req.src ∨ s.dev.ctxst ≠ .running ∨ (peerPlaces s req = none ∧ AllServed s) →
        ∃ t x, exec (.peerRequest port req) s = .next t ∧ left t .frozen ∧ t.mach.freezes = s.mach.freezes ++ [x] ∧
          x.why = 6 ∧ x.loc = port) ∧
      ∀ l bs, r.lo ≤ req.src → req.src ≤ r.hi → s.dev.ctxst = .running → req.op = .write bs →
        peerPlaces s req = some [(l, bs.length)] → l.space = .hbm ∨ l.space = .die →
        (∀ k ∈ linesOf l bs.length, s.mach.ownerOf k = none ∧ s.mach.mem.poisoned { space := l.space, addr := 64 * k.index } = false) →
        ServedNow s l bs.length → (∀ x ∈ pagePieces req.va.toNat bs.length, s.mach.walkHeld s.dev x.1 = false) →
        u.waiting = [] →
        ∃ t, exec (.peerRequest port req) s = .next t ∧ t.dev = s.dev ∧ t.mach.ctx.sansOld = s.mach.ctx.sansOld ∧
          t.mach.mem.read l bs.length = bs ∧ ∀ y, Outside y l bs.length → t.mach.mem.get y = s.mach.mem.get y

/-! ## Rays in flight (R284 to R297) -/

/-- R287 to R297, R326: RAYE sends its next ray while fewer than RMAX are in flight, and the ray owns its slot line;
acceptance reads the scene and starts the ray at its root; a ray whose entry names this stack enters the queues or is
held, another is forwarded; a stage copies the image; a visit ends a ray that has hit, or parks it on a callback with
its slot line released; a spilled ray returns; TRBEGIN ends with status 0 when no ray is left inside the copy. The order
of a visit, and treelets by their table entry's address, are the model's (DEDUCED, log 50). -/
def Obligations.RaysTravelAndEnd : Prop :=
  ∀ (s : State), s.dev.ctxst = .running →
    let entered (t : State) (ray : Nat) (r : Ray) (e : TreeletEntry) : Prop := t.dev = s.dev ∧ t.mach.mem = s.mach.mem ∧
      ∃ q, t.mach.ray? ray = some q ∧ q.stack = e.stk ∧ q.treelet = r.treelet ∧
        if e.stk = r.stack then q.st = .queued ∨ q.st = .held ∨ q.st = .spilled else q.st = .moving
    let names (m : Mach) (r : Ray) (ttb treelet : Nat) (e : TreeletEntry) : Prop :=
      ∃ m' bs, cellarRead s.dev m (s.mach.op? r.op) (ttb + 16 * treelet) 16 = .ok m' bs ∧ e = treeletOf bs ∧ e.v = true
    (∀ id o tm w, s.mach.op? id = some o → o.instr = .raye w → o.st = .running → o.pix < o.mask.count →
      s.mach.ctx.rays.length < s.dev.rmax.toNat → s.mach.writesBehind o = false → s.mach.team? o.team = some tm →
      (∀ k ∈ ownable (slotLines tm ((o.mask.lanes.drop o.pix).map (capLane o.cap.vc))),
        s.mach.ownerOf k = some id ∨ (s.mach.ownerOf k = none ∧ s.mach.lineBusy k = false)) →
      ∃ t r, exec (.raySend id) s = .next t ∧ t.dev = s.dev ∧ t.mach.mem = s.mach.mem ∧
        t.mach.ctx.rays = s.mach.ctx.rays ++ [r] ∧ r.op = id ∧ r.lane = o.mask.lanes.getD o.pix 0 ∧ r.st = .sent ∧
        r.slot = capLane o.cap.vc r.lane ∧ t.mach.op? id = some { o with pix := o.pix + 1 } ∧
        t.mach.ownerOf (lineOf (coreLoc tm r.slot)) = some r.id) ∧
    (∀ ray r m bs e, s.mach.ray? ray = some r → r.st = .sent →
      (∀ x ∈ [r.ox, r.oy, r.oz, r.dx, r.dy, r.dz], f32Finite x = true) → f32Nan r.tmin = false → f32Nan r.tmax = false →
      readScene s.dev s.mach (s.mach.op? r.op) r.stack r.scene.toNat = .ok m bs → (sceneOf bs).v = true →
      (sceneOf bs).gen = r.gen.toNat → (sceneOf bs).root < (sceneOf bs).nt →
      (let q : Ray := { r with treelet := (sceneOf bs).root, ttb := (sceneOf bs).ttb, nt := (sceneOf bs).nt, ht := r.tmax,
                               st := .moving }
       names (m.modRay r.id (fun _ => q)) r (sceneOf bs).ttb (sceneOf bs).root e) →
      ∃ t, exec (.rayAccept ray) s = .next t ∧ entered t ray { r with treelet := (sceneOf bs).root } e ∧
        ∃ q, t.mach.ray? ray = some q ∧ q.ht = r.tmax ∧ q.ttb = (sceneOf bs).ttb ∧ q.nt = (sceneOf bs).nt) ∧
    (∀ ray r e, s.mach.ray? ray = some r → r.st = .moving → r.treelet < r.nt → names s.mach r r.ttb r.treelet e →
      ∃ t, exec (.rayArrival ray) s = .next t ∧ entered t ray r e) ∧
    (∀ stack r e, r ∈ s.mach.ctx.rays → r.spilledAt stack = true → s.mach.ray? r.id = some r →
      (∀ q ∈ s.mach.ctx.rays, q.spilledAt stack = true → q.id = r.id ∨ r.spillSeq < q.spillSeq) →
      (s.mach.ctx.rays.map (·.id)).Nodup → r.nt ≠ 0 → r.treelet < r.nt → names s.mach r r.ttb r.treelet e → e.stk = stack →
      (s.mach.ctx.rays.filter (fun q => q.id != r.id && q.inQueues stack)).length < queueRoom →
      ∃ t, exec (.rayRefill stack) s = .next t ∧ t.dev = s.dev ∧ t.mach.mem = s.mach.mem ∧
        ∃ q, t.mach.ray? r.id = some q ∧ q.st = if (s.mach.treelet r.entry).closed then .held else .queued) ∧
    (∀ stack r rs m m' e im size, stageNext s.dev s.mach stack = some (r, rs) → s.mach.freeSlot stack = some m →
      readImage s.dev s.mach (s.mach.op? r.op) (r.ttb + 16 * r.treelet) = some (m', .ok (e, im, size)) → e.stk = stack →
      ∃ t, exec (.treeletStage stack) s = .next t ∧ t.dev = s.dev ∧ t.mach.mem = s.mach.mem ∧
        t.mach.ctx = s.mach.ctx ∧ ∃ c, t.mach.staged = m.staged ++ [c] ∧ c.stack = stack ∧ c.entry = r.entry ∧
          c.image = im ∧ c.version = (s.mach.treelet r.entry).version) ∧
    (∀ ray r c m q, s.mach.ray? ray = some r → r.st = .inside →
      s.mach.stagedCopy r.stack r.entry (r.version - 1) = some c →
      let m0 : Mach := { s.mach with staged := s.mach.staged.map (fun x =>
        if x == c then { x with used := s.mach.cyc.toNat } else x) }
      let seen := walkRay c.image (imageCounts c.image).1 visitFuel m0 r
      (seen = (m, .finish q) → q.id = ray → ∃ t, exec (.rayVisit ray) s = .next t ∧ t.dev = s.dev ∧
        t.mach.ray? ray = none ∧ ∀ x ∈ t.mach.own, x.2 ≠ ray) ∧
      (seen = (m, .park q) → q.id = ray → ∃ t q', exec (.rayVisit ray) s = .next t ∧ t.dev = s.dev ∧
        t.mach.ray? ray = some q' ∧ q'.st = .parked ∧ q'.cand = q.cand ∧ q'.cbseq = q.cbseq + 1 ∧
        ∀ x ∈ t.mach.own, x.2 ≠ ray)) ∧
    ∀ id o g w, s.mach.op? id = some o → s.mach.group? o.gid = some g → o.instr = .trbegin w → o.st = .running →
      o.aux ≠ 0 → o.lost = [] → s.mach.raysInside (o.aux - 1) = false → 192 ≤ w.d.toNat →
      ∃ t g', exec (.trbeginDone id) s = .next t ∧ t.dev = s.dev ∧ t.mach.mem = s.mach.mem ∧
        (∀ x ∈ t.mach.ctx.ops, x.id ≠ id) ∧ t.mach.group? o.gid = some g' ∧ g'.sReg (w.d.toNat - 192) = 0 ∧
        g'.lanes = g.lanes

/-! ## The machine after reset, and what every step keeps (R29, R273, R383, R386, R388, R391) -/

/-- R29, R273, R383, R386, R388, R391: after reset DEVST reads RESET, no context is loaded, no command, job or event is
noted, the queues have no entries, no port is enabled, AGE is 64, ATH 4,096, TAGE 65,536, SRT 2,048, PDT 64, RMAX 2^20 and
TTO 64; and every limit of the host's registers holds. -/
def Obligations.ResetLeavesRegisters : Prop :=
  let s := State.reset
  (∀ off ∈ [0x10, 0x18, 0x20, 0x28, 0x30, 0x38, 0x40, 0x48, 0x58, 0x60, 0x70, 0x78, 0x80, 0x88, 0x90, 0x98, 0x100, 0x108,
      0x110, 0x118, 0x120, 0x1000, 0x2000, 0x3008, 0x3010, 0x3018, 0x3400, 0x3408, 0x3410, 0x3418, 0x4018, 0x4028,
      0x4030, 0x4038, 0x4040, 0x10000], bar0Read s off = 0) ∧
    (∀ k < 8, bar0Read s (0x4000 + 0x1000 * k) = 0x0000080000000040#64 ∧ bar0Read s (0x4008 + 0x1000 * k) = 4096#64 ∧
      bar0Read s (0x4010 + 0x1000 * k) = 65536#64 ∧ bar0Read s (0x4100 + 0x1000 * k) = 64#64) ∧
    bar0Read s 0x4020 = 1048576#64 ∧ (∀ k < 2, bar0Read s (0x3000 + 0x100 * k) = 0x0000004000000000#64) ∧
    s.mach.ctx.groups = [] ∧ s.mach.net = [] ∧ HostLimits s

/-- R273, R383, R386, R388: whatever the host, a program or a unit does, every step keeps the limits: QSIZE is 0 or a power
of two from 16 to 65,536, ATH is 256 to 16,383, RMAX 1 to 2^20, TTO not 0, CAP at most 2 TiB, the root of the tables and the
window name memory of this device, and the governor's step is at most 4. -/
def Obligations.EveryStepKeepsHostLimits : Prop :=
  (∀ s t : State, HostLimits s → step s = .next t → HostLimits t) ∧
    ∀ (i : Instr) (s t : State), HostLimits s → exec i s = .next t → HostLimits t
end

