-- ==== Sys2Proof/Machine/AsmText.lean ====
section
/-!
DEFINITION. The emkas source text: names, lines, literals and expressions (R80, R81, R85). Text is a list of
characters, so that every reader below recurses on it or on a number of steps.
-/
namespace Sys2Proof.Machine

/-- Source text. -/
abbrev Txt := List Char

/-- What a source breaks: each constructor names the rule of chapter 04 that a diagnostic stands for. -/
inductive AsmErr where
  /-- R80: a line of more than 1,024 characters, or one that holds no statement of the language. -/
  | line
  /-- R81: not a name, or a reserved one. -/
  | name
  /-- R81: defined twice within its scope, or a kernel label with a name of whole-assembly scope. -/
  | redefined
  /-- R85: an expression or literal that cannot be read. -/
  | expression
  /-- R85: a symbol without a value where it stands. -/
  | undefinedName
  /-- R85: division or remainder by zero, or a shift count outside 0 to 63. -/
  | arithmetic
  /-- R97: a data label where none may stand. -/
  | dataLabel
  /-- R86: an immediate outside its field, or a float literal that overflows. -/
  | range
  /-- R82: no such mnemonic, directive or invocation. -/
  | statement
  /-- R82: a guard that the instruction does not take. -/
  | guard
  /-- R82: a suffix that the instruction does not accept, or two of one row. -/
  | suffix
  /-- R82, R83: operands that the instruction does not take. -/
  | operand
  /-- R82: a combination that R60 to R67 reject. -/
  | encoding
  /-- R84: a target that is no code label plus or minus a constant, no header, or too far. -/
  | target
  /-- R88: `Kn` on an instruction that does not count on a flag, or absent from `set=` (R89). -/
  | flag
  /-- R89: the arguments or contents of an explicit clause. -/
  | clause
  /-- R90: a statement where it may not stand. -/
  | placement
  /-- R91, R92: the arguments of a directive, or a kernel directive given twice. -/
  | directive
  /-- R17: the kernel is not placeable. -/
  | placeable
  /-- R92: a missing file, nesting deeper than 8, or a file that includes itself. -/
  | file
  /-- R93: a definition or an invocation that breaks the rule. -/
  | expansion
  deriving DecidableEq, Repr

/-- What emkas warns of. -/
inductive AsmWarn where
  /-- R86: a float literal that its format does not hold exactly. -/
  | inexact
  /-- R89: `y` has no effect. -/
  | straggler
  /-- R89: `.co` without a vector instruction after it. -/
  | coIssue
  /-- R91: a register range of a length that only a run knows. -/
  | openRange
  deriving DecidableEq, Repr

/-! ## Characters and names -/

/-- A text in lower case: mnemonics, suffixes, registers and directives have no case (R80). -/
def lower (t : Txt) : Txt := t.map Char.toLower

def isSpace (c : Char) : Bool := c == ' ' || c == '\t' || c == '\r'

/-- The text without spaces at its head. -/
def trimL (t : Txt) : Txt := t.dropWhile isSpace

/-- The text without spaces at either end. -/
def trim (t : Txt) : Txt := (trimL (trimL t).reverse).reverse

def nameHead (c : Char) : Bool := c.isAlpha || c == '_'
def nameRest (c : Char) : Bool := c.isAlphanum || c == '_'

/-- A letter or an underscore, then letters, digits and underscores, 1 to 63 characters (R81). -/
def isName : Txt → Bool
  | [] => false
  | c :: cs => nameHead c && cs.all nameRest && cs.length ≤ 62

/-- The longest beginning of the text whose characters satisfy `p`, and the rest. -/
def takeRun (p : Char → Bool) (t : Txt) : Txt × Txt := (t.takeWhile p, t.dropWhile p)

/-- The parts of a text between the commas that no parenthesis encloses, trimmed; `d` counts open parentheses. -/
def splitCommas (d : Nat) (cur : Txt) : Txt → List Txt
  | [] => [trim cur.reverse]
  | c :: cs =>
    if c == ',' && d == 0 then trim cur.reverse :: splitCommas 0 [] cs
    else splitCommas (if c == '(' then d + 1 else if c == ')' then d - 1 else d) (c :: cur) cs

/-- The arguments of a statement: none for an empty text; an empty text beside a comma is an argument, and a comma within
parentheses separates none (DEDUCED, log 59). -/
def argsOf (t : Txt) : List Txt := if (trim t).isEmpty then [] else splitCommas 0 [] t

/-- The parts of a text between dots. -/
def splitDots (cur : Txt) : Txt → List Txt
  | [] => [cur.reverse]
  | c :: cs => if c == '.' then cur.reverse :: splitDots [] cs else splitDots (c :: cur) cs

/-! ## Literals (R85) -/

/-- The digits in the order of their values. -/
def digitOrder : Txt := "0123456789abcdef".toList

/-- The value of a digit: its place among the digits, in either case. -/
def digitVal (c : Char) : Option Nat := digitOrder.idxOf? c.toLower

/-- The digits of a number to base `b`, an underscore between any two of them; `dig` says that the character before
was a digit. -/
def digitsVal (b acc : Nat) (dig : Bool) : Txt → Option Nat
  | [] => if dig then some acc else none
  | '_' :: cs => if dig then digitsVal b acc false cs else none
  | c :: cs =>
    match digitVal c with
    | some v => if v < b then digitsVal b (acc * b + v) true cs else none
    | none => none

/-- An integer literal: decimal, `0x` or `0b`. -/
def intLit : Txt → Option Nat
  | '0' :: 'x' :: cs => digitsVal 16 0 false cs
  | '0' :: 'b' :: cs => digitsVal 2 0 false cs
  | cs => digitsVal 10 0 false cs

/-- A decimal number without underscores or leading zeros, as it stands in a register's name. -/
def plainNat (t : Txt) : Option Nat :=
  if t.all Char.isDigit && (t.length == 1 || t.head? != some '0') then digitsVal 10 0 false t else none

/-- A float literal, digits·10^(e − places), with its sign. -/
structure FloatLit where
  neg : Bool
  digits : Nat
  places : Nat
  exp : Int
  deriving DecidableEq, Repr

/-- The exponent of a float literal: `e` and a signed decimal integer, or nothing. A plus sign may be left out
(DEDUCED, log 59). -/
def floatExp : Txt → Option Int
  | [] => some 0
  | c :: cs =>
    if c != 'e' then none
    else match cs with
      | '-' :: ds => if ds.isEmpty || !ds.all Char.isDigit then none else (digitsVal 10 0 false ds).map (fun n => -(n : Int))
      | '+' :: ds => if ds.isEmpty || !ds.all Char.isDigit then none else (digitsVal 10 0 false ds).map (fun n => (n : Int))
      | ds => if ds.isEmpty || !ds.all Char.isDigit then none else (digitsVal 10 0 false ds).map (fun n => (n : Int))

/-- A float literal: a decimal point with digits on both sides, an optional exponent, and a minus before it. -/
def floatLit (t : Txt) : Option FloatLit :=
  let (neg, u) := match t with
    | '-' :: cs => (true, trimL cs)
    | cs => (false, cs)
  let (ip, r) := takeRun Char.isDigit u
  match r with
  | '.' :: r2 =>
    let (fp, r3) := takeRun Char.isDigit r2
    if ip.isEmpty || fp.isEmpty then none
    else match digitsVal 10 0 false (ip ++ fp), floatExp r3 with
      | some n, some e => some { neg := neg, digits := n, places := fp.length, exp := e }
      | _, _ => none
  | _ => none

/-- A float literal as num/den. -/
def FloatLit.ratio (x : FloatLit) : Nat × Nat :=
  let e := x.exp - x.places
  if 0 ≤ e then (x.digits * 10 ^ e.toNat, 1) else (x.digits, 10 ^ (-e).toNat)

/-- A float literal rounded to a format with RoundTo in RNE mode (R86): its code, and whether it is exact; an error
where it overflows. The literal is cut below its last place and the rest kept as a sticky bit. -/
def FloatLit.encode (f : Fmt) (x : FloatLit) : Except AsmErr (Nat × Bool) :=
  let (n, d) := x.ratio
  let k := Nat.log2 d + 512
  let q := n * pow2 k / d
  let r := n * pow2 k % d
  let code := f.roundS 0 false (r != 0) (.fin x.neg q (-(k : Int)))
  let mag := code % pow2 (f.width - 1)
  if q != 0 && f.roundMag 0 x.neg q (-(k : Int)) (r != 0) > f.maxCode then .error .range
  else if mag > f.maxCode then .error .range
  else .ok (code, r == 0 && ((q == 0 && mag == 0) || Num.eqv (f.decode code) (.fin x.neg q (-(k : Int)))))

/-! ## Expressions (R85) -/

/-- The two-operand operators, by descending precedence. -/
inductive AsmOp where
  | mul | div | rem | add | sub | shl | shr | and | xor | or
  deriving DecidableEq, Repr

/-- The level of the table of R85. -/
def AsmOp.level : AsmOp → Nat
  | .mul => 2
  | .div => 2
  | .rem => 2
  | .add => 3
  | .sub => 3
  | .shl => 4
  | .shr => 4
  | .and => 5
  | .xor => 6
  | .or => 7

/-- An expression. -/
inductive AsmExpr where
  | lit (n : Nat)
  | sym (t : Txt)
  | neg (e : AsmExpr)
  | inv (e : AsmExpr)
  | bin (o : AsmOp) (a b : AsmExpr)
  deriving DecidableEq, Repr

/-- The operator at the head of a text, and the rest. -/
def opAt : Txt → Option (AsmOp × Txt)
  | '*' :: cs => some (.mul, cs)
  | '/' :: cs => some (.div, cs)
  | '%' :: cs => some (.rem, cs)
  | '+' :: cs => some (.add, cs)
  | '-' :: cs => some (.sub, cs)
  | '<' :: '<' :: cs => some (.shl, cs)
  | '>' :: '>' :: cs => some (.shr, cs)
  | '&' :: cs => some (.and, cs)
  | '^' :: cs => some (.xor, cs)
  | '|' :: cs => some (.or, cs)
  | _ => none

/-- Operands of level at most `lvl` (level 1 is a unary or a primary), then operators of that level from left to
right; level 8 is a whole expression. Every call uses one of `fuel` steps. -/
def parseExpr (fuel : Nat) (lvl : Nat) (acc : Option AsmExpr) (t : Txt) : Option (AsmExpr × Txt) :=
  match fuel with
  | 0 => none
  | fuel + 1 =>
    let t := trimL t
    match acc with
    | none =>
      if lvl ≤ 1 then
        match t with
        | '-' :: cs => (parseExpr fuel 1 none cs).map (fun p => (.neg p.1, p.2))
        | '~' :: cs => (parseExpr fuel 1 none cs).map (fun p => (.inv p.1, p.2))
        | '(' :: cs =>
          match parseExpr fuel 7 none cs with
          | some (e, r) =>
            match trimL r with
            | ')' :: r2 => some (e, r2)
            | _ => none
          | none => none
        | c :: _ =>
          let (w, r) := takeRun nameRest t
          if c.isDigit then (intLit w).map (fun n => (.lit n, r))
          else if isName w then some (.sym w, r)
          else none
        | [] => none
      else
        match parseExpr fuel (lvl - 1) none t with
        | some (e, r) => parseExpr fuel lvl (some e) r
        | none => none
    | some e =>
      match opAt t with
      | some (o, r) =>
        if o.level = lvl then
          match parseExpr fuel (lvl - 1) none r with
          | some (e2, r2) => parseExpr fuel lvl (some (.bin o e e2)) r2
          | none => none
        else some (e, t)
      | none => some (e, t)

/-- A text that is one expression. -/
def exprOf (t : Txt) : Except AsmErr AsmExpr :=
  match parseExpr (9 * t.length + 9) 7 none t with
  | some (e, r) => if (trimL r).isEmpty then .ok e else .error .expression
  | none => .error .expression

/-- The sections that a label may stand in (R81). -/
inductive AsmSect where
  | code
  | const
  | data
  deriving DecidableEq, Repr

/-- The value of an expression: a number, and the section of the label that it is an offset from, if any. -/
structure AsmVal where
  n : Int
  lab : Option AsmSect := none
  deriving DecidableEq, Repr

/-- A bitwise operation on two's complement integers of unbounded width, computed in a width that holds both. -/
def intBits (f : Nat → Nat → Nat) (a b : Int) : Int :=
  let w := Nat.log2 a.natAbs + Nat.log2 b.natAbs + 3
  let m : Int := (pow2 w : Nat)
  let r := f (a % m).toNat (b % m).toNat % pow2 w
  if r < pow2 (w - 1) then (r : Int) else (r : Int) - m

/-- Exact integer arithmetic of one operator. -/
def intOp (o : AsmOp) (a b : Int) : Except AsmErr Int :=
  match o with
  | .mul => .ok (a * b)
  | .div => if b = 0 then .error .arithmetic else .ok (a.tdiv b)
  | .rem => if b = 0 then .error .arithmetic else .ok (a.tmod b)
  | .add => .ok (a + b)
  | .sub => .ok (a - b)
  | .shl => if 0 ≤ b && b ≤ 63 then .ok (a * (pow2 b.toNat : Nat)) else .error .arithmetic
  | .shr => if 0 ≤ b && b ≤ 63 then .ok (a.fdiv (pow2 b.toNat : Nat)) else .error .arithmetic
  | .and => .ok (intBits (· &&& ·) a b)
  | .xor => .ok (intBits (· ^^^ ·) a b)
  | .or => .ok (intBits (· ||| ·) a b)

/-- An operator on two values: a label plus or minus a constant stays an offset in its section, the difference of two
labels is a constant, a data label takes no other operator (R97), and any other use of a code or const label is its
offset (DEDUCED, log 59). -/
def valOp (o : AsmOp) (a b : AsmVal) : Except AsmErr AsmVal :=
  match intOp o a.n b.n with
  | .error e => .error e
  | .ok n =>
    match a.lab, b.lab, o with
    | none, none, _ => .ok { n := n }
    | some s, none, .add => .ok { n := n, lab := some s }
    | some s, none, .sub => .ok { n := n, lab := some s }
    | none, some s, .add => .ok { n := n, lab := some s }
    | x, y, _ => if x == some .data || y == some .data then .error .dataLabel else .ok { n := n }

/-- The value of an expression under the names that `look` knows. -/
def AsmExpr.eval (look : Txt → Option AsmVal) : AsmExpr → Except AsmErr AsmVal
  | .lit n => .ok { n := n }
  | .sym t =>
    match look t with
    | some v => .ok v
    | none => .error .undefinedName
  | .neg e =>
    match e.eval look with
    | .ok v => if v.lab == some .data then .error .dataLabel else .ok { n := -v.n }
    | .error x => .error x
  | .inv e =>
    match e.eval look with
    | .ok v => if v.lab == some .data then .error .dataLabel else .ok { n := -v.n - 1 }
    | .error x => .error x
  | .bin o a b =>
    match a.eval look, b.eval look with
    | .ok x, .ok y => valOp o x y
    | .error x, _ => .error x
    | .ok _, .error y => .error y

/-- The value of an expression that must be no data label (R97). -/
def AsmExpr.int (look : Txt → Option AsmVal) (e : AsmExpr) : Except AsmErr Int :=
  match e.eval look with
  | .ok v => if v.lab == some .data then .error .dataLabel else .ok v.n
  | .error x => .error x

/-- The value of an expression that must lie in a range (R86). -/
def AsmExpr.within (look : Txt → Option AsmVal) (e : AsmExpr) (lo hi : Int) : Except AsmErr Int :=
  match e.int look with
  | .ok n => if lo ≤ n && n ≤ hi then .ok n else .error .range
  | .error x => .error x

end Sys2Proof.Machine
end

