-- ==== Sys2Proof/Machine/AsmForms.lean ====
section
/-!
DEFINITION. How emkas writes each instruction and what it encodes (R82 to R84, R86, and each instruction's own
entry): the suffixes that a mnemonic accepts, its operands, and the word that they give.
-/
namespace Sys2Proof.Machine

/-! ## Operands as they are written (R83) -/

/-- The register kinds of R83. -/
inductive RegKind where
  | v | s | p | q | k | f | a | m | h
  deriving DecidableEq, Repr

/-- How many registers a kind has (R83). -/
def RegKind.count : RegKind → Nat
  | .v => 192
  | .s => 64
  | .p => 12
  | .q => 4
  | .k => 12
  | .f => 8
  | .a => 8
  | .m => 8
  | .h => 4

/-- The number that a register's field holds (R60, R67, R144). -/
def RegKind.code (kd : RegKind) (n : Nat) : Nat := if kd = .s then 192 + n else n

/-- One operand. -/
inductive AsmOpd where
  /-- A register, with `^` after it or a space suffix (R82, R232, R233). -/
  | reg (kd : RegKind) (n : Nat) (last : Bool) (spc : Option Nat)
  /-- `!Qn` (R150). -/
  | notQ (n : Nat)
  /-- `#d` (R84). -/
  | demand (e : AsmExpr)
  /-- A special register by its name (R73). -/
  | special (n : Nat)
  | flt (x : FloatLit)
  | expr (e : AsmExpr)
  deriving DecidableEq, Repr

/-- The kind of a register letter. -/
def kindOf (c : Char) : Option RegKind :=
  match c with
  | 'v' => some .v
  | 's' => some .s
  | 'p' => some .p
  | 'q' => some .q
  | 'k' => some .k
  | 'f' => some .f
  | 'a' => some .a
  | 'm' => some .m
  | 'h' => some .h
  | _ => none

/-- A register name (R83). -/
def regOf (t : Txt) : Option (RegKind × Nat) :=
  match lower t with
  | c :: cs =>
    match kindOf c, plainNat cs with
    | some kd, some n => if n < kd.count && !cs.isEmpty then some (kd, n) else none
    | _, _ => none
  | [] => none

/-- The special registers by name (R73). -/
def specialNames : List (String × Nat) :=
  [("laneid", 0x00), ("groupid", 0x01), ("teampos", 0x02), ("lanexyz", 0x03), ("teamdim", 0x04), ("gridpos", 0x05),
   ("teamlin", 0x06), ("griddim", 0x07), ("clusterpos", 0x08), ("gridh", 0x09), ("coreloc", 0x0A), ("devnum", 0x0B),
   ("cyc", 0x0C), ("pix", 0x0D), ("fbb", 0x0E), ("tqs", 0x0F), ("livem", 0x10), ("runm", 0x11), ("framed", 0x12),
   ("satf", 0x13), ("sgrp", 0x14), ("ccinv", 0x15), ("trcause", 0x16), ("trmask", 0x17), ("trpc", 0x18),
   ("trinfo", 0x19), ("regcnt", 0x1A), ("regpc", 0x1B)]

/-- The value of a word in a table of names without case. -/
def named {α : Type} (tab : List (String × α)) (t : Txt) : Option α :=
  (tab.find? (fun p => p.1.toList == lower t)).map (·.2)

/-- The spaces (R66). -/
def spaceNames : List (String × Nat) := [("core", 0), ("clus", 1), ("glob", 2)]

/-- An operand (R82 to R85): a register with what stands after it, `!Qn`, `#d`, a special register, a float literal,
or an expression. -/
def operandOf (t : Txt) : Except AsmErr AsmOpd :=
  let (w, r) := takeRun nameRest t
  match regOf w, r with
  | some (kd, n), [] => .ok (.reg kd n false none)
  | some (kd, n), ['^'] => .ok (.reg kd n true none)
  | some (kd, n), '.' :: sp =>
    match named spaceNames sp with
    | some x => .ok (.reg kd n false (some x))
    | none => .error .operand
  | some _, _ => .error .operand
  | none, _ =>
    match t with
    | '!' :: cs =>
      match regOf (trimL cs) with
      | some (.q, n) => .ok (.notQ n)
      | _ => .error .operand
    | '#' :: cs => (exprOf cs).map .demand
    | _ =>
      match named specialNames t, floatLit t with
      | some n, _ => .ok (.special n)
      | none, some x => .ok (.flt x)
      | none, none => (exprOf t).map .expr

/-! ## Suffixes -/

/-- The type code of a type suffix (R64): `.q8pNxy` is 0x20 + 4·(N − 1) + 2·u + f. -/
def typeCode (t : Txt) : Option Nat :=
  match t with
  | 'q' :: '8' :: 'p' :: n :: x :: y :: [] =>
    match digitVal n with
    | some k =>
      if 1 ≤ k && k ≤ 7 && (x == 's' || x == 'n') && (y == 'e' || y == 'f') then
        some (0x20 + 4 * (k - 1) + (if x == 'n' then 2 else 0) + (if y == 'f' then 1 else 0))
      else none
    | none => none
  | _ =>
    named [("i8", 0), ("i16", 1), ("i32", 2), ("i64", 3), ("n8", 4), ("n16", 5), ("n32", 6), ("n64", 7),
      ("b8", 8), ("b16", 9), ("b32", 10), ("b64", 11), ("f32", 12), ("f16", 13), ("bf16", 14), ("f16x2", 15),
      ("bf16x2", 16)] t

/-- Where a suffix or an operand puts its number. -/
inductive AsmFld where
  | d | a | b | c
  /-- IMM16, signed or not. -/
  | imm
  /-- IMM41. -/
  | long
  /-- MOD from bit `sh` on. -/
  | mod (sh : Nat)
  /-- C from bit `sh` of the field on. -/
  | cBits (sh : Nat)
  | jmod (sh : Nat)
  deriving DecidableEq, Repr

/-- The suffixes of one row: at most one of them may stand. -/
structure AsmRow where
  /-- The suffixes and their numbers. -/
  toks : List (String × Nat) := []
  /-- Suffixes of a word and a number: the word, its least and greatest number, and what the least encodes. -/
  nums : Option (String × Nat × Nat × Nat) := none
  fld : AsmFld
  deriving DecidableEq, Repr

/-- A word and a number from `lo` to `hi` after it. -/
def wordNum (w : String) (lo hi first : Nat) (t : Txt) : Option Nat :=
  let l := w.toList
  if t.take l.length == l then
    match t.drop l.length with
    | [] => none
    | ds =>
      match plainNat ds with
      | some n => if lo ≤ n && n ≤ hi then some (n - lo + first) else none
      | none => none
  else none

/-- The number that a suffix has in a row. -/
def AsmRow.value (r : AsmRow) (t : Txt) : Option Nat :=
  match named r.toks t, r.nums with
  | some n, _ => some n
  | none, some (w, lo, hi, first) => wordNum w lo hi first t
  | none, none => none

/-- How a form takes a type suffix (R82). -/
inductive AsmTy where
  /-- None. -/
  | none
  /-- One, which must stand. -/
  | need
  /-- The one code that the instruction accepts; the suffix may be left out. -/
  | only (code : Nat)
  /-- The destination's type, then the source's (R195). -/
  | two
  deriving DecidableEq, Repr

/-- One operand of a form. -/
inductive AsmSlot where
  /-- A register of one of the kinds in a field. -/
  | reg (f : AsmFld) (ks : List RegKind)
  /-- An S register whose `.space` stands in MOD from bit `sh` on. -/
  | space (f : AsmFld) (sh : Nat)
  /-- Q0 to Q3 in OPX (R167). -/
  | qOpx
  /-- Qn or !Qn of UBRA (R150). -/
  | test
  /-- An immediate with the least and greatest value of its field. -/
  | imm (f : AsmFld) (lo hi : Int)
  /-- IMM16 as TYPE extends it: signed for .iN (R166, R177). -/
  | immTy
  /-- IMM16 as a float of TYPE (R191). -/
  | flt
  /-- A special register in IMM16. -/
  | special
  /-- The target in OFF (R84). -/
  | target
  /-- `#d`, divided by 8, in a field (R84). -/
  | demand (f : AsmFld)
  /-- CALL.catch's label (R152). -/
  | catchAt
  /-- JMP's stride (R149). -/
  | stride
  deriving DecidableEq, Repr

/-- One form of a mnemonic. -/
structure AsmForm where
  opc : Nat
  ty : AsmTy := .none
  /-- The type codes of this form; all of the instruction's where empty. -/
  tys : List Nat := []
  rows : List AsmRow := []
  /-- A suffix that this form needs. -/
  need : Option String := none
  /-- MOD bits of the form. -/
  fix : Nat := 0
  slots : List AsmSlot
  deriving DecidableEq, Repr

/-! ### The rows of R82 and of R168, R193, R237 -/

def rowRnd : AsmRow := { toks := [("rne", 0), ("rz", 1), ("ru", 2), ("rd", 3), ("ro", 4)], fld := .mod 9 }
def rowSat : AsmRow := { toks := [("sat", 1)], fld := .mod 8 }
def rowSpc : AsmRow := { toks := spaceNames, fld := .mod 10 }
def rowOrd : AsmRow := { toks := [("acq", 1), ("rel", 2), ("acqrel", 3)], fld := .mod 8 }
/-- A `.clus` that is a scope is written `@clus` here (R82, `markScope`). -/
def rowScp : AsmRow :=
  { toks := [("grp", 0), ("team", 1), ("@clus", 2), ("dev", 3), ("sys", 4)], fld := .mod 5 }
def rowCmp : AsmRow :=
  { toks := [("eq", 0), ("ne", 1), ("lt", 2), ("le", 3), ("gt", 4), ("ge", 5)], fld := .mod 9 }
def rowFcmp : AsmRow := { rowCmp with toks := rowCmp.toks ++ [("un", 6), ("or", 7)] }
def rowElem : AsmRow := { nums := some ("e", 0, 3, 0), fld := .mod 6 }
def rowSize : AsmRow :=
  { toks := [("n8", 0), ("n16", 1), ("b32", 2), ("b64", 3), ("b128", 4), ("i8", 5), ("i16", 6)], fld := .mod 0 }
def rowRed : AsmRow :=
  { toks := [("add", 0), ("min", 1), ("max", 2), ("and", 3), ("or", 4), ("xor", 5)], fld := .b }
def rowAtom : AsmRow :=
  { toks := [("add", 0), ("smin", 1), ("smax", 2), ("umin", 3), ("umax", 4), ("and", 5), ("or", 6), ("xor", 7),
      ("exch", 8), ("fadd.f32", 9), ("hadd.f16x2", 10)], fld := .c }
def rowWide : AsmRow := { toks := [("b32", 0), ("b64", 1)], fld := .mod 2 }
def rowsX : List AsmRow :=
  [{ nums := some ("sh", 0, 3, 0), fld := .mod 10 }, { nums := some ("st", 0, 23, 0), fld := .mod 5 }]
/-- A row of one suffix. -/
def flag1 (w : String) (fld : AsmFld) (v : Nat := 1) : AsmRow := { toks := [(w, v)], fld := fld }

/-! ### Operands of many forms -/

def vsK : List RegKind := [.v, .s]
def rD : AsmSlot := .reg .d vsK
def rA : AsmSlot := .reg .a vsK
def rB : AsmSlot := .reg .b vsK
def rC : AsmSlot := .reg .c vsK
def pD : AsmSlot := .reg .d [.p]
def pA : AsmSlot := .reg .a [.p]
def pB : AsmSlot := .reg .b [.p]
def pC : AsmSlot := .reg .c [.p]
def qD : AsmSlot := .reg .d [.q]
def imm16 : AsmSlot := .imm .imm 0 65535

/-- The forms of an instruction with TYPE, without an I form. -/
def formT (opc : Nat) (rows : List AsmRow) (slots : List AsmSlot) : List AsmForm :=
  [{ opc := opc, ty := .need, rows := rows, slots := slots }]

/-- Two sources, the second a register or an immediate (R69: the I form is opcode + 0x40). -/
def formI (opc : Nat) (rows : List AsmRow) (d : AsmSlot) (last : AsmSlot) : List AsmForm :=
  formT opc rows [d, rA, rB] ++ formT (opc + 0x40) rows [d, rA, last]

/-- A form without TYPE. -/
def form0 (opc : Nat) (slots : List AsmSlot) (rows : List AsmRow := []) : List AsmForm :=
  [{ opc := opc, rows := rows, slots := slots }]

/-- LD and ST (R223): with an index or without. -/
def formLd (opc : Nat) : List AsmForm :=
  let rows := [rowSpc, rowOrd, rowScp, flag1 "sc" (.mod 3), rowSize]
  form0 opc [rD, rA, .imm .c (-128) 127] rows ++
    [{ opc := opc, rows := rows, fix := 0x10, slots := [rD, rA, rB, .imm .c (-128) 127] }]

/-- The suffixes of ATOM, RED and CAS (R346). -/
def rowsAtom : List AsmRow := [rowSpc, rowOrd, rowScp, rowWide, flag1 "vs" (.mod 4)]

/-- Control and system mnemonics (R147 to R165). -/
def formsControl : List (String × List AsmForm) :=
  [("bra", form0 0x000 [.target]),
   ("jmp", form0 0x001 [.target, .reg .d [.s], .stride]),
   ("ubra", form0 0x002 [.test, .target]),
   ("brx", form0 0x003 [rA]),
   ("call", form0 0x004 [.target, .demand .d] ++
     [{ opc := 0x004, rows := [flag1 "catch" (.jmod 0) 0], need := some "catch", slots := [.target, .demand .d, .catchAt] }]),
   ("callx", form0 0x005 [rA, .demand (.mod 0)]),
   ("ret", form0 0x006 []),
   ("unwind", form0 0x007 [] ++ form0 0x007 [.imm .imm 0 511]),
   ("exit", form0 0x008 []),
   ("nop", form0 0x009 []),
   ("yield", form0 0x00A []),
   ("sleep", form0 0x00B [rA]
     [{ toks := [("until", 0), ("after", 1), ("prom", 2)], fld := .mod 6 }, { nums := some ("k", 0, 11, 0), fld := .mod 0 }]),
   ("bkpt", form0 0x00C [imm16]),
   ("trap", form0 0x00D [imm16]),
   ("tret", form0 0x00E []),
   ("sread", formT 0x00F [] [rD, .special]),
   ("swrite", [{ opc := 0x010, ty := .only 11, slots := [.special, rA] }]),
   ("launch", form0 0x011 [rA, rB, rC]),
   ("fetchw", form0 0x012 [rA, rB])]

/-- Uniform mnemonics (R166 to R172, R176). -/
def formsUniform : List (String × List AsmForm) :=
  [("sadd", formI 0x080 [rowSat] rD .immTy), ("ssub", formI 0x081 [rowSat] rD .immTy),
   ("smul", formI 0x082 [] rD .immTy), ("smulh", formT 0x083 [] [rD, rA, rB]),
   ("smad", formT 0x084 [] [rD, rA, rB, rC]),
   ("sand", formI 0x085 [] rD .immTy), ("sor", formI 0x086 [] rD .immTy), ("sxor", formI 0x087 [] rD .immTy),
   ("snot", formT 0x088 [] [rD, rA]),
   ("sshl", formI 0x089 [] rD imm16), ("sshr", formI 0x08A [] rD imm16),
   ("smin", formI 0x08B [] rD .immTy), ("smax", formI 0x08C [] rD .immTy),
   ("ssel", formT 0x08D [] [rD, .qOpx, rA, rB]),
   ("scmp", formI 0x08E [rowCmp] qD .immTy),
   ("smov", formT 0x08F [] [rD, rA]),
   ("smovi", form0 0x090 [rD, .imm .long (-(2 ^ 40)) (2 ^ 40 - 1)]),
   ("sbfe", formT 0x091 [] [rD, rA, rB, rC]),
   ("sbfi", [{ opc := 0x092, ty := .only 11, slots := [rD, rA, rB, rC] }]),
   ("spopc", formT 0x093 [] [rD, rA]), ("sclz", formT 0x094 [] [rD, rA]),
   ("saddr", [{ opc := 0x095, ty := .only 7, slots := [rD, rA, rB, rC, .imm (.mod 6) 0 16] }]),
   ("sldc", formT 0x096 [{ toks := [("par", 0), ("const", 1)], fld := .mod 6 }] [rD, rA, imm16]),
   ("qand", form0 0x210 [qD, .reg .a [.q], .reg .b [.q]]),
   ("qor", form0 0x211 [qD, .reg .a [.q], .reg .b [.q]]),
   ("qnot", form0 0x212 [qD, .reg .a [.q]])]

/-- Vector integer mnemonics (R180 to R190). -/
def formsVector : List (String × List AsmForm) :=
  [("vadd", formI 0x100 [rowSat] rD .immTy), ("vsub", formI 0x101 [rowSat] rD .immTy),
   ("vmul", formI 0x102 [] rD .immTy), ("vmulh", formT 0x103 [] [rD, rA, rB]),
   ("vmad", formT 0x104 [rowSat] [rD, rA, rB, rC]),
   ("vmin", formI 0x105 [] rD .immTy), ("vmax", formI 0x106 [] rD .immTy),
   ("vabs", formT 0x107 [rowSat] [rD, rA]), ("vneg", formT 0x108 [rowSat] [rD, rA]),
   ("vand", formI 0x109 [] rD .immTy), ("vor", formI 0x10A [] rD .immTy), ("vxor", formI 0x10B [] rD .immTy),
   ("vnot", formT 0x10C [] [rD, rA]),
   ("vshl", formI 0x10D [] rD imm16), ("vshr", formI 0x10E [] rD imm16),
   ("vshrr", formI 0x10F [rowRnd, rowSat] rD imm16),
   ("vbfe", formT 0x110 [] [rD, rA, rB, rC]),
   ("vbfi", [{ opc := 0x111, ty := .only 10, slots := [rD, rA, rB, rC] }]),
   ("vpopc", formT 0x112 [] [rD, rA]), ("vclz", formT 0x113 [] [rD, rA]),
   ("vsel", formT 0x114 [] [rD, rA, rB, pC]),
   ("vcmp", formI 0x115 [rowCmp] pD .immTy),
   ("vaddcy", [{ opc := 0x116, ty := .only 6, rows := [flag1 "sub" (.mod 6)], slots := [rD, rA, rB, pC] }]),
   ("vdot2", formT 0x118 [rowSat, flag1 "ua" (.mod 7), flag1 "ub" (.mod 6)] [rD, rA, rB, rC]),
   ("vdot4", formT 0x119 [rowSat, flag1 "ua" (.mod 7), flag1 "ub" (.mod 6)] [rD, rA, rB, rC]),
   ("vsat", formT 0x11A [flag1 "src.n" (.mod 6)] [rD, rA]),
   ("vpack", [{ opc := 0x11B, ty := .need, tys := [1, 5, 9], rows := [rowSat], slots := [rD, rA, rB] },
     { opc := 0x11B, ty := .need, tys := [0, 4, 8], rows := [rowSat, { toks := [("lo", 0), ("hi", 1)], fld := .mod 6 }],
       slots := [rD, rA, rB, rC] }]),
   ("vunpack", formT 0x11C [rowElem] [rD, rA])]

/-- Vector float mnemonics (R191 to R196). -/
def formsFloat : List (String × List AsmForm) :=
  [("fadd", formI 0x180 [rowRnd, rowSat] rD .flt), ("fsub", formT 0x181 [rowRnd, rowSat] [rD, rA, rB]),
   ("fmul", formI 0x182 [rowRnd, rowSat] rD .flt), ("ffma", formT 0x183 [rowRnd, rowSat] [rD, rA, rB, rC]),
   ("fmin", formI 0x184 [] rD .flt), ("fmax", formI 0x185 [] rD .flt),
   ("fcmp", formI 0x186 [rowFcmp] pD .flt), ("frnd", formT 0x187 [rowRnd] [rD, rA]),
   ("frcp", formT 0x188 [] [rD, rA]), ("frsq", formT 0x189 [] [rD, rA]), ("fsqrt", formT 0x18A [] [rD, rA]),
   ("fexp2", formT 0x18B [] [rD, rA]), ("flog2", formT 0x18C [] [rD, rA]), ("fsin", formT 0x18D [] [rD, rA]),
   ("fcos", formT 0x18E [] [rD, rA]),
   ("hadd2", formT 0x190 [rowRnd, rowSat] [rD, rA, rB]), ("hmul2", formT 0x191 [rowRnd, rowSat] [rD, rA, rB]),
   ("hfma2", formT 0x192 [rowRnd, rowSat] [rD, rA, rB, rC]),
   ("hmin2", formT 0x193 [] [rD, rA, rB]), ("hmax2", formT 0x194 [] [rD, rA, rB]),
   ("cvt", [{ opc := 0x198, ty := .two, rows := [rowRnd, rowSat, rowElem], slots := [rD, rA] }])]

/-- Cross-lane and predicate mnemonics (R173 to R175, R197 to R205). -/
def formsCross : List (String × List AsmForm) :=
  [("shfl", formT 0x200 [{ toks := [("idx", 0), ("xor", 1), ("rot", 2)], fld := .mod 6 }] [rD, rA, rB, rC]),
   ("slide", formT 0x201 [{ toks := [("up", 0), ("down", 1)], fld := .mod 6 }] [rD, rA, rB, rC]),
   ("vote", form0 0x202 [.reg .d [.s, .q], pA] [{ toks := [("ballot", 0), ("any", 1), ("all", 2)], fld := .mod 6 }]),
   ("vred", formT 0x203 [rowRed, rowRnd] [rD, rA]),
   ("vscan", formT 0x204 [rowRed, rowRnd, flag1 "excl" (.mod 6)] [rD, rA]),
   ("vconflict", formT 0x205 [] [rD, rA]),
   ("vtos", formT 0x206 [flag1 "low" (.mod 6) 0] [rD, rA] ++
     [{ opc := 0x206, ty := .need, rows := [flag1 "lane" (.mod 6)], need := some "lane", slots := [rD, rA, rB] }]),
   ("stov", formT 0x207 [] [rD, rA]),
   ("pand", form0 0x208 [pD, pA, pB]), ("por", form0 0x209 [pD, pA, pB]), ("pxor", form0 0x20A [pD, pA, pB]),
   ("pnot", form0 0x20B [pD, pA]),
   ("pmovv", form0 0x20C [pD, rA] [{ toks := [("nz", 0), ("bit", 1)], fld := .mod 6 }]),
   ("vmovp", form0 0x20D [rD, pA] [{ toks := [("one", 0), ("all", 1), ("mask", 2)], fld := .mod 6 }]),
   ("pcount", form0 0x20E [rD, pA])]

/-- Memory mnemonics (R223 to R235). -/
def formsMemory : List (String × List AsmForm) :=
  [("ld", formLd 0x280), ("st", formLd 0x281),
   ("ldt", form0 0x282 [rD, rA, rB] [rowOrd, rowScp]), ("stt", form0 0x283 [rD, rA, rB] [rowOrd, rowScp]),
   ("tmov", form0 0x284 [rD, rA, rB, rC]),
   ("copy", form0 0x285 [rD, .space .a 0, rB, rC] [rowSpc]),
   ("gtha", form0 0x286 [rD, .space .a 0, .space .b 2, rC] [rowSpc, flag1 "zskip" (.mod 4)]),
   ("tierh", form0 0x287 [rA, rB] [rowSpc]),
   ("cjoin", form0 0x288 [.imm (.mod 0) 0 3]), ("cleave", form0 0x289 []), ("cquery", form0 0x28A [rD])]

/-- Synchronisation mnemonics (R346 to R357). -/
def formsSync : List (String × List AsmForm) :=
  [("atom", form0 0x290 [rD, rA, rB] (rowAtom :: rowsAtom) ++
     [{ opc := 0x290, rows := flag1 "nr" (.mod 3) :: rowAtom :: rowsAtom, need := some "nr", slots := [rA, rB] }]),
   ("red", form0 0x291 [rA, rB] (rowAtom :: rowsAtom)),
   ("cas", form0 0x292 [rD, rA, rB, rC] rowsAtom ++
     [{ opc := 0x292, rows := flag1 "nr" (.mod 3) :: rowsAtom, need := some "nr", slots := [rA, rB, rC] }]),
   ("fence", form0 0x293 [] [rowOrd, rowScp, flag1 "eng" (.mod 0)]),
   ("bar", form0 0x294 [.imm (.mod 0) 0 15, rA]),
   ("bara", form0 0x295 [.imm (.mod 0) 0 15, rA] [flag1 "eng" (.mod 4)]),
   ("barw", form0 0x296 [.imm (.mod 0) 0 15]),
   ("cbar", form0 0x297 [.imm (.mod 0) 0 3, rA] [{ toks := [("sync", 0), ("arr", 1)], fld := .mod 2 }] ++
     [{ opc := 0x297, rows := [flag1 "wait" (.mod 2) 2], need := some "wait", slots := [.imm (.mod 0) 0 3] }]),
   ("tbegin", form0 0x298 []), ("tend", form0 0x299 [pD] [rowOrd, rowScp]), ("tabort", form0 0x29A [rA]),
   ("tstat", form0 0x29B [rD])]

/-- Matrix mnemonics (R236 to R243). -/
def formsMatrix : List (String × List AsmForm) :=
  let rowAb : AsmRow := { nums := some ("ab", 0, 2, 0), fld := .mod 2 }
  let rowF : AsmRow := { toks := [("f32", 0), ("f16", 1)], fld := .mod 4 }
  let tile (f : AsmFld) : AsmSlot := .reg f [.a]
  let map (f : AsmFld) : AsmSlot := .reg f [.m]
  [("omap", form0 0x300 [map .d, rA, rB, rC]),
   ("mma", form0 0x301 [tile .d, map .a, map .b, rC] rowsX ++
     [{ opc := 0x301, rows := rowAb :: rowsX, fix := 0x10, slots := [tile .d, tile .a, map .b, rC] }]),
   ("mzero", form0 0x302 [tile .d] (rowF :: rowsX)), ("mlda", form0 0x303 [tile .d, rA, rB] (rowF :: rowsX)),
   ("mdrain", form0 0x304 [rD, tile .a, rB] rowsX ++
     [{ opc := 0x304, rows := flag1 "peer" (.mod 4) :: rowsX, need := some "peer", slots := [tile .a, rC] }])]

/-- Stream, table and cellar mnemonics (R310, R318, R325). -/
def formsStream : List (String × List AsmForm) :=
  let fD : AsmSlot := .reg .d [.f]
  let fA : AsmSlot := .reg .a [.f]
  let fB : AsmSlot := .reg .b [.f]
  let rowH (k : Nat) : AsmRow := flag1 "h" (.mod k)
  [("sopen", form0 0x310 [fD, rA, rB] [flag1 "core" (.mod 0)]), ("snext", form0 0x311 [rD, fA, rC]),
   ("sskip", form0 0x312 [rD, fA, rB]), ("sisect", form0 0x313 [rD, fA, fB, rC]),
   ("sunion", form0 0x314 [rD, fA, fB, rC]),
   ("sclose", form0 0x315 [fA] ++
     [{ opc := 0x315, rows := [flag1 "all" (.mod 0)], need := some "all", slots := [] }]),
   ("sstat", form0 0x316 [rD, fA] [{ nums := some ("w", 0, 7, 0), fld := .mod 0 }]),
   ("lisect", form0 0x317 [rD, rA, rB, rC] [flag1 "i" (.mod 0)]),
   ("hfam", form0 0x320 [.reg .d [.h], rA]), ("hcode", form0 0x321 [rD, rA, .reg .b [.h]]),
   ("hprobe", form0 0x322 [rD, rA, rB, rC] [{ nums := some ("t", 1, 16, 0), fld := .mod 0 }]),
   ("hins", form0 0x323 [rD, rA, rB, rC]), ("hdel", form0 0x324 [rD, rA, rB, rC]),
   ("hreh", form0 0x325 [rD, rA, rB]), ("hsync", form0 0x326 [rA]),
   ("raye", form0 0x380 [rD, rA, rB, rC]), ("anyr", form0 0x381 [rD, rA, rB, rC]),
   ("trbegin", form0 0x382 [rD, rA]), ("trpub", form0 0x383 [rD, rA, rB]),
   ("texf", form0 0x384 [rD, rA, rB, rC] [flag1 "tri" (.mod 0), rowH 1]),
   ("hgf", form0 0x385 [rD, rA, rB, rC] [{ nums := some ("lv", 1, 16, 0), fld := .mod 0 }, rowH 4]),
   ("attn", form0 0x386 [rA]), ("bfill", form0 0x387 [rA, rB])]

/-- Every mnemonic with its forms. -/
def asmForms : List (String × List AsmForm) :=
  formsControl ++ formsUniform ++ formsVector ++ formsFloat ++ formsCross ++ formsMemory ++ formsSync ++
    formsMatrix ++ formsStream

/-! ## The instruction as it is written -/

/-- An instruction: guard, mnemonic, suffixes, operands, and the flag of a final `Kn`. -/
structure AsmIns where
  grd : Nat := 15
  sns : Bool := false
  forms : List AsmForm
  sfx : List Txt
  ops : List AsmOpd
  flag : Option Nat := none
  deriving DecidableEq, Repr

/-- The opcode of the mnemonic's first form: it fixes the class, the admission to a clause and the counting on a flag
of every form. -/
def AsmIns.opc (i : AsmIns) : Nat :=
  match i.forms with
  | f :: _ => f.opc
  | [] => 0

/-- The description of an opcode's words. -/
def specOf (opc : Nat) : WordSpec := ((ofOpcode opc 0).bind wordSpec).getD {}

/-- Suffixes of two parts are one suffix: `.src.n`, `.fadd.f32`, `.hadd.f16x2` (R186, R346). -/
def joinSfx : List Txt → List Txt
  | [] => []
  | a :: rest =>
    match joinSfx rest with
    | [] => [a]
    | b :: bs =>
      let j := a ++ '.' :: b
      if j == "src.n".toList || j == "fadd.f32".toList || j == "hadd.f16x2".toList then j :: bs else a :: b :: bs

/-- Is a suffix an order? -/
def isOrd (t : Txt) : Bool := (rowOrd.value t).isSome

/-- `.clus` after the order suffix, or on an instruction without a space suffix, is the scope (R82). -/
def markScope (spc after : Bool) : List Txt → List Txt
  | [] => []
  | t :: ts =>
    (if t == "clus".toList && (after || !spc) then "@clus".toList else t) :: markScope spc (after || isOrd t) ts

/-- A guard (R82): `(Pn)`, `(!Pn)`, `(Qn)` or `(!Qn)`, and the rest of the statement. -/
def guardOf (t : Txt) : Except AsmErr (Nat × Bool × Txt) :=
  match t with
  | '(' :: cs =>
    let (inner, rest) := takeRun (· != ')') cs
    let (sns, r) := match trim inner with
      | '!' :: r => (true, trimL r)
      | r => (false, r)
    match regOf r, rest with
    | some (.p, n), _ :: rest => .ok (n, sns, trimL rest)
    | some (.q, n), _ :: rest => if n < 3 then .ok (12 + n, sns, trimL rest) else .error .guard
    | _, _ => .error .guard
  | _ => .ok (15, false, t)

/-- The first error of a list of results, or their values. -/
def allOk {α β : Type} (f : α → Except AsmErr β) : List α → Except AsmErr (List β)
  | [] => .ok []
  | x :: xs =>
    match f x, allOk f xs with
    | .ok y, .ok ys => .ok (y :: ys)
    | .error e, _ => .error e
    | .ok _, .error e => .error e

/-- Reads an instruction (R82). A final `Kn` is the flag; on an instruction that does not count on one it is an error
(R88). -/
def insOf (t : Txt) : Except AsmErr AsmIns :=
  match guardOf (trim t) with
  | .error e => .error e
  | .ok (grd, sns, u) =>
    let (head, rest) := takeRun (fun c => !isSpace c) u
    match splitDots [] (lower head) with
    | [] => .error .statement
    | m :: sfx =>
      match named asmForms m, allOk operandOf (argsOf rest) with
      | none, _ => .error .statement
      | some _, .error e => .error e
      | some forms, .ok ops =>
        let i : AsmIns := { grd := grd, sns := sns, forms := forms, sfx := joinSfx sfx, ops := ops }
        match ops.getLast? with
        | some (.reg .k n false none) =>
          if (specOf i.opc).flag then .ok { i with ops := ops.dropLast, flag := some n } else .error .flag
        | _ => .ok i

/-! ## The word -/

/-- The fields of a word in the making. -/
structure AsmEnc where
  d : Nat := 0
  a : Nat := 0
  b : Nat := 0
  c : Nat := 0
  imm : Nat := 0
  long : Nat := 0
  off : Int := 0
  jmod : Nat := 0
  mod : Nat := 0
  lra : Bool := false
  lrb : Bool := false
  lrc : Bool := false
  co : Bool := false
  deriving DecidableEq, Repr

/-- Adds a number to a field; a negative one in two's complement of the field's width. -/
def AsmEnc.put (e : AsmEnc) (f : AsmFld) (n : Int) : AsmEnc :=
  match f with
  | .d => { e with d := e.d + (n % 256).toNat }
  | .a => { e with a := e.a + (n % 256).toNat }
  | .b => { e with b := e.b + (n % 256).toNat }
  | .c => { e with c := e.c + (n % 256).toNat }
  | .imm => { e with imm := (n % 65536).toNat }
  | .long => { e with long := (n % (2 ^ 41)).toNat }
  | .mod sh => { e with mod := e.mod + n.toNat * 2 ^ sh }
  | .cBits sh => { e with c := e.c + n.toNat * 2 ^ sh }
  | .jmod sh => { e with jmod := e.jmod + n.toNat * 2 ^ sh }

/-- Marks the last read of a source field (R82). -/
def AsmEnc.mark (e : AsmEnc) : AsmFld → Option AsmEnc
  | .a => some { e with lra := true }
  | .b => some { e with lrb := true }
  | .c => some { e with lrc := true }
  | _ => none

/-- The suffixes of an instruction under one form: the fields they give and the type codes in order. No row may be
used twice. -/
def putSfx (f : AsmForm) (uni : Bool) (used : List Nat) (tys : List Nat) (e : AsmEnc) :
    List Txt → Except AsmErr (AsmEnc × List Nat)
  | [] => .ok (e, tys)
  | t :: ts =>
    match if f.ty = .none then none else typeCode t with
    | some c => putSfx f uni used (tys ++ [c]) e ts
    | none =>
      if uni && t == "co".toList then
        if e.co then .error .suffix else putSfx f uni used tys { e with co := true } ts
      else
        match f.rows.zipIdx.find? (fun r => (r.1.value t).isSome) with
        | none => .error .suffix
        | some (r, k) =>
          if used.contains k then .error .suffix
          else putSfx f uni (k :: used) tys (e.put r.fld ((r.value t).getD 0)) ts

/-- The type codes go to TYPE, and CVT's second to STYP (R82, R195). -/
def putTypes (f : AsmForm) (tys : List Nat) (e : AsmEnc) : Except AsmErr (AsmEnc × Nat) :=
  match f.ty, tys with
  | .none, [] => .ok (e, 0)
  | .need, [c] => .ok (e.put (.mod 0) c, c)
  | .only c, [] => .ok (e.put (.mod 0) c, c)
  | .only _, [c] => .ok (e.put (.mod 0) c, c)
  | .two, [c, s] => .ok ((e.put (.mod 0) c).put (.cBits 0) s, c)
  | _, _ => .error .suffix

/-- What the operands of a word may refer to: the names, the word's address in its code section, and the addresses of
the clause headers there. -/
structure AsmEnv where
  look : Txt → Option AsmVal
  addr : Nat
  headers : List Nat

/-- The header that a target names (R84): a code label plus or minus a constant. -/
def AsmEnv.header (v : AsmEnv) (x : AsmExpr) : Except AsmErr Int :=
  match x.eval v.look with
  | .error e => .error e
  | .ok t => if t.lab == some .code && 0 ≤ t.n && v.headers.contains t.n.toNat then .ok t.n else .error .target

/-- Does an operand have the shape of a slot? -/
def slotFits (s : AsmSlot) (o : AsmOpd) : Bool :=
  match s, o with
  | .reg _ ks, .reg kd _ _ sp => ks.contains kd && sp.isNone
  | .space _ _, .reg kd _ last _ => kd == .s && !last
  | .qOpx, .reg .q _ last sp => !last && sp.isNone
  | .test, .reg .q _ last sp => !last && sp.isNone
  | .test, .notQ _ => true
  | .imm _ _ _, .expr _ => true
  | .immTy, .expr _ => true
  | .flt, .flt _ => true
  | .special, .special _ => true
  | .special, .expr _ => true
  | .target, .expr _ => true
  | .demand _, .demand _ => true
  | .catchAt, .expr _ => true
  | .stride, .expr _ => true
  | _, _ => false

/-- The format that a float immediate of a type has in IMM16 (R191). -/
def immFmt (c : Nat) : Option Fmt :=
  if c = 13 then some fmtF16 else if c = 12 || c = 14 then some fmtBf16 else none

/-- One operand's part of the word, and whether it rounded a float literal. -/
def putSlot (v : AsmEnv) (ty : Nat) (e : AsmEnc) (s : AsmSlot) (o : AsmOpd) : Except AsmErr (AsmEnc × Bool) :=
  match s, o with
  | .reg f _, .reg kd n last _ =>
    let e := e.put f (kd.code n)
    if last then
      if kd = .v then (match e.mark f with | some e => .ok (e, false) | none => .error .operand) else .error .operand
    else .ok (e, false)
  | .space f sh, .reg kd n _ sp => .ok ((e.put f (kd.code n)).put (.mod sh) (sp.getD 0), false)
  | .qOpx, .reg _ n _ _ => .ok (e.put (.mod 6) n, false)
  | .test, .reg _ n _ _ => .ok (e.put (.jmod 0) n, false)
  | .test, .notQ n => .ok (e.put (.jmod 0) (n + 4), false)
  | .imm f lo hi, .expr x => (x.within v.look lo hi).map (fun n => (e.put f n, false))
  | .immTy, .expr x =>
    (if ty < 4 then x.within v.look (-32768) 32767 else x.within v.look 0 65535).map (fun n => (e.put .imm n, false))
  | .flt, .flt x =>
    match immFmt ty with
    | some f => (x.encode f).map (fun p => (e.put .imm p.1, !p.2))
    | none => .error .encoding
  | .special, .special n => .ok (e.put .imm n, false)
  | .special, .expr x => (x.within v.look 0 255).map (fun n => (e.put .imm n, false))
  | .target, .expr x =>
    match v.header x with
    | .error err => .error err
    | .ok t =>
      let off := (t - v.addr) / 8
      if (t - v.addr) % 8 = 0 && -(2 ^ 31) ≤ off && off < 2 ^ 31 then .ok ({ e with off := off }, false) else .error .target
  | .demand f, .demand x =>
    match x.within v.look 8 192 with
    | .error err => .error err
    | .ok n => if n % 8 = 0 then .ok (e.put f (n / 8), false) else .error .range
  | .catchAt, .expr x =>
    match v.header x with
    | .error err => .error err
    | .ok t =>
      let cd := (t - (v.addr + 8)) / 8
      if 1 ≤ cd && cd ≤ 255 then .ok (e.put (.jmod 0) (2 * cd + 1), false) else .error .target
  | .stride, .expr x =>
    match x.int v.look with
    | .error err => .error err
    | .ok n =>
      if n = 8 then .ok (e, false) else if n = 16 then .ok (e.put (.jmod 0) 1, false)
      else if n = 32 then .ok (e.put (.jmod 0) 2, false) else if n = 64 then .ok (e.put (.jmod 0) 3, false)
      else .error .range
  | _, _ => .error .operand

/-- Every operand's part of the word. -/
def putSlots (v : AsmEnv) (ty : Nat) (e : AsmEnc) (inex : Bool) : List AsmSlot → List AsmOpd → Except AsmErr (AsmEnc × Bool)
  | [], [] => .ok (e, inex)
  | s :: ss, o :: os =>
    match putSlot v ty e s o with
    | .ok (e, x) => putSlots v ty e (inex || x) ss os
    | .error err => .error err
  | _, _ => .error .operand

/-- The form that the operands and suffixes of an instruction select. -/
def AsmIns.form (i : AsmIns) : Option AsmForm :=
  i.forms.find? (fun f =>
    f.slots.length == i.ops.length && (f.slots.zip i.ops).all (fun p => slotFits p.1 p.2) &&
    (match f.need with
     | some w => i.sfx.contains w.toList
     | none => true) &&
    (f.tys.isEmpty || i.sfx.any (fun t => match typeCode t with | some c => f.tys.contains c | none => false)))

/-- The fields in the opcode's format (R63). -/
def AsmEnc.word (e : AsmEnc) (opc grd : Nat) (sns fsel : Bool) : Option Word :=
  let g : BitVec 4 := BitVec.ofNat 4 grd
  let b8 (n : Nat) : BitVec 8 := BitVec.ofNat 8 n
  match (ofOpcode opc 0).bind wordOf with
  | none => none
  | some (.g _) => some (encodeParts opc (.g
      { grd := g, sns := sns, d := b8 e.d, a := b8 e.a, b := b8 e.b, c := b8 e.c, lra := e.lra, lrb := e.lrb,
        lrc := e.lrc, fsel := fsel, co := e.co, mod := BitVec.ofNat 12 e.mod }))
  | some (.i _) => some (encodeParts opc (.i
      { grd := g, sns := sns, d := b8 e.d, a := b8 e.a, imm := BitVec.ofNat 16 e.imm, lra := e.lra, res := 0,
        fsel := fsel, co := e.co, mod := BitVec.ofNat 12 e.mod }))
  | some (.l _) => some (encodeParts opc (.l { grd := g, sns := sns, d := b8 e.d, imm := BitVec.ofNat 41 e.long }))
  | some (.j _) => some (encodeParts opc (.j
      { grd := g, sns := sns, d := b8 e.d, off := BitVec.ofInt 32 e.off, jmod := BitVec.ofNat 9 e.jmod }))

/-- An instruction's word (R82): emkas never gives one that R70 would refuse, so the word must decode. The second
part says that a float literal was rounded. A scope needs an order beside it. No suffix of the source holds the
character that marks a scope. -/
def AsmIns.encode (i : AsmIns) (v : AsmEnv) (fsel : Bool) : Except AsmErr (Word × Bool) :=
  match i.form with
  | none => .error .operand
  | some f =>
    if i.sfx.any (fun t => t.contains '@') then .error .suffix
    else
    let sfx := markScope (f.rows.contains rowSpc) false i.sfx
    let sp := specOf f.opc
    let uni := sp.uni && f.opc != 0x090
    if sfx.any (fun t => (rowScp.value t).isSome) && f.rows.contains rowScp && !sfx.any isOrd then .error .suffix
    else
      match putSfx f uni [] [] { mod := f.fix } sfx with
      | .error e => .error e
      | .ok (e, tys) =>
        match putTypes f tys e with
        | .error e => .error e
        | .ok (e, ty) =>
          match putSlots v ty e false f.slots i.ops with
          | .error e => .error e
          | .ok (e, inex) =>
            if f.opc = 0x002 && !(i.grd = 15) then .error .guard
            else
              match e.word f.opc i.grd i.sns fsel with
              | none => .error .encoding
              | some w =>
                match decode w with
                | .ok _ => .ok (w, inex)
                | .error _ => if sp.uni && i.grd < 12 then .error .guard else .error .encoding

/-- The V registers that an instruction's word covers (R91). -/
def coveredV (w : Word) : List Nat :=
  match decodeFields w with
  | some j =>
    match wordSpec j, wordOf j with
    | some t, some x => namedV t x
    | _, _ => []
  | none => []

/-- Does a word name a range whose length only a run knows: LDT, STT, HCODE (R91)? -/
def openRange (opc : Nat) : Bool := opc == 0x282 || opc == 0x283 || opc == 0x321

end Sys2Proof.Machine
end

