-- ==== Sys2Proof/Machine/AsmClause.lean ====
section
/-!
DEFINITION. How emkas forms clauses (R87 to R89): what closes the open clause, its engine class, its flags, and the
words of a closed clause.
-/
namespace Sys2Proof.Machine

/-- Where a statement stands: file, line number, whether it comes from an expansion (R94), and its text. -/
structure AsmPos where
  file : Txt
  line : Nat
  expanded : Bool
  text : Txt
  deriving DecidableEq, Repr

/-- One instruction of a clause. -/
structure AsmWord where
  pos : AsmPos
  ins : AsmIns
  deriving DecidableEq, Repr

/-- A clause: how it was formed, its header's fields, its words in order, and the class it has taken. -/
structure AsmClause where
  pos : AsmPos
  explicit : Bool := false
  wait : List Nat := []
  fa : Option Nat := none
  fb : Option Nat := none
  region : Bool := false
  y : Bool := false
  swap : Bool := false
  words : List AsmWord := []
  cls : Option Nat := none
  deriving DecidableEq, Repr

/-- Bytes of a clause: header and words. -/
def AsmClause.bytes (c : AsmClause) : Nat := 8 + 8 * c.words.length

/-- The class that a word takes: none in the uniform set and the flow subset, else the row of R87. -/
def classOf (opc : Nat) : Option Nat :=
  if admits 1 opc then none else [0, 2, 3, 4, 5, 6].find? (fun e => admits (BitVec.ofNat 3 e) opc)

/-- Does an instruction count on a flag (R62)? -/
def AsmIns.counts (i : AsmIns) : Bool := (specOf i.opc).flag

/-- A flag-counting instruction that names no flag. -/
def AsmIns.flagless (i : AsmIns) : Bool := i.counts && i.flag.isNone

/-- Does the clause's class admit an opcode? A clause without a class admits every one. -/
def AsmClause.admits (c : AsmClause) (opc : Nat) : Bool :=
  match c.cls with
  | none => true
  | some e => Machine.admits (BitVec.ofNat 3 e) opc

/-- Has the clause ended in a transfer (R58)? -/
def AsmClause.ended (c : AsmClause) : Bool :=
  match c.words.getLast? with
  | some w => isTransfer w.ins.opc
  | none => false

/-- Would the flags of an instruction close the clause: a third flag, or no invalid flag left for one that names
none (R87, R88)? -/
def AsmClause.flagsFull (c : AsmClause) (i : AsmIns) : Bool :=
  match i.flag with
  | some n =>
    match c.fa, c.fb with
    | none, _ => false
    | some a, none => a != n && c.words.any (fun w => w.ins.flagless)
    | some a, some b => a != n && b != n
  | none => i.counts && c.fa.isSome && c.fb.isSome

/-- Does an instruction close the automatic clause before it (R87)? A label closes it too. -/
def AsmClause.closes (c : AsmClause) (i : AsmIns) : Bool :=
  c.words.length == 16 || c.ended || !c.admits i.opc || c.flagsFull i

/-- The clause with a flag named (R88). -/
def AsmClause.name (c : AsmClause) (n : Nat) : AsmClause :=
  match c.fa, c.fb with
  | none, _ => { c with fa := some n }
  | some a, none => if a = n then c else { c with fb := some n }
  | some _, some _ => c

/-- The clause with one more word. -/
def AsmClause.push (c : AsmClause) (w : AsmWord) : AsmClause :=
  let c := if c.explicit then c else match w.ins.flag with
    | some n => c.name n
    | none => c
  { c with words := c.words ++ [w], cls := c.cls.orElse (fun _ => classOf w.ins.opc) }

/-- Is a word right in an explicit clause (R89)? -/
def AsmClause.takes (c : AsmClause) (i : AsmIns) : Except AsmErr Unit :=
  if c.words.length == 16 || !c.admits i.opc then .error .clause
  else match i.flag with
    | some n => if c.fa == some n || c.fb == some n then .ok () else .error .flag
    | none => if i.counts && c.fa.isSome && c.fb.isSome then .error .flag else .ok ()

/-- FSEL of an instruction (R88): the flag it names, or the one that is invalid. -/
def AsmClause.fsel (c : AsmClause) (i : AsmIns) : Bool :=
  match i.flag with
  | some n => c.fa != some n
  | none => i.counts && c.fa.isSome

/-- The header (R54, R87). -/
def AsmClause.header (c : AsmClause) : Header :=
  { cnt := BitVec.ofNat 4 (c.words.length - 1), ecls := BitVec.ofNat 3 (c.cls.getD 1),
    wait := BitVec.ofNat 12 (c.wait.foldl (fun m k => m ||| pow2 k) 0),
    fav := c.fa.isSome, fa := BitVec.ofNat 4 (c.fa.getD 0), fbv := c.fb.isSome, fb := BitVec.ofNat 4 (c.fb.getD 0),
    reg := c.region, y := c.y, swp := c.swap, res := 0 }

/-! ## `.clause` (R89) -/

/-- The names of a list `=(Ka, Kb, …)`. -/
def flagList (t : Txt) : Except AsmErr (List Nat) :=
  match trimL t with
  | '=' :: r =>
    match trimL r, (trim r).getLast? with
    | '(' :: cs, some ')' =>
      allOk (fun x => match regOf x with
        | some (.k, n) => .ok n
        | _ => .error .clause) (argsOf (trim cs).dropLast)
    | _, _ => .error .clause
  | _ => .error .clause

/-- The clause that the arguments of `.clause` open; each argument at most once. -/
def clauseArgs (used : List Txt) (c : AsmClause) : List Txt → Except AsmErr AsmClause
  | [] => .ok c
  | a :: as =>
    let (w, r) := takeRun nameRest (lower a)
    if used.contains w then .error .clause
    else
      let next (c : AsmClause) : Except AsmErr AsmClause := clauseArgs (w :: used) c as
      if w == "wait".toList then
        match flagList r with
        | .ok ks => if ks.isEmpty then .error .clause else next { c with wait := ks }
        | .error e => .error e
      else if w == "set".toList then
        match flagList r with
        | .ok [k0] => next { c with fa := some k0 }
        | .ok [k0, k1] => next { c with fa := some k0, fb := some k1 }
        | .ok _ => .error .clause
        | .error e => .error e
      else if !r.isEmpty then .error .clause
      else if w == "y".toList then next { c with y := true }
      else if w == "region".toList then next { c with region := true }
      else if w == "swap".toList then next { c with swap := true }
      else .error .clause

/-! ## The words of a clause -/

/-- One word of the object: its offset, its value, and the line it comes from. -/
structure AsmLine where
  off : Nat
  word : Word
  pos : AsmPos
  warns : List AsmWarn := []
  deriving DecidableEq, Repr

/-- A diagnostic: what is wrong, and where. -/
structure AsmDiag where
  err : AsmErr
  file : Txt
  line : Nat
  deriving DecidableEq, Repr

/-- An error at a statement. -/
def AsmPos.fail {α : Type} (p : AsmPos) (e : AsmErr) : Except AsmDiag α := .error { err := e, file := p.file, line := p.line }

/-- A result at a statement. -/
def AsmPos.at {α : Type} (p : AsmPos) : Except AsmErr α → Except AsmDiag α
  | .ok x => .ok x
  | .error e => p.fail e

/-- The words of a clause from word `k` on, at offset `off` of the code section (R82, R84); `.co` without a vector
word after it draws a warning (R89). -/
def clauseWords (look : Txt → Option AsmVal) (headers : List Nat) (c : AsmClause) (off k : Nat) :
    List AsmWord → Except AsmDiag (List AsmLine)
  | [] => .ok []
  | w :: ws =>
    let here := off + 8 + 8 * k
    match w.ins.encode { look := look, addr := here, headers := headers } (c.fsel w.ins),
        clauseWords look headers c off (k + 1) ws with
    | .error e, _ => w.pos.fail e
    | .ok _, .error d => .error d
    | .ok (x, inex), .ok rest =>
      let lonely := w.ins.sfx.contains "co".toList &&
        !(match ws with
          | n :: _ => isVectorOp n.ins.opc
          | [] => false)
      .ok ({ off := here, word := x, pos := w.pos,
             warns := (if inex then [.inexact] else []) ++ (if lonely then [.coIssue] else []) } :: rest)

/-- Is a word a BRA, JMP or UBRA with a negative OFF (R54)? -/
def isBackward (x : Word) : Bool :=
  match decodeFields x with
  | some (.bra w) => w.off.msb
  | some (.jmp w) => w.off.msb
  | some (.ubra w) => w.off.msb
  | _ => false

/-- A clause's header and words (R53, R54); `y` without a backward branch at the end draws a warning (R89). -/
def AsmClause.lines (c : AsmClause) (look : Txt → Option AsmVal) (headers : List Nat) (off : Nat) :
    Except AsmDiag (List AsmLine) :=
  match clauseWords look headers c off 0 c.words with
  | .error d => .error d
  | .ok ws =>
    let back := match ws.getLast? with
      | some l => isBackward l.word
      | none => false
    .ok ({ off := off, word := encodeHeader c.header, pos := c.pos,
           warns := if c.y && !back then [.straggler] else [] } :: ws)

end Sys2Proof.Machine
end

