-- ==== Sys2Proof/Machine/AsmUnit.lean ====
section
/-!
DEFINITION. Source files, expansions and sections (R80, R81, R90 to R93): from the lines of the files to the kernels,
their clauses and the data of an assembly.
-/
namespace Sys2Proof.Machine

/-! ## Lines (R80) -/

/-- One line of a source file, or of an expansion. -/
structure SrcLine where
  file : Txt
  line : Nat
  expanded : Bool := false
  text : Txt
  deriving DecidableEq, Repr

def SrcLine.pos (l : SrcLine) : AsmPos := { file := l.file, line := l.line, expanded := l.expanded, text := l.text }

/-- The label of a line, of the characters that satisfy `p`, and its statement without the comment. -/
def partsBy (p : Char → Bool) (t : Txt) : Option Txt × Txt :=
  let u := trim (t.takeWhile (· != ';'))
  let (w, r) := takeRun p u
  match r with
  | ':' :: rest => if w.isEmpty then (none, u) else (some w, trim rest)
  | _ => (none, u)

/-- The label of a line, and its statement without the comment. -/
def lineParts (t : Txt) : Option Txt × Txt := partsBy nameRest t

/-- The same of a body's line, in whose label parameters and `$#` may stand (R93). -/
def bodyParts (t : Txt) : Option Txt × Txt := partsBy (fun c => nameRest c || c == '$' || c == '#') t

/-- The first word of a statement and the rest. -/
def headWord (t : Txt) : Txt × Txt :=
  let (w, r) := takeRun (fun c => !isSpace c) t
  (w, trim r)

/-- The directives, without their dot. -/
def directiveNames : List String :=
  ["kernel", "kend", "team", "cluster", "corestore", "tiles", "frame", "handler", "data", "const", "align", "byte",
   "half", "word", "dword", "f16", "f32", "sym", "mac" ++ "ro", "endm", "include", "clause"]

/-- Does a name spell a mnemonic, a directive, a special register or a register (R81; a directive's name is read
without its dot: DEDUCED, log 59)? -/
def reservedName (t : Txt) : Bool :=
  (named asmForms t).isSome || directiveNames.any (fun d => d.toList == lower t) ||
    (named specialNames t).isSome || (regOf t).isSome

/-- A name that a source may define (R81). -/
def freeName (t : Txt) : Bool := isName t && !reservedName t

/-! ## Files and expansions (R92, R93) -/

/-- A source file: its path and its lines. -/
structure SrcFile where
  path : String
  lines : List String
  deriving DecidableEq, Repr

/-- A definition between `.macro` and `.endm`: its name, its parameters and its lines. -/
structure Expansion where
  name : Txt
  params : List Txt
  body : List SrcLine
  deriving DecidableEq, Repr

/-- What has been read: the definitions, the one being made, the count of invocations, and the lines to assemble. -/
structure Reading where
  defs : List Expansion := []
  making : Option Expansion := none
  count : Nat := 0
  out : List SrcLine := []
  deriving DecidableEq, Repr

/-- The parts of a path. -/
def splitPath (cur : Txt) : Txt → List Txt
  | [] => [cur.reverse]
  | c :: cs => if c == '/' then cur.reverse :: splitPath [] cs else splitPath (c :: cur) cs

/-- A path without `.` and `..` parts. -/
def cleanPath (acc : List Txt) : List Txt → List Txt
  | [] => acc.reverse
  | p :: ps =>
    if p == ['.'] then cleanPath acc ps
    else if p == ['.', '.'] && !acc.isEmpty then cleanPath acc.tail ps
    else cleanPath (p :: acc) ps

/-- A path relative to the file that includes it (R92). -/
def includePath (file path : Txt) : Txt :=
  ['/'].intercalate (cleanPath [] ((splitPath [] file).dropLast ++ splitPath [] path))

/-- The text between quotes. -/
def quoted (t : Txt) : Option Txt :=
  match t with
  | '"' :: cs => if cs.getLast? == some '"' then some cs.dropLast else none
  | _ => none

/-- The text of a parameter or of `$#`. -/
def paramText (m : Expansion) (args : List Txt) (count : Nat) (t : Txt) : Option (Txt × Txt) :=
  match t with
  | '#' :: r => some ((toString count).toList, r)
  | _ =>
    let (w, r) := takeRun nameRest t
    match (m.params.zip args).find? (fun p => p.1 == w) with
    | some (_, a) => some (a, r)
    | none => none

/-- A text with its parameters replaced (R93); every step takes one character of `fuel`. A `$` that no parameter's
name and no `#` follows is an error (DEDUCED, log 59). -/
def substitute (fuel : Nat) (m : Expansion) (args : List Txt) (count : Nat) (t : Txt) : Except AsmErr Txt :=
  match fuel, t with
  | _, [] => .ok []
  | 0, _ => .error .expansion
  | fuel + 1, '$' :: cs =>
    match paramText m args count cs with
    | some (a, r) => (substitute fuel m args count r).map (a ++ ·)
    | none => .error .expansion
  | fuel + 1, c :: cs => (substitute fuel m args count cs).map (c :: ·)

/-- A body line with its parameters replaced, but for its comment, which stays as it is (R80, R93). -/
def substituteLine (m : Expansion) (args : List Txt) (count : Nat) (t : Txt) : Except AsmErr Txt :=
  let (stmt, comment) := takeRun (· != ';') t
  (substitute (stmt.length + 1) m args count stmt).map (· ++ comment)

/-- The definition that `.macro name p1, …` begins: at most 16 parameters, a new name that no mnemonic or directive
spells (R92, R93). A name that spells a register or a special register is refused too, as R81 refuses it of every name
(DEDUCED, log 59). -/
def beginExpansion (defs : List Expansion) (rest : Txt) : Except AsmErr Expansion :=
  let (nm, ps) := headWord rest
  let params := argsOf ps
  if !freeName nm || defs.any (fun d => d.name == nm) || 16 < params.length || !params.all isName then .error .expansion
  else .ok { name := nm, params := params, body := [] }

/-- What a line is to the reader of files. -/
inductive LineKind where
  | define (rest : Txt)
  | endDefine
  | include (path : Txt)
  | invoke (name args : Txt)
  | plain
  deriving DecidableEq, Repr

/-- The kind of a line's statement. -/
def lineKind (defs : List Expansion) (stmt : Txt) : LineKind :=
  let (w, rest) := headWord stmt
  if lower w == '.' :: ("mac" ++ "ro").toList then .define rest
  else if lower w == ".endm".toList then .endDefine
  else if lower w == ".include".toList then .include rest
  else if defs.any (fun d => d.name == w) then .invoke w rest
  else .plain

/-- Reads the lines of a file or of an expansion, with at most `fuel` levels of both below it. `stack` holds the
files being read, the innermost first, and `depth` the expansions being read. A `.macro` in a body is refused when the body
is read, and one that an argument brings in when the body is expanded. The outermost invocation is the first of the 16
levels of R93, `$#` counts the invocation that is being expanded too, the eight levels of R92 are files below the main one,
and a label on the line of an `.endm` names nothing (DEDUCED, log 59). -/
def readLines (files : List SrcFile) (fuel : Nat) (stack : List Txt) (depth : Nat) (r : Reading) (lines : List SrcLine) :
    Except AsmDiag Reading :=
  match fuel with
  | 0 =>
    match lines with
    | [] => .ok r
    | l :: _ => l.pos.fail .expansion
  | fuel + 1 =>
    lines.foldl (fun acc l =>
      match acc with
      | .error d => .error d
      | .ok r =>
        if 1024 < l.text.length && !l.expanded then l.pos.fail .line
        else
          let (label, stmt) := if r.making.isSome then bodyParts l.text else lineParts l.text
          let labelled : Reading :=
            match label with
            | some n => { r with out := r.out ++ [{ l with text := n ++ [':'] }] }
            | none => r
          match r.making, lineKind r.defs stmt with
          | some _, .define _ => l.pos.fail .expansion
          | some m, .endDefine => .ok { r with defs := r.defs ++ [m], making := none }
          | some m, _ => .ok { r with making := some { m with body := m.body ++ [l] } }
          | none, .endDefine => l.pos.fail .expansion
          | none, .define rest =>
            match (if l.expanded then .error .expansion else beginExpansion r.defs rest) with
            | .ok m => .ok { labelled with making := some m }
            | .error e => l.pos.fail e
          | none, .include rest =>
            match quoted rest with
            | none => l.pos.fail .directive
            | some p =>
              let path := includePath (stack.headD []) p
              match files.find? (fun f => f.path.toList == path) with
              | none => l.pos.fail .file
              | some f =>
                if 8 < stack.length || stack.contains path then l.pos.fail .file
                else readLines files fuel (path :: stack) depth labelled
                  (f.lines.zipIdx.map (fun p => { file := path, line := p.2 + 1, text := p.1.toList }))
          | none, .invoke n rest =>
            match r.defs.find? (fun d => d.name == n) with
            | none => l.pos.fail .expansion
            | some m =>
              let args := argsOf rest
              if args.length ≠ m.params.length || 16 ≤ depth then l.pos.fail .expansion
              else
                match allOk (fun (b : SrcLine) =>
                    (substituteLine m args (labelled.count + 1) b.text).map
                      (fun t => { l with text := t, expanded := true })) m.body with
                | .error e => l.pos.fail e
                | .ok body => readLines files fuel stack (depth + 1) { labelled with count := labelled.count + 1 } body
          | none, .plain => .ok { r with out := r.out ++ [l] }) (.ok r)

/-! ## What an assembly holds -/

/-- A data item: its offset in its section and what it writes. -/
inductive DataWhat where
  /-- `.byte` to `.dword`: a value of `n` bytes. -/
  | int (n : Nat) (e : AsmExpr)
  /-- `.f16`, `.f32`. -/
  | flt (f : Fmt) (x : FloatLit)
  /-- Zero bytes of `.align`. -/
  | pad (n : Nat)
  deriving DecidableEq, Repr

structure DataItem where
  off : Nat
  pos : AsmPos
  what : DataWhat
  deriving DecidableEq, Repr

/-- How many bytes an item takes. -/
def DataWhat.size : DataWhat → Nat
  | .int n _ => n
  | .flt f _ => f.width / 8
  | .pad n => n

/-- A kernel as it is read: its directives with their arguments, its clauses with their offsets, its labels, and its
const section. -/
structure AsmKernel where
  name : Txt
  pos : AsmPos
  dirs : List (Txt × List Txt × AsmPos) := []
  clauses : List (Nat × AsmClause) := []
  /-- Bytes of code that closed clauses take. -/
  code : Nat := 0
  cur : Option AsmClause := none
  /-- The line of a label that waits for its clause. -/
  mark : Option AsmPos := none
  labels : List (Txt × AsmVal × AsmPos) := []
  constOpen : Bool := false
  const : List DataItem := []
  constSize : Nat := 0
  deriving DecidableEq, Repr

/-- An assembly as it is read. -/
structure AsmUnit where
  /-- Names of whole-assembly scope (R81). -/
  globals : List (Txt × AsmVal) := []
  kernels : List AsmKernel := []
  cur : Option AsmKernel := none
  dataOpen : Bool := false
  data : List DataItem := []
  dataSize : Nat := 0
  /-- Largest `.align` of the data section, at least 8 (R95). -/
  dataAlign : Nat := 8
  deriving DecidableEq, Repr

/-- The value of a name inside a kernel: its own labels, then the names of whole-assembly scope. -/
def lookIn (globals : List (Txt × AsmVal)) (k : Option AsmKernel) (n : Txt) : Option AsmVal :=
  match (k.bind (fun k => k.labels.find? (fun p => p.1 == n))).map (fun p => p.2.1) with
  | some v => some v
  | none => (globals.find? (fun p => p.1 == n)).map (·.2)

/-! ## Clauses of a kernel -/

/-- Closes the open clause; an explicit one without words is an error (R89). -/
def AsmKernel.close (k : AsmKernel) : Except AsmErr AsmKernel :=
  match k.cur with
  | none => .ok k
  | some c =>
    if c.words.isEmpty then .error .clause
    else .ok { k with clauses := k.clauses ++ [(k.code, c)], code := k.code + c.bytes, cur := none, mark := none }

/-- Places an instruction: in the open clause, or in a new one that it opens (R87, R89). -/
def AsmKernel.place (k : AsmKernel) (w : AsmWord) : Except AsmErr AsmKernel :=
  let fresh : AsmClause := { pos := k.mark.getD w.pos }
  match k.cur with
  | none => .ok { k with cur := some (fresh.push w) }
  | some c =>
    if c.explicit && !c.ended then (c.takes w.ins).map (fun _ => { k with cur := some (c.push w) })
    else if c.explicit || c.closes w.ins then
      (k.close).map (fun k => { k with cur := some ({ fresh with pos := w.pos }.push w) })
    else .ok { k with cur := some (c.push w) }

/-- Places a label: it closes the open clause unless that is an explicit one still without words (R87, R89). -/
def AsmKernel.label (k : AsmKernel) (n : Txt) (p : AsmPos) : Except AsmErr AsmKernel :=
  if k.labels.any (fun l => l.1 == n) then .error .redefined
  else if k.constOpen then .ok { k with labels := k.labels ++ [(n, { n := k.constSize, lab := some .const }, p)] }
  else
    let open' := match k.cur with
      | some c => c.explicit && c.words.isEmpty
      | none => false
    (if open' then .ok k else (k.close).map (fun k => { k with mark := some (k.mark.getD p) })).map
      (fun k => { k with labels := k.labels ++ [(n, { n := k.code, lab := some .code }, p)] })

/-- A clause of NOPs: the padding of `.align` in code (R92). -/
def nopClause (p : AsmPos) (n : Nat) : AsmClause :=
  let nop : AsmWord := { pos := p, ins := { forms := form0 0x009 [], sfx := [], ops := [] } }
  { pos := p, words := List.replicate n nop }

/-- Clauses of 16 bytes, and one of 24 first where 8 bytes remain, that fill `need` bytes (R92; the order is a DESIGN
CHOICE, log 58). -/
def padClauses (p : AsmPos) (need : Nat) : List AsmClause :=
  let odd := need % 16 == 8
  (if odd then [nopClause p 2] else []) ++
    List.replicate ((need - (if odd then 24 else 0)) / 16) (nopClause p 1)

/-- Appends closed clauses. -/
def AsmKernel.append (k : AsmKernel) : List AsmClause → AsmKernel
  | [] => k
  | c :: cs => AsmKernel.append { k with clauses := k.clauses ++ [(k.code, c)], code := k.code + c.bytes } cs

/-- Bytes to the next multiple of `n`. -/
def padTo (off n : Nat) : Nat := (n - off % n) % n

/-- `.align n` in code: a need of 8 bytes is met with 8 + n (R92). -/
def AsmKernel.align (k : AsmKernel) (p : AsmPos) (n : Nat) : Except AsmErr AsmKernel :=
  match k.close with
  | .error e => .error e
  | .ok k =>
    let need := padTo k.code n
    .ok { k.append (padClauses p (if need = 8 then 8 + n else need)) with mark := none }

/-! ## Statements -/

/-- The kernel directives (R91). -/
def kernelDirectives : List String := ["team", "cluster", "corestore", "tiles", "frame", "handler"]

/-- `.align`'s argument: a power of two, 8 to 4,096 (R92). It is evaluated where it stands. -/
def alignArg (look : Txt → Option AsmVal) (args : List Txt) : Except AsmErr Nat :=
  match args with
  | [a] =>
    match (exprOf a).bind (fun e => e.within look 8 4096) with
    | .ok n => if (List.range 10).any (fun k => pow2 (k + 3) == n.toNat) then .ok n.toNat else .error .directive
    | .error e => .error e
  | _ => .error .directive

/-- The items of a data directive, from `off` on (R92). -/
def dataItems (p : AsmPos) (mk : Txt → Except AsmErr DataWhat) (off : Nat) : List Txt → Except AsmErr (List DataItem)
  | [] => .ok []
  | a :: as =>
    match mk a with
    | .error e => .error e
    | .ok w => (dataItems p mk (off + w.size) as).map ({ off := off, pos := p, what := w } :: ·)

/-- What a data directive makes of one argument. -/
def dataMaker (d : Txt) : Option (Txt → Except AsmErr DataWhat) :=
  let int (n : Nat) : Txt → Except AsmErr DataWhat := fun a => (exprOf a).map (.int n)
  let flt (f : Fmt) : Txt → Except AsmErr DataWhat := fun a =>
    match floatLit a with
    | some x => .ok (.flt f x)
    | none => .error .expression
  if d == "byte".toList then some (int 1)
  else if d == "half".toList then some (int 2)
  else if d == "word".toList then some (int 4)
  else if d == "dword".toList then some (int 8)
  else if d == "f16".toList then some (flt fmtF16)
  else if d == "f32".toList then some (flt fmtF32)
  else none

/-- Bytes that items take. -/
def itemsSize (xs : List DataItem) : Nat := xs.foldl (fun n x => n + x.what.size) 0

/-- Adds items to the open data or const section; in code or outside both they are errors (R90, R92). -/
def AsmUnit.items (u : AsmUnit) (mk : Nat → Except AsmErr (List DataItem)) : Except AsmErr AsmUnit :=
  match u.cur with
  | some k =>
    if k.constOpen then
      (mk k.constSize).map (fun xs =>
        { u with cur := some { k with const := k.const ++ xs, constSize := k.constSize + itemsSize xs } })
    else .error .placement
  | none =>
    if u.dataOpen then
      (mk u.dataSize).map (fun xs => { u with data := u.data ++ xs, dataSize := u.dataSize + itemsSize xs })
    else .error .placement

/-- `.sym name, expr` (R92): the value is taken at once, so a forward reference has none. -/
def AsmUnit.sym (u : AsmUnit) (args : List Txt) : Except AsmErr AsmUnit :=
  match args with
  | [n, e] =>
    if !freeName n then .error .name
    else if (lookIn u.globals u.cur n).isSome then .error .redefined
    else
      match (exprOf e).bind (fun x => x.int (lookIn u.globals u.cur)) with
      | .ok v => .ok { u with globals := u.globals ++ [(n, { n := v })] }
      | .error e => .error e
  | _ => .error .directive

/-- A directive (R89 to R92). -/
def AsmUnit.directive (u : AsmUnit) (p : AsmPos) (d : Txt) (rest : Txt) : Except AsmErr AsmUnit :=
  let args := argsOf rest
  let bare (x : Except AsmErr AsmUnit) : Except AsmErr AsmUnit := if args.isEmpty then x else .error .directive
  if d == "kernel".toList then
    match u.cur, args with
    | none, [n] =>
      if !freeName n then .error .name
      else if u.kernels.any (fun k => k.name == n) then .error .redefined
      else .ok { u with cur := some { name := n, pos := p }, dataOpen := false }
    | some _, _ => .error .placement
    | none, _ => .error .directive
  else if d == "kend".toList then
    bare (match u.cur with
      | none => .error .placement
      | some k => (k.close).bind (fun k =>
          if k.clauses.isEmpty then .error .placement else .ok { u with kernels := u.kernels ++ [k], cur := none }))
  else if kernelDirectives.any (fun n => n.toList == d) then
    match u.cur with
    | none => .error .placement
    | some k =>
      if k.constOpen || k.cur.any (fun c => !c.words.isEmpty) || !k.clauses.isEmpty || k.dirs.any (fun x => x.1 == d) then .error .directive
      else .ok { u with cur := some { k with dirs := k.dirs ++ [(d, args, p)] } }
  else if d == "clause".toList then
    match u.cur with
    | none => .error .placement
    | some k =>
      if k.constOpen then .error .placement
      else
        (k.close).bind (fun k =>
          (clauseArgs [] { pos := k.mark.getD p, explicit := true } args).map (fun c => { u with cur := some { k with cur := some c } }))
  else if d == "const".toList then
    bare (match u.cur with
      | none => .error .placement
      | some k => if k.constOpen then .error .placement
        else (k.close).map (fun k => { u with cur := some { k with constOpen := true } }))
  else if d == "data".toList then
    bare (if u.cur.isSome then .error .placement else .ok { u with dataOpen := true })
  else if d == "align".toList then
    match alignArg (lookIn u.globals u.cur) args, u.cur with
    | .error e, _ => .error e
    | .ok n, some k =>
      if k.constOpen then u.items (fun off => .ok [{ off := off, pos := p, what := .pad (padTo off n) }])
      else (k.align p n).map (fun k => { u with cur := some k })
    | .ok n, none =>
      (u.items (fun off => .ok [{ off := off, pos := p, what := .pad (padTo off n) }])).map
        (fun u => { u with dataAlign := max u.dataAlign n })
  else if d == "sym".toList then u.sym args
  else
    match dataMaker d with
    | some maker => if args.isEmpty then .error .directive else u.items (fun off => dataItems p maker off args)
    | none => .error .statement

/-- A label (R81, R90). -/
def AsmUnit.label (u : AsmUnit) (n : Txt) (p : AsmPos) : Except AsmErr AsmUnit :=
  if !freeName n then .error .name
  else if (u.globals.any (fun g => g.1 == n)) then .error .redefined
  else
    match u.cur with
    | some k => (k.label n p).map (fun k => { u with cur := some k })
    | none =>
      if u.dataOpen then .ok { u with globals := u.globals ++ [(n, { n := u.dataSize, lab := some .data })] }
      else .error .placement

/-- An instruction (R82, R90): a kernel's code alone may hold it. -/
def AsmUnit.instruction (u : AsmUnit) (p : AsmPos) (t : Txt) : Except AsmErr AsmUnit :=
  match insOf t with
  | .error e => .error e
  | .ok i =>
    match u.cur with
    | none => .error .placement
    | some k => if k.constOpen then .error .placement else (k.place { pos := p, ins := i }).map (fun k => { u with cur := some k })

/-- One line: label, then statement. -/
def AsmUnit.line (u : AsmUnit) (l : SrcLine) : Except AsmDiag AsmUnit :=
  let (label, stmt) := lineParts l.text
  l.pos.at (
    (match label with
      | some n => u.label n l.pos
      | none => .ok u).bind (fun u =>
      match stmt with
      | [] => .ok u
      | '.' :: cs =>
        let (d, rest) := headWord cs
        u.directive l.pos (lower d) rest
      | t => u.instruction l.pos t))

/-- The lines of an assembly in order. -/
def AsmUnit.read (u : AsmUnit) : List SrcLine → Except AsmDiag AsmUnit
  | [] => .ok u
  | l :: ls =>
    match u.line l with
    | .ok u => AsmUnit.read u ls
    | .error d => .error d

/-- The assembly of a main file and of those it includes, before its words are formed. The end of the source must
stand outside a kernel and a definition, and no kernel label may have a name of whole-assembly scope (R81, R90). -/
def readUnit (files : List SrcFile) (main : String) : Except AsmDiag AsmUnit :=
  let path := main.toList
  match files.find? (fun f => f.path == main) with
  | none => .error { err := .file, file := path, line := 0 }
  | some f =>
    let lines := f.lines.zipIdx.map (fun p => ({ file := path, line := p.2 + 1, text := p.1.toList } : SrcLine))
    match readLines files 26 [path] 0 {} lines with
    | .error d => .error d
    | .ok r =>
      let last : Nat := f.lines.length
      if r.making.isSome then .error { err := .expansion, file := path, line := last }
      else
        match AsmUnit.read {} r.out with
        | .error d => .error d
        | .ok u =>
          if u.cur.isSome then .error { err := .placement, file := path, line := last }
          else
            match (u.kernels.flatMap (·.labels)).find? (fun l => u.globals.any (fun g => g.1 == l.1)) with
            | some l => l.2.2.fail .redefined
            | none => .ok u

end Sys2Proof.Machine
end

