-- ==== Sys2Proof/Machine/AsmObject.lean ====
section
/-!
DEFINITION. The images, the emkas object, its relocations, what a loader does with it, and the listing (R15 to R17,
R91, R94 to R97).
-/
namespace Sys2Proof.Machine

/-! ## Data -/

/-- A word that a loader must fill: SECT and kernel index (`none` for the data section), offset, addend (R96). -/
structure AsmReloc where
  kernel : Option Nat
  off : Nat
  addend : Int
  deriving DecidableEq, Repr

/-- The bytes of an item, the relocation of a data label, and whether a float literal was rounded (R86, R92, R97). -/
def DataItem.bytes (look : Txt → Option AsmVal) (kernel : Option Nat) (base : Nat) (x : DataItem) :
    Except AsmErr (List Byte × List AsmReloc × Bool) :=
  match x.what with
  | .pad n => .ok (List.replicate n 0, [], false)
  | .flt f l => (l.encode f).map (fun p => (natLe (f.width / 8) p.1, [], !p.2))
  | .int n e =>
    match e.eval look with
    | .error err => .error err
    | .ok v =>
      if v.lab == some .data then
        if n = 8 && (base + x.off) % 8 = 0 then
          .ok (List.replicate 8 0, [{ kernel := kernel, off := base + x.off, addend := v.n }], false)
        else .error .dataLabel
      else if -(2 ^ (8 * n - 1) : Nat) ≤ v.n && v.n < (2 ^ (8 * n) : Nat) then
        .ok (natLe n (v.n % (2 ^ (8 * n) : Nat)).toNat, [], false)
      else .error .range

/-- The bytes of a section in the making, its relocations, and its listed lines. -/
structure AsmBytes where
  bytes : List Byte := []
  relocs : List AsmReloc := []
  /-- Items that rounded a literal, by offset. -/
  inexact : List Nat := []
  deriving DecidableEq, Repr

/-- A section's bytes: `base` is its offset in the image. -/
def sectionBytes (look : Txt → Option AsmVal) (kernel : Option Nat) (base : Nat) : List DataItem → Except AsmDiag AsmBytes
  | [] => .ok {}
  | x :: xs =>
    match x.bytes look kernel base, sectionBytes look kernel base xs with
    | .error e, _ => x.pos.fail e
    | .ok _, .error d => .error d
    | .ok (bs, rs, inex), .ok r =>
      .ok { bytes := bs ++ r.bytes, relocs := rs ++ r.relocs, inexact := if inex then x.off :: r.inexact else r.inexact }

/-- Zero bytes to a multiple of `n`. -/
def padBytes (n : Nat) (bs : List Byte) : List Byte := bs ++ List.replicate (padTo bs.length n) 0

/-! ## Kernel directives (R91) -/

/-- The values of a directive's arguments, and its place. -/
def AsmKernel.dir (k : AsmKernel) (look : Txt → Option AsmVal) (d : String) : Except AsmDiag (Option (List Int × AsmPos)) :=
  match k.dirs.find? (fun x => x.1 == d.toList) with
  | none => .ok none
  | some (_, args, p) =>
    match allOk (fun a => (exprOf a).bind (fun e => e.int look)) args with
    | .ok vs => .ok (some (vs, p))
    | .error e => p.fail e

/-- The register count that an entry frame takes by default: one more than the highest V register covered, rounded up
to a multiple of 8, at least 8. -/
def defaultFrame (ws : List AsmLine) : Nat :=
  let top := (ws.flatMap (fun l => if isHeader l.word then [] else coveredV l.word)).foldl (fun m v => max m (v + 1)) 0
  max 8 ((top + 7) / 8 * 8)

/-- The fields of R16 that the directives set. -/
structure AsmShape where
  tx : Nat := 32
  ty : Nat := 1
  tz : Nat := 1
  cw : Nat := 1
  ch : Nat := 1
  csl : Nat := 0
  tiles : Nat := 0
  frame : Nat := 8
  homek : Nat := 0
  handler : Option Nat := none
  deriving DecidableEq, Repr

/-- `.team`: 1 to 3 sides of 1 to 1,024, at most 1,024 lanes (R10). -/
def shapeTeam (s : AsmShape) : Option (List Int × AsmPos) → Except AsmDiag AsmShape
  | none => .ok s
  | some (vs, p) =>
    let sides := vs.map Int.toNat
    if vs.isEmpty || 3 < vs.length || !vs.all (fun v => 1 ≤ v && v ≤ 1024) || 1024 < sides.foldl (· * ·) 1 then p.fail .directive
    else .ok { s with tx := sides.getD 0 1, ty := sides.getD 1 1, tz := sides.getD 2 1 }

/-- `.cluster w, h` (R9). -/
def shapeCluster (s : AsmShape) : Option (List Int × AsmPos) → Except AsmDiag AsmShape
  | none => .ok s
  | some ([w, h], p) =>
    if 1 ≤ w && w ≤ 4 && 1 ≤ h && h ≤ 4 && w * h ≤ 12 then .ok { s with cw := w.toNat, ch := h.toNat } else p.fail .directive
  | some (_, p) => p.fail .directive

/-- `.corestore bytes`. -/
def shapeStore (s : AsmShape) : Option (List Int × AsmPos) → Except AsmDiag AsmShape
  | none => .ok s
  | some ([n], p) => if 0 ≤ n && n ≤ 327680 then .ok { s with csl := (n.toNat + 63) / 64 } else p.fail .directive
  | some (_, p) => p.fail .directive

/-- `.tiles n`. -/
def shapeTiles (s : AsmShape) : Option (List Int × AsmPos) → Except AsmDiag AsmShape
  | none => .ok s
  | some ([n], p) => if 0 ≤ n && n ≤ 8 then .ok { s with tiles := n.toNat } else p.fail .directive
  | some (_, p) => p.fail .directive

/-- `.frame d, homek`: homek 0, or 32 to 4,096 and a multiple of 32 (R16). -/
def shapeFrame (s : AsmShape) (dflt : Nat) : Option (List Int × AsmPos) → Except AsmDiag AsmShape
  | none => .ok { s with frame := dflt }
  | some (d :: rest, p) =>
    let hk := rest.getD 0 0
    if 8 ≤ d && d ≤ 192 && d % 8 = 0 && rest.length ≤ 1 && (hk = 0 || (32 ≤ hk && hk ≤ 4096 && hk % 32 = 0)) then
      .ok { s with frame := d.toNat, homek := hk.toNat }
    else p.fail .directive
  | some ([], p) => p.fail .directive

/-- `.handler label`: a code label of this kernel, at a header (R71). -/
def AsmKernel.handler (k : AsmKernel) : Except AsmDiag (Option Nat) :=
  match k.dirs.find? (fun x => x.1 == "handler".toList) with
  | none => .ok none
  | some (_, [a], p) =>
    match k.labels.find? (fun l => l.1 == a && l.2.1.lab == some .code) with
    | some l => if k.clauses.any (fun c => c.1 == l.2.1.n.toNat) then .ok (some l.2.1.n.toNat) else p.fail .directive
    | none => p.fail .directive
  | some (_, _, p) => p.fail .directive

/-- The shape of a kernel; R17 is checked with the values in force. -/
def AsmKernel.shape (k : AsmKernel) (look : Txt → Option AsmVal) (ws : List AsmLine) : Except AsmDiag AsmShape :=
  (k.dir look "team").bind (fun t => (shapeTeam {} t).bind (fun s =>
  (k.dir look "cluster").bind (fun t => (shapeCluster s t).bind (fun s =>
  (k.dir look "corestore").bind (fun t => (shapeStore s t).bind (fun s =>
  (k.dir look "tiles").bind (fun t => (shapeTiles s t).bind (fun s =>
  (k.dir look "frame").bind (fun t => (shapeFrame s (defaultFrame ws) t).bind (fun s =>
  (k.handler).bind (fun h =>
    let groups := (s.tx * s.ty * s.tz + 31) / 32
    if (groups + 3) / 4 * s.frame ≤ 512 then .ok { s with handler := h } else k.pos.fail .placeable)))))))))))

/-! ## Images (R15, R16) -/

/-- A kernel's image: its name, its eight header words, its code, its const section and what the loader must fill. -/
structure AsmImage where
  name : Txt
  pos : AsmPos
  shape : AsmShape
  code : List AsmLine
  /-- Automatic or explicit, by the offset of the header. -/
  clauses : List (Nat × AsmClause)
  const : AsmBytes
  constItems : List DataItem
  deriving DecidableEq, Repr

/-- Bytes of code. -/
def AsmImage.codeSize (i : AsmImage) : Nat := 8 * i.code.length

/-- Bytes of the const section: a multiple of 8. -/
def AsmImage.constSize (i : AsmImage) : Nat := i.const.bytes.length + padTo i.const.bytes.length 8

/-- Offset of the const section: the first multiple of 64 after the code; 0 for none. -/
def constOffset (code const : Nat) : Nat := if const = 0 then 0 else (64 + code + 63) / 64 * 64

/-- The kernel header (R16). -/
def AsmImage.header (i : AsmImage) : List Word :=
  let s := i.shape
  let w (hi lo : Nat) : Word := BitVec.ofNat 64 (hi * pow2 32 + lo)
  [ BitVec.ofNat 64 (0xAE09 * pow2 48 + 0x01 * pow2 40),
    w i.codeSize 0x40,
    w s.tz (s.ty * pow2 16 + s.tx),
    w s.frame (s.tiles * pow2 28 + s.ch * pow2 20 + s.cw * pow2 16 + s.csl),
    w 0 (s.handler.getD 0),
    w (if s.handler.isSome then 1 else 0) (s.homek * pow2 16),
    w i.constSize (constOffset i.codeSize i.constSize),
    0 ]

/-- The bytes of an image: header, code at 0x40, const section (R15). -/
def AsmImage.bytes (i : AsmImage) : List Byte :=
  let front := (i.header ++ i.code.map (·.word)).flatMap bytesOfWord
  if i.constSize = 0 then front else padBytes 64 front ++ padBytes 8 i.const.bytes

/-- The words of a kernel's code with their warnings; a range of open length draws one where `.frame` is absent (R91). -/
def kernelLines (look : Txt → Option AsmVal) (headers : List Nat) (warnOpen : Bool) :
    List (Nat × AsmClause) → Except AsmDiag (List AsmLine)
  | [] => .ok []
  | (off, c) :: cs =>
    match c.lines look headers off, kernelLines look headers warnOpen cs with
    | .error d, _ => .error d
    | .ok _, .error d => .error d
    | .ok a, .ok b =>
      let note (l : AsmLine) : AsmLine :=
        if warnOpen && !isHeader l.word && openRange (bitsAt l.word 54 10) then { l with warns := l.warns ++ [.openRange] } else l
      .ok (a.map note ++ b)

/-- The image of a kernel, the `idx`-th of its assembly. -/
def AsmKernel.image (k : AsmKernel) (globals : List (Txt × AsmVal)) (idx : Nat) : Except AsmDiag AsmImage :=
  let look := lookIn globals (some k)
  match kernelLines look (k.clauses.map (·.1)) (!k.dirs.any (fun d => d.1 == "frame".toList)) k.clauses with
  | .error d => .error d
  | .ok code =>
    match k.shape look code, sectionBytes look (some idx) (constOffset (8 * code.length) k.constSize) k.const with
    | .error d, _ => .error d
    | .ok _, .error d => .error d
    | .ok s, .ok b =>
      .ok { name := k.name, pos := k.pos, shape := s, code := code, clauses := k.clauses, const := b, constItems := k.const }

/-! ## The object (R95, R96) -/

/-- An emkas object: its kernels, its data section, and what a loader must fill. -/
structure AsmObject where
  kernels : List (Txt × List Byte)
  data : List Byte
  dataAlign : Nat
  relocs : List AsmReloc
  deriving DecidableEq, Repr

/-- The offset after `n` bytes, at a multiple of `m`. -/
def roundTo (n m : Nat) : Nat := n + padTo n m

/-- The images one after another from `off` on, each at a multiple of 64: their offsets. -/
def imageOffsets (off : Nat) : List (Txt × List Byte) → List Nat
  | [] => []
  | k :: ks => roundTo off 64 :: imageOffsets (roundTo off 64 + k.2.length) ks

/-- A name and a zero byte. -/
def nameBytes (t : Txt) : List Byte := t.map (fun c => BitVec.ofNat 8 c.toNat) ++ [0]

/-- The offsets of names in the string table. -/
def nameOffsets (off : Nat) : List (Txt × List Byte) → List Nat
  | [] => []
  | k :: ks => off :: nameOffsets (off + k.1.length + 1) ks

/-- A relocation entry (R96); an addend beyond 64 bits is taken modulo 2^64 (DEDUCED, log 59). -/
def AsmReloc.words (r : AsmReloc) : List Word :=
  [ (match r.kernel with
     | none => BitVec.ofNat 64 r.off
     | some k => BitVec.ofNat 64 (1 * pow2 62 + k * pow2 32 + r.off)),
    BitVec.ofInt 64 r.addend ]

/-- The object as a file (R95). Header, kernel table, string table, data section, relocation table and images follow
one another in this order (DESIGN CHOICE, log 58). -/
def AsmObject.bytes (o : AsmObject) : List Byte :=
  let n := o.kernels.length
  let sto := 64 + 32 * n
  let strs := o.kernels.flatMap (fun k => nameBytes k.1)
  let dso := roundTo (sto + strs.length) 64
  let rlo := roundTo (dso + o.data.length) 8
  let imgs := imageOffsets (rlo + 16 * o.relocs.length) o.kernels
  let two (hi lo : Nat) : Word := BitVec.ofNat 64 (hi * pow2 32 + lo)
  let hdr : List Word :=
    [ BitVec.ofNat 64 (0xAE0C * pow2 48 + 0x01 * pow2 40 + n), two 64 sto, two dso o.data.length,
      two rlo o.relocs.length, two 0 o.dataAlign, 0, 0, 0 ]
  let table := ((nameOffsets 0 o.kernels).zip (imgs.zip o.kernels)).flatMap
    (fun p => [two 0 p.1, BitVec.ofNat 64 p.2.1, BitVec.ofNat 64 p.2.2.2.length, (0 : Word)])
  let front := padBytes 64 ((hdr ++ table).flatMap bytesOfWord ++ strs) ++ o.data
  let mid := padBytes 8 front ++ (o.relocs.flatMap AsmReloc.words).flatMap bytesOfWord
  (imgs.zip o.kernels).foldl (fun acc p => padBytes 64 acc ++ p.2.2) mid

/-! ## Loading (R96) -/

/-- Writes a word into bytes at an offset. -/
def setWord (bs : List Byte) (off : Nat) (w : Word) : List Byte :=
  bs.take off ++ bytesOfWord w ++ bs.drop (off + 8)

/-- The bytes of a section or image with its relocations filled: the data section's base plus the addend. -/
def patchWords (dataBase : Nat) (bs : List Byte) (rs : List AsmReloc) : List Byte :=
  rs.foldl (fun bs r => setWord bs r.off (BitVec.ofInt 64 (dataBase + r.addend))) bs

/-- What a loader writes, as .glob addresses and bytes: each image at a 4 KiB-aligned address, the data section at a
DALN-aligned one, every named word filled. `none` where the addresses break that. -/
def AsmObject.load (o : AsmObject) (bases : List Nat) (dataBase : Nat) : Option (List (Nat × List Byte)) :=
  if bases.length = o.kernels.length && bases.all (· % 4096 == 0) && dataBase % o.dataAlign = 0 then
    some ((dataBase, patchWords dataBase o.data (o.relocs.filter (·.kernel.isNone))) ::
      (bases.zip o.kernels.zipIdx).map (fun p =>
        (p.1, patchWords dataBase p.2.1.2 (o.relocs.filter (fun r => r.kernel == some p.2.2)))))
  else none

/-! ## The listing (R94) -/

/-- `d` hex digits in upper case. -/
def hexDigits (x : Nat) : Nat → Txt
  | 0 => []
  | d + 1 => hexDigits (x / 16) d ++ [("0123456789ABCDEF".toList).getD (x % 16) '0']

/-- Eight hex digits with an underscore after the fourth. -/
def hexOffset (x : Nat) : Txt := hexDigits (x / 65536) 4 ++ '_' :: hexDigits x 4

/-- A word as 0x…_…_…_…. -/
def hexWord (w : Word) : Txt :=
  let x := w.toNat
  '0' :: 'x' :: (hexOffset (x / pow2 32) ++ '_' :: hexOffset x)

/-- A number right-aligned in six places. -/
def lineNo (n : Nat) : Txt :=
  let t := (toString n).toList
  List.replicate (6 - t.length) ' ' ++ t

/-- One listed word: offset, word, line number with `+` for an expansion, source text. -/
def listWord (off : Nat) (w : Word) (p : AsmPos) : Txt :=
  hexOffset off ++ "  ".toList ++ hexWord w ++ lineNo p.line ++ (if p.expanded then ['+'] else [' ']) ++ ' ' :: p.text

/-- The classes by name (R54). -/
def className (e : Nat) : String :=
  match e with
  | 0 => "vector"
  | 1 => "uniform-only"
  | 2 => "memory"
  | 3 => "matrix"
  | 4 => "stream and retrieval"
  | 5 => "cellar"
  | _ => "control and system"

/-- A flag by name, or `-`. -/
def flagName : Option Nat → String
  | some n => "K" ++ toString n
  | none => "-"

/-- The names of a wait mask, or `-`. -/
def waitNames (ks : List Nat) : String :=
  if ks.isEmpty then "-" else ",".intercalate (ks.map (fun k => flagName (some k)))

/-- The comment line before a header's line. -/
def clauseComment (idx : Nat) (c : AsmClause) : Txt :=
  ("; clause " ++ toString idx ++ " CNT=" ++ toString (c.words.length - 1) ++ " " ++ className (c.cls.getD 1) ++
    " wait=" ++ waitNames c.wait ++ " A=" ++ flagName c.fa ++ " B=" ++ flagName c.fb ++
    (if c.region then " REG" else "") ++ (if c.y then " Y" else "") ++ (if c.swap then " SWP" else "") ++
    (if c.explicit then " explicit" else " auto")).toList

/-- A warning line. -/
def warnText : AsmWarn → Txt
  | .inexact => "; the literal is rounded".toList
  | .straggler => "; y has no effect".toList
  | .coIssue => "; .co has no effect".toList
  | .openRange => "; a register range of open length: give .frame".toList

/-- The listed lines of a section of bytes at an offset; the bytes of a last word that is not whole are followed by
zeros (DESIGN CHOICE, log 58). -/
def listBytes (base : Nat) (b : AsmBytes) (items : List DataItem) (p : AsmPos) : List Txt :=
  let bs := padBytes 8 b.bytes
  (List.range (bs.length / 8)).flatMap (fun k =>
    let pos := match items.find? (fun x => x.off ≤ 8 * k && 8 * k < x.off + x.what.size) with
      | some x => x.pos
      | none => p
    listWord (base + 8 * k) (wordOfBytes ((bs.drop (8 * k)).take 8)) pos ::
      (b.inexact.filter (fun o => 8 * k ≤ o && o < 8 * k + 8)).map (fun _ => warnText .inexact))

/-- The listing of an image: header words, then code with a comment before each header, then the const section. Which line a
word without a statement of its own gets, and that zero words between the sections are not listed, are the model's (DESIGN
CHOICE, log 58). -/
def AsmImage.listing (i : AsmImage) : List Txt :=
  i.header.zipIdx.map (fun p => listWord (8 * p.2) p.1 i.pos) ++
  i.code.flatMap (fun l =>
    (match i.clauses.zipIdx.find? (fun c => c.1.1 == l.off) with
     | some (c, k) => if isHeader l.word then [clauseComment k c.2] else []
     | none => []) ++
    listWord (64 + l.off) l.word l.pos :: l.warns.map warnText) ++
  listBytes (constOffset i.codeSize i.constSize) i.const i.constItems i.pos

/-! ## The assembler -/

/-- What emkas makes of a source without errors. -/
structure Assembly where
  images : List AsmImage
  object : AsmObject
  listing : List Txt
  deriving DecidableEq, Repr

/-- Every kernel's image. -/
def unitImages (globals : List (Txt × AsmVal)) (idx : Nat) : List AsmKernel → Except AsmDiag (List AsmImage)
  | [] => .ok []
  | k :: ks =>
    match k.image globals idx, unitImages globals (idx + 1) ks with
    | .error d, _ => .error d
    | .ok _, .error d => .error d
    | .ok i, .ok is => .ok (i :: is)

/-- Assembles a main file and the files that it includes: the object and the listing, or the first diagnostic and no
object. -/
def assemble (files : List SrcFile) (main : String) : Except AsmDiag Assembly :=
  match readUnit files main with
  | .error d => .error d
  | .ok u =>
    match unitImages u.globals 0 u.kernels, sectionBytes (lookIn u.globals none) none 0 u.data with
    | .error d, _ => .error d
    | .ok _, .error d => .error d
    | .ok images, .ok b =>
      if 65535 < images.length then .error { err := .range, file := main.toList, line := 0 }
      else
        let top : AsmPos := { file := main.toList, line := 0, expanded := false, text := [] }
        .ok { images := images,
              object := { kernels := images.map (fun i => (i.name, i.bytes)), data := b.bytes, dataAlign := u.dataAlign,
                          relocs := b.relocs ++ images.flatMap (fun i => i.const.relocs) },
              listing := images.flatMap AsmImage.listing ++ listBytes 0 b u.data top }

end Sys2Proof.Machine
end

