-- ==== Sys2Proof/Laws/Asm.lean ====
section
/-!
SUPPORT. What the assembler's operations can do: an encoded word decodes (R82), a placed image is aligned (R96), padding
reaches its multiple (R92), a closed clause stands at the end of the code before it (R53).
-/
namespace Sys2Proof.Machine

/-- emkas never gives a word that raises ILLEGAL_ENCODING (R82). -/
theorem AsmIns.encode_decodes {i : AsmIns} {v : AsmEnv} {fsel inex : Bool} {w : Word}
    (h : i.encode v fsel = .ok (w, inex)) : ∃ j, decode w = .ok j := by
  unfold AsmIns.encode at h
  dsimp only at h
  repeat' split at h
  all_goals first
    | contradiction
    | (obtain ⟨rfl, -⟩ := Prod.mk.inj (Except.ok.inj h)
       exact ⟨_, ‹_›⟩)

/-- Padding reaches the next multiple (R92). -/
theorem padTo_spec (off n : Nat) (h : 0 < n) : (off + padTo off n) % n = 0 := by
  unfold padTo
  have hl := Nat.mod_lt off h
  have hd := Nat.div_add_mod off n
  by_cases h0 : off % n = 0
  · simp [h0]
  · rw [Nat.mod_eq_of_lt (a := n - off % n) (by omega)]
    have : off + (n - off % n) = n * (off / n + 1) := by rw [Nat.mul_add]; omega
    rw [this]; exact Nat.mul_mod_right n _

/-- A loader writes images at 4 KiB-aligned addresses and the data section at an aligned one (R96). -/
theorem AsmObject.load_aligned {o : AsmObject} {bases : List Nat} {d : Nat} {ws : List (Nat × List Byte)}
    (h : o.load bases d = some ws) :
    bases.length = o.kernels.length ∧ (∀ b ∈ bases, b % 4096 = 0) ∧ d % o.dataAlign = 0 := by
  unfold AsmObject.load at h
  split at h
  · rename_i hc
    simpa [and_assoc] using hc
  · cases h

/-- A class that a word takes admits it (R87). -/
theorem classOf_admits {opc e : Nat} (h : classOf opc = some e) : admits (BitVec.ofNat 3 e) opc = true := by
  unfold classOf at h
  split at h
  · cases h
  · exact List.find?_some (p := fun e => admits (BitVec.ofNat 3 e) opc) h

/-- A closed clause is listed at the end of the code before it, and the next one starts behind it (R53). -/
theorem AsmKernel.close_code {k k' : AsmKernel} (h : k.close = .ok k') :
    k'.cur = none ∧ (k' = k ∨ ∃ c, k.cur = some c ∧ c.words ≠ [] ∧ k'.clauses = k.clauses ++ [(k.code, c)] ∧
      k'.code = k.code + c.bytes) := by
  unfold AsmKernel.close at h
  split at h
  · rename_i hn
    cases h
    exact ⟨hn, .inl rfl⟩
  · rename_i c hc
    split at h
    · cases h
    · rename_i hw
      cases h
      exact ⟨rfl, .inr ⟨c, hc, by simpa using hw, rfl, rfl⟩⟩

end Sys2Proof.Machine
end

