-- ==== Sys2Proof/Laws/Word.lean ====
section
/-!
SUPPORT. What the start and the end of a word's issue do, said once.
-/
namespace Sys2Proof.Machine

/-! ## Changing one group -/

theorem gid_ite (b : Bool) (f : Group → Group) (hf : ∀ g, (f g).gid = g.gid) (g : Group) :
    (if b = true then f g else g).gid = g.gid := by
  cases b
  · rfl
  · exact hf g

theorem find_map_gid (gs : List Group) (gid : Nat) (f : Group → Group) (hf : ∀ g, (f g).gid = g.gid) :
    (gs.map (fun g => if (g.gid == gid) = true then f g else g)).find? (fun g => g.gid == gid) =
      (gs.find? (fun g => g.gid == gid)).map f := by
  induction gs with
  | nil => rfl
  | cons g r ih =>
    simp only [List.map_cons, List.find?_cons, gid_ite _ f hf, ih]
    cases h : (g.gid == gid) <;> rfl

/-- A group that has been changed reads as its changed self. -/
theorem group_modGroup (m : Mach) (gid : Nat) (f : Group → Group) (hf : ∀ g, (f g).gid = g.gid) :
    (m.modGroup gid f).group? gid = (m.group? gid).map f :=
  find_map_gid m.ctx.groups gid f hf

/-- Another group reads as before. -/
theorem group_modGroup_of_ne (m : Mach) (gid k : Nat) (f : Group → Group) (hf : ∀ g, (f g).gid = g.gid)
    (hk : k ≠ gid) : (m.modGroup gid f).group? k = m.group? k := by
  unfold Mach.modGroup Mach.group?
  simp only
  induction m.ctx.groups with
  | nil => rfl
  | cons g r ih =>
    simp only [List.map_cons, List.find?_cons, gid_ite _ f hf, ih]
    cases h : (g.gid == k)
    · rfl
    · have : (g.gid == gid) = false := by
        rw [beq_eq_false_iff_ne]; rw [eq_of_beq h]; exact hk
      rw [this]; rfl

/-- Two changes of one group are one change. -/
theorem modGroup_modGroup (m : Mach) (gid : Nat) (f h : Group → Group) (hf : ∀ g, (f g).gid = g.gid) :
    (m.modGroup gid f).modGroup gid h = m.modGroup gid (fun g => h (f g)) := by
  unfold Mach.modGroup
  simp only [List.map_map]
  congr 2
  apply List.map_congr_left
  intro g _
  simp only [Function.comp_apply, gid_ite _ f hf]
  cases hg : (g.gid == gid) <;> rfl

theorem filter_map_gid (gs : List Group) (gid : Nat) (f : Group → Group) (hf : ∀ g, (f g).gid = g.gid) :
    (gs.map (fun g => if (g.gid == gid) = true then f g else g)).filter (fun g => g.gid != gid) =
      gs.filter (fun g => g.gid != gid) := by
  induction gs with
  | nil => rfl
  | cons g r ih =>
    simp only [List.map_cons, List.filter_cons, gid_ite _ f hf, ih]
    cases h : (g.gid == gid) <;> simp [h, bne]

/-- Changing a group changes nothing outside it. -/
theorem besides_modGroup (m : Mach) (gid : Nat) (f : Group → Group) (hf : ∀ g, (f g).gid = g.gid) :
    (m.modGroup gid f).besides gid = m.besides gid := by
  simp only [Mach.besides, Mach.modGroup, filter_map_gid _ _ _ hf]

/-! ## The end of a word -/

/-- A choice between two groups agrees with a third in whatever both agree with it. -/
theorem ite_agree {α : Type} (f : Group → α) (p : Prop) [Decidable p] (x y g : Group) (hx : f x = f g) (hy : f y = f g) :
    f (if p then x else y) = f g := by
  by_cases h : p
  · rw [if_pos h, hx]
  · rw [if_neg h, hy]

theorem setLanes_gid (g : Group) (mask : Mask) (f : Nat → LanePC → LanePC) : (g.setLanes mask f).gid = g.gid := by
  delta Group.setLanes
  with_reducible rfl

theorem setLanes_still (g : Group) (mask : Mask) (f : Nat → LanePC → LanePC) :
    (g.setLanes mask f).still = g.still := by
  delta Group.setLanes Group.still
  with_reducible rfl

theorem lane_setLanes (g : Group) (mask : Mask) (f : Nat → LanePC → LanePC) (l : Nat) (hl : l < 32) :
    (g.setLanes mask f).lane l = if mask.has l then f l (g.lane l) else g.lane l := by
  delta Group.setLanes Group.lane
  simp only [vget, hl, dif_pos, Vector.getElem_ofFn]
  rfl

theorem endClause_gid (cyc : Nat) (g : Group) : (g.endClause cyc).gid = g.gid := by
  delta Group.endClause
  refine ite_agree Group.gid _ _ _ _ ?_ ?_ <;> with_reducible rfl

theorem endClause_lanes (cyc : Nat) (g : Group) : (g.endClause cyc).lanes = g.lanes := by
  delta Group.endClause
  refine ite_agree Group.lanes _ _ _ _ ?_ ?_ <;> with_reducible rfl

theorem endClause_still (cyc : Nat) (g : Group) : (g.endClause cyc).still = g.still := by
  delta Group.endClause
  refine ite_agree Group.still _ _ _ _ ?_ ?_ <;> delta Group.still <;> with_reducible rfl

theorem enterRegion_gid (c : Iss) (opc : Nat) (g : Group) : (g.enterRegion c opc).gid = g.gid := by
  delta Group.enterRegion Group.setLanes
  refine ite_agree Group.gid _ _ _ _ ?_ ?_ <;> with_reducible rfl

theorem enterRegion_still (c : Iss) (opc : Nat) (g : Group) :
    (g.enterRegion c opc).still = g.still := by
  delta Group.enterRegion Group.setLanes
  refine ite_agree Group.still _ _ _ _ ?_ ?_ <;> delta Group.still <;> with_reducible rfl

/-- The end of a word in three parts: the region entry, the step of the run, the rest, which keeps the lanes. -/
theorem finish_parts {α : Type} (f : Group → α) (c : Iss) (opc : Nat) (flow : Flow) (cyc : Nat) (g : Group) (x : α)
    (h0 : ∀ g' : Group, f g' = x → f (g'.endClause cyc) = x)
    (h1 : ∀ g' : Group, f g' = x → ∀ bw cl sc, f { g' with pair := none, barWaits := bw, clause := cl, sched := sc } = x)
    (h2 : ∀ g' : Group, f g' = x → f { g' with serve := none } = x)
    (h : f ((g.enterRegion c opc).stepLanes flow c.header) = x) : f (g.finish c opc flow cyc) = x := by
  delta Group.finish
  dsimp only
  generalize (g.enterRegion c opc).stepLanes flow c.header = g1 at *
  have a := h1 g1 h (g1.barWaits.filter (fun b => !(b.hdr == c.hdr && b.idx == c.idx && b.level == c.g.level)))
    (g1.clause.map (fun cl => { cl with begun := true })) { g1.sched with waitSince := none, raised := false }
  by_cases p : (flow = c.run && c.idx != c.header.cnt.toNat + 1) = true
  · rw [if_pos p]; exact a
  · rw [if_neg p]
    by_cases q : c.g.serve.isSome = true
    · rw [if_pos q]; exact h2 _ (h0 _ a)
    · rw [if_neg q]; exact h0 _ a

theorem finish_gid (c : Iss) (opc : Nat) (flow : Flow) (cyc : Nat) (g : Group) :
    (g.finish c opc flow cyc).gid = g.gid :=
  finish_parts Group.gid c opc flow cyc g g.gid (fun g' e => (endClause_gid cyc g').trans e) (fun _ e _ _ _ => e)
    (fun _ e => e) ((setLanes_gid _ _ _).trans (enterRegion_gid c opc g))

/-- The end of a word changes of its group only what `Group.still` names. -/
theorem finish_still (c : Iss) (opc : Nat) (flow : Flow) (cyc : Nat) (g : Group) :
    (g.finish c opc flow cyc).still = g.still :=
  finish_parts Group.still c opc flow cyc g g.still (fun g' e => (endClause_still cyc g').trans e)
    (fun g' e bw cl sc => by rw [← e]; delta Group.still; with_reducible rfl)
    (fun g' e => by rw [← e]; delta Group.still; with_reducible rfl)
    ((setLanes_still _ _ _).trans (enterRegion_still c opc g))

/-- The PC table after a word. -/
theorem finish_lanes (c : Iss) (opc : Nat) (flow : Flow) (cyc : Nat) (g : Group) :
    (g.finish c opc flow cyc).lanes = ((g.enterRegion c opc).stepLanes flow c.header).lanes :=
  finish_parts Group.lanes c opc flow cyc g _ (fun g' e => (endClause_lanes cyc g').trans e) (fun _ e _ _ _ => e)
    (fun _ e => e) rfl

/-! ## The start of a word -/

/-- What does not depend on the V registers is the same after a read-back. -/
theorem readBack_keeps {α : Type} (f : Group → α) (h : ∀ (g : Group) hm v, f { g with homed := hm, v := v } = f g)
    (dev : Device) (m : Mach) (js : List Nat) (g : Group) : f (g.readBack dev m js) = f g := by
  unfold Group.readBack
  split
  · rfl
  · rename_i hne
    clear hne
    generalize js.map (g.base + ·) = hs
    induction hs generalizing g with
    | nil => rfl
    | cons x r ih =>
      rw [List.foldl_cons, ih]
      split
      · exact h _ _ _
      · rfl

theorem readBack_gid (dev : Device) (m : Mach) (js : List Nat) (g : Group) : (g.readBack dev m js).gid = g.gid :=
  readBack_keeps Group.gid (fun _ _ _ => rfl) dev m js g

theorem readBack_lanes (dev : Device) (m : Mach) (js : List Nat) (g : Group) : (g.readBack dev m js).lanes = g.lanes :=
  readBack_keeps Group.lanes (fun _ _ _ => rfl) dev m js g

theorem readBack_dead (dev : Device) (m : Mach) (js : List Nat) (g : Group) (run : Mask) (t : WordSpec) (w : AnyWord) :
    deadRegs (g.readBack dev m js) run t w = deadRegs g run t w :=
  readBack_keeps (fun g => deadRegs g run t w) (fun _ _ _ => rfl) dev m js g

theorem readBack_guard (dev : Device) (m : Mach) (js : List Nat) (g : Group) (run : Mask) (grd : BitVec 4) (sns : Bool) :
    guardLanes (g.readBack dev m js).asRead run grd sns = guardLanes g.asRead run grd sns :=
  readBack_keeps (fun g => guardLanes g.asRead run grd sns) (fun g hm v => by
    unfold Group.asRead
    dsimp only
    cases g.pair <;> rfl) dev m js g

/-- Everything that `Starts` says: who issues, for which lanes, what the checks have found, that the registers which the
word reads have been read back, and that the machine in which the effect begins is the old one less the registers marked
dead. -/
theorem starts_cases {i : Instr} {s : State} {b : Start} (h : Starts i s b) :
    ∃ g run p cl t w, wordAtIssue s = some (g, run, p, cl) ∧ wordSpec i = some t ∧ parts i = some (b.opc, w) ∧
      checkWord g cl.header p.idx b.opc t w = none ∧ interlocked g t w = false ∧ badRead g i t w = none ∧
      b.g = g.readBack s.dev s.mach (backV i t w) ∧
      b.co = (wordCo w && nextIsVector cl p.idx) ∧ b.c = issueContext s b.g run p cl t b.opc w ∧
      (b.c.lanes = 0 → t.noGuard = true) ∧
      b.m = s.mach.numbered.modGroup g.gid (fun h =>
        (h.readBack s.dev s.mach (backV i t w)).kill (deadRegs g run t w)) := by
  unfold Starts beginWord at h
  split at h
  · rename_i g run p cl t opc w h1 h2 h3
    dsimp only at h
    split at h
    · cases h
    · rename_i h4
      split at h
      · cases h
      by_cases h5 : (interlocked g t w || (wordCo w && nextIsVector cl p.idx) && pairBlocked g cl p.idx) = true
      · rw [if_pos h5] at h; cases h
      · rw [if_neg h5] at h
        by_cases h6 : (decide ((issueContext s g run p cl t opc w).lanes = 0) && !t.noGuard) = true
        · rw [if_pos h6] at h
          by_cases h8 : t.uni = true
          · rw [if_pos h8] at h; cases h
          · rw [if_neg h8] at h; cases h
        · rw [if_neg h6] at h
          split at h
          · cases h
          · rename_i h7
            have h := Begun.go.inj h
            subst h
            refine ⟨g, run, p, cl, t, w, h1, h2, h3, h4, ?_, h7, rfl, rfl, rfl, ?_, rfl⟩
            · simp only [Bool.or_eq_true, not_or, Bool.not_eq_true] at h5
              exact h5.1
            · intro e
              dsimp only [issueContext] at e h6
              rw [readBack_guard] at e
              simpa [e] using h6
  · cases h

theorem kill_gid (g : Group) (dead : List Nat) : (g.kill dead).gid = g.gid := by
  delta Group.kill Group.keepPlaces
  refine ite_agree Group.gid _ _ _ _ ?_ ?_ <;> with_reducible rfl

theorem kill_beside (g : Group) (dead : List Nat) : (g.kill dead).beside = g.beside := by
  delta Group.kill Group.keepPlaces
  refine ite_agree Group.beside _ _ _ _ ?_ ?_ <;> delta Group.beside Group.still <;> with_reducible rfl

theorem kill_lanes (g : Group) (dead : List Nat) : (g.kill dead).lanes = g.lanes := by
  delta Group.kill Group.keepPlaces
  refine ite_agree Group.lanes _ _ _ _ ?_ ?_ <;> with_reducible rfl

theorem numbered_besides (m : Mach) (gid : Nat) : m.numbered.besides gid = m.besides gid := rfl

/-- The group at issue is the group whose turn it is. -/
theorem wordAtIssue_group {s : State} {g : Group} {run : Mask} {p : LanePC} {cl : Clause}
    (h : wordAtIssue s = some (g, run, p, cl)) :
    s.mach.group? s.mach.cur = some g ∧ g.clause = some cl ∧
      (∃ pc, g.nextPc = some pc ∧ run = g.runAt pc) ∧ p = g.lane (firstLane run) := by
  unfold wordAtIssue at h
  cases hg : s.mach.group? s.mach.cur with
  | none => simp [hg] at h
  | some g0 =>
    rw [hg] at h
    dsimp only at h
    cases hp : g0.nextPc with
    | none => simp [hp] at h
    | some pc =>
      cases hc : g0.clause with
      | none => simp [hc] at h
      | some cl0 =>
        rw [hp, hc] at h
        dsimp only at h
        split at h
        · cases h
        · simp only [Option.some.injEq, Prod.mk.injEq] at h
          obtain ⟨rfl, rfl, rfl, rfl⟩ := h
          exact ⟨rfl, hc, ⟨pc, hp, rfl⟩, rfl⟩

theorem group_gid {m : Mach} {k : Nat} {g : Group} (h : m.group? k = some g) : g.gid = k := by
  have := List.find?_some h
  exact eq_of_beq this

/-- The group at the start of a word, in the old machine and in the one its effect begins in. -/
theorem starts_group {i : Instr} {s : State} {b : Start} (h : Starts i s b) :
    b.c.gid = b.g.gid ∧ b.c.g = b.g.asRead ∧ b.c.dev = s.dev ∧
      b.m.besides b.g.gid = s.mach.besides b.g.gid ∧
      ∃ g t w, s.mach.group? b.g.gid = some g ∧ wordSpec i = some t ∧ parts i = some (b.opc, w) ∧
        b.g = g.readBack s.dev s.mach (backV i t w) ∧
        b.m.group? b.g.gid = some (b.g.kill (deadRegs b.g b.c.run t w)) := by
  obtain ⟨g, run, p, cl, t, w, h1, h2, h3, -, -, -, hb, -, hc, -, hm⟩ := starts_cases h
  obtain ⟨hg, -, -, -⟩ := wordAtIssue_group h1
  rw [← group_gid hg] at hg
  have e : b.g.gid = g.gid := by rw [hb, readBack_gid]
  have hf : ∀ k : Group, ((k.readBack s.dev s.mach (backV i t w)).kill (deadRegs g run t w)).gid = k.gid :=
    fun k => (kill_gid _ _).trans (readBack_gid _ _ _ k)
  refine ⟨by rw [hc]; rfl, by rw [hc]; rfl, by rw [hc]; rfl, ?_, g, t, w, by rw [e]; exact hg, h2, h3, hb, ?_⟩
  · rw [hm, e, besides_modGroup _ _ _ hf, numbered_besides]
  · rw [hm, e, group_modGroup _ _ _ hf]
    have : s.mach.numbered.group? g.gid = some g := hg
    rw [this, hc, Option.map_some, ← hb, ← readBack_dead s.dev s.mach (backV i t w), ← hb]
    rfl

/-! ## A word that only changes its group -/

/-- With its start known a word's issue is its effect and its end. -/
theorem runWord_of_starts {i : Instr} {s : State} {b : Start} (body : Iss → M Flow) (h : Starts i s b) :
    runWord i body s = .next (endWord i s b ((body b.c).run b.m)) := by
  unfold runWord
  rw [h]

/-- A word that only changes its group makes that change, and its run goes on. -/
theorem regWord_of_starts {i : Instr} {s : State} {b : Start} (f : Iss → Group → Group) (h : Starts i s b) :
    regWord i f s = .next (wordDone i s b (b.m.modGroup b.c.gid (f b.c))) :=
  runWord_of_starts _ h

theorem openPair_gid (g before : Group) : (g.openPair before).gid = g.gid := rfl

theorem openPair_still (g before : Group) : (g.openPair before).still = g.still := by
  delta Group.openPair Group.still
  with_reducible rfl

/-- The machine that a word leaves whose run's lanes in `flow` step on, its group having changed by `f`. -/
theorem endWord_group {i : Instr} {s : State} {b : Start} (m : Mach) (flow : Flow) (f : Group → Group)
    (hf : ∀ g, (f g).gid = g.gid) (g0 : Group) (hg : m.group? b.g.gid = some g0) (hc : b.c.gid = b.g.gid) :
    (endWord i s b (.ok flow (m.modGroup b.c.gid f))).dev = s.dev ∧
      (endWord i s b (.ok flow (m.modGroup b.c.gid f))).mach.besides b.g.gid = m.besides b.g.gid ∧
      (endWord i s b (.ok flow (m.modGroup b.c.gid f))).mach.ctx.ops = m.ctx.ops ∧
      ∃ g', (endWord i s b (.ok flow (m.modGroup b.c.gid f))).mach.group? b.g.gid = some g' ∧
        g'.still = (f g0).still ∧
        g'.lanes = (((f g0).enterRegion b.c b.opc).stepLanes flow b.c.header).lanes := by
  unfold endWord finishWord
  dsimp only
  rw [hc, modGroup_modGroup _ _ _ _ hf]
  generalize (m.modGroup b.g.gid f).cyc.toNat = cyc
  have hfin : ∀ g, ((f g).finish b.c b.opc flow cyc).gid = g.gid := fun g => (finish_gid _ _ _ _ _).trans (hf g)
  have e1 := besides_modGroup m b.g.gid _ hfin
  have e2 := group_modGroup m b.g.gid _ hfin
  have e3 : (m.modGroup b.g.gid (fun g => (f g).finish b.c b.opc flow cyc)).ctx.ops = m.ctx.ops := rfl
  rw [hg, Option.map_some] at e2
  generalize m.modGroup b.g.gid (fun g => (f g).finish b.c b.opc flow cyc) = m1 at e1 e2 e3 ⊢
  by_cases hco : b.co = true
  · rw [if_pos hco]
    refine ⟨rfl, (besides_modGroup _ _ _ (fun h => openPair_gid h b.g)).trans e1, e3,
      ((f g0).finish b.c b.opc flow cyc).openPair b.g, ?_, ?_, ?_⟩
    · rw [group_modGroup _ _ _ (fun h => openPair_gid h b.g), e2]; rfl
    · exact (openPair_still _ _).trans (finish_still _ _ _ _ _)
    · exact finish_lanes _ _ _ _ _
  · rw [if_neg hco]
    exact ⟨rfl, e1, e3, _, e2, finish_still _ _ _ _ _, finish_lanes _ _ _ _ _⟩

/-- The machine that a word leaves whose run goes on, its group having changed by `f` and nothing else. -/
theorem wordDone_group {i : Instr} {s : State} {b : Start} (m : Mach) (f : Group → Group)
    (hf : ∀ g, (f g).gid = g.gid) (hb : m.besides b.g.gid = s.mach.besides b.g.gid) (g0 : Group)
    (hg : m.group? b.g.gid = some g0) (hc : b.c.gid = b.g.gid) :
    SameElsewhere b.g.gid s (wordDone i s b (m.modGroup b.c.gid f)) ∧
      ∃ g', (wordDone i s b (m.modGroup b.c.gid f)).mach.group? b.g.gid = some g' ∧
        g'.still = (f g0).still ∧
        g'.lanes = (((f g0).enterRegion b.c b.opc).stepLanes b.c.run b.c.header).lanes := by
  obtain ⟨h1, h2, -, h3⟩ := endWord_group (i := i) (s := s) m b.c.run f hf g0 hg hc
  exact ⟨⟨h1, h2.trans hb⟩, h3⟩

/-- Every V, S, P and Q register, SATF, and what a group keeps beside them are functions of `Group.still`. -/
theorem still_beside {g h : Group} (e : g.still = h.still) : g.beside = h.beside := by
  unfold Group.beside
  rw [e]

theorem still_fields (g : Group) :
    g.still.v = g.v ∧ g.still.s = g.s ∧ g.still.p = g.p ∧ g.still.q = g.q ∧ g.still.satf = g.satf ∧
      g.still.badRegs = g.badRegs := by
  delta Group.still
  exact ⟨by with_reducible rfl, by with_reducible rfl, by with_reducible rfl, by with_reducible rfl,
    by with_reducible rfl, by with_reducible rfl⟩

theorem still_regs {g h : Group} (e : g.still = h.still) :
    g.v = h.v ∧ g.s = h.s ∧ g.p = h.p ∧ g.q = h.q ∧ g.satf = h.satf ∧ g.badRegs = h.badRegs := by
  obtain ⟨a1, a2, a3, a4, a5, a6⟩ := still_fields g
  obtain ⟨b1, b2, b3, b4, b5, b6⟩ := still_fields h
  rw [← a1, ← a2, ← a3, ← a4, ← a5, ← a6, e]
  exact ⟨b1, b2, b3, b4, b5, b6⟩

theorem lane_congr {g h : Group} (e : g.lanes = h.lanes) (l : Nat) : g.lane l = h.lane l := by
  unfold Group.lane
  rw [e]

/-- Only lanes of the run take the header as their region entry. -/
theorem regionLanes_has (c : Iss) (opc l : Nat) (h : c.run.has l = false) : (c.regionLanes opc).has l = false := by
  unfold Iss.regionLanes
  unfold Mask.has at h ⊢
  split
  · exact BitVec.getLsbD_zero
  · split
    · rw [BitVec.getLsbD_and, h, Bool.false_and]
    · exact h

/-- A region entry is the one thing that the first word of a clause changes of its run's lanes before they step. -/
theorem lane_enterRegion (c : Iss) (opc : Nat) (g : Group) (l : Nat) (hl : l < 32) :
    (g.enterRegion c opc).lane l =
      if (c.regionLanes opc).has l && (c.idx = 1 && c.header.reg) then { g.lane l with region := c.hdr }
      else g.lane l := by
  unfold Group.enterRegion
  by_cases q : (c.idx = 1 && c.header.reg) = true
  · rw [if_pos q, q, Bool.and_true]
    rw [lane_congr (h := g.setLanes (c.regionLanes opc) (fun _ p => { p with region := c.hdr })) (by with_reducible rfl),
      lane_setLanes _ _ _ _ hl]
  · rw [if_neg q]
    simp only [Bool.not_eq_true] at q
    rw [q, Bool.and_false, if_neg Bool.false_ne_true]

/-- The run's lanes go on past their word. -/
theorem runOnward_of_lanes {b : Start} {g g' : Group} (hg : g.lanes = b.g.lanes)
    (h : g'.lanes = ((g.enterRegion b.c b.opc).stepLanes b.c.run b.c.header).lanes) : RunOnward b g' := by
  intro l hl
  rw [lane_congr h, Group.stepLanes, lane_setLanes _ _ _ _ hl, lane_enterRegion _ _ _ _ hl, lane_congr hg]
  by_cases hm : b.c.run.has l = true
  · rw [if_pos hm, if_pos hm]
    unfold LanePC.onward
    by_cases hq : ((b.c.regionLanes b.opc).has l && (b.c.idx = 1 && b.c.header.reg)) = true
    · rw [if_pos hq]
      by_cases hi : (b.g.lane l).idx ≤ b.c.header.cnt.toNat
      · simp only [hi, if_true, and_self]
      · simp only [hi, if_false, and_self]
    · rw [if_neg hq]
      by_cases hi : (b.g.lane l).idx ≤ b.c.header.cnt.toNat
      · simp only [hi, if_true, and_self]
      · simp only [hi, if_false, and_self]
  · simp only [Bool.not_eq_true] at hm
    rw [regionLanes_has _ _ _ hm]
    simp only [hm, Bool.false_and, Bool.false_eq_true, if_false]

theorem kill_regs (g : Group) (dead : List Nat) :
    (g.kill dead).s = g.s ∧ (g.kill dead).p = g.p ∧ (g.kill dead).q = g.q ∧ (g.kill dead).satf = g.satf := by
  delta Group.kill Group.keepPlaces
  refine ⟨ite_agree Group.s _ _ _ _ ?_ ?_, ite_agree Group.p _ _ _ _ ?_ ?_, ite_agree Group.q _ _ _ _ ?_ ?_,
    ite_agree Group.satf _ _ _ _ ?_ ?_⟩ <;> with_reducible rfl

/-- A WORD THAT ONLY CHANGES ITS GROUP: it runs, and its registers are those that its function makes. -/
theorem ranInGroup_of_regWord {i : Instr} {s : State} {b : Start} {f : Iss → Group → Group}
    (he : exec i s = regWord i f s) (h : Starts i s b) (h1 : ∀ g, (f b.c g).gid = g.gid)
    (h2 : ∀ g, (f b.c g).beside = g.beside) (h3 : ∀ g, (f b.c g).lanes = g.lanes) :
    ∃ t g' t0 w, RanInGroup i s b g' t ∧ wordSpec i = some t0 ∧ parts i = some (b.opc, w) ∧
      (let e := f b.c (b.g.kill (deadRegs b.g b.c.run t0 w))
       g'.v = e.v ∧ g'.s = e.s ∧ g'.p = e.p ∧ g'.q = e.q ∧ g'.satf = e.satf ∧ g'.badRegs = e.badRegs) := by
  obtain ⟨hc, -, -, hb, -, t0, w, -, hs, hw, -, hg⟩ := starts_group h
  obtain ⟨he1, g', hg', hst, hl⟩ := wordDone_group (i := i) b.m (f b.c) h1 hb _ hg hc
  refine ⟨_, g', t0, w, ⟨he.trans (regWord_of_starts f h), he1, hg', ?_, ?_⟩, hs, hw, still_regs hst⟩
  · exact (still_beside hst).trans ((h2 _).trans (kill_beside _ _))
  · exact runOnward_of_lanes ((h3 _).trans (kill_lanes _ _)) hl

end Sys2Proof.Machine
end

