-- ==== Sys2Proof/Laws/Group.lean ====
section
/-!
SUPPORT. Reading the registers of a group after they have been written.
-/
namespace Sys2Proof.Machine

theorem vget_vset_ne {α : Type} {n : Nat} (v : Vector α n) (i j : Nat) (x d : α) (h : j ≠ i) :
    vget (vset v i x) j d = vget v j d := by
  unfold vget vset
  by_cases hj : j < n
  · simp only [hj, dif_pos]
    rw [Vector.getElem_setIfInBounds hj, if_neg (Ne.symm h)]
  · simp only [hj, dif_neg, not_false_eq_true]

theorem vget_vset_eq {α : Type} {n : Nat} (v : Vector α n) (i : Nat) (x d : α) (h : i < n) :
    vget (vset v i x) i d = x := by
  unfold vget vset
  simp only [h, dif_pos]
  rw [Vector.getElem_setIfInBounds h, if_pos rfl]

/-- Reading what has been stored in the register home. -/
theorem find_vStore (v : List (Nat × LaneVals)) (h k : Nat) (x : LaneVals) :
    ((vStore v h x).find? (fun p => p.1 == k)).map (·.2) =
      if k = h then some x else (v.find? (fun p => p.1 == k)).map (·.2) := by
  induction v with
  | nil =>
    by_cases e : k = h
    · subst e; simp [vStore]
    · simp [vStore, Ne.symm e, e]
  | cons p r ih =>
    obtain ⟨q, y⟩ := p
    unfold vStore
    by_cases e1 : q = h
    · subst e1
      by_cases e : k = q
      · subst e; simp
      · simp [e, Ne.symm e]
    · by_cases e2 : h < q
      · by_cases e : k = h
        · subst e; simp [e1, e2]
        · simp [e1, e2, e, Ne.symm e]
      · simp only [e1, e2, if_false, List.find?_cons]
        by_cases e3 : q = k
        · subst e3; simp [e1]
        · rw [beq_eq_false_iff_ne.mpr e3]; exact ih

/-- What a write of a V register leaves at every place. -/
theorem vStored_writeHome (g : Group) (free : Nat) (mask : Mask) (home : Nat) (x : LaneVals) (k : Nat) :
    (g.writeHome free mask home x).vStored k =
      if k = home then some (Vector.ofFn (fun i : Fin 32 => if mask.has i.val then x[i] else (vRead g.v home free)[i]))
      else g.vStored k :=
  find_vStore _ _ _ _

/-- A register that a word marks dead is not materialised; every other one is as before. -/
theorem vStored_kill (g : Group) (dead : List Nat) (k : Nat) :
    (g.kill dead).vStored k = if k ∈ dead.map (g.base + ·) then none else g.vStored k := by
  unfold Group.kill
  by_cases hd : dead.isEmpty = true
  · rw [if_pos hd]
    rw [List.isEmpty_iff] at hd
    subst hd
    simp
  · rw [if_neg hd]
    unfold Group.vStored Group.keepPlaces
    dsimp only
    induction g.v with
    | nil => simp
    | cons p r ih =>
      rw [List.filter_cons]
      by_cases hp : (dead.map (g.base + ·)).contains p.1 = true
      · rw [hp]
        simp only [Bool.not_true, Bool.false_eq_true, if_false]
        rw [ih, List.find?_cons]
        by_cases hk : p.1 = k
        · subst hk
          rw [if_pos (List.contains_iff_mem.mp hp), if_pos (List.contains_iff_mem.mp hp)]
        · rw [beq_eq_false_iff_ne.mpr hk]
      · simp only [Bool.not_eq_true] at hp
        rw [hp]
        simp only [Bool.not_false, if_true]
        rw [List.find?_cons, List.find?_cons]
        by_cases hk : p.1 = k
        · subst hk
          have : ¬ p.1 ∈ dead.map (g.base + ·) := by rw [← List.contains_iff_mem, hp]; simp
          rw [if_neg this, beq_self_eq_true]
        · rw [beq_eq_false_iff_ne.mpr hk]; exact ih

theorem deadPlaces_eq {i : Instr} {b : Start} {t : WordSpec} {w : AnyWord} (h1 : wordSpec i = some t)
    (h2 : parts i = some (b.opc, w)) : deadPlaces i b = (deadRegs b.g b.c.run t w).map (b.g.base + ·) := by
  unfold deadPlaces deadRegs
  rw [h1, h2]
  dsimp only
  by_cases h : b.c.run = b.g.livem
  · rw [if_pos h, if_pos h]
  · rw [if_neg h, if_neg h]; rfl

theorem vStored_congr {g h : Group} (e : g.v = h.v) (k : Nat) : g.vStored k = h.vStored k := by
  unfold Group.vStored
  rw [e]

/-! ## Words that write one kind of register -/

theorem writeS_gid (g : Group) (n : Nat) (x : Word) : (g.writeS n x).gid = g.gid := rfl
theorem writeS_beside (g : Group) (n : Nat) (x : Word) : (g.writeS n x).beside = g.beside := by
  delta Group.writeS Group.beside Group.still
  with_reducible rfl
theorem writeS_lanes (g : Group) (n : Nat) (x : Word) : (g.writeS n x).lanes = g.lanes := rfl

/-- A word that writes one S register. -/
theorem ran_writeS {i : Instr} {s : State} {b : Start} {n : Nat} {x : Iss → Word}
    (he : exec i s = regWord i (fun c g => g.writeS n (x c)) s) (h : Starts i s b) :
    ∃ t g', RanInGroup i s b g' t ∧ KeepsSPQ b g' [n] [] [] ∧ KeepsV i b g' [] ∧ g'.satf = b.g.satf ∧
      (n < 64 → g'.sReg n = x b.c) := by
  obtain ⟨t, g', t0, w, hr, h1, h2, e⟩ := ranInGroup_of_regWord he h (fun _ => rfl)
    (fun g => writeS_beside g n _) (fun _ => rfl)
  dsimp only at e
  obtain ⟨ev, es, ep, eq, esat, -⟩ := e
  obtain ⟨ks, kp, kq, ksat⟩ := kill_regs b.g (deadRegs b.g b.c.run t0 w)
  have es' : g'.s = vset b.g.s n (x b.c) := es.trans (congrArg (fun v => vset v n (x b.c)) ks)
  refine ⟨t, g', hr, ⟨?_, ?_, ?_⟩, ?_, esat.trans ksat, ?_⟩
  · intro k hk
    unfold Group.sReg
    rw [es', vget_vset_ne _ _ _ _ _ (by simpa using hk)]
  · intro k _; unfold Group.pReg; rw [ep.trans kp]
  · intro k _; unfold Group.qReg; rw [eq.trans kq]
  · intro k _
    rw [deadPlaces_eq h1 h2, vStored_congr ev]
    exact vStored_kill _ _ _
  · intro hn
    unfold Group.sReg
    rw [es', vget_vset_eq _ _ _ _ hn]

theorem writeQ_beside (g : Group) (n : Nat) (x : Bool) : (g.writeQ n x).beside = g.beside := by
  delta Group.writeQ Group.beside Group.still
  with_reducible rfl
theorem writeP_beside (g : Group) (mask : Mask) (n : Nat) (x : Mask) : (g.writeP mask n x).beside = g.beside := by
  delta Group.writeP Group.beside Group.still
  with_reducible rfl
theorem writeHome_beside (g : Group) (free : Nat) (mask : Mask) (h : Nat) (x : LaneVals) :
    (g.writeHome free mask h x).beside = g.beside := by
  delta Group.writeHome Group.beside Group.still
  with_reducible rfl
theorem writeV_beside (g : Group) (free : Nat) (mask : Mask) (j : Nat) (f : Nat → Nat) :
    (g.writeV free mask j f).beside = g.beside := writeHome_beside _ _ _ _ _

/-- A word that writes one Q predicate. -/
theorem ran_writeQ {i : Instr} {s : State} {b : Start} {n : Nat} {x : Iss → Bool}
    (he : exec i s = regWord i (fun c g => g.writeQ n (x c)) s) (h : Starts i s b) :
    ∃ t g', RanInGroup i s b g' t ∧ KeepsSPQ b g' [] [] [n] ∧ KeepsV i b g' [] ∧ g'.satf = b.g.satf ∧
      (n < 4 → g'.qReg n = x b.c) := by
  obtain ⟨t, g', t0, w, hr, h1, h2, e⟩ := ranInGroup_of_regWord he h (fun _ => rfl)
    (fun g => writeQ_beside g n _) (fun _ => rfl)
  dsimp only at e
  obtain ⟨ev, es, ep, eq, esat, -⟩ := e
  obtain ⟨ks, kp, kq, ksat⟩ := kill_regs b.g (deadRegs b.g b.c.run t0 w)
  have eq' : g'.q = vset b.g.q n (x b.c) := eq.trans (congrArg (fun v => vset v n (x b.c)) kq)
  refine ⟨t, g', hr, ⟨?_, ?_, ?_⟩, ?_, esat.trans ksat, ?_⟩
  · intro k _; unfold Group.sReg; rw [es.trans ks]
  · intro k _; unfold Group.pReg; rw [ep.trans kp]
  · intro k hk
    unfold Group.qReg
    rw [eq', vget_vset_ne _ _ _ _ _ (by simpa using hk)]
  · intro k _
    rw [deadPlaces_eq h1 h2, vStored_congr ev]
    exact vStored_kill _ _ _
  · intro hn
    unfold Group.qReg
    rw [eq', vget_vset_eq _ _ _ _ hn]

/-- A word that writes one S register and one Q predicate. -/
theorem ran_writeSQ {i : Instr} {s : State} {b : Start} {n k : Nat} {x : Iss → Word} {y : Iss → Bool}
    (he : exec i s = regWord i (fun c g => (g.writeS n (x c)).writeQ k (y c)) s) (h : Starts i s b) :
    ∃ t g', RanInGroup i s b g' t ∧ KeepsSPQ b g' [n] [] [k] ∧ KeepsV i b g' [] ∧ g'.satf = b.g.satf ∧
      (n < 64 → g'.sReg n = x b.c) ∧ (k < 4 → g'.qReg k = y b.c) := by
  obtain ⟨t, g', t0, w, hr, h1, h2, e⟩ := ranInGroup_of_regWord he h (fun _ => rfl)
    (fun g => (writeQ_beside _ k _).trans (writeS_beside g n _)) (fun _ => rfl)
  dsimp only at e
  obtain ⟨ev, es, ep, eq, esat, -⟩ := e
  obtain ⟨ks, kp, kq, ksat⟩ := kill_regs b.g (deadRegs b.g b.c.run t0 w)
  have es' : g'.s = vset b.g.s n (x b.c) := es.trans (congrArg (fun v => vset v n (x b.c)) ks)
  have eq' : g'.q = vset b.g.q k (y b.c) := eq.trans (congrArg (fun v => vset v k (y b.c)) kq)
  refine ⟨t, g', hr, ⟨?_, ?_, ?_⟩, ?_, esat.trans ksat, ?_, ?_⟩
  · intro j hj
    unfold Group.sReg
    rw [es', vget_vset_ne _ _ _ _ _ (by simpa using hj)]
  · intro j _; unfold Group.pReg; rw [ep.trans kp]
  · intro j hj
    unfold Group.qReg
    rw [eq', vget_vset_ne _ _ _ _ _ (by simpa using hj)]
  · intro j _
    rw [deadPlaces_eq h1 h2, vStored_congr ev]
    exact vStored_kill _ _ _
  · intro hn
    unfold Group.sReg
    rw [es', vget_vset_eq _ _ _ _ hn]
  · intro hn
    unfold Group.qReg
    rw [eq', vget_vset_eq _ _ _ _ hn]

/-- A word that writes bits of one vector predicate. -/
theorem ran_writeP {i : Instr} {s : State} {b : Start} {n : Nat} {f : Iss → Nat → Bool}
    (he : exec i s = regWord i (fun c g => g.writeP c.lanes n (Mask.ofFn (f c))) s) (h : Starts i s b) :
    ∃ t g', RanInGroup i s b g' t ∧ KeepsSPQ b g' [] [n] [] ∧ KeepsV i b g' [] ∧ g'.satf = b.g.satf ∧
      (n < 12 → g'.pReg n = (b.g.pReg n &&& ~~~b.c.lanes) ||| (Mask.ofFn (f b.c) &&& b.c.lanes)) := by
  obtain ⟨t, g', t0, w, hr, h1, h2, e⟩ := ranInGroup_of_regWord he h (fun _ => rfl)
    (fun g => writeP_beside g _ n _) (fun _ => rfl)
  dsimp only at e
  obtain ⟨ev, es, ep, eq, esat, -⟩ := e
  obtain ⟨ks, kp, kq, ksat⟩ := kill_regs b.g (deadRegs b.g b.c.run t0 w)
  have ep' : g'.p = vset b.g.p n ((b.g.pReg n &&& ~~~b.c.lanes) ||| (Mask.ofFn (f b.c) &&& b.c.lanes)) := by
    refine ep.trans ?_
    unfold Group.writeP Group.pReg
    dsimp only
    rw [kp]
  refine ⟨t, g', hr, ⟨?_, ?_, ?_⟩, ?_, esat.trans ksat, ?_⟩
  · intro k _; unfold Group.sReg; rw [es.trans ks]
  · intro k hk
    unfold Group.pReg
    rw [ep', vget_vset_ne _ _ _ _ _ (by simpa using hk)]
  · intro k _; unfold Group.qReg; rw [eq.trans kq]
  · intro k _
    rw [deadPlaces_eq h1 h2, vStored_congr ev]
    exact vStored_kill _ _ _
  · intro hn
    unfold Group.pReg
    rw [ep', vget_vset_eq _ _ _ _ hn]
    rfl

/-! ## Words that write V registers -/

/-- The slice that a write of a type leaves in lane `l`, of its first or its second register (R124). -/
def sliceOf (t : Ty) (x : Int) (second : Bool) : Slice :=
  if tyWidth t = 64 then BitVec.ofNat 32 (if second then wrapNat 64 x / 4294967296 else wrapNat 32 x)
  else BitVec.ofNat 32 (extendTy t 32 x)

theorem vget_ofFn {α : Type} (f : Fin 32 → α) (l : Nat) (d : α) (hl : l < 32) : vget (Vector.ofFn f) l d = f ⟨l, hl⟩ := by
  unfold vget
  simp only [hl, dif_pos, Vector.getElem_ofFn]

/-- What a write of V register `j` leaves at every place. -/
theorem vStored_writeV (g : Group) (free : Nat) (mask : Mask) (j : Nat) (f : Nat → Nat) (k : Nat) :
    (g.writeV free mask j f).vStored k =
      if k = g.base + j then some (Vector.ofFn (fun i : Fin 32 =>
        if mask.has i.val then BitVec.ofNat 32 (f i.val) else (vRead g.v (g.base + j) free)[i]))
      else g.vStored k := by
  unfold Group.writeV
  rw [vStored_writeHome]
  by_cases hk : k = g.base + j
  · rw [if_pos hk, if_pos hk]
    refine congrArg some (congrArg Vector.ofFn (funext fun i => ?_))
    by_cases hm : mask.has i.val = true
    · rw [if_pos hm, if_pos hm]
      unfold laneFn
      rw [Fin.getElem_fin, Vector.getElem_ofFn]
      dsimp only
      rw [if_pos hm]
    · rw [if_neg hm, if_neg hm]
  · rw [if_neg hk, if_neg hk]

theorem writeV_base (g : Group) (free : Nat) (mask : Mask) (j : Nat) (f : Nat → Nat) :
    (g.writeV free mask j f).base = g.base := rfl

/-- A lane that a write leaves out keeps what is stored. -/
theorem vRead_of_stored {g : Group} {h free : Nat} {x : LaneVals} (e : g.vStored h = some x) : vRead g.v h free = x := by
  unfold Group.vStored at e
  unfold vRead
  cases hf : g.v.find? (fun p => p.1 == h) with
  | none => rw [hf] at e; cases e
  | some p => rw [hf] at e; exact Option.some.inj e

/-- What a result of a type leaves at every place: its registers hold it in the lanes of Lanes(run). -/
theorem vStored_writeTy (c : Iss) (g : Group) (t : Ty) (d : BitVec 8) (f : Nat → Int) (k : Nat) :
    (writeTy c g t d f).vStored k =
      if k = g.base + d.toNat then some (Vector.ofFn (fun i : Fin 32 =>
        if c.lanes.has i.val then sliceOf t (f i.val) false else (vRead g.v k c.free)[i]))
      else if tyWidth t = 64 ∧ k = g.base + d.toNat + 1 then some (Vector.ofFn (fun i : Fin 32 =>
        if c.lanes.has i.val then sliceOf t (f i.val) true else (vRead g.v k c.free)[i]))
      else g.vStored k := by
  unfold writeTy
  by_cases h64 : tyWidth t = 64
  · rw [if_pos h64, vStored_writeV, writeV_base]
    by_cases h2 : k = g.base + (d.toNat + 1)
    · subst h2
      rw [if_pos rfl, if_neg (by omega), if_pos ⟨h64, by omega⟩]
      congr 2
      funext i
      by_cases hm : c.lanes.has i.val = true
      · simp [hm, sliceOf, h64]
      · simp only [hm, if_false, Bool.false_eq_true]
        have : vRead (g.writeV c.free c.lanes d.toNat (fun l => wrapNat 32 (f l))).v (g.base + (d.toNat + 1)) c.free =
            vRead g.v (g.base + (d.toNat + 1)) c.free := by
          have e := vStored_writeV g c.free c.lanes d.toNat (fun l => wrapNat 32 (f l)) (g.base + (d.toNat + 1))
          rw [if_neg (by omega)] at e
          unfold Group.vStored at e
          unfold vRead
          cases hx : g.v.find? (fun p => p.1 == g.base + (d.toNat + 1)) with
          | none =>
            rw [hx] at e
            cases hy : (g.writeV c.free c.lanes d.toNat (fun l => wrapNat 32 (f l))).v.find?
              (fun p => p.1 == g.base + (d.toNat + 1)) with
            | none => rfl
            | some y => rw [hy] at e; cases e
          | some x =>
            rw [hx] at e
            cases hy : (g.writeV c.free c.lanes d.toNat (fun l => wrapNat 32 (f l))).v.find?
              (fun p => p.1 == g.base + (d.toNat + 1)) with
            | none => rw [hy] at e; cases e
            | some y => rw [hy] at e; exact Option.some.inj e
        rw [this]
    · rw [if_neg h2, vStored_writeV]
      by_cases h1 : k = g.base + d.toNat
      · subst h1
        rw [if_pos rfl, if_pos rfl]
        congr 2
        funext i
        by_cases hm : c.lanes.has i.val = true
        · simp [hm, sliceOf, h64]
        · simp [hm]
      · rw [if_neg h1, if_neg h1, if_neg (by omega)]
  · rw [if_neg h64, vStored_writeV]
    by_cases h1 : k = g.base + d.toNat
    · subst h1
      rw [if_pos rfl, if_pos rfl]
      congr 2
      funext i
      by_cases hm : c.lanes.has i.val = true
      · simp [hm, sliceOf, h64]
      · simp [hm]
    · rw [if_neg h1, if_neg h1, if_neg (by omega)]

theorem writeTy_beside (c : Iss) (g : Group) (t : Ty) (d : BitVec 8) (f : Nat → Int) :
    (writeTy c g t d f).beside = g.beside := by
  unfold writeTy
  by_cases h : tyWidth t = 64
  · rw [if_pos h]; exact (writeV_beside _ _ _ _ _).trans (writeV_beside _ _ _ _ _)
  · rw [if_neg h]; exact writeV_beside _ _ _ _ _

/-- A typed write changes no S, P or Q register, no SATF and no PC. -/
theorem writeTy_others (c : Iss) (g : Group) (t : Ty) (d : BitVec 8) (f : Nat → Int) :
    (writeTy c g t d f).gid = g.gid ∧ (writeTy c g t d f).lanes = g.lanes ∧ (writeTy c g t d f).s = g.s ∧
      (writeTy c g t d f).p = g.p ∧ (writeTy c g t d f).q = g.q ∧ (writeTy c g t d f).satf = g.satf := by
  unfold writeTy
  by_cases h : tyWidth t = 64
  · rw [if_pos h]; exact ⟨rfl, rfl, rfl, rfl, rfl, rfl⟩
  · rw [if_neg h]; exact ⟨rfl, rfl, rfl, rfl, rfl, rfl⟩

/-- The group with SATF set when `x` holds. -/
def setSatf (g : Group) (x : Bool) : Group := if x then { g with satf := true } else g

theorem setSatf_beside (g : Group) (x : Bool) : (setSatf g x).beside = g.beside := by
  delta setSatf
  refine ite_agree Group.beside _ _ _ _ ?_ ?_ <;> delta Group.beside Group.still <;> with_reducible rfl

theorem setSatf_others (g : Group) (x : Bool) :
    (setSatf g x).gid = g.gid ∧ (setSatf g x).lanes = g.lanes ∧ (setSatf g x).s = g.s ∧ (setSatf g x).p = g.p ∧
      (setSatf g x).q = g.q ∧ (setSatf g x).v = g.v ∧ (setSatf g x).satf = (g.satf || x) := by
  unfold setSatf
  cases x
  · simp
  · simp

theorem kill_base (g : Group) (dead : List Nat) : (g.kill dead).base = g.base := by
  delta Group.kill Group.base Group.level Group.link Group.lane
  exact ite_agree (fun g => (g.links.getD (laneSlots.foldl (fun a l => if (vget g.lanes l LanePC.absent).live then
    max a (vget g.lanes l LanePC.absent).level else a) 0)
    { reto := 0, cato := 0, base := 0, dem := 0, win := 0, cm := false, held := 0 }).base) _ _ _ _ rfl rfl

/-- A word that writes a typed result in the lanes of Lanes(run), and sets SATF when `q` says so. -/
theorem ran_writeTy {i : Instr} {s : State} {b : Start} {t : Ty} {d : BitVec 8} {f : Iss → Nat → Int} {q : Iss → Bool}
    (he : exec i s = regWord i (fun c g => setSatf (writeTy c g t d (f c)) (q c)) s) (h : Starts i s b) :
    ∃ u g', RanInGroup i s b g' u ∧ KeepsSPQ b g' [] [] [] ∧ KeepsV i b g' (vDest b t d) ∧
      WroteV i b g' (vDest b t d) ∧ g'.satf = (b.g.satf || q b.c) ∧
      ∀ l < 32, b.c.lanes.has l = true →
        LaneHolds b g' d l (sliceOf t (f b.c l) false) ∧
        (tyWidth t = 64 → ∃ y, g'.vStored (b.g.base + d.toNat + 1) = some y ∧ vget y l 0 = sliceOf t (f b.c l) true) := by
  obtain ⟨u, g', t0, w, hr, h1, h2, e⟩ := ranInGroup_of_regWord he h
    (fun g => (setSatf_others _ _).1.trans (writeTy_others b.c g t d _).1)
    (fun g => (setSatf_beside _ _).trans (writeTy_beside _ _ _ _ _))
    (fun g => (setSatf_others _ _).2.1.trans (writeTy_others b.c g t d _).2.1)
  dsimp only at e
  obtain ⟨ev, es, ep, eq, esat, -⟩ := e
  obtain ⟨ks, kp, kq, ksat⟩ := kill_regs b.g (deadRegs b.g b.c.run t0 w)
  obtain ⟨-, -, os, op, oq, osat⟩ := writeTy_others b.c (b.g.kill (deadRegs b.g b.c.run t0 w)) t d (f b.c)
  obtain ⟨-, -, ss, sp, sq, sv, ssat⟩ := setSatf_others (writeTy b.c (b.g.kill (deadRegs b.g b.c.run t0 w)) t d (f b.c)) (q b.c)
  have hv : ∀ k, g'.vStored k = (writeTy b.c (b.g.kill (deadRegs b.g b.c.run t0 w)) t d (f b.c)).vStored k :=
    fun k => vStored_congr (ev.trans sv) k
  have hk : ∀ k, (b.g.kill (deadRegs b.g b.c.run t0 w)).vStored k = if k ∈ deadPlaces i b then none else b.g.vStored k := by
    intro k; rw [deadPlaces_eq h1 h2]; exact vStored_kill _ _ _
  have hold : ∀ k x, b.g.vStored k = some x → k ∉ deadPlaces i b →
      vRead (b.g.kill (deadRegs b.g b.c.run t0 w)).v k b.c.free = x := by
    intro k x hx hn
    exact vRead_of_stored (by rw [hk, if_neg hn, hx])
  refine ⟨u, g', hr, ⟨?_, ?_, ?_⟩, ?_, ?_, ?_, ?_⟩
  · intro k _; unfold Group.sReg; rw [((es.trans ss).trans os).trans ks]
  · intro k _; unfold Group.pReg; rw [((ep.trans sp).trans op).trans kp]
  · intro k _; unfold Group.qReg; rw [((eq.trans sq).trans oq).trans kq]
  · intro k hd
    unfold vDest at hd
    rw [hv, vStored_writeTy, kill_base]
    by_cases h64 : tyWidth t = 64
    · rw [if_pos h64] at hd
      simp only [List.mem_cons, List.not_mem_nil, or_false, not_or] at hd
      rw [if_neg hd.1, if_neg (by omega), hk]
    · rw [if_neg h64] at hd
      simp only [List.mem_cons, List.not_mem_nil, or_false] at hd
      rw [if_neg hd, if_neg (by omega), hk]
  · intro k hd
    rw [hv, vStored_writeTy, kill_base]
    unfold vDest at hd
    by_cases e1 : k = b.g.base + d.toNat
    · rw [if_pos e1]
      refine ⟨_, rfl, ?_⟩
      intro x hx hn l hl hm
      rw [vget_ofFn _ _ _ hl]
      simp only [hm, Bool.false_eq_true, if_false]
      simp only [hold k x hx hn]
      simp [vget, hl]
    · rw [if_neg e1]
      by_cases h64 : tyWidth t = 64
      · rw [if_pos h64] at hd
        simp only [List.mem_cons, List.not_mem_nil, or_false] at hd
        rw [if_pos ⟨h64, by omega⟩]
        refine ⟨_, rfl, ?_⟩
        intro x hx hn l hl hm
        rw [vget_ofFn _ _ _ hl]
        simp only [hm, Bool.false_eq_true, if_false]
        simp only [hold k x hx hn]
        simp [vget, hl]
      · rw [if_neg h64] at hd
        simp only [List.mem_cons, List.not_mem_nil, or_false] at hd
        exact absurd hd e1
  · rw [esat, ssat, osat, ksat]
  · intro l hl hm
    refine ⟨?_, ?_⟩
    · unfold LaneHolds
      rw [hv, vStored_writeTy, kill_base, if_pos rfl]
      refine ⟨_, rfl, ?_⟩
      rw [vget_ofFn _ _ _ hl]
      simp only [hm, if_true]
    · intro h64
      rw [hv, vStored_writeTy, kill_base, if_neg (by omega), if_pos ⟨h64, rfl⟩]
      refine ⟨_, rfl, ?_⟩
      rw [vget_ofFn _ _ _ hl]
      simp only [hm, if_true]

end Sys2Proof.Machine
end

