-- ==== Sys2Proof/Laws/Reads.lean ====
section
/-!
SUPPORT. What a word reads at issue (translations, code, descriptors) leaves of the machine: everything but the
TLBs, the times at which staged pages were used, and the numbers of free values.
-/
namespace Sys2Proof.Machine

/-! ## Running meanings -/

@[simp] theorem run_map {α β : Type} (f : α → β) (x : M α) (m : Mach) :
    (f <$> x).run m = match x.run m with
      | .ok a m => .ok (f a) m
      | .error e m => .error e m := by
  rw [map_eq_pure_bind, EStateM.run_bind]
  cases x.run m <;> rfl

/-- A computation that has ended well went through its first part. -/
theorem bind_ok {α β : Type} {x : M α} {f : α → M β} {m m' : Mach} {y : β} (h : (x >>= f).run m = .ok y m') :
    ∃ a m1, x.run m = .ok a m1 ∧ (f a).run m1 = .ok y m' := by
  rw [EStateM.run_bind] at h
  cases hx : x.run m with
  | ok a m1 => rw [hx] at h; exact ⟨a, m1, rfl, h⟩
  | error e m1 => rw [hx] at h; cases h

@[simp] theorem curGroup_run (c : Iss) (m : Mach) : (curGroup c).run m = .ok ((m.group? c.gid).getD c.g) m := by
  simp [curGroup]

@[simp] theorem modCur_run (c : Iss) (f : Group → Group) (m : Mach) :
    (modCur c f).run m = .ok () (m.modGroup c.gid f) := rfl

@[simp] theorem stall_run {α : Type} (m : Mach) : (stall : M α).run m = .error .stall m := rfl

@[simp] theorem trapInfo_run {α : Type} (cause : Nat) (mask : Mask) (info : Nat) (m : Mach) :
    (trapInfo cause mask info : M α).run m = .error (.trap cause mask (BitVec.ofNat 64 info)) m := rfl

@[simp] theorem trapWord_run {α : Type} (c : Iss) (cause : Nat) (m : Mach) :
    (trapWord c cause : M α).run m = .error (.trap cause c.run c.word) m := rfl

@[simp] theorem freshId_run (m : Mach) : freshId.run m = .ok m.nextId { m with nextId := m.nextId + 1 } := rfl

@[simp] theorem teamOf_run (c : Iss) (m : Mach) :
    (teamOf c).run m = match m.team? c.g.team with
      | some t => .ok t m
      | none => .error .stall m := by
  simp only [teamOf, EStateM.run_bind, EStateM.run_get]
  cases m.team? c.g.team <;> rfl

@[simp] theorem gridOf_run (c : Iss) (m : Mach) :
    (gridOf c).run m = match m.gridOfGroup? c.g with
      | some g => .ok g m
      | none => .error .stall m := by
  simp only [gridOf, EStateM.run_bind, EStateM.run_get]
  cases m.gridOfGroup? c.g <;> rfl

/-! ## What a read at issue may change -/

theorem useLeaf_sansReads (dev : Device) (m : Mach) (k : AccessKind) (va : Nat) (e : Leaf) :
    (useLeaf dev m k va e).1.sansReads = m.sansReads := by
  unfold useLeaf
  dsimp only
  split
  · split <;> rfl
  · rfl

theorem tiers_touch (u : TierUnit) (page cyc : Nat) :
    ({ u with frames := u.frames.map (fun f => if f.page == page then { f with used := cyc, dirty := f.dirty || false }
      else f) } : TierUnit).sansReads = u.sansReads := by
  unfold TierUnit.sansReads
  simp only [List.map_map]
  congr 1
  apply List.map_congr_left
  intro f _
  simp only [Function.comp_apply]
  cases h : (f.page == page)
  · simp
  · simp

theorem vmod_map {α β : Type} {n : Nat} (v : Vector α n) (i : Nat) (f : α → α) (g : α → β) (h : ∀ x, g (f x) = g x) :
    (vmod v i f).map g = v.map g := by
  unfold vmod
  by_cases hi : i < n
  · rw [dif_pos hi]
    ext j hj
    simp only [Vector.getElem_map, Vector.getElem_set]
    by_cases e : i = j
    · subst e; simp [h]
    · simp [e]
  · rw [dif_neg hi]

theorem touchFrame_sansReads (m : Mach) (l : Loc) : (m.touchFrame l false).sansReads = m.sansReads := by
  unfold Mach.touchFrame
  split
  · unfold Mach.sansReads
    dsimp only
    rw [vmod_map _ _ _ _ (fun u => tiers_touch u _ _)]
  · rfl

/-! ## What an access does to its cellar -/

/-- A change of a cellar that keeps its channels and its parity lines is one that every access makes. -/
theorem cellars_vmod (m : Mach) (s : Nat) (f : CellarUnit → CellarUnit)
    (h : ∀ u, (f u).chans = u.chans ∧ (f u).badParity = u.badParity) :
    ({ m with cellars := vmod m.cellars s f } : Mach).sansReads = m.sansReads := by
  unfold Mach.sansReads
  dsimp only
  rw [vmod_map]
  intro u
  unfold CellarUnit.sansReads
  rw [(h u).1, (h u).2]

/-- The same with the log entry of a failed counter parity or of an overflowed count. -/
theorem cellars_logs (m : Mach) (s : Nat) (f : CellarUnit → CellarUnit) (e : LogEntry) (p : Bool)
    (h : ∀ u, (f u).chans = u.chans ∧ (f u).badParity = u.badParity) (he : (e.evt != 1 && e.evt != 7) = false) :
    ({ m with cellars := vmod m.cellars s f, logs := if p = true then m.logs ++ [e] else m.logs } : Mach).sansReads =
      m.sansReads := by
  rw [← cellars_vmod m s f h]
  unfold Mach.sansReads
  dsimp only
  cases p
  · rfl
  · simp only [if_true, List.filter_append, List.filter_cons, he, Bool.false_eq_true, if_false, List.filter_nil,
      List.append_nil]

theorem precharge_keeps (u : CellarUnit) (ath : BitVec 14) (k : Nat) (odd : Bool) :
    (u.precharge ath k odd).chans = u.chans ∧ (u.precharge ath k odd).badParity = u.badParity := by
  unfold CellarUnit.precharge
  dsimp only
  split <;> exact ⟨rfl, rfl⟩

theorem prechargeRow_sansReads (m : Mach) (ath : BitVec 14) (stack ch bank row : Nat) :
    (m.prechargeRow ath stack ch bank row).sansReads = m.sansReads :=
  cellars_logs m stack _ _ _ (fun u => precharge_keeps u _ _ _) rfl

theorem openRow_sansReads (m : Mach) (ath : BitVec 14) (pa : Nat) : (m.openRow ath pa).sansReads = m.sansReads := by
  unfold Mach.openRow
  dsimp only
  by_cases h : (m.cellar (pa / stackBytes)).openAt pa = some (rowOf pa)
  · rw [if_pos h]
  · rw [if_neg h]
    cases (m.cellar (pa / stackBytes)).openAt pa with
    | none => exact cellars_vmod m _ _ (by intro u; exact ⟨rfl, rfl⟩)
    | some row =>
      dsimp only
      rw [← prechargeRow_sansReads m ath (pa / stackBytes) (channelOf pa) (bankOf pa) row]
      generalize m.prechargeRow ath (pa / stackBytes) (channelOf pa) (bankOf pa) row = m1
      exact cellars_vmod m1 _ _ (by intro u; exact ⟨rfl, rfl⟩)

theorem countCorrected_sansReads (m : Mach) (pa : Nat) : (m.countCorrected pa).sansReads = m.sansReads :=
  cellars_logs m _ _ _ _ (fun _ => ⟨rfl, rfl⟩) rfl

theorem touchRow_sansReads (dev : Device) (m : Mach) (ecc : Bool) (pa : Nat) :
    (m.touchRow dev ecc pa).sansReads = m.sansReads := by
  unfold Mach.touchRow
  dsimp only
  rw [← openRow_sansReads m (vget dev.cellars (pa / stackBytes) CellarRegs.reset).ath pa]
  generalize m.openRow (vget dev.cellars (pa / stackBytes) CellarRegs.reset).ath pa = m1
  cases ecc
  · exact cellars_vmod m1 _ _ (by intro u; exact ⟨rfl, rfl⟩)
  · rw [if_pos rfl, ← countCorrected_sansReads m1 pa]
    generalize m1.countCorrected pa = m2
    exact cellars_vmod m2 _ _ (by intro u; exact ⟨rfl, rfl⟩)

/-- A unit that waits changes nothing but what the tier ports note of it. -/
theorem waits_sansReads (m m' : Mach) : (m.waits m').sansReads = m.sansReads := by
  have h : (m.waits m').tiers.map TierUnit.sansReads = m.tiers.map TierUnit.sansReads := by
    apply Vector.ext
    intro i hi
    rw [Vector.getElem_map, Vector.getElem_map]
    unfold Mach.waits TierUnit.sansReads
    rw [Vector.getElem_ofFn]
    rfl
  unfold Mach.sansReads
  rw [h]
  rfl

@[simp] theorem waits_mem (m m' : Mach) : (m.waits m').mem = m.mem := rfl
@[simp] theorem waits_ctx (m m' : Mach) : (m.waits m').ctx = m.ctx := rfl
@[simp] theorem waits_net (m m' : Mach) : (m.waits m').net = m.net := rfl

/-- What an access does to its cellar is what `Mach.sansReads` leaves out. -/
theorem touchCellar_sansReads (dev : Device) (m : Mach) (l : Loc) (n : Nat) (ecc : Bool) :
    (m.touchCellar dev l n ecc).sansReads = m.sansReads := by
  unfold Mach.touchCellar
  split
  · generalize rowStarts l.addr n = xs
    induction xs generalizing m with
    | nil => rfl
    | cons x r ih => rw [List.foldl_cons, ih, touchRow_sansReads]
  · rfl

/-- The reads of a walk are what `Mach.sansReads` leaves out. -/
theorem touchWalk_sansReads (dev : Device) (m : Mach) (va : Nat) : (m.touchWalk dev va).sansReads = m.sansReads := by
  unfold Mach.touchWalk
  generalize m.entries dev va = xs
  induction xs generalizing m with
  | nil => rfl
  | cons x r ih => rw [List.foldl_cons, ih, touchCellar_sansReads]

theorem translate_sansReads (dev : Device) (m : Mach) (core : Nat) (k : AccessKind) (va : Nat) :
    (translate dev m core k va).1.sansReads = m.sansReads := by
  unfold translate
  split
  · exact useLeaf_sansReads _ _ _ _ _
  · dsimp only
    rw [← touchWalk_sansReads dev m va]
    split
    · rfl
    · split <;> rfl

/-- A translation changes nothing but the TLBs, its walk's cellars and the numbers of free values. -/
theorem translateIn_sansReads (dev : Device) (m : Mach) (core quarter : Nat) (k : AccessKind) (va : Nat) :
    (translateIn dev m core quarter k va).1.sansReads = m.sansReads := by
  unfold translateIn
  split
  · exact useLeaf_sansReads _ _ _ _ _
  · have h := translate_sansReads dev m core k va
    split
    · rename_i m1 l heq
      rw [heq] at h
      rw [← h]
      dsimp only
      split <;> rfl
    · exact h

/-- A peer's answer changes the numbers of free values, and a port that does not admit the peer. -/
theorem peerAnswer_sansReads (dev : Device) (m : Mach) (d n : Nat) : (m.peerAnswer dev d n).1.sansReads = m.sansReads := by
  unfold Mach.peerAnswer
  split
  · rfl
  · unfold Mach.sansReads
    dsimp only
    rw [vmod_map]
    exact fun _ => rfl

/-- A read at a home changes nothing but times of use, its cellar's rows and the numbers of free values. -/
theorem serveRead_sansReads {dev : Device} {m m1 : Mach} {l : Loc} {n : Nat} {bs : List Byte} {bad : List Nat}
    (h : m.serveRead dev l n = some (m1, bs, bad)) : m1.sansReads = m.sansReads := by
  unfold Mach.serveRead at h
  split at h
  · cases h
  · simp only [Option.some.injEq, Prod.mk.injEq] at h
    rw [← h.1]
  · simp only [Option.some.injEq, Prod.mk.injEq] at h
    rw [← h.1, peerAnswer_sansReads]
  · dsimp only at h
    split at h
    · cases h
    · simp only [Option.some.injEq, Prod.mk.injEq] at h
      rw [← h.1, touchFrame_sansReads, touchCellar_sansReads]

theorem homeRead_sansReads {dev : Device} {m m1 : Mach} {l : Loc} {n : Nat} {bs : List Byte} {bad : List Nat}
    (h : m.homeRead dev l n = some (m1, bs, bad)) : m1.sansReads = m.sansReads := by
  unfold Mach.homeRead at h
  split at h
  · cases h
  · exact serveRead_sansReads h

theorem readCode_sansReads {dev : Device} {m m1 : Mach} {l : Loc} {w : Word} (h : readCode dev m l = some (m1, w)) :
    m1.sansReads = m.sansReads := by
  unfold readCode at h
  cases hx : m.homeRead dev l 8 with
  | none => rw [hx] at h; cases h
  | some x =>
    rw [hx] at h
    obtain ⟨m2, bs, bad⟩ := x
    simp only [Option.map_some, Option.some.injEq, Prod.mk.injEq] at h
    rw [← h.1]
    exact homeRead_sansReads hx

/-- Once an address has failed the failure stands. -/
theorem transOne_bad (c : Iss) (k : AccessKind) (g : Group) (xs : List (Nat × Nat))
    (r : Mach × List (Nat × Loc) × Option Nat) (h : r.2.2.isSome = true) :
    (xs.foldl (transOne c k g) r).2.2.isSome = true := by
  induction xs generalizing r with
  | nil => exact h
  | cons x xs ih =>
    rw [List.foldl_cons]
    apply ih
    unfold transOne
    split <;> simp [h]

theorem transAll_sansReads (c : Iss) (k : AccessKind) (g : Group) (xs : List (Nat × Nat))
    (r : Mach × List (Nat × Loc) × Option Nat) (h : (xs.foldl (transOne c k g) r).2.2 = none) :
    (xs.foldl (transOne c k g) r).1.sansReads = r.1.sansReads := by
  induction xs generalizing r with
  | nil => rfl
  | cons x xs ih =>
    rw [List.foldl_cons] at h ⊢
    rw [ih _ h]
    have hb : (transOne c k g r x).2.2 = none := by
      cases hc : (transOne c k g r x).2.2 with
      | none => rfl
      | some p =>
        have := transOne_bad c k g xs (transOne c k g r x) (by rw [hc]; rfl)
        rw [h] at this
        cases this
    have ht := translateIn_sansReads c.dev r.1 c.g.core c.g.quarter k x.2
    unfold transOne at hb ⊢
    split
    · rename_i m l heq
      rw [heq] at ht
      exact ht
    · rename_i m cause lvl heq
      rw [heq] at hb
      cases hb

theorem stall_bind {α β : Type} {f : α → M β} {m m' : Mach} {y : β} (h : ((stall : M α) >>= f).run m = .ok y m') :
    False := by
  obtain ⟨_, _, h1, _⟩ := bind_ok h
  cases h1

theorem trapInfo_bind {α β : Type} {f : α → M β} {m m' : Mach} {y : β} {cause info : Nat} {mask : Mask}
    (h : ((trapInfo cause mask info : M α) >>= f).run m = .ok y m') : False := by
  obtain ⟨_, _, h1, _⟩ := bind_ok h
  cases h1

/-- The end of a word's translations: every address has one, and nothing but the TLBs has changed. -/
theorem transEnd {c : Iss} {k : AccessKind} {g : Group} {xs : List (Nat × Nat)} {ls : List (Nat × Loc)} {m m1 : Mach}
    (h : (do
      let m ← get
      if xs.any (fun x => m.transHeld c.dev c.g.core (some c.g.quarter) x.2) then stall
      let r := xs.foldl (transOne c k g) (m, [], none)
      set r.1
      match r.2.2 with
      | none => return r.2.1
      | some p =>
        if r.1.faults.any (fun f => f.vpage == p && f.kind == k && f.masters.contains (.group c.gid)) then
          modCur c (fun g => { g with faultWait := .waiting p k, faultAt := c.off })
        stall : M (List (Nat × Loc))).run m = .ok ls m1) : m1.sansReads = m.sansReads := by
  obtain ⟨a, m5, h5, h⟩ := bind_ok h
  cases h5
  dsimp only at h
  split at h
  · exact (stall_bind h).elim
  obtain ⟨u, m6, h6, h⟩ := bind_ok h
  rw [EStateM.run_set] at h6
  cases h6
  split at h
  · rename_i heq
    cases h
    exact transAll_sansReads c k g xs (m, [], none) heq
  · split at h
    · obtain ⟨u, m7, h7, h⟩ := bind_ok h
      cases h
    · cases h

/-- Translations that all succeed change nothing but the TLBs. -/
theorem transLanes_sansReads {c : Iss} {k : AccessKind} {mask : Option Mask} {xs : List (Nat × Nat)}
    {ls : List (Nat × Loc)} {m m1 : Mach} (h : (transLanes c k mask xs).run m = .ok ls m1) :
    m1.sansReads = m.sansReads := by
  unfold transLanes at h
  obtain ⟨g, m2, h1, h⟩ := bind_ok h
  rw [curGroup_run] at h1
  cases h1
  dsimp only at h
  split at h
  · exact (stall_bind h).elim
  · split at h
    · split at h
      · exact (trapInfo_bind h).elim
      · exact transEnd h
    · exact transEnd h

/-- The check of a target changes nothing but the TLBs and times of use. -/
theorem isTarget_sansReads {c : Iss} {grid : Grid} {mask : Mask} {off : Int} {r : Bool} {m m1 : Mach}
    (h : (isTarget c grid mask off).run m = .ok r m1) : m1.sansReads = m.sansReads := by
  unfold isTarget at h
  split at h
  · cases h; rfl
  · dsimp only at h
    obtain ⟨m2, m3, h1, h⟩ := bind_ok h
    cases h1
    split at h
    · cases h; rfl
    · obtain ⟨ls, m4, h2, h⟩ := bind_ok h
      have e := transLanes_sansReads h2
      split at h
      · cases h; exact e
      · obtain ⟨m5, m6, h3, h⟩ := bind_ok h
        cases h3
        split at h
        · rename_i m7 hh heq
          obtain ⟨u, m8, h4, h⟩ := bind_ok h
          cases h4
          cases h
          exact (readCode_sansReads heq).trans e
        · obtain ⟨u, m8, h4, h⟩ := bind_ok h
          cases h

end Sys2Proof.Machine
end

