-- ==== Sys2Proof/Laws/Checks.lean ====
section
/-!
SUPPORT. The checks at issue of an engine word either end the word or leave the machine as it is.
-/
namespace Sys2Proof.Machine

theorem trapInfo_not_ok {α : Type} {cause : Nat} {mask : Mask} {info : Nat} {m m' : Mach} {x : α} :
    (trapInfo cause mask info : M α).run m ≠ .ok x m' := by
  rw [trapInfo_run]; exact fun h => nomatch h

theorem checkAddr_keeps {whole : Option Mask} {cause : Nat} {xs : List (Nat × Nat)} {bad : Nat → Bool} {m m' : Mach}
    (h : (checkAddr whole cause xs bad).run m = .ok () m') : m' = m := by
  unfold checkAddr at h
  split at h
  · exact absurd h trapInfo_not_ok
  · cases h; rfl

theorem rangeCheck_keeps {c : Iss} {t : Team} {spc a n : Nat} {m m' : Mach}
    (h : (rangeCheck c t spc a n).run m = .ok () m') : m' = m := by
  unfold rangeCheck at h
  split at h
  · obtain ⟨x, m1, h1, h2⟩ := bind_ok h
    cases h1
    split at h2
    · exact absurd h2 trapInfo_not_ok
    · split at h2
      · exact absurd h2 trapInfo_not_ok
      · cases h2; rfl
  · cases h; rfl

theorem rangeChecks_keeps {c : Iss} {t : Team} {spc n : Nat} {as : List Nat} {m m' : Mach}
    (h : (rangeChecks c t spc n as).run m = .ok () m') : m' = m := by
  induction as generalizing m with
  | nil => cases h; rfl
  | cons a r ih =>
    obtain ⟨x, m1, h1, h2⟩ := bind_ok h
    rw [ih h2, rangeCheck_keeps h1]

theorem tableGate_keeps {c : Iss} {m m' : Mach} (h : (tableGate c).run m = .ok () m') : m' = m := by
  unfold tableGate at h
  obtain ⟨x, m1, h1, h2⟩ := bind_ok h
  cases h1
  split at h2
  · cases h2
  · cases h2; rfl

theorem recallLines_keeps {c : Iss} {xs : List Loc} {n : Nat} {m m' : Mach} (h : (recallLines c xs n).run m = .ok () m') : m' = m := by
  unfold recallLines at h
  obtain ⟨x, m1, h1, h2⟩ := bind_ok h
  cases h1
  dsimp only at h2
  split at h2
  · cases h2
  · cases h2; rfl

theorem sameByteWait_keeps {c : Iss} {xs : List Loc} {n : Nat} {m m' : Mach} (h : (sameByteWait c xs n).run m = .ok () m') :
    m' = m := by
  unfold sameByteWait at h
  obtain ⟨x, m1, h1, h2⟩ := bind_ok h
  cases h1
  dsimp only at h2
  split at h2
  · cases h2
  · cases h2; rfl

theorem recordCheck_keeps {c : Iss} {t : Team} {off : Nat} {l : Loc} {m m' : Mach}
    (h : (recordCheck c t off).run m = .ok l m') : m' = m := by
  unfold recordCheck at h
  dsimp only at h
  by_cases h1 : (off % 128 != 0) = true
  · rw [if_pos h1] at h
    obtain ⟨_, _, h2, _⟩ := bind_ok h
    exact absurd h2 trapInfo_not_ok
  · rw [if_neg h1] at h
    by_cases h2 : t.csl * 64 < off + 128
    · rw [if_pos h2] at h
      obtain ⟨_, _, h3, _⟩ := bind_ok h
      exact absurd h3 trapInfo_not_ok
    · rw [if_neg h2] at h
      obtain ⟨_, _, h3, h⟩ := bind_ok h
      rw [recallLines_keeps h3] at h
      obtain ⟨_, _, h7, h⟩ := bind_ok h
      rw [sameByteWait_keeps h7] at h
      obtain ⟨_, _, h4, h⟩ := bind_ok h
      cases h4
      by_cases h5 : m.mem.rangePoisoned (coreLoc t off) 128 = true
      · rw [if_pos h5] at h
        obtain ⟨_, _, h6, _⟩ := bind_ok h
        cases h6
      · rw [if_neg h5] at h
        cases h; rfl

end Sys2Proof.Machine
end

