-- ==== Sys2Proof/Laws/Issue.lean ====
section
/-!
SUPPORT. What the issue of an operation does, said once.
-/
namespace Sys2Proof.Machine

theorem modGroup_sansReads (m : Mach) (gid : Nat) (f : Group → Group) :
    (m.modGroup gid f).sansReads = m.sansReads.modGroup gid f := rfl

/-- Reads at issue leave the context, the memories, the lines' owners and the requests as they are. -/
theorem sansReads_parts {m m1 : Mach} (h : m1.sansReads = m.sansReads) :
    m1.ctx = m.ctx ∧ m1.mem = m.mem ∧ m1.own = m.own ∧ m1.net = m.net ∧ m1.cyc = m.cyc ∧ m1.tiles = m.tiles :=
  ⟨congrArg (fun x => x.ctx) h, congrArg (fun x => x.mem) h, congrArg (fun x => x.own) h,
    congrArg (fun x => x.net) h, congrArg (fun x => x.cyc) h, congrArg (fun x => x.tiles) h⟩

theorem flagRoom_run {c : Iss} {m : Mach} (h : ∀ k, c.flag = some k → ((m.group? c.gid).getD c.g).flagCount k ≠ 63) :
    (flagRoom c).run m = .ok () m := by
  unfold flagRoom
  cases hf : c.flag with
  | none => rfl
  | some k =>
    simp only [EStateM.run_bind, curGroup_run]
    rw [if_neg (h k hf)]
    rfl

theorem issueAs_run (c : Iss) (id : Nat) (i : Instr) (cap : Captured) (marks : List Reg) (f : Op → Op) (m : Mach) :
    (issueAs c id i cap marks f).run m =
      .ok () ((m.addOp (f (c.newOp m id i cap))).modGroup c.gid (Group.noteOp id marks c.flag)) := rfl

/-- The issue of an operation that owns no line. -/
theorem issueOp_run {c : Iss} {i : Instr} {cap : Captured} {marks : List Reg} {f : Op → Op} {m : Mach}
    (h : ∀ k, c.flag = some k → ((m.group? c.gid).getD c.g).flagCount k ≠ 63) :
    (issueOp c i cap marks f).run m = .ok m.nextId
      ((({ m with nextId := m.nextId + 1 } : Mach).addOp
        (f (c.newOp { m with nextId := m.nextId + 1 } m.nextId i cap))).modGroup c.gid
          (Group.noteOp m.nextId marks c.flag)) := by
  unfold issueOp
  simp only [EStateM.run_bind, flagRoom_run h, freshId_run, issueAs_run]
  rfl

theorem acquireWait_run {c : Iss} {m : Mach} (h : m.acquiring c.gid = false) : (acquireWait c).run m = .ok () m := by
  unfold acquireWait
  simp only [EStateM.run_bind, EStateM.run_get, h, Bool.and_false, Bool.false_eq_true, if_false]
  rfl

/-- A memory word whose body ends well. -/
theorem memWord_of_starts {i : Instr} {s : State} {b : Start} {body : Iss → M Flow} (h : Starts i s b)
    (ha : b.m.acquiring b.c.gid = false) {m : Mach} (hb : (body b.c).run b.m = .ok b.c.run m) :
    memWord i body s = .next (wordDone i s b (m.modGroup b.c.gid (fun g => g.doom b.c.lanes 6))) := by
  unfold memWord
  rw [runWord_of_starts _ h]
  simp only [EStateM.run_bind, acquireWait_run ha, hb, modCur_run]
  rfl

theorem noteOp_gid (id : Nat) (marks : List Reg) (flag : Option Nat) (g : Group) :
    (g.noteOp id marks flag).gid = g.gid := by
  delta Group.noteOp; with_reducible rfl

theorem doom_gid (g : Group) (mask : Mask) (cause : TxCause) : (g.doom mask cause).gid = g.gid := by
  delta Group.doom; with_reducible rfl

theorem group_addOp (m : Mach) (o : Op) (k : Nat) : (m.addOp o).group? k = m.group? k := rfl

theorem besidesOps_addOp (m : Mach) (o : Op) (k : Nat) : (m.addOp o).besidesOps k = m.besidesOps k := rfl

theorem besidesOps_of_besides {m m' : Mach} {k : Nat} (h : m'.besides k = m.besides k) :
    m'.besidesOps k = m.besidesOps k := by
  unfold Mach.besidesOps
  rw [h]

theorem besidesOps_sansReads {m m' : Mach} {k : Nat} (h : m'.sansReads = m.sansReads) :
    (m'.besidesOps k).sansReads = (m.besidesOps k).sansReads := by
  have : ∀ x : Mach, (x.besidesOps k).sansReads = (x.sansReads.besidesOps k).sansReads := fun x => by
    unfold Mach.besidesOps Mach.besides Mach.sansReads
    dsimp only
    congr 1
    · rw [List.filter_filter]
      congr 1
      funext e
      rw [Bool.and_self]
    · rw [Vector.map_map]
      congr 1
    · rw [Vector.map_map]
      congr 1
      funext u
      unfold TierUnit.sansReads
      simp
    · rw [Vector.map_map]
      congr 1
  rw [this, this m, h]

/-- What a group becomes when an operation is issued in it: marks, flag, doomed transactions. -/
def Group.afterIssue (c : Iss) (id : Nat) (marks : List Reg) (g : Group) : Group :=
  (g.noteOp id marks c.flag).doom c.lanes 6

theorem afterIssue_gid (c : Iss) (id : Nat) (marks : List Reg) (g : Group) : (g.afterIssue c id marks).gid = g.gid := by
  unfold Group.afterIssue; rw [doom_gid, noteOp_gid]

theorem noteOp_fields (id : Nat) (marks : List Reg) (flag : Option Nat) (g : Group) :
    (g.noteOp id marks flag).besideIssue = g.besideIssue ∧ (g.noteOp id marks flag).s = g.s ∧
      (g.noteOp id marks flag).p = g.p ∧ (g.noteOp id marks flag).q = g.q ∧ (g.noteOp id marks flag).v = g.v ∧
      (g.noteOp id marks flag).satf = g.satf ∧ (g.noteOp id marks flag).lanes = g.lanes ∧
      (g.noteOp id marks flag).marks = g.marks ++ marks.map (fun r => (id, r)) ∧
      (g.noteOp id marks flag).k = (match flag with
        | some k => vmod g.k k (· + 1)
        | none => g.k) ∧
      (g.noteOp id marks flag).tx = g.tx := by
  delta Group.noteOp Group.besideIssue Group.beside Group.still
  refine ⟨?_, ?_, ?_, ?_, ?_, ?_, ?_, ?_, ?_, ?_⟩ <;> first
    | with_reducible rfl
    | (cases flag <;> rfl)

theorem doom_fields (mask : Mask) (cause : TxCause) (g : Group) :
    (g.doom mask cause).besideIssue = g.besideIssue ∧ (g.doom mask cause).s = g.s ∧
      (g.doom mask cause).p = g.p ∧ (g.doom mask cause).q = g.q ∧ (g.doom mask cause).v = g.v ∧
      (g.doom mask cause).satf = g.satf ∧ (g.doom mask cause).lanes = g.lanes ∧
      (g.doom mask cause).marks = g.marks ∧ (g.doom mask cause).k = g.k := by
  delta Group.doom Group.besideIssue Group.beside Group.still
  refine ⟨?_, ?_, ?_, ?_, ?_, ?_, ?_, ?_, ?_⟩ <;> with_reducible rfl

/-- Dooming reads the transactions alone. -/
theorem doom_tx {g h : Group} (e : h.tx = g.tx) (mask : Mask) (cause : TxCause) :
    (h.doom mask cause).tx = (g.doom mask cause).tx := by
  delta Group.doom Group.txOf
  dsimp only
  rw [e]

theorem afterIssue_fields (c : Iss) (id : Nat) (marks : List Reg) (g : Group) :
    (g.afterIssue c id marks).besideIssue = g.besideIssue ∧ (g.afterIssue c id marks).s = g.s ∧
      (g.afterIssue c id marks).p = g.p ∧ (g.afterIssue c id marks).q = g.q ∧ (g.afterIssue c id marks).v = g.v ∧
      (g.afterIssue c id marks).satf = g.satf ∧ (g.afterIssue c id marks).lanes = g.lanes ∧
      (g.afterIssue c id marks).marks = g.marks ++ marks.map (fun r => (id, r)) ∧
      (g.afterIssue c id marks).k = (match c.flag with
        | some k => vmod g.k k (· + 1)
        | none => g.k) ∧
      (g.afterIssue c id marks).tx = (g.doom c.lanes 6).tx := by
  obtain ⟨a1, a2, a3, a4, a5, a6, a7, a8, a9, a10⟩ := noteOp_fields id marks c.flag g
  obtain ⟨b1, b2, b3, b4, b5, b6, b7, b8, b9⟩ := doom_fields c.lanes 6 (g.noteOp id marks c.flag)
  unfold Group.afterIssue
  exact ⟨b1.trans a1, b2.trans a2, b3.trans a3, b4.trans a4, b5.trans a5, b6.trans a6, b7.trans a7, b8.trans a8,
    b9.trans a9, doom_tx a10 _ _⟩

theorem find_append_owner (xs ys : List (Line × Nat)) (l : Line) :
    ((xs ++ ys).find? (fun p => p.1 == l)).map (·.2) =
      match (xs.find? (fun p => p.1 == l)).map (·.2) with
      | some o => some o
      | none => (ys.find? (fun p => p.1 == l)).map (·.2) := by
  rw [List.find?_append]
  cases xs.find? (fun p => p.1 == l) <;> rfl

/-- The flags after the issue of an operation. -/
theorem flagCount_note {g g' : Group} {flag : Option Nat}
    (h : g'.k = (match flag with
      | some k => vmod g.k k (· + 1)
      | none => g.k)) (hr : ∀ k, flag = some k → g.flagCount k ≠ 63) (k : Nat) (hk : k < 12) :
    g'.flagCount k = g.flagCount k + if flag = some k then 1 else 0 := by
  unfold Group.flagCount
  rw [h]
  cases flag with
  | none => simp
  | some j =>
    dsimp only
    unfold vmod
    by_cases hj : j = k
    · subst hj
      have hne := hr j rfl
      unfold Group.flagCount at hne
      have hget : vget g.k j 0 = g.k[j] := by unfold vget; rw [dif_pos hk]
      rw [dif_pos hk, if_pos rfl]
      rw [hget] at hne ⊢
      unfold vget
      rw [dif_pos hk]
      simp only [Vector.getElem_set_self]
      have := (g.k[j]).isLt
      have h1 : BitVec.toNat (1 : BitVec 6) = 1 := rfl
      rw [BitVec.toNat_add, h1]
      omega
    · rw [if_neg (by simpa using hj)]
      by_cases hj' : j < 12
      · rw [dif_pos hj']
        unfold vget
        rw [dif_pos hk, dif_pos hk]
        simp [hj]
      · rw [dif_neg hj']; rfl

theorem beside_issue {g h : Group} (e : g.beside = h.beside) : g.besideIssue = h.besideIssue := by
  unfold Group.besideIssue
  rw [e]

/-- What `Group.still` keeps of operations. -/
theorem still_issue {g h : Group} (e : g.still = h.still) : g.marks = h.marks ∧ g.k = h.k ∧ g.tx = h.tx := by
  have f1 : ∀ x : Group, x.still.marks = x.marks := fun x => by delta Group.still; with_reducible rfl
  have f2 : ∀ x : Group, x.still.k = x.k := fun x => by delta Group.still; with_reducible rfl
  have f3 : ∀ x : Group, x.still.tx = x.tx := fun x => by delta Group.still; with_reducible rfl
  exact ⟨by rw [← f1 g, e, f1 h], by rw [← f2 g, e, f2 h], by rw [← f3 g, e, f3 h]⟩

theorem kill_issue (g : Group) (dead : List Nat) :
    (g.kill dead).marks = g.marks ∧ (g.kill dead).k = g.k ∧ (g.kill dead).tx = g.tx := by
  delta Group.kill Group.keepPlaces
  refine ⟨ite_agree Group.marks _ _ _ _ ?_ ?_, ite_agree Group.k _ _ _ _ ?_ ?_, ite_agree Group.tx _ _ _ _ ?_ ?_⟩ <;>
    with_reducible rfl

/-- A memory word whose effect, apart from its group's, leaves the machine `m2` and its group `f` of what it was. -/
theorem memWord_group {i : Instr} {s : State} {b : Start} {body : Iss → M Flow} (he : exec i s = memWord i body s)
    (h : Starts i s b) (ha : b.m.acquiring b.g.gid = false) {m2 : Mach} {f : Group → Group}
    (hf : ∀ g, (f g).gid = g.gid) (hctx : m2.group? b.g.gid = b.m.group? b.g.gid)
    (hb : (body b.c).run b.m = .ok b.c.run (m2.modGroup b.c.gid f)) :
    ∃ t g' t0 w, exec i s = .next t ∧ t.dev = s.dev ∧ t.mach.besides b.g.gid = m2.besides b.g.gid ∧
      t.mach.ctx.ops = m2.ctx.ops ∧ t.mach.group? b.g.gid = some g' ∧ wordSpec i = some t0 ∧
      parts i = some (b.opc, w) ∧
      (let e := (f (b.g.kill (deadRegs b.g b.c.run t0 w))).doom b.c.lanes 6
       g'.still = e.still ∧
        g'.lanes = ((e.enterRegion b.c b.opc).stepLanes b.c.run b.c.header).lanes) := by
  obtain ⟨hc, -, -, -, -, t0, w, -, hs, hw, -, hg⟩ := starts_group h
  have hrun := memWord_of_starts h (by rw [hc]; exact ha) hb
  rw [modGroup_modGroup _ _ _ _ hf] at hrun
  have hfd : ∀ g, ((f g).doom b.c.lanes 6).gid = g.gid := fun g => (doom_gid _ _ _).trans (hf g)
  obtain ⟨h1, h2, h3, g', h4, h5, h6⟩ :=
    endWord_group (i := i) (s := s) (b := b) m2 b.c.run (fun g => (f g).doom b.c.lanes 6) hfd _ (hctx.trans hg) hc
  exact ⟨_, g', t0, w, he.trans hrun, h1, h2, h3, h4, hs, hw, h5, h6⟩

/-- THE ISSUE OF AN OPERATION by a memory word: `new` are the lines that it has just taken. -/
theorem issuedOp {i : Instr} {s : State} {b : Start} {body : Iss → M Flow} (he : exec i s = memWord i body s)
    (h : Starts i s b) (hm : MayIssue b) {m1 : Mach} (e : m1.sansReads = b.m.sansReads) {n : Nat}
    {new : List (Line × Nat)} {o : Op} {marks : List Reg} {f : Group → Group} {ss : List Nat}
    {lines : List Line} (ho : IssuedBy o i b)
    (hl : ∀ l, ((b.m.own ++ new).find? (fun p => p.1 == l)).map (·.2) =
      if l ∈ lines then some o.id else b.m.ownerOf l)
    (hf1 : ∀ g, (f g).gid = g.gid) (hf2 : ∀ g, (f g).besideIssue = g.besideIssue)
    (hf3 : ∀ g, (∀ k, k ∉ ss → (f g).sReg k = g.sReg k) ∧ (f g).p = g.p ∧ (f g).q = g.q ∧ (f g).v = g.v ∧ (f g).satf = g.satf ∧
      (f g).lanes = g.lanes ∧ (f g).marks = g.marks ∧ (f g).k = g.k ∧ (f g).tx = g.tx)
    (hb : (body b.c).run b.m = .ok b.c.run
      ((({ m1 with nextId := n, own := m1.own ++ new } : Mach).addOp o).modGroup b.c.gid
        (fun g => f (g.noteOp o.id marks b.c.flag)))) :
    ∃ t, IssuedOp i s b o marks ss lines t := by
  obtain ⟨hc, -, -, hbes, -⟩ := starts_group h
  obtain ⟨p1, p2, p3, p4, p5, p6⟩ := sansReads_parts e
  obtain ⟨t, g', t0, w, q1, q2, q3, q4, q5, q6, q7, q8⟩ :=
    memWord_group (m2 := ({ m1 with nextId := n, own := m1.own ++ new } : Mach).addOp o)
      (f := fun g => f (g.noteOp o.id marks b.c.flag)) he h hm.1 (fun g => (hf1 _).trans (noteOp_gid _ _ _ _))
      (by
        rw [group_addOp]
        unfold Mach.group?
        dsimp only
        rw [p1]) hb
  dsimp only at q8
  obtain ⟨q8, q9⟩ := q8
  generalize hk : b.g.kill (deadRegs b.g b.c.run t0 w) = k0 at q8 q9
  obtain ⟨k1, k2, k3, k4⟩ := kill_regs b.g (deadRegs b.g b.c.run t0 w)
  obtain ⟨k5, k6, k7⟩ := kill_issue b.g (deadRegs b.g b.c.run t0 w)
  have k8 := kill_beside b.g (deadRegs b.g b.c.run t0 w)
  have k9 := kill_lanes b.g (deadRegs b.g b.c.run t0 w)
  have kv := vStored_kill b.g (deadRegs b.g b.c.run t0 w)
  rw [hk] at k1 k2 k3 k4 k5 k6 k7 k8 k9 kv
  obtain ⟨a1, a2, a3, a4, a5, a6, a7, a8, a9, a10⟩ := noteOp_fields o.id marks b.c.flag k0
  generalize k0.noteOp o.id marks b.c.flag = k10 at a1 a2 a3 a4 a5 a6 a7 a8 a9 a10 q8 q9
  obtain ⟨f1, f2, f3, f4, f5, f6, f7, f8, f9⟩ := hf3 k10
  have fb := hf2 k10
  generalize f k10 = k11 at f1 f2 f3 f4 f5 f6 f7 f8 f9 fb q8 q9
  obtain ⟨d1, d2, d3, d4, d5, d6, d7, d8, d9⟩ := doom_fields b.c.lanes 6 k11
  have dt : (k11.doom b.c.lanes 6).tx = (b.g.doom b.c.lanes 6).tx := doom_tx (f9.trans (a10.trans k7)) _ _
  generalize k11.doom b.c.lanes 6 = k12 at d1 d2 d3 d4 d5 d6 d7 d8 d9 dt q8 q9
  obtain ⟨r1, r2, r3, r4, r5, -⟩ := still_regs q8
  obtain ⟨r6, r7, r8⟩ := still_issue q8
  have hops : ({ m1 with nextId := n, own := m1.own ++ new } : Mach).ctx.ops = s.mach.ctx.ops := by
    show m1.ctx.ops = _
    rw [p1]
    exact congrArg (fun x => x.ctx.ops) hbes
  have hown : b.m.own = s.mach.own := congrArg (fun x => x.own) hbes
  refine ⟨t, q1, q2, ?_, ho, ?_, ?_, g', q5, ?_, ⟨?_, ?_, ?_⟩, ?_, ?_, ?_, ?_, ?_, ?_⟩
  · rw [q4]
    show _ ++ [o] = _
    rw [hops]
  · rw [besidesOps_of_besides q3, besidesOps_addOp, ← besidesOps_of_besides hbes]
    exact besidesOps_sansReads (m' := m1) e
  · intro l
    have : t.mach.own = m1.own ++ new := congrArg (fun x => x.own) q3
    unfold Mach.ownerOf
    rw [this, p3, hl l]
    unfold Mach.ownerOf
    rw [hown]
  · rw [beside_issue (still_beside q8), d1, fb, a1]
    exact beside_issue k8
  · intro j hj
    have c1 : g'.sReg j = k11.sReg j := by unfold Group.sReg; rw [r2, d2]
    have c2 : k10.sReg j = b.g.sReg j := by unfold Group.sReg; rw [a2, k1]
    exact c1.trans ((f1 j hj).trans c2)
  · intro j _; unfold Group.pReg; rw [r3, d3, f2, a3, k2]
  · intro j _; unfold Group.qReg; rw [r4, d4, f3, a4, k3]
  · intro j _
    rw [deadPlaces_eq q6 q7, vStored_congr (r1.trans (d5.trans (f4.trans a5)))]
    exact kv j
  · rw [r5, d6, f5, a6, k4]
  · exact runOnward_of_lanes ((d7.trans (f6.trans a7)).trans k9) q9
  · rw [r6, d8, f7, a8, k5]
  · intro j hj
    refine flagCount_note ?_ hm.2 j hj
    rw [r7, d9, f8, a9, k6]
  · intro l _
    unfold Group.txOf
    rw [r8, dt]

end Sys2Proof.Machine
end

