-- ==== Sys2Proof/Laws/Memory.lean ====
section
/-!
SUPPORT. Memory: a byte that has just been written reads back, every other byte reads as before, and every
operation keeps the canonical form.
-/
namespace Sys2Proof.Machine

/-! ## Cells -/

theorem cellGet_filter (cs : List Host.Cell) (p : Host.Cell → Bool) (a : Nat) (h : ∀ v, p (a, v) = true) :
    cellGet (cs.filter p) a = cellGet cs a := by
  induction cs with
  | nil => rfl
  | cons c r ih =>
    obtain ⟨k, v⟩ := c
    by_cases e : k = a
    · subst e; simp [cellGet, h]
    · by_cases q : p (k, v) = true <;> simp [cellGet, e, q, ih]

theorem cellGet_filter_none (cs : List Host.Cell) (p : Host.Cell → Bool) (a : Nat) (h : ∀ v, p (a, v) = false) :
    cellGet (cs.filter p) a = 0 := by
  induction cs with
  | nil => rfl
  | cons c r ih =>
    obtain ⟨k, v⟩ := c
    by_cases q : p (k, v) = true
    · have e : k ≠ a := fun e => by subst e; simp [h] at q
      simp [cellGet, e, q, ih]
    · simp [q, ih]

theorem cellGet_add (cs : List Host.Cell) (a : Nat) (v : Byte) (x : Nat) (h : ∀ c ∈ cs, c.1 ≠ a) :
    cellGet (cellAdd cs a v) x = if x = a then v else cellGet cs x := by
  induction cs with
  | nil => simp [cellAdd, cellGet, eq_comm]
  | cons c r ih =>
    obtain ⟨k, w⟩ := c
    have hk : k ≠ a := h (k, w) (by simp)
    have ih := ih (fun c hc => h c (by simp [hc]))
    by_cases l : a < k
    · by_cases e : x = a
      · simp [cellAdd, l, cellGet, e]
      · simp [cellAdd, l, cellGet, e, Ne.symm e]
    · by_cases e : k = x
      · subst e; simp [cellAdd, l, cellGet, hk]
      · simp [cellAdd, l, cellGet, e, ih]

/-- A cell reads as what was set last, every other one as before. -/
theorem cellGet_set (cs : List Host.Cell) (a : Nat) (v : Byte) (x : Nat) :
    cellGet (cellSet cs a v) x = if x = a then v else cellGet cs x := by
  have miss : ∀ c ∈ cs.filter (fun c => c.1 != a), c.1 ≠ a := by simp
  by_cases e : x = a
  · subst e
    by_cases z : v = 0
    · subst z
      simp only [cellSet, if_true]
      exact cellGet_filter_none _ _ _ (fun v => by simp)
    · simp only [cellSet, if_neg z, cellGet_add _ _ _ _ miss, if_true]
  · have same : cellGet (cs.filter (fun c => c.1 != a)) x = cellGet cs x :=
      cellGet_filter _ _ _ (fun v => by simpa using e)
    by_cases z : v = 0
    · simp [cellSet, z, e, same]
    · simp only [cellSet, if_neg z, cellGet_add _ _ _ _ miss, if_neg e, same]

/-- The canonical form in the terms of `List.Pairwise`. -/
theorem cellsWf_iff (cs : List Host.Cell) :
    cellsWf cs = true ↔ cs.Pairwise (fun c d => c.1 < d.1) ∧ ∀ c ∈ cs, c.2 ≠ 0 := by
  induction cs with
  | nil => simp [cellsWf]
  | cons c r ih =>
    obtain ⟨k, v⟩ := c
    cases r with
    | nil => simp [cellsWf]
    | cons d r =>
      obtain ⟨k', v'⟩ := d
      simp only [cellsWf, Bool.and_eq_true, ih, bne_iff_ne, decide_eq_true_eq, List.pairwise_cons, List.mem_cons,
        forall_eq_or_imp]
      constructor
      · rintro ⟨⟨hv, hk⟩, ⟨h1, h2⟩, h3, h4⟩
        exact ⟨⟨⟨hk, fun x hx => Nat.lt_trans hk (h1 x hx)⟩, h1, h2⟩, hv, h3, h4⟩
      · rintro ⟨⟨⟨hk, _⟩, h1, h2⟩, hv, h3, h4⟩
        exact ⟨⟨hv, hk⟩, ⟨h1, h2⟩, h3, h4⟩

theorem cellsWf_filter {cs : List Host.Cell} (p : Host.Cell → Bool) (h : cellsWf cs = true) :
    cellsWf (cs.filter p) = true := by
  rw [cellsWf_iff] at *
  exact ⟨h.1.filter p, fun c hc => h.2 c (List.mem_filter.1 hc).1⟩

theorem mem_cellAdd (cs : List Host.Cell) (a : Nat) (v : Byte) (c : Host.Cell) :
    c ∈ cellAdd cs a v ↔ c = (a, v) ∨ c ∈ cs := by
  induction cs with
  | nil => simp [cellAdd]
  | cons d r ih =>
    by_cases l : a < d.1
    · simp [cellAdd, l]
    · simp only [cellAdd, l, if_false, List.mem_cons, ih]
      constructor
      · rintro (h | h | h)
        · exact .inr (.inl h)
        · exact .inl h
        · exact .inr (.inr h)
      · rintro (h | h | h)
        · exact .inr (.inl h)
        · exact .inl h
        · exact .inr (.inr h)

theorem cellsWf_add {cs : List Host.Cell} {a : Nat} {v : Byte} (h : cellsWf cs = true) (hv : v ≠ 0)
    (ha : ∀ c ∈ cs, c.1 ≠ a) : cellsWf (cellAdd cs a v) = true := by
  rw [cellsWf_iff] at *
  refine ⟨?_, fun c hc => ?_⟩
  · induction cs with
    | nil => simp [cellAdd]
    | cons d r ih =>
      have hd : d.1 ≠ a := ha d (by simp)
      obtain ⟨hp, hz⟩ := h
      rw [List.pairwise_cons] at hp
      by_cases l : a < d.1
      · simp only [cellAdd, if_pos l, List.pairwise_cons, List.mem_cons, forall_eq_or_imp]
        exact ⟨⟨l, fun x hx => Nat.lt_trans l (hp.1 x hx)⟩, hp.1, hp.2⟩
      · simp only [cellAdd, l, if_false, List.pairwise_cons]
        refine ⟨fun x hx => ?_, ih ⟨hp.2, fun c hc => hz c (by simp [hc])⟩ (fun c hc => ha c (by simp [hc]))⟩
        rcases (mem_cellAdd r a v x).1 hx with rfl | hx
        · exact Nat.lt_of_le_of_ne (Nat.not_lt.1 l) hd
        · exact hp.1 x hx
  · rcases (mem_cellAdd cs a v c).1 hc with rfl | hc
    · exact hv
    · exact h.2 c hc

/-- Setting a cell keeps the canonical form. -/
theorem cellsWf_set {cs : List Host.Cell} (a : Nat) (v : Byte) (h : cellsWf cs = true) : cellsWf (cellSet cs a v) = true := by
  by_cases z : v = 0
  · simp only [cellSet, z, if_true]; exact cellsWf_filter _ h
  · simp only [cellSet, z, if_false]; exact cellsWf_add (cellsWf_filter _ h) z (by simp)

/-- Erasing a range keeps the canonical form. -/
theorem cellsWf_erase {cs : List Host.Cell} (lo hi : Nat) (h : cellsWf cs = true) : cellsWf (cellErase cs lo hi) = true :=
  cellsWf_filter _ h

/-! ## Unspecified ranges -/

theorem freshAt_append (xs ys : List (Nat × Nat × Nat)) (a : Nat) :
    freshAt (xs ++ ys) a = (freshAt xs a).or (freshAt ys a) := by
  induction xs with
  | nil => rfl
  | cons r xs ih =>
    obtain ⟨lo, hi, n⟩ := r
    simp only [List.cons_append, freshAt, ih]
    split <;> rfl

theorem freshAt_one (lo hi n x : Nat) : freshAt [(lo, hi, n)] x = if lo ≤ x ∧ x < hi then some n else none := by
  simp [freshAt]

theorem freshAt_part (p : Prop) [Decidable p] (lo hi n x : Nat) :
    freshAt (if p then [(lo, hi, n)] else []) x = if p ∧ lo ≤ x ∧ x < hi then some n else none := by
  by_cases h : p <;> simp [h, freshAt]

/-- Taking an address out of the unspecified ranges leaves every other one in its range. -/
theorem freshAt_del (rs : List (Nat × Nat × Nat)) (a x : Nat) :
    freshAt (freshDel rs a) x = if x = a then none else freshAt rs x := by
  induction rs with
  | nil => simp [freshDel, freshAt]
  | cons r rs ih =>
    obtain ⟨lo, hi, n⟩ := r
    have split1 : freshDel ((lo, hi, n) :: rs) a =
        (if lo ≤ a && a < hi then
          (if lo < a then [(lo, a, n)] else []) ++ (if a + 1 < hi then [(a + 1, hi, n)] else [])
        else [(lo, hi, n)]) ++ freshDel rs a := rfl
    have whole : freshAt ((lo, hi, n) :: rs) x = (freshAt [(lo, hi, n)] x).or (freshAt rs x) :=
      freshAt_append [(lo, hi, n)] rs x
    rw [split1, whole, freshAt_append, ih, freshAt_one]
    by_cases c : lo ≤ a ∧ a < hi
    · have c' : (decide (lo ≤ a) && decide (a < hi)) = true := by simpa using c
      rw [if_pos c', freshAt_append, freshAt_part, freshAt_part]
      by_cases e : x = a
      · subst e
        rw [if_pos rfl, if_pos rfl, if_neg (by omega), if_neg (by omega)]; rfl
      · rw [if_neg e, if_neg e]
        by_cases q : lo ≤ x ∧ x < hi
        · rw [if_pos q]
          by_cases l : x < a
          · rw [if_pos (by omega), if_neg (by omega)]; rfl
          · rw [if_neg (by omega), if_pos (by omega)]; rfl
        · rw [if_neg q, if_neg (by omega), if_neg (by omega)]; rfl
    · have c' : ¬ (decide (lo ≤ a) && decide (a < hi)) = true := by simpa using c
      rw [if_neg c', freshAt_one]
      by_cases e : x = a
      · subst e
        rw [if_pos rfl, if_pos rfl, if_neg c]; rfl
      · rw [if_neg e, if_neg e]

/-! ## Stores -/

/-- A store's byte reads as what was set last, every other one as before. -/
theorem Store.get_set (s : Store) (a : Nat) (b : Byte) (x : Nat) :
    (s.set a b).get x = if x = a then b else s.get x := by
  simp only [Store.get, Store.set, freshAt_del, cellGet_set]
  by_cases e : x = a
  · simp [e]
  · simp only [e, if_false]

theorem Store.wf_set {s : Store} (a : Nat) (b : Byte) (h : s.wf = true) : (s.set a b).wf = true := cellsWf_set a b h

theorem Store.wf_placeFresh {s : Store} (lo hi n : Nat) (h : s.wf = true) : (s.placeFresh lo hi n).wf = true :=
  cellsWf_erase lo hi h

theorem Store.wf_zero {s : Store} (lo hi : Nat) (h : s.wf = true) : (s.zero lo hi).wf = true := cellsWf_erase lo hi h

theorem cellsWf_moved {cs : List Host.Cell} (a b n : Nat) (h : cellsWf cs = true) : cellsWf (cellsMoved cs a b n) = true := by
  have w := (cellsWf_iff _).1 (cellsWf_filter (fun c => decide (a ≤ c.1) && decide (c.1 < a + n)) h)
  rw [cellsWf_iff]
  refine ⟨?_, ?_⟩
  · rw [cellsMoved, List.pairwise_map]
    refine w.1.imp_of_mem (fun {c d} hc _ hlt => ?_)
    have q := (List.mem_filter.1 hc).2
    simp only [Bool.and_eq_true, decide_eq_true_eq] at q
    show c.1 - a + b < d.1 - a + b
    omega
  · intro c hc
    obtain ⟨d, hd, rfl⟩ := List.mem_map.1 hc
    exact w.2 d hd

theorem mem_cellsMoved {cs : List Host.Cell} {a b n : Nat} {c : Host.Cell} (h : c ∈ cellsMoved cs a b n) :
    b ≤ c.1 ∧ c.1 < b + n := by
  obtain ⟨d, hd, rfl⟩ := List.mem_map.1 h
  have q := (List.mem_filter.1 hd).2
  simp only [Bool.and_eq_true, decide_eq_true_eq] at q
  show b ≤ d.1 - a + b ∧ d.1 - a + b < b + n
  omega

/-- Copying between stores keeps the canonical form. -/
theorem Store.wf_copyTo {src dst : Store} (a b n : Nat) (hs : src.wf = true) (hd : dst.wf = true) :
    (src.copyTo dst a b n).wf = true := by
  have keep : ∀ (xs : List Nat) (f : Nat → Nat) (g : Nat → Byte) (s : Store), s.wf = true →
      (xs.foldl (fun s x => s.set (f x) (g x)) s).wf = true := by
    intro xs f g
    induction xs with
    | nil => exact fun s h => h
    | cons x xs ih => exact fun s h => ih _ (Store.wf_set _ _ h)
  refine keep _ _ _ _ ?_
  have hm := (cellsWf_iff _).1 (cellsWf_moved a b n hs)
  have hd := (cellsWf_iff _).1 hd
  show cellsWf (dst.cells.filter (fun c => c.1 < b) ++ cellsMoved src.cells a b n ++
    dst.cells.filter (fun c => b + n ≤ c.1)) = true
  rw [cellsWf_iff]
  refine ⟨?_, fun c hc => ?_⟩
  · rw [List.append_assoc, List.pairwise_append, List.pairwise_append]
    refine ⟨hd.1.filter _, ⟨hm.1, hd.1.filter _, fun c hc d hd' => ?_⟩, fun c hc d hd' => ?_⟩
    · have := (mem_cellsMoved hc).2
      have q := (List.mem_filter.1 hd').2
      simp only [decide_eq_true_eq] at q
      omega
    · have q := (List.mem_filter.1 hc).2
      simp only [decide_eq_true_eq] at q
      rcases List.mem_append.1 hd' with h | h
      · have := (mem_cellsMoved h).1
        omega
      · have r := (List.mem_filter.1 h).2
        simp only [decide_eq_true_eq] at r
        omega
  · rcases List.mem_append.1 hc with h | h
    · rcases List.mem_append.1 h with h | h
      · exact hd.2 c (List.mem_filter.1 h).1
      · exact hm.2 c h
    · exact hd.2 c (List.mem_filter.1 h).1

theorem Store.wf_empty : Store.empty.wf = true := rfl

/-! ## The memories -/

/-- The canonical form store by store. -/
theorem Memory.wf_iff (m : Memory) : m.wf = true ↔ ∀ sp, (m.store sp).wf = true := by
  simp only [Memory.wf, Bool.and_eq_true]
  constructor
  · rintro ⟨⟨⟨h1, h2⟩, h3⟩, h4⟩ sp
    cases sp <;> first | assumption | exact Store.wf_empty
  · intro h
    exact ⟨⟨⟨h .hbm, h .die⟩, h .tier⟩, h (.core 0)⟩

theorem Memory.wf_setStore {m : Memory} {s : Store} (sp : Space) (h : m.wf = true) (hs : s.wf = true) :
    (m.setStore sp s).wf = true := by
  simp only [Memory.wf, Bool.and_eq_true] at *
  obtain ⟨⟨⟨h1, h2⟩, h3⟩, h4⟩ := h
  cases sp <;> simp [Memory.setStore, *]

/-- Writing a byte keeps the canonical form. -/
theorem Memory.wf_set {m : Memory} (l : Loc) (b : Byte) (h : m.wf = true) : (m.set l b).wf = true :=
  Memory.wf_setStore _ h (Store.wf_set _ _ ((Memory.wf_iff m).1 h l.space))

/-- Writing bytes keeps the canonical form. -/
theorem Memory.wf_write {m : Memory} (l : Loc) (bs : List Byte) (h : m.wf = true) : (m.write l bs).wf = true := by
  induction bs generalizing m l with
  | nil => exact h
  | cons b r ih => exact ih _ (Memory.wf_set l b h)

/-- Writing under a byte mask keeps the canonical form. -/
theorem Memory.wf_writeMasked {m : Memory} (l : Loc) (bs : List (Nat × Byte)) (h : m.wf = true) :
    (m.writeMasked l bs).wf = true := by
  induction bs generalizing m with
  | nil => exact h
  | cons b r ih => exact ih (Memory.wf_set _ _ h)

theorem Memory.wf_writeNat {m : Memory} (l : Loc) (n x : Nat) (h : m.wf = true) : (m.writeNat l n x).wf = true :=
  Memory.wf_write l _ h

theorem Memory.wf_setPoison {m : Memory} (l : Loc) (on : Bool) (h : m.wf = true) : (m.setPoison l on).wf = true :=
  Memory.wf_setStore _ h ((Memory.wf_iff m).1 h l.space)

theorem Memory.wf_reset : State.reset.mach.mem.wf = true := rfl

/-- Another space's store is as before. -/
theorem Memory.store_setStore_ne (m : Memory) (sp sp' : Space) (s : Store)
    (h : ∀ c d, sp = .core c → sp' = .core d → False) (hne : sp' ≠ sp) : (m.setStore sp s).store sp' = m.store sp' := by
  cases sp <;> cases sp' <;> first | rfl | exact absurd rfl hne | exact (h _ _ rfl rfl).elim

/-- A byte of this device reads as what was written last. -/
theorem Memory.get_set_same (m : Memory) (l : Loc) (b : Byte) (h : ∀ d, l.space ≠ .peer d) : (m.set l b).get l = b := by
  obtain ⟨sp, a⟩ := l
  cases sp with
  | peer d => exact absurd rfl (h d)
  | _ => simp [Memory.set, Memory.get, Memory.setStore, Memory.store, Store.get_set]

/-- A byte of another store, or at another place of the same one, reads as before. -/
theorem Memory.get_set_other (m : Memory) (l k : Loc) (b : Byte)
    (h : ¬ (storeAddr k = storeAddr l ∧ (match k.space, l.space with
      | .core _, .core _ => True
      | x, y => x = y))) : (m.set l b).get k = m.get k := by
  obtain ⟨sp, a⟩ := l
  obtain ⟨sp', a'⟩ := k
  cases sp <;> cases sp' <;>
    simp_all [Memory.set, Memory.get, Memory.setStore, Memory.store, Store.get_set]

/-! ## Parity -/

theorem zero_xor_byte (b : Byte) : 0 ^^^ b = b := BitVec.zero_xor

theorem foldl_xor (f : Nat → Byte) (xs : List Nat) (b : Byte) :
    xs.foldl (fun x a => x ^^^ f a) b = b ^^^ xs.foldl (fun x a => x ^^^ f a) 0 := by
  induction xs generalizing b with
  | nil => simp
  | cons a r ih => rw [List.foldl_cons, List.foldl_cons, ih, ih (0 ^^^ f a), zero_xor_byte, BitVec.xor_assoc]

theorem foldl_xor_without (f : Nat → Byte) (xs : List Nat) (a : Nat) (hn : xs.Nodup) (ha : a ∈ xs) :
    xs.foldl (fun x a => x ^^^ f a) 0 = f a ^^^ (xs.filter (· != a)).foldl (fun x a => x ^^^ f a) 0 := by
  induction xs with
  | nil => cases ha
  | cons b r ih =>
    rw [List.nodup_cons] at hn
    rw [List.foldl_cons, foldl_xor, zero_xor_byte, List.filter_cons]
    by_cases e : b = a
    · subst e
      have : r.filter (· != b) = r := by
        rw [List.filter_eq_self]
        intro x hx
        rw [bne_iff_ne]
        rintro rfl
        exact hn.1 hx
      rw [this]; simp
    · have h2 : (b != a) = true := bne_iff_ne.mpr e
      have h3 : a ∈ r := by
        rcases List.mem_cons.mp ha with h | h
        · exact absurd h.symm e
        · exact h
      rw [h2, if_pos rfl, List.foldl_cons, foldl_xor f _ (0 ^^^ f b), zero_xor_byte, ih hn.2 h3, ← BitVec.xor_assoc,
        ← BitVec.xor_assoc, BitVec.xor_comm (f b)]

theorem parityGroup_nodup (pa : Nat) : (parityGroup pa).Nodup := by
  unfold parityGroup
  refine List.pairwise_map.mpr (List.Pairwise.imp_of_mem ?_ List.nodup_range)
  intro x y hx hy hne h
  apply hne
  rw [List.mem_range] at hx hy
  unfold framePa dataIndex at h
  have h2 : channelOf pa / 16 = 0 ∨ channelOf pa / 16 = 1 := by
    unfold channelOf hbmPlace
    dsimp only
    omega
  rcases h2 with h2 | h2 <;> rw [h2] at h <;> (split at h <;> split at h <;> omega)

theorem mem_parityGroup (pa : Nat) : pa ∈ parityGroup pa := by
  unfold parityGroup
  rw [List.mem_map]
  refine ⟨channelOf pa % 16, ?_, ?_⟩
  · rw [List.mem_range]
    unfold channelOf hbmPlace
    dsimp only
    omega
  · unfold framePa dataIndex rowOf channelOf hbmPlace stackBytes
    dsimp only
    split <;> omega

/-- The other 14 data channels and the parity channel give back every byte (R268, R280). -/
theorem rebuiltByte_eq (m : Memory) (pa : Nat) : rebuiltByte m pa = m.get { space := .hbm, addr := pa } := by
  unfold rebuiltByte parityByte
  rw [foldl_xor, foldl_xor_without _ _ pa (parityGroup_nodup pa) (mem_parityGroup pa), BitVec.xor_assoc, BitVec.xor_self,
    BitVec.xor_zero]
end Sys2Proof.Machine
end

