-- ==== Sys2Proof/Laws/PerInstr.lean ====
section
/-!
SUPPORT. The encoding, instruction by instruction: what an instruction's word decodes to, its fields unchecked.
-/
namespace Sys2Proof.Laws

/-! ## Fields cut out of a word -/

theorem cut_above {m n : Nat} (x : BitVec m) (y : BitVec n) (lo k : Nat) (h : n ≤ lo) :
    (x ++ y).extractLsb' lo k = x.extractLsb' (lo - n) k := by
  refine BitVec.eq_of_getLsbD_eq (fun i hi => ?_)
  rw [BitVec.getLsbD_extractLsb', BitVec.getLsbD_extractLsb', BitVec.getLsbD_append, if_neg (by omega),
    show lo + i - n = lo - n + i by omega]

theorem cut_low {m n : Nat} (x : BitVec m) (y : BitVec n) : (x ++ y).extractLsb' 0 n = y := by
  refine BitVec.eq_of_getLsbD_eq (fun i hi => ?_)
  rw [BitVec.getLsbD_extractLsb', BitVec.getLsbD_append, if_pos (by omega)]
  simp [hi]

theorem cut_all {n : Nat} (x : BitVec n) : x.extractLsb' 0 n = x := by
  refine BitVec.eq_of_getLsbD_eq (fun i hi => ?_)
  simp [hi]

theorem bit_above {m n : Nat} (x : BitVec m) (y : BitVec n) (k : Nat) (h : n ≤ k) :
    (x ++ y).getLsbD k = x.getLsbD (k - n) := by rw [BitVec.getLsbD_append, if_neg (by omega)]

theorem bit_low {m : Nat} (x : BitVec m) (b : Bool) : (x ++ bit b).getLsbD 0 = b := by
  rw [BitVec.getLsbD_append, if_pos (by omega)]; cases b <;> rfl

theorem fieldsG_encode (opc : Nat) (w : WordG) : fieldsG (encodeParts opc (.g w)) = w := by
  obtain ⟨grd, sns, d, a, b, c, lra, lrb, lrc, fsel, co, mod⟩ := w
  simp (disch := decide) only [fieldsG, encodeParts, cut_above, bit_above, Nat.reduceSub, cut_low, bit_low]

theorem fieldsI_encode (opc : Nat) (w : WordI) : fieldsI (encodeParts opc (.i w)) = w := by
  obtain ⟨grd, sns, d, a, imm, lra, res, fsel, co, mod⟩ := w
  simp (disch := decide) only [fieldsI, encodeParts, cut_above, bit_above, Nat.reduceSub, cut_low, bit_low]

theorem fieldsL_encode (opc : Nat) (w : WordL) : fieldsL (encodeParts opc (.l w)) = w := by
  obtain ⟨grd, sns, d, imm⟩ := w
  simp (disch := decide) only [fieldsL, encodeParts, cut_above, bit_above, Nat.reduceSub, cut_low, bit_low]

theorem fieldsJ_encode (opc : Nat) (w : WordJ) : fieldsJ (encodeParts opc (.j w)) = w := by
  obtain ⟨grd, sns, d, off, jmod⟩ := w
  simp (disch := decide) only [fieldsJ, encodeParts, cut_above, bit_above, Nat.reduceSub, cut_low, bit_low]

theorem fieldsHeader_encode (h : Header) : fieldsHeader (encodeHeader h) = h := by
  obtain ⟨cnt, ecls, wait, fav, fa, fbv, fb, reg, y, swp, res⟩ := h
  simp (disch := decide) only [fieldsHeader, encodeHeader, cut_above, bit_above, Nat.reduceSub, cut_low, bit_low]

theorem opcode_encode (opc : Nat) (w : AnyWord) (h : opc < 1024) : bitsAt (encodeParts opc w) 54 10 = opc := by
  cases w <;>
  · simp (disch := decide) only [bitsAt, encodeParts, cut_above, Nat.reduceSub, cut_all]
    rw [BitVec.toNat_ofNat]
    exact Nat.mod_eq_of_lt h

theorem sig_encode (opc : Nat) (w : AnyWord) : isHeader (encodeParts opc w) = ((BitVec.ofNat 10 opc).extractLsb' 6 4 == 0b1101#4) := by
  cases w <;> simp (disch := decide) only [isHeader, encodeParts, cut_above, Nat.reduceSub]

theorem sig_header (h : Header) : isHeader (encodeHeader h) = true := by
  simp (disch := decide) only [isHeader, encodeHeader, cut_above, Nat.reduceSub]
  rfl

/-- From a word's parts to what its encoding decodes to. -/
theorem decode_parts (opc : Nat) (w : AnyWord) (h : opc < 1024) (n : ((BitVec.ofNat 10 opc).extractLsb' 6 4 == 0b1101#4) = false) :
    decodeFields (encodeParts opc w) = ofOpcode opc (encodeParts opc w) := by
  rw [decodeFields, sig_encode, n, if_neg (by simp), opcode_encode opc w h]

/-! ## One lemma per constructor -/

/-- If an instruction has a word, the word's opcode and fields are its own. A step of the device has none. -/
def RoundTrip.Statement (i : Instr) : Prop := ∀ x, encode i = some x → decodeFields x = some i

theorem RoundTrip.bra (w : WordJ) : RoundTrip.Statement (.bra w) := by
  intro x e
  cases (Option.some.inj e : encodeParts 0x000 (.j w) = x)
  exact (decode_parts _ _ (by decide) (by decide)).trans (congrArg (fun w => some (Instr.bra w)) (fieldsJ_encode _ _))
theorem RoundTrip.jmp (w : WordJ) : RoundTrip.Statement (.jmp w) := by
  intro x e
  cases (Option.some.inj e : encodeParts 0x001 (.j w) = x)
  exact (decode_parts _ _ (by decide) (by decide)).trans (congrArg (fun w => some (Instr.jmp w)) (fieldsJ_encode _ _))
theorem RoundTrip.ubra (w : WordJ) : RoundTrip.Statement (.ubra w) := by
  intro x e
  cases (Option.some.inj e : encodeParts 0x002 (.j w) = x)
  exact (decode_parts _ _ (by decide) (by decide)).trans (congrArg (fun w => some (Instr.ubra w)) (fieldsJ_encode _ _))
theorem RoundTrip.brx (w : WordG) : RoundTrip.Statement (.brx w) := by
  intro x e
  cases (Option.some.inj e : encodeParts 0x003 (.g w) = x)
  exact (decode_parts _ _ (by decide) (by decide)).trans (congrArg (fun w => some (Instr.brx w)) (fieldsG_encode _ _))
theorem RoundTrip.call (w : WordJ) : RoundTrip.Statement (.call w) := by
  intro x e
  cases (Option.some.inj e : encodeParts 0x004 (.j w) = x)
  exact (decode_parts _ _ (by decide) (by decide)).trans (congrArg (fun w => some (Instr.call w)) (fieldsJ_encode _ _))
theorem RoundTrip.callx (w : WordG) : RoundTrip.Statement (.callx w) := by
  intro x e
  cases (Option.some.inj e : encodeParts 0x005 (.g w) = x)
  exact (decode_parts _ _ (by decide) (by decide)).trans (congrArg (fun w => some (Instr.callx w)) (fieldsG_encode _ _))
theorem RoundTrip.ret (w : WordG) : RoundTrip.Statement (.ret w) := by
  intro x e
  cases (Option.some.inj e : encodeParts 0x006 (.g w) = x)
  exact (decode_parts _ _ (by decide) (by decide)).trans (congrArg (fun w => some (Instr.ret w)) (fieldsG_encode _ _))
theorem RoundTrip.unwind (w : WordI) : RoundTrip.Statement (.unwind w) := by
  intro x e
  cases (Option.some.inj e : encodeParts 0x007 (.i w) = x)
  exact (decode_parts _ _ (by decide) (by decide)).trans (congrArg (fun w => some (Instr.unwind w)) (fieldsI_encode _ _))
theorem RoundTrip.exit (w : WordG) : RoundTrip.Statement (.exit w) := by
  intro x e
  cases (Option.some.inj e : encodeParts 0x008 (.g w) = x)
  exact (decode_parts _ _ (by decide) (by decide)).trans (congrArg (fun w => some (Instr.exit w)) (fieldsG_encode _ _))
theorem RoundTrip.nop (w : WordG) : RoundTrip.Statement (.nop w) := by
  intro x e
  cases (Option.some.inj e : encodeParts 0x009 (.g w) = x)
  exact (decode_parts _ _ (by decide) (by decide)).trans (congrArg (fun w => some (Instr.nop w)) (fieldsG_encode _ _))
theorem RoundTrip.yield (w : WordG) : RoundTrip.Statement (.yield w) := by
  intro x e
  cases (Option.some.inj e : encodeParts 0x00A (.g w) = x)
  exact (decode_parts _ _ (by decide) (by decide)).trans (congrArg (fun w => some (Instr.yield w)) (fieldsG_encode _ _))
theorem RoundTrip.sleep (w : WordG) : RoundTrip.Statement (.sleep w) := by
  intro x e
  cases (Option.some.inj e : encodeParts 0x00B (.g w) = x)
  exact (decode_parts _ _ (by decide) (by decide)).trans (congrArg (fun w => some (Instr.sleep w)) (fieldsG_encode _ _))
theorem RoundTrip.bkpt (w : WordI) : RoundTrip.Statement (.bkpt w) := by
  intro x e
  cases (Option.some.inj e : encodeParts 0x00C (.i w) = x)
  exact (decode_parts _ _ (by decide) (by decide)).trans (congrArg (fun w => some (Instr.bkpt w)) (fieldsI_encode _ _))
theorem RoundTrip.trap (w : WordI) : RoundTrip.Statement (.trap w) := by
  intro x e
  cases (Option.some.inj e : encodeParts 0x00D (.i w) = x)
  exact (decode_parts _ _ (by decide) (by decide)).trans (congrArg (fun w => some (Instr.trap w)) (fieldsI_encode _ _))
theorem RoundTrip.tret (w : WordG) : RoundTrip.Statement (.tret w) := by
  intro x e
  cases (Option.some.inj e : encodeParts 0x00E (.g w) = x)
  exact (decode_parts _ _ (by decide) (by decide)).trans (congrArg (fun w => some (Instr.tret w)) (fieldsG_encode _ _))
theorem RoundTrip.sread (w : WordI) : RoundTrip.Statement (.sread w) := by
  intro x e
  cases (Option.some.inj e : encodeParts 0x00F (.i w) = x)
  exact (decode_parts _ _ (by decide) (by decide)).trans (congrArg (fun w => some (Instr.sread w)) (fieldsI_encode _ _))
theorem RoundTrip.swrite (w : WordI) : RoundTrip.Statement (.swrite w) := by
  intro x e
  cases (Option.some.inj e : encodeParts 0x010 (.i w) = x)
  exact (decode_parts _ _ (by decide) (by decide)).trans (congrArg (fun w => some (Instr.swrite w)) (fieldsI_encode _ _))
theorem RoundTrip.launch (w : WordG) : RoundTrip.Statement (.launch w) := by
  intro x e
  cases (Option.some.inj e : encodeParts 0x011 (.g w) = x)
  exact (decode_parts _ _ (by decide) (by decide)).trans (congrArg (fun w => some (Instr.launch w)) (fieldsG_encode _ _))
theorem RoundTrip.fetchw (w : WordG) : RoundTrip.Statement (.fetchw w) := by
  intro x e
  cases (Option.some.inj e : encodeParts 0x012 (.g w) = x)
  exact (decode_parts _ _ (by decide) (by decide)).trans (congrArg (fun w => some (Instr.fetchw w)) (fieldsG_encode _ _))
theorem RoundTrip.sadd (w : WordG) : RoundTrip.Statement (.sadd w) := by
  intro x e
  cases (Option.some.inj e : encodeParts 0x080 (.g w) = x)
  exact (decode_parts _ _ (by decide) (by decide)).trans (congrArg (fun w => some (Instr.sadd w)) (fieldsG_encode _ _))
theorem RoundTrip.saddI (w : WordI) : RoundTrip.Statement (.saddI w) := by
  intro x e
  cases (Option.some.inj e : encodeParts 0x0C0 (.i w) = x)
  exact (decode_parts _ _ (by decide) (by decide)).trans (congrArg (fun w => some (Instr.saddI w)) (fieldsI_encode _ _))
theorem RoundTrip.ssub (w : WordG) : RoundTrip.Statement (.ssub w) := by
  intro x e
  cases (Option.some.inj e : encodeParts 0x081 (.g w) = x)
  exact (decode_parts _ _ (by decide) (by decide)).trans (congrArg (fun w => some (Instr.ssub w)) (fieldsG_encode _ _))
theorem RoundTrip.ssubI (w : WordI) : RoundTrip.Statement (.ssubI w) := by
  intro x e
  cases (Option.some.inj e : encodeParts 0x0C1 (.i w) = x)
  exact (decode_parts _ _ (by decide) (by decide)).trans (congrArg (fun w => some (Instr.ssubI w)) (fieldsI_encode _ _))
theorem RoundTrip.smul (w : WordG) : RoundTrip.Statement (.smul w) := by
  intro x e
  cases (Option.some.inj e : encodeParts 0x082 (.g w) = x)
  exact (decode_parts _ _ (by decide) (by decide)).trans (congrArg (fun w => some (Instr.smul w)) (fieldsG_encode _ _))
theorem RoundTrip.smulI (w : WordI) : RoundTrip.Statement (.smulI w) := by
  intro x e
  cases (Option.some.inj e : encodeParts 0x0C2 (.i w) = x)
  exact (decode_parts _ _ (by decide) (by decide)).trans (congrArg (fun w => some (Instr.smulI w)) (fieldsI_encode _ _))
theorem RoundTrip.smulh (w : WordG) : RoundTrip.Statement (.smulh w) := by
  intro x e
  cases (Option.some.inj e : encodeParts 0x083 (.g w) = x)
  exact (decode_parts _ _ (by decide) (by decide)).trans (congrArg (fun w => some (Instr.smulh w)) (fieldsG_encode _ _))
theorem RoundTrip.smad (w : WordG) : RoundTrip.Statement (.smad w) := by
  intro x e
  cases (Option.some.inj e : encodeParts 0x084 (.g w) = x)
  exact (decode_parts _ _ (by decide) (by decide)).trans (congrArg (fun w => some (Instr.smad w)) (fieldsG_encode _ _))
theorem RoundTrip.sand (w : WordG) : RoundTrip.Statement (.sand w) := by
  intro x e
  cases (Option.some.inj e : encodeParts 0x085 (.g w) = x)
  exact (decode_parts _ _ (by decide) (by decide)).trans (congrArg (fun w => some (Instr.sand w)) (fieldsG_encode _ _))
theorem RoundTrip.sandI (w : WordI) : RoundTrip.Statement (.sandI w) := by
  intro x e
  cases (Option.some.inj e : encodeParts 0x0C5 (.i w) = x)
  exact (decode_parts _ _ (by decide) (by decide)).trans (congrArg (fun w => some (Instr.sandI w)) (fieldsI_encode _ _))
theorem RoundTrip.sor (w : WordG) : RoundTrip.Statement (.sor w) := by
  intro x e
  cases (Option.some.inj e : encodeParts 0x086 (.g w) = x)
  exact (decode_parts _ _ (by decide) (by decide)).trans (congrArg (fun w => some (Instr.sor w)) (fieldsG_encode _ _))
theorem RoundTrip.sorI (w : WordI) : RoundTrip.Statement (.sorI w) := by
  intro x e
  cases (Option.some.inj e : encodeParts 0x0C6 (.i w) = x)
  exact (decode_parts _ _ (by decide) (by decide)).trans (congrArg (fun w => some (Instr.sorI w)) (fieldsI_encode _ _))
theorem RoundTrip.sxor (w : WordG) : RoundTrip.Statement (.sxor w) := by
  intro x e
  cases (Option.some.inj e : encodeParts 0x087 (.g w) = x)
  exact (decode_parts _ _ (by decide) (by decide)).trans (congrArg (fun w => some (Instr.sxor w)) (fieldsG_encode _ _))
theorem RoundTrip.sxorI (w : WordI) : RoundTrip.Statement (.sxorI w) := by
  intro x e
  cases (Option.some.inj e : encodeParts 0x0C7 (.i w) = x)
  exact (decode_parts _ _ (by decide) (by decide)).trans (congrArg (fun w => some (Instr.sxorI w)) (fieldsI_encode _ _))
theorem RoundTrip.snot (w : WordG) : RoundTrip.Statement (.snot w) := by
  intro x e
  cases (Option.some.inj e : encodeParts 0x088 (.g w) = x)
  exact (decode_parts _ _ (by decide) (by decide)).trans (congrArg (fun w => some (Instr.snot w)) (fieldsG_encode _ _))
theorem RoundTrip.sshl (w : WordG) : RoundTrip.Statement (.sshl w) := by
  intro x e
  cases (Option.some.inj e : encodeParts 0x089 (.g w) = x)
  exact (decode_parts _ _ (by decide) (by decide)).trans (congrArg (fun w => some (Instr.sshl w)) (fieldsG_encode _ _))
theorem RoundTrip.sshlI (w : WordI) : RoundTrip.Statement (.sshlI w) := by
  intro x e
  cases (Option.some.inj e : encodeParts 0x0C9 (.i w) = x)
  exact (decode_parts _ _ (by decide) (by decide)).trans (congrArg (fun w => some (Instr.sshlI w)) (fieldsI_encode _ _))
theorem RoundTrip.sshr (w : WordG) : RoundTrip.Statement (.sshr w) := by
  intro x e
  cases (Option.some.inj e : encodeParts 0x08A (.g w) = x)
  exact (decode_parts _ _ (by decide) (by decide)).trans (congrArg (fun w => some (Instr.sshr w)) (fieldsG_encode _ _))
theorem RoundTrip.sshrI (w : WordI) : RoundTrip.Statement (.sshrI w) := by
  intro x e
  cases (Option.some.inj e : encodeParts 0x0CA (.i w) = x)
  exact (decode_parts _ _ (by decide) (by decide)).trans (congrArg (fun w => some (Instr.sshrI w)) (fieldsI_encode _ _))
theorem RoundTrip.smin (w : WordG) : RoundTrip.Statement (.smin w) := by
  intro x e
  cases (Option.some.inj e : encodeParts 0x08B (.g w) = x)
  exact (decode_parts _ _ (by decide) (by decide)).trans (congrArg (fun w => some (Instr.smin w)) (fieldsG_encode _ _))
theorem RoundTrip.sminI (w : WordI) : RoundTrip.Statement (.sminI w) := by
  intro x e
  cases (Option.some.inj e : encodeParts 0x0CB (.i w) = x)
  exact (decode_parts _ _ (by decide) (by decide)).trans (congrArg (fun w => some (Instr.sminI w)) (fieldsI_encode _ _))
theorem RoundTrip.smax (w : WordG) : RoundTrip.Statement (.smax w) := by
  intro x e
  cases (Option.some.inj e : encodeParts 0x08C (.g w) = x)
  exact (decode_parts _ _ (by decide) (by decide)).trans (congrArg (fun w => some (Instr.smax w)) (fieldsG_encode _ _))
theorem RoundTrip.smaxI (w : WordI) : RoundTrip.Statement (.smaxI w) := by
  intro x e
  cases (Option.some.inj e : encodeParts 0x0CC (.i w) = x)
  exact (decode_parts _ _ (by decide) (by decide)).trans (congrArg (fun w => some (Instr.smaxI w)) (fieldsI_encode _ _))
theorem RoundTrip.ssel (w : WordG) : RoundTrip.Statement (.ssel w) := by
  intro x e
  cases (Option.some.inj e : encodeParts 0x08D (.g w) = x)
  exact (decode_parts _ _ (by decide) (by decide)).trans (congrArg (fun w => some (Instr.ssel w)) (fieldsG_encode _ _))
theorem RoundTrip.scmp (w : WordG) : RoundTrip.Statement (.scmp w) := by
  intro x e
  cases (Option.some.inj e : encodeParts 0x08E (.g w) = x)
  exact (decode_parts _ _ (by decide) (by decide)).trans (congrArg (fun w => some (Instr.scmp w)) (fieldsG_encode _ _))
theorem RoundTrip.scmpI (w : WordI) : RoundTrip.Statement (.scmpI w) := by
  intro x e
  cases (Option.some.inj e : encodeParts 0x0CE (.i w) = x)
  exact (decode_parts _ _ (by decide) (by decide)).trans (congrArg (fun w => some (Instr.scmpI w)) (fieldsI_encode _ _))
theorem RoundTrip.smov (w : WordG) : RoundTrip.Statement (.smov w) := by
  intro x e
  cases (Option.some.inj e : encodeParts 0x08F (.g w) = x)
  exact (decode_parts _ _ (by decide) (by decide)).trans (congrArg (fun w => some (Instr.smov w)) (fieldsG_encode _ _))
theorem RoundTrip.smovi (w : WordL) : RoundTrip.Statement (.smovi w) := by
  intro x e
  cases (Option.some.inj e : encodeParts 0x090 (.l w) = x)
  exact (decode_parts _ _ (by decide) (by decide)).trans (congrArg (fun w => some (Instr.smovi w)) (fieldsL_encode _ _))
theorem RoundTrip.sbfe (w : WordG) : RoundTrip.Statement (.sbfe w) := by
  intro x e
  cases (Option.some.inj e : encodeParts 0x091 (.g w) = x)
  exact (decode_parts _ _ (by decide) (by decide)).trans (congrArg (fun w => some (Instr.sbfe w)) (fieldsG_encode _ _))
theorem RoundTrip.sbfi (w : WordG) : RoundTrip.Statement (.sbfi w) := by
  intro x e
  cases (Option.some.inj e : encodeParts 0x092 (.g w) = x)
  exact (decode_parts _ _ (by decide) (by decide)).trans (congrArg (fun w => some (Instr.sbfi w)) (fieldsG_encode _ _))
theorem RoundTrip.spopc (w : WordG) : RoundTrip.Statement (.spopc w) := by
  intro x e
  cases (Option.some.inj e : encodeParts 0x093 (.g w) = x)
  exact (decode_parts _ _ (by decide) (by decide)).trans (congrArg (fun w => some (Instr.spopc w)) (fieldsG_encode _ _))
theorem RoundTrip.sclz (w : WordG) : RoundTrip.Statement (.sclz w) := by
  intro x e
  cases (Option.some.inj e : encodeParts 0x094 (.g w) = x)
  exact (decode_parts _ _ (by decide) (by decide)).trans (congrArg (fun w => some (Instr.sclz w)) (fieldsG_encode _ _))
theorem RoundTrip.saddr (w : WordG) : RoundTrip.Statement (.saddr w) := by
  intro x e
  cases (Option.some.inj e : encodeParts 0x095 (.g w) = x)
  exact (decode_parts _ _ (by decide) (by decide)).trans (congrArg (fun w => some (Instr.saddr w)) (fieldsG_encode _ _))
theorem RoundTrip.sldc (w : WordI) : RoundTrip.Statement (.sldc w) := by
  intro x e
  cases (Option.some.inj e : encodeParts 0x096 (.i w) = x)
  exact (decode_parts _ _ (by decide) (by decide)).trans (congrArg (fun w => some (Instr.sldc w)) (fieldsI_encode _ _))
theorem RoundTrip.vadd (w : WordG) : RoundTrip.Statement (.vadd w) := by
  intro x e
  cases (Option.some.inj e : encodeParts 0x100 (.g w) = x)
  exact (decode_parts _ _ (by decide) (by decide)).trans (congrArg (fun w => some (Instr.vadd w)) (fieldsG_encode _ _))
theorem RoundTrip.vaddI (w : WordI) : RoundTrip.Statement (.vaddI w) := by
  intro x e
  cases (Option.some.inj e : encodeParts 0x140 (.i w) = x)
  exact (decode_parts _ _ (by decide) (by decide)).trans (congrArg (fun w => some (Instr.vaddI w)) (fieldsI_encode _ _))
theorem RoundTrip.vsub (w : WordG) : RoundTrip.Statement (.vsub w) := by
  intro x e
  cases (Option.some.inj e : encodeParts 0x101 (.g w) = x)
  exact (decode_parts _ _ (by decide) (by decide)).trans (congrArg (fun w => some (Instr.vsub w)) (fieldsG_encode _ _))
theorem RoundTrip.vsubI (w : WordI) : RoundTrip.Statement (.vsubI w) := by
  intro x e
  cases (Option.some.inj e : encodeParts 0x141 (.i w) = x)
  exact (decode_parts _ _ (by decide) (by decide)).trans (congrArg (fun w => some (Instr.vsubI w)) (fieldsI_encode _ _))
theorem RoundTrip.vmul (w : WordG) : RoundTrip.Statement (.vmul w) := by
  intro x e
  cases (Option.some.inj e : encodeParts 0x102 (.g w) = x)
  exact (decode_parts _ _ (by decide) (by decide)).trans (congrArg (fun w => some (Instr.vmul w)) (fieldsG_encode _ _))
theorem RoundTrip.vmulI (w : WordI) : RoundTrip.Statement (.vmulI w) := by
  intro x e
  cases (Option.some.inj e : encodeParts 0x142 (.i w) = x)
  exact (decode_parts _ _ (by decide) (by decide)).trans (congrArg (fun w => some (Instr.vmulI w)) (fieldsI_encode _ _))
theorem RoundTrip.vmulh (w : WordG) : RoundTrip.Statement (.vmulh w) := by
  intro x e
  cases (Option.some.inj e : encodeParts 0x103 (.g w) = x)
  exact (decode_parts _ _ (by decide) (by decide)).trans (congrArg (fun w => some (Instr.vmulh w)) (fieldsG_encode _ _))
theorem RoundTrip.vmad (w : WordG) : RoundTrip.Statement (.vmad w) := by
  intro x e
  cases (Option.some.inj e : encodeParts 0x104 (.g w) = x)
  exact (decode_parts _ _ (by decide) (by decide)).trans (congrArg (fun w => some (Instr.vmad w)) (fieldsG_encode _ _))
theorem RoundTrip.vmin (w : WordG) : RoundTrip.Statement (.vmin w) := by
  intro x e
  cases (Option.some.inj e : encodeParts 0x105 (.g w) = x)
  exact (decode_parts _ _ (by decide) (by decide)).trans (congrArg (fun w => some (Instr.vmin w)) (fieldsG_encode _ _))
theorem RoundTrip.vminI (w : WordI) : RoundTrip.Statement (.vminI w) := by
  intro x e
  cases (Option.some.inj e : encodeParts 0x145 (.i w) = x)
  exact (decode_parts _ _ (by decide) (by decide)).trans (congrArg (fun w => some (Instr.vminI w)) (fieldsI_encode _ _))
theorem RoundTrip.vmax (w : WordG) : RoundTrip.Statement (.vmax w) := by
  intro x e
  cases (Option.some.inj e : encodeParts 0x106 (.g w) = x)
  exact (decode_parts _ _ (by decide) (by decide)).trans (congrArg (fun w => some (Instr.vmax w)) (fieldsG_encode _ _))
theorem RoundTrip.vmaxI (w : WordI) : RoundTrip.Statement (.vmaxI w) := by
  intro x e
  cases (Option.some.inj e : encodeParts 0x146 (.i w) = x)
  exact (decode_parts _ _ (by decide) (by decide)).trans (congrArg (fun w => some (Instr.vmaxI w)) (fieldsI_encode _ _))
theorem RoundTrip.vabs (w : WordG) : RoundTrip.Statement (.vabs w) := by
  intro x e
  cases (Option.some.inj e : encodeParts 0x107 (.g w) = x)
  exact (decode_parts _ _ (by decide) (by decide)).trans (congrArg (fun w => some (Instr.vabs w)) (fieldsG_encode _ _))
theorem RoundTrip.vneg (w : WordG) : RoundTrip.Statement (.vneg w) := by
  intro x e
  cases (Option.some.inj e : encodeParts 0x108 (.g w) = x)
  exact (decode_parts _ _ (by decide) (by decide)).trans (congrArg (fun w => some (Instr.vneg w)) (fieldsG_encode _ _))
theorem RoundTrip.vand (w : WordG) : RoundTrip.Statement (.vand w) := by
  intro x e
  cases (Option.some.inj e : encodeParts 0x109 (.g w) = x)
  exact (decode_parts _ _ (by decide) (by decide)).trans (congrArg (fun w => some (Instr.vand w)) (fieldsG_encode _ _))
theorem RoundTrip.vandI (w : WordI) : RoundTrip.Statement (.vandI w) := by
  intro x e
  cases (Option.some.inj e : encodeParts 0x149 (.i w) = x)
  exact (decode_parts _ _ (by decide) (by decide)).trans (congrArg (fun w => some (Instr.vandI w)) (fieldsI_encode _ _))
theorem RoundTrip.vor (w : WordG) : RoundTrip.Statement (.vor w) := by
  intro x e
  cases (Option.some.inj e : encodeParts 0x10A (.g w) = x)
  exact (decode_parts _ _ (by decide) (by decide)).trans (congrArg (fun w => some (Instr.vor w)) (fieldsG_encode _ _))
theorem RoundTrip.vorI (w : WordI) : RoundTrip.Statement (.vorI w) := by
  intro x e
  cases (Option.some.inj e : encodeParts 0x14A (.i w) = x)
  exact (decode_parts _ _ (by decide) (by decide)).trans (congrArg (fun w => some (Instr.vorI w)) (fieldsI_encode _ _))
theorem RoundTrip.vxor (w : WordG) : RoundTrip.Statement (.vxor w) := by
  intro x e
  cases (Option.some.inj e : encodeParts 0x10B (.g w) = x)
  exact (decode_parts _ _ (by decide) (by decide)).trans (congrArg (fun w => some (Instr.vxor w)) (fieldsG_encode _ _))
theorem RoundTrip.vxorI (w : WordI) : RoundTrip.Statement (.vxorI w) := by
  intro x e
  cases (Option.some.inj e : encodeParts 0x14B (.i w) = x)
  exact (decode_parts _ _ (by decide) (by decide)).trans (congrArg (fun w => some (Instr.vxorI w)) (fieldsI_encode _ _))
theorem RoundTrip.vnot (w : WordG) : RoundTrip.Statement (.vnot w) := by
  intro x e
  cases (Option.some.inj e : encodeParts 0x10C (.g w) = x)
  exact (decode_parts _ _ (by decide) (by decide)).trans (congrArg (fun w => some (Instr.vnot w)) (fieldsG_encode _ _))
theorem RoundTrip.vshl (w : WordG) : RoundTrip.Statement (.vshl w) := by
  intro x e
  cases (Option.some.inj e : encodeParts 0x10D (.g w) = x)
  exact (decode_parts _ _ (by decide) (by decide)).trans (congrArg (fun w => some (Instr.vshl w)) (fieldsG_encode _ _))
theorem RoundTrip.vshlI (w : WordI) : RoundTrip.Statement (.vshlI w) := by
  intro x e
  cases (Option.some.inj e : encodeParts 0x14D (.i w) = x)
  exact (decode_parts _ _ (by decide) (by decide)).trans (congrArg (fun w => some (Instr.vshlI w)) (fieldsI_encode _ _))
theorem RoundTrip.vshr (w : WordG) : RoundTrip.Statement (.vshr w) := by
  intro x e
  cases (Option.some.inj e : encodeParts 0x10E (.g w) = x)
  exact (decode_parts _ _ (by decide) (by decide)).trans (congrArg (fun w => some (Instr.vshr w)) (fieldsG_encode _ _))
theorem RoundTrip.vshrI (w : WordI) : RoundTrip.Statement (.vshrI w) := by
  intro x e
  cases (Option.some.inj e : encodeParts 0x14E (.i w) = x)
  exact (decode_parts _ _ (by decide) (by decide)).trans (congrArg (fun w => some (Instr.vshrI w)) (fieldsI_encode _ _))
theorem RoundTrip.vshrr (w : WordG) : RoundTrip.Statement (.vshrr w) := by
  intro x e
  cases (Option.some.inj e : encodeParts 0x10F (.g w) = x)
  exact (decode_parts _ _ (by decide) (by decide)).trans (congrArg (fun w => some (Instr.vshrr w)) (fieldsG_encode _ _))
theorem RoundTrip.vshrrI (w : WordI) : RoundTrip.Statement (.vshrrI w) := by
  intro x e
  cases (Option.some.inj e : encodeParts 0x14F (.i w) = x)
  exact (decode_parts _ _ (by decide) (by decide)).trans (congrArg (fun w => some (Instr.vshrrI w)) (fieldsI_encode _ _))
theorem RoundTrip.vbfe (w : WordG) : RoundTrip.Statement (.vbfe w) := by
  intro x e
  cases (Option.some.inj e : encodeParts 0x110 (.g w) = x)
  exact (decode_parts _ _ (by decide) (by decide)).trans (congrArg (fun w => some (Instr.vbfe w)) (fieldsG_encode _ _))
theorem RoundTrip.vbfi (w : WordG) : RoundTrip.Statement (.vbfi w) := by
  intro x e
  cases (Option.some.inj e : encodeParts 0x111 (.g w) = x)
  exact (decode_parts _ _ (by decide) (by decide)).trans (congrArg (fun w => some (Instr.vbfi w)) (fieldsG_encode _ _))
theorem RoundTrip.vpopc (w : WordG) : RoundTrip.Statement (.vpopc w) := by
  intro x e
  cases (Option.some.inj e : encodeParts 0x112 (.g w) = x)
  exact (decode_parts _ _ (by decide) (by decide)).trans (congrArg (fun w => some (Instr.vpopc w)) (fieldsG_encode _ _))
theorem RoundTrip.vclz (w : WordG) : RoundTrip.Statement (.vclz w) := by
  intro x e
  cases (Option.some.inj e : encodeParts 0x113 (.g w) = x)
  exact (decode_parts _ _ (by decide) (by decide)).trans (congrArg (fun w => some (Instr.vclz w)) (fieldsG_encode _ _))
theorem RoundTrip.vsel (w : WordG) : RoundTrip.Statement (.vsel w) := by
  intro x e
  cases (Option.some.inj e : encodeParts 0x114 (.g w) = x)
  exact (decode_parts _ _ (by decide) (by decide)).trans (congrArg (fun w => some (Instr.vsel w)) (fieldsG_encode _ _))
theorem RoundTrip.vcmp (w : WordG) : RoundTrip.Statement (.vcmp w) := by
  intro x e
  cases (Option.some.inj e : encodeParts 0x115 (.g w) = x)
  exact (decode_parts _ _ (by decide) (by decide)).trans (congrArg (fun w => some (Instr.vcmp w)) (fieldsG_encode _ _))
theorem RoundTrip.vcmpI (w : WordI) : RoundTrip.Statement (.vcmpI w) := by
  intro x e
  cases (Option.some.inj e : encodeParts 0x155 (.i w) = x)
  exact (decode_parts _ _ (by decide) (by decide)).trans (congrArg (fun w => some (Instr.vcmpI w)) (fieldsI_encode _ _))
theorem RoundTrip.vaddcy (w : WordG) : RoundTrip.Statement (.vaddcy w) := by
  intro x e
  cases (Option.some.inj e : encodeParts 0x116 (.g w) = x)
  exact (decode_parts _ _ (by decide) (by decide)).trans (congrArg (fun w => some (Instr.vaddcy w)) (fieldsG_encode _ _))
theorem RoundTrip.vdot2 (w : WordG) : RoundTrip.Statement (.vdot2 w) := by
  intro x e
  cases (Option.some.inj e : encodeParts 0x118 (.g w) = x)
  exact (decode_parts _ _ (by decide) (by decide)).trans (congrArg (fun w => some (Instr.vdot2 w)) (fieldsG_encode _ _))
theorem RoundTrip.vdot4 (w : WordG) : RoundTrip.Statement (.vdot4 w) := by
  intro x e
  cases (Option.some.inj e : encodeParts 0x119 (.g w) = x)
  exact (decode_parts _ _ (by decide) (by decide)).trans (congrArg (fun w => some (Instr.vdot4 w)) (fieldsG_encode _ _))
theorem RoundTrip.vsat (w : WordG) : RoundTrip.Statement (.vsat w) := by
  intro x e
  cases (Option.some.inj e : encodeParts 0x11A (.g w) = x)
  exact (decode_parts _ _ (by decide) (by decide)).trans (congrArg (fun w => some (Instr.vsat w)) (fieldsG_encode _ _))
theorem RoundTrip.vpack (w : WordG) : RoundTrip.Statement (.vpack w) := by
  intro x e
  cases (Option.some.inj e : encodeParts 0x11B (.g w) = x)
  exact (decode_parts _ _ (by decide) (by decide)).trans (congrArg (fun w => some (Instr.vpack w)) (fieldsG_encode _ _))
theorem RoundTrip.vunpack (w : WordG) : RoundTrip.Statement (.vunpack w) := by
  intro x e
  cases (Option.some.inj e : encodeParts 0x11C (.g w) = x)
  exact (decode_parts _ _ (by decide) (by decide)).trans (congrArg (fun w => some (Instr.vunpack w)) (fieldsG_encode _ _))
theorem RoundTrip.fadd (w : WordG) : RoundTrip.Statement (.fadd w) := by
  intro x e
  cases (Option.some.inj e : encodeParts 0x180 (.g w) = x)
  exact (decode_parts _ _ (by decide) (by decide)).trans (congrArg (fun w => some (Instr.fadd w)) (fieldsG_encode _ _))
theorem RoundTrip.faddI (w : WordI) : RoundTrip.Statement (.faddI w) := by
  intro x e
  cases (Option.some.inj e : encodeParts 0x1C0 (.i w) = x)
  exact (decode_parts _ _ (by decide) (by decide)).trans (congrArg (fun w => some (Instr.faddI w)) (fieldsI_encode _ _))
theorem RoundTrip.fsub (w : WordG) : RoundTrip.Statement (.fsub w) := by
  intro x e
  cases (Option.some.inj e : encodeParts 0x181 (.g w) = x)
  exact (decode_parts _ _ (by decide) (by decide)).trans (congrArg (fun w => some (Instr.fsub w)) (fieldsG_encode _ _))
theorem RoundTrip.fmul (w : WordG) : RoundTrip.Statement (.fmul w) := by
  intro x e
  cases (Option.some.inj e : encodeParts 0x182 (.g w) = x)
  exact (decode_parts _ _ (by decide) (by decide)).trans (congrArg (fun w => some (Instr.fmul w)) (fieldsG_encode _ _))
theorem RoundTrip.fmulI (w : WordI) : RoundTrip.Statement (.fmulI w) := by
  intro x e
  cases (Option.some.inj e : encodeParts 0x1C2 (.i w) = x)
  exact (decode_parts _ _ (by decide) (by decide)).trans (congrArg (fun w => some (Instr.fmulI w)) (fieldsI_encode _ _))
theorem RoundTrip.ffma (w : WordG) : RoundTrip.Statement (.ffma w) := by
  intro x e
  cases (Option.some.inj e : encodeParts 0x183 (.g w) = x)
  exact (decode_parts _ _ (by decide) (by decide)).trans (congrArg (fun w => some (Instr.ffma w)) (fieldsG_encode _ _))
theorem RoundTrip.fmin (w : WordG) : RoundTrip.Statement (.fmin w) := by
  intro x e
  cases (Option.some.inj e : encodeParts 0x184 (.g w) = x)
  exact (decode_parts _ _ (by decide) (by decide)).trans (congrArg (fun w => some (Instr.fmin w)) (fieldsG_encode _ _))
theorem RoundTrip.fminI (w : WordI) : RoundTrip.Statement (.fminI w) := by
  intro x e
  cases (Option.some.inj e : encodeParts 0x1C4 (.i w) = x)
  exact (decode_parts _ _ (by decide) (by decide)).trans (congrArg (fun w => some (Instr.fminI w)) (fieldsI_encode _ _))
theorem RoundTrip.fmax (w : WordG) : RoundTrip.Statement (.fmax w) := by
  intro x e
  cases (Option.some.inj e : encodeParts 0x185 (.g w) = x)
  exact (decode_parts _ _ (by decide) (by decide)).trans (congrArg (fun w => some (Instr.fmax w)) (fieldsG_encode _ _))
theorem RoundTrip.fmaxI (w : WordI) : RoundTrip.Statement (.fmaxI w) := by
  intro x e
  cases (Option.some.inj e : encodeParts 0x1C5 (.i w) = x)
  exact (decode_parts _ _ (by decide) (by decide)).trans (congrArg (fun w => some (Instr.fmaxI w)) (fieldsI_encode _ _))
theorem RoundTrip.fcmp (w : WordG) : RoundTrip.Statement (.fcmp w) := by
  intro x e
  cases (Option.some.inj e : encodeParts 0x186 (.g w) = x)
  exact (decode_parts _ _ (by decide) (by decide)).trans (congrArg (fun w => some (Instr.fcmp w)) (fieldsG_encode _ _))
theorem RoundTrip.fcmpI (w : WordI) : RoundTrip.Statement (.fcmpI w) := by
  intro x e
  cases (Option.some.inj e : encodeParts 0x1C6 (.i w) = x)
  exact (decode_parts _ _ (by decide) (by decide)).trans (congrArg (fun w => some (Instr.fcmpI w)) (fieldsI_encode _ _))
theorem RoundTrip.frnd (w : WordG) : RoundTrip.Statement (.frnd w) := by
  intro x e
  cases (Option.some.inj e : encodeParts 0x187 (.g w) = x)
  exact (decode_parts _ _ (by decide) (by decide)).trans (congrArg (fun w => some (Instr.frnd w)) (fieldsG_encode _ _))
theorem RoundTrip.frcp (w : WordG) : RoundTrip.Statement (.frcp w) := by
  intro x e
  cases (Option.some.inj e : encodeParts 0x188 (.g w) = x)
  exact (decode_parts _ _ (by decide) (by decide)).trans (congrArg (fun w => some (Instr.frcp w)) (fieldsG_encode _ _))
theorem RoundTrip.frsq (w : WordG) : RoundTrip.Statement (.frsq w) := by
  intro x e
  cases (Option.some.inj e : encodeParts 0x189 (.g w) = x)
  exact (decode_parts _ _ (by decide) (by decide)).trans (congrArg (fun w => some (Instr.frsq w)) (fieldsG_encode _ _))
theorem RoundTrip.fsqrt (w : WordG) : RoundTrip.Statement (.fsqrt w) := by
  intro x e
  cases (Option.some.inj e : encodeParts 0x18A (.g w) = x)
  exact (decode_parts _ _ (by decide) (by decide)).trans (congrArg (fun w => some (Instr.fsqrt w)) (fieldsG_encode _ _))
theorem RoundTrip.fexp2 (w : WordG) : RoundTrip.Statement (.fexp2 w) := by
  intro x e
  cases (Option.some.inj e : encodeParts 0x18B (.g w) = x)
  exact (decode_parts _ _ (by decide) (by decide)).trans (congrArg (fun w => some (Instr.fexp2 w)) (fieldsG_encode _ _))
theorem RoundTrip.flog2 (w : WordG) : RoundTrip.Statement (.flog2 w) := by
  intro x e
  cases (Option.some.inj e : encodeParts 0x18C (.g w) = x)
  exact (decode_parts _ _ (by decide) (by decide)).trans (congrArg (fun w => some (Instr.flog2 w)) (fieldsG_encode _ _))
theorem RoundTrip.fsin (w : WordG) : RoundTrip.Statement (.fsin w) := by
  intro x e
  cases (Option.some.inj e : encodeParts 0x18D (.g w) = x)
  exact (decode_parts _ _ (by decide) (by decide)).trans (congrArg (fun w => some (Instr.fsin w)) (fieldsG_encode _ _))
theorem RoundTrip.fcos (w : WordG) : RoundTrip.Statement (.fcos w) := by
  intro x e
  cases (Option.some.inj e : encodeParts 0x18E (.g w) = x)
  exact (decode_parts _ _ (by decide) (by decide)).trans (congrArg (fun w => some (Instr.fcos w)) (fieldsG_encode _ _))
theorem RoundTrip.hadd2 (w : WordG) : RoundTrip.Statement (.hadd2 w) := by
  intro x e
  cases (Option.some.inj e : encodeParts 0x190 (.g w) = x)
  exact (decode_parts _ _ (by decide) (by decide)).trans (congrArg (fun w => some (Instr.hadd2 w)) (fieldsG_encode _ _))
theorem RoundTrip.hmul2 (w : WordG) : RoundTrip.Statement (.hmul2 w) := by
  intro x e
  cases (Option.some.inj e : encodeParts 0x191 (.g w) = x)
  exact (decode_parts _ _ (by decide) (by decide)).trans (congrArg (fun w => some (Instr.hmul2 w)) (fieldsG_encode _ _))
theorem RoundTrip.hfma2 (w : WordG) : RoundTrip.Statement (.hfma2 w) := by
  intro x e
  cases (Option.some.inj e : encodeParts 0x192 (.g w) = x)
  exact (decode_parts _ _ (by decide) (by decide)).trans (congrArg (fun w => some (Instr.hfma2 w)) (fieldsG_encode _ _))
theorem RoundTrip.hmin2 (w : WordG) : RoundTrip.Statement (.hmin2 w) := by
  intro x e
  cases (Option.some.inj e : encodeParts 0x193 (.g w) = x)
  exact (decode_parts _ _ (by decide) (by decide)).trans (congrArg (fun w => some (Instr.hmin2 w)) (fieldsG_encode _ _))
theorem RoundTrip.hmax2 (w : WordG) : RoundTrip.Statement (.hmax2 w) := by
  intro x e
  cases (Option.some.inj e : encodeParts 0x194 (.g w) = x)
  exact (decode_parts _ _ (by decide) (by decide)).trans (congrArg (fun w => some (Instr.hmax2 w)) (fieldsG_encode _ _))
theorem RoundTrip.cvt (w : WordG) : RoundTrip.Statement (.cvt w) := by
  intro x e
  cases (Option.some.inj e : encodeParts 0x198 (.g w) = x)
  exact (decode_parts _ _ (by decide) (by decide)).trans (congrArg (fun w => some (Instr.cvt w)) (fieldsG_encode _ _))
theorem RoundTrip.shfl (w : WordG) : RoundTrip.Statement (.shfl w) := by
  intro x e
  cases (Option.some.inj e : encodeParts 0x200 (.g w) = x)
  exact (decode_parts _ _ (by decide) (by decide)).trans (congrArg (fun w => some (Instr.shfl w)) (fieldsG_encode _ _))
theorem RoundTrip.slide (w : WordG) : RoundTrip.Statement (.slide w) := by
  intro x e
  cases (Option.some.inj e : encodeParts 0x201 (.g w) = x)
  exact (decode_parts _ _ (by decide) (by decide)).trans (congrArg (fun w => some (Instr.slide w)) (fieldsG_encode _ _))
theorem RoundTrip.vote (w : WordG) : RoundTrip.Statement (.vote w) := by
  intro x e
  cases (Option.some.inj e : encodeParts 0x202 (.g w) = x)
  exact (decode_parts _ _ (by decide) (by decide)).trans (congrArg (fun w => some (Instr.vote w)) (fieldsG_encode _ _))
theorem RoundTrip.vred (w : WordG) : RoundTrip.Statement (.vred w) := by
  intro x e
  cases (Option.some.inj e : encodeParts 0x203 (.g w) = x)
  exact (decode_parts _ _ (by decide) (by decide)).trans (congrArg (fun w => some (Instr.vred w)) (fieldsG_encode _ _))
theorem RoundTrip.vscan (w : WordG) : RoundTrip.Statement (.vscan w) := by
  intro x e
  cases (Option.some.inj e : encodeParts 0x204 (.g w) = x)
  exact (decode_parts _ _ (by decide) (by decide)).trans (congrArg (fun w => some (Instr.vscan w)) (fieldsG_encode _ _))
theorem RoundTrip.vconflict (w : WordG) : RoundTrip.Statement (.vconflict w) := by
  intro x e
  cases (Option.some.inj e : encodeParts 0x205 (.g w) = x)
  exact (decode_parts _ _ (by decide) (by decide)).trans (congrArg (fun w => some (Instr.vconflict w)) (fieldsG_encode _ _))
theorem RoundTrip.vtos (w : WordG) : RoundTrip.Statement (.vtos w) := by
  intro x e
  cases (Option.some.inj e : encodeParts 0x206 (.g w) = x)
  exact (decode_parts _ _ (by decide) (by decide)).trans (congrArg (fun w => some (Instr.vtos w)) (fieldsG_encode _ _))
theorem RoundTrip.stov (w : WordG) : RoundTrip.Statement (.stov w) := by
  intro x e
  cases (Option.some.inj e : encodeParts 0x207 (.g w) = x)
  exact (decode_parts _ _ (by decide) (by decide)).trans (congrArg (fun w => some (Instr.stov w)) (fieldsG_encode _ _))
theorem RoundTrip.pand (w : WordG) : RoundTrip.Statement (.pand w) := by
  intro x e
  cases (Option.some.inj e : encodeParts 0x208 (.g w) = x)
  exact (decode_parts _ _ (by decide) (by decide)).trans (congrArg (fun w => some (Instr.pand w)) (fieldsG_encode _ _))
theorem RoundTrip.por (w : WordG) : RoundTrip.Statement (.por w) := by
  intro x e
  cases (Option.some.inj e : encodeParts 0x209 (.g w) = x)
  exact (decode_parts _ _ (by decide) (by decide)).trans (congrArg (fun w => some (Instr.por w)) (fieldsG_encode _ _))
theorem RoundTrip.pxor (w : WordG) : RoundTrip.Statement (.pxor w) := by
  intro x e
  cases (Option.some.inj e : encodeParts 0x20A (.g w) = x)
  exact (decode_parts _ _ (by decide) (by decide)).trans (congrArg (fun w => some (Instr.pxor w)) (fieldsG_encode _ _))
theorem RoundTrip.pnot (w : WordG) : RoundTrip.Statement (.pnot w) := by
  intro x e
  cases (Option.some.inj e : encodeParts 0x20B (.g w) = x)
  exact (decode_parts _ _ (by decide) (by decide)).trans (congrArg (fun w => some (Instr.pnot w)) (fieldsG_encode _ _))
theorem RoundTrip.pmovv (w : WordG) : RoundTrip.Statement (.pmovv w) := by
  intro x e
  cases (Option.some.inj e : encodeParts 0x20C (.g w) = x)
  exact (decode_parts _ _ (by decide) (by decide)).trans (congrArg (fun w => some (Instr.pmovv w)) (fieldsG_encode _ _))
theorem RoundTrip.vmovp (w : WordG) : RoundTrip.Statement (.vmovp w) := by
  intro x e
  cases (Option.some.inj e : encodeParts 0x20D (.g w) = x)
  exact (decode_parts _ _ (by decide) (by decide)).trans (congrArg (fun w => some (Instr.vmovp w)) (fieldsG_encode _ _))
theorem RoundTrip.pcount (w : WordG) : RoundTrip.Statement (.pcount w) := by
  intro x e
  cases (Option.some.inj e : encodeParts 0x20E (.g w) = x)
  exact (decode_parts _ _ (by decide) (by decide)).trans (congrArg (fun w => some (Instr.pcount w)) (fieldsG_encode _ _))
theorem RoundTrip.qand (w : WordG) : RoundTrip.Statement (.qand w) := by
  intro x e
  cases (Option.some.inj e : encodeParts 0x210 (.g w) = x)
  exact (decode_parts _ _ (by decide) (by decide)).trans (congrArg (fun w => some (Instr.qand w)) (fieldsG_encode _ _))
theorem RoundTrip.qor (w : WordG) : RoundTrip.Statement (.qor w) := by
  intro x e
  cases (Option.some.inj e : encodeParts 0x211 (.g w) = x)
  exact (decode_parts _ _ (by decide) (by decide)).trans (congrArg (fun w => some (Instr.qor w)) (fieldsG_encode _ _))
theorem RoundTrip.qnot (w : WordG) : RoundTrip.Statement (.qnot w) := by
  intro x e
  cases (Option.some.inj e : encodeParts 0x212 (.g w) = x)
  exact (decode_parts _ _ (by decide) (by decide)).trans (congrArg (fun w => some (Instr.qnot w)) (fieldsG_encode _ _))
theorem RoundTrip.ld (w : WordG) : RoundTrip.Statement (.ld w) := by
  intro x e
  cases (Option.some.inj e : encodeParts 0x280 (.g w) = x)
  exact (decode_parts _ _ (by decide) (by decide)).trans (congrArg (fun w => some (Instr.ld w)) (fieldsG_encode _ _))
theorem RoundTrip.st (w : WordG) : RoundTrip.Statement (.st w) := by
  intro x e
  cases (Option.some.inj e : encodeParts 0x281 (.g w) = x)
  exact (decode_parts _ _ (by decide) (by decide)).trans (congrArg (fun w => some (Instr.st w)) (fieldsG_encode _ _))
theorem RoundTrip.ldt (w : WordG) : RoundTrip.Statement (.ldt w) := by
  intro x e
  cases (Option.some.inj e : encodeParts 0x282 (.g w) = x)
  exact (decode_parts _ _ (by decide) (by decide)).trans (congrArg (fun w => some (Instr.ldt w)) (fieldsG_encode _ _))
theorem RoundTrip.stt (w : WordG) : RoundTrip.Statement (.stt w) := by
  intro x e
  cases (Option.some.inj e : encodeParts 0x283 (.g w) = x)
  exact (decode_parts _ _ (by decide) (by decide)).trans (congrArg (fun w => some (Instr.stt w)) (fieldsG_encode _ _))
theorem RoundTrip.tmov (w : WordG) : RoundTrip.Statement (.tmov w) := by
  intro x e
  cases (Option.some.inj e : encodeParts 0x284 (.g w) = x)
  exact (decode_parts _ _ (by decide) (by decide)).trans (congrArg (fun w => some (Instr.tmov w)) (fieldsG_encode _ _))
theorem RoundTrip.copy (w : WordG) : RoundTrip.Statement (.copy w) := by
  intro x e
  cases (Option.some.inj e : encodeParts 0x285 (.g w) = x)
  exact (decode_parts _ _ (by decide) (by decide)).trans (congrArg (fun w => some (Instr.copy w)) (fieldsG_encode _ _))
theorem RoundTrip.gtha (w : WordG) : RoundTrip.Statement (.gtha w) := by
  intro x e
  cases (Option.some.inj e : encodeParts 0x286 (.g w) = x)
  exact (decode_parts _ _ (by decide) (by decide)).trans (congrArg (fun w => some (Instr.gtha w)) (fieldsG_encode _ _))
theorem RoundTrip.tierh (w : WordG) : RoundTrip.Statement (.tierh w) := by
  intro x e
  cases (Option.some.inj e : encodeParts 0x287 (.g w) = x)
  exact (decode_parts _ _ (by decide) (by decide)).trans (congrArg (fun w => some (Instr.tierh w)) (fieldsG_encode _ _))
theorem RoundTrip.cjoin (w : WordG) : RoundTrip.Statement (.cjoin w) := by
  intro x e
  cases (Option.some.inj e : encodeParts 0x288 (.g w) = x)
  exact (decode_parts _ _ (by decide) (by decide)).trans (congrArg (fun w => some (Instr.cjoin w)) (fieldsG_encode _ _))
theorem RoundTrip.cleave (w : WordG) : RoundTrip.Statement (.cleave w) := by
  intro x e
  cases (Option.some.inj e : encodeParts 0x289 (.g w) = x)
  exact (decode_parts _ _ (by decide) (by decide)).trans (congrArg (fun w => some (Instr.cleave w)) (fieldsG_encode _ _))
theorem RoundTrip.cquery (w : WordG) : RoundTrip.Statement (.cquery w) := by
  intro x e
  cases (Option.some.inj e : encodeParts 0x28A (.g w) = x)
  exact (decode_parts _ _ (by decide) (by decide)).trans (congrArg (fun w => some (Instr.cquery w)) (fieldsG_encode _ _))
theorem RoundTrip.atom (w : WordG) : RoundTrip.Statement (.atom w) := by
  intro x e
  cases (Option.some.inj e : encodeParts 0x290 (.g w) = x)
  exact (decode_parts _ _ (by decide) (by decide)).trans (congrArg (fun w => some (Instr.atom w)) (fieldsG_encode _ _))
theorem RoundTrip.red (w : WordG) : RoundTrip.Statement (.red w) := by
  intro x e
  cases (Option.some.inj e : encodeParts 0x291 (.g w) = x)
  exact (decode_parts _ _ (by decide) (by decide)).trans (congrArg (fun w => some (Instr.red w)) (fieldsG_encode _ _))
theorem RoundTrip.cas (w : WordG) : RoundTrip.Statement (.cas w) := by
  intro x e
  cases (Option.some.inj e : encodeParts 0x292 (.g w) = x)
  exact (decode_parts _ _ (by decide) (by decide)).trans (congrArg (fun w => some (Instr.cas w)) (fieldsG_encode _ _))
theorem RoundTrip.fence (w : WordG) : RoundTrip.Statement (.fence w) := by
  intro x e
  cases (Option.some.inj e : encodeParts 0x293 (.g w) = x)
  exact (decode_parts _ _ (by decide) (by decide)).trans (congrArg (fun w => some (Instr.fence w)) (fieldsG_encode _ _))
theorem RoundTrip.bar (w : WordG) : RoundTrip.Statement (.bar w) := by
  intro x e
  cases (Option.some.inj e : encodeParts 0x294 (.g w) = x)
  exact (decode_parts _ _ (by decide) (by decide)).trans (congrArg (fun w => some (Instr.bar w)) (fieldsG_encode _ _))
theorem RoundTrip.bara (w : WordG) : RoundTrip.Statement (.bara w) := by
  intro x e
  cases (Option.some.inj e : encodeParts 0x295 (.g w) = x)
  exact (decode_parts _ _ (by decide) (by decide)).trans (congrArg (fun w => some (Instr.bara w)) (fieldsG_encode _ _))
theorem RoundTrip.barw (w : WordG) : RoundTrip.Statement (.barw w) := by
  intro x e
  cases (Option.some.inj e : encodeParts 0x296 (.g w) = x)
  exact (decode_parts _ _ (by decide) (by decide)).trans (congrArg (fun w => some (Instr.barw w)) (fieldsG_encode _ _))
theorem RoundTrip.cbar (w : WordG) : RoundTrip.Statement (.cbar w) := by
  intro x e
  cases (Option.some.inj e : encodeParts 0x297 (.g w) = x)
  exact (decode_parts _ _ (by decide) (by decide)).trans (congrArg (fun w => some (Instr.cbar w)) (fieldsG_encode _ _))
theorem RoundTrip.tbegin (w : WordG) : RoundTrip.Statement (.tbegin w) := by
  intro x e
  cases (Option.some.inj e : encodeParts 0x298 (.g w) = x)
  exact (decode_parts _ _ (by decide) (by decide)).trans (congrArg (fun w => some (Instr.tbegin w)) (fieldsG_encode _ _))
theorem RoundTrip.tend (w : WordG) : RoundTrip.Statement (.tend w) := by
  intro x e
  cases (Option.some.inj e : encodeParts 0x299 (.g w) = x)
  exact (decode_parts _ _ (by decide) (by decide)).trans (congrArg (fun w => some (Instr.tend w)) (fieldsG_encode _ _))
theorem RoundTrip.tabort (w : WordG) : RoundTrip.Statement (.tabort w) := by
  intro x e
  cases (Option.some.inj e : encodeParts 0x29A (.g w) = x)
  exact (decode_parts _ _ (by decide) (by decide)).trans (congrArg (fun w => some (Instr.tabort w)) (fieldsG_encode _ _))
theorem RoundTrip.tstat (w : WordG) : RoundTrip.Statement (.tstat w) := by
  intro x e
  cases (Option.some.inj e : encodeParts 0x29B (.g w) = x)
  exact (decode_parts _ _ (by decide) (by decide)).trans (congrArg (fun w => some (Instr.tstat w)) (fieldsG_encode _ _))
theorem RoundTrip.omap (w : WordG) : RoundTrip.Statement (.omap w) := by
  intro x e
  cases (Option.some.inj e : encodeParts 0x300 (.g w) = x)
  exact (decode_parts _ _ (by decide) (by decide)).trans (congrArg (fun w => some (Instr.omap w)) (fieldsG_encode _ _))
theorem RoundTrip.mma (w : WordG) : RoundTrip.Statement (.mma w) := by
  intro x e
  cases (Option.some.inj e : encodeParts 0x301 (.g w) = x)
  exact (decode_parts _ _ (by decide) (by decide)).trans (congrArg (fun w => some (Instr.mma w)) (fieldsG_encode _ _))
theorem RoundTrip.mzero (w : WordG) : RoundTrip.Statement (.mzero w) := by
  intro x e
  cases (Option.some.inj e : encodeParts 0x302 (.g w) = x)
  exact (decode_parts _ _ (by decide) (by decide)).trans (congrArg (fun w => some (Instr.mzero w)) (fieldsG_encode _ _))
theorem RoundTrip.mlda (w : WordG) : RoundTrip.Statement (.mlda w) := by
  intro x e
  cases (Option.some.inj e : encodeParts 0x303 (.g w) = x)
  exact (decode_parts _ _ (by decide) (by decide)).trans (congrArg (fun w => some (Instr.mlda w)) (fieldsG_encode _ _))
theorem RoundTrip.mdrain (w : WordG) : RoundTrip.Statement (.mdrain w) := by
  intro x e
  cases (Option.some.inj e : encodeParts 0x304 (.g w) = x)
  exact (decode_parts _ _ (by decide) (by decide)).trans (congrArg (fun w => some (Instr.mdrain w)) (fieldsG_encode _ _))
theorem RoundTrip.sopen (w : WordG) : RoundTrip.Statement (.sopen w) := by
  intro x e
  cases (Option.some.inj e : encodeParts 0x310 (.g w) = x)
  exact (decode_parts _ _ (by decide) (by decide)).trans (congrArg (fun w => some (Instr.sopen w)) (fieldsG_encode _ _))
theorem RoundTrip.snext (w : WordG) : RoundTrip.Statement (.snext w) := by
  intro x e
  cases (Option.some.inj e : encodeParts 0x311 (.g w) = x)
  exact (decode_parts _ _ (by decide) (by decide)).trans (congrArg (fun w => some (Instr.snext w)) (fieldsG_encode _ _))
theorem RoundTrip.sskip (w : WordG) : RoundTrip.Statement (.sskip w) := by
  intro x e
  cases (Option.some.inj e : encodeParts 0x312 (.g w) = x)
  exact (decode_parts _ _ (by decide) (by decide)).trans (congrArg (fun w => some (Instr.sskip w)) (fieldsG_encode _ _))
theorem RoundTrip.sisect (w : WordG) : RoundTrip.Statement (.sisect w) := by
  intro x e
  cases (Option.some.inj e : encodeParts 0x313 (.g w) = x)
  exact (decode_parts _ _ (by decide) (by decide)).trans (congrArg (fun w => some (Instr.sisect w)) (fieldsG_encode _ _))
theorem RoundTrip.sunion (w : WordG) : RoundTrip.Statement (.sunion w) := by
  intro x e
  cases (Option.some.inj e : encodeParts 0x314 (.g w) = x)
  exact (decode_parts _ _ (by decide) (by decide)).trans (congrArg (fun w => some (Instr.sunion w)) (fieldsG_encode _ _))
theorem RoundTrip.sclose (w : WordG) : RoundTrip.Statement (.sclose w) := by
  intro x e
  cases (Option.some.inj e : encodeParts 0x315 (.g w) = x)
  exact (decode_parts _ _ (by decide) (by decide)).trans (congrArg (fun w => some (Instr.sclose w)) (fieldsG_encode _ _))
theorem RoundTrip.sstat (w : WordG) : RoundTrip.Statement (.sstat w) := by
  intro x e
  cases (Option.some.inj e : encodeParts 0x316 (.g w) = x)
  exact (decode_parts _ _ (by decide) (by decide)).trans (congrArg (fun w => some (Instr.sstat w)) (fieldsG_encode _ _))
theorem RoundTrip.lisect (w : WordG) : RoundTrip.Statement (.lisect w) := by
  intro x e
  cases (Option.some.inj e : encodeParts 0x317 (.g w) = x)
  exact (decode_parts _ _ (by decide) (by decide)).trans (congrArg (fun w => some (Instr.lisect w)) (fieldsG_encode _ _))
theorem RoundTrip.hfam (w : WordG) : RoundTrip.Statement (.hfam w) := by
  intro x e
  cases (Option.some.inj e : encodeParts 0x320 (.g w) = x)
  exact (decode_parts _ _ (by decide) (by decide)).trans (congrArg (fun w => some (Instr.hfam w)) (fieldsG_encode _ _))
theorem RoundTrip.hcode (w : WordG) : RoundTrip.Statement (.hcode w) := by
  intro x e
  cases (Option.some.inj e : encodeParts 0x321 (.g w) = x)
  exact (decode_parts _ _ (by decide) (by decide)).trans (congrArg (fun w => some (Instr.hcode w)) (fieldsG_encode _ _))
theorem RoundTrip.hprobe (w : WordG) : RoundTrip.Statement (.hprobe w) := by
  intro x e
  cases (Option.some.inj e : encodeParts 0x322 (.g w) = x)
  exact (decode_parts _ _ (by decide) (by decide)).trans (congrArg (fun w => some (Instr.hprobe w)) (fieldsG_encode _ _))
theorem RoundTrip.hins (w : WordG) : RoundTrip.Statement (.hins w) := by
  intro x e
  cases (Option.some.inj e : encodeParts 0x323 (.g w) = x)
  exact (decode_parts _ _ (by decide) (by decide)).trans (congrArg (fun w => some (Instr.hins w)) (fieldsG_encode _ _))
theorem RoundTrip.hdel (w : WordG) : RoundTrip.Statement (.hdel w) := by
  intro x e
  cases (Option.some.inj e : encodeParts 0x324 (.g w) = x)
  exact (decode_parts _ _ (by decide) (by decide)).trans (congrArg (fun w => some (Instr.hdel w)) (fieldsG_encode _ _))
theorem RoundTrip.hreh (w : WordG) : RoundTrip.Statement (.hreh w) := by
  intro x e
  cases (Option.some.inj e : encodeParts 0x325 (.g w) = x)
  exact (decode_parts _ _ (by decide) (by decide)).trans (congrArg (fun w => some (Instr.hreh w)) (fieldsG_encode _ _))
theorem RoundTrip.hsync (w : WordG) : RoundTrip.Statement (.hsync w) := by
  intro x e
  cases (Option.some.inj e : encodeParts 0x326 (.g w) = x)
  exact (decode_parts _ _ (by decide) (by decide)).trans (congrArg (fun w => some (Instr.hsync w)) (fieldsG_encode _ _))
theorem RoundTrip.raye (w : WordG) : RoundTrip.Statement (.raye w) := by
  intro x e
  cases (Option.some.inj e : encodeParts 0x380 (.g w) = x)
  exact (decode_parts _ _ (by decide) (by decide)).trans (congrArg (fun w => some (Instr.raye w)) (fieldsG_encode _ _))
theorem RoundTrip.anyr (w : WordG) : RoundTrip.Statement (.anyr w) := by
  intro x e
  cases (Option.some.inj e : encodeParts 0x381 (.g w) = x)
  exact (decode_parts _ _ (by decide) (by decide)).trans (congrArg (fun w => some (Instr.anyr w)) (fieldsG_encode _ _))
theorem RoundTrip.trbegin (w : WordG) : RoundTrip.Statement (.trbegin w) := by
  intro x e
  cases (Option.some.inj e : encodeParts 0x382 (.g w) = x)
  exact (decode_parts _ _ (by decide) (by decide)).trans (congrArg (fun w => some (Instr.trbegin w)) (fieldsG_encode _ _))
theorem RoundTrip.trpub (w : WordG) : RoundTrip.Statement (.trpub w) := by
  intro x e
  cases (Option.some.inj e : encodeParts 0x383 (.g w) = x)
  exact (decode_parts _ _ (by decide) (by decide)).trans (congrArg (fun w => some (Instr.trpub w)) (fieldsG_encode _ _))
theorem RoundTrip.texf (w : WordG) : RoundTrip.Statement (.texf w) := by
  intro x e
  cases (Option.some.inj e : encodeParts 0x384 (.g w) = x)
  exact (decode_parts _ _ (by decide) (by decide)).trans (congrArg (fun w => some (Instr.texf w)) (fieldsG_encode _ _))
theorem RoundTrip.hgf (w : WordG) : RoundTrip.Statement (.hgf w) := by
  intro x e
  cases (Option.some.inj e : encodeParts 0x385 (.g w) = x)
  exact (decode_parts _ _ (by decide) (by decide)).trans (congrArg (fun w => some (Instr.hgf w)) (fieldsG_encode _ _))
theorem RoundTrip.attn (w : WordG) : RoundTrip.Statement (.attn w) := by
  intro x e
  cases (Option.some.inj e : encodeParts 0x386 (.g w) = x)
  exact (decode_parts _ _ (by decide) (by decide)).trans (congrArg (fun w => some (Instr.attn w)) (fieldsG_encode _ _))
theorem RoundTrip.bfill (w : WordG) : RoundTrip.Statement (.bfill w) := by
  intro x e
  cases (Option.some.inj e : encodeParts 0x387 (.g w) = x)
  exact (decode_parts _ _ (by decide) (by decide)).trans (congrArg (fun w => some (Instr.bfill w)) (fieldsG_encode _ _))
theorem RoundTrip.clauseHeaderIssue (h : Header) : RoundTrip.Statement (.clauseHeaderIssue h) := by
  intro x e
  cases (Option.some.inj e : encodeHeader h = x)
  rw [decodeFields, sig_header, if_pos rfl, fieldsHeader_encode]
theorem RoundTrip.instanceStart (gnum : BitVec 8) : RoundTrip.Statement (.instanceStart gnum) := fun x e => (Option.some_ne_none x e.symm).elim
theorem RoundTrip.nodeStart (r : InstRef) (node : Nat) : RoundTrip.Statement (.nodeStart r node) := fun x e => (Option.some_ne_none x e.symm).elim
theorem RoundTrip.copyNode (r : InstRef) (node units : Nat) : RoundTrip.Statement (.copyNode r node units) := fun x e => (Option.some_ne_none x e.symm).elim
theorem RoundTrip.copyNodeDone (r : InstRef) (node : Nat) : RoundTrip.Statement (.copyNodeDone r node) := fun x e => (Option.some_ne_none x e.symm).elim
theorem RoundTrip.hostwaitComplete (r : InstRef) (node : Nat) : RoundTrip.Statement (.hostwaitComplete r node) := fun x e => (Option.some_ne_none x e.symm).elim
theorem RoundTrip.signalNode (r : InstRef) (node : Nat) : RoundTrip.Statement (.signalNode r node) := fun x e => (Option.some_ne_none x e.symm).elim
theorem RoundTrip.clusterPlace (grid : BitVec 32) : RoundTrip.Statement (.clusterPlace grid) := fun x e => (Option.some_ne_none x e.symm).elim
theorem RoundTrip.gridStarvation (grid : BitVec 32) : RoundTrip.Statement (.gridStarvation grid) := fun x e => (Option.some_ne_none x e.symm).elim
theorem RoundTrip.detachedComplete (id : Nat) : RoundTrip.Statement (.detachedComplete id) := fun x e => (Option.some_ne_none x e.symm).elim
theorem RoundTrip.gridComplete (grid : BitVec 32) : RoundTrip.Statement (.gridComplete grid) := fun x e => (Option.some_ne_none x e.symm).elim
theorem RoundTrip.instanceComplete (gnum : BitVec 8) : RoundTrip.Statement (.instanceComplete gnum) := fun x e => (Option.some_ne_none x e.symm).elim
theorem RoundTrip.groupRetire (g : Nat) : RoundTrip.Statement (.groupRetire g) := fun x e => (Option.some_ne_none x e.symm).elim
theorem RoundTrip.teamRetire (t : Nat) : RoundTrip.Statement (.teamRetire t) := fun x e => (Option.some_ne_none x e.symm).elim
theorem RoundTrip.groupRaise (g : Nat) : RoundTrip.Statement (.groupRaise g) := fun x e => (Option.some_ne_none x e.symm).elim
theorem RoundTrip.waitSwapOut (g : Nat) : RoundTrip.Statement (.waitSwapOut g) := fun x e => (Option.some_ne_none x e.symm).elim
theorem RoundTrip.pendingRaise (g : Nat) : RoundTrip.Statement (.pendingRaise g) := fun x e => (Option.some_ne_none x e.symm).elim
theorem RoundTrip.groupSwapIn (g : Nat) : RoundTrip.Statement (.groupSwapIn g) := fun x e => (Option.some_ne_none x e.symm).elim
theorem RoundTrip.droverStage1 (core quarter : Nat) : RoundTrip.Statement (.droverStage1 core quarter) := fun x e => (Option.some_ne_none x e.symm).elim
theorem RoundTrip.droverStage2 (core quarter : Nat) : RoundTrip.Statement (.droverStage2 core quarter) := fun x e => (Option.some_ne_none x e.symm).elim
theorem RoundTrip.droverStage3 (core quarter : Nat) : RoundTrip.Statement (.droverStage3 core quarter) := fun x e => (Option.some_ne_none x e.symm).elim
theorem RoundTrip.frameGrant (g : Nat) : RoundTrip.Statement (.frameGrant g) := fun x e => (Option.some_ne_none x e.symm).elim
theorem RoundTrip.operationComplete (op : Nat) (limit : Option Nat) : RoundTrip.Statement (.operationComplete op limit) := fun x e => (Option.some_ne_none x e.symm).elim
theorem RoundTrip.ownAcquire (g : Nat) : RoundTrip.Statement (.ownAcquire g) := fun x e => (Option.some_ne_none x e.symm).elim
theorem RoundTrip.sleepWake (g : Nat) : RoundTrip.Statement (.sleepWake g) := fun x e => (Option.some_ne_none x e.symm).elim
theorem RoundTrip.promiseMissed (g : Nat) : RoundTrip.Statement (.promiseMissed g) := fun x e => (Option.some_ne_none x e.symm).elim
theorem RoundTrip.barrierWaitPass (g : Nat) : RoundTrip.Statement (.barrierWaitPass g) := fun x e => (Option.some_ne_none x e.symm).elim
theorem RoundTrip.deferredArrival (team index : Nat) : RoundTrip.Statement (.deferredArrival team index) := fun x e => (Option.some_ne_none x e.symm).elim
theorem RoundTrip.peerDrainRow (op : Nat) : RoundTrip.Statement (.peerDrainRow op) := fun x e => (Option.some_ne_none x e.symm).elim
theorem RoundTrip.trapDelivery (g : Nat) : RoundTrip.Statement (.trapDelivery g) := fun x e => (Option.some_ne_none x e.symm).elim
theorem RoundTrip.trapQueueEntry (g : Nat) : RoundTrip.Statement (.trapQueueEntry g) := fun x e => (Option.some_ne_none x e.symm).elim
theorem RoundTrip.reportQueueWrite (queue : Nat) : RoundTrip.Statement (.reportQueueWrite queue) := fun x e => (Option.some_ne_none x e.symm).elim
theorem RoundTrip.tierHint (port page : Nat) : RoundTrip.Statement (.tierHint port page) := fun x e => (Option.some_ne_none x e.symm).elim
theorem RoundTrip.tierFillData (port page : Nat) : RoundTrip.Statement (.tierFillData port page) := fun x e => (Option.some_ne_none x e.symm).elim
theorem RoundTrip.tierWritebackReply (port frame : Nat) : RoundTrip.Statement (.tierWritebackReply port frame) := fun x e => (Option.some_ne_none x e.symm).elim
theorem RoundTrip.releaseMarker (pkt : Nat) : RoundTrip.Statement (.releaseMarker pkt) := fun x e => (Option.some_ne_none x e.symm).elim
theorem RoundTrip.homeReport (pkt : Nat) (home : Home) : RoundTrip.Statement (.homeReport pkt home) := fun x e => (Option.some_ne_none x e.symm).elim
theorem RoundTrip.flushMarker (pkt path : Nat) : RoundTrip.Statement (.flushMarker pkt path) := fun x e => (Option.some_ne_none x e.symm).elim
theorem RoundTrip.cellarRead (pkt : Nat) : RoundTrip.Statement (.cellarRead pkt) := fun x e => (Option.some_ne_none x e.symm).elim
theorem RoundTrip.cellarWrite (pkt : Nat) : RoundTrip.Statement (.cellarWrite pkt) := fun x e => (Option.some_ne_none x e.symm).elim
theorem RoundTrip.cellarAtomic (pkt : Nat) : RoundTrip.Statement (.cellarAtomic pkt) := fun x e => (Option.some_ne_none x e.symm).elim
theorem RoundTrip.reply (pkt : Nat) : RoundTrip.Statement (.reply pkt) := fun x e => (Option.some_ne_none x e.symm).elim
theorem RoundTrip.channelToComputeDone (stack channel : Nat) : RoundTrip.Statement (.channelToComputeDone stack channel) := fun x e => (Option.some_ne_none x e.symm).elim
theorem RoundTrip.channelComputeIdle (stack channel : Nat) : RoundTrip.Statement (.channelComputeIdle stack channel) := fun x e => (Option.some_ne_none x e.symm).elim
theorem RoundTrip.channelToNormalDone (stack channel : Nat) : RoundTrip.Statement (.channelToNormalDone stack channel) := fun x e => (Option.some_ne_none x e.symm).elim
theorem RoundTrip.raySend (op : Nat) : RoundTrip.Statement (.raySend op) := fun x e => (Option.some_ne_none x e.symm).elim
theorem RoundTrip.rayAccept (ray : Nat) : RoundTrip.Statement (.rayAccept ray) := fun x e => (Option.some_ne_none x e.symm).elim
theorem RoundTrip.treeletStage (stack : Nat) : RoundTrip.Statement (.treeletStage stack) := fun x e => (Option.some_ne_none x e.symm).elim
theorem RoundTrip.rayVisit (ray : Nat) : RoundTrip.Statement (.rayVisit ray) := fun x e => (Option.some_ne_none x e.symm).elim
theorem RoundTrip.rayArrival (ray : Nat) : RoundTrip.Statement (.rayArrival ray) := fun x e => (Option.some_ne_none x e.symm).elim
theorem RoundTrip.rayRefill (stack : Nat) : RoundTrip.Statement (.rayRefill stack) := fun x e => (Option.some_ne_none x e.symm).elim
theorem RoundTrip.trbeginDone (op : Nat) : RoundTrip.Statement (.trbeginDone op) := fun x e => (Option.some_ne_none x e.symm).elim
theorem RoundTrip.dieStoreRequest (pkt : Nat) : RoundTrip.Statement (.dieStoreRequest pkt) := fun x e => (Option.some_ne_none x e.symm).elim
theorem RoundTrip.tierAccess (pkt : Nat) : RoundTrip.Statement (.tierAccess pkt) := fun x e => (Option.some_ne_none x e.symm).elim
theorem RoundTrip.trigWrite (v : Word) : RoundTrip.Statement (.trigWrite v) := fun x e => (Option.some_ne_none x e.symm).elim
theorem RoundTrip.graphUpload (v : Word) : RoundTrip.Statement (.graphUpload v) := fun x e => (Option.some_ne_none x e.symm).elim
theorem RoundTrip.graphRemoval (v : Word) : RoundTrip.Statement (.graphRemoval v) := fun x e => (Option.some_ne_none x e.symm).elim
theorem RoundTrip.uploadCheck  : RoundTrip.Statement .uploadCheck := fun x e => (Option.some_ne_none x e.symm).elim
theorem RoundTrip.hostFlagWrite (n : BitVec 8) (v : Word) : RoundTrip.Statement (.hostFlagWrite n v) := fun x e => (Option.some_ne_none x e.symm).elim
theorem RoundTrip.launchRequest  : RoundTrip.Statement .launchRequest := fun x e => (Option.some_ne_none x e.symm).elim
theorem RoundTrip.fetchwRequest  : RoundTrip.Statement .fetchwRequest := fun x e => (Option.some_ne_none x e.symm).elim
theorem RoundTrip.lineRelease (op : Nat) (line : Line) : RoundTrip.Statement (.lineRelease op line) := fun x e => (Option.some_ne_none x e.symm).elim
theorem RoundTrip.tableWalk (core : Nat) (va : Word) (kind : AccessKind) : RoundTrip.Statement (.tableWalk core va kind) := fun x e => (Option.some_ne_none x e.symm).elim
theorem RoundTrip.ctxLoad (fresh : Bool) : RoundTrip.Statement (.ctxLoad fresh) := fun x e => (Option.some_ne_none x e.symm).elim
theorem RoundTrip.ctxSave  : RoundTrip.Statement .ctxSave := fun x e => (Option.some_ne_none x e.symm).elim
theorem RoundTrip.ctxTeardown  : RoundTrip.Statement .ctxTeardown := fun x e => (Option.some_ne_none x e.symm).elim
theorem RoundTrip.ctxThaw  : RoundTrip.Statement .ctxThaw := fun x e => (Option.some_ne_none x e.symm).elim
theorem RoundTrip.ctxCommandEnd  : RoundTrip.Statement .ctxCommandEnd := fun x e => (Option.some_ne_none x e.symm).elim
theorem RoundTrip.tlbiAll (v : Word) : RoundTrip.Statement (.tlbiAll v) := fun x e => (Option.some_ne_none x e.symm).elim
theorem RoundTrip.tlbiRange (v : Word) : RoundTrip.Statement (.tlbiRange v) := fun x e => (Option.some_ne_none x e.symm).elim
theorem RoundTrip.tlbInvalidationDone  : RoundTrip.Statement .tlbInvalidationDone := fun x e => (Option.some_ne_none x e.symm).elim
theorem RoundTrip.faultReplay (idx : BitVec 32) : RoundTrip.Statement (.faultReplay idx) := fun x e => (Option.some_ne_none x e.symm).elim
theorem RoundTrip.faultAbort (idx : BitVec 32) : RoundTrip.Statement (.faultAbort idx) := fun x e => (Option.some_ne_none x e.symm).elim
theorem RoundTrip.faultFreeze (idx : BitVec 32) : RoundTrip.Statement (.faultFreeze idx) := fun x e => (Option.some_ne_none x e.symm).elim
theorem RoundTrip.queueConsume (queue : Nat) (v : Word) : RoundTrip.Statement (.queueConsume queue v) := fun x e => (Option.some_ne_none x e.symm).elim
theorem RoundTrip.registerWrite (off size : Nat) (v : Word) : RoundTrip.Statement (.registerWrite off size v) := fun x e => (Option.some_ne_none x e.symm).elim
theorem RoundTrip.bar2Access (a : Bar2Access) : RoundTrip.Statement (.bar2Access a) := fun x e => (Option.some_ne_none x e.symm).elim
theorem RoundTrip.attestationRequest (v : Word) : RoundTrip.Statement (.attestationRequest v) := fun x e => (Option.some_ne_none x e.symm).elim
theorem RoundTrip.firmwareUpdate (v : Word) : RoundTrip.Statement (.firmwareUpdate v) := fun x e => (Option.some_ne_none x e.symm).elim
theorem RoundTrip.firmwareJobDone (ok : Bool) : RoundTrip.Statement (.firmwareJobDone ok) := fun x e => (Option.some_ne_none x e.symm).elim
theorem RoundTrip.boot (outcome : BootOutcome) : RoundTrip.Statement (.boot outcome) := fun x e => (Option.some_ne_none x e.symm).elim
theorem RoundTrip.tierPortEnable (port : Nat) (v : Word) : RoundTrip.Statement (.tierPortEnable port v) := fun x e => (Option.some_ne_none x e.symm).elim
theorem RoundTrip.tierPortDisable (port : Nat) (v : Word) : RoundTrip.Statement (.tierPortDisable port v) := fun x e => (Option.some_ne_none x e.symm).elim
theorem RoundTrip.tierClearQuarantine (port : Nat) (v : Word) : RoundTrip.Statement (.tierClearQuarantine port v) := fun x e => (Option.some_ne_none x e.symm).elim
theorem RoundTrip.tierLinkUp (port : Nat) (cap : BitVec 32) : RoundTrip.Statement (.tierLinkUp port cap) := fun x e => (Option.some_ne_none x e.symm).elim
theorem RoundTrip.tierQuarantine (port : Nat) : RoundTrip.Statement (.tierQuarantine port) := fun x e => (Option.some_ne_none x e.symm).elim
theorem RoundTrip.nycelPortEnable (port : Nat) (v : Word) : RoundTrip.Statement (.nycelPortEnable port v) := fun x e => (Option.some_ne_none x e.symm).elim
theorem RoundTrip.nycelPortThaw (port : Nat) (v : Word) : RoundTrip.Statement (.nycelPortThaw port v) := fun x e => (Option.some_ne_none x e.symm).elim
theorem RoundTrip.nycelLinkUp (port : Nat) (peer : BitVec 12) : RoundTrip.Statement (.nycelLinkUp port peer) := fun x e => (Option.some_ne_none x e.symm).elim
theorem RoundTrip.nycelFlit (port : Nat) (flit : Flit) : RoundTrip.Statement (.nycelFlit port flit) := fun x e => (Option.some_ne_none x e.symm).elim
theorem RoundTrip.peerRequest (port : Nat) (req : PeerReq) : RoundTrip.Statement (.peerRequest port req) := fun x e => (Option.some_ne_none x e.symm).elim
theorem RoundTrip.nycelPortLeave (port : Nat) : RoundTrip.Statement (.nycelPortLeave port) := fun x e => (Option.some_ne_none x e.symm).elim
theorem RoundTrip.ageCapExpiry (stack channel : Nat) : RoundTrip.Statement (.ageCapExpiry stack channel) := fun x e => (Option.some_ne_none x e.symm).elim
theorem RoundTrip.powerDownEntry (stack pseudo : Nat) : RoundTrip.Statement (.powerDownEntry stack pseudo) := fun x e => (Option.some_ne_none x e.symm).elim
theorem RoundTrip.selfRefreshEntry (stack pseudo : Nat) : RoundTrip.Statement (.selfRefreshEntry stack pseudo) := fun x e => (Option.some_ne_none x e.symm).elim
theorem RoundTrip.lineRebuild (pa : Nat) (source : RebuildSource) : RoundTrip.Statement (.lineRebuild pa source) := fun x e => (Option.some_ne_none x e.symm).elim
theorem RoundTrip.scrubError (err : SramError) : RoundTrip.Statement (.scrubError err) := fun x e => (Option.some_ne_none x e.symm).elim
theorem RoundTrip.fnrmRequest (stack : Nat) (v : Word) : RoundTrip.Statement (.fnrmRequest stack v) := fun x e => (Option.some_ne_none x e.symm).elim
theorem RoundTrip.filterRequest (op lane : Nat) : RoundTrip.Statement (.filterRequest op lane) := fun x e => (Option.some_ne_none x e.symm).elim
theorem RoundTrip.attnCommand (op lane : Nat) : RoundTrip.Statement (.attnCommand op lane) := fun x e => (Option.some_ne_none x e.symm).elim
theorem RoundTrip.tableRequest (op unit : Nat) : RoundTrip.Statement (.tableRequest op unit) := fun x e => (Option.some_ne_none x e.symm).elim
theorem RoundTrip.governorWindow (milliwatts : Nat) : RoundTrip.Statement (.governorWindow milliwatts) := fun x e => (Option.some_ne_none x e.symm).elim
theorem RoundTrip.governorIdleReset  : RoundTrip.Statement .governorIdleReset := fun x e => (Option.some_ne_none x e.symm).elim
theorem RoundTrip.thermalAlert (temp : BitVec 16) : RoundTrip.Statement (.thermalAlert temp) := fun x e => (Option.some_ne_none x e.symm).elim
theorem RoundTrip.thermalShutdown  : RoundTrip.Statement .thermalShutdown := fun x e => (Option.some_ne_none x e.symm).elim
theorem RoundTrip.refresh (stack bank : Nat) : RoundTrip.Statement (.refresh stack bank) := fun x e => (Option.some_ne_none x e.symm).elim
theorem RoundTrip.thermalAlertClear (temp : BitVec 16) : RoundTrip.Statement (.thermalAlertClear temp) := fun x e => (Option.some_ne_none x e.symm).elim

end Sys2Proof.Laws
end

