-- ==== Sys2Proof/Laws/State.lean ====
section
/-!
SUPPORT. What the named updates of the state leave as it was, field by field: with these, no proof unfolds a record
update.
-/
namespace Sys2Proof.Machine

@[simp] theorem Mach.modGroup_cyc (m : Mach) (gid : Nat) (f : Group → Group) :
    (m.modGroup gid f).cyc = m.cyc := by
  delta Mach.modGroup; with_reducible rfl
@[simp] theorem Mach.modGroup_mem (m : Mach) (gid : Nat) (f : Group → Group) :
    (m.modGroup gid f).mem = m.mem := by
  delta Mach.modGroup; with_reducible rfl
@[simp] theorem Mach.modGroup_tiles (m : Mach) (gid : Nat) (f : Group → Group) :
    (m.modGroup gid f).tiles = m.tiles := by
  delta Mach.modGroup; with_reducible rfl
@[simp] theorem Mach.modGroup_teams (m : Mach) (gid : Nat) (f : Group → Group) :
    (m.modGroup gid f).ctx.teams = m.ctx.teams := by
  delta Mach.modGroup; with_reducible rfl
@[simp] theorem Mach.modGroup_clusters (m : Mach) (gid : Nat) (f : Group → Group) :
    (m.modGroup gid f).ctx.clusters = m.ctx.clusters := by
  delta Mach.modGroup; with_reducible rfl
@[simp] theorem Mach.modGroup_grids (m : Mach) (gid : Nat) (f : Group → Group) :
    (m.modGroup gid f).ctx.grids = m.ctx.grids := by
  delta Mach.modGroup; with_reducible rfl
@[simp] theorem Mach.modGroup_graphs (m : Mach) (gid : Nat) (f : Group → Group) :
    (m.modGroup gid f).ctx.graphs = m.ctx.graphs := by
  delta Mach.modGroup; with_reducible rfl
@[simp] theorem Mach.modGroup_detached (m : Mach) (gid : Nat) (f : Group → Group) :
    (m.modGroup gid f).ctx.detached = m.ctx.detached := by
  delta Mach.modGroup; with_reducible rfl
@[simp] theorem Mach.modGroup_detachedNext (m : Mach) (gid : Nat) (f : Group → Group) :
    (m.modGroup gid f).ctx.detachedNext = m.ctx.detachedNext := by
  delta Mach.modGroup; with_reducible rfl
@[simp] theorem Mach.modGroup_trigs (m : Mach) (gid : Nat) (f : Group → Group) :
    (m.modGroup gid f).ctx.trigs = m.ctx.trigs := by
  delta Mach.modGroup; with_reducible rfl
@[simp] theorem Mach.modGroup_launches (m : Mach) (gid : Nat) (f : Group → Group) :
    (m.modGroup gid f).ctx.launches = m.ctx.launches := by
  delta Mach.modGroup; with_reducible rfl
@[simp] theorem Mach.modGroup_fetches (m : Mach) (gid : Nat) (f : Group → Group) :
    (m.modGroup gid f).ctx.fetches = m.ctx.fetches := by
  delta Mach.modGroup; with_reducible rfl
@[simp] theorem Mach.modGroup_hflags (m : Mach) (gid : Nat) (f : Group → Group) :
    (m.modGroup gid f).ctx.hflags = m.ctx.hflags := by
  delta Mach.modGroup; with_reducible rfl
@[simp] theorem Mach.modGroup_ops (m : Mach) (gid : Nat) (f : Group → Group) :
    (m.modGroup gid f).ctx.ops = m.ctx.ops := by
  delta Mach.modGroup; with_reducible rfl
@[simp] theorem Mach.modGroup_rays (m : Mach) (gid : Nat) (f : Group → Group) :
    (m.modGroup gid f).ctx.rays = m.ctx.rays := by
  delta Mach.modGroup; with_reducible rfl
@[simp] theorem Mach.modGroup_treelets (m : Mach) (gid : Nat) (f : Group → Group) :
    (m.modGroup gid f).ctx.treelets = m.ctx.treelets := by
  delta Mach.modGroup; with_reducible rfl
@[simp] theorem Mach.modGroup_regions (m : Mach) (gid : Nat) (f : Group → Group) :
    (m.modGroup gid f).ctx.regions = m.ctx.regions := by
  delta Mach.modGroup; with_reducible rfl
@[simp] theorem Mach.modGroup_dfbase (m : Mach) (gid : Nat) (f : Group → Group) :
    (m.modGroup gid f).ctx.dfbase = m.ctx.dfbase := by
  delta Mach.modGroup; with_reducible rfl
@[simp] theorem Mach.modGroup_dfsize (m : Mach) (gid : Nat) (f : Group → Group) :
    (m.modGroup gid f).ctx.dfsize = m.ctx.dfsize := by
  delta Mach.modGroup; with_reducible rfl
@[simp] theorem Mach.modGroup_saves (m : Mach) (gid : Nat) (f : Group → Group) :
    (m.modGroup gid f).saves = m.saves := by
  delta Mach.modGroup; with_reducible rfl
@[simp] theorem Mach.modGroup_cache (m : Mach) (gid : Nat) (f : Group → Group) :
    (m.modGroup gid f).cache = m.cache := by
  delta Mach.modGroup; with_reducible rfl
@[simp] theorem Mach.modGroup_tlb (m : Mach) (gid : Nat) (f : Group → Group) :
    (m.modGroup gid f).tlb = m.tlb := by
  delta Mach.modGroup; with_reducible rfl
@[simp] theorem Mach.modGroup_own (m : Mach) (gid : Nat) (f : Group → Group) :
    (m.modGroup gid f).own = m.own := by
  delta Mach.modGroup; with_reducible rfl
@[simp] theorem Mach.modGroup_posted (m : Mach) (gid : Nat) (f : Group → Group) :
    (m.modGroup gid f).posted = m.posted := by
  delta Mach.modGroup; with_reducible rfl
@[simp] theorem Mach.modGroup_net (m : Mach) (gid : Nat) (f : Group → Group) :
    (m.modGroup gid f).net = m.net := by
  delta Mach.modGroup; with_reducible rfl
@[simp] theorem Mach.modGroup_faults (m : Mach) (gid : Nat) (f : Group → Group) :
    (m.modGroup gid f).faults = m.faults := by
  delta Mach.modGroup; with_reducible rfl
@[simp] theorem Mach.modGroup_freezes (m : Mach) (gid : Nat) (f : Group → Group) :
    (m.modGroup gid f).freezes = m.freezes := by
  delta Mach.modGroup; with_reducible rfl
@[simp] theorem Mach.modGroup_logs (m : Mach) (gid : Nat) (f : Group → Group) :
    (m.modGroup gid f).logs = m.logs := by
  delta Mach.modGroup; with_reducible rfl
@[simp] theorem Mach.modGroup_staged (m : Mach) (gid : Nat) (f : Group → Group) :
    (m.modGroup gid f).staged = m.staged := by
  delta Mach.modGroup; with_reducible rfl
@[simp] theorem Mach.modGroup_cellars (m : Mach) (gid : Nat) (f : Group → Group) :
    (m.modGroup gid f).cellars = m.cellars := by
  delta Mach.modGroup; with_reducible rfl
@[simp] theorem Mach.modGroup_backed (m : Mach) (gid : Nat) (f : Group → Group) :
    (m.modGroup gid f).backed = m.backed := by
  delta Mach.modGroup; with_reducible rfl
@[simp] theorem Mach.modGroup_tiers (m : Mach) (gid : Nat) (f : Group → Group) :
    (m.modGroup gid f).tiers = m.tiers := by
  delta Mach.modGroup; with_reducible rfl
@[simp] theorem Mach.modGroup_nycels (m : Mach) (gid : Nat) (f : Group → Group) :
    (m.modGroup gid f).nycels = m.nycels := by
  delta Mach.modGroup; with_reducible rfl
@[simp] theorem Mach.modGroup_attnInWindow (m : Mach) (gid : Nat) (f : Group → Group) :
    (m.modGroup gid f).attnInWindow = m.attnInWindow := by
  delta Mach.modGroup; with_reducible rfl
@[simp] theorem Mach.modGroup_attnLast (m : Mach) (gid : Nat) (f : Group → Group) :
    (m.modGroup gid f).attnLast = m.attnLast := by
  delta Mach.modGroup; with_reducible rfl
@[simp] theorem Mach.modGroup_govFrom (m : Mach) (gid : Nat) (f : Group → Group) :
    (m.modGroup gid f).govFrom = m.govFrom := by
  delta Mach.modGroup; with_reducible rfl
@[simp] theorem Mach.modGroup_reports (m : Mach) (gid : Nat) (f : Group → Group) :
    (m.modGroup gid f).reports = m.reports := by
  delta Mach.modGroup; with_reducible rfl
@[simp] theorem Mach.modGroup_script (m : Mach) (gid : Nat) (f : Group → Group) :
    (m.modGroup gid f).script = m.script := by
  delta Mach.modGroup; with_reducible rfl
@[simp] theorem Mach.modGroup_cur (m : Mach) (gid : Nat) (f : Group → Group) :
    (m.modGroup gid f).cur = m.cur := by
  delta Mach.modGroup; with_reducible rfl
@[simp] theorem Mach.modGroup_freeCtr (m : Mach) (gid : Nat) (f : Group → Group) :
    (m.modGroup gid f).freeCtr = m.freeCtr := by
  delta Mach.modGroup; with_reducible rfl
@[simp] theorem Mach.modGroup_nextId (m : Mach) (gid : Nat) (f : Group → Group) :
    (m.modGroup gid f).nextId = m.nextId := by
  delta Mach.modGroup; with_reducible rfl
@[simp] theorem Mach.modTeam_cyc (m : Mach) (tid : Nat) (f : Team → Team) :
    (m.modTeam tid f).cyc = m.cyc := by
  delta Mach.modTeam; with_reducible rfl
@[simp] theorem Mach.modTeam_mem (m : Mach) (tid : Nat) (f : Team → Team) :
    (m.modTeam tid f).mem = m.mem := by
  delta Mach.modTeam; with_reducible rfl
@[simp] theorem Mach.modTeam_tiles (m : Mach) (tid : Nat) (f : Team → Team) :
    (m.modTeam tid f).tiles = m.tiles := by
  delta Mach.modTeam; with_reducible rfl
@[simp] theorem Mach.modTeam_groups (m : Mach) (tid : Nat) (f : Team → Team) :
    (m.modTeam tid f).ctx.groups = m.ctx.groups := by
  delta Mach.modTeam; with_reducible rfl
@[simp] theorem Mach.modTeam_clusters (m : Mach) (tid : Nat) (f : Team → Team) :
    (m.modTeam tid f).ctx.clusters = m.ctx.clusters := by
  delta Mach.modTeam; with_reducible rfl
@[simp] theorem Mach.modTeam_grids (m : Mach) (tid : Nat) (f : Team → Team) :
    (m.modTeam tid f).ctx.grids = m.ctx.grids := by
  delta Mach.modTeam; with_reducible rfl
@[simp] theorem Mach.modTeam_graphs (m : Mach) (tid : Nat) (f : Team → Team) :
    (m.modTeam tid f).ctx.graphs = m.ctx.graphs := by
  delta Mach.modTeam; with_reducible rfl
@[simp] theorem Mach.modTeam_detached (m : Mach) (tid : Nat) (f : Team → Team) :
    (m.modTeam tid f).ctx.detached = m.ctx.detached := by
  delta Mach.modTeam; with_reducible rfl
@[simp] theorem Mach.modTeam_detachedNext (m : Mach) (tid : Nat) (f : Team → Team) :
    (m.modTeam tid f).ctx.detachedNext = m.ctx.detachedNext := by
  delta Mach.modTeam; with_reducible rfl
@[simp] theorem Mach.modTeam_trigs (m : Mach) (tid : Nat) (f : Team → Team) :
    (m.modTeam tid f).ctx.trigs = m.ctx.trigs := by
  delta Mach.modTeam; with_reducible rfl
@[simp] theorem Mach.modTeam_launches (m : Mach) (tid : Nat) (f : Team → Team) :
    (m.modTeam tid f).ctx.launches = m.ctx.launches := by
  delta Mach.modTeam; with_reducible rfl
@[simp] theorem Mach.modTeam_fetches (m : Mach) (tid : Nat) (f : Team → Team) :
    (m.modTeam tid f).ctx.fetches = m.ctx.fetches := by
  delta Mach.modTeam; with_reducible rfl
@[simp] theorem Mach.modTeam_hflags (m : Mach) (tid : Nat) (f : Team → Team) :
    (m.modTeam tid f).ctx.hflags = m.ctx.hflags := by
  delta Mach.modTeam; with_reducible rfl
@[simp] theorem Mach.modTeam_ops (m : Mach) (tid : Nat) (f : Team → Team) :
    (m.modTeam tid f).ctx.ops = m.ctx.ops := by
  delta Mach.modTeam; with_reducible rfl
@[simp] theorem Mach.modTeam_rays (m : Mach) (tid : Nat) (f : Team → Team) :
    (m.modTeam tid f).ctx.rays = m.ctx.rays := by
  delta Mach.modTeam; with_reducible rfl
@[simp] theorem Mach.modTeam_treelets (m : Mach) (tid : Nat) (f : Team → Team) :
    (m.modTeam tid f).ctx.treelets = m.ctx.treelets := by
  delta Mach.modTeam; with_reducible rfl
@[simp] theorem Mach.modTeam_regions (m : Mach) (tid : Nat) (f : Team → Team) :
    (m.modTeam tid f).ctx.regions = m.ctx.regions := by
  delta Mach.modTeam; with_reducible rfl
@[simp] theorem Mach.modTeam_dfbase (m : Mach) (tid : Nat) (f : Team → Team) :
    (m.modTeam tid f).ctx.dfbase = m.ctx.dfbase := by
  delta Mach.modTeam; with_reducible rfl
@[simp] theorem Mach.modTeam_dfsize (m : Mach) (tid : Nat) (f : Team → Team) :
    (m.modTeam tid f).ctx.dfsize = m.ctx.dfsize := by
  delta Mach.modTeam; with_reducible rfl
@[simp] theorem Mach.modTeam_saves (m : Mach) (tid : Nat) (f : Team → Team) :
    (m.modTeam tid f).saves = m.saves := by
  delta Mach.modTeam; with_reducible rfl
@[simp] theorem Mach.modTeam_cache (m : Mach) (tid : Nat) (f : Team → Team) :
    (m.modTeam tid f).cache = m.cache := by
  delta Mach.modTeam; with_reducible rfl
@[simp] theorem Mach.modTeam_tlb (m : Mach) (tid : Nat) (f : Team → Team) :
    (m.modTeam tid f).tlb = m.tlb := by
  delta Mach.modTeam; with_reducible rfl
@[simp] theorem Mach.modTeam_own (m : Mach) (tid : Nat) (f : Team → Team) :
    (m.modTeam tid f).own = m.own := by
  delta Mach.modTeam; with_reducible rfl
@[simp] theorem Mach.modTeam_posted (m : Mach) (tid : Nat) (f : Team → Team) :
    (m.modTeam tid f).posted = m.posted := by
  delta Mach.modTeam; with_reducible rfl
@[simp] theorem Mach.modTeam_net (m : Mach) (tid : Nat) (f : Team → Team) :
    (m.modTeam tid f).net = m.net := by
  delta Mach.modTeam; with_reducible rfl
@[simp] theorem Mach.modTeam_faults (m : Mach) (tid : Nat) (f : Team → Team) :
    (m.modTeam tid f).faults = m.faults := by
  delta Mach.modTeam; with_reducible rfl
@[simp] theorem Mach.modTeam_freezes (m : Mach) (tid : Nat) (f : Team → Team) :
    (m.modTeam tid f).freezes = m.freezes := by
  delta Mach.modTeam; with_reducible rfl
@[simp] theorem Mach.modTeam_logs (m : Mach) (tid : Nat) (f : Team → Team) :
    (m.modTeam tid f).logs = m.logs := by
  delta Mach.modTeam; with_reducible rfl
@[simp] theorem Mach.modTeam_staged (m : Mach) (tid : Nat) (f : Team → Team) :
    (m.modTeam tid f).staged = m.staged := by
  delta Mach.modTeam; with_reducible rfl
@[simp] theorem Mach.modTeam_cellars (m : Mach) (tid : Nat) (f : Team → Team) :
    (m.modTeam tid f).cellars = m.cellars := by
  delta Mach.modTeam; with_reducible rfl
@[simp] theorem Mach.modTeam_backed (m : Mach) (tid : Nat) (f : Team → Team) :
    (m.modTeam tid f).backed = m.backed := by
  delta Mach.modTeam; with_reducible rfl
@[simp] theorem Mach.modTeam_tiers (m : Mach) (tid : Nat) (f : Team → Team) :
    (m.modTeam tid f).tiers = m.tiers := by
  delta Mach.modTeam; with_reducible rfl
@[simp] theorem Mach.modTeam_nycels (m : Mach) (tid : Nat) (f : Team → Team) :
    (m.modTeam tid f).nycels = m.nycels := by
  delta Mach.modTeam; with_reducible rfl
@[simp] theorem Mach.modTeam_attnInWindow (m : Mach) (tid : Nat) (f : Team → Team) :
    (m.modTeam tid f).attnInWindow = m.attnInWindow := by
  delta Mach.modTeam; with_reducible rfl
@[simp] theorem Mach.modTeam_attnLast (m : Mach) (tid : Nat) (f : Team → Team) :
    (m.modTeam tid f).attnLast = m.attnLast := by
  delta Mach.modTeam; with_reducible rfl
@[simp] theorem Mach.modTeam_govFrom (m : Mach) (tid : Nat) (f : Team → Team) :
    (m.modTeam tid f).govFrom = m.govFrom := by
  delta Mach.modTeam; with_reducible rfl
@[simp] theorem Mach.modTeam_reports (m : Mach) (tid : Nat) (f : Team → Team) :
    (m.modTeam tid f).reports = m.reports := by
  delta Mach.modTeam; with_reducible rfl
@[simp] theorem Mach.modTeam_script (m : Mach) (tid : Nat) (f : Team → Team) :
    (m.modTeam tid f).script = m.script := by
  delta Mach.modTeam; with_reducible rfl
@[simp] theorem Mach.modTeam_cur (m : Mach) (tid : Nat) (f : Team → Team) :
    (m.modTeam tid f).cur = m.cur := by
  delta Mach.modTeam; with_reducible rfl
@[simp] theorem Mach.modTeam_freeCtr (m : Mach) (tid : Nat) (f : Team → Team) :
    (m.modTeam tid f).freeCtr = m.freeCtr := by
  delta Mach.modTeam; with_reducible rfl
@[simp] theorem Mach.modTeam_nextId (m : Mach) (tid : Nat) (f : Team → Team) :
    (m.modTeam tid f).nextId = m.nextId := by
  delta Mach.modTeam; with_reducible rfl
@[simp] theorem Mach.modGrid_cyc (m : Mach) (h : BitVec 32) (f : Grid → Grid) :
    (m.modGrid h f).cyc = m.cyc := by
  delta Mach.modGrid; with_reducible rfl
@[simp] theorem Mach.modGrid_mem (m : Mach) (h : BitVec 32) (f : Grid → Grid) :
    (m.modGrid h f).mem = m.mem := by
  delta Mach.modGrid; with_reducible rfl
@[simp] theorem Mach.modGrid_tiles (m : Mach) (h : BitVec 32) (f : Grid → Grid) :
    (m.modGrid h f).tiles = m.tiles := by
  delta Mach.modGrid; with_reducible rfl
@[simp] theorem Mach.modGrid_groups (m : Mach) (h : BitVec 32) (f : Grid → Grid) :
    (m.modGrid h f).ctx.groups = m.ctx.groups := by
  delta Mach.modGrid; with_reducible rfl
@[simp] theorem Mach.modGrid_teams (m : Mach) (h : BitVec 32) (f : Grid → Grid) :
    (m.modGrid h f).ctx.teams = m.ctx.teams := by
  delta Mach.modGrid; with_reducible rfl
@[simp] theorem Mach.modGrid_clusters (m : Mach) (h : BitVec 32) (f : Grid → Grid) :
    (m.modGrid h f).ctx.clusters = m.ctx.clusters := by
  delta Mach.modGrid; with_reducible rfl
@[simp] theorem Mach.modGrid_graphs (m : Mach) (h : BitVec 32) (f : Grid → Grid) :
    (m.modGrid h f).ctx.graphs = m.ctx.graphs := by
  delta Mach.modGrid; with_reducible rfl
@[simp] theorem Mach.modGrid_detached (m : Mach) (h : BitVec 32) (f : Grid → Grid) :
    (m.modGrid h f).ctx.detached = m.ctx.detached := by
  delta Mach.modGrid; with_reducible rfl
@[simp] theorem Mach.modGrid_detachedNext (m : Mach) (h : BitVec 32) (f : Grid → Grid) :
    (m.modGrid h f).ctx.detachedNext = m.ctx.detachedNext := by
  delta Mach.modGrid; with_reducible rfl
@[simp] theorem Mach.modGrid_trigs (m : Mach) (h : BitVec 32) (f : Grid → Grid) :
    (m.modGrid h f).ctx.trigs = m.ctx.trigs := by
  delta Mach.modGrid; with_reducible rfl
@[simp] theorem Mach.modGrid_launches (m : Mach) (h : BitVec 32) (f : Grid → Grid) :
    (m.modGrid h f).ctx.launches = m.ctx.launches := by
  delta Mach.modGrid; with_reducible rfl
@[simp] theorem Mach.modGrid_fetches (m : Mach) (h : BitVec 32) (f : Grid → Grid) :
    (m.modGrid h f).ctx.fetches = m.ctx.fetches := by
  delta Mach.modGrid; with_reducible rfl
@[simp] theorem Mach.modGrid_hflags (m : Mach) (h : BitVec 32) (f : Grid → Grid) :
    (m.modGrid h f).ctx.hflags = m.ctx.hflags := by
  delta Mach.modGrid; with_reducible rfl
@[simp] theorem Mach.modGrid_ops (m : Mach) (h : BitVec 32) (f : Grid → Grid) :
    (m.modGrid h f).ctx.ops = m.ctx.ops := by
  delta Mach.modGrid; with_reducible rfl
@[simp] theorem Mach.modGrid_rays (m : Mach) (h : BitVec 32) (f : Grid → Grid) :
    (m.modGrid h f).ctx.rays = m.ctx.rays := by
  delta Mach.modGrid; with_reducible rfl
@[simp] theorem Mach.modGrid_treelets (m : Mach) (h : BitVec 32) (f : Grid → Grid) :
    (m.modGrid h f).ctx.treelets = m.ctx.treelets := by
  delta Mach.modGrid; with_reducible rfl
@[simp] theorem Mach.modGrid_regions (m : Mach) (h : BitVec 32) (f : Grid → Grid) :
    (m.modGrid h f).ctx.regions = m.ctx.regions := by
  delta Mach.modGrid; with_reducible rfl
@[simp] theorem Mach.modGrid_dfbase (m : Mach) (h : BitVec 32) (f : Grid → Grid) :
    (m.modGrid h f).ctx.dfbase = m.ctx.dfbase := by
  delta Mach.modGrid; with_reducible rfl
@[simp] theorem Mach.modGrid_dfsize (m : Mach) (h : BitVec 32) (f : Grid → Grid) :
    (m.modGrid h f).ctx.dfsize = m.ctx.dfsize := by
  delta Mach.modGrid; with_reducible rfl
@[simp] theorem Mach.modGrid_saves (m : Mach) (h : BitVec 32) (f : Grid → Grid) :
    (m.modGrid h f).saves = m.saves := by
  delta Mach.modGrid; with_reducible rfl
@[simp] theorem Mach.modGrid_cache (m : Mach) (h : BitVec 32) (f : Grid → Grid) :
    (m.modGrid h f).cache = m.cache := by
  delta Mach.modGrid; with_reducible rfl
@[simp] theorem Mach.modGrid_tlb (m : Mach) (h : BitVec 32) (f : Grid → Grid) :
    (m.modGrid h f).tlb = m.tlb := by
  delta Mach.modGrid; with_reducible rfl
@[simp] theorem Mach.modGrid_own (m : Mach) (h : BitVec 32) (f : Grid → Grid) :
    (m.modGrid h f).own = m.own := by
  delta Mach.modGrid; with_reducible rfl
@[simp] theorem Mach.modGrid_posted (m : Mach) (h : BitVec 32) (f : Grid → Grid) :
    (m.modGrid h f).posted = m.posted := by
  delta Mach.modGrid; with_reducible rfl
@[simp] theorem Mach.modGrid_net (m : Mach) (h : BitVec 32) (f : Grid → Grid) :
    (m.modGrid h f).net = m.net := by
  delta Mach.modGrid; with_reducible rfl
@[simp] theorem Mach.modGrid_faults (m : Mach) (h : BitVec 32) (f : Grid → Grid) :
    (m.modGrid h f).faults = m.faults := by
  delta Mach.modGrid; with_reducible rfl
@[simp] theorem Mach.modGrid_freezes (m : Mach) (h : BitVec 32) (f : Grid → Grid) :
    (m.modGrid h f).freezes = m.freezes := by
  delta Mach.modGrid; with_reducible rfl
@[simp] theorem Mach.modGrid_logs (m : Mach) (h : BitVec 32) (f : Grid → Grid) :
    (m.modGrid h f).logs = m.logs := by
  delta Mach.modGrid; with_reducible rfl
@[simp] theorem Mach.modGrid_staged (m : Mach) (h : BitVec 32) (f : Grid → Grid) :
    (m.modGrid h f).staged = m.staged := by
  delta Mach.modGrid; with_reducible rfl
@[simp] theorem Mach.modGrid_cellars (m : Mach) (h : BitVec 32) (f : Grid → Grid) :
    (m.modGrid h f).cellars = m.cellars := by
  delta Mach.modGrid; with_reducible rfl
@[simp] theorem Mach.modGrid_backed (m : Mach) (h : BitVec 32) (f : Grid → Grid) :
    (m.modGrid h f).backed = m.backed := by
  delta Mach.modGrid; with_reducible rfl
@[simp] theorem Mach.modGrid_tiers (m : Mach) (h : BitVec 32) (f : Grid → Grid) :
    (m.modGrid h f).tiers = m.tiers := by
  delta Mach.modGrid; with_reducible rfl
@[simp] theorem Mach.modGrid_nycels (m : Mach) (h : BitVec 32) (f : Grid → Grid) :
    (m.modGrid h f).nycels = m.nycels := by
  delta Mach.modGrid; with_reducible rfl
@[simp] theorem Mach.modGrid_attnInWindow (m : Mach) (h : BitVec 32) (f : Grid → Grid) :
    (m.modGrid h f).attnInWindow = m.attnInWindow := by
  delta Mach.modGrid; with_reducible rfl
@[simp] theorem Mach.modGrid_attnLast (m : Mach) (h : BitVec 32) (f : Grid → Grid) :
    (m.modGrid h f).attnLast = m.attnLast := by
  delta Mach.modGrid; with_reducible rfl
@[simp] theorem Mach.modGrid_govFrom (m : Mach) (h : BitVec 32) (f : Grid → Grid) :
    (m.modGrid h f).govFrom = m.govFrom := by
  delta Mach.modGrid; with_reducible rfl
@[simp] theorem Mach.modGrid_reports (m : Mach) (h : BitVec 32) (f : Grid → Grid) :
    (m.modGrid h f).reports = m.reports := by
  delta Mach.modGrid; with_reducible rfl
@[simp] theorem Mach.modGrid_script (m : Mach) (h : BitVec 32) (f : Grid → Grid) :
    (m.modGrid h f).script = m.script := by
  delta Mach.modGrid; with_reducible rfl
@[simp] theorem Mach.modGrid_cur (m : Mach) (h : BitVec 32) (f : Grid → Grid) :
    (m.modGrid h f).cur = m.cur := by
  delta Mach.modGrid; with_reducible rfl
@[simp] theorem Mach.modGrid_freeCtr (m : Mach) (h : BitVec 32) (f : Grid → Grid) :
    (m.modGrid h f).freeCtr = m.freeCtr := by
  delta Mach.modGrid; with_reducible rfl
@[simp] theorem Mach.modGrid_nextId (m : Mach) (h : BitVec 32) (f : Grid → Grid) :
    (m.modGrid h f).nextId = m.nextId := by
  delta Mach.modGrid; with_reducible rfl
@[simp] theorem Mach.modCluster_cyc (m : Mach) (k : Nat) (f : Cluster → Cluster) :
    (m.modCluster k f).cyc = m.cyc := by
  delta Mach.modCluster; with_reducible rfl
@[simp] theorem Mach.modCluster_mem (m : Mach) (k : Nat) (f : Cluster → Cluster) :
    (m.modCluster k f).mem = m.mem := by
  delta Mach.modCluster; with_reducible rfl
@[simp] theorem Mach.modCluster_tiles (m : Mach) (k : Nat) (f : Cluster → Cluster) :
    (m.modCluster k f).tiles = m.tiles := by
  delta Mach.modCluster; with_reducible rfl
@[simp] theorem Mach.modCluster_groups (m : Mach) (k : Nat) (f : Cluster → Cluster) :
    (m.modCluster k f).ctx.groups = m.ctx.groups := by
  delta Mach.modCluster; with_reducible rfl
@[simp] theorem Mach.modCluster_teams (m : Mach) (k : Nat) (f : Cluster → Cluster) :
    (m.modCluster k f).ctx.teams = m.ctx.teams := by
  delta Mach.modCluster; with_reducible rfl
@[simp] theorem Mach.modCluster_grids (m : Mach) (k : Nat) (f : Cluster → Cluster) :
    (m.modCluster k f).ctx.grids = m.ctx.grids := by
  delta Mach.modCluster; with_reducible rfl
@[simp] theorem Mach.modCluster_graphs (m : Mach) (k : Nat) (f : Cluster → Cluster) :
    (m.modCluster k f).ctx.graphs = m.ctx.graphs := by
  delta Mach.modCluster; with_reducible rfl
@[simp] theorem Mach.modCluster_detached (m : Mach) (k : Nat) (f : Cluster → Cluster) :
    (m.modCluster k f).ctx.detached = m.ctx.detached := by
  delta Mach.modCluster; with_reducible rfl
@[simp] theorem Mach.modCluster_detachedNext (m : Mach) (k : Nat) (f : Cluster → Cluster) :
    (m.modCluster k f).ctx.detachedNext = m.ctx.detachedNext := by
  delta Mach.modCluster; with_reducible rfl
@[simp] theorem Mach.modCluster_trigs (m : Mach) (k : Nat) (f : Cluster → Cluster) :
    (m.modCluster k f).ctx.trigs = m.ctx.trigs := by
  delta Mach.modCluster; with_reducible rfl
@[simp] theorem Mach.modCluster_launches (m : Mach) (k : Nat) (f : Cluster → Cluster) :
    (m.modCluster k f).ctx.launches = m.ctx.launches := by
  delta Mach.modCluster; with_reducible rfl
@[simp] theorem Mach.modCluster_fetches (m : Mach) (k : Nat) (f : Cluster → Cluster) :
    (m.modCluster k f).ctx.fetches = m.ctx.fetches := by
  delta Mach.modCluster; with_reducible rfl
@[simp] theorem Mach.modCluster_hflags (m : Mach) (k : Nat) (f : Cluster → Cluster) :
    (m.modCluster k f).ctx.hflags = m.ctx.hflags := by
  delta Mach.modCluster; with_reducible rfl
@[simp] theorem Mach.modCluster_ops (m : Mach) (k : Nat) (f : Cluster → Cluster) :
    (m.modCluster k f).ctx.ops = m.ctx.ops := by
  delta Mach.modCluster; with_reducible rfl
@[simp] theorem Mach.modCluster_rays (m : Mach) (k : Nat) (f : Cluster → Cluster) :
    (m.modCluster k f).ctx.rays = m.ctx.rays := by
  delta Mach.modCluster; with_reducible rfl
@[simp] theorem Mach.modCluster_treelets (m : Mach) (k : Nat) (f : Cluster → Cluster) :
    (m.modCluster k f).ctx.treelets = m.ctx.treelets := by
  delta Mach.modCluster; with_reducible rfl
@[simp] theorem Mach.modCluster_regions (m : Mach) (k : Nat) (f : Cluster → Cluster) :
    (m.modCluster k f).ctx.regions = m.ctx.regions := by
  delta Mach.modCluster; with_reducible rfl
@[simp] theorem Mach.modCluster_dfbase (m : Mach) (k : Nat) (f : Cluster → Cluster) :
    (m.modCluster k f).ctx.dfbase = m.ctx.dfbase := by
  delta Mach.modCluster; with_reducible rfl
@[simp] theorem Mach.modCluster_dfsize (m : Mach) (k : Nat) (f : Cluster → Cluster) :
    (m.modCluster k f).ctx.dfsize = m.ctx.dfsize := by
  delta Mach.modCluster; with_reducible rfl
@[simp] theorem Mach.modCluster_saves (m : Mach) (k : Nat) (f : Cluster → Cluster) :
    (m.modCluster k f).saves = m.saves := by
  delta Mach.modCluster; with_reducible rfl
@[simp] theorem Mach.modCluster_cache (m : Mach) (k : Nat) (f : Cluster → Cluster) :
    (m.modCluster k f).cache = m.cache := by
  delta Mach.modCluster; with_reducible rfl
@[simp] theorem Mach.modCluster_tlb (m : Mach) (k : Nat) (f : Cluster → Cluster) :
    (m.modCluster k f).tlb = m.tlb := by
  delta Mach.modCluster; with_reducible rfl
@[simp] theorem Mach.modCluster_own (m : Mach) (k : Nat) (f : Cluster → Cluster) :
    (m.modCluster k f).own = m.own := by
  delta Mach.modCluster; with_reducible rfl
@[simp] theorem Mach.modCluster_posted (m : Mach) (k : Nat) (f : Cluster → Cluster) :
    (m.modCluster k f).posted = m.posted := by
  delta Mach.modCluster; with_reducible rfl
@[simp] theorem Mach.modCluster_net (m : Mach) (k : Nat) (f : Cluster → Cluster) :
    (m.modCluster k f).net = m.net := by
  delta Mach.modCluster; with_reducible rfl
@[simp] theorem Mach.modCluster_faults (m : Mach) (k : Nat) (f : Cluster → Cluster) :
    (m.modCluster k f).faults = m.faults := by
  delta Mach.modCluster; with_reducible rfl
@[simp] theorem Mach.modCluster_freezes (m : Mach) (k : Nat) (f : Cluster → Cluster) :
    (m.modCluster k f).freezes = m.freezes := by
  delta Mach.modCluster; with_reducible rfl
@[simp] theorem Mach.modCluster_logs (m : Mach) (k : Nat) (f : Cluster → Cluster) :
    (m.modCluster k f).logs = m.logs := by
  delta Mach.modCluster; with_reducible rfl
@[simp] theorem Mach.modCluster_staged (m : Mach) (k : Nat) (f : Cluster → Cluster) :
    (m.modCluster k f).staged = m.staged := by
  delta Mach.modCluster; with_reducible rfl
@[simp] theorem Mach.modCluster_cellars (m : Mach) (k : Nat) (f : Cluster → Cluster) :
    (m.modCluster k f).cellars = m.cellars := by
  delta Mach.modCluster; with_reducible rfl
@[simp] theorem Mach.modCluster_backed (m : Mach) (k : Nat) (f : Cluster → Cluster) :
    (m.modCluster k f).backed = m.backed := by
  delta Mach.modCluster; with_reducible rfl
@[simp] theorem Mach.modCluster_tiers (m : Mach) (k : Nat) (f : Cluster → Cluster) :
    (m.modCluster k f).tiers = m.tiers := by
  delta Mach.modCluster; with_reducible rfl
@[simp] theorem Mach.modCluster_nycels (m : Mach) (k : Nat) (f : Cluster → Cluster) :
    (m.modCluster k f).nycels = m.nycels := by
  delta Mach.modCluster; with_reducible rfl
@[simp] theorem Mach.modCluster_attnInWindow (m : Mach) (k : Nat) (f : Cluster → Cluster) :
    (m.modCluster k f).attnInWindow = m.attnInWindow := by
  delta Mach.modCluster; with_reducible rfl
@[simp] theorem Mach.modCluster_attnLast (m : Mach) (k : Nat) (f : Cluster → Cluster) :
    (m.modCluster k f).attnLast = m.attnLast := by
  delta Mach.modCluster; with_reducible rfl
@[simp] theorem Mach.modCluster_govFrom (m : Mach) (k : Nat) (f : Cluster → Cluster) :
    (m.modCluster k f).govFrom = m.govFrom := by
  delta Mach.modCluster; with_reducible rfl
@[simp] theorem Mach.modCluster_reports (m : Mach) (k : Nat) (f : Cluster → Cluster) :
    (m.modCluster k f).reports = m.reports := by
  delta Mach.modCluster; with_reducible rfl
@[simp] theorem Mach.modCluster_script (m : Mach) (k : Nat) (f : Cluster → Cluster) :
    (m.modCluster k f).script = m.script := by
  delta Mach.modCluster; with_reducible rfl
@[simp] theorem Mach.modCluster_cur (m : Mach) (k : Nat) (f : Cluster → Cluster) :
    (m.modCluster k f).cur = m.cur := by
  delta Mach.modCluster; with_reducible rfl
@[simp] theorem Mach.modCluster_freeCtr (m : Mach) (k : Nat) (f : Cluster → Cluster) :
    (m.modCluster k f).freeCtr = m.freeCtr := by
  delta Mach.modCluster; with_reducible rfl
@[simp] theorem Mach.modCluster_nextId (m : Mach) (k : Nat) (f : Cluster → Cluster) :
    (m.modCluster k f).nextId = m.nextId := by
  delta Mach.modCluster; with_reducible rfl
@[simp] theorem Mach.modOp_cyc (m : Mach) (id : Nat) (f : Op → Op) :
    (m.modOp id f).cyc = m.cyc := by
  delta Mach.modOp; with_reducible rfl
@[simp] theorem Mach.modOp_mem (m : Mach) (id : Nat) (f : Op → Op) :
    (m.modOp id f).mem = m.mem := by
  delta Mach.modOp; with_reducible rfl
@[simp] theorem Mach.modOp_tiles (m : Mach) (id : Nat) (f : Op → Op) :
    (m.modOp id f).tiles = m.tiles := by
  delta Mach.modOp; with_reducible rfl
@[simp] theorem Mach.modOp_groups (m : Mach) (id : Nat) (f : Op → Op) :
    (m.modOp id f).ctx.groups = m.ctx.groups := by
  delta Mach.modOp; with_reducible rfl
@[simp] theorem Mach.modOp_teams (m : Mach) (id : Nat) (f : Op → Op) :
    (m.modOp id f).ctx.teams = m.ctx.teams := by
  delta Mach.modOp; with_reducible rfl
@[simp] theorem Mach.modOp_clusters (m : Mach) (id : Nat) (f : Op → Op) :
    (m.modOp id f).ctx.clusters = m.ctx.clusters := by
  delta Mach.modOp; with_reducible rfl
@[simp] theorem Mach.modOp_grids (m : Mach) (id : Nat) (f : Op → Op) :
    (m.modOp id f).ctx.grids = m.ctx.grids := by
  delta Mach.modOp; with_reducible rfl
@[simp] theorem Mach.modOp_graphs (m : Mach) (id : Nat) (f : Op → Op) :
    (m.modOp id f).ctx.graphs = m.ctx.graphs := by
  delta Mach.modOp; with_reducible rfl
@[simp] theorem Mach.modOp_detached (m : Mach) (id : Nat) (f : Op → Op) :
    (m.modOp id f).ctx.detached = m.ctx.detached := by
  delta Mach.modOp; with_reducible rfl
@[simp] theorem Mach.modOp_detachedNext (m : Mach) (id : Nat) (f : Op → Op) :
    (m.modOp id f).ctx.detachedNext = m.ctx.detachedNext := by
  delta Mach.modOp; with_reducible rfl
@[simp] theorem Mach.modOp_trigs (m : Mach) (id : Nat) (f : Op → Op) :
    (m.modOp id f).ctx.trigs = m.ctx.trigs := by
  delta Mach.modOp; with_reducible rfl
@[simp] theorem Mach.modOp_launches (m : Mach) (id : Nat) (f : Op → Op) :
    (m.modOp id f).ctx.launches = m.ctx.launches := by
  delta Mach.modOp; with_reducible rfl
@[simp] theorem Mach.modOp_fetches (m : Mach) (id : Nat) (f : Op → Op) :
    (m.modOp id f).ctx.fetches = m.ctx.fetches := by
  delta Mach.modOp; with_reducible rfl
@[simp] theorem Mach.modOp_hflags (m : Mach) (id : Nat) (f : Op → Op) :
    (m.modOp id f).ctx.hflags = m.ctx.hflags := by
  delta Mach.modOp; with_reducible rfl
@[simp] theorem Mach.modOp_rays (m : Mach) (id : Nat) (f : Op → Op) :
    (m.modOp id f).ctx.rays = m.ctx.rays := by
  delta Mach.modOp; with_reducible rfl
@[simp] theorem Mach.modOp_treelets (m : Mach) (id : Nat) (f : Op → Op) :
    (m.modOp id f).ctx.treelets = m.ctx.treelets := by
  delta Mach.modOp; with_reducible rfl
@[simp] theorem Mach.modOp_regions (m : Mach) (id : Nat) (f : Op → Op) :
    (m.modOp id f).ctx.regions = m.ctx.regions := by
  delta Mach.modOp; with_reducible rfl
@[simp] theorem Mach.modOp_dfbase (m : Mach) (id : Nat) (f : Op → Op) :
    (m.modOp id f).ctx.dfbase = m.ctx.dfbase := by
  delta Mach.modOp; with_reducible rfl
@[simp] theorem Mach.modOp_dfsize (m : Mach) (id : Nat) (f : Op → Op) :
    (m.modOp id f).ctx.dfsize = m.ctx.dfsize := by
  delta Mach.modOp; with_reducible rfl
@[simp] theorem Mach.modOp_saves (m : Mach) (id : Nat) (f : Op → Op) :
    (m.modOp id f).saves = m.saves := by
  delta Mach.modOp; with_reducible rfl
@[simp] theorem Mach.modOp_cache (m : Mach) (id : Nat) (f : Op → Op) :
    (m.modOp id f).cache = m.cache := by
  delta Mach.modOp; with_reducible rfl
@[simp] theorem Mach.modOp_tlb (m : Mach) (id : Nat) (f : Op → Op) :
    (m.modOp id f).tlb = m.tlb := by
  delta Mach.modOp; with_reducible rfl
@[simp] theorem Mach.modOp_own (m : Mach) (id : Nat) (f : Op → Op) :
    (m.modOp id f).own = m.own := by
  delta Mach.modOp; with_reducible rfl
@[simp] theorem Mach.modOp_posted (m : Mach) (id : Nat) (f : Op → Op) :
    (m.modOp id f).posted = m.posted := by
  delta Mach.modOp; with_reducible rfl
@[simp] theorem Mach.modOp_net (m : Mach) (id : Nat) (f : Op → Op) :
    (m.modOp id f).net = m.net := by
  delta Mach.modOp; with_reducible rfl
@[simp] theorem Mach.modOp_faults (m : Mach) (id : Nat) (f : Op → Op) :
    (m.modOp id f).faults = m.faults := by
  delta Mach.modOp; with_reducible rfl
@[simp] theorem Mach.modOp_freezes (m : Mach) (id : Nat) (f : Op → Op) :
    (m.modOp id f).freezes = m.freezes := by
  delta Mach.modOp; with_reducible rfl
@[simp] theorem Mach.modOp_logs (m : Mach) (id : Nat) (f : Op → Op) :
    (m.modOp id f).logs = m.logs := by
  delta Mach.modOp; with_reducible rfl
@[simp] theorem Mach.modOp_staged (m : Mach) (id : Nat) (f : Op → Op) :
    (m.modOp id f).staged = m.staged := by
  delta Mach.modOp; with_reducible rfl
@[simp] theorem Mach.modOp_cellars (m : Mach) (id : Nat) (f : Op → Op) :
    (m.modOp id f).cellars = m.cellars := by
  delta Mach.modOp; with_reducible rfl
@[simp] theorem Mach.modOp_backed (m : Mach) (id : Nat) (f : Op → Op) :
    (m.modOp id f).backed = m.backed := by
  delta Mach.modOp; with_reducible rfl
@[simp] theorem Mach.modOp_tiers (m : Mach) (id : Nat) (f : Op → Op) :
    (m.modOp id f).tiers = m.tiers := by
  delta Mach.modOp; with_reducible rfl
@[simp] theorem Mach.modOp_nycels (m : Mach) (id : Nat) (f : Op → Op) :
    (m.modOp id f).nycels = m.nycels := by
  delta Mach.modOp; with_reducible rfl
@[simp] theorem Mach.modOp_attnInWindow (m : Mach) (id : Nat) (f : Op → Op) :
    (m.modOp id f).attnInWindow = m.attnInWindow := by
  delta Mach.modOp; with_reducible rfl
@[simp] theorem Mach.modOp_attnLast (m : Mach) (id : Nat) (f : Op → Op) :
    (m.modOp id f).attnLast = m.attnLast := by
  delta Mach.modOp; with_reducible rfl
@[simp] theorem Mach.modOp_govFrom (m : Mach) (id : Nat) (f : Op → Op) :
    (m.modOp id f).govFrom = m.govFrom := by
  delta Mach.modOp; with_reducible rfl
@[simp] theorem Mach.modOp_reports (m : Mach) (id : Nat) (f : Op → Op) :
    (m.modOp id f).reports = m.reports := by
  delta Mach.modOp; with_reducible rfl
@[simp] theorem Mach.modOp_script (m : Mach) (id : Nat) (f : Op → Op) :
    (m.modOp id f).script = m.script := by
  delta Mach.modOp; with_reducible rfl
@[simp] theorem Mach.modOp_cur (m : Mach) (id : Nat) (f : Op → Op) :
    (m.modOp id f).cur = m.cur := by
  delta Mach.modOp; with_reducible rfl
@[simp] theorem Mach.modOp_freeCtr (m : Mach) (id : Nat) (f : Op → Op) :
    (m.modOp id f).freeCtr = m.freeCtr := by
  delta Mach.modOp; with_reducible rfl
@[simp] theorem Mach.modOp_nextId (m : Mach) (id : Nat) (f : Op → Op) :
    (m.modOp id f).nextId = m.nextId := by
  delta Mach.modOp; with_reducible rfl
@[simp] theorem Mach.modPkt_cyc (m : Mach) (id : Nat) (f : Pkt → Pkt) :
    (m.modPkt id f).cyc = m.cyc := by
  delta Mach.modPkt; with_reducible rfl
@[simp] theorem Mach.modPkt_mem (m : Mach) (id : Nat) (f : Pkt → Pkt) :
    (m.modPkt id f).mem = m.mem := by
  delta Mach.modPkt; with_reducible rfl
@[simp] theorem Mach.modPkt_tiles (m : Mach) (id : Nat) (f : Pkt → Pkt) :
    (m.modPkt id f).tiles = m.tiles := by
  delta Mach.modPkt; with_reducible rfl
@[simp] theorem Mach.modPkt_groups (m : Mach) (id : Nat) (f : Pkt → Pkt) :
    (m.modPkt id f).ctx.groups = m.ctx.groups := by
  delta Mach.modPkt; with_reducible rfl
@[simp] theorem Mach.modPkt_teams (m : Mach) (id : Nat) (f : Pkt → Pkt) :
    (m.modPkt id f).ctx.teams = m.ctx.teams := by
  delta Mach.modPkt; with_reducible rfl
@[simp] theorem Mach.modPkt_clusters (m : Mach) (id : Nat) (f : Pkt → Pkt) :
    (m.modPkt id f).ctx.clusters = m.ctx.clusters := by
  delta Mach.modPkt; with_reducible rfl
@[simp] theorem Mach.modPkt_grids (m : Mach) (id : Nat) (f : Pkt → Pkt) :
    (m.modPkt id f).ctx.grids = m.ctx.grids := by
  delta Mach.modPkt; with_reducible rfl
@[simp] theorem Mach.modPkt_graphs (m : Mach) (id : Nat) (f : Pkt → Pkt) :
    (m.modPkt id f).ctx.graphs = m.ctx.graphs := by
  delta Mach.modPkt; with_reducible rfl
@[simp] theorem Mach.modPkt_detached (m : Mach) (id : Nat) (f : Pkt → Pkt) :
    (m.modPkt id f).ctx.detached = m.ctx.detached := by
  delta Mach.modPkt; with_reducible rfl
@[simp] theorem Mach.modPkt_detachedNext (m : Mach) (id : Nat) (f : Pkt → Pkt) :
    (m.modPkt id f).ctx.detachedNext = m.ctx.detachedNext := by
  delta Mach.modPkt; with_reducible rfl
@[simp] theorem Mach.modPkt_trigs (m : Mach) (id : Nat) (f : Pkt → Pkt) :
    (m.modPkt id f).ctx.trigs = m.ctx.trigs := by
  delta Mach.modPkt; with_reducible rfl
@[simp] theorem Mach.modPkt_launches (m : Mach) (id : Nat) (f : Pkt → Pkt) :
    (m.modPkt id f).ctx.launches = m.ctx.launches := by
  delta Mach.modPkt; with_reducible rfl
@[simp] theorem Mach.modPkt_fetches (m : Mach) (id : Nat) (f : Pkt → Pkt) :
    (m.modPkt id f).ctx.fetches = m.ctx.fetches := by
  delta Mach.modPkt; with_reducible rfl
@[simp] theorem Mach.modPkt_hflags (m : Mach) (id : Nat) (f : Pkt → Pkt) :
    (m.modPkt id f).ctx.hflags = m.ctx.hflags := by
  delta Mach.modPkt; with_reducible rfl
@[simp] theorem Mach.modPkt_ops (m : Mach) (id : Nat) (f : Pkt → Pkt) :
    (m.modPkt id f).ctx.ops = m.ctx.ops := by
  delta Mach.modPkt; with_reducible rfl
@[simp] theorem Mach.modPkt_rays (m : Mach) (id : Nat) (f : Pkt → Pkt) :
    (m.modPkt id f).ctx.rays = m.ctx.rays := by
  delta Mach.modPkt; with_reducible rfl
@[simp] theorem Mach.modPkt_treelets (m : Mach) (id : Nat) (f : Pkt → Pkt) :
    (m.modPkt id f).ctx.treelets = m.ctx.treelets := by
  delta Mach.modPkt; with_reducible rfl
@[simp] theorem Mach.modPkt_regions (m : Mach) (id : Nat) (f : Pkt → Pkt) :
    (m.modPkt id f).ctx.regions = m.ctx.regions := by
  delta Mach.modPkt; with_reducible rfl
@[simp] theorem Mach.modPkt_dfbase (m : Mach) (id : Nat) (f : Pkt → Pkt) :
    (m.modPkt id f).ctx.dfbase = m.ctx.dfbase := by
  delta Mach.modPkt; with_reducible rfl
@[simp] theorem Mach.modPkt_dfsize (m : Mach) (id : Nat) (f : Pkt → Pkt) :
    (m.modPkt id f).ctx.dfsize = m.ctx.dfsize := by
  delta Mach.modPkt; with_reducible rfl
@[simp] theorem Mach.modPkt_ctx (m : Mach) (id : Nat) (f : Pkt → Pkt) :
    (m.modPkt id f).ctx = m.ctx := by
  delta Mach.modPkt; with_reducible rfl
@[simp] theorem Mach.modPkt_saves (m : Mach) (id : Nat) (f : Pkt → Pkt) :
    (m.modPkt id f).saves = m.saves := by
  delta Mach.modPkt; with_reducible rfl
@[simp] theorem Mach.modPkt_cache (m : Mach) (id : Nat) (f : Pkt → Pkt) :
    (m.modPkt id f).cache = m.cache := by
  delta Mach.modPkt; with_reducible rfl
@[simp] theorem Mach.modPkt_tlb (m : Mach) (id : Nat) (f : Pkt → Pkt) :
    (m.modPkt id f).tlb = m.tlb := by
  delta Mach.modPkt; with_reducible rfl
@[simp] theorem Mach.modPkt_own (m : Mach) (id : Nat) (f : Pkt → Pkt) :
    (m.modPkt id f).own = m.own := by
  delta Mach.modPkt; with_reducible rfl
@[simp] theorem Mach.modPkt_posted (m : Mach) (id : Nat) (f : Pkt → Pkt) :
    (m.modPkt id f).posted = m.posted := by
  delta Mach.modPkt; with_reducible rfl
@[simp] theorem Mach.modPkt_faults (m : Mach) (id : Nat) (f : Pkt → Pkt) :
    (m.modPkt id f).faults = m.faults := by
  delta Mach.modPkt; with_reducible rfl
@[simp] theorem Mach.modPkt_freezes (m : Mach) (id : Nat) (f : Pkt → Pkt) :
    (m.modPkt id f).freezes = m.freezes := by
  delta Mach.modPkt; with_reducible rfl
@[simp] theorem Mach.modPkt_logs (m : Mach) (id : Nat) (f : Pkt → Pkt) :
    (m.modPkt id f).logs = m.logs := by
  delta Mach.modPkt; with_reducible rfl
@[simp] theorem Mach.modPkt_staged (m : Mach) (id : Nat) (f : Pkt → Pkt) :
    (m.modPkt id f).staged = m.staged := by
  delta Mach.modPkt; with_reducible rfl
@[simp] theorem Mach.modPkt_cellars (m : Mach) (id : Nat) (f : Pkt → Pkt) :
    (m.modPkt id f).cellars = m.cellars := by
  delta Mach.modPkt; with_reducible rfl
@[simp] theorem Mach.modPkt_backed (m : Mach) (id : Nat) (f : Pkt → Pkt) :
    (m.modPkt id f).backed = m.backed := by
  delta Mach.modPkt; with_reducible rfl
@[simp] theorem Mach.modPkt_tiers (m : Mach) (id : Nat) (f : Pkt → Pkt) :
    (m.modPkt id f).tiers = m.tiers := by
  delta Mach.modPkt; with_reducible rfl
@[simp] theorem Mach.modPkt_nycels (m : Mach) (id : Nat) (f : Pkt → Pkt) :
    (m.modPkt id f).nycels = m.nycels := by
  delta Mach.modPkt; with_reducible rfl
@[simp] theorem Mach.modPkt_attnInWindow (m : Mach) (id : Nat) (f : Pkt → Pkt) :
    (m.modPkt id f).attnInWindow = m.attnInWindow := by
  delta Mach.modPkt; with_reducible rfl
@[simp] theorem Mach.modPkt_attnLast (m : Mach) (id : Nat) (f : Pkt → Pkt) :
    (m.modPkt id f).attnLast = m.attnLast := by
  delta Mach.modPkt; with_reducible rfl
@[simp] theorem Mach.modPkt_govFrom (m : Mach) (id : Nat) (f : Pkt → Pkt) :
    (m.modPkt id f).govFrom = m.govFrom := by
  delta Mach.modPkt; with_reducible rfl
@[simp] theorem Mach.modPkt_reports (m : Mach) (id : Nat) (f : Pkt → Pkt) :
    (m.modPkt id f).reports = m.reports := by
  delta Mach.modPkt; with_reducible rfl
@[simp] theorem Mach.modPkt_script (m : Mach) (id : Nat) (f : Pkt → Pkt) :
    (m.modPkt id f).script = m.script := by
  delta Mach.modPkt; with_reducible rfl
@[simp] theorem Mach.modPkt_cur (m : Mach) (id : Nat) (f : Pkt → Pkt) :
    (m.modPkt id f).cur = m.cur := by
  delta Mach.modPkt; with_reducible rfl
@[simp] theorem Mach.modPkt_freeCtr (m : Mach) (id : Nat) (f : Pkt → Pkt) :
    (m.modPkt id f).freeCtr = m.freeCtr := by
  delta Mach.modPkt; with_reducible rfl
@[simp] theorem Mach.modPkt_nextId (m : Mach) (id : Nat) (f : Pkt → Pkt) :
    (m.modPkt id f).nextId = m.nextId := by
  delta Mach.modPkt; with_reducible rfl
@[simp] theorem Mach.dropOwn_cyc (m : Mach) (id : Nat) :
    (m.dropOwn id).cyc = m.cyc := by
  delta Mach.dropOwn; with_reducible rfl
@[simp] theorem Mach.dropOwn_mem (m : Mach) (id : Nat) :
    (m.dropOwn id).mem = m.mem := by
  delta Mach.dropOwn; with_reducible rfl
@[simp] theorem Mach.dropOwn_tiles (m : Mach) (id : Nat) :
    (m.dropOwn id).tiles = m.tiles := by
  delta Mach.dropOwn; with_reducible rfl
@[simp] theorem Mach.dropOwn_groups (m : Mach) (id : Nat) :
    (m.dropOwn id).ctx.groups = m.ctx.groups := by
  delta Mach.dropOwn; with_reducible rfl
@[simp] theorem Mach.dropOwn_teams (m : Mach) (id : Nat) :
    (m.dropOwn id).ctx.teams = m.ctx.teams := by
  delta Mach.dropOwn; with_reducible rfl
@[simp] theorem Mach.dropOwn_clusters (m : Mach) (id : Nat) :
    (m.dropOwn id).ctx.clusters = m.ctx.clusters := by
  delta Mach.dropOwn; with_reducible rfl
@[simp] theorem Mach.dropOwn_grids (m : Mach) (id : Nat) :
    (m.dropOwn id).ctx.grids = m.ctx.grids := by
  delta Mach.dropOwn; with_reducible rfl
@[simp] theorem Mach.dropOwn_graphs (m : Mach) (id : Nat) :
    (m.dropOwn id).ctx.graphs = m.ctx.graphs := by
  delta Mach.dropOwn; with_reducible rfl
@[simp] theorem Mach.dropOwn_detached (m : Mach) (id : Nat) :
    (m.dropOwn id).ctx.detached = m.ctx.detached := by
  delta Mach.dropOwn; with_reducible rfl
@[simp] theorem Mach.dropOwn_detachedNext (m : Mach) (id : Nat) :
    (m.dropOwn id).ctx.detachedNext = m.ctx.detachedNext := by
  delta Mach.dropOwn; with_reducible rfl
@[simp] theorem Mach.dropOwn_trigs (m : Mach) (id : Nat) :
    (m.dropOwn id).ctx.trigs = m.ctx.trigs := by
  delta Mach.dropOwn; with_reducible rfl
@[simp] theorem Mach.dropOwn_launches (m : Mach) (id : Nat) :
    (m.dropOwn id).ctx.launches = m.ctx.launches := by
  delta Mach.dropOwn; with_reducible rfl
@[simp] theorem Mach.dropOwn_fetches (m : Mach) (id : Nat) :
    (m.dropOwn id).ctx.fetches = m.ctx.fetches := by
  delta Mach.dropOwn; with_reducible rfl
@[simp] theorem Mach.dropOwn_hflags (m : Mach) (id : Nat) :
    (m.dropOwn id).ctx.hflags = m.ctx.hflags := by
  delta Mach.dropOwn; with_reducible rfl
@[simp] theorem Mach.dropOwn_ops (m : Mach) (id : Nat) :
    (m.dropOwn id).ctx.ops = m.ctx.ops := by
  delta Mach.dropOwn; with_reducible rfl
@[simp] theorem Mach.dropOwn_rays (m : Mach) (id : Nat) :
    (m.dropOwn id).ctx.rays = m.ctx.rays := by
  delta Mach.dropOwn; with_reducible rfl
@[simp] theorem Mach.dropOwn_treelets (m : Mach) (id : Nat) :
    (m.dropOwn id).ctx.treelets = m.ctx.treelets := by
  delta Mach.dropOwn; with_reducible rfl
@[simp] theorem Mach.dropOwn_regions (m : Mach) (id : Nat) :
    (m.dropOwn id).ctx.regions = m.ctx.regions := by
  delta Mach.dropOwn; with_reducible rfl
@[simp] theorem Mach.dropOwn_dfbase (m : Mach) (id : Nat) :
    (m.dropOwn id).ctx.dfbase = m.ctx.dfbase := by
  delta Mach.dropOwn; with_reducible rfl
@[simp] theorem Mach.dropOwn_dfsize (m : Mach) (id : Nat) :
    (m.dropOwn id).ctx.dfsize = m.ctx.dfsize := by
  delta Mach.dropOwn; with_reducible rfl
@[simp] theorem Mach.dropOwn_ctx (m : Mach) (id : Nat) :
    (m.dropOwn id).ctx = m.ctx := by
  delta Mach.dropOwn; with_reducible rfl
@[simp] theorem Mach.dropOwn_saves (m : Mach) (id : Nat) :
    (m.dropOwn id).saves = m.saves := by
  delta Mach.dropOwn; with_reducible rfl
@[simp] theorem Mach.dropOwn_cache (m : Mach) (id : Nat) :
    (m.dropOwn id).cache = m.cache := by
  delta Mach.dropOwn; with_reducible rfl
@[simp] theorem Mach.dropOwn_tlb (m : Mach) (id : Nat) :
    (m.dropOwn id).tlb = m.tlb := by
  delta Mach.dropOwn; with_reducible rfl
@[simp] theorem Mach.dropOwn_posted (m : Mach) (id : Nat) :
    (m.dropOwn id).posted = m.posted := by
  delta Mach.dropOwn; with_reducible rfl
@[simp] theorem Mach.dropOwn_net (m : Mach) (id : Nat) :
    (m.dropOwn id).net = m.net := by
  delta Mach.dropOwn; with_reducible rfl
@[simp] theorem Mach.dropOwn_faults (m : Mach) (id : Nat) :
    (m.dropOwn id).faults = m.faults := by
  delta Mach.dropOwn; with_reducible rfl
@[simp] theorem Mach.dropOwn_freezes (m : Mach) (id : Nat) :
    (m.dropOwn id).freezes = m.freezes := by
  delta Mach.dropOwn; with_reducible rfl
@[simp] theorem Mach.dropOwn_logs (m : Mach) (id : Nat) :
    (m.dropOwn id).logs = m.logs := by
  delta Mach.dropOwn; with_reducible rfl
@[simp] theorem Mach.dropOwn_staged (m : Mach) (id : Nat) :
    (m.dropOwn id).staged = m.staged := by
  delta Mach.dropOwn; with_reducible rfl
@[simp] theorem Mach.dropOwn_cellars (m : Mach) (id : Nat) :
    (m.dropOwn id).cellars = m.cellars := by
  delta Mach.dropOwn; with_reducible rfl
@[simp] theorem Mach.dropOwn_backed (m : Mach) (id : Nat) :
    (m.dropOwn id).backed = m.backed := by
  delta Mach.dropOwn; with_reducible rfl
@[simp] theorem Mach.dropOwn_tiers (m : Mach) (id : Nat) :
    (m.dropOwn id).tiers = m.tiers := by
  delta Mach.dropOwn; with_reducible rfl
@[simp] theorem Mach.dropOwn_nycels (m : Mach) (id : Nat) :
    (m.dropOwn id).nycels = m.nycels := by
  delta Mach.dropOwn; with_reducible rfl
@[simp] theorem Mach.dropOwn_attnInWindow (m : Mach) (id : Nat) :
    (m.dropOwn id).attnInWindow = m.attnInWindow := by
  delta Mach.dropOwn; with_reducible rfl
@[simp] theorem Mach.dropOwn_attnLast (m : Mach) (id : Nat) :
    (m.dropOwn id).attnLast = m.attnLast := by
  delta Mach.dropOwn; with_reducible rfl
@[simp] theorem Mach.dropOwn_govFrom (m : Mach) (id : Nat) :
    (m.dropOwn id).govFrom = m.govFrom := by
  delta Mach.dropOwn; with_reducible rfl
@[simp] theorem Mach.dropOwn_reports (m : Mach) (id : Nat) :
    (m.dropOwn id).reports = m.reports := by
  delta Mach.dropOwn; with_reducible rfl
@[simp] theorem Mach.dropOwn_script (m : Mach) (id : Nat) :
    (m.dropOwn id).script = m.script := by
  delta Mach.dropOwn; with_reducible rfl
@[simp] theorem Mach.dropOwn_cur (m : Mach) (id : Nat) :
    (m.dropOwn id).cur = m.cur := by
  delta Mach.dropOwn; with_reducible rfl
@[simp] theorem Mach.dropOwn_freeCtr (m : Mach) (id : Nat) :
    (m.dropOwn id).freeCtr = m.freeCtr := by
  delta Mach.dropOwn; with_reducible rfl
@[simp] theorem Mach.dropOwn_nextId (m : Mach) (id : Nat) :
    (m.dropOwn id).nextId = m.nextId := by
  delta Mach.dropOwn; with_reducible rfl
@[simp] theorem Mach.tick_mem (m : Mach) (dev : Device) (n : Nat) :
    (m.tick dev n).mem = m.mem := by
  delta Mach.tick; with_reducible rfl
@[simp] theorem Mach.tick_tiles (m : Mach) (dev : Device) (n : Nat) :
    (m.tick dev n).tiles = m.tiles := by
  delta Mach.tick; with_reducible rfl
@[simp] theorem Mach.tick_teams (m : Mach) (dev : Device) (n : Nat) :
    (m.tick dev n).ctx.teams = m.ctx.teams := by
  delta Mach.tick; with_reducible rfl
@[simp] theorem Mach.tick_clusters (m : Mach) (dev : Device) (n : Nat) :
    (m.tick dev n).ctx.clusters = m.ctx.clusters := by
  delta Mach.tick; with_reducible rfl
@[simp] theorem Mach.tick_grids (m : Mach) (dev : Device) (n : Nat) :
    (m.tick dev n).ctx.grids = m.ctx.grids := by
  delta Mach.tick; with_reducible rfl
@[simp] theorem Mach.tick_graphs (m : Mach) (dev : Device) (n : Nat) :
    (m.tick dev n).ctx.graphs = m.ctx.graphs := by
  delta Mach.tick; with_reducible rfl
@[simp] theorem Mach.tick_detached (m : Mach) (dev : Device) (n : Nat) :
    (m.tick dev n).ctx.detached = m.ctx.detached := by
  delta Mach.tick; with_reducible rfl
@[simp] theorem Mach.tick_detachedNext (m : Mach) (dev : Device) (n : Nat) :
    (m.tick dev n).ctx.detachedNext = m.ctx.detachedNext := by
  delta Mach.tick; with_reducible rfl
@[simp] theorem Mach.tick_trigs (m : Mach) (dev : Device) (n : Nat) :
    (m.tick dev n).ctx.trigs = m.ctx.trigs := by
  delta Mach.tick; with_reducible rfl
@[simp] theorem Mach.tick_launches (m : Mach) (dev : Device) (n : Nat) :
    (m.tick dev n).ctx.launches = m.ctx.launches := by
  delta Mach.tick; with_reducible rfl
@[simp] theorem Mach.tick_fetches (m : Mach) (dev : Device) (n : Nat) :
    (m.tick dev n).ctx.fetches = m.ctx.fetches := by
  delta Mach.tick; with_reducible rfl
@[simp] theorem Mach.tick_hflags (m : Mach) (dev : Device) (n : Nat) :
    (m.tick dev n).ctx.hflags = m.ctx.hflags := by
  delta Mach.tick; with_reducible rfl
@[simp] theorem Mach.tick_ops (m : Mach) (dev : Device) (n : Nat) :
    (m.tick dev n).ctx.ops = m.ctx.ops := by
  delta Mach.tick; with_reducible rfl
@[simp] theorem Mach.tick_rays (m : Mach) (dev : Device) (n : Nat) :
    (m.tick dev n).ctx.rays = m.ctx.rays := by
  delta Mach.tick; with_reducible rfl
@[simp] theorem Mach.tick_treelets (m : Mach) (dev : Device) (n : Nat) :
    (m.tick dev n).ctx.treelets = m.ctx.treelets := by
  delta Mach.tick; with_reducible rfl
@[simp] theorem Mach.tick_regions (m : Mach) (dev : Device) (n : Nat) :
    (m.tick dev n).ctx.regions = m.ctx.regions := by
  delta Mach.tick; with_reducible rfl
@[simp] theorem Mach.tick_dfbase (m : Mach) (dev : Device) (n : Nat) :
    (m.tick dev n).ctx.dfbase = m.ctx.dfbase := by
  delta Mach.tick; with_reducible rfl
@[simp] theorem Mach.tick_dfsize (m : Mach) (dev : Device) (n : Nat) :
    (m.tick dev n).ctx.dfsize = m.ctx.dfsize := by
  delta Mach.tick; with_reducible rfl
@[simp] theorem Mach.tick_saves (m : Mach) (dev : Device) (n : Nat) :
    (m.tick dev n).saves = m.saves := by
  delta Mach.tick; with_reducible rfl
@[simp] theorem Mach.tick_cache (m : Mach) (dev : Device) (n : Nat) :
    (m.tick dev n).cache = m.cache := by
  delta Mach.tick; with_reducible rfl
@[simp] theorem Mach.tick_tlb (m : Mach) (dev : Device) (n : Nat) :
    (m.tick dev n).tlb = m.tlb := by
  delta Mach.tick; with_reducible rfl
@[simp] theorem Mach.tick_own (m : Mach) (dev : Device) (n : Nat) :
    (m.tick dev n).own = m.own := by
  delta Mach.tick; with_reducible rfl
@[simp] theorem Mach.tick_posted (m : Mach) (dev : Device) (n : Nat) :
    (m.tick dev n).posted = m.posted := by
  delta Mach.tick; with_reducible rfl
@[simp] theorem Mach.tick_net (m : Mach) (dev : Device) (n : Nat) :
    (m.tick dev n).net = m.net := by
  delta Mach.tick; with_reducible rfl
@[simp] theorem Mach.tick_faults (m : Mach) (dev : Device) (n : Nat) :
    (m.tick dev n).faults = m.faults := by
  delta Mach.tick; with_reducible rfl
@[simp] theorem Mach.tick_freezes (m : Mach) (dev : Device) (n : Nat) :
    (m.tick dev n).freezes = m.freezes := by
  delta Mach.tick; with_reducible rfl
@[simp] theorem Mach.tick_logs (m : Mach) (dev : Device) (n : Nat) :
    (m.tick dev n).logs = m.logs := by
  delta Mach.tick; with_reducible rfl
@[simp] theorem Mach.tick_staged (m : Mach) (dev : Device) (n : Nat) :
    (m.tick dev n).staged = m.staged := by
  delta Mach.tick; with_reducible rfl
@[simp] theorem Mach.tick_cellars (m : Mach) (dev : Device) (n : Nat) :
    (m.tick dev n).cellars = m.cellars := by
  delta Mach.tick; with_reducible rfl
@[simp] theorem Mach.tick_backed (m : Mach) (dev : Device) (n : Nat) :
    (m.tick dev n).backed = m.backed := by
  delta Mach.tick; with_reducible rfl
@[simp] theorem Mach.tick_nycels (m : Mach) (dev : Device) (n : Nat) :
    (m.tick dev n).nycels = m.nycels := by
  delta Mach.tick; with_reducible rfl
@[simp] theorem Mach.tick_attnInWindow (m : Mach) (dev : Device) (n : Nat) :
    (m.tick dev n).attnInWindow = m.attnInWindow := by
  delta Mach.tick; with_reducible rfl
@[simp] theorem Mach.tick_attnLast (m : Mach) (dev : Device) (n : Nat) :
    (m.tick dev n).attnLast = m.attnLast := by
  delta Mach.tick; with_reducible rfl
@[simp] theorem Mach.tick_govFrom (m : Mach) (dev : Device) (n : Nat) :
    (m.tick dev n).govFrom = m.govFrom := by
  delta Mach.tick; with_reducible rfl
@[simp] theorem Mach.tick_reports (m : Mach) (dev : Device) (n : Nat) :
    (m.tick dev n).reports = m.reports := by
  delta Mach.tick; with_reducible rfl
@[simp] theorem Mach.tick_script (m : Mach) (dev : Device) (n : Nat) :
    (m.tick dev n).script = m.script := by
  delta Mach.tick; with_reducible rfl
@[simp] theorem Mach.tick_cur (m : Mach) (dev : Device) (n : Nat) :
    (m.tick dev n).cur = m.cur := by
  delta Mach.tick; with_reducible rfl
@[simp] theorem Mach.tick_freeCtr (m : Mach) (dev : Device) (n : Nat) :
    (m.tick dev n).freeCtr = m.freeCtr := by
  delta Mach.tick; with_reducible rfl
@[simp] theorem Mach.tick_nextId (m : Mach) (dev : Device) (n : Nat) :
    (m.tick dev n).nextId = m.nextId := by
  delta Mach.tick; with_reducible rfl
@[simp] theorem Mach.numbered_cyc (m : Mach) :
    (m.numbered ).cyc = m.cyc := by
  delta Mach.numbered; with_reducible rfl
@[simp] theorem Mach.numbered_mem (m : Mach) :
    (m.numbered ).mem = m.mem := by
  delta Mach.numbered; with_reducible rfl
@[simp] theorem Mach.numbered_tiles (m : Mach) :
    (m.numbered ).tiles = m.tiles := by
  delta Mach.numbered; with_reducible rfl
@[simp] theorem Mach.numbered_groups (m : Mach) :
    (m.numbered ).ctx.groups = m.ctx.groups := by
  delta Mach.numbered; with_reducible rfl
@[simp] theorem Mach.numbered_teams (m : Mach) :
    (m.numbered ).ctx.teams = m.ctx.teams := by
  delta Mach.numbered; with_reducible rfl
@[simp] theorem Mach.numbered_clusters (m : Mach) :
    (m.numbered ).ctx.clusters = m.ctx.clusters := by
  delta Mach.numbered; with_reducible rfl
@[simp] theorem Mach.numbered_grids (m : Mach) :
    (m.numbered ).ctx.grids = m.ctx.grids := by
  delta Mach.numbered; with_reducible rfl
@[simp] theorem Mach.numbered_graphs (m : Mach) :
    (m.numbered ).ctx.graphs = m.ctx.graphs := by
  delta Mach.numbered; with_reducible rfl
@[simp] theorem Mach.numbered_detached (m : Mach) :
    (m.numbered ).ctx.detached = m.ctx.detached := by
  delta Mach.numbered; with_reducible rfl
@[simp] theorem Mach.numbered_detachedNext (m : Mach) :
    (m.numbered ).ctx.detachedNext = m.ctx.detachedNext := by
  delta Mach.numbered; with_reducible rfl
@[simp] theorem Mach.numbered_trigs (m : Mach) :
    (m.numbered ).ctx.trigs = m.ctx.trigs := by
  delta Mach.numbered; with_reducible rfl
@[simp] theorem Mach.numbered_launches (m : Mach) :
    (m.numbered ).ctx.launches = m.ctx.launches := by
  delta Mach.numbered; with_reducible rfl
@[simp] theorem Mach.numbered_fetches (m : Mach) :
    (m.numbered ).ctx.fetches = m.ctx.fetches := by
  delta Mach.numbered; with_reducible rfl
@[simp] theorem Mach.numbered_hflags (m : Mach) :
    (m.numbered ).ctx.hflags = m.ctx.hflags := by
  delta Mach.numbered; with_reducible rfl
@[simp] theorem Mach.numbered_ops (m : Mach) :
    (m.numbered ).ctx.ops = m.ctx.ops := by
  delta Mach.numbered; with_reducible rfl
@[simp] theorem Mach.numbered_rays (m : Mach) :
    (m.numbered ).ctx.rays = m.ctx.rays := by
  delta Mach.numbered; with_reducible rfl
@[simp] theorem Mach.numbered_treelets (m : Mach) :
    (m.numbered ).ctx.treelets = m.ctx.treelets := by
  delta Mach.numbered; with_reducible rfl
@[simp] theorem Mach.numbered_regions (m : Mach) :
    (m.numbered ).ctx.regions = m.ctx.regions := by
  delta Mach.numbered; with_reducible rfl
@[simp] theorem Mach.numbered_dfbase (m : Mach) :
    (m.numbered ).ctx.dfbase = m.ctx.dfbase := by
  delta Mach.numbered; with_reducible rfl
@[simp] theorem Mach.numbered_dfsize (m : Mach) :
    (m.numbered ).ctx.dfsize = m.ctx.dfsize := by
  delta Mach.numbered; with_reducible rfl
@[simp] theorem Mach.numbered_ctx (m : Mach) :
    (m.numbered ).ctx = m.ctx := by
  delta Mach.numbered; with_reducible rfl
@[simp] theorem Mach.numbered_saves (m : Mach) :
    (m.numbered ).saves = m.saves := by
  delta Mach.numbered; with_reducible rfl
@[simp] theorem Mach.numbered_cache (m : Mach) :
    (m.numbered ).cache = m.cache := by
  delta Mach.numbered; with_reducible rfl
@[simp] theorem Mach.numbered_tlb (m : Mach) :
    (m.numbered ).tlb = m.tlb := by
  delta Mach.numbered; with_reducible rfl
@[simp] theorem Mach.numbered_own (m : Mach) :
    (m.numbered ).own = m.own := by
  delta Mach.numbered; with_reducible rfl
@[simp] theorem Mach.numbered_posted (m : Mach) :
    (m.numbered ).posted = m.posted := by
  delta Mach.numbered; with_reducible rfl
@[simp] theorem Mach.numbered_net (m : Mach) :
    (m.numbered ).net = m.net := by
  delta Mach.numbered; with_reducible rfl
@[simp] theorem Mach.numbered_faults (m : Mach) :
    (m.numbered ).faults = m.faults := by
  delta Mach.numbered; with_reducible rfl
@[simp] theorem Mach.numbered_freezes (m : Mach) :
    (m.numbered ).freezes = m.freezes := by
  delta Mach.numbered; with_reducible rfl
@[simp] theorem Mach.numbered_logs (m : Mach) :
    (m.numbered ).logs = m.logs := by
  delta Mach.numbered; with_reducible rfl
@[simp] theorem Mach.numbered_staged (m : Mach) :
    (m.numbered ).staged = m.staged := by
  delta Mach.numbered; with_reducible rfl
@[simp] theorem Mach.numbered_cellars (m : Mach) :
    (m.numbered ).cellars = m.cellars := by
  delta Mach.numbered; with_reducible rfl
@[simp] theorem Mach.numbered_backed (m : Mach) :
    (m.numbered ).backed = m.backed := by
  delta Mach.numbered; with_reducible rfl
@[simp] theorem Mach.numbered_tiers (m : Mach) :
    (m.numbered ).tiers = m.tiers := by
  delta Mach.numbered; with_reducible rfl
@[simp] theorem Mach.numbered_nycels (m : Mach) :
    (m.numbered ).nycels = m.nycels := by
  delta Mach.numbered; with_reducible rfl
@[simp] theorem Mach.numbered_attnInWindow (m : Mach) :
    (m.numbered ).attnInWindow = m.attnInWindow := by
  delta Mach.numbered; with_reducible rfl
@[simp] theorem Mach.numbered_attnLast (m : Mach) :
    (m.numbered ).attnLast = m.attnLast := by
  delta Mach.numbered; with_reducible rfl
@[simp] theorem Mach.numbered_govFrom (m : Mach) :
    (m.numbered ).govFrom = m.govFrom := by
  delta Mach.numbered; with_reducible rfl
@[simp] theorem Mach.numbered_reports (m : Mach) :
    (m.numbered ).reports = m.reports := by
  delta Mach.numbered; with_reducible rfl
@[simp] theorem Mach.numbered_script (m : Mach) :
    (m.numbered ).script = m.script := by
  delta Mach.numbered; with_reducible rfl
@[simp] theorem Mach.numbered_cur (m : Mach) :
    (m.numbered ).cur = m.cur := by
  delta Mach.numbered; with_reducible rfl
@[simp] theorem Mach.setTile_cyc (m : Mach) (t : Tile) :
    (m.setTile t).cyc = m.cyc := by
  unfold Mach.setTile; split <;> rfl
@[simp] theorem Mach.setTile_mem (m : Mach) (t : Tile) :
    (m.setTile t).mem = m.mem := by
  unfold Mach.setTile; split <;> rfl
@[simp] theorem Mach.setTile_groups (m : Mach) (t : Tile) :
    (m.setTile t).ctx.groups = m.ctx.groups := by
  unfold Mach.setTile; split <;> rfl
@[simp] theorem Mach.setTile_teams (m : Mach) (t : Tile) :
    (m.setTile t).ctx.teams = m.ctx.teams := by
  unfold Mach.setTile; split <;> rfl
@[simp] theorem Mach.setTile_clusters (m : Mach) (t : Tile) :
    (m.setTile t).ctx.clusters = m.ctx.clusters := by
  unfold Mach.setTile; split <;> rfl
@[simp] theorem Mach.setTile_grids (m : Mach) (t : Tile) :
    (m.setTile t).ctx.grids = m.ctx.grids := by
  unfold Mach.setTile; split <;> rfl
@[simp] theorem Mach.setTile_graphs (m : Mach) (t : Tile) :
    (m.setTile t).ctx.graphs = m.ctx.graphs := by
  unfold Mach.setTile; split <;> rfl
@[simp] theorem Mach.setTile_detached (m : Mach) (t : Tile) :
    (m.setTile t).ctx.detached = m.ctx.detached := by
  unfold Mach.setTile; split <;> rfl
@[simp] theorem Mach.setTile_detachedNext (m : Mach) (t : Tile) :
    (m.setTile t).ctx.detachedNext = m.ctx.detachedNext := by
  unfold Mach.setTile; split <;> rfl
@[simp] theorem Mach.setTile_trigs (m : Mach) (t : Tile) :
    (m.setTile t).ctx.trigs = m.ctx.trigs := by
  unfold Mach.setTile; split <;> rfl
@[simp] theorem Mach.setTile_launches (m : Mach) (t : Tile) :
    (m.setTile t).ctx.launches = m.ctx.launches := by
  unfold Mach.setTile; split <;> rfl
@[simp] theorem Mach.setTile_fetches (m : Mach) (t : Tile) :
    (m.setTile t).ctx.fetches = m.ctx.fetches := by
  unfold Mach.setTile; split <;> rfl
@[simp] theorem Mach.setTile_hflags (m : Mach) (t : Tile) :
    (m.setTile t).ctx.hflags = m.ctx.hflags := by
  unfold Mach.setTile; split <;> rfl
@[simp] theorem Mach.setTile_ops (m : Mach) (t : Tile) :
    (m.setTile t).ctx.ops = m.ctx.ops := by
  unfold Mach.setTile; split <;> rfl
@[simp] theorem Mach.setTile_rays (m : Mach) (t : Tile) :
    (m.setTile t).ctx.rays = m.ctx.rays := by
  unfold Mach.setTile; split <;> rfl
@[simp] theorem Mach.setTile_treelets (m : Mach) (t : Tile) :
    (m.setTile t).ctx.treelets = m.ctx.treelets := by
  unfold Mach.setTile; split <;> rfl
@[simp] theorem Mach.setTile_regions (m : Mach) (t : Tile) :
    (m.setTile t).ctx.regions = m.ctx.regions := by
  unfold Mach.setTile; split <;> rfl
@[simp] theorem Mach.setTile_dfbase (m : Mach) (t : Tile) :
    (m.setTile t).ctx.dfbase = m.ctx.dfbase := by
  unfold Mach.setTile; split <;> rfl
@[simp] theorem Mach.setTile_dfsize (m : Mach) (t : Tile) :
    (m.setTile t).ctx.dfsize = m.ctx.dfsize := by
  unfold Mach.setTile; split <;> rfl
@[simp] theorem Mach.setTile_ctx (m : Mach) (t : Tile) :
    (m.setTile t).ctx = m.ctx := by
  unfold Mach.setTile; split <;> rfl
@[simp] theorem Mach.setTile_saves (m : Mach) (t : Tile) :
    (m.setTile t).saves = m.saves := by
  unfold Mach.setTile; split <;> rfl
@[simp] theorem Mach.setTile_cache (m : Mach) (t : Tile) :
    (m.setTile t).cache = m.cache := by
  unfold Mach.setTile; split <;> rfl
@[simp] theorem Mach.setTile_tlb (m : Mach) (t : Tile) :
    (m.setTile t).tlb = m.tlb := by
  unfold Mach.setTile; split <;> rfl
@[simp] theorem Mach.setTile_own (m : Mach) (t : Tile) :
    (m.setTile t).own = m.own := by
  unfold Mach.setTile; split <;> rfl
@[simp] theorem Mach.setTile_posted (m : Mach) (t : Tile) :
    (m.setTile t).posted = m.posted := by
  unfold Mach.setTile; split <;> rfl
@[simp] theorem Mach.setTile_net (m : Mach) (t : Tile) :
    (m.setTile t).net = m.net := by
  unfold Mach.setTile; split <;> rfl
@[simp] theorem Mach.setTile_faults (m : Mach) (t : Tile) :
    (m.setTile t).faults = m.faults := by
  unfold Mach.setTile; split <;> rfl
@[simp] theorem Mach.setTile_freezes (m : Mach) (t : Tile) :
    (m.setTile t).freezes = m.freezes := by
  unfold Mach.setTile; split <;> rfl
@[simp] theorem Mach.setTile_logs (m : Mach) (t : Tile) :
    (m.setTile t).logs = m.logs := by
  unfold Mach.setTile; split <;> rfl
@[simp] theorem Mach.setTile_staged (m : Mach) (t : Tile) :
    (m.setTile t).staged = m.staged := by
  unfold Mach.setTile; split <;> rfl
@[simp] theorem Mach.setTile_cellars (m : Mach) (t : Tile) :
    (m.setTile t).cellars = m.cellars := by
  unfold Mach.setTile; split <;> rfl
@[simp] theorem Mach.setTile_backed (m : Mach) (t : Tile) :
    (m.setTile t).backed = m.backed := by
  unfold Mach.setTile; split <;> rfl
@[simp] theorem Mach.setTile_tiers (m : Mach) (t : Tile) :
    (m.setTile t).tiers = m.tiers := by
  unfold Mach.setTile; split <;> rfl
@[simp] theorem Mach.setTile_nycels (m : Mach) (t : Tile) :
    (m.setTile t).nycels = m.nycels := by
  unfold Mach.setTile; split <;> rfl
@[simp] theorem Mach.setTile_attnInWindow (m : Mach) (t : Tile) :
    (m.setTile t).attnInWindow = m.attnInWindow := by
  unfold Mach.setTile; split <;> rfl
@[simp] theorem Mach.setTile_attnLast (m : Mach) (t : Tile) :
    (m.setTile t).attnLast = m.attnLast := by
  unfold Mach.setTile; split <;> rfl
@[simp] theorem Mach.setTile_govFrom (m : Mach) (t : Tile) :
    (m.setTile t).govFrom = m.govFrom := by
  unfold Mach.setTile; split <;> rfl
@[simp] theorem Mach.setTile_reports (m : Mach) (t : Tile) :
    (m.setTile t).reports = m.reports := by
  unfold Mach.setTile; split <;> rfl
@[simp] theorem Mach.setTile_script (m : Mach) (t : Tile) :
    (m.setTile t).script = m.script := by
  unfold Mach.setTile; split <;> rfl
@[simp] theorem Mach.setTile_cur (m : Mach) (t : Tile) :
    (m.setTile t).cur = m.cur := by
  unfold Mach.setTile; split <;> rfl
@[simp] theorem Mach.setTile_freeCtr (m : Mach) (t : Tile) :
    (m.setTile t).freeCtr = m.freeCtr := by
  unfold Mach.setTile; split <;> rfl
@[simp] theorem Mach.setTile_nextId (m : Mach) (t : Tile) :
    (m.setTile t).nextId = m.nextId := by
  unfold Mach.setTile; split <;> rfl
@[simp] theorem Mach.modSched_cyc (m : Mach) (gid : Nat) (f : Sched → Sched) :
    (m.modSched gid f).cyc = m.cyc := by
  delta Mach.modSched Mach.modGroup; with_reducible rfl
@[simp] theorem Mach.modSched_mem (m : Mach) (gid : Nat) (f : Sched → Sched) :
    (m.modSched gid f).mem = m.mem := by
  delta Mach.modSched Mach.modGroup; with_reducible rfl
@[simp] theorem Mach.modSched_tiles (m : Mach) (gid : Nat) (f : Sched → Sched) :
    (m.modSched gid f).tiles = m.tiles := by
  delta Mach.modSched Mach.modGroup; with_reducible rfl
@[simp] theorem Mach.modSched_teams (m : Mach) (gid : Nat) (f : Sched → Sched) :
    (m.modSched gid f).ctx.teams = m.ctx.teams := by
  delta Mach.modSched Mach.modGroup; with_reducible rfl
@[simp] theorem Mach.modSched_clusters (m : Mach) (gid : Nat) (f : Sched → Sched) :
    (m.modSched gid f).ctx.clusters = m.ctx.clusters := by
  delta Mach.modSched Mach.modGroup; with_reducible rfl
@[simp] theorem Mach.modSched_grids (m : Mach) (gid : Nat) (f : Sched → Sched) :
    (m.modSched gid f).ctx.grids = m.ctx.grids := by
  delta Mach.modSched Mach.modGroup; with_reducible rfl
@[simp] theorem Mach.modSched_graphs (m : Mach) (gid : Nat) (f : Sched → Sched) :
    (m.modSched gid f).ctx.graphs = m.ctx.graphs := by
  delta Mach.modSched Mach.modGroup; with_reducible rfl
@[simp] theorem Mach.modSched_detached (m : Mach) (gid : Nat) (f : Sched → Sched) :
    (m.modSched gid f).ctx.detached = m.ctx.detached := by
  delta Mach.modSched Mach.modGroup; with_reducible rfl
@[simp] theorem Mach.modSched_detachedNext (m : Mach) (gid : Nat) (f : Sched → Sched) :
    (m.modSched gid f).ctx.detachedNext = m.ctx.detachedNext := by
  delta Mach.modSched Mach.modGroup; with_reducible rfl
@[simp] theorem Mach.modSched_trigs (m : Mach) (gid : Nat) (f : Sched → Sched) :
    (m.modSched gid f).ctx.trigs = m.ctx.trigs := by
  delta Mach.modSched Mach.modGroup; with_reducible rfl
@[simp] theorem Mach.modSched_launches (m : Mach) (gid : Nat) (f : Sched → Sched) :
    (m.modSched gid f).ctx.launches = m.ctx.launches := by
  delta Mach.modSched Mach.modGroup; with_reducible rfl
@[simp] theorem Mach.modSched_fetches (m : Mach) (gid : Nat) (f : Sched → Sched) :
    (m.modSched gid f).ctx.fetches = m.ctx.fetches := by
  delta Mach.modSched Mach.modGroup; with_reducible rfl
@[simp] theorem Mach.modSched_hflags (m : Mach) (gid : Nat) (f : Sched → Sched) :
    (m.modSched gid f).ctx.hflags = m.ctx.hflags := by
  delta Mach.modSched Mach.modGroup; with_reducible rfl
@[simp] theorem Mach.modSched_ops (m : Mach) (gid : Nat) (f : Sched → Sched) :
    (m.modSched gid f).ctx.ops = m.ctx.ops := by
  delta Mach.modSched Mach.modGroup; with_reducible rfl
@[simp] theorem Mach.modSched_rays (m : Mach) (gid : Nat) (f : Sched → Sched) :
    (m.modSched gid f).ctx.rays = m.ctx.rays := by
  delta Mach.modSched Mach.modGroup; with_reducible rfl
@[simp] theorem Mach.modSched_treelets (m : Mach) (gid : Nat) (f : Sched → Sched) :
    (m.modSched gid f).ctx.treelets = m.ctx.treelets := by
  delta Mach.modSched Mach.modGroup; with_reducible rfl
@[simp] theorem Mach.modSched_regions (m : Mach) (gid : Nat) (f : Sched → Sched) :
    (m.modSched gid f).ctx.regions = m.ctx.regions := by
  delta Mach.modSched Mach.modGroup; with_reducible rfl
@[simp] theorem Mach.modSched_dfbase (m : Mach) (gid : Nat) (f : Sched → Sched) :
    (m.modSched gid f).ctx.dfbase = m.ctx.dfbase := by
  delta Mach.modSched Mach.modGroup; with_reducible rfl
@[simp] theorem Mach.modSched_dfsize (m : Mach) (gid : Nat) (f : Sched → Sched) :
    (m.modSched gid f).ctx.dfsize = m.ctx.dfsize := by
  delta Mach.modSched Mach.modGroup; with_reducible rfl
@[simp] theorem Mach.modSched_saves (m : Mach) (gid : Nat) (f : Sched → Sched) :
    (m.modSched gid f).saves = m.saves := by
  delta Mach.modSched Mach.modGroup; with_reducible rfl
@[simp] theorem Mach.modSched_cache (m : Mach) (gid : Nat) (f : Sched → Sched) :
    (m.modSched gid f).cache = m.cache := by
  delta Mach.modSched Mach.modGroup; with_reducible rfl
@[simp] theorem Mach.modSched_tlb (m : Mach) (gid : Nat) (f : Sched → Sched) :
    (m.modSched gid f).tlb = m.tlb := by
  delta Mach.modSched Mach.modGroup; with_reducible rfl
@[simp] theorem Mach.modSched_own (m : Mach) (gid : Nat) (f : Sched → Sched) :
    (m.modSched gid f).own = m.own := by
  delta Mach.modSched Mach.modGroup; with_reducible rfl
@[simp] theorem Mach.modSched_posted (m : Mach) (gid : Nat) (f : Sched → Sched) :
    (m.modSched gid f).posted = m.posted := by
  delta Mach.modSched Mach.modGroup; with_reducible rfl
@[simp] theorem Mach.modSched_net (m : Mach) (gid : Nat) (f : Sched → Sched) :
    (m.modSched gid f).net = m.net := by
  delta Mach.modSched Mach.modGroup; with_reducible rfl
@[simp] theorem Mach.modSched_faults (m : Mach) (gid : Nat) (f : Sched → Sched) :
    (m.modSched gid f).faults = m.faults := by
  delta Mach.modSched Mach.modGroup; with_reducible rfl
@[simp] theorem Mach.modSched_freezes (m : Mach) (gid : Nat) (f : Sched → Sched) :
    (m.modSched gid f).freezes = m.freezes := by
  delta Mach.modSched Mach.modGroup; with_reducible rfl
@[simp] theorem Mach.modSched_logs (m : Mach) (gid : Nat) (f : Sched → Sched) :
    (m.modSched gid f).logs = m.logs := by
  delta Mach.modSched Mach.modGroup; with_reducible rfl
@[simp] theorem Mach.modSched_staged (m : Mach) (gid : Nat) (f : Sched → Sched) :
    (m.modSched gid f).staged = m.staged := by
  delta Mach.modSched Mach.modGroup; with_reducible rfl
@[simp] theorem Mach.modSched_cellars (m : Mach) (gid : Nat) (f : Sched → Sched) :
    (m.modSched gid f).cellars = m.cellars := by
  delta Mach.modSched Mach.modGroup; with_reducible rfl
@[simp] theorem Mach.modSched_backed (m : Mach) (gid : Nat) (f : Sched → Sched) :
    (m.modSched gid f).backed = m.backed := by
  delta Mach.modSched Mach.modGroup; with_reducible rfl
@[simp] theorem Mach.modSched_tiers (m : Mach) (gid : Nat) (f : Sched → Sched) :
    (m.modSched gid f).tiers = m.tiers := by
  delta Mach.modSched Mach.modGroup; with_reducible rfl
@[simp] theorem Mach.modSched_nycels (m : Mach) (gid : Nat) (f : Sched → Sched) :
    (m.modSched gid f).nycels = m.nycels := by
  delta Mach.modSched Mach.modGroup; with_reducible rfl
@[simp] theorem Mach.modSched_attnInWindow (m : Mach) (gid : Nat) (f : Sched → Sched) :
    (m.modSched gid f).attnInWindow = m.attnInWindow := by
  delta Mach.modSched Mach.modGroup; with_reducible rfl
@[simp] theorem Mach.modSched_attnLast (m : Mach) (gid : Nat) (f : Sched → Sched) :
    (m.modSched gid f).attnLast = m.attnLast := by
  delta Mach.modSched Mach.modGroup; with_reducible rfl
@[simp] theorem Mach.modSched_govFrom (m : Mach) (gid : Nat) (f : Sched → Sched) :
    (m.modSched gid f).govFrom = m.govFrom := by
  delta Mach.modSched Mach.modGroup; with_reducible rfl
@[simp] theorem Mach.modSched_reports (m : Mach) (gid : Nat) (f : Sched → Sched) :
    (m.modSched gid f).reports = m.reports := by
  delta Mach.modSched Mach.modGroup; with_reducible rfl
@[simp] theorem Mach.modSched_script (m : Mach) (gid : Nat) (f : Sched → Sched) :
    (m.modSched gid f).script = m.script := by
  delta Mach.modSched Mach.modGroup; with_reducible rfl
@[simp] theorem Mach.modSched_cur (m : Mach) (gid : Nat) (f : Sched → Sched) :
    (m.modSched gid f).cur = m.cur := by
  delta Mach.modSched Mach.modGroup; with_reducible rfl
@[simp] theorem Mach.modSched_freeCtr (m : Mach) (gid : Nat) (f : Sched → Sched) :
    (m.modSched gid f).freeCtr = m.freeCtr := by
  delta Mach.modSched Mach.modGroup; with_reducible rfl
@[simp] theorem Mach.modSched_nextId (m : Mach) (gid : Nat) (f : Sched → Sched) :
    (m.modSched gid f).nextId = m.nextId := by
  delta Mach.modSched Mach.modGroup; with_reducible rfl
@[simp] theorem Mach.modRay_cyc (m : Mach) (id : Nat) (f : Ray → Ray) :
    (m.modRay id f).cyc = m.cyc := by
  delta Mach.modRay; with_reducible rfl
@[simp] theorem Mach.modRay_mem (m : Mach) (id : Nat) (f : Ray → Ray) :
    (m.modRay id f).mem = m.mem := by
  delta Mach.modRay; with_reducible rfl
@[simp] theorem Mach.modRay_tiles (m : Mach) (id : Nat) (f : Ray → Ray) :
    (m.modRay id f).tiles = m.tiles := by
  delta Mach.modRay; with_reducible rfl
@[simp] theorem Mach.modRay_groups (m : Mach) (id : Nat) (f : Ray → Ray) :
    (m.modRay id f).ctx.groups = m.ctx.groups := by
  delta Mach.modRay; with_reducible rfl
@[simp] theorem Mach.modRay_teams (m : Mach) (id : Nat) (f : Ray → Ray) :
    (m.modRay id f).ctx.teams = m.ctx.teams := by
  delta Mach.modRay; with_reducible rfl
@[simp] theorem Mach.modRay_clusters (m : Mach) (id : Nat) (f : Ray → Ray) :
    (m.modRay id f).ctx.clusters = m.ctx.clusters := by
  delta Mach.modRay; with_reducible rfl
@[simp] theorem Mach.modRay_grids (m : Mach) (id : Nat) (f : Ray → Ray) :
    (m.modRay id f).ctx.grids = m.ctx.grids := by
  delta Mach.modRay; with_reducible rfl
@[simp] theorem Mach.modRay_graphs (m : Mach) (id : Nat) (f : Ray → Ray) :
    (m.modRay id f).ctx.graphs = m.ctx.graphs := by
  delta Mach.modRay; with_reducible rfl
@[simp] theorem Mach.modRay_detached (m : Mach) (id : Nat) (f : Ray → Ray) :
    (m.modRay id f).ctx.detached = m.ctx.detached := by
  delta Mach.modRay; with_reducible rfl
@[simp] theorem Mach.modRay_detachedNext (m : Mach) (id : Nat) (f : Ray → Ray) :
    (m.modRay id f).ctx.detachedNext = m.ctx.detachedNext := by
  delta Mach.modRay; with_reducible rfl
@[simp] theorem Mach.modRay_trigs (m : Mach) (id : Nat) (f : Ray → Ray) :
    (m.modRay id f).ctx.trigs = m.ctx.trigs := by
  delta Mach.modRay; with_reducible rfl
@[simp] theorem Mach.modRay_launches (m : Mach) (id : Nat) (f : Ray → Ray) :
    (m.modRay id f).ctx.launches = m.ctx.launches := by
  delta Mach.modRay; with_reducible rfl
@[simp] theorem Mach.modRay_fetches (m : Mach) (id : Nat) (f : Ray → Ray) :
    (m.modRay id f).ctx.fetches = m.ctx.fetches := by
  delta Mach.modRay; with_reducible rfl
@[simp] theorem Mach.modRay_hflags (m : Mach) (id : Nat) (f : Ray → Ray) :
    (m.modRay id f).ctx.hflags = m.ctx.hflags := by
  delta Mach.modRay; with_reducible rfl
@[simp] theorem Mach.modRay_ops (m : Mach) (id : Nat) (f : Ray → Ray) :
    (m.modRay id f).ctx.ops = m.ctx.ops := by
  delta Mach.modRay; with_reducible rfl
@[simp] theorem Mach.modRay_treelets (m : Mach) (id : Nat) (f : Ray → Ray) :
    (m.modRay id f).ctx.treelets = m.ctx.treelets := by
  delta Mach.modRay; with_reducible rfl
@[simp] theorem Mach.modRay_regions (m : Mach) (id : Nat) (f : Ray → Ray) :
    (m.modRay id f).ctx.regions = m.ctx.regions := by
  delta Mach.modRay; with_reducible rfl
@[simp] theorem Mach.modRay_dfbase (m : Mach) (id : Nat) (f : Ray → Ray) :
    (m.modRay id f).ctx.dfbase = m.ctx.dfbase := by
  delta Mach.modRay; with_reducible rfl
@[simp] theorem Mach.modRay_dfsize (m : Mach) (id : Nat) (f : Ray → Ray) :
    (m.modRay id f).ctx.dfsize = m.ctx.dfsize := by
  delta Mach.modRay; with_reducible rfl
@[simp] theorem Mach.modRay_saves (m : Mach) (id : Nat) (f : Ray → Ray) :
    (m.modRay id f).saves = m.saves := by
  delta Mach.modRay; with_reducible rfl
@[simp] theorem Mach.modRay_cache (m : Mach) (id : Nat) (f : Ray → Ray) :
    (m.modRay id f).cache = m.cache := by
  delta Mach.modRay; with_reducible rfl
@[simp] theorem Mach.modRay_tlb (m : Mach) (id : Nat) (f : Ray → Ray) :
    (m.modRay id f).tlb = m.tlb := by
  delta Mach.modRay; with_reducible rfl
@[simp] theorem Mach.modRay_own (m : Mach) (id : Nat) (f : Ray → Ray) :
    (m.modRay id f).own = m.own := by
  delta Mach.modRay; with_reducible rfl
@[simp] theorem Mach.modRay_posted (m : Mach) (id : Nat) (f : Ray → Ray) :
    (m.modRay id f).posted = m.posted := by
  delta Mach.modRay; with_reducible rfl
@[simp] theorem Mach.modRay_net (m : Mach) (id : Nat) (f : Ray → Ray) :
    (m.modRay id f).net = m.net := by
  delta Mach.modRay; with_reducible rfl
@[simp] theorem Mach.modRay_faults (m : Mach) (id : Nat) (f : Ray → Ray) :
    (m.modRay id f).faults = m.faults := by
  delta Mach.modRay; with_reducible rfl
@[simp] theorem Mach.modRay_freezes (m : Mach) (id : Nat) (f : Ray → Ray) :
    (m.modRay id f).freezes = m.freezes := by
  delta Mach.modRay; with_reducible rfl
@[simp] theorem Mach.modRay_logs (m : Mach) (id : Nat) (f : Ray → Ray) :
    (m.modRay id f).logs = m.logs := by
  delta Mach.modRay; with_reducible rfl
@[simp] theorem Mach.modRay_staged (m : Mach) (id : Nat) (f : Ray → Ray) :
    (m.modRay id f).staged = m.staged := by
  delta Mach.modRay; with_reducible rfl
@[simp] theorem Mach.modRay_cellars (m : Mach) (id : Nat) (f : Ray → Ray) :
    (m.modRay id f).cellars = m.cellars := by
  delta Mach.modRay; with_reducible rfl
@[simp] theorem Mach.modRay_backed (m : Mach) (id : Nat) (f : Ray → Ray) :
    (m.modRay id f).backed = m.backed := by
  delta Mach.modRay; with_reducible rfl
@[simp] theorem Mach.modRay_tiers (m : Mach) (id : Nat) (f : Ray → Ray) :
    (m.modRay id f).tiers = m.tiers := by
  delta Mach.modRay; with_reducible rfl
@[simp] theorem Mach.modRay_nycels (m : Mach) (id : Nat) (f : Ray → Ray) :
    (m.modRay id f).nycels = m.nycels := by
  delta Mach.modRay; with_reducible rfl
@[simp] theorem Mach.modRay_attnInWindow (m : Mach) (id : Nat) (f : Ray → Ray) :
    (m.modRay id f).attnInWindow = m.attnInWindow := by
  delta Mach.modRay; with_reducible rfl
@[simp] theorem Mach.modRay_attnLast (m : Mach) (id : Nat) (f : Ray → Ray) :
    (m.modRay id f).attnLast = m.attnLast := by
  delta Mach.modRay; with_reducible rfl
@[simp] theorem Mach.modRay_govFrom (m : Mach) (id : Nat) (f : Ray → Ray) :
    (m.modRay id f).govFrom = m.govFrom := by
  delta Mach.modRay; with_reducible rfl
@[simp] theorem Mach.modRay_reports (m : Mach) (id : Nat) (f : Ray → Ray) :
    (m.modRay id f).reports = m.reports := by
  delta Mach.modRay; with_reducible rfl
@[simp] theorem Mach.modRay_script (m : Mach) (id : Nat) (f : Ray → Ray) :
    (m.modRay id f).script = m.script := by
  delta Mach.modRay; with_reducible rfl
@[simp] theorem Mach.modRay_cur (m : Mach) (id : Nat) (f : Ray → Ray) :
    (m.modRay id f).cur = m.cur := by
  delta Mach.modRay; with_reducible rfl
@[simp] theorem Mach.modRay_freeCtr (m : Mach) (id : Nat) (f : Ray → Ray) :
    (m.modRay id f).freeCtr = m.freeCtr := by
  delta Mach.modRay; with_reducible rfl
@[simp] theorem Mach.modRay_nextId (m : Mach) (id : Nat) (f : Ray → Ray) :
    (m.modRay id f).nextId = m.nextId := by
  delta Mach.modRay; with_reducible rfl
@[simp] theorem Mach.modTier_cyc (m : Mach) (port : Nat) (f : TierUnit → TierUnit) :
    (m.modTier port f).cyc = m.cyc := by
  delta Mach.modTier; with_reducible rfl
@[simp] theorem Mach.modTier_mem (m : Mach) (port : Nat) (f : TierUnit → TierUnit) :
    (m.modTier port f).mem = m.mem := by
  delta Mach.modTier; with_reducible rfl
@[simp] theorem Mach.modTier_tiles (m : Mach) (port : Nat) (f : TierUnit → TierUnit) :
    (m.modTier port f).tiles = m.tiles := by
  delta Mach.modTier; with_reducible rfl
@[simp] theorem Mach.modTier_groups (m : Mach) (port : Nat) (f : TierUnit → TierUnit) :
    (m.modTier port f).ctx.groups = m.ctx.groups := by
  delta Mach.modTier; with_reducible rfl
@[simp] theorem Mach.modTier_teams (m : Mach) (port : Nat) (f : TierUnit → TierUnit) :
    (m.modTier port f).ctx.teams = m.ctx.teams := by
  delta Mach.modTier; with_reducible rfl
@[simp] theorem Mach.modTier_clusters (m : Mach) (port : Nat) (f : TierUnit → TierUnit) :
    (m.modTier port f).ctx.clusters = m.ctx.clusters := by
  delta Mach.modTier; with_reducible rfl
@[simp] theorem Mach.modTier_grids (m : Mach) (port : Nat) (f : TierUnit → TierUnit) :
    (m.modTier port f).ctx.grids = m.ctx.grids := by
  delta Mach.modTier; with_reducible rfl
@[simp] theorem Mach.modTier_graphs (m : Mach) (port : Nat) (f : TierUnit → TierUnit) :
    (m.modTier port f).ctx.graphs = m.ctx.graphs := by
  delta Mach.modTier; with_reducible rfl
@[simp] theorem Mach.modTier_detached (m : Mach) (port : Nat) (f : TierUnit → TierUnit) :
    (m.modTier port f).ctx.detached = m.ctx.detached := by
  delta Mach.modTier; with_reducible rfl
@[simp] theorem Mach.modTier_detachedNext (m : Mach) (port : Nat) (f : TierUnit → TierUnit) :
    (m.modTier port f).ctx.detachedNext = m.ctx.detachedNext := by
  delta Mach.modTier; with_reducible rfl
@[simp] theorem Mach.modTier_trigs (m : Mach) (port : Nat) (f : TierUnit → TierUnit) :
    (m.modTier port f).ctx.trigs = m.ctx.trigs := by
  delta Mach.modTier; with_reducible rfl
@[simp] theorem Mach.modTier_launches (m : Mach) (port : Nat) (f : TierUnit → TierUnit) :
    (m.modTier port f).ctx.launches = m.ctx.launches := by
  delta Mach.modTier; with_reducible rfl
@[simp] theorem Mach.modTier_fetches (m : Mach) (port : Nat) (f : TierUnit → TierUnit) :
    (m.modTier port f).ctx.fetches = m.ctx.fetches := by
  delta Mach.modTier; with_reducible rfl
@[simp] theorem Mach.modTier_hflags (m : Mach) (port : Nat) (f : TierUnit → TierUnit) :
    (m.modTier port f).ctx.hflags = m.ctx.hflags := by
  delta Mach.modTier; with_reducible rfl
@[simp] theorem Mach.modTier_ops (m : Mach) (port : Nat) (f : TierUnit → TierUnit) :
    (m.modTier port f).ctx.ops = m.ctx.ops := by
  delta Mach.modTier; with_reducible rfl
@[simp] theorem Mach.modTier_rays (m : Mach) (port : Nat) (f : TierUnit → TierUnit) :
    (m.modTier port f).ctx.rays = m.ctx.rays := by
  delta Mach.modTier; with_reducible rfl
@[simp] theorem Mach.modTier_treelets (m : Mach) (port : Nat) (f : TierUnit → TierUnit) :
    (m.modTier port f).ctx.treelets = m.ctx.treelets := by
  delta Mach.modTier; with_reducible rfl
@[simp] theorem Mach.modTier_regions (m : Mach) (port : Nat) (f : TierUnit → TierUnit) :
    (m.modTier port f).ctx.regions = m.ctx.regions := by
  delta Mach.modTier; with_reducible rfl
@[simp] theorem Mach.modTier_dfbase (m : Mach) (port : Nat) (f : TierUnit → TierUnit) :
    (m.modTier port f).ctx.dfbase = m.ctx.dfbase := by
  delta Mach.modTier; with_reducible rfl
@[simp] theorem Mach.modTier_dfsize (m : Mach) (port : Nat) (f : TierUnit → TierUnit) :
    (m.modTier port f).ctx.dfsize = m.ctx.dfsize := by
  delta Mach.modTier; with_reducible rfl
@[simp] theorem Mach.modTier_ctx (m : Mach) (port : Nat) (f : TierUnit → TierUnit) :
    (m.modTier port f).ctx = m.ctx := by
  delta Mach.modTier; with_reducible rfl
@[simp] theorem Mach.modTier_saves (m : Mach) (port : Nat) (f : TierUnit → TierUnit) :
    (m.modTier port f).saves = m.saves := by
  delta Mach.modTier; with_reducible rfl
@[simp] theorem Mach.modTier_cache (m : Mach) (port : Nat) (f : TierUnit → TierUnit) :
    (m.modTier port f).cache = m.cache := by
  delta Mach.modTier; with_reducible rfl
@[simp] theorem Mach.modTier_tlb (m : Mach) (port : Nat) (f : TierUnit → TierUnit) :
    (m.modTier port f).tlb = m.tlb := by
  delta Mach.modTier; with_reducible rfl
@[simp] theorem Mach.modTier_own (m : Mach) (port : Nat) (f : TierUnit → TierUnit) :
    (m.modTier port f).own = m.own := by
  delta Mach.modTier; with_reducible rfl
@[simp] theorem Mach.modTier_posted (m : Mach) (port : Nat) (f : TierUnit → TierUnit) :
    (m.modTier port f).posted = m.posted := by
  delta Mach.modTier; with_reducible rfl
@[simp] theorem Mach.modTier_net (m : Mach) (port : Nat) (f : TierUnit → TierUnit) :
    (m.modTier port f).net = m.net := by
  delta Mach.modTier; with_reducible rfl
@[simp] theorem Mach.modTier_faults (m : Mach) (port : Nat) (f : TierUnit → TierUnit) :
    (m.modTier port f).faults = m.faults := by
  delta Mach.modTier; with_reducible rfl
@[simp] theorem Mach.modTier_freezes (m : Mach) (port : Nat) (f : TierUnit → TierUnit) :
    (m.modTier port f).freezes = m.freezes := by
  delta Mach.modTier; with_reducible rfl
@[simp] theorem Mach.modTier_logs (m : Mach) (port : Nat) (f : TierUnit → TierUnit) :
    (m.modTier port f).logs = m.logs := by
  delta Mach.modTier; with_reducible rfl
@[simp] theorem Mach.modTier_staged (m : Mach) (port : Nat) (f : TierUnit → TierUnit) :
    (m.modTier port f).staged = m.staged := by
  delta Mach.modTier; with_reducible rfl
@[simp] theorem Mach.modTier_cellars (m : Mach) (port : Nat) (f : TierUnit → TierUnit) :
    (m.modTier port f).cellars = m.cellars := by
  delta Mach.modTier; with_reducible rfl
@[simp] theorem Mach.modTier_backed (m : Mach) (port : Nat) (f : TierUnit → TierUnit) :
    (m.modTier port f).backed = m.backed := by
  delta Mach.modTier; with_reducible rfl
@[simp] theorem Mach.modTier_nycels (m : Mach) (port : Nat) (f : TierUnit → TierUnit) :
    (m.modTier port f).nycels = m.nycels := by
  delta Mach.modTier; with_reducible rfl
@[simp] theorem Mach.modTier_attnInWindow (m : Mach) (port : Nat) (f : TierUnit → TierUnit) :
    (m.modTier port f).attnInWindow = m.attnInWindow := by
  delta Mach.modTier; with_reducible rfl
@[simp] theorem Mach.modTier_attnLast (m : Mach) (port : Nat) (f : TierUnit → TierUnit) :
    (m.modTier port f).attnLast = m.attnLast := by
  delta Mach.modTier; with_reducible rfl
@[simp] theorem Mach.modTier_govFrom (m : Mach) (port : Nat) (f : TierUnit → TierUnit) :
    (m.modTier port f).govFrom = m.govFrom := by
  delta Mach.modTier; with_reducible rfl
@[simp] theorem Mach.modTier_reports (m : Mach) (port : Nat) (f : TierUnit → TierUnit) :
    (m.modTier port f).reports = m.reports := by
  delta Mach.modTier; with_reducible rfl
@[simp] theorem Mach.modTier_script (m : Mach) (port : Nat) (f : TierUnit → TierUnit) :
    (m.modTier port f).script = m.script := by
  delta Mach.modTier; with_reducible rfl
@[simp] theorem Mach.modTier_cur (m : Mach) (port : Nat) (f : TierUnit → TierUnit) :
    (m.modTier port f).cur = m.cur := by
  delta Mach.modTier; with_reducible rfl
@[simp] theorem Mach.modTier_freeCtr (m : Mach) (port : Nat) (f : TierUnit → TierUnit) :
    (m.modTier port f).freeCtr = m.freeCtr := by
  delta Mach.modTier; with_reducible rfl
@[simp] theorem Mach.modTier_nextId (m : Mach) (port : Nat) (f : TierUnit → TierUnit) :
    (m.modTier port f).nextId = m.nextId := by
  delta Mach.modTier; with_reducible rfl
@[simp] theorem Mach.modNycel_cyc (m : Mach) (port : Nat) (f : NycelUnit → NycelUnit) :
    (m.modNycel port f).cyc = m.cyc := by
  delta Mach.modNycel; with_reducible rfl
@[simp] theorem Mach.modNycel_mem (m : Mach) (port : Nat) (f : NycelUnit → NycelUnit) :
    (m.modNycel port f).mem = m.mem := by
  delta Mach.modNycel; with_reducible rfl
@[simp] theorem Mach.modNycel_tiles (m : Mach) (port : Nat) (f : NycelUnit → NycelUnit) :
    (m.modNycel port f).tiles = m.tiles := by
  delta Mach.modNycel; with_reducible rfl
@[simp] theorem Mach.modNycel_groups (m : Mach) (port : Nat) (f : NycelUnit → NycelUnit) :
    (m.modNycel port f).ctx.groups = m.ctx.groups := by
  delta Mach.modNycel; with_reducible rfl
@[simp] theorem Mach.modNycel_teams (m : Mach) (port : Nat) (f : NycelUnit → NycelUnit) :
    (m.modNycel port f).ctx.teams = m.ctx.teams := by
  delta Mach.modNycel; with_reducible rfl
@[simp] theorem Mach.modNycel_clusters (m : Mach) (port : Nat) (f : NycelUnit → NycelUnit) :
    (m.modNycel port f).ctx.clusters = m.ctx.clusters := by
  delta Mach.modNycel; with_reducible rfl
@[simp] theorem Mach.modNycel_grids (m : Mach) (port : Nat) (f : NycelUnit → NycelUnit) :
    (m.modNycel port f).ctx.grids = m.ctx.grids := by
  delta Mach.modNycel; with_reducible rfl
@[simp] theorem Mach.modNycel_graphs (m : Mach) (port : Nat) (f : NycelUnit → NycelUnit) :
    (m.modNycel port f).ctx.graphs = m.ctx.graphs := by
  delta Mach.modNycel; with_reducible rfl
@[simp] theorem Mach.modNycel_detached (m : Mach) (port : Nat) (f : NycelUnit → NycelUnit) :
    (m.modNycel port f).ctx.detached = m.ctx.detached := by
  delta Mach.modNycel; with_reducible rfl
@[simp] theorem Mach.modNycel_detachedNext (m : Mach) (port : Nat) (f : NycelUnit → NycelUnit) :
    (m.modNycel port f).ctx.detachedNext = m.ctx.detachedNext := by
  delta Mach.modNycel; with_reducible rfl
@[simp] theorem Mach.modNycel_trigs (m : Mach) (port : Nat) (f : NycelUnit → NycelUnit) :
    (m.modNycel port f).ctx.trigs = m.ctx.trigs := by
  delta Mach.modNycel; with_reducible rfl
@[simp] theorem Mach.modNycel_launches (m : Mach) (port : Nat) (f : NycelUnit → NycelUnit) :
    (m.modNycel port f).ctx.launches = m.ctx.launches := by
  delta Mach.modNycel; with_reducible rfl
@[simp] theorem Mach.modNycel_fetches (m : Mach) (port : Nat) (f : NycelUnit → NycelUnit) :
    (m.modNycel port f).ctx.fetches = m.ctx.fetches := by
  delta Mach.modNycel; with_reducible rfl
@[simp] theorem Mach.modNycel_hflags (m : Mach) (port : Nat) (f : NycelUnit → NycelUnit) :
    (m.modNycel port f).ctx.hflags = m.ctx.hflags := by
  delta Mach.modNycel; with_reducible rfl
@[simp] theorem Mach.modNycel_ops (m : Mach) (port : Nat) (f : NycelUnit → NycelUnit) :
    (m.modNycel port f).ctx.ops = m.ctx.ops := by
  delta Mach.modNycel; with_reducible rfl
@[simp] theorem Mach.modNycel_rays (m : Mach) (port : Nat) (f : NycelUnit → NycelUnit) :
    (m.modNycel port f).ctx.rays = m.ctx.rays := by
  delta Mach.modNycel; with_reducible rfl
@[simp] theorem Mach.modNycel_treelets (m : Mach) (port : Nat) (f : NycelUnit → NycelUnit) :
    (m.modNycel port f).ctx.treelets = m.ctx.treelets := by
  delta Mach.modNycel; with_reducible rfl
@[simp] theorem Mach.modNycel_regions (m : Mach) (port : Nat) (f : NycelUnit → NycelUnit) :
    (m.modNycel port f).ctx.regions = m.ctx.regions := by
  delta Mach.modNycel; with_reducible rfl
@[simp] theorem Mach.modNycel_dfbase (m : Mach) (port : Nat) (f : NycelUnit → NycelUnit) :
    (m.modNycel port f).ctx.dfbase = m.ctx.dfbase := by
  delta Mach.modNycel; with_reducible rfl
@[simp] theorem Mach.modNycel_dfsize (m : Mach) (port : Nat) (f : NycelUnit → NycelUnit) :
    (m.modNycel port f).ctx.dfsize = m.ctx.dfsize := by
  delta Mach.modNycel; with_reducible rfl
@[simp] theorem Mach.modNycel_ctx (m : Mach) (port : Nat) (f : NycelUnit → NycelUnit) :
    (m.modNycel port f).ctx = m.ctx := by
  delta Mach.modNycel; with_reducible rfl
@[simp] theorem Mach.modNycel_saves (m : Mach) (port : Nat) (f : NycelUnit → NycelUnit) :
    (m.modNycel port f).saves = m.saves := by
  delta Mach.modNycel; with_reducible rfl
@[simp] theorem Mach.modNycel_cache (m : Mach) (port : Nat) (f : NycelUnit → NycelUnit) :
    (m.modNycel port f).cache = m.cache := by
  delta Mach.modNycel; with_reducible rfl
@[simp] theorem Mach.modNycel_tlb (m : Mach) (port : Nat) (f : NycelUnit → NycelUnit) :
    (m.modNycel port f).tlb = m.tlb := by
  delta Mach.modNycel; with_reducible rfl
@[simp] theorem Mach.modNycel_own (m : Mach) (port : Nat) (f : NycelUnit → NycelUnit) :
    (m.modNycel port f).own = m.own := by
  delta Mach.modNycel; with_reducible rfl
@[simp] theorem Mach.modNycel_posted (m : Mach) (port : Nat) (f : NycelUnit → NycelUnit) :
    (m.modNycel port f).posted = m.posted := by
  delta Mach.modNycel; with_reducible rfl
@[simp] theorem Mach.modNycel_net (m : Mach) (port : Nat) (f : NycelUnit → NycelUnit) :
    (m.modNycel port f).net = m.net := by
  delta Mach.modNycel; with_reducible rfl
@[simp] theorem Mach.modNycel_faults (m : Mach) (port : Nat) (f : NycelUnit → NycelUnit) :
    (m.modNycel port f).faults = m.faults := by
  delta Mach.modNycel; with_reducible rfl
@[simp] theorem Mach.modNycel_freezes (m : Mach) (port : Nat) (f : NycelUnit → NycelUnit) :
    (m.modNycel port f).freezes = m.freezes := by
  delta Mach.modNycel; with_reducible rfl
@[simp] theorem Mach.modNycel_logs (m : Mach) (port : Nat) (f : NycelUnit → NycelUnit) :
    (m.modNycel port f).logs = m.logs := by
  delta Mach.modNycel; with_reducible rfl
@[simp] theorem Mach.modNycel_staged (m : Mach) (port : Nat) (f : NycelUnit → NycelUnit) :
    (m.modNycel port f).staged = m.staged := by
  delta Mach.modNycel; with_reducible rfl
@[simp] theorem Mach.modNycel_cellars (m : Mach) (port : Nat) (f : NycelUnit → NycelUnit) :
    (m.modNycel port f).cellars = m.cellars := by
  delta Mach.modNycel; with_reducible rfl
@[simp] theorem Mach.modNycel_backed (m : Mach) (port : Nat) (f : NycelUnit → NycelUnit) :
    (m.modNycel port f).backed = m.backed := by
  delta Mach.modNycel; with_reducible rfl
@[simp] theorem Mach.modNycel_tiers (m : Mach) (port : Nat) (f : NycelUnit → NycelUnit) :
    (m.modNycel port f).tiers = m.tiers := by
  delta Mach.modNycel; with_reducible rfl
@[simp] theorem Mach.modNycel_attnInWindow (m : Mach) (port : Nat) (f : NycelUnit → NycelUnit) :
    (m.modNycel port f).attnInWindow = m.attnInWindow := by
  delta Mach.modNycel; with_reducible rfl
@[simp] theorem Mach.modNycel_attnLast (m : Mach) (port : Nat) (f : NycelUnit → NycelUnit) :
    (m.modNycel port f).attnLast = m.attnLast := by
  delta Mach.modNycel; with_reducible rfl
@[simp] theorem Mach.modNycel_govFrom (m : Mach) (port : Nat) (f : NycelUnit → NycelUnit) :
    (m.modNycel port f).govFrom = m.govFrom := by
  delta Mach.modNycel; with_reducible rfl
@[simp] theorem Mach.modNycel_reports (m : Mach) (port : Nat) (f : NycelUnit → NycelUnit) :
    (m.modNycel port f).reports = m.reports := by
  delta Mach.modNycel; with_reducible rfl
@[simp] theorem Mach.modNycel_script (m : Mach) (port : Nat) (f : NycelUnit → NycelUnit) :
    (m.modNycel port f).script = m.script := by
  delta Mach.modNycel; with_reducible rfl
@[simp] theorem Mach.modNycel_cur (m : Mach) (port : Nat) (f : NycelUnit → NycelUnit) :
    (m.modNycel port f).cur = m.cur := by
  delta Mach.modNycel; with_reducible rfl
@[simp] theorem Mach.modNycel_freeCtr (m : Mach) (port : Nat) (f : NycelUnit → NycelUnit) :
    (m.modNycel port f).freeCtr = m.freeCtr := by
  delta Mach.modNycel; with_reducible rfl
@[simp] theorem Mach.modNycel_nextId (m : Mach) (port : Nat) (f : NycelUnit → NycelUnit) :
    (m.modNycel port f).nextId = m.nextId := by
  delta Mach.modNycel; with_reducible rfl
@[simp] theorem Device.event_powered (d : Device) (cyc : BitVec 64) (n : Nat) :
    (d.event cyc n).powered = d.powered := by
  delta Device.event; with_reducible rfl
@[simp] theorem Device.event_ngn (d : Device) (cyc : BitVec 64) (n : Nat) :
    (d.event cyc n).ngn = d.ngn := by
  delta Device.event; with_reducible rfl
@[simp] theorem Device.event_sfl (d : Device) (cyc : BitVec 64) (n : Nat) :
    (d.event cyc n).sfl = d.sfl := by
  delta Device.event; with_reducible rfl
@[simp] theorem Device.event_msk (d : Device) (cyc : BitVec 64) (n : Nat) :
    (d.event cyc n).msk = d.msk := by
  delta Device.event; with_reducible rfl
@[simp] theorem Device.event_bar2Data (d : Device) (cyc : BitVec 64) (n : Nat) :
    (d.event cyc n).bar2Data = d.bar2Data := by
  delta Device.event; with_reducible rfl
@[simp] theorem Device.event_bar2Poison (d : Device) (cyc : BitVec 64) (n : Nat) :
    (d.event cyc n).bar2Poison = d.bar2Poison := by
  delta Device.event; with_reducible rfl
@[simp] theorem Device.event_st (d : Device) (cyc : BitVec 64) (n : Nat) :
    (d.event cyc n).st = d.st := by
  delta Device.event; with_reducible rfl
@[simp] theorem Device.event_berr (d : Device) (cyc : BitVec 64) (n : Nat) :
    (d.event cyc n).berr = d.berr := by
  delta Device.event; with_reducible rfl
@[simp] theorem Device.event_devnum (d : Device) (cyc : BitVec 64) (n : Nat) :
    (d.event cyc n).devnum = d.devnum := by
  delta Device.event; with_reducible rfl
@[simp] theorem Device.event_w2tgt (d : Device) (cyc : BitVec 64) (n : Nat) :
    (d.event cyc n).w2tgt = d.w2tgt := by
  delta Device.event; with_reducible rfl
@[simp] theorem Device.event_w2base (d : Device) (cyc : BitVec 64) (n : Nat) :
    (d.event cyc n).w2base = d.w2base := by
  delta Device.event; with_reducible rfl
@[simp] theorem Device.event_rtgt (d : Device) (cyc : BitVec 64) (n : Nat) :
    (d.event cyc n).rtgt = d.rtgt := by
  delta Device.event; with_reducible rfl
@[simp] theorem Device.event_root (d : Device) (cyc : BitVec 64) (n : Nat) :
    (d.event cyc n).root = d.root := by
  delta Device.event; with_reducible rfl
@[simp] theorem Device.event_save (d : Device) (cyc : BitVec 64) (n : Nat) :
    (d.event cyc n).save = d.save := by
  delta Device.event; with_reducible rfl
@[simp] theorem Device.event_ctxst (d : Device) (cyc : BitVec 64) (n : Nat) :
    (d.event cyc n).ctxst = d.ctxst := by
  delta Device.event; with_reducible rfl
@[simp] theorem Device.event_last (d : Device) (cyc : BitVec 64) (n : Nat) :
    (d.event cyc n).last = d.last := by
  delta Device.event; with_reducible rfl
@[simp] theorem Device.event_drop (d : Device) (cyc : BitVec 64) (n : Nat) :
    (d.event cyc n).drop = d.drop := by
  delta Device.event; with_reducible rfl
@[simp] theorem Device.event_fresh (d : Device) (cyc : BitVec 64) (n : Nat) :
    (d.event cyc n).fresh = d.fresh := by
  delta Device.event; with_reducible rfl
@[simp] theorem Device.event_tlbiBusy (d : Device) (cyc : BitVec 64) (n : Nat) :
    (d.event cyc n).tlbiBusy = d.tlbiBusy := by
  delta Device.event; with_reducible rfl
@[simp] theorem Device.event_tlbiLost (d : Device) (cyc : BitVec 64) (n : Nat) :
    (d.event cyc n).tlbiLost = d.tlbiLost := by
  delta Device.event; with_reducible rfl
@[simp] theorem Device.event_tlbiQueue (d : Device) (cyc : BitVec 64) (n : Nat) :
    (d.event cyc n).tlbiQueue = d.tlbiQueue := by
  delta Device.event; with_reducible rfl
@[simp] theorem Device.event_pwr (d : Device) (cyc : BitVec 64) (n : Nat) :
    (d.event cyc n).pwr = d.pwr := by
  delta Device.event; with_reducible rfl
@[simp] theorem Device.event_temp (d : Device) (cyc : BitVec 64) (n : Nat) :
    (d.event cyc n).temp = d.temp := by
  delta Device.event; with_reducible rfl
@[simp] theorem Device.event_alert (d : Device) (cyc : BitVec 64) (n : Nat) :
    (d.event cyc n).alert = d.alert := by
  delta Device.event; with_reducible rfl
@[simp] theorem Device.event_queues (d : Device) (cyc : BitVec 64) (n : Nat) :
    (d.event cyc n).queues = d.queues := by
  delta Device.event; with_reducible rfl
@[simp] theorem Device.event_fwst (d : Device) (cyc : BitVec 64) (n : Nat) :
    (d.event cyc n).fwst = d.fwst := by
  delta Device.event; with_reducible rfl
@[simp] theorem Device.event_atreq (d : Device) (cyc : BitVec 64) (n : Nat) :
    (d.event cyc n).atreq = d.atreq := by
  delta Device.event; with_reducible rfl
@[simp] theorem Device.event_fwup (d : Device) (cyc : BitVec 64) (n : Nat) :
    (d.event cyc n).fwup = d.fwup := by
  delta Device.event; with_reducible rfl
@[simp] theorem Device.event_fwjob (d : Device) (cyc : BitVec 64) (n : Nat) :
    (d.event cyc n).fwjob = d.fwjob := by
  delta Device.event; with_reducible rfl
@[simp] theorem Device.event_flash (d : Device) (cyc : BitVec 64) (n : Nat) :
    (d.event cyc n).flash = d.flash := by
  delta Device.event; with_reducible rfl
@[simp] theorem Device.event_booted (d : Device) (cyc : BitVec 64) (n : Nat) :
    (d.event cyc n).booted = d.booted := by
  delta Device.event; with_reducible rfl
@[simp] theorem Device.event_dfbase (d : Device) (cyc : BitVec 64) (n : Nat) :
    (d.event cyc n).dfbase = d.dfbase := by
  delta Device.event; with_reducible rfl
@[simp] theorem Device.event_dfsize (d : Device) (cyc : BitVec 64) (n : Nat) :
    (d.event cyc n).dfsize = d.dfsize := by
  delta Device.event; with_reducible rfl
@[simp] theorem Device.event_routes (d : Device) (cyc : BitVec 64) (n : Nat) :
    (d.event cyc n).routes = d.routes := by
  delta Device.event; with_reducible rfl
@[simp] theorem Device.event_upload (d : Device) (cyc : BitVec 64) (n : Nat) :
    (d.event cyc n).upload = d.upload := by
  delta Device.event; with_reducible rfl
@[simp] theorem Device.event_cellars (d : Device) (cyc : BitVec 64) (n : Nat) :
    (d.event cyc n).cellars = d.cellars := by
  delta Device.event; with_reducible rfl
@[simp] theorem Device.event_rmax (d : Device) (cyc : BitVec 64) (n : Nat) :
    (d.event cyc n).rmax = d.rmax := by
  delta Device.event; with_reducible rfl
@[simp] theorem Device.event_gstep (d : Device) (cyc : BitVec 64) (n : Nat) :
    (d.event cyc n).gstep = d.gstep := by
  delta Device.event; with_reducible rfl
@[simp] theorem Device.event_tiers (d : Device) (cyc : BitVec 64) (n : Nat) :
    (d.event cyc n).tiers = d.tiers := by
  delta Device.event; with_reducible rfl
@[simp] theorem Device.event_nycels (d : Device) (cyc : BitVec 64) (n : Nat) :
    (d.event cyc n).nycels = d.nycels := by
  delta Device.event; with_reducible rfl
@[simp] theorem Device.modNycel_powered (d : Device) (port : Nat) (f : NycelRegs → NycelRegs) :
    (d.modNycel port f).powered = d.powered := by
  delta Device.modNycel; with_reducible rfl
@[simp] theorem Device.modNycel_ngn (d : Device) (port : Nat) (f : NycelRegs → NycelRegs) :
    (d.modNycel port f).ngn = d.ngn := by
  delta Device.modNycel; with_reducible rfl
@[simp] theorem Device.modNycel_sfl (d : Device) (port : Nat) (f : NycelRegs → NycelRegs) :
    (d.modNycel port f).sfl = d.sfl := by
  delta Device.modNycel; with_reducible rfl
@[simp] theorem Device.modNycel_evt (d : Device) (port : Nat) (f : NycelRegs → NycelRegs) :
    (d.modNycel port f).evt = d.evt := by
  delta Device.modNycel; with_reducible rfl
@[simp] theorem Device.modNycel_evtAt (d : Device) (port : Nat) (f : NycelRegs → NycelRegs) :
    (d.modNycel port f).evtAt = d.evtAt := by
  delta Device.modNycel; with_reducible rfl
@[simp] theorem Device.modNycel_msk (d : Device) (port : Nat) (f : NycelRegs → NycelRegs) :
    (d.modNycel port f).msk = d.msk := by
  delta Device.modNycel; with_reducible rfl
@[simp] theorem Device.modNycel_msix (d : Device) (port : Nat) (f : NycelRegs → NycelRegs) :
    (d.modNycel port f).msix = d.msix := by
  delta Device.modNycel; with_reducible rfl
@[simp] theorem Device.modNycel_bar2Data (d : Device) (port : Nat) (f : NycelRegs → NycelRegs) :
    (d.modNycel port f).bar2Data = d.bar2Data := by
  delta Device.modNycel; with_reducible rfl
@[simp] theorem Device.modNycel_bar2Poison (d : Device) (port : Nat) (f : NycelRegs → NycelRegs) :
    (d.modNycel port f).bar2Poison = d.bar2Poison := by
  delta Device.modNycel; with_reducible rfl
@[simp] theorem Device.modNycel_st (d : Device) (port : Nat) (f : NycelRegs → NycelRegs) :
    (d.modNycel port f).st = d.st := by
  delta Device.modNycel; with_reducible rfl
@[simp] theorem Device.modNycel_berr (d : Device) (port : Nat) (f : NycelRegs → NycelRegs) :
    (d.modNycel port f).berr = d.berr := by
  delta Device.modNycel; with_reducible rfl
@[simp] theorem Device.modNycel_devnum (d : Device) (port : Nat) (f : NycelRegs → NycelRegs) :
    (d.modNycel port f).devnum = d.devnum := by
  delta Device.modNycel; with_reducible rfl
@[simp] theorem Device.modNycel_w2tgt (d : Device) (port : Nat) (f : NycelRegs → NycelRegs) :
    (d.modNycel port f).w2tgt = d.w2tgt := by
  delta Device.modNycel; with_reducible rfl
@[simp] theorem Device.modNycel_w2base (d : Device) (port : Nat) (f : NycelRegs → NycelRegs) :
    (d.modNycel port f).w2base = d.w2base := by
  delta Device.modNycel; with_reducible rfl
@[simp] theorem Device.modNycel_rtgt (d : Device) (port : Nat) (f : NycelRegs → NycelRegs) :
    (d.modNycel port f).rtgt = d.rtgt := by
  delta Device.modNycel; with_reducible rfl
@[simp] theorem Device.modNycel_root (d : Device) (port : Nat) (f : NycelRegs → NycelRegs) :
    (d.modNycel port f).root = d.root := by
  delta Device.modNycel; with_reducible rfl
@[simp] theorem Device.modNycel_save (d : Device) (port : Nat) (f : NycelRegs → NycelRegs) :
    (d.modNycel port f).save = d.save := by
  delta Device.modNycel; with_reducible rfl
@[simp] theorem Device.modNycel_ctxst (d : Device) (port : Nat) (f : NycelRegs → NycelRegs) :
    (d.modNycel port f).ctxst = d.ctxst := by
  delta Device.modNycel; with_reducible rfl
@[simp] theorem Device.modNycel_last (d : Device) (port : Nat) (f : NycelRegs → NycelRegs) :
    (d.modNycel port f).last = d.last := by
  delta Device.modNycel; with_reducible rfl
@[simp] theorem Device.modNycel_drop (d : Device) (port : Nat) (f : NycelRegs → NycelRegs) :
    (d.modNycel port f).drop = d.drop := by
  delta Device.modNycel; with_reducible rfl
@[simp] theorem Device.modNycel_fresh (d : Device) (port : Nat) (f : NycelRegs → NycelRegs) :
    (d.modNycel port f).fresh = d.fresh := by
  delta Device.modNycel; with_reducible rfl
@[simp] theorem Device.modNycel_tlbiBusy (d : Device) (port : Nat) (f : NycelRegs → NycelRegs) :
    (d.modNycel port f).tlbiBusy = d.tlbiBusy := by
  delta Device.modNycel; with_reducible rfl
@[simp] theorem Device.modNycel_tlbiLost (d : Device) (port : Nat) (f : NycelRegs → NycelRegs) :
    (d.modNycel port f).tlbiLost = d.tlbiLost := by
  delta Device.modNycel; with_reducible rfl
@[simp] theorem Device.modNycel_tlbiQueue (d : Device) (port : Nat) (f : NycelRegs → NycelRegs) :
    (d.modNycel port f).tlbiQueue = d.tlbiQueue := by
  delta Device.modNycel; with_reducible rfl
@[simp] theorem Device.modNycel_pwr (d : Device) (port : Nat) (f : NycelRegs → NycelRegs) :
    (d.modNycel port f).pwr = d.pwr := by
  delta Device.modNycel; with_reducible rfl
@[simp] theorem Device.modNycel_temp (d : Device) (port : Nat) (f : NycelRegs → NycelRegs) :
    (d.modNycel port f).temp = d.temp := by
  delta Device.modNycel; with_reducible rfl
@[simp] theorem Device.modNycel_alert (d : Device) (port : Nat) (f : NycelRegs → NycelRegs) :
    (d.modNycel port f).alert = d.alert := by
  delta Device.modNycel; with_reducible rfl
@[simp] theorem Device.modNycel_queues (d : Device) (port : Nat) (f : NycelRegs → NycelRegs) :
    (d.modNycel port f).queues = d.queues := by
  delta Device.modNycel; with_reducible rfl
@[simp] theorem Device.modNycel_fwst (d : Device) (port : Nat) (f : NycelRegs → NycelRegs) :
    (d.modNycel port f).fwst = d.fwst := by
  delta Device.modNycel; with_reducible rfl
@[simp] theorem Device.modNycel_atreq (d : Device) (port : Nat) (f : NycelRegs → NycelRegs) :
    (d.modNycel port f).atreq = d.atreq := by
  delta Device.modNycel; with_reducible rfl
@[simp] theorem Device.modNycel_fwup (d : Device) (port : Nat) (f : NycelRegs → NycelRegs) :
    (d.modNycel port f).fwup = d.fwup := by
  delta Device.modNycel; with_reducible rfl
@[simp] theorem Device.modNycel_fwjob (d : Device) (port : Nat) (f : NycelRegs → NycelRegs) :
    (d.modNycel port f).fwjob = d.fwjob := by
  delta Device.modNycel; with_reducible rfl
@[simp] theorem Device.modNycel_flash (d : Device) (port : Nat) (f : NycelRegs → NycelRegs) :
    (d.modNycel port f).flash = d.flash := by
  delta Device.modNycel; with_reducible rfl
@[simp] theorem Device.modNycel_booted (d : Device) (port : Nat) (f : NycelRegs → NycelRegs) :
    (d.modNycel port f).booted = d.booted := by
  delta Device.modNycel; with_reducible rfl
@[simp] theorem Device.modNycel_dfbase (d : Device) (port : Nat) (f : NycelRegs → NycelRegs) :
    (d.modNycel port f).dfbase = d.dfbase := by
  delta Device.modNycel; with_reducible rfl
@[simp] theorem Device.modNycel_dfsize (d : Device) (port : Nat) (f : NycelRegs → NycelRegs) :
    (d.modNycel port f).dfsize = d.dfsize := by
  delta Device.modNycel; with_reducible rfl
@[simp] theorem Device.modNycel_routes (d : Device) (port : Nat) (f : NycelRegs → NycelRegs) :
    (d.modNycel port f).routes = d.routes := by
  delta Device.modNycel; with_reducible rfl
@[simp] theorem Device.modNycel_upload (d : Device) (port : Nat) (f : NycelRegs → NycelRegs) :
    (d.modNycel port f).upload = d.upload := by
  delta Device.modNycel; with_reducible rfl
@[simp] theorem Device.modNycel_cellars (d : Device) (port : Nat) (f : NycelRegs → NycelRegs) :
    (d.modNycel port f).cellars = d.cellars := by
  delta Device.modNycel; with_reducible rfl
@[simp] theorem Device.modNycel_rmax (d : Device) (port : Nat) (f : NycelRegs → NycelRegs) :
    (d.modNycel port f).rmax = d.rmax := by
  delta Device.modNycel; with_reducible rfl
@[simp] theorem Device.modNycel_gstep (d : Device) (port : Nat) (f : NycelRegs → NycelRegs) :
    (d.modNycel port f).gstep = d.gstep := by
  delta Device.modNycel; with_reducible rfl
@[simp] theorem Device.modNycel_tiers (d : Device) (port : Nat) (f : NycelRegs → NycelRegs) :
    (d.modNycel port f).tiers = d.tiers := by
  delta Device.modNycel; with_reducible rfl
@[simp] theorem Group.writeS_gid (g : Group) (n : Nat) (x : Word) :
    (g.writeS n x).gid = g.gid := by
  delta Group.writeS; with_reducible rfl
@[simp] theorem Group.writeS_team (g : Group) (n : Nat) (x : Word) :
    (g.writeS n x).team = g.team := by
  delta Group.writeS; with_reducible rfl
@[simp] theorem Group.writeS_num (g : Group) (n : Nat) (x : Word) :
    (g.writeS n x).num = g.num := by
  delta Group.writeS; with_reducible rfl
@[simp] theorem Group.writeS_core (g : Group) (n : Nat) (x : Word) :
    (g.writeS n x).core = g.core := by
  delta Group.writeS; with_reducible rfl
@[simp] theorem Group.writeS_quarter (g : Group) (n : Nat) (x : Word) :
    (g.writeS n x).quarter = g.quarter := by
  delta Group.writeS; with_reducible rfl
@[simp] theorem Group.writeS_slot (g : Group) (n : Nat) (x : Word) :
    (g.writeS n x).slot = g.slot := by
  delta Group.writeS; with_reducible rfl
@[simp] theorem Group.writeS_placed (g : Group) (n : Nat) (x : Word) :
    (g.writeS n x).placed = g.placed := by
  delta Group.writeS; with_reducible rfl
@[simp] theorem Group.writeS_fbb (g : Group) (n : Nat) (x : Word) :
    (g.writeS n x).fbb = g.fbb := by
  delta Group.writeS; with_reducible rfl
@[simp] theorem Group.writeS_lanes (g : Group) (n : Nat) (x : Word) :
    (g.writeS n x).lanes = g.lanes := by
  delta Group.writeS; with_reducible rfl
@[simp] theorem Group.writeS_p (g : Group) (n : Nat) (x : Word) :
    (g.writeS n x).p = g.p := by
  delta Group.writeS; with_reducible rfl
@[simp] theorem Group.writeS_q (g : Group) (n : Nat) (x : Word) :
    (g.writeS n x).q = g.q := by
  delta Group.writeS; with_reducible rfl
@[simp] theorem Group.writeS_v (g : Group) (n : Nat) (x : Word) :
    (g.writeS n x).v = g.v := by
  delta Group.writeS; with_reducible rfl
@[simp] theorem Group.writeS_badRegs (g : Group) (n : Nat) (x : Word) :
    (g.writeS n x).badRegs = g.badRegs := by
  delta Group.writeS; with_reducible rfl
@[simp] theorem Group.writeS_links (g : Group) (n : Nat) (x : Word) :
    (g.writeS n x).links = g.links := by
  delta Group.writeS; with_reducible rfl
@[simp] theorem Group.writeS_k (g : Group) (n : Nat) (x : Word) :
    (g.writeS n x).k = g.k := by
  delta Group.writeS; with_reducible rfl
@[simp] theorem Group.writeS_f (g : Group) (n : Nat) (x : Word) :
    (g.writeS n x).f = g.f := by
  delta Group.writeS; with_reducible rfl
@[simp] theorem Group.writeS_m (g : Group) (n : Nat) (x : Word) :
    (g.writeS n x).m = g.m := by
  delta Group.writeS; with_reducible rfl
@[simp] theorem Group.writeS_satf (g : Group) (n : Nat) (x : Word) :
    (g.writeS n x).satf = g.satf := by
  delta Group.writeS; with_reducible rfl
@[simp] theorem Group.writeS_pix (g : Group) (n : Nat) (x : Word) :
    (g.writeS n x).pix = g.pix := by
  delta Group.writeS; with_reducible rfl
@[simp] theorem Group.writeS_traps (g : Group) (n : Nat) (x : Word) :
    (g.writeS n x).traps = g.traps := by
  delta Group.writeS; with_reducible rfl
@[simp] theorem Group.writeS_trapsOut (g : Group) (n : Nat) (x : Word) :
    (g.writeS n x).trapsOut = g.trapsOut := by
  delta Group.writeS; with_reducible rfl
@[simp] theorem Group.writeS_handling (g : Group) (n : Nat) (x : Word) :
    (g.writeS n x).handling = g.handling := by
  delta Group.writeS; with_reducible rfl
@[simp] theorem Group.writeS_regcnt (g : Group) (n : Nat) (x : Word) :
    (g.writeS n x).regcnt = g.regcnt := by
  delta Group.writeS; with_reducible rfl
@[simp] theorem Group.writeS_marks (g : Group) (n : Nat) (x : Word) :
    (g.writeS n x).marks = g.marks := by
  delta Group.writeS; with_reducible rfl
@[simp] theorem Group.writeS_sleep (g : Group) (n : Nat) (x : Word) :
    (g.writeS n x).sleep = g.sleep := by
  delta Group.writeS; with_reducible rfl
@[simp] theorem Group.writeS_frozen (g : Group) (n : Nat) (x : Word) :
    (g.writeS n x).frozen = g.frozen := by
  delta Group.writeS; with_reducible rfl
@[simp] theorem Group.writeS_faultWait (g : Group) (n : Nat) (x : Word) :
    (g.writeS n x).faultWait = g.faultWait := by
  delta Group.writeS; with_reducible rfl
@[simp] theorem Group.writeS_barWaits (g : Group) (n : Nat) (x : Word) :
    (g.writeS n x).barWaits = g.barWaits := by
  delta Group.writeS; with_reducible rfl
@[simp] theorem Group.writeS_arrived (g : Group) (n : Nat) (x : Word) :
    (g.writeS n x).arrived = g.arrived := by
  delta Group.writeS; with_reducible rfl
@[simp] theorem Group.writeS_arrivedC (g : Group) (n : Nat) (x : Word) :
    (g.writeS n x).arrivedC = g.arrivedC := by
  delta Group.writeS; with_reducible rfl
@[simp] theorem Group.writeS_deferred (g : Group) (n : Nat) (x : Word) :
    (g.writeS n x).deferred = g.deferred := by
  delta Group.writeS; with_reducible rfl
@[simp] theorem Group.writeS_handed (g : Group) (n : Nat) (x : Word) :
    (g.writeS n x).handed = g.handed := by
  delta Group.writeS; with_reducible rfl
@[simp] theorem Group.writeS_tx (g : Group) (n : Nat) (x : Word) :
    (g.writeS n x).tx = g.tx := by
  delta Group.writeS; with_reducible rfl
@[simp] theorem Group.writeS_fenced (g : Group) (n : Nat) (x : Word) :
    (g.writeS n x).fenced = g.fenced := by
  delta Group.writeS; with_reducible rfl
@[simp] theorem Group.writeS_ownWait (g : Group) (n : Nat) (x : Word) :
    (g.writeS n x).ownWait = g.ownWait := by
  delta Group.writeS; with_reducible rfl
@[simp] theorem Group.writeS_ownAt (g : Group) (n : Nat) (x : Word) :
    (g.writeS n x).ownAt = g.ownAt := by
  delta Group.writeS; with_reducible rfl
@[simp] theorem Group.writeS_faultAt (g : Group) (n : Nat) (x : Word) :
    (g.writeS n x).faultAt = g.faultAt := by
  delta Group.writeS; with_reducible rfl
@[simp] theorem Group.writeS_clean (g : Group) (n : Nat) (x : Word) :
    (g.writeS n x).clean = g.clean := by
  delta Group.writeS; with_reducible rfl
@[simp] theorem Group.writeS_homed (g : Group) (n : Nat) (x : Word) :
    (g.writeS n x).homed = g.homed := by
  delta Group.writeS; with_reducible rfl
@[simp] theorem Group.writeS_clause (g : Group) (n : Nat) (x : Word) :
    (g.writeS n x).clause = g.clause := by
  delta Group.writeS; with_reducible rfl
@[simp] theorem Group.writeS_pair (g : Group) (n : Nat) (x : Word) :
    (g.writeS n x).pair = g.pair := by
  delta Group.writeS; with_reducible rfl
@[simp] theorem Group.writeS_serve (g : Group) (n : Nat) (x : Word) :
    (g.writeS n x).serve = g.serve := by
  delta Group.writeS; with_reducible rfl
@[simp] theorem Group.writeS_sched (g : Group) (n : Nat) (x : Word) :
    (g.writeS n x).sched = g.sched := by
  delta Group.writeS; with_reducible rfl
@[simp] theorem Group.writeS_retired (g : Group) (n : Nat) (x : Word) :
    (g.writeS n x).retired = g.retired := by
  delta Group.writeS; with_reducible rfl
@[simp] theorem Group.writeP_gid (g : Group) (mask : Mask) (n : Nat) (x : Mask) :
    (g.writeP mask n x).gid = g.gid := by
  delta Group.writeP; with_reducible rfl
@[simp] theorem Group.writeP_team (g : Group) (mask : Mask) (n : Nat) (x : Mask) :
    (g.writeP mask n x).team = g.team := by
  delta Group.writeP; with_reducible rfl
@[simp] theorem Group.writeP_num (g : Group) (mask : Mask) (n : Nat) (x : Mask) :
    (g.writeP mask n x).num = g.num := by
  delta Group.writeP; with_reducible rfl
@[simp] theorem Group.writeP_core (g : Group) (mask : Mask) (n : Nat) (x : Mask) :
    (g.writeP mask n x).core = g.core := by
  delta Group.writeP; with_reducible rfl
@[simp] theorem Group.writeP_quarter (g : Group) (mask : Mask) (n : Nat) (x : Mask) :
    (g.writeP mask n x).quarter = g.quarter := by
  delta Group.writeP; with_reducible rfl
@[simp] theorem Group.writeP_slot (g : Group) (mask : Mask) (n : Nat) (x : Mask) :
    (g.writeP mask n x).slot = g.slot := by
  delta Group.writeP; with_reducible rfl
@[simp] theorem Group.writeP_placed (g : Group) (mask : Mask) (n : Nat) (x : Mask) :
    (g.writeP mask n x).placed = g.placed := by
  delta Group.writeP; with_reducible rfl
@[simp] theorem Group.writeP_fbb (g : Group) (mask : Mask) (n : Nat) (x : Mask) :
    (g.writeP mask n x).fbb = g.fbb := by
  delta Group.writeP; with_reducible rfl
@[simp] theorem Group.writeP_lanes (g : Group) (mask : Mask) (n : Nat) (x : Mask) :
    (g.writeP mask n x).lanes = g.lanes := by
  delta Group.writeP; with_reducible rfl
@[simp] theorem Group.writeP_q (g : Group) (mask : Mask) (n : Nat) (x : Mask) :
    (g.writeP mask n x).q = g.q := by
  delta Group.writeP; with_reducible rfl
@[simp] theorem Group.writeP_s (g : Group) (mask : Mask) (n : Nat) (x : Mask) :
    (g.writeP mask n x).s = g.s := by
  delta Group.writeP; with_reducible rfl
@[simp] theorem Group.writeP_v (g : Group) (mask : Mask) (n : Nat) (x : Mask) :
    (g.writeP mask n x).v = g.v := by
  delta Group.writeP; with_reducible rfl
@[simp] theorem Group.writeP_badRegs (g : Group) (mask : Mask) (n : Nat) (x : Mask) :
    (g.writeP mask n x).badRegs = g.badRegs := by
  delta Group.writeP; with_reducible rfl
@[simp] theorem Group.writeP_links (g : Group) (mask : Mask) (n : Nat) (x : Mask) :
    (g.writeP mask n x).links = g.links := by
  delta Group.writeP; with_reducible rfl
@[simp] theorem Group.writeP_k (g : Group) (mask : Mask) (n : Nat) (x : Mask) :
    (g.writeP mask n x).k = g.k := by
  delta Group.writeP; with_reducible rfl
@[simp] theorem Group.writeP_f (g : Group) (mask : Mask) (n : Nat) (x : Mask) :
    (g.writeP mask n x).f = g.f := by
  delta Group.writeP; with_reducible rfl
@[simp] theorem Group.writeP_m (g : Group) (mask : Mask) (n : Nat) (x : Mask) :
    (g.writeP mask n x).m = g.m := by
  delta Group.writeP; with_reducible rfl
@[simp] theorem Group.writeP_satf (g : Group) (mask : Mask) (n : Nat) (x : Mask) :
    (g.writeP mask n x).satf = g.satf := by
  delta Group.writeP; with_reducible rfl
@[simp] theorem Group.writeP_pix (g : Group) (mask : Mask) (n : Nat) (x : Mask) :
    (g.writeP mask n x).pix = g.pix := by
  delta Group.writeP; with_reducible rfl
@[simp] theorem Group.writeP_traps (g : Group) (mask : Mask) (n : Nat) (x : Mask) :
    (g.writeP mask n x).traps = g.traps := by
  delta Group.writeP; with_reducible rfl
@[simp] theorem Group.writeP_trapsOut (g : Group) (mask : Mask) (n : Nat) (x : Mask) :
    (g.writeP mask n x).trapsOut = g.trapsOut := by
  delta Group.writeP; with_reducible rfl
@[simp] theorem Group.writeP_handling (g : Group) (mask : Mask) (n : Nat) (x : Mask) :
    (g.writeP mask n x).handling = g.handling := by
  delta Group.writeP; with_reducible rfl
@[simp] theorem Group.writeP_regcnt (g : Group) (mask : Mask) (n : Nat) (x : Mask) :
    (g.writeP mask n x).regcnt = g.regcnt := by
  delta Group.writeP; with_reducible rfl
@[simp] theorem Group.writeP_marks (g : Group) (mask : Mask) (n : Nat) (x : Mask) :
    (g.writeP mask n x).marks = g.marks := by
  delta Group.writeP; with_reducible rfl
@[simp] theorem Group.writeP_sleep (g : Group) (mask : Mask) (n : Nat) (x : Mask) :
    (g.writeP mask n x).sleep = g.sleep := by
  delta Group.writeP; with_reducible rfl
@[simp] theorem Group.writeP_frozen (g : Group) (mask : Mask) (n : Nat) (x : Mask) :
    (g.writeP mask n x).frozen = g.frozen := by
  delta Group.writeP; with_reducible rfl
@[simp] theorem Group.writeP_faultWait (g : Group) (mask : Mask) (n : Nat) (x : Mask) :
    (g.writeP mask n x).faultWait = g.faultWait := by
  delta Group.writeP; with_reducible rfl
@[simp] theorem Group.writeP_barWaits (g : Group) (mask : Mask) (n : Nat) (x : Mask) :
    (g.writeP mask n x).barWaits = g.barWaits := by
  delta Group.writeP; with_reducible rfl
@[simp] theorem Group.writeP_arrived (g : Group) (mask : Mask) (n : Nat) (x : Mask) :
    (g.writeP mask n x).arrived = g.arrived := by
  delta Group.writeP; with_reducible rfl
@[simp] theorem Group.writeP_arrivedC (g : Group) (mask : Mask) (n : Nat) (x : Mask) :
    (g.writeP mask n x).arrivedC = g.arrivedC := by
  delta Group.writeP; with_reducible rfl
@[simp] theorem Group.writeP_deferred (g : Group) (mask : Mask) (n : Nat) (x : Mask) :
    (g.writeP mask n x).deferred = g.deferred := by
  delta Group.writeP; with_reducible rfl
@[simp] theorem Group.writeP_handed (g : Group) (mask : Mask) (n : Nat) (x : Mask) :
    (g.writeP mask n x).handed = g.handed := by
  delta Group.writeP; with_reducible rfl
@[simp] theorem Group.writeP_tx (g : Group) (mask : Mask) (n : Nat) (x : Mask) :
    (g.writeP mask n x).tx = g.tx := by
  delta Group.writeP; with_reducible rfl
@[simp] theorem Group.writeP_fenced (g : Group) (mask : Mask) (n : Nat) (x : Mask) :
    (g.writeP mask n x).fenced = g.fenced := by
  delta Group.writeP; with_reducible rfl
@[simp] theorem Group.writeP_ownWait (g : Group) (mask : Mask) (n : Nat) (x : Mask) :
    (g.writeP mask n x).ownWait = g.ownWait := by
  delta Group.writeP; with_reducible rfl
@[simp] theorem Group.writeP_ownAt (g : Group) (mask : Mask) (n : Nat) (x : Mask) :
    (g.writeP mask n x).ownAt = g.ownAt := by
  delta Group.writeP; with_reducible rfl
@[simp] theorem Group.writeP_faultAt (g : Group) (mask : Mask) (n : Nat) (x : Mask) :
    (g.writeP mask n x).faultAt = g.faultAt := by
  delta Group.writeP; with_reducible rfl
@[simp] theorem Group.writeP_clean (g : Group) (mask : Mask) (n : Nat) (x : Mask) :
    (g.writeP mask n x).clean = g.clean := by
  delta Group.writeP; with_reducible rfl
@[simp] theorem Group.writeP_homed (g : Group) (mask : Mask) (n : Nat) (x : Mask) :
    (g.writeP mask n x).homed = g.homed := by
  delta Group.writeP; with_reducible rfl
@[simp] theorem Group.writeP_clause (g : Group) (mask : Mask) (n : Nat) (x : Mask) :
    (g.writeP mask n x).clause = g.clause := by
  delta Group.writeP; with_reducible rfl
@[simp] theorem Group.writeP_pair (g : Group) (mask : Mask) (n : Nat) (x : Mask) :
    (g.writeP mask n x).pair = g.pair := by
  delta Group.writeP; with_reducible rfl
@[simp] theorem Group.writeP_serve (g : Group) (mask : Mask) (n : Nat) (x : Mask) :
    (g.writeP mask n x).serve = g.serve := by
  delta Group.writeP; with_reducible rfl
@[simp] theorem Group.writeP_sched (g : Group) (mask : Mask) (n : Nat) (x : Mask) :
    (g.writeP mask n x).sched = g.sched := by
  delta Group.writeP; with_reducible rfl
@[simp] theorem Group.writeP_retired (g : Group) (mask : Mask) (n : Nat) (x : Mask) :
    (g.writeP mask n x).retired = g.retired := by
  delta Group.writeP; with_reducible rfl
@[simp] theorem Group.writeQ_gid (g : Group) (n : Nat) (x : Bool) :
    (g.writeQ n x).gid = g.gid := by
  delta Group.writeQ; with_reducible rfl
@[simp] theorem Group.writeQ_team (g : Group) (n : Nat) (x : Bool) :
    (g.writeQ n x).team = g.team := by
  delta Group.writeQ; with_reducible rfl
@[simp] theorem Group.writeQ_num (g : Group) (n : Nat) (x : Bool) :
    (g.writeQ n x).num = g.num := by
  delta Group.writeQ; with_reducible rfl
@[simp] theorem Group.writeQ_core (g : Group) (n : Nat) (x : Bool) :
    (g.writeQ n x).core = g.core := by
  delta Group.writeQ; with_reducible rfl
@[simp] theorem Group.writeQ_quarter (g : Group) (n : Nat) (x : Bool) :
    (g.writeQ n x).quarter = g.quarter := by
  delta Group.writeQ; with_reducible rfl
@[simp] theorem Group.writeQ_slot (g : Group) (n : Nat) (x : Bool) :
    (g.writeQ n x).slot = g.slot := by
  delta Group.writeQ; with_reducible rfl
@[simp] theorem Group.writeQ_placed (g : Group) (n : Nat) (x : Bool) :
    (g.writeQ n x).placed = g.placed := by
  delta Group.writeQ; with_reducible rfl
@[simp] theorem Group.writeQ_fbb (g : Group) (n : Nat) (x : Bool) :
    (g.writeQ n x).fbb = g.fbb := by
  delta Group.writeQ; with_reducible rfl
@[simp] theorem Group.writeQ_lanes (g : Group) (n : Nat) (x : Bool) :
    (g.writeQ n x).lanes = g.lanes := by
  delta Group.writeQ; with_reducible rfl
@[simp] theorem Group.writeQ_p (g : Group) (n : Nat) (x : Bool) :
    (g.writeQ n x).p = g.p := by
  delta Group.writeQ; with_reducible rfl
@[simp] theorem Group.writeQ_s (g : Group) (n : Nat) (x : Bool) :
    (g.writeQ n x).s = g.s := by
  delta Group.writeQ; with_reducible rfl
@[simp] theorem Group.writeQ_v (g : Group) (n : Nat) (x : Bool) :
    (g.writeQ n x).v = g.v := by
  delta Group.writeQ; with_reducible rfl
@[simp] theorem Group.writeQ_badRegs (g : Group) (n : Nat) (x : Bool) :
    (g.writeQ n x).badRegs = g.badRegs := by
  delta Group.writeQ; with_reducible rfl
@[simp] theorem Group.writeQ_links (g : Group) (n : Nat) (x : Bool) :
    (g.writeQ n x).links = g.links := by
  delta Group.writeQ; with_reducible rfl
@[simp] theorem Group.writeQ_k (g : Group) (n : Nat) (x : Bool) :
    (g.writeQ n x).k = g.k := by
  delta Group.writeQ; with_reducible rfl
@[simp] theorem Group.writeQ_f (g : Group) (n : Nat) (x : Bool) :
    (g.writeQ n x).f = g.f := by
  delta Group.writeQ; with_reducible rfl
@[simp] theorem Group.writeQ_m (g : Group) (n : Nat) (x : Bool) :
    (g.writeQ n x).m = g.m := by
  delta Group.writeQ; with_reducible rfl
@[simp] theorem Group.writeQ_satf (g : Group) (n : Nat) (x : Bool) :
    (g.writeQ n x).satf = g.satf := by
  delta Group.writeQ; with_reducible rfl
@[simp] theorem Group.writeQ_pix (g : Group) (n : Nat) (x : Bool) :
    (g.writeQ n x).pix = g.pix := by
  delta Group.writeQ; with_reducible rfl
@[simp] theorem Group.writeQ_traps (g : Group) (n : Nat) (x : Bool) :
    (g.writeQ n x).traps = g.traps := by
  delta Group.writeQ; with_reducible rfl
@[simp] theorem Group.writeQ_trapsOut (g : Group) (n : Nat) (x : Bool) :
    (g.writeQ n x).trapsOut = g.trapsOut := by
  delta Group.writeQ; with_reducible rfl
@[simp] theorem Group.writeQ_handling (g : Group) (n : Nat) (x : Bool) :
    (g.writeQ n x).handling = g.handling := by
  delta Group.writeQ; with_reducible rfl
@[simp] theorem Group.writeQ_regcnt (g : Group) (n : Nat) (x : Bool) :
    (g.writeQ n x).regcnt = g.regcnt := by
  delta Group.writeQ; with_reducible rfl
@[simp] theorem Group.writeQ_marks (g : Group) (n : Nat) (x : Bool) :
    (g.writeQ n x).marks = g.marks := by
  delta Group.writeQ; with_reducible rfl
@[simp] theorem Group.writeQ_sleep (g : Group) (n : Nat) (x : Bool) :
    (g.writeQ n x).sleep = g.sleep := by
  delta Group.writeQ; with_reducible rfl
@[simp] theorem Group.writeQ_frozen (g : Group) (n : Nat) (x : Bool) :
    (g.writeQ n x).frozen = g.frozen := by
  delta Group.writeQ; with_reducible rfl
@[simp] theorem Group.writeQ_faultWait (g : Group) (n : Nat) (x : Bool) :
    (g.writeQ n x).faultWait = g.faultWait := by
  delta Group.writeQ; with_reducible rfl
@[simp] theorem Group.writeQ_barWaits (g : Group) (n : Nat) (x : Bool) :
    (g.writeQ n x).barWaits = g.barWaits := by
  delta Group.writeQ; with_reducible rfl
@[simp] theorem Group.writeQ_arrived (g : Group) (n : Nat) (x : Bool) :
    (g.writeQ n x).arrived = g.arrived := by
  delta Group.writeQ; with_reducible rfl
@[simp] theorem Group.writeQ_arrivedC (g : Group) (n : Nat) (x : Bool) :
    (g.writeQ n x).arrivedC = g.arrivedC := by
  delta Group.writeQ; with_reducible rfl
@[simp] theorem Group.writeQ_deferred (g : Group) (n : Nat) (x : Bool) :
    (g.writeQ n x).deferred = g.deferred := by
  delta Group.writeQ; with_reducible rfl
@[simp] theorem Group.writeQ_handed (g : Group) (n : Nat) (x : Bool) :
    (g.writeQ n x).handed = g.handed := by
  delta Group.writeQ; with_reducible rfl
@[simp] theorem Group.writeQ_tx (g : Group) (n : Nat) (x : Bool) :
    (g.writeQ n x).tx = g.tx := by
  delta Group.writeQ; with_reducible rfl
@[simp] theorem Group.writeQ_fenced (g : Group) (n : Nat) (x : Bool) :
    (g.writeQ n x).fenced = g.fenced := by
  delta Group.writeQ; with_reducible rfl
@[simp] theorem Group.writeQ_ownWait (g : Group) (n : Nat) (x : Bool) :
    (g.writeQ n x).ownWait = g.ownWait := by
  delta Group.writeQ; with_reducible rfl
@[simp] theorem Group.writeQ_ownAt (g : Group) (n : Nat) (x : Bool) :
    (g.writeQ n x).ownAt = g.ownAt := by
  delta Group.writeQ; with_reducible rfl
@[simp] theorem Group.writeQ_faultAt (g : Group) (n : Nat) (x : Bool) :
    (g.writeQ n x).faultAt = g.faultAt := by
  delta Group.writeQ; with_reducible rfl
@[simp] theorem Group.writeQ_clean (g : Group) (n : Nat) (x : Bool) :
    (g.writeQ n x).clean = g.clean := by
  delta Group.writeQ; with_reducible rfl
@[simp] theorem Group.writeQ_homed (g : Group) (n : Nat) (x : Bool) :
    (g.writeQ n x).homed = g.homed := by
  delta Group.writeQ; with_reducible rfl
@[simp] theorem Group.writeQ_clause (g : Group) (n : Nat) (x : Bool) :
    (g.writeQ n x).clause = g.clause := by
  delta Group.writeQ; with_reducible rfl
@[simp] theorem Group.writeQ_pair (g : Group) (n : Nat) (x : Bool) :
    (g.writeQ n x).pair = g.pair := by
  delta Group.writeQ; with_reducible rfl
@[simp] theorem Group.writeQ_serve (g : Group) (n : Nat) (x : Bool) :
    (g.writeQ n x).serve = g.serve := by
  delta Group.writeQ; with_reducible rfl
@[simp] theorem Group.writeQ_sched (g : Group) (n : Nat) (x : Bool) :
    (g.writeQ n x).sched = g.sched := by
  delta Group.writeQ; with_reducible rfl
@[simp] theorem Group.writeQ_retired (g : Group) (n : Nat) (x : Bool) :
    (g.writeQ n x).retired = g.retired := by
  delta Group.writeQ; with_reducible rfl
@[simp] theorem Group.setLanes_gid (g : Group) (mask : Mask) (f : Nat → LanePC → LanePC) :
    (g.setLanes mask f).gid = g.gid := by
  delta Group.setLanes; with_reducible rfl
@[simp] theorem Group.setLanes_team (g : Group) (mask : Mask) (f : Nat → LanePC → LanePC) :
    (g.setLanes mask f).team = g.team := by
  delta Group.setLanes; with_reducible rfl
@[simp] theorem Group.setLanes_num (g : Group) (mask : Mask) (f : Nat → LanePC → LanePC) :
    (g.setLanes mask f).num = g.num := by
  delta Group.setLanes; with_reducible rfl
@[simp] theorem Group.setLanes_core (g : Group) (mask : Mask) (f : Nat → LanePC → LanePC) :
    (g.setLanes mask f).core = g.core := by
  delta Group.setLanes; with_reducible rfl
@[simp] theorem Group.setLanes_quarter (g : Group) (mask : Mask) (f : Nat → LanePC → LanePC) :
    (g.setLanes mask f).quarter = g.quarter := by
  delta Group.setLanes; with_reducible rfl
@[simp] theorem Group.setLanes_slot (g : Group) (mask : Mask) (f : Nat → LanePC → LanePC) :
    (g.setLanes mask f).slot = g.slot := by
  delta Group.setLanes; with_reducible rfl
@[simp] theorem Group.setLanes_placed (g : Group) (mask : Mask) (f : Nat → LanePC → LanePC) :
    (g.setLanes mask f).placed = g.placed := by
  delta Group.setLanes; with_reducible rfl
@[simp] theorem Group.setLanes_fbb (g : Group) (mask : Mask) (f : Nat → LanePC → LanePC) :
    (g.setLanes mask f).fbb = g.fbb := by
  delta Group.setLanes; with_reducible rfl
@[simp] theorem Group.setLanes_p (g : Group) (mask : Mask) (f : Nat → LanePC → LanePC) :
    (g.setLanes mask f).p = g.p := by
  delta Group.setLanes; with_reducible rfl
@[simp] theorem Group.setLanes_q (g : Group) (mask : Mask) (f : Nat → LanePC → LanePC) :
    (g.setLanes mask f).q = g.q := by
  delta Group.setLanes; with_reducible rfl
@[simp] theorem Group.setLanes_s (g : Group) (mask : Mask) (f : Nat → LanePC → LanePC) :
    (g.setLanes mask f).s = g.s := by
  delta Group.setLanes; with_reducible rfl
@[simp] theorem Group.setLanes_v (g : Group) (mask : Mask) (f : Nat → LanePC → LanePC) :
    (g.setLanes mask f).v = g.v := by
  delta Group.setLanes; with_reducible rfl
@[simp] theorem Group.setLanes_badRegs (g : Group) (mask : Mask) (f : Nat → LanePC → LanePC) :
    (g.setLanes mask f).badRegs = g.badRegs := by
  delta Group.setLanes; with_reducible rfl
@[simp] theorem Group.setLanes_links (g : Group) (mask : Mask) (f : Nat → LanePC → LanePC) :
    (g.setLanes mask f).links = g.links := by
  delta Group.setLanes; with_reducible rfl
@[simp] theorem Group.setLanes_k (g : Group) (mask : Mask) (f : Nat → LanePC → LanePC) :
    (g.setLanes mask f).k = g.k := by
  delta Group.setLanes; with_reducible rfl
@[simp] theorem Group.setLanes_f (g : Group) (mask : Mask) (f : Nat → LanePC → LanePC) :
    (g.setLanes mask f).f = g.f := by
  delta Group.setLanes; with_reducible rfl
@[simp] theorem Group.setLanes_m (g : Group) (mask : Mask) (f : Nat → LanePC → LanePC) :
    (g.setLanes mask f).m = g.m := by
  delta Group.setLanes; with_reducible rfl
@[simp] theorem Group.setLanes_satf (g : Group) (mask : Mask) (f : Nat → LanePC → LanePC) :
    (g.setLanes mask f).satf = g.satf := by
  delta Group.setLanes; with_reducible rfl
@[simp] theorem Group.setLanes_pix (g : Group) (mask : Mask) (f : Nat → LanePC → LanePC) :
    (g.setLanes mask f).pix = g.pix := by
  delta Group.setLanes; with_reducible rfl
@[simp] theorem Group.setLanes_traps (g : Group) (mask : Mask) (f : Nat → LanePC → LanePC) :
    (g.setLanes mask f).traps = g.traps := by
  delta Group.setLanes; with_reducible rfl
@[simp] theorem Group.setLanes_trapsOut (g : Group) (mask : Mask) (f : Nat → LanePC → LanePC) :
    (g.setLanes mask f).trapsOut = g.trapsOut := by
  delta Group.setLanes; with_reducible rfl
@[simp] theorem Group.setLanes_handling (g : Group) (mask : Mask) (f : Nat → LanePC → LanePC) :
    (g.setLanes mask f).handling = g.handling := by
  delta Group.setLanes; with_reducible rfl
@[simp] theorem Group.setLanes_regcnt (g : Group) (mask : Mask) (f : Nat → LanePC → LanePC) :
    (g.setLanes mask f).regcnt = g.regcnt := by
  delta Group.setLanes; with_reducible rfl
@[simp] theorem Group.setLanes_marks (g : Group) (mask : Mask) (f : Nat → LanePC → LanePC) :
    (g.setLanes mask f).marks = g.marks := by
  delta Group.setLanes; with_reducible rfl
@[simp] theorem Group.setLanes_sleep (g : Group) (mask : Mask) (f : Nat → LanePC → LanePC) :
    (g.setLanes mask f).sleep = g.sleep := by
  delta Group.setLanes; with_reducible rfl
@[simp] theorem Group.setLanes_frozen (g : Group) (mask : Mask) (f : Nat → LanePC → LanePC) :
    (g.setLanes mask f).frozen = g.frozen := by
  delta Group.setLanes; with_reducible rfl
@[simp] theorem Group.setLanes_faultWait (g : Group) (mask : Mask) (f : Nat → LanePC → LanePC) :
    (g.setLanes mask f).faultWait = g.faultWait := by
  delta Group.setLanes; with_reducible rfl
@[simp] theorem Group.setLanes_barWaits (g : Group) (mask : Mask) (f : Nat → LanePC → LanePC) :
    (g.setLanes mask f).barWaits = g.barWaits := by
  delta Group.setLanes; with_reducible rfl
@[simp] theorem Group.setLanes_arrived (g : Group) (mask : Mask) (f : Nat → LanePC → LanePC) :
    (g.setLanes mask f).arrived = g.arrived := by
  delta Group.setLanes; with_reducible rfl
@[simp] theorem Group.setLanes_arrivedC (g : Group) (mask : Mask) (f : Nat → LanePC → LanePC) :
    (g.setLanes mask f).arrivedC = g.arrivedC := by
  delta Group.setLanes; with_reducible rfl
@[simp] theorem Group.setLanes_deferred (g : Group) (mask : Mask) (f : Nat → LanePC → LanePC) :
    (g.setLanes mask f).deferred = g.deferred := by
  delta Group.setLanes; with_reducible rfl
@[simp] theorem Group.setLanes_handed (g : Group) (mask : Mask) (f : Nat → LanePC → LanePC) :
    (g.setLanes mask f).handed = g.handed := by
  delta Group.setLanes; with_reducible rfl
@[simp] theorem Group.setLanes_tx (g : Group) (mask : Mask) (f : Nat → LanePC → LanePC) :
    (g.setLanes mask f).tx = g.tx := by
  delta Group.setLanes; with_reducible rfl
@[simp] theorem Group.setLanes_fenced (g : Group) (mask : Mask) (f : Nat → LanePC → LanePC) :
    (g.setLanes mask f).fenced = g.fenced := by
  delta Group.setLanes; with_reducible rfl
@[simp] theorem Group.setLanes_ownWait (g : Group) (mask : Mask) (f : Nat → LanePC → LanePC) :
    (g.setLanes mask f).ownWait = g.ownWait := by
  delta Group.setLanes; with_reducible rfl
@[simp] theorem Group.setLanes_ownAt (g : Group) (mask : Mask) (f : Nat → LanePC → LanePC) :
    (g.setLanes mask f).ownAt = g.ownAt := by
  delta Group.setLanes; with_reducible rfl
@[simp] theorem Group.setLanes_faultAt (g : Group) (mask : Mask) (f : Nat → LanePC → LanePC) :
    (g.setLanes mask f).faultAt = g.faultAt := by
  delta Group.setLanes; with_reducible rfl
@[simp] theorem Group.setLanes_clean (g : Group) (mask : Mask) (f : Nat → LanePC → LanePC) :
    (g.setLanes mask f).clean = g.clean := by
  delta Group.setLanes; with_reducible rfl
@[simp] theorem Group.setLanes_homed (g : Group) (mask : Mask) (f : Nat → LanePC → LanePC) :
    (g.setLanes mask f).homed = g.homed := by
  delta Group.setLanes; with_reducible rfl
@[simp] theorem Group.setLanes_clause (g : Group) (mask : Mask) (f : Nat → LanePC → LanePC) :
    (g.setLanes mask f).clause = g.clause := by
  delta Group.setLanes; with_reducible rfl
@[simp] theorem Group.setLanes_pair (g : Group) (mask : Mask) (f : Nat → LanePC → LanePC) :
    (g.setLanes mask f).pair = g.pair := by
  delta Group.setLanes; with_reducible rfl
@[simp] theorem Group.setLanes_serve (g : Group) (mask : Mask) (f : Nat → LanePC → LanePC) :
    (g.setLanes mask f).serve = g.serve := by
  delta Group.setLanes; with_reducible rfl
@[simp] theorem Group.setLanes_sched (g : Group) (mask : Mask) (f : Nat → LanePC → LanePC) :
    (g.setLanes mask f).sched = g.sched := by
  delta Group.setLanes; with_reducible rfl
@[simp] theorem Group.setLanes_retired (g : Group) (mask : Mask) (f : Nat → LanePC → LanePC) :
    (g.setLanes mask f).retired = g.retired := by
  delta Group.setLanes; with_reducible rfl
@[simp] theorem Group.doom_gid (g : Group) (mask : Mask) (cause : TxCause) :
    (g.doom mask cause).gid = g.gid := by
  delta Group.doom; with_reducible rfl
@[simp] theorem Group.doom_team (g : Group) (mask : Mask) (cause : TxCause) :
    (g.doom mask cause).team = g.team := by
  delta Group.doom; with_reducible rfl
@[simp] theorem Group.doom_num (g : Group) (mask : Mask) (cause : TxCause) :
    (g.doom mask cause).num = g.num := by
  delta Group.doom; with_reducible rfl
@[simp] theorem Group.doom_core (g : Group) (mask : Mask) (cause : TxCause) :
    (g.doom mask cause).core = g.core := by
  delta Group.doom; with_reducible rfl
@[simp] theorem Group.doom_quarter (g : Group) (mask : Mask) (cause : TxCause) :
    (g.doom mask cause).quarter = g.quarter := by
  delta Group.doom; with_reducible rfl
@[simp] theorem Group.doom_slot (g : Group) (mask : Mask) (cause : TxCause) :
    (g.doom mask cause).slot = g.slot := by
  delta Group.doom; with_reducible rfl
@[simp] theorem Group.doom_placed (g : Group) (mask : Mask) (cause : TxCause) :
    (g.doom mask cause).placed = g.placed := by
  delta Group.doom; with_reducible rfl
@[simp] theorem Group.doom_fbb (g : Group) (mask : Mask) (cause : TxCause) :
    (g.doom mask cause).fbb = g.fbb := by
  delta Group.doom; with_reducible rfl
@[simp] theorem Group.doom_lanes (g : Group) (mask : Mask) (cause : TxCause) :
    (g.doom mask cause).lanes = g.lanes := by
  delta Group.doom; with_reducible rfl
@[simp] theorem Group.doom_p (g : Group) (mask : Mask) (cause : TxCause) :
    (g.doom mask cause).p = g.p := by
  delta Group.doom; with_reducible rfl
@[simp] theorem Group.doom_q (g : Group) (mask : Mask) (cause : TxCause) :
    (g.doom mask cause).q = g.q := by
  delta Group.doom; with_reducible rfl
@[simp] theorem Group.doom_s (g : Group) (mask : Mask) (cause : TxCause) :
    (g.doom mask cause).s = g.s := by
  delta Group.doom; with_reducible rfl
@[simp] theorem Group.doom_v (g : Group) (mask : Mask) (cause : TxCause) :
    (g.doom mask cause).v = g.v := by
  delta Group.doom; with_reducible rfl
@[simp] theorem Group.doom_badRegs (g : Group) (mask : Mask) (cause : TxCause) :
    (g.doom mask cause).badRegs = g.badRegs := by
  delta Group.doom; with_reducible rfl
@[simp] theorem Group.doom_links (g : Group) (mask : Mask) (cause : TxCause) :
    (g.doom mask cause).links = g.links := by
  delta Group.doom; with_reducible rfl
@[simp] theorem Group.doom_k (g : Group) (mask : Mask) (cause : TxCause) :
    (g.doom mask cause).k = g.k := by
  delta Group.doom; with_reducible rfl
@[simp] theorem Group.doom_f (g : Group) (mask : Mask) (cause : TxCause) :
    (g.doom mask cause).f = g.f := by
  delta Group.doom; with_reducible rfl
@[simp] theorem Group.doom_m (g : Group) (mask : Mask) (cause : TxCause) :
    (g.doom mask cause).m = g.m := by
  delta Group.doom; with_reducible rfl
@[simp] theorem Group.doom_satf (g : Group) (mask : Mask) (cause : TxCause) :
    (g.doom mask cause).satf = g.satf := by
  delta Group.doom; with_reducible rfl
@[simp] theorem Group.doom_pix (g : Group) (mask : Mask) (cause : TxCause) :
    (g.doom mask cause).pix = g.pix := by
  delta Group.doom; with_reducible rfl
@[simp] theorem Group.doom_traps (g : Group) (mask : Mask) (cause : TxCause) :
    (g.doom mask cause).traps = g.traps := by
  delta Group.doom; with_reducible rfl
@[simp] theorem Group.doom_trapsOut (g : Group) (mask : Mask) (cause : TxCause) :
    (g.doom mask cause).trapsOut = g.trapsOut := by
  delta Group.doom; with_reducible rfl
@[simp] theorem Group.doom_handling (g : Group) (mask : Mask) (cause : TxCause) :
    (g.doom mask cause).handling = g.handling := by
  delta Group.doom; with_reducible rfl
@[simp] theorem Group.doom_regcnt (g : Group) (mask : Mask) (cause : TxCause) :
    (g.doom mask cause).regcnt = g.regcnt := by
  delta Group.doom; with_reducible rfl
@[simp] theorem Group.doom_marks (g : Group) (mask : Mask) (cause : TxCause) :
    (g.doom mask cause).marks = g.marks := by
  delta Group.doom; with_reducible rfl
@[simp] theorem Group.doom_sleep (g : Group) (mask : Mask) (cause : TxCause) :
    (g.doom mask cause).sleep = g.sleep := by
  delta Group.doom; with_reducible rfl
@[simp] theorem Group.doom_frozen (g : Group) (mask : Mask) (cause : TxCause) :
    (g.doom mask cause).frozen = g.frozen := by
  delta Group.doom; with_reducible rfl
@[simp] theorem Group.doom_faultWait (g : Group) (mask : Mask) (cause : TxCause) :
    (g.doom mask cause).faultWait = g.faultWait := by
  delta Group.doom; with_reducible rfl
@[simp] theorem Group.doom_barWaits (g : Group) (mask : Mask) (cause : TxCause) :
    (g.doom mask cause).barWaits = g.barWaits := by
  delta Group.doom; with_reducible rfl
@[simp] theorem Group.doom_arrived (g : Group) (mask : Mask) (cause : TxCause) :
    (g.doom mask cause).arrived = g.arrived := by
  delta Group.doom; with_reducible rfl
@[simp] theorem Group.doom_arrivedC (g : Group) (mask : Mask) (cause : TxCause) :
    (g.doom mask cause).arrivedC = g.arrivedC := by
  delta Group.doom; with_reducible rfl
@[simp] theorem Group.doom_deferred (g : Group) (mask : Mask) (cause : TxCause) :
    (g.doom mask cause).deferred = g.deferred := by
  delta Group.doom; with_reducible rfl
@[simp] theorem Group.doom_handed (g : Group) (mask : Mask) (cause : TxCause) :
    (g.doom mask cause).handed = g.handed := by
  delta Group.doom; with_reducible rfl
@[simp] theorem Group.doom_fenced (g : Group) (mask : Mask) (cause : TxCause) :
    (g.doom mask cause).fenced = g.fenced := by
  delta Group.doom; with_reducible rfl
@[simp] theorem Group.doom_ownWait (g : Group) (mask : Mask) (cause : TxCause) :
    (g.doom mask cause).ownWait = g.ownWait := by
  delta Group.doom; with_reducible rfl
@[simp] theorem Group.doom_ownAt (g : Group) (mask : Mask) (cause : TxCause) :
    (g.doom mask cause).ownAt = g.ownAt := by
  delta Group.doom; with_reducible rfl
@[simp] theorem Group.doom_faultAt (g : Group) (mask : Mask) (cause : TxCause) :
    (g.doom mask cause).faultAt = g.faultAt := by
  delta Group.doom; with_reducible rfl
@[simp] theorem Group.doom_clean (g : Group) (mask : Mask) (cause : TxCause) :
    (g.doom mask cause).clean = g.clean := by
  delta Group.doom; with_reducible rfl
@[simp] theorem Group.doom_homed (g : Group) (mask : Mask) (cause : TxCause) :
    (g.doom mask cause).homed = g.homed := by
  delta Group.doom; with_reducible rfl
@[simp] theorem Group.doom_clause (g : Group) (mask : Mask) (cause : TxCause) :
    (g.doom mask cause).clause = g.clause := by
  delta Group.doom; with_reducible rfl
@[simp] theorem Group.doom_pair (g : Group) (mask : Mask) (cause : TxCause) :
    (g.doom mask cause).pair = g.pair := by
  delta Group.doom; with_reducible rfl
@[simp] theorem Group.doom_serve (g : Group) (mask : Mask) (cause : TxCause) :
    (g.doom mask cause).serve = g.serve := by
  delta Group.doom; with_reducible rfl
@[simp] theorem Group.doom_sched (g : Group) (mask : Mask) (cause : TxCause) :
    (g.doom mask cause).sched = g.sched := by
  delta Group.doom; with_reducible rfl
@[simp] theorem Group.doom_retired (g : Group) (mask : Mask) (cause : TxCause) :
    (g.doom mask cause).retired = g.retired := by
  delta Group.doom; with_reducible rfl
@[simp] theorem Store.set_poison (s : Store) (a : Nat) (b : Byte) :
    (s.set a b).poison = s.poison := by
  delta Store.set; with_reducible rfl

end Sys2Proof.Machine
end

