-- ==== Sys2Proof/Tests/Slice0.lean ====
section
/-!
SUPPORT. Tests. First the decoder and the checks of WellFormed on words and fields written out from the spec, then
single words on small states with results worked out from the rules, then for every statement with hypotheses a state
and operands that meet them all. Where a statement asks that a check leaves the machine as it is, the witness shows
that the check passes: Laws.Checks proves the rest.
-/
namespace Sys2Proof.Tests
open Sys2Proof Sys2Proof.Machine

set_option Elab.async false
set_option maxRecDepth 10000

/-! ## States to test on -/

/-- The fields of a G word under the guard that is always true. -/
def wg (d a b c mod : Nat) : WordG :=
  { grd := 15, sns := false, d := BitVec.ofNat 8 d, a := BitVec.ofNat 8 a, b := BitVec.ofNat 8 b, c := BitVec.ofNat 8 c,
    lra := false, lrb := false, lrc := false, fsel := false, co := false, mod := BitVec.ofNat 12 mod }

/-- The fields of an I word under the guard that is always true. -/
def wi (d a imm mod : Nat) : WordI :=
  { grd := 15, sns := false, d := BitVec.ofNat 8 d, a := BitVec.ofNat 8 a, imm := BitVec.ofNat 16 imm, lra := false,
    res := 0, fsel := false, co := false, mod := BitVec.ofNat 12 mod }

/-- The fields of a J word under the guard that is always true. -/
def wj (d : Nat) (off : Int) (jmod : Nat) : WordJ :=
  { grd := 15, sns := false, d := BitVec.ofNat 8 d, off := BitVec.ofInt 32 off, jmod := BitVec.ofNat 9 jmod }

/-- The machine after reset with one running group, named 1, of 32 lanes, whose next word is `i` at offset 8 and whose
turn it is; the group is changed by `f`, the state by `h`. -/
def at1 (i : Instr) (f : Group → Group := id) (h : State → State := id) : State :=
  let s := (placeWord State.reset ((encode i).getD 0)).turn 1
  h { s with mach := { s.mach.modGroup 1 f with script := [] } }

/-- The same without a word: the state in which a step of the device is looked at. -/
def plain (f : Group → Group := id) (h : State → State := id) : State := at1 (.nop (wg 0 0 0 0 0)) f h

/-- V register `n` with one value in every lane. -/
def setV (n x : Nat) (g : Group) : Group := g.writeV 0 (BitVec.allOnes 32) n (fun _ => x)

/-- V register `n` with a value lane by lane. -/
def setLanesV (n : Nat) (f : Nat → Nat) (g : Group) : Group := g.writeV 0 (BitVec.allOnes 32) n f

/-- S register `n`. -/
def setS (n x : Nat) (g : Group) : Group := g.writeS n (BitVec.ofNat 64 x)

/-- A page of 1 GiB from address 0 on, read, written and fetched, at 1 GiB in HBM: an entry of level 3 at 0 and its
leaf of level 2 at 4096 (R211, R212). -/
def mapped (s : State) : State :=
  let mem := s.mach.mem.writeNat ⟨.hbm, 0⟩ 8 0x1001
  let mem := mem.writeNat ⟨.hbm, 0x1000⟩ 8 0x4000000F
  { s with mach := { s.mach with mem := mem } }

/-- A clause header in the clause cache of core 0. -/
def cachedHeader (va : Nat) (s : State) : State :=
  { s with mach := { s.mach with cache := { core := 0, va := va, words := [0xD100000000000000#64, 0] } :: s.mach.cache } }

/-- What a run that succeeds satisfies. -/
def okWith {α : Type} (r : EStateM.Result Stop Mach α) (q : α → Mach → Bool) : Bool :=
  match r with
  | .ok x m => q x m
  | .error _ _ => false

theorem okWith_iff {α : Type} {r : EStateM.Result Stop Mach α} {q : α → Mach → Bool} (h : okWith r q = true) :
    ∃ x m, r = .ok x m ∧ q x m = true := by
  cases r with
  | ok x m => exact ⟨x, m, rfl, h⟩
  | error e m => exact absurd h (by simp [okWith])

/-- What the start of a word satisfies. -/
def startWith (i : Instr) (s : State) (q : Start → Bool) : Bool :=
  match beginWord i s with
  | .go b => q b
  | _ => false

theorem starts_of {i : Instr} {s : State} {q : Start → Bool} (h : startWith i s q = true) :
    ∃ b, Starts i s b ∧ q b = true := by
  unfold startWith at h
  split at h
  · exact ⟨_, ‹_›, h⟩
  · exact absurd h (by simp)

/-- What the group of the name 1 satisfies after a step that goes on. -/
def then1 (r : Host.Outcome State Fault Refusal) (q : State → Group → Bool) : Bool :=
  match r with
  | .next t =>
    match t.mach.group? 1 with
    | some g => q t g
    | none => false
  | _ => false

/-- What a step that goes on leaves. -/
def thenIs (r : Host.Outcome State Fault Refusal) (q : State → Bool) : Bool :=
  match r with
  | .next t => q t
  | _ => false

/-- Lane `l` of the V register at a place of the register home. -/
def laneOf (g : Group) (home l : Nat) : Option Slice := (g.vStored home).map (fun x => vget x l 0)

theorem starts {i : Instr} {s : State} (h : startWith i s (fun _ => true) = true) : ∃ b, Starts i s b :=
  (starts_of h).imp (fun _ h => h.1)

theorem starts_and {i : Instr} {s : State} {p : Start → Prop} [DecidablePred p]
    (h : startWith i s (fun b => decide (p b)) = true) : ∃ b, Starts i s b ∧ p b :=
  (starts_of h).imp (fun _ h => ⟨h.1, of_decide_eq_true h.2⟩)

theorem starts_with {i : Instr} {s : State} {p : Prop} (h : startWith i s (fun _ => true) = true) (hp : p) :
    ∃ b, Starts i s b ∧ p := (starts_of h).imp (fun _ h => ⟨h.1, hp⟩)

/-- What the word at issue satisfies (its group, run, place and clause). -/
def issuing (s : State) (q : Group → Mask → LanePC → Clause → Bool) : Bool :=
  match wordAtIssue s with
  | some (g, run, p, cl) => q g run p cl
  | none => false

theorem issuing_iff {s : State} {q : Group → Mask → LanePC → Clause → Prop} [∀ g r p c, Decidable (q g r p c)]
    (h : issuing s (fun g r p c => decide (q g r p c)) = true) : ∃ g r p c, wordAtIssue s = some (g, r, p, c) ∧ q g r p c := by
  unfold issuing at h
  split at h
  · exact ⟨_, _, _, _, ‹_›, of_decide_eq_true h⟩
  · exact absurd h (by simp)

/-! ## The decoder (R54, R59, R63, R69) -/

/-- What the decoder accepts. -/
def dec (x : Word) : Option Instr := (decode x).toOption

-- the words that the spec prints, and one of each other family put together from its fields: opcode, guard, sense, then
-- the format's fields
theorem test_decode_header : dec 0xD180000000000001#64 = none ∧
    dec (0b1101#4 ++ 2#4 ++ 4#3 ++ 0x801#12 ++ 1#1 ++ 11#4 ++ 0#1 ++ 0#4 ++ 1#1 ++ 0#1 ++ 1#1 ++ 0#28) =
      some (.clauseHeaderIssue { cnt := 2, ecls := 4, wait := 0x801, fav := true, fa := 11, fbv := false, fb := 0, reg := true,
                                 y := false, swp := true, res := 0 }) := by decide +kernel
theorem test_decode_control : dec 0x013C080000003E07#64 = some (.call (wj 4 31 7)) ∧
    dec 0x023C000000000000#64 = some (.exit (wg 0 0 0 0 0)) ∧
    dec (0x00C#10 ++ 15#4 ++ 0#1 ++ 0#8 ++ 0#8 ++ 0xBEEF#16 ++ 0#5 ++ 0#12) = some (.bkpt (wi 0 0 0xBEEF 0)) := by
  decide +kernel
theorem test_decode_uniform : dec (0x083#10 ++ 12#4 ++ 1#1 ++ 199#8 ++ 193#8 ++ 194#8 ++ 0#8 ++ 0#5 ++ 0x007#12) =
    some (.smulh { wg 199 193 194 0 7 with grd := 12, sns := true }) ∧
    dec (0x0CF#10 ++ 15#4 ++ 0#1 ++ 197#8 ++ 0x123456789#41) = none := by decide +kernel
theorem test_decode_vector : dec (0x14F#10 ++ 15#4 ++ 0#1 ++ 5#8 ++ 4#8 ++ 2#16 ++ 0#5 ++ 0x101#12) =
    some (.vshrrI (wi 5 4 2 0x101)) ∧ dec (0x118#10 ++ 15#4 ++ 0#1 ++ 20#8 ++ 3#8 ++ 201#8 ++ 20#8 ++ 0#5 ++ 0x102#12) =
    some (.vdot2 (wg 20 3 201 20 0x102)) := by decide +kernel
theorem test_decode_convert : dec (0x198#10 ++ 15#4 ++ 0#1 ++ 6#8 ++ 2#8 ++ 0#8 ++ 0x0C#8 ++ 0#5 ++ 0x12D#12) =
    some (.cvt (wg 6 2 0 0x0C 0x12D)) := by decide +kernel
theorem test_decode_memory : dec 0xA03C09940406081A#64 = some (.ld (wg 4 202 2 3 0x81A)) ∧
    dec 0xA43C0C0408120A60#64 = some (.atom (wg 6 2 4 9 0xA60)) ∧
    dec 0xA44400040C120010#64 = some (.red { wg 0 2 6 9 0x010 with grd := 1 }) ∧
    dec 0xA1FC01838C000800#64 = some (.tierh (wg 0 193 198 0 0x800)) := by decide +kernel
theorem test_decode_matrix : dec 0xC07C040206280D34#64 = some (.mma (wg 2 1 3 20 0xD34)) := by decide +kernel
theorem test_decode_stream : dec 0xC53C100003980000#64 = some (.sunion (wg 8 0 1 204 0)) := by decide +kernel
theorem test_decode_cellar : dec 0xE17C1FA018220017#64 = some (.hgf (wg 15 208 12 17 0x017)) := by decide +kernel
theorem test_decode_unassigned : decodeFields (0x013#10 ++ 15#4 ++ 0#50) = none ∧
    decodeFields (0x0FF#10 ++ 15#4 ++ 0#50) = none ∧ isHeader (0x340#10 ++ 15#4 ++ 0#50) = true := by
  decide +kernel

/-! ## What WellFormed refuses (R55, R60 to R67) -/

/-- A legal clause header. -/
def goodHeader : Header :=
  { cnt := 0, ecls := 0, wait := 0, fav := true, fa := 11, fbv := false, fb := 0, reg := false, y := false, swp := false,
    res := 0 }

theorem test_header_ok : wellFormedB (.clauseHeaderIssue goodHeader) = true := by decide +kernel
theorem test_header_class : wellFormedB (.clauseHeaderIssue { goodHeader with ecls := 7 }) = false := by decide +kernel
theorem test_header_reserved : wellFormedB (.clauseHeaderIssue { goodHeader with res := 1 }) = false := by decide +kernel
theorem test_header_flag_range : wellFormedB (.clauseHeaderIssue { goodHeader with fa := 12 }) = false := by decide +kernel
theorem test_header_flag_valid : wellFormedB (.clauseHeaderIssue { goodHeader with fb := 1 }) = false := by decide +kernel
theorem test_guard_sense : wellFormedB (.vadd { wg 0 1 2 0 6 with sns := true }) = false := by decide +kernel
theorem test_guard_uniform : wellFormedB (.sadd { wg 192 193 194 0 7 with grd := 11 }) = false ∧
    wellFormedB (.sadd { wg 192 193 194 0 7 with grd := 12 }) = true := by decide +kernel
theorem test_kind_of_operand : wellFormedB (.sadd (wg 191 193 194 0 7)) = false := by decide +kernel
theorem test_unused_field : wellFormedB (.vadd (wg 0 1 2 1 6)) = false := by decide +kernel
theorem test_last_read_of_s : wellFormedB (.vadd { wg 0 1 200 0 6 with lrb := true }) = false ∧
    wellFormedB (.vadd { wg 0 1 2 0 6 with lrb := true }) = true := by decide +kernel
theorem test_flag_select : wellFormedB (.vadd { wg 0 1 2 0 6 with fsel := true }) = false ∧
    wellFormedB (.ld { wg 4 202 2 3 0x81A with fsel := true }) = true := by decide +kernel
theorem test_co_issue : wellFormedB (.vadd { wg 0 1 2 0 6 with co := true }) = false ∧
    wellFormedB (.sadd { wg 192 193 194 0 7 with co := true }) = true := by decide +kernel
theorem test_reserved_type : wellFormedB (.vadd (wg 0 1 2 0 0x11)) = false := by decide +kernel
theorem test_reserved_modifier : wellFormedB (.vadd (wg 0 1 2 0 0x46)) = false := by decide +kernel
theorem test_immediate_reserved : wellFormedB (.vaddI { wi 0 1 2 6 with res := 1 }) = false := by decide +kernel
theorem test_resource_range : wellFormedB (.bar (wg 0 193 0 0 15)) = true ∧ wellFormedB (.bar (wg 0 193 0 0 16)) = false := by
  decide +kernel
theorem test_pair_at_the_end : wellFormedB (.shfl (wg 190 2 4 6 11)) = true ∧ wellFormedB (.shfl (wg 191 2 4 6 11)) = false := by
  decide +kernel

/-! ## Single words, with the results that the spec works out -/

/-- Only the lanes of a mask are live. -/
def liveOnly (mask : Nat) (g : Group) : Group :=
  g.setLanes (BitVec.allOnes 32) (fun l p => { p with live := mask.testBit l })

-- R193's worked shifts (08_isa_vector.md): 10, −10 and 131,072 shifted right by 2 under each rounding
theorem test_vshrr_rounds :
    [0, 1, 2, 3, 4].map (fun r => then1 (exec (.vshrrI (wi 5 4 2 (0x102 + 512 * r)))
      (at1 (.vshrrI (wi 5 4 2 (0x102 + 512 * r))) (setLanesV 4 (fun l => if l = 0 then 10 else 2 ^ 32 - 10))))
      (fun _ g => laneOf g 5 0 == some (BitVec.ofNat 32 ([2, 2, 3, 2, 3].getD r 0)) &&
        laneOf g 5 31 == some (BitVec.ofInt 32 ([-2, -2, -2, -3, -3].getD r 0)))) = List.replicate 5 true := by
  decide +kernel
theorem test_vshrr_saturates :
    then1 (exec (.vshrrI (wi 5 4 2 0x101)) (at1 (.vshrrI (wi 5 4 2 0x101)) (setV 4 131072)))
      (fun _ g => laneOf g 5 9 == some 0x7FFF && g.satf) = true ∧
    then1 (exec (.vshrrI (wi 5 4 2 0x001)) (at1 (.vshrrI (wi 5 4 2 0x001)) (setV 4 131072)))
      (fun _ g => laneOf g 5 9 == some 0xFFFF8000#32 && !g.satf) = true := by decide +kernel
-- R197's worked conversions to binary8
theorem test_cvt_binary8 :
    then1 (exec (.cvt (wg 6 2 0 0x0C 0x12D)) (at1 (.cvt (wg 6 2 0 0x0C 0x12D)) (setLanesV 2 (fun l =>
      [0x41980000, 0x43960000, 0x7F800000, 0xFFC00000, 0x80000000].getD l 0))))
      (fun _ g => (List.range 5).map (laneOf g 6) ==
        [some 0x62, some 0x7F, some 0x7F, some 0x80, some 0x00]) = true := by decide +kernel
-- R199's slide in a diverged group
theorem test_slide_diverged :
    then1 (exec (.slide (wg 3 2 193 9 74)) (at1 (.slide (wg 3 2 193 9 74)) (fun g =>
      (setS 1 2 (setV 9 0 (setLanesV 2 (100 + ·) g))).setLanes 0xFFFF0000#32 (fun _ p => { p with hdr := 4096, idx := 0 }))))
      (fun _ g => (List.range 16).map (laneOf g 3) ==
        (List.range 16).map (fun l => some (BitVec.ofNat 32 (if l < 14 then 102 + l else 0)))) = true := by decide +kernel
-- R201, R202: one rounding per lane
theorem test_vscan_rounds_once :
    then1 (exec (.vscan (wg 4 3 0 0 0x0C)) (at1 (.vscan (wg 4 3 0 0 0x0C)) (fun g => liveOnly 15 (setLanesV 3 (fun l =>
      [0x4B800000, 0x3F800000, 0x3F800000, 0xCB800000].getD l 0) g))))
      (fun _ g => (List.range 4).map (laneOf g 4) ==
        [some 0x4B800000#32, some 0x4B800000#32, some 0x4B800001#32, some 0x40000000#32]) = true := by decide +kernel
theorem test_vred_rounds_once :
    then1 (exec (.vred (wg 200 3 0 0 0x0C)) (at1 (.vred (wg 200 3 0 0 0x0C)) (fun g => liveOnly 15 (setLanesV 3 (fun l =>
      [0x4B800000, 0x3F800000, 0x3F800000, 0xCB800000].getD l 0) g))))
      (fun _ g => g.sReg 8 == 0x40000000#64) = true := by decide +kernel
-- R203: conflicts in one run
theorem test_vconflict :
    then1 (exec (.vconflict (wg 6 2 0 0 10)) (at1 (.vconflict (wg 6 2 0 0 10)) (fun g => liveOnly 31 (setLanesV 2 (fun l =>
      [7, 3, 7, 9, 7, 7].getD l 0) g))))
      (fun _ g => (List.range 5).map (laneOf g 6) == [some 0, some 0, some 1, some 0, some 5]) = true := by decide +kernel
-- R135: a clamp that the exact sum would not need
theorem test_vdot2_clamps_stepwise :
    let start (m : Nat) : State := at1 (.vdot2 (wg 20 3 4 20 m)) (fun g =>
      setV 20 0x7FFFFF9C (setV 3 ((2 ^ 16 - 300) * 65536 + 200) (setV 4 0x00010001 g)))
    then1 (exec (.vdot2 (wg 20 3 4 20 0x102)) (start 0x102))
      (fun _ g => laneOf g 20 0 == some 0x7FFFFED3#32 && g.satf) = true ∧
    then1 (exec (.vdot2 (wg 20 3 4 20 0x002)) (start 0x002))
      (fun _ g => laneOf g 20 0 == some 0x7FFFFF38#32 && !g.satf) = true := by decide +kernel
-- R132, R186: 127 at most
theorem test_vadd_saturates_bytes :
    then1 (exec (.vadd (wg 0 1 2 0 0x100)) (at1 (.vadd (wg 0 1 2 0 0x100)) (fun g => setV 1 100 (setV 2 100 g))))
      (fun _ g => laneOf g 0 17 == some 127 && g.satf) = true := by decide +kernel
-- R167, R168: a uniform counter
theorem test_sadd_counts :
    then1 (exec (.saddI (wi 196 196 1 3)) (at1 (.saddI (wi 196 196 1 3)) (setS 4 (2 ^ 64 - 1))))
      (fun _ g => g.sReg 4 == 0 && (g.lane 0).idx == 0 && (g.lane 0).hdr == 16) = true := by decide +kernel
theorem test_scmp_less :
    then1 (exec (.scmpI (wi 1 196 3 0x403)) (at1 (.scmpI (wi 1 196 3 0x403)) (setS 4 (2 ^ 64 - 1))))
      (fun _ g => g.qReg 1 && g.sReg 4 == 0xFFFFFFFFFFFFFFFF#64) = true := by decide +kernel
-- R171: the check of SADDR at its boundary
theorem test_saddr_check :
    [2 ^ 56 - 8, 2 ^ 56 - 7, 2 ^ 64 - 7].map (fun x => then1 (exec (.saddr (wg 196 194 195 197 (3 * 64 + 7)))
      (at1 (.saddr (wg 196 194 195 197 (3 * 64 + 7))) (fun g => setS 2 x (setS 3 0 (setS 5 7 g)))))
      (fun _ g => g.qReg 3)) = [false, true, true] := by decide +kernel
-- R133: the special operands of the reciprocal
theorem test_frcp :
    then1 (exec (.frcp (wg 1 2 0 0 0x0C)) (at1 (.frcp (wg 1 2 0 0 0x0C)) (setLanesV 2 (fun l =>
      [0x40800000, 0x80000000, 0x40400000].getD l 0))))
      (fun _ g => (List.range 3).map (laneOf g 1) == [some 0x3E800000#32, some 0xFF800000#32, some 0x3EAAAAAB#32]) = true := by
  decide +kernel
-- R209, R224: a load of a core store reads at issue and its register arrives when the operation completes
theorem test_ld_core :
    then1 (exec (.ld (wg 4 2 0 0 0x002)) (at1 (.ld (wg 4 2 0 0 0x002)) (setLanesV 2 (4 * ·)) (fun s =>
      { s with mach := { s.mach with mem := s.mach.mem.writeNat ⟨.core 0, 64⟩ 4 0xDEADBEEF } })))
      (fun t g => g.marks == [(5, .v 4)] && thenIs (exec (.operationComplete 5 none) t)
        (fun u => (u.mach.group? 1).bind (fun g => laneOf g 4 16) == some 0xDEADBEEF#32)) = true := by decide +kernel
theorem test_st_core :
    then1 (exec (.st (wg 4 2 0 0 0x002)) (at1 (.st (wg 4 2 0 0 0x002)) (fun g => setLanesV 2 (4 * ·) (setLanesV 4 id g))))
      (fun t _ => t.mach.mem.readNat ⟨.core 0, 124⟩ 4 == 31 && t.mach.mem.readNat ⟨.core 0, 128⟩ 4 == 0 &&
        t.mach.mem.wf) = true := by decide +kernel
-- R360, R361: a word that fails a check is a trap of its group
theorem test_trap_encoding :
    then1 (exec (.vadd (wg 0 1 2 1 6)) (at1 (.vadd (wg 0 1 2 1 6))))
      (fun _ g => g.traps.map (fun t => (t.cause, t.off, t.mask)) == [(2, 8, BitVec.allOnes 32)] &&
        (g.lane 0).idx == 1) = true := by decide +kernel
theorem test_frame_bound :
    then1 (exec (.vadd (wg 191 1 2 0 6)) (at1 (.vadd (wg 191 1 2 0 6)) (fun g => { g with links := g.links.map (fun k => { k with dem := 191 }) })))
      (fun _ g => g.traps.map (·.cause) == [5]) = true := by decide +kernel
-- a step of the device from reset stops nothing (R383), and a first word runs (the fetch)
theorem test_first_step :
    thenIs (step (State.reset.withFetchWord 64 0x303D8B8A00201003)) (fun t =>
      (t.mach.group? 1).map (fun g => g.sReg 5) == some 16) = true := by decide +kernel

/-! ## Witnesses: uniform and vector words -/

theorem witness_UniformWords : (∃ b, Starts (.sadd (wg 255 192 193 0 3)) (at1 (.sadd (wg 255 192 193 0 3))) b) ∧
    (∃ b, Starts (.saddI (wi 192 255 65535 7)) (at1 (.saddI (wi 192 255 65535 7))) b) ∧
    (∃ b, Starts (.smovi ⟨15, false, 192, 1⟩) (at1 (.smovi ⟨15, false, 192, 1⟩)) b) ∧
    (∃ b, Starts (.scmp (wg 3 192 193 0 3)) (at1 (.scmp (wg 3 192 193 0 3))) b ∧ (wg 3 192 193 0 3).d.toNat < 4) ∧
    ∃ b, Starts (.scmpI (wi 0 192 0 3)) (at1 (.scmpI (wi 0 192 0 3))) b ∧ (wi 0 192 0 3).d.toNat < 4 :=
  ⟨starts (by decide +kernel), starts (by decide +kernel), starts (by decide +kernel),
    starts_with (by decide +kernel) (by decide), starts_with (by decide +kernel) (by decide)⟩

theorem witness_UniformArithmetic :
    (∃ b, Starts (.ssub (wg 192 192 193 0 3)) (at1 (.ssub (wg 192 192 193 0 3))) b ∧
      mSat (wg 192 192 193 0 3).mod = false ∧ 192 ≤ (wg 192 192 193 0 3).d.toNat ∧
      mTyD (wg 192 192 193 0 3).mod = .int 64) ∧
    (∃ b, Starts (.smul (wg 255 192 193 0 2)) (at1 (.smul (wg 255 192 193 0 2))) b ∧
      mSat (wg 255 192 193 0 2).mod = false ∧ mTyD (wg 255 192 193 0 2).mod = .int 32) ∧
    (∃ b, Starts (.sadd (wg 255 192 193 0 6)) (at1 (.sadd (wg 255 192 193 0 6))) b ∧
      mSat (wg 255 192 193 0 6).mod = false ∧ mTyD (wg 255 192 193 0 6).mod = .nat 32) ∧
    (∃ b, Starts (.sshl (wg 192 192 193 0 11)) (at1 (.sshl (wg 192 192 193 0 11))) b ∧
      mTyD (wg 192 192 193 0 11).mod ∈ [Ty.int 64, .nat 64, .bits 64]) ∧
    (∃ b, Starts (.sshr (wg 192 192 193 0 3)) (at1 (.sshr (wg 192 192 193 0 3))) b ∧
      mTyD (wg 192 192 193 0 3).mod ∈ [Ty.int 64, .nat 64, .bits 64]) ∧
    (∃ b, Starts (.sshlI (wi 192 192 64 7)) (at1 (.sshlI (wi 192 192 64 7))) b ∧
      mTyD (wi 192 192 64 7).mod ∈ [Ty.int 64, .nat 64, .bits 64]) ∧
    ∃ b, Starts (.sshrI (wi 192 192 63 3)) (at1 (.sshrI (wi 192 192 63 3))) b ∧
      mTyD (wi 192 192 63 3).mod ∈ [Ty.int 64, .nat 64, .bits 64] :=
  ⟨starts_with (by decide +kernel) (by decide), starts_with (by decide +kernel) (by decide),
    starts_with (by decide +kernel) (by decide), starts_with (by decide +kernel) (by decide),
    starts_with (by decide +kernel) (by decide), starts_with (by decide +kernel) (by decide),
    starts_with (by decide +kernel) (by decide)⟩

/-- A word that stands at issue, that its class admits and that is no misplaced transfer: what `RaisesEncoding` asks. -/
def EncodingChecked (i : Instr) (s : State) : Prop :=
  ∃ g run p cl opc w, wordAtIssue s = some (g, run, p, cl) ∧ parts i = some (opc, w) ∧ admits cl.header.ecls opc = true ∧
    (isTransfer opc = true → p.idx = cl.header.cnt.toNat + 1)

theorem encodingChecked {i : Instr} {s : State} {opc : Nat} {w : AnyWord} (hp : parts i = some (opc, w))
    (h : issuing s (fun _ _ p cl => decide (admits cl.header.ecls opc = true ∧
      (isTransfer opc = true → p.idx = cl.header.cnt.toNat + 1))) = true) : EncodingChecked i s := by
  obtain ⟨g, r, p, c, e, h1, h2⟩ := issuing_iff h
  exact ⟨g, r, p, c, opc, w, e, hp, h1, h2⟩

theorem witness_Saddr :
    (∃ b, Starts (.saddr (wg 192 192 193 194 (16 * 64 + 7))) (at1 (.saddr (wg 192 192 193 194 (16 * 64 + 7)))) b ∧
      192 ≤ (wg 192 192 193 194 (16 * 64 + 7)).d.toNat) ∧
    EncodingChecked (.saddr (wg 192 192 193 194 (17 * 64 + 7))) (at1 (.saddr (wg 192 192 193 194 (17 * 64 + 7)))) ∧
    EncodingChecked (.saddr (wg 192 192 193 194 3)) (at1 (.saddr (wg 192 192 193 194 3))) :=
  ⟨starts_with (by decide +kernel) (by decide), encodingChecked rfl (by decide +kernel),
    encodingChecked rfl (by decide +kernel)⟩

theorem witness_VoteAndVtos :
    (∃ b, Starts (.vote (wg 192 11 0 0 0)) (at1 (.vote (wg 192 11 0 0 0))) b ∧ mOpx (wg 192 11 0 0 0).mod = 0) ∧
    (∃ b, Starts (.vote (wg 3 0 0 0 64)) (at1 (.vote (wg 3 0 0 0 64))) b ∧ mOpx (wg 3 0 0 0 64).mod = 1) ∧
    (∃ b, Starts (.vote (wg 0 0 0 0 128)) (at1 (.vote (wg 0 0 0 0 128))) b ∧ mOpx (wg 0 0 0 0 128).mod = 2) ∧
    (∃ b, Starts (.vtos (wg 192 0 0 0 10)) (at1 (.vtos (wg 192 0 0 0 10))) b ∧ mBit (wg 192 0 0 0 10).mod 6 = false) ∧
    ∃ b, Starts (.vtos (wg 255 0 193 0 74)) (at1 (.vtos (wg 255 0 193 0 74)) (setS 1 32)) b ∧
      (mBit (wg 255 0 193 0 74).mod 6 = true ∧ (fieldS b.c.g (wg 255 0 193 0 74).b).toNat = 32) :=
  ⟨starts_with (by decide +kernel) (by decide), starts_with (by decide +kernel) (by decide),
    starts_with (by decide +kernel) (by decide), starts_with (by decide +kernel) (by decide),
    starts_and (by decide +kernel)⟩

theorem witness_VectorWords :
    (∃ b, Starts (.pand (wg 11 0 1 0 0)) (at1 (.pand (wg 11 0 1 0 0))) b ∧ (wg 11 0 1 0 0).d.toNat < 12) ∧
    (∃ b, Starts (.vcmpI (wi 0 1 2 6)) (at1 (.vcmpI (wi 0 1 2 6))) b ∧ (wi 0 1 2 6).d.toNat < 12) ∧
    (∃ b, Starts (.vadd (wg 191 1 200 0 6)) (at1 (.vadd (wg 191 1 200 0 6))) b) ∧
    (∃ b, Starts (.vpopc (wg 0 1 0 0 10)) (at1 (.vpopc (wg 0 1 0 0 10))) b) ∧
    (∃ b, Starts (.vaddI (wi 0 1 2 2)) (at1 (.vaddI (wi 0 1 2 2))) b) ∧
    (∃ b, Starts (.shfl (wg 190 2 4 6 11)) (at1 (.shfl (wg 190 2 4 6 11))) b ∧ tyWidth (mTyD (wg 190 2 4 6 11).mod) = 64) ∧
    (∃ b, Starts (.tstat (wg 0 0 0 0 0)) (at1 (.tstat (wg 0 0 0 0 0))) b) ∧
    (∃ b, Starts (.faddI (wi 0 1 2 12)) (at1 (.faddI (wi 0 1 2 12))) b) ∧
    [mayClamp (.vadd (wg 191 1 200 0 6)), mayClamp (.vpopc (wg 0 1 0 0 10)), mayClamp (.vaddI (wi 0 1 2 2))] =
      [false, false, false] :=
  ⟨starts_with (by decide +kernel) (by decide), starts_with (by decide +kernel) (by decide), starts (by decide +kernel),
    starts (by decide +kernel), starts (by decide +kernel), starts_with (by decide +kernel) (by decide),
    starts (by decide +kernel), starts (by decide +kernel), by decide +kernel⟩

theorem witness_VectorSums :
    (∃ b, Starts (.vmul (wg 0 1 2 0 6)) (at1 (.vmul (wg 0 1 2 0 6))) b ∧ mTyD (wg 0 1 2 0 6).mod ∈ [Ty.int 32, .nat 32] ∧
      mSat (wg 0 1 2 0 6).mod = false) ∧
    ∃ b, Starts (.vadd (wg 0 1 2 0 0x102)) (at1 (.vadd (wg 0 1 2 0 0x102)) (fun g => setV 1 (2 ^ 31 - 1) (setV 2 1 g))) b ∧
      mTyD (wg 0 1 2 0 0x102).mod = .int 32 ∧ mSat (wg 0 1 2 0 0x102).mod = true :=
  ⟨starts_with (by decide +kernel) (by decide), starts_with (by decide +kernel) (by decide)⟩

theorem witness_Vaddcy :
    (∃ b, Starts (.vaddcy (wg 0 1 2 11 6)) (at1 (.vaddcy (wg 0 1 2 11 6))) b ∧ (wg 0 1 2 11 6).c.toNat < 12) ∧
    EncodingChecked (.vaddcy (wg 0 1 2 12 6)) (at1 (.vaddcy (wg 0 1 2 12 6))) ∧
    EncodingChecked (.vaddcy (wg 0 1 2 0 2)) (at1 (.vaddcy (wg 0 1 2 0 2))) ∧
    EncodingChecked (.vaddcy (wg 0 1 2 0 0x86)) (at1 (.vaddcy (wg 0 1 2 0 0x86))) :=
  ⟨starts_with (by decide +kernel) (by decide), encodingChecked rfl (by decide +kernel),
    encodingChecked rfl (by decide +kernel), encodingChecked rfl (by decide +kernel)⟩

theorem witness_Shfl :
    (∃ b, Starts (.shfl (wg 0 1 2 3 10)) (at1 (.shfl (wg 0 1 2 3 10))) b ∧ mTyD (wg 0 1 2 3 10).mod = .bits 32) ∧
    (∃ b, Starts (.shfl (wg 190 2 4 6 139)) (at1 (.shfl (wg 190 2 4 6 139))) b ∧ mTyD (wg 190 2 4 6 139).mod = .bits 64) ∧
    EncodingChecked (.shfl (wg 0 1 2 3 0xCA)) (at1 (.shfl (wg 0 1 2 3 0xCA))) ∧
    EncodingChecked (.shfl (wg 0 1 2 3 6)) (at1 (.shfl (wg 0 1 2 3 6))) ∧
    EncodingChecked (.shfl (wg 0 1 2 3 0x10A)) (at1 (.shfl (wg 0 1 2 3 0x10A))) :=
  ⟨starts_with (by decide +kernel) (by decide), starts_with (by decide +kernel) (by decide),
    encodingChecked rfl (by decide +kernel), encodingChecked rfl (by decide +kernel), encodingChecked rfl (by decide +kernel)⟩

theorem witness_FloatValues :
    (fmtF16.decode 0x7BFF).isNan = false ∧ 0x7BFF < 2 ^ fmtF16.width ∧ ((fmtQ8 7 true false).decode 0xFE).isNan = false ∧
    0xFE < 2 ^ (fmtQ8 7 true false).width ∧ (fmtF32.decode 0x7FC00000).isNan = true ∧
    (fmtF32.decode 0x80000000).isZero = true ∧ (fmtF32.decode 0).isZero = true := by decide +kernel

/-! ## Witnesses: encodings and the fetch -/

theorem witness_DecodeAfterEncode : WellFormed (.saddI (wi 197 197 16 3)) ∧
    (encode (.saddI (wi 197 197 16 3))).isSome = true := by decide +kernel

theorem witness_EncodeAfterDecode : decode 0x303D8B8A00201003#64 =
    .ok (.saddI ⟨15, false, 197, 197, 16, false, 0, false, true, 0x003⟩) := rfl

theorem witness_IllegalWords :
    (issuing (at1 (.vadd (wg 0 1 2 0 6)) (fun g => { g with clause := g.clause.map (fun c => { c with header := { c.header with ecls := 1 } }) }))
      (fun _ _ _ cl => !admits cl.header.ecls 0x100)) = true ∧
    (issuing (at1 (.bra (wj 0 1 0)) (fun g => { g with clause := g.clause.map (fun c => { c with header := { c.header with cnt := 1 } }) }))
      (fun _ _ p cl => isTransfer 0x000 && decide (p.idx ≠ cl.header.cnt.toNat + 1))) = true ∧
    (issuing (at1 (.vadd (wg 0 1 2 1 6))) (fun _ _ _ _ => decide (¬ WellFormed (.vadd (wg 0 1 2 1 6))))) = true ∧
    (issuing (at1 (.vadd (wg 191 1 2 0 6)) (fun g => { g with links := g.links.map (fun k => { k with dem := 191 }) }))
      (fun g _ _ _ => ((wordSpec (.vadd (wg 191 1 2 0 6))).map (fun t =>
        (namedV t (.g (wg 191 1 2 0 6))).any (fun j => g.framed ≤ j))).getD false)) = true := by decide +kernel
/-- What holds on a group's turn when it may issue, its place and grid known. -/
def onTurn (s : State) (q : State → Group → Nat → Grid → Bool) : Bool :=
  let u := ({ s with mach := { s.mach with script := s.mach.script.drop 1 } } : State).turn 1
  s.dev.powered && decide (s.mach.script.head? = some (.group 1)) && decide (s.dev.ctxst = .running) &&
    match u.mach.group? 1 with
    | some g =>
      match g.nextPc, u.mach.gridOfGroup? g with
      | some pc, some grid => !u.mach.deliverable g && u.mach.canIssue g && q u g pc grid
      | _, _ => false
    | none => false

theorem witness_StepRunsDecodedWord :
    ({ State.reset with dev := { State.reset.dev with powered := false } } : State).dev.powered = false ∧
    isEvent .thermalShutdown = true ∧ (State.reset.waitsBehind .thermalShutdown).isNone = true ∧
    (({ State.reset with mach := { State.reset.mach with posted := [.access (.trigWrite 0)] } } : State).waitsBehind
      (.graphUpload 0)).isSome = true ∧
    onTurn (State.reset.withFetchWord 64 0x303D8B8A00201003) (fun _ g pc _ =>
      let p := g.lane (firstLane (g.runAt pc))
      decide (p.idx = 1) && (g.clause.map (fun cl => decide (cl.hdr = p.hdr ∧ cl.words[0]? = some 0x303D8B8A00201003#64))).getD false &&
        !isHeader 0x303D8B8A00201003#64 && (decode 0x303D8B8A00201003#64).toOption.isSome) = true ∧
    onTurn (State.reset.withFetchWord 64 0x04FC000000000000) (fun _ g pc _ =>
      let p := g.lane (firstLane (g.runAt pc))
      decide (p.idx = 1) && (g.clause.map (fun cl => decide (cl.hdr = p.hdr ∧ cl.words[0]? = some 0x04FC000000000000#64))).getD false &&
        (ofOpcode ((0x04FC000000000000#64).extractLsb' 54 10).toNat 0x04FC000000000000#64).isNone) = true ∧
    onTurn (State.reset.withFetchWord 64 0xD100000000000000) (fun u g pc grid =>
      let p := g.lane (firstLane (g.runAt pc))
      decide (p.idx = 0 ∧ p.hdr + 8 ≤ grid.hdr.codeb) &&
        ((u.mach.cache.find? (fun k => k.core == g.core && k.va == codeVa grid p.hdr)).map (fun k =>
          isHeader (k.words.headD 0))).getD false) = true ∧
    onTurn (mapped { State.reset.withFetchWord 64 0xD100000000000000 with mach :=
        { (State.reset.withFetchWord 64 0xD100000000000000).mach with cache := [] } }) (fun u g pc grid =>
      let p := g.lane (firstLane (g.runAt pc))
      let u : State := { u with mach := { u.mach with mem := u.mach.mem.writeNat ⟨.hbm, 0x40000000⟩ 8 0xD100000000000000 } }
      decide (p.idx = 0 ∧ p.hdr + 8 ≤ grid.hdr.codeb) && u.mach.cache.isEmpty &&
        !u.mach.transHeld u.dev g.core none (codeVa grid p.hdr) &&
        match translate u.dev u.mach g.core .fetch (codeVa grid p.hdr) with
        | (m, .ok l) => ((readCode u.dev m l).map (fun x => isHeader x.2)).getD false
        | (_, .error _) => false) = true := by decide +kernel

/-- What the header at issue satisfies. -/
def headerAt (s : State) (q : Group → Bool) : Bool :=
  match headerAtIssue s with
  | some (g, _, _) => q g
  | none => false

theorem witness_HeadersOpenClauses :
    headerAt (at1 (.clauseHeaderIssue { goodHeader with reg := true })) (fun g => headerOk { goodHeader with reg := true } &&
      (List.range 12).all (fun k => !({ goodHeader with reg := true } : Header).wait.getLsbD k || g.flagCount k == 0)) = true ∧
    (at1 (.clauseHeaderIssue { goodHeader with reg := true })).mach.ctx.groups.all
      (fun g => !(at1 (.clauseHeaderIssue { goodHeader with reg := true })).mach.regionHeld g) = true ∧
    headerAt (at1 (.clauseHeaderIssue { goodHeader with ecls := 7 })) (fun _ => !headerOk { goodHeader with ecls := 7 }) = true ∧
    headerAt (at1 (.clauseHeaderIssue { goodHeader with wait := 0x800 }) (fun g => { g with k := vset g.k 11 1 })) (fun g =>
      headerOk { goodHeader with wait := 0x800 } &&
        (List.range 12).any (fun k => ({ goodHeader with wait := 0x800 } : Header).wait.getLsbD k && g.flagCount k != 0)) = true := by
  decide +kernel

/-! ## Witnesses: control flow -/

/-- The grid of a start's group, and what it satisfies. -/
def withGrid (b : Start) (q : Grid → Bool) : Bool := ((b.m.gridOfGroup? b.c.g).map q).getD false

theorem witness_TransfersMoveLanes :
    startWith (.bra (wj 0 (-1) 0)) (at1 (.bra (wj 0 (-1) 0)) id (cachedHeader 0)) (fun b => withGrid b (fun grid =>
      okWith ((isTarget b.c grid b.c.lanes (b.c.off + 8 * (wj 0 (-1) 0).off.toInt)).run b.m) (fun r _ => r))) = true ∧
    startWith (.jmp (wj 193 (-1) 3)) (at1 (.jmp (wj 193 (-1) 3)) (setS 1 2) (cachedHeader 128)) (fun b => withGrid b (fun grid =>
      okWith ((isTarget b.c grid b.c.lanes (b.c.off + 8 * ((wj 193 (-1) 3).off.toInt + (fieldS b.c.g 193#8).toInt * 2 ^ 3))).run b.m)
        (fun r _ => r))) = true ∧
    startWith (.ubra (wj 0 1 7)) (at1 (.ubra (wj 0 1 7)) (fun g => { g with q := vset g.q 3 true }) (cachedHeader 16)) (fun b => withGrid b (fun grid =>
      b.c.g.qReg 3 && okWith ((isTarget b.c grid b.c.run (b.c.off + 8 * (wj 0 1 7).off.toInt)).run b.m) (fun r _ => r))) = true ∧
    startWith (.ubra (wj 0 1 3)) (at1 (.ubra (wj 0 1 3)) (fun g => { g with q := vset g.q 3 true }) (cachedHeader 16)) (fun b => withGrid b (fun grid =>
      b.c.g.qReg 3 != (wj 0 1 3).jmod.getLsbD 2 &&
        okWith ((isTarget b.c grid b.c.run (b.c.off + 8 * (wj 0 1 3).off.toInt)).run b.m) (fun r _ => r))) = true ∧
    startWith (.brx (wg 0 1 0 0 0)) (at1 (.brx (wg 0 1 0 0 0)) (setLanesV 1 (fun l => 1024 * (l % 2))) (fun s => cachedHeader 0 (cachedHeader 1024 s)))
      (fun b => withGrid b (fun grid => okWith ((checkTargets b.c grid
        (b.c.lanes.lanes.map (fun l => (l, src32 b.c b.c.g 1#8 l)))).run b.m) (fun _ _ => true))) = true ∧
    startWith (.call (wj 4 31 7)) (at1 (.call (wj 4 31 7)) id (cachedHeader 256)) (fun b => withGrid b (fun grid =>
      okWith ((isTarget b.c grid b.c.lanes (b.c.off + 8 * 31)).run b.m) (fun r _ => r) &&
      decide (b.g.level ≠ 511) && !(at1 (.call (wj 4 31 7)) id (cachedHeader 256)).mach.regionHeld b.g &&
      decide ((b.g.link 0).base + (b.g.link 0).dem - min 16 (min (b.g.link 0).dem 32) + 32 ≤ homeRegs grid))) = true ∧
    startWith (.callx (wg 0 1 0 0 24)) (at1 (.callx (wg 0 1 0 0 24)) (setV 1 1024) (cachedHeader 1024)) (fun b => withGrid b (fun grid =>
      okWith ((checkTargets b.c grid (b.c.lanes.lanes.map (fun l => (l, src32 b.c b.c.g 1#8 l)))).run b.m) (fun _ _ => true) &&
      decide ((b.g.link 0).base + (b.g.link 0).dem - 16 + 192 ≤ homeRegs grid))) = true := by decide +kernel

/-- A call level above the first: 32 registers from place 176 on, called from offset 512, with a catch point. -/
def inCallee (g : Group) : Group :=
  { g.setLanes (BitVec.allOnes 32) (fun _ p => { p with level := 1 }) with
    links := g.links ++ [{ reto := 520, cato := 640, base := 176, dem := 32, win := 16, cm := true, held := 16 }] }

theorem witness_LeavingLanes :
    startWith (.ret (wg 0 0 0 0 0)) (at1 (.ret (wg 0 0 0 0 0)) inCallee (cachedHeader 520)) (fun b => withGrid b (fun grid =>
      okWith ((isTarget b.c grid b.c.lanes 520).run b.m) (fun r _ => r) && decide (floorLevel b.g < b.g.level) &&
      decide ((b.g.link b.g.level).reto = 520) && !b.g.marksAbove (topAfter b.c.g (b.c.g.leave b.c 0 520)) &&
      !(at1 (.ret (wg 0 0 0 0 0)) inCallee (cachedHeader 520)).mach.regionHeld b.g)) = true ∧
    startWith (.unwind (wi 0 0 1 0)) (at1 (.unwind (wi 0 0 1 0)) inCallee (cachedHeader 520)) (fun b => withGrid b (fun grid =>
      okWith ((isTarget b.c grid b.c.lanes 520).run b.m) (fun r _ => r) && decide (1 ≤ b.g.level ∧ b.g.handling = none) &&
      !b.g.marksAbove (topAfter b.c.g (b.c.g.leave b.c 0 520)))) = true ∧
    startWith (.unwind (wi 0 0 0 0)) (at1 (.unwind (wi 0 0 0 0)) inCallee (cachedHeader 640)) (fun b => withGrid b (fun grid =>
      okWith ((isTarget b.c grid b.c.lanes 640).run b.m) (fun r _ => r) && (b.g.link 1).cm && decide ((b.g.link 1).cato = 640) &&
      decide (floorLevel b.g < 1 ∧ b.g.level = 1) && !b.g.marksAbove (topAfter b.c.g (b.c.g.leave b.c 0 640)))) = true ∧
    startWith (.exit (wg 0 0 0 0 0)) (at1 (.exit (wg 0 0 0 0 0))) (fun b => decide ((b.c.g.leaveTable b.c).livem = 0)) = true ∧
    startWith (.exit { wg 0 0 0 0 0 with grd := 0 }) (at1 (.exit { wg 0 0 0 0 0 with grd := 0 }) (fun g => inCallee { g with p := vset g.p 0 1 }))
      (fun b => !b.g.marksAbove (topAfter b.c.g (b.c.g.leaveTable b.c)) && decide ((b.c.g.leaveTable b.c).livem ≠ 0)) = true := by
  decide +kernel

theorem witness_QuietWords :
    (∃ b, Starts (.nop (wg 0 0 0 0 0)) (at1 (.nop (wg 0 0 0 0 0))) b) ∧
    (∃ b, Starts (.sleep (wg 0 193 0 0 0)) (at1 (.sleep (wg 0 193 0 0 0)) (setS 1 100)) b) ∧
    (∃ b, Starts (.sleep (wg 0 193 0 0 64)) (at1 (.sleep (wg 0 193 0 0 64)) (setS 1 (2 ^ 64 - 2))) b ∧
      (at1 (.sleep (wg 0 193 0 0 64)) (setS 1 (2 ^ 64 - 2))).mach.cyc.toNat + (fieldS b.c.g 193#8).toNat < 2 ^ 64) ∧
    (∃ b, Starts (.sleep (wg 0 193 0 0 139)) (at1 (.sleep (wg 0 193 0 0 139)) (setS 1 100)) b ∧ mOpx (wg 0 193 0 0 139).mod = 2 ∧
      b.c.header.cnt.toNat < b.c.idx) ∧
    (∃ b, Starts (.sleep (wg 0 193 0 0 139)) (at1 (.sleep (wg 0 193 0 0 139)) (fun g => { g with
        clause := g.clause.map (fun c => { c with header := { c.header with cnt := 1 } }) })) b ∧ b.c.idx ≤ b.c.header.cnt.toNat) ∧
    (∃ b, Starts (.swrite (wi 0 193 13 11)) (at1 (.swrite (wi 0 193 13 11))) b) ∧
    (∃ b, Starts (.swrite (wi 0 193 19 11)) (at1 (.swrite (wi 0 193 19 11))) b) ∧
    (∃ b, Starts (.swrite (wi 0 193 21 11)) (at1 (.swrite (wi 0 193 21 11)) (setS 1 1)) b ∧ (fieldS b.c.g 193#8).toNat < 2) ∧
    ∃ b, Starts (.swrite (wi 0 193 21 11)) (at1 (.swrite (wi 0 193 21 11)) (setS 1 0)) b ∧ (fieldS b.c.g 193#8).toNat < 2 :=
  ⟨starts (by decide +kernel), starts (by decide +kernel), starts_and (by decide +kernel),
    starts_and (by decide +kernel), starts_and (by decide +kernel), starts (by decide +kernel), starts (by decide +kernel),
    starts_and (by decide +kernel), starts_and (by decide +kernel)⟩

theorem witness_BkptAndTrap : (∃ b, Starts (.bkpt (wi 0 0 65535 0)) (at1 (.bkpt (wi 0 0 65535 0))) b) ∧
    ∃ b, Starts (.trap (wi 0 0 0 0)) (at1 (.trap (wi 0 0 0 0))) b := ⟨starts (by decide +kernel), starts (by decide +kernel)⟩

/-- A group that has raised a breakpoint. -/
def broken : State :=
  match exec (.bkpt (wi 0 0 7 0)) (at1 (.bkpt (wi 0 0 7 0))) with
  | .next t => t
  | _ => State.reset

theorem witness_TrapDelivery :
    ((broken.mach.group? 1).map (fun g => decide (broken.dev.ctxst = .running) && broken.mach.deliverable g &&
      g.nextTrap.isSome && decide (g.level ≠ 511) && ((broken.mach.gridOfGroup? g).map (fun grid =>
        decide ((g.link g.level).base + (g.link g.level).dem + 32 ≤ homeRegs grid))).getD false)).getD false = true := by
  decide +kernel

/-- The group in its handler, at a TRET. -/
def inHandler : State :=
  match exec (.trapDelivery 1) broken with
  | .next t => { t with mach := t.mach.putWord 1 ((encode (.tret (wg 0 0 0 0 0))).getD 0) }
  | _ => State.reset

theorem witness_TretReturns :
    startWith (.tret (wg 0 0 0 0 0)) inHandler (fun b => withGrid b (fun grid =>
      b.g.marks.isEmpty && (b.g.handling.map (fun h => decide (b.g.level = h.level) && okWith ((tretTargets b.c grid h (b.c.g.vReg b.c.free 0)
        (b.c.g.vReg b.c.free 1) b.c.g.livem.lanes).run b.m) (fun _ _ => true))).getD false)) = true := by
  decide +kernel

/-- The same at another word. -/
def handlerAt (i : Instr) : State :=
  { inHandler with mach := inHandler.mach.putWord 1 ((encode i).getD 0) }

theorem witness_Sread :
    startWith (.sread (wi 192 0 5 11)) (at1 (.sread (wi 192 0 5 11))) (fun b =>
      ((at1 (.sread (wi 192 0 5 11))).mach.team? b.g.team).isSome && withGrid b (fun _ => true) && !srLane 5) = true ∧
    [0, 2, 3].map (fun n => startWith (.sread (wi 0 0 n 10)) (at1 (.sread (wi 0 0 n 10))) (fun b => withGrid b (fun _ => true))) =
      [true, true, true] ∧
    startWith (.sread (wi 190 0 9 11)) (at1 (.sread (wi 190 0 9 11))) (fun b => withGrid b (fun _ => true)) = true ∧
    [0x0D, 0x18, 0x1B].map (fun n => startWith (.sread (wi 192 0 n 10)) (handlerAt (.sread (wi 192 0 n 10))) (fun b => withGrid b (fun _ => true) &&
        !srLane n && b.g.handling.isSome)) = [true, true, true] := by decide +kernel

/-- The lone grid with a parameter copy of 8 bytes and a const section of 64 bytes at offset 4096. -/
def withConsts (s : State) : State :=
  mapped { s with mach := { s.mach with ctx := { s.mach.ctx with grids := s.mach.ctx.grids.map (fun g =>
    { g with params := [(7, 0x80#8)], pbytes := 16, badParams := [8], hdr := { g.hdr with constb := 64, consto := 4096 } }) } } }

theorem witness_Sldc :
    startWith (.sldc (wi 192 193 0 11)) (at1 (.sldc (wi 192 193 0 11)) id withConsts) (fun b => withGrid b (fun _ =>
      decide ((fieldS b.c.g 193#8).toNat % 8 = 0))) = true ∧
    startWith (.sldc (wi 192 193 8 11)) (at1 (.sldc (wi 192 193 8 11)) id withConsts) (fun b => withGrid b (fun grid =>
      decide (8 < grid.pbytes) && grid.badParams.contains 8 && !grid.badParams.contains 0)) = true ∧
    startWith (.sldc (wi 192 193 64 75)) (at1 (.sldc (wi 192 193 64 75)) id withConsts) (fun b => withGrid b (fun grid =>
      decide (grid.hdr.constb ≤ 64))) = true ∧
    startWith (.sldc (wi 192 193 56 75)) (at1 (.sldc (wi 192 193 56 75)) id withConsts) (fun b => withGrid b (fun grid =>
      okWith ((transLanes b.c .laneRead (some b.c.run) [(0, grid.image + grid.hdr.consto + 56)]).run b.m) (fun ls m =>
        match ls with
        | [(0, l)] => ((m.homeRead b.c.dev l 8).map (fun x => x.2.2.isEmpty)).getD false
        | _ => false))) = true := by decide +kernel

theorem witness_Requests :
    startWith (.launch (wg 0 193 194 195 0)) (at1 (.launch (wg 0 193 194 195 0)) (setS 3 8192) mapped) (fun b =>
      decide ((fieldS b.c.g 195#8).toNat % 8 = 0) &&
      okWith ((transLanes b.c .laneWrite (some b.c.run) [(0, (fieldS b.c.g 195#8).toNat)]).run b.m) (fun ls _ => ls.length = 1) &&
      decide (b.m.before b.g.gid b.g.core = []) && !b.m.scattering b.g.gid && decide (∀ k, b.c.flag = some k → b.g.flagCount k ≠ 63)) = true ∧
    startWith (.fetchw (wg 0 193 194 0 0)) (at1 (.fetchw (wg 0 193 194 0 0)) (setS 2 (5120 * 64 - 16))) (fun b =>
      ((b.m.team? b.g.team).map (fun tm => decide ((fieldS b.c.g 194#8).toNat + 16 ≤ tm.csl * 64) &&
        (linesOf (coreLoc tm (fieldS b.c.g 194#8).toNat) 16).all (fun k => (b.m.ownerOf k).isNone))).getD false &&
      b.m.ctx.fetches.isEmpty && b.m.ctx.ops.isEmpty) = true := by decide +kernel

/-! ## Witnesses: memory words -/

/-- Eight-byte words from a location on. -/
def putWords (sp : Space) (a : Nat) (xs : List Nat) (s : State) : State :=
  { s with mach := { s.mach with mem := s.mach.mem.write ⟨sp, a⟩ (xs.flatMap (natLe 8)) } }

/-- A memory word starts with its team known, no acquire and no open transaction in its way, its flag below 63. -/
def memStart (i : Instr) (s : State) (q : Start → Team → Bool) : Bool :=
  startWith i s (fun b => !b.m.acquiring b.g.gid && b.c.flag.all (fun k => b.g.flagCount k != 63) &&
    (List.range 32).all (fun l => !(b.c.lanes.has l && (b.g.txOf l).act)) &&
    match s.mach.team? b.g.team with
    | some tm => q b tm
    | none => false)

theorem memStart_iff {i : Instr} {s : State} {q : Start → Team → Bool} (h : memStart i s q = true) :
    ∃ b tm, Starts i s b ∧ MayIssue b ∧ NoTx b ∧ s.mach.team? b.g.team = some tm ∧ q b tm = true := by
  obtain ⟨b, hb, h⟩ := starts_of h
  simp only [Bool.and_eq_true, Bool.not_eq_true'] at h
  obtain ⟨⟨⟨h1, h2⟩, h3⟩, h4⟩ := h
  split at h4
  · refine ⟨b, _, hb, ⟨h1, fun k hk => ?_⟩, fun l hl hm => ?_, ‹_›, h4⟩
    · simpa [hk] using h2
    · have := (List.all_eq_true.1 h3) l (List.mem_range.2 hl)
      simpa [hm] using this
  · exact absurd h4 (by simp)

/-- Accesses inside their core stores, to lines without an owner and without error. -/
def freeSound (b : Start) (n : Nat) (rs : List LaneRef) : Bool :=
  rs.all (fun r => decide (r.2.2.addr + n ≤ 1048576) && (linesOf r.2.2 n).all (fun k =>
    (b.m.ownerOf k).isNone && !b.m.mem.poisoned { space := k.space, addr := k.index * 64 }))

theorem freeSound_iff {b : Start} {n : Nat} {rs : List LaneRef} (h : freeSound b n rs = true) : FreeAndSound b n rs := by
  intro r hr
  have := (List.all_eq_true.1 h) r hr
  simp only [Bool.and_eq_true, decide_eq_true_eq, List.all_eq_true, Option.isNone_iff_eq_none, Bool.not_eq_true'] at this
  exact this

/-- The lines are free, with no access before them, and no scatter has lanes to send. -/
def linesFree (b : Start) (ls : List Line) : Bool :=
  !b.m.scattering b.c.gid && ls.all (fun k => (b.m.ownerOf k).isNone && !b.m.lineBusy k)

/-- No operation and no unsent lane holds the accesses back, and the core has room for `k` more requests. -/
def notHeld (m : Mach) (b : Start) (n : Nat) (rs : List LaneRef) (k : Nat) : Bool :=
  rs.all (fun r => (linesOf r.2.2 n).all (fun k => (m.ownerOf k).isNone) && !m.unsentMeets b.c.dev b.c.gid b.c.seq r.2.2 n) &&
    decide (b.m.outstanding b.g.core + k ≤ 16384)

theorem notHeld_iff {m : Mach} {b : Start} {n k : Nat} {rs : List LaneRef} (h : notHeld m b n rs k = true) :
    NotHeld m b n rs ∧ b.m.outstanding b.g.core + k ≤ 16384 := by
  simp only [notHeld, Bool.and_eq_true, decide_eq_true_eq, List.all_eq_true, Option.isNone_iff_eq_none, Bool.not_eq_true'] at h
  exact ⟨fun r hr => h.1 r hr, h.2⟩

/-- A release has nothing to wait for. -/
def sentFree (b : Start) : Bool := !b.m.scattering b.c.gid && decide (b.m.before b.c.gid b.c.g.core = [])

-- the last four bytes of the core store in lane 31, and a page of HBM
theorem witness_LoadsIssue :
    memStart (.ld (wg 4 2 0 0 0x002)) (at1 (.ld (wg 4 2 0 0 0x002)) (setLanesV 2 (fun l => 327680 - 128 + 4 * l))) (fun b tm =>
      let xs := b.c.lanes.lanes.map (fun l => (l, laneAddr b.c (wg 4 2 0 0 0x002) 4 l))
      okWith ((addrCheck b.c tm 0 .laneRead 4 none xs).run b.m) (fun ls _ =>
        let rs := laneRefs xs ls
        rs.all (fun r => isNear r.2.2) && decide (rs.length = 32) && freeSound b 4 rs && notHeld b.m b 4 rs 0)) = true ∧
    memStart (.ld (wg 4 202 2 3 0x81A)) (at1 (.ld (wg 4 202 2 3 0x81A)) (fun g => setS 10 0x2000 (setLanesV 2 id { g with fenced := BitVec.allOnes 32 })) mapped) (fun b tm =>
      let xs := b.c.lanes.lanes.map (fun l => (l, laneAddr b.c (wg 4 202 2 3 0x81A) 4 l))
      okWith ((addrCheck b.c tm 2 .laneRead 4 none xs).run b.m) (fun ls m =>
        let rs := laneRefs xs ls
        decide (xs.head? = some (0, 0x200C)) && rs.all (fun r => !isNear r.2.2) &&
          (fromQueue b.c m b.g false (mOrd (wg 4 202 2 3 0x81A).mod) (mScp (wg 4 202 2 3 0x81A).mod) 4 rs).isEmpty &&
          notHeld m b 4 rs (requests (rs.map (·.2.2))).length)) = true ∧
    memStart (.ld (wg 192 193 0 0 0x003)) (at1 (.ld (wg 192 193 0 0 0x003)) (setS 1 8)) (fun b tm =>
      let xs := [(0, laneAddr b.c (wg 192 193 0 0 0x003) 8 0)]
      okWith ((addrCheck b.c tm 0 .laneRead 8 (some b.c.lanes) xs).run b.m) (fun ls m => freeSound b 8 (laneRefs xs ls) &&
        notHeld m b 8 (laneRefs xs ls) 0)) = true := by
  decide +kernel

theorem witness_StoresWrite :
    memStart (.st (wg 4 2 0 0 0x002)) (at1 (.st (wg 4 2 0 0 0x002)) (fun g => setLanesV 2 (fun l => 327680 - 128 + 4 * l) (setV 4 7 g))) (fun b tm =>
      let xs := b.c.lanes.lanes.map (fun l => (l, laneAddr b.c (wg 4 2 0 0 0x002) 4 l))
      okWith ((addrCheck b.c tm 0 .laneWrite 4 none xs).run b.m) (fun ls m => freeSound b 4 (laneRefs xs ls) &&
        notHeld m b 4 (laneRefs xs ls) 0 && decide (mOrd (wg 4 2 0 0 0x002).mod < 2))) = true ∧
    memStart (.st (wg 4 202 2 3 0x81A)) (at1 (.st (wg 4 202 2 3 0x81A)) (fun g => setS 10 0x2000 (setLanesV 2 (· / 2) (setV 4 7 g))) mapped) (fun b tm =>
      let xs := b.c.lanes.lanes.map (fun l => (l, laneAddr b.c (wg 4 202 2 3 0x81A) 4 l))
      okWith ((addrCheck b.c tm 2 .laneWrite 4 none xs).run b.m) (fun ls m => (laneRefs xs ls).all (fun r => !isNear r.2.2) &&
        notHeld m b 4 (laneRefs xs ls) (requests ((laneRefs xs ls).map (·.2.2))).length && sentFree b)) = true := by
  decide +kernel

/-- The record of R229's example: 32 by 32 elements of 4 bytes at 0x4000, rows 128 bytes apart. -/
def tensorRecord : List Nat := [0x4000, 0x12, 32 + 32 * 2 ^ 32, 0, 0, 0, 128, 0, 0, 0, 0, 0, 0, 0, 0, 0]

theorem witness_TensorAccesses :
    memStart (.ldt (wg 4 193 20 0 0)) (at1 (.ldt (wg 4 193 20 0 0)) (fun g => setS 1 256 (setV 20 5 (setLanesV 21 (· + 1) g)))
      (putWords (.core 0) 256 tensorRecord)) (fun b _ => okWith ((tensorAddrs b.c (wg 4 193 20 0 0) .laneRead).run b.m) (fun r m =>
        freeSound b 4 r.2.1 && notHeld m b 4 r.2.1 0 && decide (r.2.2 = [31] ∧ r.2.1.map (fun x => x.2.1) = (List.range 31).map (fun l => 0x4000 + 20 + 128 * (l + 1))))) = true ∧
    memStart (.stt (wg 4 193 20 0 0)) (at1 (.stt (wg 4 193 20 0 0)) (fun g => setS 1 256 (setV 4 9 (setV 20 5 (setLanesV 21 (· + 1) g))))
      (putWords (.core 0) 256 tensorRecord)) (fun b _ => okWith ((tensorAddrs b.c (wg 4 193 20 0 0) .laneWrite).run b.m) (fun r m =>
        freeSound b 4 r.2.1 && notHeld m b 4 r.2.1 0 && sentFree b && decide (r.2.2 = [31]))) = true := by decide +kernel

theorem witness_AtomicsIssue :
    memStart (.atom (wg 6 2 4 0 0x000)) (at1 (.atom (wg 6 2 4 0 0x000)) (fun g => setV 2 64 (setV 4 1 g))) (fun b tm =>
      let xs := b.c.lanes.lanes.map (fun l => (l, (atomOperands b.c (wg 6 2 4 0 0) (atomForm (wg 6 2 4 0 0) false false) false l).1))
      !(atomForm (wg 6 2 4 0 0) false false).scatter &&
      okWith ((addrCheck b.c tm 0 .laneAtomic 4 none xs).run b.m) (fun ls m => freeSound b 4 (laneRefs xs ls) &&
        notHeld m b 4 (laneRefs xs ls) 0 && sentFree b)) = true ∧
    memStart (.red (wg 0 2 6 9 0x810)) (at1 (.red (wg 0 2 6 9 0x810)) (fun g => setV 2 0x2000 (setV 3 0 (setV 6 0 g))) mapped)
      (fun _ _ => (atomForm (wg 0 2 6 9 0x810) true false).scatter) = true ∧
    memStart (.cas (wg 6 2 4 8 0x800)) (at1 (.cas (wg 6 2 4 8 0x800)) (fun g => setLanesV 2 (fun l => 0x2000 + 4 * l) (setV 3 0 (setV 4 1 (setV 8 2 g)))) mapped)
      (fun b tm =>
        let xs := b.c.lanes.lanes.map (fun l => (l, (atomOperands b.c (wg 6 2 4 8 0x800) (atomForm (wg 6 2 4 8 0x800) false true) true l).1))
        okWith ((addrCheck b.c tm 2 .laneAtomic 4 none xs).run b.m) (fun ls m => (laneRefs xs ls).all (fun r => !isNear r.2.2) &&
          notHeld m b 4 (laneRefs xs ls) 32 && sentFree b))
      = true := by decide +kernel

theorem witness_AtomicsCompute :
    let m := (plain).mach
    let l : Loc := ⟨.hbm, 8 * stackBytes - 8⟩
    l.addr % 8 = 0 ∧ m.mem.poisoned l = false ∧ (2 ^ 64 - 1 : Nat) < 2 ^ (8 * 8) ∧ (⟨.core 63, 4⟩ : Loc).addr % 4 = 0 ∧
      m.mem.poisoned ⟨.core 63, 4⟩ = false := by decide +kernel

/-! ## Witnesses: ordering, barriers, transactions -/

theorem witness_SatisfiedWaits :
    memStart (.fence (wg 0 0 0 0 0x361)) (at1 (.fence (wg 0 0 0 0 0x361))) (fun b _ => b.m.net.isEmpty && sentFree b &&
      decide (b.m.before b.g.gid b.g.core = []) && b.m.ctx.ops.isEmpty && decide (mOrd (wg 0 0 0 0 0x361).mod = 3 ∧ mScp (wg 0 0 0 0 0x361).mod = 3) &&
        (wg 0 0 0 0 0x361).mod.getLsbD 0) = true ∧
    memStart (.barw (wg 0 0 0 0 15)) (at1 (.barw (wg 0 0 0 0 15))) (fun b _ => (b.g.arrival (.team b.g.team 15)).isNone) = true ∧
    memStart (.cbar (wg 0 0 0 0 11)) (at1 (.cbar (wg 0 0 0 0 11))) (fun b tm =>
      decide ((wg 0 0 0 0 11).mod.toNat / 4 % 4 = 2) && (b.g.arrival (.cluster tm.cluster 3)).isNone) = true ∧
    memStart (.barw (wg 0 0 0 0 3)) (at1 (.barw (wg 0 0 0 0 3)) (fun g => { g with barWaits := [⟨0, 1, 0, BitVec.allOnes 32, .team 2 3, 0⟩] }) (fun s =>
      { s with mach := s.mach.modTeam 2 (fun t => { t with bars := vset t.bars 3 { ph := 1, cnt := 0, tgt := 0 } }) })) (fun b _ =>
      (waitingHere b.c b.g).any (fun x => (b.m.barrier x.bar).ph != x.phase)) = true := by decide +kernel

theorem witness_Barriers :
    memStart (.bar (wg 0 193 0 0 15)) (at1 (.bar (wg 0 193 0 0 15)) (setS 1 65535)) (fun b tm =>
      decide ((waitingHere b.c b.g) = none ∧ b.m.scattering b.c.gid = false ∧ (fieldS b.c.g 193#8).toNat = 65535 ∧ (b.m.barrier (.team tm.tid 15)).tgt = 0)) = true ∧
    memStart (.bar (wg 0 193 0 0 0)) (at1 (.bar (wg 0 193 0 0 0)) (setS 1 1)) (fun b tm =>
      decide ((waitingHere b.c b.g) = none ∧ (fieldS b.c.g 193#8).toNat = 1 ∧ (b.m.barrier (.team tm.tid 0)).tgt = 0)) = true ∧
    memStart (.bara (wg 0 193 0 0 3)) (at1 (.bara (wg 0 193 0 0 3)) (setS 1 2)) (fun b tm =>
      decide ((waitingHere b.c b.g) = none ∧ (b.m.barrier (.team tm.tid 3)).tgt = 0) && !(wg 0 193 0 0 3).mod.getLsbD 4) = true ∧
    memStart (.bara (wg 0 193 0 0 20)) (at1 (.bara (wg 0 193 0 0 20)) (setS 1 2)) (fun b _ =>
      decide (b.g.deferred.length < 4) && (wg 0 193 0 0 20).mod.getLsbD 4) = true ∧
    memStart (.cbar (wg 0 193 0 0 3)) (at1 (.cbar (wg 0 193 0 0 3)) (setS 1 2)) (fun b tm =>
      (b.m.cluster? tm.cluster).isSome && sentFree b && (waitingHere b.c b.g).isNone) = true ∧
    memStart (.cbar (wg 0 193 0 0 4)) (at1 (.cbar (wg 0 193 0 0 4)) (setS 1 2)) (fun b tm =>
      (b.m.cluster? tm.cluster).isSome && decide ((wg 0 193 0 0 4).mod.toNat / 4 % 4 = 1)) = true := by decide +kernel

/-- Lane 0 has an open transaction that has read the empty line at 0x40001000 of HBM. -/
def inTx (g : Group) : Group :=
  let r : TxRead := { line := ⟨.hbm, 0x1000040⟩, bytes := List.replicate 64 0 }
  { g with tx := vset g.tx 0 { LaneTx.init with act := true, reads := [r] } }

theorem witness_Transactions :
    (∃ b, Starts (.tbegin (wg 0 0 0 0 0)) (at1 (.tbegin (wg 0 0 0 0 0)) inTx) b ∧ b.m.acquiring b.g.gid = false) ∧
    (∃ b, Starts (.tabort (wg 0 1 0 0 0)) (at1 (.tabort (wg 0 1 0 0 0)) inTx) b ∧ b.m.acquiring b.g.gid = false) ∧
    startWith (.tend (wg 11 0 0 0 0x000)) (at1 (.tend (wg 11 0 0 0 0x000)) inTx) (fun b => !b.m.acquiring b.g.gid &&
      b.c.flag.all (fun k => b.g.flagCount k != 63) && b.m.net.isEmpty && (b.m.ownerOf ⟨.hbm, 0x1000040⟩).isNone &&
      ((b.g.txOf 0).rset ++ (b.g.txOf 0).wset).all (fun k => (b.m.ownerOf k).isNone &&
        !b.m.placeHeld plain.dev { space := k.space, addr := k.index * 64 } 64) && (b.g.txOf 0).act && !(b.g.txOf 0).doom && b.m.holdsSets b.g (b.g.txOf 0) && sentFree b) = true :=
  ⟨starts_and (by decide +kernel), starts_and (by decide +kernel), by decide +kernel⟩

/-! ## Witnesses: engine words -/

theorem witness_TransfersAndHints :
    memStart (.copy (wg 192 193 194 195 0)) (at1 (.copy (wg 192 193 194 195 0)) (fun g => setS 1 0 (setS 2 4096 (setS 3 64 g)))) (fun b tm =>
      let cap := captureS b.c (wg 192 193 194 195 0)
      let a := copyArgs (wg 192 193 194 195 0) cap
      decide (a.1 % 16 = 0 ∧ a.2.1 % 16 = 0 ∧ a.2.2 % 16 = 0 ∧ a.2.2 = 64) &&
      okWith ((rangeCheck b.c tm 0 a.1 a.2.2).run b.m) (fun _ _ => true) &&
      okWith ((rangeCheck b.c tm 0 a.2.1 a.2.2).run b.m) (fun _ _ => true) &&
      linesFree b (ownable (pieceLines (copyDest b.c.dev b.m b.g.core tm (wg 192 193 194 195 0) cap 0)))) = true ∧
    memStart (.gtha (wg 192 193 194 196 0)) (at1 (.gtha (wg 192 193 194 196 0)) (fun g =>
        setS 1 0 (setS 2 4096 (setS 4 8192 (setS 5 (4 * 2 ^ 24 + 32) g))))) (fun b tm =>
      let cap := captureS b.c (wg 192 193 194 196 0)
      let geo := b.c.g.sReg 5
      decide (geo.toNat / 2 ^ 24 % 2 ^ 24 = 4 ∧ geo.toNat % 2 ^ 16 = 32 ∧ geo.toNat / 2 ^ 16 % 2 ^ 8 = 0 ∧ geo.toNat / 2 ^ 48 = 0) &&
      okWith ((rangeCheck b.c tm 0 (spAddr 0 cap.sb.toNat) 16).run b.m) (fun _ _ => true) &&
      okWith ((rangeCheck b.c tm 0 (spAddr 0 cap.sc.toNat) 128).run b.m) (fun _ _ => true) &&
      linesFree b (ownable (pieceLines (gthaDest b.c.dev b.m b.g.core tm (wg 192 193 194 196 0) cap geo 0)))) = true ∧
    memStart (.tmov (wg 192 193 194 195 0)) (at1 (.tmov (wg 192 193 194 195 0)) (fun g => setS 1 0 (setS 2 128 (setS 3 256 g)))
        (fun s => putWords (.core 0) 0 tensorRecord (putWords (.core 0) 128 tensorRecord
          (putWords (.core 0) 256 [0, 0, 0, 0, 0, 0, 0, 0, 4 + 2 * 65536, 0, 0, 0, 0, 0, 0, 0] s)))) (fun b tm =>
      let cap := captureS b.c (wg 192 193 194 195 0)
      okWith ((recordCheck b.c tm cap.sa.toNat).run b.m) (fun la _ => okWith ((recordCheck b.c tm cap.sb.toNat).run b.m) (fun lb _ =>
        okWith ((recordCheck b.c tm cap.sc.toNat).run b.m) (fun lc _ =>
          let ws := b.m.mem.words la 16 ++ b.m.mem.words lb 16 ++ b.m.mem.words lc 16
          (shapeOf (b.m.mem.words la 16)).2 && (shapeOf (b.m.mem.words lb 16)).2 &&
          (boxOf (b.m.mem.words lc 16) 2).2 && decide ((shapeOf (b.m.mem.words la 16)).1.rank = 2) &&
          okWith ((rangeChecks b.c tm 0 4 ((moveOf ws).targets 0)).run b.m) (fun _ _ => true) &&
          linesFree b (ownable (pieceLines (moveDest b.c.dev b.m b.g.core tm (moveOf ws) 0))))))) = true ∧
    memStart (.tierh (wg 0 193 198 0 0x800)) (at1 (.tierh (wg 0 193 198 0 0x800)) (setS 6 (2 ^ 32))) (fun b _ =>
      decide ((fieldS b.c.g 198#8).toNat ≤ 2 ^ 32)) = true ∧
    memStart (.cjoin (wg 0 0 0 0 0)) (at1 (.cjoin (wg 0 0 0 0 0))) (fun _ _ => true) = true ∧
    memStart (.cleave (wg 0 0 0 0 0)) (at1 (.cleave (wg 0 0 0 0 0))) (fun _ _ => true) = true ∧
    memStart (.cquery (wg 255 0 0 0 0)) (at1 (.cquery (wg 255 0 0 0 0))) (fun _ _ => true) = true := by decide +kernel

/-- Two maps: 32 deep, rows of 128 bytes; V20 the format word of int8 operands. -/
def withMaps (g : Group) : Group :=
  let p : OpMap := { a := 0, b := BitVec.ofNat 64 (32 * 2 ^ 32 + 128), c := 0 }
  setV 20 0 { g with m := vset (vset g.m 3 (some p)) 1 (some { p with c := 4 }) }

theorem witness_MatrixWords :
    memStart (.omap (wg 7 193 194 195 0)) (at1 (.omap (wg 7 193 194 195 0)) (setS 2 (65536 * 2 ^ 32 + 1048560))) (fun b _ =>
      (⟨fieldS b.c.g 193#8, fieldS b.c.g 194#8, fieldS b.c.g 195#8⟩ : OpMap).ok) = true ∧
    memStart (.mma (wg 7 1 3 20 0)) (at1 (.mma (wg 7 1 3 20 0)) withMaps) (fun b tm =>
      decide (b.c.lanes = BitVec.allOnes 32 ∧ tm.tiles.length = 8) && (List.range 32).all (fun l => src32 b.c b.c.g 20#8 l == 0) &&
      (formatOf 0).ok && decide ((formatOf 0).accf = (b.m.tile b.g.core (tm.tile 7)).f16) &&
      match vget b.g.m 1 none, vget b.g.m 3 none with
      | some ma, some mb => decide (mb.klen % (formatOf 0).chunk = 0) &&
          decide (lowestBeyond (formatOf 0) false ma mb (regionOf 0) (tm.csl * 64) = none)
      | _, _ => false) = true ∧
    memStart (.mzero (wg 7 0 0 0 0)) (at1 (.mzero (wg 7 0 0 0 0))) (fun _ tm => decide (7 < tm.tiles.length ∧ mShp (wg 7 0 0 0 0).mod = 0)) = true ∧
    memStart (.mlda (wg 0 193 194 0 0x400)) (at1 (.mlda (wg 0 193 194 0 0x400)) (fun g => setS 1 0 (setS 2 512 g))) (fun b tm =>
      let r := regionOf 0x400
      decide ((b.m.tile b.g.core (tm.tile 0)).f16 = false ∧ mShp 0x400 = 1 ∧ (fieldS b.c.g 194#8).toNat = 512 ∧
        (r.rows - 1) * 512 + r.cols * 4 ≤ tm.csl * 64)) = true ∧
    memStart (.mdrain (wg 192 7 194 0 0xC00)) (at1 (.mdrain (wg 192 7 194 0 0xC00)) (setS 2 (0x0C * 2 ^ 32 + 64))) (fun b tm =>
      let y := fieldS b.c.g 194#8
      drainFmt (y.toNat / 2 ^ 32 % 2 ^ 6) && decide (y.toNat / 2 ^ 38 % 8 < 5 ∧ y.toNat / 2 ^ 42 = 0 ∧ 31 * 64 + 16 * 4 ≤ tm.csl * 64) &&
      linesFree b (ownable (drainLines tm (regionOf 0xC00) 0 64 (tyWidth (drainTy y) / 8) 0))) = true ∧
    memStart (.mdrain (wg 0 0 0 195 16)) (at1 (.mdrain (wg 0 0 0 195 16)) (setS 3 (7 * 2 ^ 32))) (fun b tm =>
      let x := fieldS b.c.g 195#8
      !x.getLsbD 35 && decide (x.toNat / 2 ^ 41 = 0 ∧ x.toNat / 2 ^ 32 % 8 = 7) &&
        ((b.m.drainTarget tm.grid x).map (fun u => decide (7 < u.tiles.length))).getD false) = true := by decide +kernel

/-- Stream registers 0 and 1 are open. -/
def opened (g : Group) : Group :=
  let f : Stream := { Stream.closedReg with st := .opened }
  { g with f := vset (vset g.f 0 f) 1 { f with st := .done } }

theorem witness_StreamWords :
    memStart (.sopen (wg 0 193 194 0 0)) (at1 (.sopen (wg 0 193 194 0 0)) (fun g => setS 1 64 (setS 2 (2 ^ 35 - 1) g))) (fun b _ =>
      decide (spAddr 2 (fieldS b.c.g 193#8).toNat % 64 = 0 ∧ (fieldS b.c.g 194#8).toNat < 2 ^ 35)) = true ∧
    memStart (.snext (wg 190 0 0 192 0)) (at1 (.snext (wg 190 0 0 192 0)) opened) (fun b _ => decide ((b.g.stream 0).st ≠ .closed)) = true ∧
    memStart (.sskip (wg 192 1 193 0 0)) (at1 (.sskip (wg 192 1 193 0 0)) opened) (fun b _ => decide ((b.g.stream 1).st ≠ .closed)) = true ∧
    memStart (.sisect (wg 189 0 1 192 0)) (at1 (.sisect (wg 189 0 1 192 0)) opened) (fun b _ => decide ((b.g.stream 0).st ≠ .closed)) = true ∧
    memStart (.sunion (wg 8 0 1 204 0)) (at1 (.sunion (wg 8 0 1 204 0)) opened) (fun b _ => decide ((b.g.stream 1).st ≠ .closed)) = true ∧
    memStart (.sclose (wg 0 7 0 0 0)) (at1 (.sclose (wg 0 7 0 0 0))) (fun b _ => !b.m.streamBusy b.g.gid [7]) = true ∧
    memStart (.sclose (wg 0 0 0 0 1)) (at1 (.sclose (wg 0 0 0 0 1)) opened) (fun b _ => !b.m.streamBusy b.g.gid (List.range 8)) = true ∧
    memStart (.sstat (wg 192 0 0 0 7)) (at1 (.sstat (wg 192 0 0 0 7)) opened) (fun b _ => !b.m.streamBusy b.g.gid [0] &&
      decide ((b.g.stream 0).st ≠ .closed)) = true := by decide +kernel

theorem witness_ListMerges :
    (∃ b, Starts (.lisect (wg 190 1 2 254 0)) (at1 (.lisect (wg 190 1 2 254 0)) (fun g => setLanesV 1 id (setLanesV 2 (2 * ·) g))) b ∧
      b.m.acquiring b.g.gid = false) ∧
    ([1, 5, 9] : List Nat).Pairwise (· < ·) ∧ (List.range 32).Pairwise (· < ·) ∧ (List.range 32).length ≤ 32 :=
  ⟨starts_and (by decide +kernel), by decide, by decide, by decide⟩

/-- The page of 1 GiB from 1 GiB on is die store 0. -/
def dieMapped (s : State) : State := putWords .hbm 0x1008 [2 ^ 62 + 0xF] (mapped s)

/-- A table descriptor at 0x2000: one bucket at the die store's first page, its pool at the second. -/
def withTable (s : State) : State :=
  putWords .hbm 0x40002000 [0xAE0E * 2 ^ 48 + 2 ^ 40 + 4 * 2 ^ 32, 0x40000000, 0x40001000, 0, 1, 0, 0, 0] (dieMapped s)

/-- A family of one plane of 16 f16 values at core-store offset 128. -/
def famWords : List Nat := [128, 0x0D * 2 ^ 58 + 16 * 2 ^ 32 + 65536 + 256, 0, 0, 0, 0, 0, 0]

theorem witness_RetrievalWords :
    memStart (.hfam (wg 3 193 0 0 0)) (at1 (.hfam (wg 3 193 0 0 0)) (setS 1 64) (putWords (.core 0) 64 famWords)) (fun b tm =>
      okWith ((issueWords b.c (coreLoc tm 64) 64 8).run b.m) (fun ws _ => (familyOf ws).2 &&
        decide ((familyOf ws).1.planes + (familyOf ws).1.lt * (familyOf ws).1.kb * (familyOf ws).1.dim * (familyOf ws).1.es ≤ tm.csl * 64))) = true ∧
    memStart (.hcode (wg 4 1 3 0 0)) (at1 (.hcode (wg 4 1 3 0 0)) (setLanesV 1 (32 * ·)) (fun s => { s with mach := s.mach.modTeam 2 (fun t =>
        { t with hash := vset t.hash 3 (some { planes := 128, pfmt := 0x0D, dim := 16, lt := 1, kb := 1 }) }) })) (fun b tm =>
      match vget tm.hash 3 none with
      | some f => b.c.lanes.lanes.all (fun l => decide (src32 b.c b.c.g 1#8 l % 16 = 0 ∧ src32 b.c b.c.g 1#8 l + f.dim * f.es ≤ tm.csl * 64)) &&
          decide (4 + f.lt ≤ b.g.framed) && b.g.marks.isEmpty
      | none => false) = true ∧
    memStart (.hprobe { wg 1 193 2 3 0 with grd := 0 }) (at1 (.hprobe { wg 1 193 2 3 0 with grd := 0 }) (fun g =>
        setS 1 0x2000 (setV 2 0 (setV 1 0 { g with p := vset g.p 0 1 }))) withTable) (fun b tm =>
      okWith ((hprobeRead b.c tm { wg 1 193 2 3 0 with grd := 0 }).run b.m) (fun _ _ =>
        linesFree b (ownable (blockLines tm (fun l => src32 b.c b.c.g 1#8 l) b.c.lanes.lanes 1)))) = true ∧
    memStart (.hins (wg 4 193 1 2 0)) (at1 (.hins (wg 4 193 1 2 0)) (fun g => setS 1 0x2000 (setV 1 0 (setV 2 0 g))) withTable) (fun b _ =>
      okWith ((tableGate b.c).run b.m) (fun _ _ => true) &&
      okWith ((tableAddrs b.c 0x2000 1).run b.m) (fun ds m => okWith ((tableRead b.c ds).run m) (fun _ _ => true))) = true ∧
    memStart (.hdel (wg 4 193 1 2 0)) (at1 (.hdel (wg 4 193 1 2 0)) (fun g => setS 1 0x2000 (setV 1 0 (setV 2 0 g))) withTable) (fun b _ =>
      okWith ((tableAddrs b.c 0x2000 1).run b.m) (fun ds m => okWith ((tableRead b.c ds).run m) (fun _ _ => true))) = true ∧
    memStart (.hreh (wg 192 193 194 0 0)) (at1 (.hreh (wg 192 193 194 0 0)) (fun g => setS 1 0x2000 (setS 2 256 g)) withTable) (fun b _ =>
      okWith ((tableAddrs b.c 0x2000 1).run b.m) (fun ds m => okWith ((tableRead b.c ds).run m) (fun _ _ => decide ((fieldS b.c.g 194#8).toNat ≤ 256)))) = true ∧
    memStart (.hsync (wg 0 193 0 0 0)) (at1 (.hsync (wg 0 193 0 0 0)) (setS 1 0x2000)) (fun b _ => decide ((fieldS b.c.g 193#8).toNat % 64 = 0)) = true := by
  decide +kernel

/-- One ray in flight at most, with its spill region enabled in every cellar. -/
def withRays (s : State) : State :=
  { s with dev := { s.dev with rmax := 1, cellars := Vector.replicate 8 { CellarRegs.reset with spn := 1 } } }

theorem witness_CellarWords :
    memStart (.raye (wg 193 8 1 2 0)) (at1 (.raye (wg 193 8 1 2 0)) (fun g => setS 1 (2 ^ 28 - 1) (setV 1 0 (setLanesV 2 (fun l => 327680 - 64 * (l + 1)) g))) withRays)
      (fun b tm => let xs := b.c.lanes.lanes.map (fun l => src32 b.c b.c.g 2#8 l)
        xs.all (fun a => decide (a % 64 = 0 ∧ a + 64 ≤ tm.csl * 64)) && decide xs.Nodup && decide ((fieldS b.c.g 193#8).toNat < 2 ^ 28) &&
          rayPath b.c.dev && linesFree b (ownable (slotLines tm xs))) = true ∧
    memStart (.anyr (wg 4 1 2 0 0)) (at1 (.anyr (wg 4 1 2 0 0)) (fun g => setV 1 0 (setV 2 0 g))) (fun b tm =>
        let xs := b.c.lanes.lanes.map (fun l => src32 b.c b.c.g 1#8 l)
        xs.all (fun a => decide (a % 64 = 0 ∧ a + 64 ≤ tm.csl * 64)) && linesFree b (ownable (slotLines tm xs))) = true ∧
    memStart (.trbegin (wg 192 193 0 0 0)) (at1 (.trbegin (wg 192 193 0 0 0)) (setS 1 (2 ^ 32 - 1))) (fun b _ => decide ((fieldS b.c.g 193#8).toNat < 2 ^ 32)) = true ∧
    memStart (.trpub (wg 192 193 194 0 0)) (at1 (.trpub (wg 192 193 194 0 0)) (setS 1 0)) (fun b _ => decide ((fieldS b.c.g 193#8).toNat < 2 ^ 32)) = true ∧
    memStart (.texf (wg 4 193 8 12 0)) (at1 (.texf (wg 4 193 8 12 0)) (fun g => setS 1 0x2000 (setV 8 0 (setV 9 0 g)))
        (fun s => putWords .hbm 0x40002000 [0x4000, 2 ^ 32 + 16384 * 65536 + 1, 0, 0, 0, 0, 0, 0] (mapped s))) (fun b tm =>
      okWith ((texfRead b.c tm (wg 4 193 8 12 0)).run b.m) (fun _ _ => true)) = true ∧
    memStart (.hgf (wg 4 193 8 12 0)) (at1 (.hgf (wg 4 193 8 12 0)) (fun g => setS 1 0x2000 (setLanesV 4 (16 * ·) (setV 8 0 (setV 9 0 (setV 10 0 g)))))
        (fun s => putWords .hbm 0x40002000 [0x4000, 22 * 2 ^ 32 + 2 ^ 24] (mapped s))) (fun b tm =>
      okWith ((hgfRead b.c tm (wg 4 193 8 12 0)).run b.m) (fun r _ => linesFree b (ownable r.2))) = true ∧
    memStart (.bfill (wg 0 193 194 0 0)) (at1 (.bfill (wg 0 193 194 0 0)) (fun g => setS 1 (65536 + 16383) (setS 2 4 g))) (fun b _ =>
      let x := (fieldS b.c.g 193#8).toNat
      decide (x % 2 ^ 16 + x / 2 ^ 16 % 2 ^ 16 ≤ 16384) && !parityChannel (x / 2 ^ 32 % 32)) = true ∧
    memStart (.attn { wg 0 1 0 0 0 with grd := 0 }) (at1 (.attn { wg 0 1 0 0 0 with grd := 0 }) (fun g => setV 1 0 { g with p := vset g.p 0 1 })
        (putWords (.core 0) 0 [64 * 2 ^ 32 + 4096, 16, 1 * 2 ^ 48, 0, 0, 0, 0, 0])) (fun b tm =>
      okWith ((attnRead b.c tm { wg 0 1 0 0 0 with grd := 0 }).run b.m) (fun r _ => linesFree b (ownable r.2))) = true := by decide +kernel

/-! ## Witnesses: requests at their homes, cellars, errors, boot -/

/-- The state after a word that goes on. -/
def after (i : Instr) (s : State) : State :=
  match exec i s with
  | .next t => t
  | _ => s

/-- A request of core 0 that has left it at cycle 0. -/
def request (id : Nat) (kind : PktKind) (loc : Loc) (len : Nat) : Pkt :=
  { id := id, op := 50, core := 0, lane := 0, kind := kind, loc := loc, len := len, va := 0, returns := true, after := [],
    release := false, homes := [], paths := 0, atHome := false, performed := false, sent := 0, arrive := 0, tag := 0,
    poison := [], data := [], cwd := false, port := none }

/-- Requests on their way. -/
def sending (ps : List Pkt) (s : State) : State := { s with mach := { s.mach with net := s.mach.net ++ ps } }

/-- The request `id` may be performed, and is served at the location that `q` admits. -/
def mayPerform (s : State) (id : Nat) (q : Pkt → Loc → Bool) : Bool :=
  match s.mach.pkt? id with
  | some p => s.mach.canPerform p &&
    match served s.dev s.mach p.loc with
    | .at x => s.mach.cellarOpen x && q p x
    | _ => false
  | none => false

/-- A tier port that is UP with page 0 of the tier staged in frame 0, at 64 KiB. -/
def staged (s : State) : State :=
  { dev := { s.dev with tiers := vset s.dev.tiers 0 { TierRegs.reset with en := true, st := .up, cap := 16, tsb := 1, tsn := 1 } },
    mach := { s.mach with tiers := vset s.mach.tiers 0 { TierUnit.empty with
      frames := [{ page := 0, frame := 0, dirty := true, used := 0 }] } } }

/-- A read of the last bytes of HBM, a write of the first, an atomic of a whole lane, two of one word without an answer, one
request to each other home. -/
def someRequests : State :=
  staged (sending [request 90 .read ⟨.hbm, 8 * stackBytes - 4⟩ 4, request 91 (.write [(0, 7), (3, 9)]) ⟨.hbm, 0⟩ 4,
    request 92 (.atomic 0 8 1 0) ⟨.hbm, 2 ^ 20⟩ 8,
    { request 97 (.atomic 0 4 1 0) ⟨.hbm, 2 ^ 21⟩ 4 with returns := false },
    { request 98 (.atomic 0 4 1 0) ⟨.hbm, 2 ^ 21⟩ 4 with returns := false, lane := 1 },
    request 93 .read ⟨.die, 7 * 2 ^ 30 + 622 * 2 ^ 20 - 8⟩ 8, request 94 (.write [(15, 1)]) ⟨.tier, 65520⟩ 16] plain)

theorem witness_HomesPerform :
    mayPerform someRequests 90 (fun p x => p.kind == .read && decide (p.loc.space = .hbm ∧ x = p.loc) && someRequests.mach.cellarTurn someRequests.dev p) = true ∧
    mayPerform someRequests 91 (fun p x => decide (p.loc.space = .hbm) && someRequests.mach.cellarTurn someRequests.dev p &&
      match p.kind with
      | .write data => data.all (fun e => !someRequests.mach.mem.poisoned (x.add e.1)) && decide (data.map (·.1)).Nodup
      | _ => false) = true ∧
    mayPerform someRequests 92 (fun p _ => decide (p.loc.space = .hbm) && someRequests.mach.cellarTurn someRequests.dev p &&
      p.kind == .atomic 0 8 1 0 && p.returns) = true ∧
    mayPerform someRequests 97 (fun p _ => someRequests.mach.cellarTurn someRequests.dev p && !p.returns &&
      decide ((someRequests.mach.sameWord p).map (·.id) = [97, 98])) = true ∧
    mayPerform someRequests 93 (fun p _ => decide (p.loc.space = .die)) = true ∧
    mayPerform someRequests 94 (fun p x => decide (p.loc.space = .tier ∧ x = ⟨.hbm, 65536 + 65520⟩)) = true := by decide +kernel

/-- A load of one lane whose reply is on its way, and a release with one marker out. -/
def answering : State :=
  let s := after (.ld (wg 4 202 2 3 0x81A)) (at1 (.ld (wg 4 202 2 3 0x81A)) (fun g => setS 10 0x2000 (setLanesV 2 id { g with fenced := BitVec.allOnes 32 })) mapped)
  let home := homeOf ⟨.hbm, 0⟩
  sending [{ request 95 (.write []) ⟨.hbm, 0⟩ 4 with release := true, after := [96], homes := [home], paths := 1 },
    { request 96 (.write []) ⟨.hbm, 0⟩ 4 with performed := true }] { s with mach := { s.mach with
      net := s.mach.net.map (fun p => { p with performed := true, arrive := 0, data := List.replicate p.len 5 }) } }

theorem witness_HomesAnswer :
    (match answering.mach.net.head? with
      | some p => p.performed && p.kind == .read && p.returns && p.poison.isEmpty && decide (p.loc.space = .hbm) &&
          (answering.mach.pkt? p.id == some p) && match answering.mach.op? p.op with
            | some o => o.addrs.any (fun x => x.2.space == p.loc.space && p.loc.addr ≤ x.2.addr && x.2.addr < p.loc.addr + p.len)
            | none => false
      | none => false) = true ∧
    (match answering.mach.pkt? 95 with
      | some p => decide (p.paths = 0 + 1) && answering.mach.net.all (fun q => !(p.after.contains q.id && homeOf q.loc == homeOf ⟨.hbm, 0⟩) || q.performed)
      | none => false) = true := by decide +kernel

/-- The cycle is `n`. -/
def cycle (n : Nat) (s : State) : State := { s with mach := { s.mach with cyc := BitVec.ofNat 64 n } }

/-- No request is unperformed, every channel serves, no port's status word is due, and no tier port but those of `up` is UP. -/
def allOpen (s : State) (up : List Nat) : Bool :=
  s.mach.net.all (·.performed) && s.mach.nycels.toList.all (fun u => !u.wordDue) &&
    s.mach.cellars.toList.all (fun u => u.chans.toList.all (fun c => c.mode == .normal || c.mode == .compute)) &&
    (List.range 2).all (fun p => up.contains p || (vget s.dev.tiers p TierRegs.reset).st != .up)

/-- What holds of each entry of a vector and of the value beyond its end holds of what is read from it. -/
theorem all_vget {α : Type} {n : Nat} {v : Vector α n} {q : α → Bool} {d : α} (h : v.toList.all q = true) (hd : q d = true)
    (i : Nat) : q (vget v i d) = true := by
  unfold vget
  split
  · exact List.all_eq_true.1 h _ (Vector.mem_toList_iff.2 (Vector.getElem_mem _))
  · exact hd

theorem allServed_of {s : State} {up : List Nat} (h : allOpen s up = true)
    (answers : ∀ p ∈ up, Config.expanderAnswers p s.mach.cyc.toNat = true) : AllServed s := by
  simp only [allOpen, Bool.and_eq_true] at h
  obtain ⟨⟨⟨hn, hw⟩, hc⟩, ht⟩ := h
  refine ⟨fun q hq => List.all_eq_true.1 hn q hq, fun l => ⟨?_, fun e => ?_⟩⟩
  · have open' := all_vget hc (d := CellarUnit.reset) (by decide +kernel) (l.addr / stackBytes)
    have ch := all_vget open' (d := Channel.init) (by decide) (channelOf l.addr)
    simp only [Mach.cellarOpen, Mach.chan, Mach.cellar, Bool.or_eq_true]
    exact .inr (Bool.or_eq_true _ _ ▸ ch)
  · have due : s.mach.nycels.toList.any (fun u => u.wordDue) = false := by
      simpa only [List.any_eq_false, List.all_eq_true, Bool.not_eq_true', Bool.not_eq_true] using hw
    unfold served at e
    simp only [due, Bool.false_eq_true, if_false] at e
    repeat' split at e
    all_goals first
      | (cases e; done)
      | rename_i st no
        have p2 : l.addr / tierSpan < 2 := Nat.lt_of_not_le fun hp => by
          simp [vget, Nat.not_lt.2 hp, TierRegs.reset] at st
        have := List.all_eq_true.1 ht _ (List.mem_range.2 p2)
        simp only [Bool.or_eq_true, List.contains_iff_mem, bne_iff_ne, ne_eq, st, not_true_eq_false, or_false] at this
        exact no (answers _ this)

/-- Without a tier port that is UP. -/
theorem allServed {s : State} (h : allOpen s [] = true) : AllServed s := allServed_of h (by simp)

/-- Channel 29 of stack 7. -/
def chan7 (mode : ChanMode) (fnrm : Bool) : State :=
  let s := cycle 4096 plain
  { s with mach := s.mach.modChan 7 29 (fun c => { c with mode := mode, fnrm := fnrm, attnEnd := 2048 }) }

theorem witness_ChannelsSleep :
    (let s := cycle 1024 (sending [request 90 .read ⟨.hbm, 8 * stackBytes - 4⟩ 4] plain)
     let ch := channelOf (8 * stackBytes - 4)
     decide (ch < 32 ∧ s.mach.oldestAt 7 ch = some (request 90 .read ⟨.hbm, 8 * stackBytes - 4⟩ 4) ∧
       vget (vget s.dev.cellars 7 CellarRegs.reset).age ch 0 = 64 ∧ 0 + 16 * 64 ≤ s.mach.cyc.toNat)) = true ∧
    ((cycle 1024 plain).mach.idleFor 7 63 = some 1024 ∧ (vget plain.dev.cellars 7 CellarRegs.reset).pdt = 64) ∧
    ((cycle 2097152 plain).mach.idleFor 0 0 = some 2097152 ∧ (vget plain.dev.cellars 0 CellarRegs.reset).srt = 2048) ∧
    (chan7 .toCompute false).mach.chan 7 29 = { mode := .toCompute, fnrm := false, attn := 0, attnEnd := 2048, aged := none } ∧
    (chan7 .compute true).mach.chan 7 29 = { mode := .compute, fnrm := true, attn := 0, attnEnd := 2048, aged := none } ∧
    ((chan7 .compute false).mach.chan 7 29).attnEnd + 2048 ≤ (chan7 .compute false).mach.cyc.toNat ∧
    (chan7 .toNormal true).mach.chan 7 29 = { mode := .toNormal, fnrm := true, attn := 0, attnEnd := 2048, aged := none } ∧
    (chan7 .toNormal true).mach.ctx.ops = [] := by decide +kernel

/-- The last frame of HBM backed by the tier's first page. -/
def backedFrame : State := staged { plain with mach := { plain.mach with backed := [(8 * stackBytes / 65536 - 1, 0)] } }

theorem witness_ErrorsAreRepaired :
    (8 * stackBytes - 1) / 64 * 64 < 8 * stackBytes ∧
    plain.mach.mem.poisoned { space := .hbm, addr := (8 * stackBytes - 1) / 64 * 64 } = false ∧
    plain.mach.parityHolds (8 * stackBytes - 64) = true ∧
    ({ plain.mach with mem := plain.mach.mem.setPoison ⟨.hbm, (parityGroup (8 * stackBytes - 64)).headD 0⟩ true } : Mach).parityHolds
      (8 * stackBytes - 64) = false ∧
    (plain.mach.ctx.grids.map (·.handle)).length = 1 ∧
    backedFrame.mach.tierSource backedFrame.dev (8 * stackBytes - 64) = some 65472 ∧
    plain.mach.tierSource plain.dev (8 * stackBytes - 64) = none ∧
    (plain.mach.group? 1).any (fun g => g.frozen.isNone && !g.retired) = true ∧
    (5119 : Nat) * 64 < 327680 := by decide +kernel

theorem witness_BootFirmwareAndPower :
    State.reset.dev.st = .reset ∧ State.reset.dev.fwst ≠ .busy ∧
    (match (after (.firmwareUpdate 0xFFFFFFFFFFFFFFFF) State.reset).dev.fwjob with
      | some (.update a _) => decide (a = 0x00FFFFFFFFFFF000)
      | _ => false) = true ∧
    (after (.attestationRequest 0x5000) State.reset).dev.fwjob = some (.attest 0x5000) ∧ 0x5000 % 64 = 0 ∧
    (cycle 1024 State.reset).mach.govFrom + 1024 ≤ (cycle 1024 State.reset).mach.cyc.toNat ∧
    (cycle 1023 State.reset).mach.cyc.toNat < (cycle 1023 State.reset).mach.govFrom + 1024 ∧
    State.reset.dev.alert = false ∧ ({ State.reset.mach with attnInWindow := true } : Mach).attnInWindow = true ∧
    State.reset.dev.gstep.toNat ≤ 4 ∧ (cycle 4096 State.reset).mach.attnLast + 4096 ≤ (cycle 4096 State.reset).mach.cyc.toNat ∧
    ({ State.reset with dev := { State.reset.dev with st := .failed } } : State).dev.st = .failed ∧
    1840 ≤ (1840#16).toNat ∧ (1600 ≤ (1839#16).toNat ∧ (1839#16).toNat < 1840) ∧ (1600 ≤ (1600#16).toNat ∧ (1600#16).toNat < 1840) ∧
    (1599#16).toNat < 1600 := by decide +kernel

-- which images are signed and fresh is the module's own affair (Config): each case of the boot's checks is one of these
theorem witness_BootImages :
    let names := (List.range imagePlaces).map State.reset.dev.imageAt
    (∃ x ∈ names, Config.imageSigned x = false) ∨ (∀ x ∈ names, Config.imageSigned x = true) ∧
      ((∃ x ∈ names, imageFresh x = false) ∨ ∀ x ∈ names, imageFresh x = true) := by
  intro names
  have dich : ∀ (f : Nat → Bool), (∃ x ∈ names, f x = false) ∨ ∀ x ∈ names, f x = true := fun f => by
    by_cases h : ∀ x ∈ names, f x = true
    · exact .inr h
    · simp only [Classical.not_forall, Bool.not_eq_true] at h
      obtain ⟨x, hx, h⟩ := h
      exact .inl ⟨x, hx, h⟩
  exact (dich Config.imageSigned).imp_right (fun h => ⟨h, dich imageFresh⟩)
/-! ## Witnesses: operations, engines, lines, groups, frames -/

/-- The load of `answering` with its values and no request left. -/
def answered : State :=
  let s := { answering with mach := { answering.mach with net := answering.mach.net.filter (fun p => p.op == 5) } }
  after (.reply 7) (after (.reply 6) s)

theorem witness_OperationsComplete :
    (answered.mach.op? 5).any (fun o => o.lost.isEmpty && !o.writes.isEmpty && !answered.mach.opPending 5 &&
      decide (o.instr ∈ [Instr.ld (wg 4 202 2 3 0x81A), .st (wg 4 202 2 3 0x81A)]) &&
      (answered.mach.group? o.gid).isSome) = true := by decide +kernel

/-- An operation, and what holds of it while it runs and its lane `l` and another have no result. -/
def opWith (s : State) (id l : Nat) (q : Op → Bool) : Bool :=
  (s.mach.op? id).any (fun o => decide (o.st = .running) && o.mask.has l && q o)

/-- HINS of name 0 in every lane, issued on an empty table. -/
def inserting : State :=
  after (.hins (wg 4 193 1 2 0)) (at1 (.hins (wg 4 193 1 2 0)) (fun g => setS 1 0x2000 (setV 1 0 (setV 2 0 g))) withTable)

/-- TEXF of every lane, issued. -/
def filtering : State :=
  after (.texf (wg 4 193 8 12 0)) (at1 (.texf (wg 4 193 8 12 0)) (fun g => setS 1 0x2000 (setV 8 0 (setV 9 0 g)))
    (fun s => putWords .hbm 0x40002000 [0x4000, 2 ^ 32 + 16384 * 65536 + 1, 0, 0, 0, 0, 0, 0] (mapped s)))

/-- ATTN of two commands to channel 1 of stack 0, issued, the channel in COMPUTE. -/
def attending : State :=
  let s := after (.attn { wg 0 1 0 0 0 with grd := 0 }) (at1 (.attn { wg 0 1 0 0 0 with grd := 0 })
    (fun g => setLanesV 1 (64 * ·) { g with p := vset g.p 0 3 })
    (putWords (.core 0) 0 [64 * 2 ^ 32 + 4096, 16, 1 * 2 ^ 48, 0, 0, 0, 0, 0, 64 * 2 ^ 32 + 8192, 16, 1 * 2 ^ 48, 0, 0, 0, 0, 0]))
  { s with mach := s.mach.modChan 0 1 (fun c => { c with mode := .compute }) }

/-- MDRAIN of tile 0 to tile 7 of its own team, whose rows have been read. -/
def draining : State :=
  let s := after (.mdrain (wg 0 0 0 195 16)) (at1 (.mdrain (wg 0 0 0 195 16)) (setS 3 (7 * 2 ^ 32)))
  { s with mach := { s.mach with ctx := { s.mach.ctx with
      ops := s.mach.ctx.ops.map (fun o => { o with recs := List.replicate 4096 0, aux := 1 }) } } }

theorem witness_EnginesPerformUnits :
    opWith inserting 5 0 (fun o => decide (o.instr = .hins (wg 4 193 1 2 0)) && !o.laneDone 0 && (o.mask.has 31 && !o.laneDone 31) &&
      !lowerFirst inserting.dev inserting.mach o (tableOf o.recs) 0 &&
      !inserting.mach.writesBehind o &&
      (updateTable inserting.dev inserting.mach o (tableOf o.recs) o.cap.sa.toNat true (capLane o.cap.vb 0) (capLane o.cap.vc 0)).toOption.isSome) = true ∧
    opWith filtering 5 31 (fun o => decide (o.instr = .texf (wg 4 193 8 12 0)) && !o.laneDone 31 && (o.mask.has 0 && !o.laneDone 0) &&
      !filtering.mach.writesBehind o && match textureSample filtering.dev filtering.mach o (textureOf o.recs).1 false (capF32 o.cap.vb 0 31) (capF32 o.cap.vb 1 31) (capF32 o.cap.vb 2 31) with
      | .ok (_, some _) => true
      | _ => false) = true ∧
    opWith attending 5 0 (fun o => decide (o.instr = .attn { wg 0 1 0 0 0 with grd := 0 }) && (attending.mach.team? o.team).isSome &&
      !o.attnDone 0 && o.attnTaken 0 && (o.mask.has 1 && !o.attnDone 1) && decide ((attnLaneCmd o 0).reject = 0) &&
      decide ((attending.mach.chan (attnLaneCmd o 0).stk (attnLaneCmd o 0).ch).mode = .compute) &&
      !attending.mach.channelBehind o (attnLaneCmd o 0).stk (attnLaneCmd o 0).ch &&
      !attending.mach.writesBehind o &&
      (let a := attnLaneCmd o 0
       let m : Mach := { attending.mach.modChan a.stk a.ch (fun c => { c with attn := c.attn - 1, attnEnd := attending.mach.cyc.toNat })
         with attnInWindow := true, attnLast := attending.mach.cyc.toNat }
       (runAttn attending.dev m a (attnQ o 0 a.dlen)).2.isSome)) = true ∧
    opWith draining 5 0 (fun o => decide (o.instr = .mdrain (wg 0 0 0 195 16)) && !o.recs.isEmpty && o.aux != 0 &&
      decide (o.pix + 1 < (regionOf (wg 0 0 0 195 16).mod).rows) && (draining.mach.drainTarget o.grid o.cap.sc).isSome &&
      draining.mach.tileTurn o && !(draining.mach.tile 0 7).bad) = true :=
  ⟨by decide +kernel, by decide +kernel, by decide +kernel, by decide +kernel⟩

/-- Nothing hinders an operation, and bytes are sound: Unhindered and SoundAt as they are computed. -/
def unhindered (s : State) (o : Op) : Bool :=
  o.st == .running && s.mach.net.all (fun p => p.performed || (p.core != o.core && p.loc.space == .hbm)) &&
    (s.mach.unsentBytes s.dev o.gid o.seq).isEmpty && s.mach.own.all (fun x => x.2 == o.id)
def sound (m : Mach) (l : Loc) (n : Nat) : Bool := isNear l && (List.range n).all (fun k => !m.mem.poisoned (l.add k))

/-- A word under P0, which holds in lane 0 alone, issued in a state. -/
def issued (i : Instr) (f : Group → Group) (h : State → State) : State :=
  after i (at1 i (fun g => f { g with p := vset g.p 0 1 }) h)

/-- HPROBE, HREH and HGF of lane 0 and another. -/
def probing : State :=
  issued (.hprobe { wg 1 193 2 3 0 with grd := 0 }) (fun g => setS 1 0x2000 (setV 2 0 (setV 1 0 g))) withTable
def rehashing : State :=
  issued (.hreh (wg 192 193 194 0 0)) (fun g => setS 1 0x2000 (setS 2 256 g)) (fun s => putWords .hbm 0x40002020 [2] (withTable s))
def gridding : State :=
  issued (.hgf { wg 4 193 8 12 0 with grd := 0 }) (fun g => setS 1 0x2000 (setLanesV 4 (16 * ·) (setV 8 0 (setV 9 0 (setV 10 0
    { g with p := vset g.p 0 3 }))))) (fun s => putWords .hbm 0x40002000 [0x4000, 22 * 2 ^ 32 + 2 ^ 24] (mapped s))

theorem witness_EnginesServeTables :
    opWith probing 5 0 (fun o => unhindered probing o && decide (o.pix < o.mask.count * probeTables { wg 1 193 2 3 0 with grd := 0 }) &&
      match probing.mach.team? o.team, probeUnit probing.dev probing.mach o 0 (capLane o.cap.vb 0) with
      | some tm, .ok ids => sound probing.mach (coreLoc tm (capLane o.cap.vd 0)) (0x100 + 4 * ids.length)
      | _, _ => false) = true ∧
    opWith rehashing 5 0 (fun o => !rehashing.mach.writesBehind o && decide (o.pix < o.cap.sb.toNat % 2 ^ 32) &&
      (splitBucket rehashing.dev rehashing.mach o (tableOf o.recs) o.cap.sa.toNat).toOption.isSome) = true ∧
    opWith gridding 5 0 (fun o => !gridding.mach.writesBehind o && !o.laneDone 0 && (o.mask.has 1 && !o.laneDone 1) &&
      match gridding.mach.team? o.team, (gridLevels o.recs).foldlM (fun (acc : Mach × List Machine.Num) g => do
          let (m, xs) ← gridSample gridding.dev acc.1 o g [capF32 o.cap.vb 0 0, capF32 o.cap.vb 1 0, capF32 o.cap.vb 2 0]
          return (m, acc.2 ++ xs)) (gridding.mach, ([] : List Machine.Num)) with
      | some tm, .ok (_, xs) => sound gridding.mach (coreLoc tm (capLane o.cap.vd 0)) (4 * xs.length)
      | _, _ => false) = true :=
  ⟨by decide +kernel, by decide +kernel, by decide +kernel⟩

/-- Stream 0 is a compressed level of size 100 whose coordinates 5, 7, 9 stand at 64 in the core store, stream 1 a dense one
that has come to 5. -/
def streaming (i : Instr) (f : Group → Group := id) : State :=
  let a : Stream := { Stream.closedReg with st := .opened, fin := 3, spec0 := 0x5000000000000064, spec2 := 64 }
  let b : Stream := { Stream.closedReg with st := .opened, fin := 50, cur := 5, spec0 := 0x64 }
  after i (at1 i (fun g => f { g with f := vset (vset g.f 0 a) 1 b }) (putWords (.core 0) 64 [5 + 7 * 2 ^ 32, 9]))

/-- The next entry of stream `n` of an operation has coordinate `c`. -/
def takes (s : State) (n c : Nat) (q : Op → Bool) : Bool :=
  (s.mach.op? 5).any (fun o => decide (o.st = .running) && !s.mach.streamBehind o && o.lost.isEmpty && o.writes.isEmpty && q o &&
    match takeEntry s.dev s.mach o n with
    | .ok (m, some (x, bad)) => !bad && decide (x.crd = c) && (m.group? o.gid).any (fun g => !g.retired && g.stream n == s.mach.opStream o n) &&
        m.op? 5 == some o
    | _ => false)

theorem witness_EnginesWalkStreams :
    takes (streaming (.snext (wg 190 0 0 192 0))) 0 5 (fun o => decide (o.pix < o.mask.count)) = true ∧
    takes (streaming (.snext (wg 190 1 0 192 0))) 1 5 (fun o => decide (o.pix < o.mask.count)) = true ∧
    [5, 6].map (fun c => takes (streaming (.sskip (wg 192 0 193 0 0)) (setS 1 c)) 0 5 (fun o => decide (o.cap.sb.toNat = c))) = [true, true] ∧
    [Instr.sunion (wg 8 0 1 204 0), .sisect (wg 8 0 1 204 0)].map (fun i => takes (streaming i) 0 5 (fun o =>
      decide (o.pix < o.mask.count ∧ (streaming i).mach.opStream o 1 = (streaming i).mach.opStream o 1)) && takes (streaming i) 1 5 (fun _ => true)) =
        [true, true] ∧
    takes (streaming (.sskip (wg 192 1 193 0 0)) (setS 1 2000)) 1 5 (fun o => let f := (streaming (.sskip (wg 192 1 193 0 0))).mach.opStream o 1
      decide (f.kind = 0 ∧ f.cur.toNat < f.fin.toNat)) = true :=
  ⟨by decide +kernel, by decide +kernel, by decide +kernel, by decide +kernel, by decide +kernel⟩

/-- HCODE and BFILL issued. -/
def coding : State :=
  issued (.hcode { wg 4 1 3 0 0 with grd := 0 }) (setV 1 32) (fun s => { s with mach := s.mach.modTeam 2 (fun t =>
    { t with hash := vset t.hash 3 (some { planes := 128, pfmt := 0x0D, dim := 16, lt := 1, kb := 2 }) }) })
def filling : State := after (.bfill (wg 0 193 194 0 0)) (at1 (.bfill (wg 0 193 194 0 0)) (fun g => setS 1 (65536 + 16383) (setS 2 4 g)))

theorem witness_EnginesNeverStop :
    opWith coding 5 0 (fun o => unhindered coding o && o.writes.isEmpty && o.lost.isEmpty && o.gone.isEmpty &&
      match coding.mach.team? o.team, o.fam with
      | some tm, some f => sound coding.mach (coreLoc tm f.planes) (f.lt * f.kb * f.dim * f.es) && o.mask.lanes.all (fun k =>
          sound coding.mach (coreLoc tm (vget (o.cap.va.headD (laneFn (fun _ => 0))) k 0).toNat) (f.dim * f.es))
      | _, _ => false) = true ∧
    (filling.mach.op? 5).any (fun o => unhindered filling o && o.lost.isEmpty && decide (bitsAt o.cap.sa 0 16 + bitsAt o.cap.sa 16 16 ≤ 16384) &&
      !filling.mach.channelBehind o (bitsAt o.cap.sa 37 3) (bitsAt o.cap.sa 32 5) &&
      (filling.mach.team? o.team).any (fun tm => sound filling.mach (coreLoc tm o.cap.sb.toNat) (4 * bitsAt o.cap.sa 16 16))) = true :=
  ⟨by decide +kernel, by decide +kernel⟩

/-- A COPY that has waited for a line, now free. -/
def waiting : State :=
  let i : Instr := .copy (wg 192 193 194 195 0)
  let s := at1 i (fun g => setS 1 0 (setS 2 4096 (setS 3 64 g)))
  let s := after i { s with mach := { s.mach with own := (pieceLines [(⟨.core 0, 4096⟩, 64)]).map (fun k => (k, 77)) } }
  { s with mach := { s.mach with own := s.mach.own.filter (fun p => p.2 != 77), cyc := s.mach.cyc + 4 } }

/-- The COPY has issued. -/
def retaken : State := after (.copy (wg 192 193 194 195 0)) { waiting with mach := { waiting.mach with cur := 1 } }

/-- An access of an engine needs no change of the machine and lies at a sound place. -/
def reaches (s : State) (r : Except Halt (Mach × Loc)) (n : Nat) (q : Loc → Bool) : Bool :=
  match r with
  | .ok (m, l) => m == s.mach && sound s.mach l n && q l
  | .error _ => false
def spans (s : State) (r : Except Halt (Mach × List (Loc × Nat × Nat))) (n : Nat) (q : Loc → Bool) : Bool :=
  match r with
  | .ok (m, [(l, k, _)]) => m == s.mach && k == n && sound s.mach l n && q l
  | _ => false

/-- The bytes at a place have not been overwritten by their own operation. -/
def untouched (o : Op) (l : Loc) (n : Nat) : Bool := (List.range n).all (fun k => o.before.all (fun x => x.1 != l.add k))

/-- With another value where the promise, a free value, stands. -/
def unpromised (s : State) : State := { s with mach := s.mach.modGroup 1 (setS 0 0) }
def copying : State := unpromised retaken

/-- GTHA of four rows of 32 bytes whose second index is all ones; TMOV of two elements from a source of which the second
box row lies outside, or to such a destination. -/
def gathering (md : Nat) : State :=
  let i : Instr := .gtha (wg 192 193 194 196 md)
  unpromised <| after i (at1 i (fun g => setS 1 0 (setS 2 4096 (setS 4 8192 (setS 5 (4 * 2 ^ 24 + 32) g)))) (putWords (.core 0) 4096 [0xFFFFFFFF]))
def moving (so d : Nat) : State :=
  let i : Instr := .tmov (wg 192 193 194 195 0)
  unpromised <| after i (at1 i (fun g => setS 1 0 (setS 2 128 (setS 3 256 g))) (fun s =>
    putWords (.core 0) 0 tensorRecord (putWords (.core 0) 128 (0x8000 :: tensorRecord.drop 1)
      (putWords (.core 0) 256 [so * 2 ^ 32, 0, 0, 0, d * 2 ^ 32, 0, 0, 0, 1 + 2 * 65536, 0, 0, 0, 0, 0, 0, 0] s))))

theorem witness_TransfersMoveElements :
    (copying.mach.op? 5).any (fun o => unhindered copying o && decide (o.pix + 1 < 64 / 16) &&
      reaches copying (opAddr copying.dev copying.mach o o.mask 0 .engineRead 16 (spAddr 0 0)) 16 (fun l => untouched o l 16) &&
      reaches copying (opAddr copying.dev copying.mach o o.mask 0 .engineWrite 16 (spAddr 0 4096)) 16 (fun _ => true)) = true ∧
    [(16, 0xFFFFFFFF), (0, 0)].map (fun (md, x) => let s := gathering md
      (s.mach.op? 5).any (fun o => unhindered s o && decide (gthaGeo (o.recs.getD 0 0) = (4, 32)) &&
        reaches s (opAddr s.dev s.mach o o.mask 0 .engineRead 4 (spAddr 0 (spAddr 0 o.cap.sb.toNat + (if md = 0 then 4 else 0)))) 4
          (fun l => s.mach.mem.readNat l 4 == x) &&
        spans s (opSpan s.dev s.mach o 0 .engineWrite (spAddr 0 (spAddr 0 o.cap.sc.toNat)) 32) 32 (fun _ => true) &&
        spans s (opSpan s.dev s.mach o 0 .engineRead (spAddr 0 (spAddr 0 o.cap.sa.toNat)) 32) 32 (fun l => untouched o l 32))) =
      [true, true] ∧
    [(0, 0), (32, 0), (0, 32)].map (fun (so, d) => let s := moving so d
      (s.mach.op? 5).any (fun o => let v := moveOf o.recs
        unhindered s o && decide (o.pix + 1 < v.count ∧ v.piece o.pix = 1) &&
          (v.src.inside (v.at 0).1 == (so == 0)) && (v.dst.inside (v.at 0).2 == (d == 0)) &&
          (d != 0 || reaches s (opAddr s.dev s.mach o o.mask v.dst.tspc .engineWrite 4 (v.dst.addr (v.at 0).2)) 4 (fun _ => true)) &&
          (so != 0 || reaches s (opAddr s.dev s.mach o o.mask v.src.tspc .engineRead 4 (v.src.addr (v.at 0).1)) 4
            (fun l => untouched o l 4 && (List.range 4).all (fun k => o.held.all (fun x => x.1 != l.add k)))))) = [true, true, true] :=
  ⟨by decide +kernel, by decide +kernel, by decide +kernel⟩

/-- MMA of 64 steps of K over 32 by 16 elements of tile 7, from maps or from tile 1; the other three words on such regions. -/
def tiling (i : Instr) (f : Group → Group := id) : State :=
  after i (at1 i (fun g => let p : OpMap := { a := 0, b := BitVec.ofNat 64 (64 * 2 ^ 32 + 128), c := 0 }
    f (setV 20 0 { g with m := vset (vset g.m 3 (some p)) 1 (some { p with c := 4 }) })))

/-- The operation 5 may act on its tiles, which are sound. -/
def tilesReady (s : State) (q : Op → Bool) : Bool :=
  (s.mach.op? 5).any (fun o => unhindered s o && s.mach.tileTurn o && (s.mach.tileUses o).all (fun u => !(s.mach.tile u.1 u.2.1).bad) && q o)

theorem witness_TilesMoveElements :
    [0xC00, 0xC10].map (fun md => let s := tiling (.mma (wg 7 1 3 20 md))
      tilesReady s (fun o => match o.maps with
        | [ma, mb] =>
          let f := formatOf (o.recs.getD 0 0).toNat
          let offs := chunkOffsets f (md == 0xC10) ma mb (regionOf (BitVec.ofNat 12 md)) o.pix
          (s.mach.team? o.team).any (fun tm => (offs.1 ++ offs.2.1).all (fun x => sound s.mach (coreLoc tm x) f.es)) && offs.2.2.isEmpty &&
            decide (o.pix + 1 < mb.klen / f.chunk)
        | _ => false)) = [true, true] ∧
    tilesReady (tiling (.mzero (wg 7 0 0 0 0xC00))) (fun o => o.lost.isEmpty && o.pix == 0) = true ∧
    tilesReady (tiling (.mlda (wg 0 193 194 0 0xC00)) (fun g => setS 1 0 (setS 2 512 g))) (fun o =>
      let s := tiling (.mlda (wg 0 193 194 0 0xC00)) (fun g => setS 1 0 (setS 2 512 g))
      decide (o.pix + 1 < 32) && (s.mach.team? o.team).any (fun tm => sound s.mach (coreLoc tm o.cap.sa.toNat) 64)) = true ∧
    tilesReady (tiling (.mdrain (wg 192 7 194 0 0xC00)) (setS 2 (0x0C * 2 ^ 32 + 64))) (fun o =>
      let s := tiling (.mdrain (wg 192 7 194 0 0xC00)) (setS 2 (0x0C * 2 ^ 32 + 64))
      decide (o.pix + 1 < 32 ∧ tyWidth (drainTy o.cap.sb) = 32) &&
        (s.mach.team? o.team).any (fun tm => sound s.mach (coreLoc tm o.cap.sd.toNat) 64)) = true :=
  ⟨by decide +kernel, by decide +kernel, by decide +kernel, by decide +kernel⟩

theorem witness_LinesAndLeaves :
    (match waiting.mach.group? 1 with
      | some g => g.ownWait.isSome && waiting.mach.canIssue g && !waiting.mach.deliverable g &&
          issuing { waiting with mach := { waiting.mach with cur := 1 } } (fun _ _ p cl =>
            decide (ofOpcode (bitsAt (cl.words.getD (p.idx - 1) 0) 54 10) (cl.words.getD (p.idx - 1) 0) = some (Instr.copy (wg 192 193 194 195 0))))
      | none => false) = true ∧
    (retaken.mach.op? 5).any (fun o => (retaken.mach.linesLeft retaken.dev o).any (fun ls =>
      !ls.isEmpty && !ls.contains ⟨.core 0, 5119⟩)) = true ∧
    (!(mapped plain).mach.transHeld (mapped plain).dev 0 none (2 ^ 30 - 1) &&
      !(mapped plain).mach.transHeld (mapped plain).dev 0 none (2 ^ 56 - 1)) = true ∧
    (match translate (mapped plain).dev (mapped plain).mach 0 .laneWrite (2 ^ 30 - 1) with
      | (_, .ok _) => true
      | _ => false) = true ∧
    (match translate (mapped plain).dev (mapped plain).mach 0 .fetch (2 ^ 56 - 1) with
      | (_, .error _) => true
      | _ => false) = true :=
  ⟨by decide +kernel, by decide +kernel, by decide +kernel, by decide +kernel, by decide +kernel⟩
/-- The running group's place in the active and pending sets, at cycle `n`. -/
def turned (n : Nat) (f : Sched → Sched) (g : Group → Group := id) : State :=
  cycle n (plain (fun x => { g x with sched := f x.sched }))

/-- A further group of the same team and quarter. -/
def beside (f : Group → Group) (s : State) : State :=
  { s with mach := { s.mach with ctx := { s.mach.ctx with groups := s.mach.ctx.groups ++
      (s.mach.ctx.groups.map (fun g => f { g with gid := 9, num := 4, slot := 1 })) } } }

/-- The group 1 of a state. -/
def group1 (s : State) (q : Group → Bool) : Bool := (s.mach.group? 1).any q

/-- A clause header next in the group, which waits for flag 0, and a flag that is not zero. -/
def held : State :=
  at1 (.clauseHeaderIssue { goodHeader with wait := 1 })
    (fun g => { g with k := vset g.k 0 1, sched := { g.sched with waitSince := some 84 } }) (cycle 100)

/-- The running group pending and ready for 1,024 cycles, beside an active one. -/
def claiming : State :=
  beside (fun g => { g with sched := { g.sched with active := true, readySince := none, since := 7 } })
    (turned 1024 (fun x => { x with active := false, readySince := some 0 }))

/-- A header with SWP next, that waits for flag 0. -/
def heldSwp : State :=
  at1 (.clauseHeaderIssue { goodHeader with wait := 1, swp := true }) (fun g => { g with k := vset g.k 0 1 })

/-- The same claim beside a further pending group that has been ready as long, of a higher number. -/
def claimingFirst : State :=
  let gs := claiming.mach.ctx.groups
  let more := (gs.filter (·.gid == 1)).map (fun g => { g with gid := 10, num := 8, slot := 2 })
  { claiming with mach := { claiming.mach with ctx := { claiming.mach.ctx with groups := gs ++ more } } }

/-- A promise whose deadline has come in time, or has been missed. -/
def promised (n d : Nat) (z : Option Word) : State :=
  turned n id (fun g => { g with clause := none, sleep := some (.promise (BitVec.ofNat 64 d) 11 8 1 5 0 z (16, 0)) })

/-- A barrier that has gone on, and a group that waits for its phase 0; an arrival deferred to barrier 15. -/
def arriving : State :=
  let s := plain (fun g => { g with barWaits := [⟨0, 1, 0, BitVec.allOnes 32, .team 2 3, 0⟩], deferred := [⟨2, 15, 1, [40]⟩] })
  { s with mach := s.mach.modTeam 2 (fun t => { t with bars := vset t.bars 3 { ph := 1, cnt := 0, tgt := 0 } }) }

/-- A trap that waits outside a queue of seven. -/
def crowded : State :=
  let u : Trap := { cause := 11, kind := .n, mask := 1, off := 8, info := 0, regcnt := 0, op := none, seq := 0 }
  plain (fun g => { g with traps := List.replicate 7 u, trapsOut := [u, u] })

theorem witness_GroupsTakeTurns :
    (let s := turned 64 (fun x => { x with readySince := some 0 })
     group1 s (fun g => g.sched.active && s.mach.isReady s.dev g && decide (g.sched.readySince = some 0))) = true ∧
    group1 held (fun g => g.sched.active && decide (g.sched.waitSince = some 84) && held.mach.stillWaits held.dev g &&
      !held.mach.deliverable g) = true ∧
    group1 heldSwp (fun g => g.sched.active && !heldSwp.mach.deliverable g && (heldSwp.mach.headerAt heldSwp.dev g).any (fun h => h.swp && !waitHolds g h)) = true ∧
    ((claimingFirst.mach.ctx.groups.map (·.gid)).Nodup ∧ group1 claimingFirst (fun g => (claimingFirst.mach.inQuarter g.core g.quarter).all (fun h =>
      !h.sched.claim && (h.gid == 1 || h.sched.active || (claimingFirst.mach.isReady claimingFirst.dev h &&
        decide (h.sched.readySince = g.sched.readySince ∧ h.placed = g.placed ∧ g.num < h.num))))) = true) ∧
    ((claiming.mach.ctx.groups.map (·.gid)).Nodup ∧ group1 claiming (fun g => !g.sched.active && claiming.mach.isReady claiming.dev g &&
      (claiming.mach.inQuarter g.core g.quarter).all (fun h => !h.sched.claim) &&
      (claiming.mach.inQuarter g.core g.quarter).any (fun h => h.sched.active)) = true) ∧
    group1 claiming (fun g => decide (claiming.mach.activeCount g.core g.quarter < 8) &&
      (claiming.mach.nextIn claiming.dev g.core g.quarter).map (·.gid) == some 1) = true :=
  ⟨by decide +kernel, by decide +kernel, by decide +kernel, by decide +kernel, by decide +kernel, by decide +kernel⟩

-- the clauses on sleep, promises, barriers and waiting traps
theorem witness_GroupsWake :
    group1 (turned 100 id (fun g => { g with clause := none, sleep := some (.until 100) })) (fun g =>
      g.clause.isNone && decide (g.sleep = some (.until 100))) = true ∧
    group1 (promised 100 100 (some 99)) (fun g => g.clause.isNone && decide (g.flagCount 11 = 0)) = true ∧
    group1 (promised 101 100 (some 100)) (fun g => g.clause.isNone && decide (g.flagCount 11 = 0) && !g.retired &&
      ((promised 101 100 (some 100)).mach.gridOfGroup? g).any (·.hdr.hv)) = true ∧
    group1 arriving (fun g => g.barWaits.any (fun b => (arriving.mach.barrier b.bar).ph != b.phase) &&
      g.deferred.any (fun d => decide (d.bar < 16) && d.target != 0 && arriving.mach.ctx.ops.all (fun o => !d.ops.contains o.id))) = true ∧
    group1 crowded (fun g => !g.trapsOut.isEmpty && decide (g.traps.length < 8)) = true :=
  ⟨by decide +kernel, by decide +kernel, by decide +kernel, by decide +kernel, by decide +kernel⟩

/-- One frame of `n` registers, all of them reserved. -/
def oneFrame (n : Nat) (g : Group) : Group :=
  { g with links := [{ reto := 0, cato := 0, base := 0, dem := n, win := 0, cm := false, held := n }] }

/-- The running group is blocked on its frame of level 1 since cycle 0; the pending group 8 and the active group 10
hold the quarter's other registers. -/
def blocked (n : Nat) : State :=
  let s := turned n (fun x => { x with active := false })
  let pending (g : Group) : Group := { oneFrame 128 g with gid := 8 }
  let active (g : Group) : Group := { oneFrame 192 g with gid := 10, sched := { g.sched with active := true } }
  let two (g : Group) : Group :=
    { oneFrame 192 g with
      links := (oneFrame 192 g).links ++ [{ reto := 0, cato := 0, base := 128, dem := 192, win := 64, cm := false, held := 0 }]
      lanes := g.lanes.map (fun p => { p with level := 1 })
      sched := { g.sched with blockedSince := some 0 } }
  let gs := s.mach.ctx.groups
  { s with mach := { s.mach with ctx := { s.mach.ctx with groups := gs.map two ++ gs.map pending ++ gs.map active } } }

/-- The blocked group's 128 registers are free. -/
def grantable : State :=
  let s := blocked 0
  { s with mach := { s.mach with ctx := { s.mach.ctx with groups := s.mach.ctx.groups.filter (fun g => g.gid != 8) } } }

theorem witness_DroverTakesAndGrants :
    ((blocked 1024).mach.ctx.groups.map (·.gid)).Nodup ∧
    ((blocked 0).mach.oldestBlocked 0 0).any (fun o => decide (o.gid = 1 ∧ o.sched.blockedSince = some 0)) = true ∧
    ((blocked 256).mach.oldestBlocked 0 0).any (fun o => decide (o.sched.blockedSince = some 0 ∧ 0 < o.level)) = true ∧
    ((blocked 1024).mach.oldestBlocked 0 0).any (fun o => decide (o.sched.blockedSince = some 0)) = true ∧
    group1 grantable (fun g => g.sched.blockedSince.isSome && decide (g.frameNeed ≤ grantable.mach.freeRegs g.core g.quarter) &&
      !grantable.mach.stage3 g) = true ∧ AllServed (blocked 0) ∧ AllServed (blocked 256) ∧ AllServed (blocked 1024) ∧
    AllServed grantable :=
  ⟨by decide +kernel, by decide +kernel, by decide +kernel, by decide +kernel, by decide +kernel, allServed (by decide +kernel),
    allServed (by decide +kernel), allServed (by decide +kernel), allServed (by decide +kernel)⟩
/-! ## Witnesses: graphs, placement, requests to the distributor -/

/-- The descriptor of graph 255 at 0x3000, with 8 bytes of parameters and GDONE at 0x8000: a COPY of 20 bytes from 0x5000
to 0x9000, then a kernel of one team of 1,024 lanes, a HOSTWAIT for flag 255 and a SIGNAL of it with IRQ. The
kernel's header at 0x4000, a patch list at 0x7000. -/
def graphImages (s : State) : State :=
  let node (ws : List Nat) : List Nat := ws ++ List.replicate (8 - ws.length) 0
  let g := node [0xAE0A * 2 ^ 48 + 2 ^ 40 + 255 * 2 ^ 32, 2 ^ 16 + 4, 8, 0x8000] ++
    node [2 ^ 60, 0x5000, 0x9000, 20] ++ [0, 0x4000, 1, 2 ^ 16 + 1, 8 * 2 ^ 32, 0x8008, 0x10000, 2 ^ 21] ++
    node [2 * 2 ^ 60, 255, 2 ^ 63] ++ node [3 * 2 ^ 60, 511, 2 ^ 63] ++ node [2 ^ 16] ++ [77]
  let k := [0xAE09 * 2 ^ 48 + 2 ^ 40, 16 * 2 ^ 32 + 64, 2 ^ 32 + 2 ^ 16 + 1024, 64 * 2 ^ 32 + 8 * 2 ^ 28 + 2 ^ 20 + 2 ^ 16 + 5120, 0, 0, 0, 0]
  putWords .hbm 0x40003000 g (putWords .hbm 0x40004000 k (putWords .hbm 0x40007000 [0xAE0B * 2 ^ 48 + 1, 0, 99] (mapped s)))

/-- A running context without work, and the descriptors in its memory. -/
def idle : State := graphImages { State.reset with dev := { State.reset.dev with ctxst := .running } }

/-- The kernel of its node 1, and the graph. -/
def kernel255 : KernelHeader :=
  { codeb := 16, codeo := 64, tx := 1024, ty := 1, tz := 1, frame := 64, tiles := 8, cw := 1, ch := 1, csl := 5120, entry := 0,
    hndl := 0, hv := false, homek := 64, constb := 0, consto := 0 }
def graph255 : Graph :=
  { gnum := 255, parea := 8, gdone := 0x8000,
    nodes := [.copy 0x5000 0x9000 20, .kernel 0x4000 kernel255 1 1 1 8 0 0x8008 0x10000 (2 ^ 21), .hostwait 255 (2 ^ 63),
      .signal true 255 (2 ^ 63)],
    edges := [(0, 1)], area := [(0, 77)], icomp := 0, ltr := 0, accepted := 0, insts := [] }

/-- The write of GUPL that names the descriptor; the graph uploaded, beside the patch list; an instance with its patch;
its start. After the write the header that gives the number is read, and then the check is made. -/
def gupl : State := after (.graphUpload 0x3000) idle
def unread : State := { gupl with dev := { gupl.dev with upload := { gupl.dev.upload with known := false } } }
def uploaded : State :=
  let s := putWords .hbm 0x40007000 [0xAE0B * 2 ^ 48 + 1, 0, 99] (mapped { State.reset with dev := { State.reset.dev with ctxst := .running } })
  { s with mach := { s.mach with ctx := { s.mach.ctx with graphs := [graph255] } } }
def triggered : State := after (.trigWrite 0xFF00000000007000) uploaded
def started : State := after (.instanceStart 255) triggered

/-- An upload that waits with another address, or with none. -/
def upload (a : Nat) : State := { uploaded with dev := { uploaded.dev with upload := { gupl.dev.upload with addr := a, known := true } } }

theorem witness_HostWrites :
    State.reset.dev.ctxst ≠ .running ∧ (idle.dev.ctxst = .running ∧ idle.dev.upload.busy = false ∧
      (0x3000#64).toNat % 64 = 0 ∧ (0x3000#64).toNat / 64 % 2 ^ 50 ≠ 0 ∧ (0xFF00000000000000#64).toNat / 64 % 2 ^ 50 = 0) ∧
    (unread.dev.upload.busy = true ∧ unread.dev.upload.known = false ∧
      (match headerGnum unread.dev unread.mach unread.dev.upload.addr with
       | .ok n => decide (n = 255)
       | _ => false) = true) ∧
    (gupl.dev.upload.busy = true ∧ gupl.dev.upload.known = true ∧ gupl.dev.upload.gnum = graph255.gnum ∧
      gupl.mach.ctx.graphBusy 255 = false ∧ gupl.dev.upload.addr ≠ 0 ∧ started.mach.ctx.graphBusy 255 = true) ∧
    (upload 0).dev.upload.addr = 0 ∧
    (checkGraph gupl.dev gupl.mach 0x3000).toOption = some graph255 ∧
    (match checkGraph gupl.dev gupl.mach 0x4000 with
      | .error (.code r k i) => decide ((r, k, i) = (1, 0, 65535))
      | _ => false) = true ∧
    idle.mach.ctx.graph? ((0xFF00000000007000#64).extractLsb' 56 8) = none ∧
    (match uploaded.mach.ctx.graph? 255 with
      | some g => !uploaded.dev.uploading 255 && decide (g.insts.length < 8 ∧ uploaded.mach.ctx.schedUsed none + g.parea ≤ 8388608) &&
          match patched uploaded.dev uploaded.mach g 0x7000 with
          | .ok area => decide (area = [(0, 99)])
          | _ => false
      | none => false) = true :=
  ⟨by decide +kernel, by decide +kernel, by decide +kernel, by decide +kernel, by decide +kernel, by decide +kernel,
    by decide +kernel, by decide +kernel⟩

/-- The COPY node's first unit, and its last of four bytes, and its end. -/
def copied (n : Nat) : State := after (.copyNode (.graph 255) 0 n) started

/-- Every node of the instance that runs stands as `f` says. -/
def nodesAre (f : Nat → NodeSt) (s : State) : State :=
  { s with mach := s.mach.modGraph 255 (fun g => { g with insts := g.insts.map (fun x => { x with nodes := (List.range 4).map f }) }) }

/-- A node of graph 255 in its place. -/
def nodeAt (s : State) (i : Nat) (q : Placed → Bool) : Bool := (s.mach.ctx.placed? (.graph 255) i).any q

/-- Host flag 255 has the HOSTWAIT's value. -/
def flagged : State :=
  { started with mach := { started.mach with ctx := { started.mach.ctx with hflags := Vector.replicate 256 (2 ^ 63) } } }

/-- The instance of graph 255 keeps a state for node `i`. -/
def kept (s : State) (i : Nat) : Bool :=
  (s.mach.ctx.graph? 255).any (fun g => g.current.any (fun x => decide (i < x.nodes.length)))

theorem witness_InstancesRun :
    (kept started 3 && nodeAt (nodesAre (fun i => if i = 0 then .done else .waiting) started) 1 (fun p => decide (p.st = .waiting) && p.started && p.preds)) = true ∧
    (kept started 2 && nodeAt started 2 (fun p => decide (p.node = .hostwait 255 (2 ^ 63)) && decide (p.st = .running))) = true ∧
    (2 ^ 63 : Word) ≤ vget flagged.mach.ctx.hflags 255 0 ∧
    nodeAt started 3 (fun p => decide (p.node = .signal true 255 (2 ^ 63)) && decide (p.st = .running)) = true ∧
    nodeAt (copied 1) 0 (fun p => decide (p.node = .copy 0x5000 0x9000 20) && decide (p.st = .copying 1 [] [])) = true ∧
    (match copyOne (copied 1).dev (copied 1).mach 0x5010 0x9010 4 with
      | .done _ => true
      | _ => false) = true ∧
    nodeAt (copied 2) 0 (fun p => decide (p.st = .copying 2 [] [])) = true ∧
    (triggered.mach.ctx.graph? 255).any (fun g => decide (g.insts.length = 1) && g.insts.all (fun x => !x.started && decide (x.nodes = g.nodes.map (fun _ => .waiting)))) = true ∧
    ((nodesAre (fun _ => .done) started).mach.ctx.graph? 255).any (fun g => g.insts.all (fun x => x.started && x.nodes.all (· == .done)) &&
      g.gdone != 0 && (distWrite started.dev started.mach g.gdone 8 1).isSome) = true :=
  ⟨by decide +kernel, by decide +kernel, by decide +kernel, by decide +kernel, by decide +kernel, by decide +kernel,
    by decide +kernel, by decide +kernel, by decide +kernel⟩

/-- The kernel node's grid, and its cluster placed. -/
def gridded : State := after (.nodeStart (.graph 255) 1) (nodesAre (fun i => if i = 0 then .done else .waiting) started)
def kernelHandle : BitVec 32 := instHandle 255 1 1
def placed : State := after (.clusterPlace kernelHandle) gridded

/-- The cluster's groups without lanes; retired; its teams gone. -/
def emptied : State := { placed with mach := { placed.mach with ctx := { placed.mach.ctx with
  groups := placed.mach.ctx.groups.map (fun g => { g with lanes := Vector.replicate 32 LanePC.absent }) } } }
def vacated : State := { emptied with mach := { emptied.mach with ctx := { emptied.mach.ctx with groups := [] } } }
def finished : State := { vacated with mach := { vacated.mach with ctx := { vacated.mach.ctx with teams := [] } } }

theorem witness_WorkIsPlaced :
    (gridded.mach.grid? kernelHandle).any (fun g => decide (g.next < g.clusters) && gridded.mach.gridTurn g &&
      (gridded.mach.siteOf g).any (fun x => decide (x.1 = [0] ∧ x.2.length = 32))) = true ∧
    ((cycle 8192 gridded).mach.grid? kernelHandle).any (fun g => decide (g.next < g.clusters ∧
      g.waitSince + 8192 ≤ (cycle 8192 gridded).mach.cyc.toNat)) = true ∧
    emptied.mach.ctx.ops.all (fun o => !isLaneLoad o.instr) = true ∧
    emptied.mach.ctx.groups.any (fun g => g.livem == 0 && g.deferred.isEmpty && emptied.mach.ctx.ops.all (fun o => !(o.gid == g.gid && keepsGroup o))) = true ∧
    vacated.mach.ctx.teams.any (fun x => vacated.mach.teamDone x) = true ∧
    (finished.mach.grid? kernelHandle).any (fun g => finished.mach.gridDone g && decide (g.ref = .graph 255 ∧ g.node = 1 ∧ g.comp = 0x8008) &&
      (finished.mach.ctx.placed? g.ref g.node).isSome && kept finished 1 && (distWrite finished.dev finished.mach g.comp 8 1).isSome) = true :=
  ⟨by decide +kernel, by decide +kernel, by decide +kernel, by decide +kernel, by decide +kernel⟩

/-- A request of a LAUNCH for node `n` of a graph, beside its operation; a detached instance that is done. -/
def launching (a : Nat) : State :=
  { uploaded with mach := { uploaded.mach with ctx := { uploaded.mach.ctx with
    launches := [{ reached := 0, op := 60, a := BitVec.ofNat 64 a, patch := 0x7000, status := 0x8010 }],
    detached := [{ id := 1, gnum := 7, node := 3, what := .signal false 0 0, area := [], st := .done, status := 0x8018, op := 61 }] } } }

/-- FETCHW of the last 16 bytes of its team's core store, of a grid of which two teams are left. -/
def fetching : State :=
  let s := after (.fetchw (wg 0 193 194 0 0)) (at1 (.fetchw (wg 0 193 194 0 0)) (fun g => setS 1 1 (setS 2 (5120 * 64 - 16) g)))
  { s with mach := s.mach.modGrid 1 (fun g => { g with next := 0, gx := 2 }) }

theorem witness_Requests_answered :
    (uploaded.dev.ctxst ≠ .tearing ∧ (match (cycle 1 (launching 0x3FF)).mach.ctx.launches with
      | r :: _ => (match launchAnswer (cycle 1 (launching 0x3FF)).dev (cycle 1 (launching 0x3FF)).mach r with
          | .accepted g n _ => decide (g.gnum = 255 ∧ n = .signal true 255 (2 ^ 63))
          | _ => false) && (distWrite (cycle 1 (launching 0x3FF)).dev (cycle 1 (launching 0x3FF)).mach 0x8010 8 (2 ^ 56 + 2 ^ 31 + 2)).isSome
      | [] => false) = true) ∧
    (match (launching 0x4FF).mach.ctx.launches with
      | r :: _ => (match launchAnswer (launching 0x4FF).dev (launching 0x4FF).mach r with
          | .refused code => decide (code = 5)
          | _ => false)
      | [] => false) = true ∧
    ((launching 0x3FF).mach.ctx.launches.all (fun r => decide ((launching 0x3FF).mach.cyc.toNat ≤ r.reached)) &&
      (cycle 1 (launching 0x3FF)).mach.ctx.launches.all (fun r => decide (r.reached < (cycle 1 (launching 0x3FF)).mach.cyc.toNat))) = true ∧
    (gridded.mach.lastIsPlaceable gridded.dev kernelHandle = true ∧
      fetching.mach.ctx.fetches.map (fun f => fetching.mach.lastIsPlaceable fetching.dev f.handle) = [false]) ∧
    ((launching 0).mach.ctx.detached.find? (fun d => d.id == 1)).any (fun d => decide (d.st = .done)) = true ∧
    (match fetching.mach.ctx.fetches with
      | f :: _ => (fetching.mach.op? f.op).any (fun o => o.lost.isEmpty && (fetching.mach.team? o.team).any (fun tm =>
          (fetching.mach.ownerOf (lineOf (coreLoc tm f.mailbox))).isNone)) &&
          (fetching.mach.grid? f.handle).any (fun g => decide (g.hdr.cw = 1 ∧ g.hdr.ch = 1 ∧ g.next < g.clusters)) &&
          (fetching.mach.group? f.gid).any (fun x => !x.retired)
      | [] => false) = true :=
  ⟨by decide +kernel, by decide +kernel, by decide +kernel, by decide +kernel, by decide +kernel, by decide +kernel⟩
/-! ## Witnesses: context commands, reports, the host, ports, rays -/

/-- A state of the context. -/
def inState (c : CtxSt) (s : State) : State := { s with dev := { s.dev with ctxst := c } }

/-- A context saved at 64 KiB · (2^40 − 1), whose LOAD is in progress. -/
def loading : State :=
  let s := inState .loading { State.reset with dev := { State.reset.dev with save := BitVec.allOnes 40 } }
  { s with mach := { s.mach with saves := [{ addr := BitVec.allOnes 40, ctx := plain.mach.ctx, core := .empty, tiles := [], own := [] }] } }

/-- A SAVE whose only operation has been frozen. -/
def saving : State := inState .saving { waiting with mach := { waiting.mach with
  net := [], ctx := { waiting.mach.ctx with ops := retaken.mach.ctx.ops.map (fun o => { o with st := .frozen }) } } }

/-- A teardown with a launch that waits and a detached instance. -/
def tearing : State := inState .tearing (launching 0x3FF)

theorem witness_ContextCommands :
    State.reset.dev.ctxst = .empty ∧ plain.dev.ctxst = .running ∧ (inState .loading State.reset).dev.fresh = false ∧
    loading.mach.saves.any (fun x => x.addr == loading.dev.save && !x.ctx.groups.isEmpty) = true ∧
    (saving.dev.ctxst = .saving ∧ saving.mach.net = [] ∧ (!saving.mach.ctx.ops.isEmpty && saving.mach.ctx.ops.all Op.savable) = true) ∧
    (tearing.dev.ctxst = .tearing ∧ tearing.mach.net = [] ∧ tearing.mach.ctx.lastWords.length = 2) ∧
    (writeStatuses tearing.dev tearing.mach tearing.mach.ctx.lastWords).isSome = true ∧ AllServed saving :=
  ⟨by decide +kernel, by decide +kernel, by decide +kernel, by decide +kernel, by decide +kernel, by decide +kernel,
    by decide +kernel, allServed (by decide +kernel)⟩

/-- A fault record, written to queue 0 or not, with one master. -/
def faultOf (idx : Option (BitVec 32)) (x : Master) : FaultRec :=
  { vpage := 2 ^ 40 - 1, kind := .fetch, cause := 1, lvl := 3, die := 3, gridh := 1, dist := false, eng := false, gslot := 0,
    loc := 0, masters := [x], idx := idx }

/-- Three queues of 16 entries whose next slot is the last; records for each. -/
def reporting (full : Bool) : State :=
  let q : Queue := { base := 1, size := 16, drops := 0, prod := BitVec.allOnes 32, cons := BitVec.allOnes 32 - (if full then 16 else 15) }
  { plain with
    dev := { plain.dev with queues := Vector.replicate 3 q }
    mach := { plain.mach with
      faults := [faultOf (some 5) (.group 1), faultOf none (.group 1)]
      freezes := [{ why := 1, cause := 0, off := 0, gridh := 1, dist := false, eng := false, gslot := 0, loc := 0 }]
      logs := [{ evt := 2, stk := 7, ch := 31, bnk := 31, row := 0, col := 63, cyc := 0 }] } }

/-- A group that waits for the answer to record 5; an operation that does. -/
def stalled : State :=
  let s := plain (fun g => { g with faultWait := .waiting (2 ^ 40 - 1) .fetch })
  { s with mach := { s.mach with faults := [faultOf (some 5) (.group 1)] } }
def stopped : State :=
  { retaken with mach := { retaken.mach with
      faults := [{ faultOf (some 5) (.op 5) with kind := .engineRead }]
      ctx := { retaken.mach.ctx with ops := retaken.mach.ctx.ops.map (fun o => { o with st := .faulted (2 ^ 56 - 1) .engineRead }) } } }

theorem witness_Reports :
    ((reporting false).mach.faults.find? (fun f => f.idx.isNone)).isSome = true ∧
    [false, true].map (fun x => (List.range 3).map (fun n => (vget (reporting x).dev.queues n Queue.reset).full)) =
      [[false, false, false], [true, true, true]] ∧
    (!(reporting false).mach.freezes.isEmpty && !(reporting true).mach.logs.isEmpty) = true ∧
    ((stalled.mach.faults.find? (fun f => f.idx == some 5)).any (fun f => decide (f.masters = [.group 1])) &&
      group1 stalled (fun g => decide (g.faultWait = .waiting (2 ^ 40 - 1) .fetch) && !g.retired)) = true ∧
    (stopped.mach.faults.find? (fun f => f.idx == some 5)).any (fun f => decide (f.masters = [.op 5]) && (stopped.mach.op? 5).any (fun o =>
      decide (o.st = .faulted (2 ^ 56 - 1) .engineRead ∧ (2 ^ 56 - 1) / 65536 % 2 ^ 40 = f.vpage ∧ f.kind = .engineRead) &&
        (stopped.mach.group? o.gid).any (fun g => !g.retired && g.livem != 0 && (stopped.mach.gridOfGroup? g).any (·.hdr.hv)))) = true ∧
    AllServed (reporting false) :=
  ⟨by decide +kernel, by decide +kernel, by decide +kernel, by decide +kernel, by decide +kernel, allServed (by decide +kernel)⟩

/-- `n` invalidations of the last page wait. -/
def invalidating (n : Nat) : State :=
  { plain with dev := { plain.dev with tlbiQueue := List.replicate n 0x00FFFFFFFFFF0001, tlbiBusy := true } }

theorem witness_Invalidations :
    ((0x8000000000000000#64).getLsbD 63 = true ∧ (0x00FFFFFFFFFF0001#64).getLsbD 63 = false ∧ (0x00FFFFFFFFFF0001#64).toNat % 65536 ≠ 0) ∧
    (invalidating 8).dev.tlbiQueue.length ≤ 8 ∧ 8 < (invalidating 9).dev.tlbiQueue.length ∧
    (sending [{ request 90 .read ⟨.hbm, 0⟩ 4 with va := 0x00FFFFFFFFFE0000 }] (invalidating 1)).mach.net.all (fun p =>
      p.performed || !decide (2 ^ 56 - 65536 < p.va.toNat + p.len ∧ p.va.toNat < 2 ^ 56)) = true := by decide +kernel

theorem witness_HostRegisters :
    ((4 : Nat) ≠ 8 ∧ (12 : Nat) % 8 ≠ 0) ∧ (4 ≤ 16 ∧ (65536#64).toNat % 2 ^ 32 = 2 ^ 16) ∧
    (∀ k, 4 ≤ k → k ≤ 16 → (3#64).toNat % 2 ^ 32 ≠ 2 ^ k) ∧ (256 ≤ (256#64).toNat ∧ (16383#64).toNat ≤ 16383) ∧
    ((255#64).toNat < 256 ∧ 16383 < (16384#64).toNat) ∧ 1048576 < (1048577#64).toNat ∧
    (State.reset.dev.st ≠ .failed ∧ State.reset.dev.w2tgt = 0 ∧ State.reset.dev.w2base.toNat * 2 ^ 36 + (2 ^ 36 - 8) + 8 ≤ 8 * stackBytes ∧
      (2 ^ 36 - 8) + 8 ≤ 2 ^ 36) ∧
    (linesOf ⟨.hbm, 2 ^ 36 - 8⟩ 8).all (fun k => (State.reset.mach.ownerOf k).isNone &&
      !State.reset.mach.mem.poisoned { space := .hbm, addr := 64 * k.index }) = true ∧
    (State.reset.mach.net.isEmpty && (List.range 8).all (fun k => State.reset.mach.cellarOpen ⟨.hbm, 2 ^ 36 - 8 + k⟩)) = true ∧
    (linesOf ⟨.hbm, 2 ^ 36 - 8⟩ 8).any (fun k => (({ State.reset.mach with own := [(lineOf ⟨.hbm, 2 ^ 36 - 1⟩, 77)] } : Mach).ownerOf k).isSome) =
      true ∧
    (State.reset.dev.nycels.toList.all (fun r => r.st == .down) && State.reset.dev.ctxst == .empty &&
      State.reset.mach.ctx.rays.isEmpty && !State.reset.mach.rayIn 7 && (State.reset.dev.tierRegs 1).st == .down) = true := by
  refine ⟨by decide, by decide, fun k _ h => ?_, by decide +kernel, by decide +kernel, by decide +kernel, by decide +kernel, by decide +kernel,
    by decide +kernel, by decide +kernel, by decide +kernel⟩
  exact (by decide : ∀ k ∈ List.range 17, (3#64).toNat % 2 ^ 32 ≠ 2 ^ k) k (List.mem_range.2 (by omega))

/-- Tier port 1 in a state, with a fill of page 2 and a hint. -/
def tierPort (st : TierSt) (fill : TierFill) : State :=
  { plain with
    dev := { plain.dev with tiers := vset plain.dev.tiers 1 { TierRegs.reset with en := true, st := st, cap := 3, tsb := 1, tsn := 1, tto := 1 } }
    mach := { plain.mach with tiers := vset plain.mach.tiers 1 { TierUnit.empty with fills := [fill], hints := [1] } } }

/-- The same with a dirty frame that the fill waits for. -/
def dirtyPort : State :=
  let s := tierPort .up { page := 2, waitFrame := some 0, since := 0 }
  { s with mach := { s.mach with tiers := vmod s.mach.tiers 1 (fun u => { u with frames := [{ page := 0, frame := 0, dirty := true, used := 0 }] }) } }

/-- The same while a write that has disabled the port waits for the dirty frame. -/
def closingPort : State :=
  let s := cycle 1024 dirtyPort
  { s with mach := { s.mach with tiers := vmod s.mach.tiers 1 (fun u => { u with closing := some 0 }) } }

-- whether the expander answers is its own affair: where it does, pages move; where it does not, the time-out comes
theorem witness_TierPorts :
    (1 : Nat) < 2 ∧ ((0x0000000100000001#64).toNat / 2 ^ 32 % 65536 ≠ 0 ∧ (0x0000000100000001#64).getLsbD 0 = true) ∧
    ((0x0000000100000002#64).getLsbD 0 = false ∧ (0x0000000100000003#64).getLsbD 1 = true) ∧
    ((tierPort .quarantined { page := 2, waitFrame := none, since := 0 }).dev.tierRegs 1).st = .quarantined ∧
    (((tierPort .down { page := 2, waitFrame := none, since := 0 }).dev.tierRegs 1).en = true ∧
      ((tierPort .down { page := 2, waitFrame := none, since := 0 }).dev.tierRegs 1).st = .down) ∧
    (let u := (tierPort .up { page := 2, waitFrame := none, since := 0 }).mach.tierUnit 1
     let r := (tierPort .up { page := 2, waitFrame := none, since := 0 }).dev.tierRegs 1
     1 ∈ u.hints ∧ r.st = .up ∧ r.tsn ≠ 0 ∧ 1 < r.cap.toNat ∧ (∀ f ∈ u.frames, f.page ≠ 1) ∧ (∀ f ∈ u.fills, f.page ≠ 1) ∧
       (∃ f ∈ u.fills, f.page = 2 ∧ f.waitFrame = none) ∧
       (List.range r.tsn.toNat).find? (fun n => u.frames.all (fun f => f.frame != n)) = some 0) ∧
    (let u := dirtyPort.mach.tierUnit 1
     u.fills.find? (fun f => f.waitFrame == some 0) = some { page := 2, waitFrame := some 0, since := 0 } ∧
       u.frames.find? (fun f => f.frame == 0) = some { page := 0, frame := 0, dirty := true, used := 0 }) ∧
    (let u := dirtyPort.mach.tierUnit 1
     u.dirtyFrames ≠ [] ∧ u.closing = none ∧ (dirtyPort.dev.tierRegs 1).en = true ∧ (dirtyPort.dev.tierRegs 1).tpsw = 0) ∧
    (let u := closingPort.mach.tierUnit 1
     u.closing = some 0 ∧ 0 + 1024 * (closingPort.dev.tierRegs 1).tto.toNat ≤ closingPort.mach.cyc.toNat ∧
       u.dirtyFrames = [{ page := 0, frame := 0, dirty := true, used := 0 }]) ∧
    (∀ s ∈ [tierPort .up { page := 2, waitFrame := none, since := 0 }, dirtyPort, cycle 1023 closingPort],
      Config.expanderAnswers 1 s.mach.cyc.toNat = true → AllServed s) ∧
    (let u := (cycle 1023 closingPort).mach.tierUnit 1
     u.closing = some 0 ∧ (cycle 1023 closingPort).mach.cyc.toNat < 0 + 1024 * ((cycle 1023 closingPort).dev.tierRegs 1).tto.toNat ∧
       u.dirtyFrames = [{ page := 0, frame := 0, dirty := true, used := 0 }]) ∧
    (silentSince 1 0 1024 = true →
      (cycle 1024 (tierPort .up { page := 2, waitFrame := none, since := 0 })).mach.tierTimedOut
        (tierPort .up { page := 2, waitFrame := none, since := 0 }).dev 1 = true) := by
  refine ⟨by decide, by decide, by decide, by decide +kernel, by decide +kernel, by decide +kernel, by decide +kernel, by decide +kernel,
    by decide +kernel, fun s hs h => ?_, by decide +kernel, fun h => ?_⟩
  · refine allServed_of (up := [1]) ?_ (by simpa using h)
    revert s
    exact List.forall_mem_cons.2 ⟨fun _ => by decide +kernel, List.forall_mem_cons.2 ⟨fun _ => by decide +kernel,
      List.forall_mem_cons.2 ⟨fun _ => by decide +kernel, by simp⟩⟩⟩
  have e : (cycle 1024 (tierPort .up { page := 2, waitFrame := none, since := 0 })).mach.cyc.toNat = 1024 := by decide +kernel
  have f : ((cycle 1024 (tierPort .up { page := 2, waitFrame := none, since := 0 })).mach.tierUnit 1).fills =
      [{ page := 2, waitFrame := none, since := 0 }] := by decide +kernel
  have r : ((tierPort .up { page := 2, waitFrame := none, since := 0 }).dev.tierRegs 1).tto.toNat = 1 := by decide +kernel
  simp [Mach.tierTimedOut, e, f, r, h]

/-- Nycel port 15 in a state. -/
def nycelPort (st : NycelSt) : State :=
  { plain with dev := { plain.dev with nycels := vset plain.dev.nycels 15 { NycelRegs.reset with en := true, st := st, lo := 4, hi := 9 } } }

theorem witness_NycelPorts :
    (((nycelPort .down).dev.nycelRegs 15).st = .down ∧ ((nycelPort .frozen).dev.nycelRegs 15).st = .frozen ∧
      ((nycelPort .training).dev.nycelRegs 15).en = true ∧ ((nycelPort .training).dev.nycelRegs 15).st = .training ∧
      ((nycelPort .frozen).mach.nycelUnit 15).wordDue = false ∧ ((nycelPort .training).mach.nycelUnit 15).wordDue = false ∧
      (3#64).getLsbD 1 = true ∧ (2#64).getLsbD 0 = false) ∧
    (let r := (nycelPort .up).dev.nycelRegs 15
     r.st = .up ∧ r.npsw = 0 ∧ (3#12) < r.lo ∧ r.hi < (10#12) ∧ r.lo ≤ (4#12) ∧ (9#12) ≤ r.hi) ∧
    peerPlaces (nycelPort .up) { src := 4, va := 0, op := .read 4 } = none ∧
    peerPlaces (mapped (nycelPort .up)) { src := 9, va := BitVec.ofNat 64 (2 ^ 30 - 4), op := .write [1, 2, 3, 4] } = some [(⟨.hbm, 2 ^ 31 - 4⟩, 4)] ∧
    AllServed (nycelPort .up) ∧
    (let s := mapped (nycelPort .up)
     (s.mach.nycelUnit 15).waiting = [] ∧ ∀ x ∈ pagePieces (2 ^ 30 - 4) 4, s.mach.walkHeld s.dev x.1 = false) ∧
    (linesOf ⟨.hbm, 2 ^ 31 - 4⟩ 4).all (fun k => ((mapped (nycelPort .up)).mach.ownerOf k).isNone &&
      !(mapped (nycelPort .up)).mach.mem.poisoned { space := .hbm, addr := 64 * k.index }) = true ∧
    ((mapped (nycelPort .up)).mach.net.isEmpty && (List.range 4).all (fun k =>
      (mapped (nycelPort .up)).mach.cellarOpen ⟨.hbm, 2 ^ 31 - 4 + k⟩)) = true :=
  ⟨by decide +kernel, by decide +kernel, by decide +kernel, by decide +kernel, allServed (by decide +kernel), by decide +kernel,
    by decide +kernel, by decide +kernel⟩

/-- The scene table at 0x4000, its treelet table at 0x5000, the one treelet at 0x6000: one triangle around the z axis, of
all masks, whose hit asks the program when `ask` is 1. Every cellar spills to the same place. -/
def scene (ask : Nat) (s : State) : State :=
  let v (x y : Nat) : List Nat := natLe 4 x ++ natLe 4 y ++ natLe 4 0 |>.map (·.toNat)
  let tri : List Byte := (v 0 0 ++ v 0x3F800000 0 ++ v 0 0x3F800000).map (BitVec.ofNat 8) ++ natLe 4 7 ++ natLe 4 8 ++ natLe 4 (255 + 256 * ask)
  let s := putWords .hbm 0x40004000 [0x5000 + 3 * 2 ^ 56, 2 ^ 63 + 1, 0, 0] (mapped s)
  let s := putWords .hbm 0x40005000 [0x6000, 2 ^ 63 + 2 ^ 32] s
  let s := putWords .hbm 0x40006000 [0xAE10 * 2 ^ 48, 1] s
  { dev := { s.dev with rmax := 1, cellars := Vector.replicate 8 { CellarRegs.reset with spn := 1, scn := 4 } }
    mach := { s.mach with mem := s.mach.mem.write ⟨.hbm, 0x40006040⟩ tri } }

/-- RAYE of one lane issued, over the scene. -/
def raying : State :=
  after (.raye { wg 193 8 1 2 0 with grd := 0 }) (at1 (.raye { wg 193 8 1 2 0 with grd := 0 })
    (fun g => setS 1 0 (setV 1 0 (setV 2 (327680 - 64) { g with p := vset g.p 0 1 }))) (scene 0))

/-- A ray from (1/4, 1/4, −1) along z, in a state. -/
def aRay (st : RaySt) (cont : List RayItem) : Ray :=
  { id := 70, op := 5, team := 2, core := 0, lane := 0, slot := 0, gsl := 0, ox := 0x3E800000, oy := 0x3E800000, oz := 0xBF800000,
    dx := 0, dy := 0, dz := 0x3F800000, tmin := 0, tmax := 0x7F800000, flags := 1, gen := 3, scene := 0, mask := 255, rayid := 0,
    stack := 0, ttb := 0x5000, nt := 1, treelet := 0, ht := 0x7F800000, hprim := 0, hinst := 0, hu := 0, hv := 0, hit := false,
    tv := 0, cont := cont, st := st, cand := [], cbseq := 0, version := 1, arrived := 0,
    spillSeq := 0, ended := false }

/-- The scene with one ray, and with its treelet staged. -/
def rayState (st : RaySt) (ask : Nat) : State :=
  let s := scene ask plain
  { s with mach := { s.mach with ctx := { s.mach.ctx with rays := [aRay st []] } } }
def rayInside (ask : Nat) : State :=
  let s := rayState .inside ask
  let im := match readImage s.dev s.mach none 0x5000 with
    | some (_, .ok (_, im, _)) => im
    | _ => []
  { s with mach := { s.mach with
      ctx := { s.mach.ctx with rays := [aRay .inside [.tris 0 1]] }
      staged := [{ stack := 0, entry := (aRay .inside []).entry, version := 0, image := im, size := 112, used := 0 }] } }

/-- What a visit of the staged ray comes to. -/
def visited (ask : Nat) : Visit :=
  match (rayInside ask).mach.stagedCopy 0 (aRay .inside []).entry 0 with
  | some c => (walkRay c.image (imageCounts c.image).1 visitFuel (rayInside ask).mach (aRay .inside [.tris 0 1])).2
  | none => .more (aRay .sent [])

/-- TRBEGIN of the treelet, whose copy no ray is in any more. -/
def beginning : State :=
  let s := after (.trbegin (wg 192 193 0 0 0)) (at1 (.trbegin (wg 192 193 0 0 0)) (setS 1 0))
  { s with mach := { s.mach with ctx := { s.mach.ctx with ops := s.mach.ctx.ops.map (fun o => { o with aux := 0x5001 }) } } }

theorem witness_RaysTravel :
    (raying.mach.op? 5).any (fun o => decide (o.st = .running ∧ o.pix < o.mask.count ∧ raying.mach.ctx.rays.length < raying.dev.rmax.toNat) &&
      (raying.mach.team? o.team).any (fun tm => (ownable (slotLines tm ((o.mask.lanes.drop o.pix).map (capLane o.cap.vc)))).all (fun k =>
        raying.mach.ownerOf k == some 5)) && !raying.mach.writesBehind o) = true ∧
    (let s := rayState .sent 0
     decide (s.dev.ctxst = .running ∧ s.mach.ray? 70 = some (aRay .sent [])) &&
       match readScene s.dev s.mach (s.mach.op? 5) 0 0 with
       | .ok _ bs => decide ((sceneOf bs).v = true ∧ (sceneOf bs).gen = 3 ∧ (sceneOf bs).root < (sceneOf bs).nt ∧ (sceneOf bs).ttb = 0x5000)
       | _ => false) = true ∧
    (let s := rayState .moving 0
     match cellarRead s.dev s.mach (s.mach.op? 5) 0x5000 16 with
     | .ok _ bs => decide ((treeletOf bs).v = true ∧ (treeletOf bs).stk = 0 ∧ s.mach.ray? 70 = some (aRay .moving []))
     | _ => false) = true ∧
    (let s := rayState .spilled 0
     (match s.mach.ctx.rays with
      | [r] => r.spilledAt 0 && decide (r.nt ≠ 0 ∧ r.treelet < r.nt ∧ s.mach.ray? r.id = some r)
      | _ => false) &&
       match cellarRead s.dev s.mach (s.mach.op? 5) 0x5000 16 with
       | .ok _ bs => decide ((treeletOf bs).v = true ∧ (treeletOf bs).stk = 0)
       | _ => false) = true ∧
    (let s := rayState .queued 0
     (stageNext s.dev s.mach 0).isSome && (s.mach.freeSlot 0).isSome &&
       match readImage s.dev s.mach (s.mach.op? 5) 0x5000 with
       | some (_, .ok (e, im, size)) => decide (e.stk = 0 ∧ imageCounts im = (0, 1) ∧ size = 112)
       | _ => false) = true ∧
    (match visited 0 with
      | .finish q => decide (q.id = 70 ∧ q.hprim = 7 ∧ q.hinst = 8)
      | _ => false) = true ∧
    (match visited 1 with
      | .park q => decide (q.id = 70 ∧ q.cand.length = 5)
      | _ => false) = true ∧
    (beginning.mach.op? 5).any (fun o => decide (o.st = .running ∧ o.aux ≠ 0 ∧ o.lost = []) && !beginning.mach.raysInside (o.aux - 1)) = true :=
  ⟨by decide +kernel, by decide +kernel, by decide +kernel, by decide +kernel, by decide +kernel, by decide +kernel,
    by decide +kernel, by decide +kernel⟩

/-- The limits hold after reset, so that steps from there keep them. -/
theorem witness_HostLimits : HostLimits State.reset := by
  refine ⟨fun q hq => Or.inl ?_, by decide +kernel, by decide, by decide +kernel, by decide, by decide, by decide⟩
  exact (by decide +kernel : ∀ q ∈ List.range 3, (vget State.reset.dev.queues q Queue.reset).size.toNat = 0) q (List.mem_range.2 hq)

/-! ## The assembler (spec/04_assembly.md) -/

/-- The word of one instruction that names no label. -/
def asmWord (t : String) : Option Word :=
  match insOf t.toList with
  | .ok i =>
    match i.encode { look := fun _ => none, addr := 8, headers := [] } false with
    | .ok p => some p.1
    | .error _ => none
  | .error _ => none

/-- R185's worked word. -/
theorem test_asm_vshrr : asmWord "VSHRR.sat.i16 V5, V4, 2" = some 0x53FC0A0800040101#64 := by decide +kernel
/-- R196's worked word: the destination's type, then the source's. -/
theorem test_asm_cvt : asmWord "CVT.q8p4sf.f32.sat V6, V2" = some 0x663C0C040018012D#64 := by decide +kernel
/-- R226's worked word. -/
theorem test_asm_ld : asmWord "LD.glob.sc.b32 V4, S10, V2, 3, K1" = some 0xA03C09940406081A#64 := by decide +kernel
/-- R240's worked word: a tile as A sets ASRC. -/
theorem test_asm_mma : asmWord "MMA.sh3.st9.ab1 A2, A1, M3, V20" = some 0xC07C040206280D34#64 := by decide +kernel
/-- R346's worked word. -/
theorem test_asm_atom :
    asmWord "ATOM.glob.rel.dev.fadd.f32 V6, V2, V4, K1" = some 0xA43C0C0408120A60#64 := by decide +kernel
/-- R82: a scope without an order, `^` on an S register, and an immediate out of range (R86) are errors. -/
theorem test_asm_refused :
    [asmWord "LD.glob.dev.b32 V1, S2, 0", asmWord "VADD.i32 V1, S2^, V3", asmWord "VADD.n32 V1, V1, -1"] =
      [none, none, none] := by decide +kernel

/-- The source of R94. -/
def scaleStep : SrcFile :=
  { path := "m",
    lines := [".kernel scale_step", ".team 32,1,1", ".frame 8", "start:", "    SADD.i64.co S5, S5, 16",
      "    (P3) FFMA.f32 V4, V1^, V2, V3", "    EXIT", ".kend"] }

/-- The four code words that R94 lists. -/
theorem test_asm_listing :
    (match assemble [scaleStep] "m" with
     | .ok a => a.images.flatMap (fun i => i.code.map (·.word))
     | .error _ => []) =
      [0xD200000000000000#64, 0x303D8B8A00201003#64, 0x60CC08020407000C#64, 0x023C000000000000#64] := by decide +kernel

/-- A loader fills a `.dword` of a data label with the data section's base plus the constant (R96, R97). -/
theorem test_asm_load :
    (match assemble [{ path := "m", lines := [".data", ".dword 7", "t: .dword t+8"] }] "m" with
     | .ok a => (a.object.load [] 0x4000).map (fun ws => ws.map (fun p => (p.1, leNat (p.2.drop 8))))
     | .error _ => none) = some [(0x4000, 0x4010)] := by decide +kernel

end Sys2Proof.Tests
end

/-!
What raising an exception does to its group, that a word which fails its encoding check raises one, and SADDR (R171).
-/
namespace Sys2Proof.Machine

/-! ## Raising an exception (R361, R376) -/

/-- A group that stood as `g` stands changed when a change of it has been made. -/
theorem group_modGroup_some {m : Mach} {gid : Nat} {g : Group} (hg : m.group? gid = some g) (f : Group → Group)
    (hf : ∀ g, (f g).gid = g.gid) : (m.modGroup gid f).group? gid = some (f g) := by
  rw [group_modGroup _ _ _ hf, hg, Option.map_some]

/-- A group without what the raising of an exception changes of it. -/
def Group.sansTrap (g : Group) : Group :=
  { g with traps := [], trapsOut := [], frozen := none, sleep := none, sched := Sched.init 0 false, ownWait := none,
           ownAt := none, faultWait := .none, pair := none }

/-- Raising an exception moves no lane and writes no register. -/
theorem lanes_regs_of_sansTrap {g h : Group} (e : g.sansTrap = h.sansTrap) :
    g.lanes = h.lanes ∧ g.s = h.s ∧ g.p = h.p ∧ g.q = h.q ∧ g.v = h.v := by
  simp only [Group.sansTrap, Group.mk.injEq] at e
  simp only [e, and_self]

/-- Giving up the lines of a waiting word changes of the machine nothing but their owners and its group. -/
theorem dropOwnWait_keeps {α : Type} (f : Mach → α) (hd : ∀ m id, f (m.dropOwn id) = f m)
    (hm : ∀ m gid h, f (m.modGroup gid h) = f m) (m : Mach) (gid : Nat) : f (m.dropOwnWait gid) = f m := by
  unfold Mach.dropOwnWait
  split
  · rw [hm, hd]
  · rfl

@[simp] theorem dropOwnWait_mem (m : Mach) (gid : Nat) : (m.dropOwnWait gid).mem = m.mem :=
  dropOwnWait_keeps Mach.mem Mach.dropOwn_mem Mach.modGroup_mem m gid

@[simp] theorem dropOwnWait_freezes (m : Mach) (gid : Nat) : (m.dropOwnWait gid).freezes = m.freezes :=
  dropOwnWait_keeps Mach.freezes Mach.dropOwn_freezes Mach.modGroup_freezes m gid

@[simp] theorem modGroup_gridOfGroup (m : Mach) (gid : Nat) (f : Group → Group) (g : Group) :
    (m.modGroup gid f).gridOfGroup? g = m.gridOfGroup? g := rfl

@[simp] theorem dropOwnWait_gridOfGroup (m : Mach) (gid : Nat) (g : Group) :
    (m.dropOwnWait gid).gridOfGroup? g = m.gridOfGroup? g :=
  dropOwnWait_keeps (·.gridOfGroup? g) (fun _ _ => rfl) (fun _ _ _ => rfl) m gid

theorem dropOwnWait_group {m : Mach} {gid : Nat} {g : Group} (hg : m.group? gid = some g) :
    ∃ w a, (m.dropOwnWait gid).group? gid = some { g with ownWait := w, ownAt := a } := by
  unfold Mach.dropOwnWait
  split
  · rename_i id _
    have hd : (m.dropOwn id).group? gid = some g := hg
    exact ⟨none, none, group_modGroup_some hd (fun g => { g with ownWait := none, ownAt := none }) (fun _ => rfl)⟩
  · exact ⟨g.ownWait, g.ownAt, hg⟩

/-- The group that stood as `g` stands as `g'`, frozen for the reason `why`, and a record of it has joined the
freeze records (R376, R378). -/
def FrozeFor (why cause off : Nat) (m m' : Mach) (g g' : Group) : Prop :=
  g'.frozen = some why ∧ g'.traps = g.traps ∧ g'.trapsOut = g.trapsOut ∧
    ∃ r, m'.freezes = m.freezes ++ [r] ∧ r.why = why ∧ r.cause = cause ∧ r.off = off ∧ r.gslot = g.slot

/-- A freeze stops its group and reports it, and changes no memory, lane or register. -/
theorem freezeGroup_froze {m : Mach} {gid : Nat} {g : Group} (why cause off : Nat) (hg : m.group? gid = some g) :
    (m.freezeGroup gid why cause off).mem = m.mem ∧ ∃ g', (m.freezeGroup gid why cause off).group? gid = some g' ∧
      FrozeFor why cause off m (m.freezeGroup gid why cause off) g g' ∧ g'.sansTrap = g.sansTrap := by
  have hh : (m.dropHints (fun o => o.gid == gid)).group? gid = some g := hg
  obtain ⟨w, a, hd⟩ := dropOwnWait_group hh
  unfold Mach.freezeGroup
  rw [hg]
  dsimp only
  refine ⟨?_, _, group_modGroup_some hd (fun h => { h with
    frozen := some why, sched := { h.sched with active := false, since := m.cyc.toNat, claim := false } })
    (fun _ => rfl), ⟨rfl, rfl, rfl, _, congrArg (· ++ [_]) ?_, rfl, rfl, rfl, rfl⟩, rfl⟩
  · exact dropOwnWait_mem _ _
  · exact dropOwnWait_freezes _ _

/-- `tr` stands in the queue of the group that stood as `g` and stands as `g'`, or waits outside the full queue
(R361). -/
def TrapQueued (tr : Trap) (g g' : Group) : Prop :=
  if g.traps.length < 8 ∧ g.trapsOut = [] then g'.traps = g.traps ++ [tr] ∧ g'.trapsOut = []
  else g'.traps = g.traps ∧ g'.trapsOut = g.trapsOut ++ [tr]

/-- A trap takes an entry of the queue, or its place outside a full one. -/
def Group.takeTrap (g : Group) (tr : Trap) : Group :=
  if g.traps.length < 8 && g.trapsOut.isEmpty then { g with traps := g.traps ++ [tr] }
  else { g with trapsOut := g.trapsOut ++ [tr] }

theorem takeTrap_queued (g : Group) (tr : Trap) :
    (g.takeTrap tr).gid = g.gid ∧ (g.takeTrap tr).frozen = g.frozen ∧ (g.takeTrap tr).sansTrap = g.sansTrap ∧
      TrapQueued tr g (g.takeTrap tr) := by
  unfold Group.takeTrap TrapQueued
  by_cases room : g.traps.length < 8 ∧ g.trapsOut = []
  · rw [if_pos room, if_pos (by simpa using room)]
    exact ⟨rfl, rfl, rfl, rfl, room.2⟩
  · rw [if_neg room, if_neg (by simpa using room)]
    exact ⟨rfl, rfl, rfl, rfl, rfl⟩

/-- Beside taking its place a trap may end the group's sleep. -/
theorem queueTrap_eq (g : Group) (tr : Trap) : ∃ sl, g.queueTrap tr = { g with sleep := sl }.takeTrap tr := by
  unfold Group.queueTrap
  split
  · exact ⟨none, rfl⟩
  · exact ⟨g.sleep, rfl⟩

theorem queueTrap_queued (g : Group) (tr : Trap) :
    (g.queueTrap tr).gid = g.gid ∧ (g.queueTrap tr).frozen = g.frozen ∧ (g.queueTrap tr).sansTrap = g.sansTrap ∧
      TrapQueued tr g (g.queueTrap tr) := by
  obtain ⟨sl, e⟩ := queueTrap_eq g tr
  rw [e]
  exact takeTrap_queued { g with sleep := sl } tr

/-- Has the group's own handler raised the trap (R376)? -/
def Group.ownTrap (g : Group) (tr : Trap) : Bool :=
  tr.byHandler || (match g.handling with
    | some h => h.seq ≤ tr.seq
    | none => false)

/-- Has the group's kernel a handler (R362)? -/
def Mach.handled (m : Mach) (g : Group) : Bool := ((m.gridOfGroup? g).map (·.hdr.hv)).getD false

/-- What the raising of a word's exception does to the machine, of a group that has not retired. -/
theorem raise_eq {m : Mach} {gid : Nat} {g : Group} {tr : Trap} (hg : m.group? gid = some g) (hr : g.retired = false)
    (hc : tr.cause ≠ causePromiseMissed) (ho : tr.op = none) :
    m.raise gid tr = if m.handled g = false then m.freezeGroup gid 2 tr.cause tr.off
      else if g.ownTrap tr = true then m.freezeGroup gid 3 tr.cause tr.off
      else m.modGroup gid (fun g => g.queueTrap tr) := by
  unfold Mach.raise
  rw [hg]
  dsimp only
  rw [ho, hr, if_neg Bool.false_ne_true, if_neg hc]
  change (if (!m.handled g) = true then _ else if g.ownTrap tr = true then _ else _) = _
  cases m.handled g <;> rfl

theorem trapRaised_iff (s t : State) (g g' : Group) (tr : Trap) :
    TrapRaised s t g g' tr ↔ if s.mach.handled g = false then FrozeFor 2 tr.cause tr.off s.mach t.mach g g'
      else if g.ownTrap tr = true then FrozeFor 3 tr.cause tr.off s.mach t.mach g g'
      else g'.frozen = g.frozen ∧ t.mach.freezes = s.mach.freezes ∧ TrapQueued tr g g' := Iff.rfl

/-- THE RAISING OF A WORD'S EXCEPTION does to a group that has not retired what `TrapRaised` says, and nothing to
its lanes and registers. -/
theorem raise_trapRaised {s : State} {gid : Nat} {g : Group} {tr : Trap} (hg : s.mach.group? gid = some g)
    (hr : g.retired = false) (hc : tr.cause ≠ causePromiseMissed) (ho : tr.op = none) :
    (s.mach.raise gid tr).mem = s.mach.mem ∧ ∃ g', (s.mach.raise gid tr).group? gid = some g' ∧
      TrapRaised s { s with mach := s.mach.raise gid tr } g g' tr ∧ g'.sansTrap = g.sansTrap := by
  simp only [trapRaised_iff, raise_eq hg hr hc ho]
  by_cases hh : s.mach.handled g = false
  · simp only [if_pos hh]
    exact freezeGroup_froze 2 tr.cause tr.off hg
  · simp only [if_neg hh]
    by_cases own : g.ownTrap tr = true
    · simp only [if_pos own]
      exact freezeGroup_froze 3 tr.cause tr.off hg
    · simp only [if_neg own]
      obtain ⟨-, hfz, hs, hq⟩ := queueTrap_queued g tr
      exact ⟨Mach.modGroup_mem _ _ _, g.queueTrap tr, group_modGroup_some hg _ (fun h => (queueTrap_queued h tr).1),
        ⟨hfz, Mach.modGroup_freezes _ _ _, hq⟩, hs⟩

/-- The trap record of a word of the group at issue (R359, R360). -/
def Group.wordTrap (g : Group) (off seq : Nat) (kind : TrapKind) (cause : Nat) (mask : Mask) (info : Word) : Trap :=
  { cause := cause, kind := kind, mask := mask, off := off, info := info, regcnt := g.regcnt, op := none, seq := seq }

/-- A TRAP AT ISSUE of a word raises its exception for a group that has not retired, and changes no memory, lane
or register (R70, R359). -/
theorem trapKindAt_raises {s : State} {g : Group} (off seq : Nat) (kind : TrapKind) {cause : Nat} (mask : Mask)
    (info : Word) (hg : s.mach.group? g.gid = some g) (hr : g.retired = false) (hc : cause ≠ causePromiseMissed) :
    ∃ t g' tr, trapKindAt s g off seq kind cause mask info = t ∧ t.dev = s.dev ∧ t.mach.mem = s.mach.mem ∧
      t.mach.group? g.gid = some g' ∧ TrapRaised s t g g' tr ∧ tr.cause = cause ∧ tr.kind = kind ∧
      tr.mask = mask ∧ tr.off = off ∧ tr.info = info ∧ g'.sansTrap = g.sansTrap := by
  obtain ⟨w, a, hd⟩ := dropOwnWait_group hg
  have hm := group_modGroup_some hd (fun h => { h with faultWait := .none, pair := none }) (fun _ => rfl)
  unfold trapKindAt
  dsimp only
  generalize hm0 : (s.mach.dropOwnWait g.gid).modGroup g.gid (fun h => { h with faultWait := .none, pair := none }) = m0
    at hm ⊢
  have hmem : m0.mem = s.mach.mem := by simp [← hm0]
  have hfr : m0.freezes = s.mach.freezes := by simp [← hm0]
  have hgrid : m0.handled g = s.mach.handled g := by simp [← hm0, Mach.handled]
  have hn : ({ m0 with nextId := m0.nextId + 1 } : Mach).group? g.gid = some _ := hm
  obtain ⟨hmem', g', hg', htr, hs⟩ := raise_trapRaised
    (s := { s with mach := { m0 with nextId := m0.nextId + 1 } })
    (tr := g.wordTrap off seq kind cause mask info) hn hr hc rfl
  refine ⟨_, g', g.wordTrap off seq kind cause mask info, rfl, rfl, hmem'.trans hmem, hg', ?_, rfl, rfl,
    rfl, rfl, rfl, hs⟩
  rw [trapRaised_iff] at htr ⊢
  simp only [FrozeFor] at htr ⊢
  rw [← hgrid, ← hfr]
  exact htr

/-! ## Words that fail their encoding check (R70) -/

/-- The group at issue has not retired. -/
theorem wordAtIssue_notRetired {s : State} {g : Group} {run : Mask} {p : LanePC} {cl : Clause}
    (h : wordAtIssue s = some (g, run, p, cl)) : g.retired = false := by
  unfold wordAtIssue at h
  split at h
  · cases h
  · split at h
    · dsimp only at h
      split at h
      · cases h
      · rename_i hn
        obtain ⟨rfl, -⟩ := Prod.mk.inj (Option.some.inj h)
        simp only [Bool.or_eq_true, not_or, Bool.not_eq_true] at hn
        exact hn.2
    · cases h

theorem anyWordLegal_of_modOk {t : WordSpec} (h : t.modOk = false) (w : AnyWord) : anyWordLegal t w = false := by
  cases w <;> simp only [anyWordLegal, h, Bool.false_and]

/-- A word that its class admits, and that is no misplaced transfer, fails check 3 of R70 next. -/
theorem checkWord_illegal {g : Group} {h : Header} {idx opc : Nat} {t : WordSpec} {w : AnyWord}
    (ha : admits h.ecls opc = true) (ht : isTransfer opc = true → idx = h.cnt.toNat + 1)
    (hw : anyWordLegal t w = false) : checkWord g h idx opc t w = some causeEncoding := by
  unfold checkWord
  have hclause : ¬ (!admits h.ecls opc || (isTransfer opc && idx != h.cnt.toNat + 1)) = true := by
    simpa [ha] using ht
  rw [if_neg hclause, hw]
  rfl

/-- A WORD WHOSE FIELDS ARE NEVER LEGAL raises ILLEGAL_ENCODING wherever it stands, whatever its own effect. -/
theorem raisesEncoding_of_illegal {i : Instr} {t : WordSpec} (body : State → Iss → M Flow)
    (he : ∀ s, exec i s = runWord i (body s) s) (hs : wordSpec i = some t) (hl : ∀ w, anyWordLegal t w = false) :
    RaisesEncoding i := by
  intro s g run p cl opc w hat hp ha htr
  obtain ⟨hg, -⟩ := wordAtIssue_group hat
  rw [← group_gid hg] at hg
  have hb : beginWord i s =
      .ended (trapAt s g (p.hdr + 8 * p.idx) s.mach.nextId causeEncoding run (encodeParts opc w)) := by
    unfold beginWord
    rw [hat, hs, hp]
    dsimp only
    rw [checkWord_illegal ha htr (hl w)]
    rfl
  obtain ⟨u, g', tr, hu, hdev, hmem, hg', hraised, hcause, hkind, hmask, hoff, -, hsans⟩ :=
    trapKindAt_raises (p.hdr + 8 * p.idx) s.mach.nextId .w run (encodeParts opc w) hg (wordAtIssue_notRetired hat)
      (show causeEncoding ≠ causePromiseMissed by decide)
  refine ⟨u, g', tr, ?_, hdev, hmem, hg', hraised, hcause, hkind, hmask, hoff, lanes_regs_of_sansTrap hsans⟩
  rw [he, runWord, hb, ← hu]
  rfl

/-! ## SADDR (R171) -/

theorem pow2_eq (n : Nat) : pow2 n = 2 ^ n := Nat.one_shiftLeft n

/-- SH, the bits of SADDR's MOD above its type. -/
theorem bitsAt_mod_shift (m : BitVec 12) : bitsAt m 6 6 = m.toNat / 64 := by
  have := m.isLt
  simp only [bitsAt, BitVec.extractLsb'_toNat, Nat.shiftRight_eq_div_pow]
  omega

theorem bitsAt_mod_type (m : BitVec 12) : bitsAt m 0 6 = m.toNat % 64 := by
  simp [bitsAt, BitVec.extractLsb'_toNat]

/-- Q3 of SADDR says that the exact sum leaves 64 bits or that the sum has a bit above bit 55. -/
theorem addrOverflow_iff (x : Nat) :
    addrOverflow x = true ↔ 2 ^ 64 ≤ x ∨ (BitVec.ofNat 64 x).extractLsb' 56 8 ≠ 0 := by
  have htop : (BitVec.ofNat 64 x).extractLsb' 56 8 ≠ 0 ↔ 2 ^ 56 ≤ x % 2 ^ 64 := by
    rw [Ne, ← BitVec.toNat_inj, BitVec.extractLsb'_toNat, BitVec.toNat_ofNat, Nat.shiftRight_eq_div_pow]
    change ¬ x % 2 ^ 64 / 2 ^ 56 % 2 ^ 8 = 0 ↔ _
    have hlt : x % 2 ^ 64 < 2 ^ 64 := Nat.mod_lt _ (by decide)
    generalize x % 2 ^ 64 = y at hlt ⊢
    omega
  rw [htop]
  simp only [addrOverflow, pow2_eq, Bool.or_eq_true, decide_eq_true_eq]

/-- The exact sum that SADDR checks. -/
def saddrSum (w : WordG) (c : Iss) : Nat := s64 c w.a + s64 c w.b * pow2 (bitsAt w.mod 6 6) + s64 c w.c

theorem exec_saddr (w : WordG) (s : State) : exec (.saddr w) s =
    regWord (.saddr w) (fun c g => (g.writeS (w.d.toNat - 192) (BitVec.ofNat 64 (saddrSum w c))).writeQ 3
      (addrOverflow (saddrSum w c))) s := rfl

theorem saddr_raisesEncoding {w : WordG} (h : w.mod.toNat % 64 ≠ 7 ∨ 16 < w.mod.toNat / 64) :
    RaisesEncoding (.saddr w) := by
  refine raisesEncoding_of_illegal _ (exec_saddr w) rfl (fun x => anyWordLegal_of_modOk ?_ x)
  rw [← bitsAt_mod_type, ← bitsAt_mod_shift] at h
  rcases h with h | h
  · simp [uniG, h]
  · simp [uniG, Nat.not_le.mpr h]

/-- Settles O3: SADDR writes its S register and Q3 alone, and its check of MOD raises. -/
theorem saddrChecksItsSum : Obligations.SaddrChecksItsSum := by
  unfold Obligations.SaddrChecksItsSum
  refine ⟨fun w s b hd hb => ?_, fun w h => saddr_raisesEncoding h⟩
  obtain ⟨t, g', hran, hkeep, hv, hsat, hS, hQ⟩ := ran_writeSQ (exec_saddr w s) hb
  refine ⟨t, g', hran, hkeep, hv, hsat, ?_⟩
  have hsum : saddrSum w b.c = (fieldS b.c.g w.a).toNat + (fieldS b.c.g w.b).toNat * 2 ^ (w.mod.toNat / 64) +
      (fieldS b.c.g w.c).toNat := by
    rw [saddrSum, pow2_eq, bitsAt_mod_shift]; rfl
  dsimp only
  rw [← hsum]
  have hn : w.d.toNat - 192 < 64 := by have := w.d.isLt; omega
  exact ⟨hS hn, by rw [hQ (by decide), addrOverflow_iff]⟩

end Sys2Proof.Machine

/-!
Words that write a V register and a predicate, VADDCY (R184) and SHFL (R198).
-/
namespace Sys2Proof.Machine

/-! ## Lanes of masks and predicates (R73, R108) -/

theorem has_maskOne {k l : Nat} (hl : l < 32) : (Mask.one k).has l = decide (k = l) := by
  have h : (Mask.one k).has l = (2 ^ k).testBit l := by
    rw [Mask.one, Mask.has, BitVec.getLsbD_ofNat, Nat.one_shiftLeft, decide_eq_true hl, Bool.true_and]
  rw [h, Nat.testBit_two_pow]

/-- Lanes are gathered one after another: a lane is in the mask from the start, or it is one of those that pass. -/
theorem has_foldl_one (f : Nat → Bool) {l : Nat} (hl : l < 32) (ks : List Nat) (m : Mask) :
    Mask.has (ks.foldl (fun m k => if f k then m ||| Mask.one k else m) m) l = (m.has l || (ks.contains l && f l)) := by
  induction ks generalizing m with
  | nil => simp
  | cons k ks ih =>
    have hstep : Mask.has (if f k then m ||| Mask.one k else m) l = (m.has l || (f l && decide (k = l))) := by
      by_cases hk : f k = true
      · have hor : Mask.has (m ||| Mask.one k) l = (m.has l || (Mask.one k).has l) := BitVec.getLsbD_or
        rw [if_pos hk, hor, has_maskOne hl]
        by_cases e : k = l
        · subst e; simp [hk]
        · simp [e]
      · rw [if_neg hk]
        by_cases e : k = l
        · subst e; simp [hk]
        · simp [e]
    rw [List.foldl_cons, ih, hstep, List.contains_cons]
    by_cases e : k = l
    · subst e; cases f k <;> simp
    · simp [e, beq_eq_false_iff_ne.mpr (Ne.symm e)]

@[simp] theorem has_ofFn (f : Nat → Bool) {l : Nat} (hl : l < 32) : (Mask.ofFn f).has l = f l := by
  unfold Mask.ofFn
  rw [has_foldl_one f hl]
  simp [Mask.has, laneSlots, hl]

/-- A write of a predicate takes its bits in the lanes of the mask and keeps the others (R108). -/
theorem writeP_has (g : Group) (mask : Mask) {n : Nat} (x : Mask) (hn : n < 12) {l : Nat} (hl : l < 32) :
    ((g.writeP mask n x).pReg n).has l = if mask.has l then x.has l else (g.pReg n).has l := by
  have hreg : (g.writeP mask n x).pReg n = (g.pReg n &&& ~~~mask) ||| (x &&& mask) := vget_vset_eq _ _ _ _ hn
  have hbit : ((g.writeP mask n x).pReg n).has l = ((g.pReg n).has l && !mask.has l || x.has l && mask.has l) := by
    simp [hreg, Mask.has, hl]
  rw [hbit]
  cases mask.has l <;> simp

theorem writeP_pReg_ne (g : Group) (mask : Mask) {n k : Nat} (x : Mask) (h : k ≠ n) :
    (g.writeP mask n x).pReg k = g.pReg k :=
  vget_vset_ne _ _ _ _ _ h

/-! ## What a V register holds of an integer result (R124) -/

theorem ofNat_wrapNat {w n : Nat} (h : w ≤ n) (x : Int) : BitVec.ofNat w (wrapNat n x) = BitVec.ofInt w x := by
  have hne : ((2 ^ n : Nat) : Int) ≠ 0 := by
    have := Nat.two_pow_pos n
    omega
  rw [← BitVec.ofInt_natCast, wrapNat, pow2_eq, Int.toNat_of_nonneg (Int.emod_nonneg _ hne)]
  apply BitVec.eq_of_toNat_eq
  rw [BitVec.toNat_ofInt, BitVec.toNat_ofInt, Int.emod_emod_of_dvd]
  exact Int.natCast_dvd_natCast.mpr (Nat.pow_dvd_pow 2 h)

/-- Reading as a type keeps the low bits, whether they are signed or not. -/
theorem ofInt_readTy {t : Ty} {w : Nat} (h : tyWidth t = w) (x : Nat) :
    BitVec.ofInt w (readTy t x) = BitVec.ofNat w x := by
  have hmod : BitVec.ofInt w ((x % pow2 w : Nat) : Int) = BitVec.ofNat w x := by
    rw [BitVec.ofInt_natCast, pow2_eq]
    exact BitVec.eq_of_toNat_eq (by simp)
  have hsub : BitVec.ofInt w (((x % pow2 w : Nat) : Int) - (pow2 w : Nat)) = BitVec.ofNat w x := by
    rw [← hmod, pow2_eq]
    exact BitVec.eq_of_toNat_eq (by rw [BitVec.toNat_ofInt, BitVec.toNat_ofInt, Int.sub_emod_right])
  unfold readTy
  rw [h]
  dsimp only
  split
  · split
    · exact hsub
    · exact hmod
  · exact hmod

/-- A result of a 32-bit type fills its register modulo 2^32. -/
theorem sliceOf_width32 {t : Ty} (h : tyWidth t = 32) (x : Int) (second : Bool) :
    sliceOf t x second = BitVec.ofInt 32 x := by
  have h64 : ¬ tyWidth t = 64 := by omega
  rw [sliceOf, if_neg h64, extendTy, ofNat_wrapNat (Nat.le_refl 32), ofInt_readTy h, h, ofNat_wrapNat (Nat.le_refl 32)]

/-- The first register of a pair holds the low 32 bits of a 64-bit result. -/
theorem sliceOf_width64_low {t : Ty} (h : tyWidth t = 64) (x : Int) : sliceOf t x false = BitVec.ofInt 32 x := by
  rw [sliceOf, if_pos h, if_neg Bool.false_ne_true, ofNat_wrapNat (Nat.le_refl 32)]

/-- The second register of a pair holds the high 32 bits of a 64-bit result. -/
theorem sliceOf_width64_high {t : Ty} (h : tyWidth t = 64) (x : Nat) :
    sliceOf t x true = BitVec.ofNat 32 (x / 2 ^ 32) := by
  have hx : wrapNat 64 (x : Int) = x % 2 ^ 64 := by
    rw [wrapNat, pow2_eq, ← Int.natCast_emod, Int.toNat_natCast]
  rw [sliceOf, if_pos h, if_pos rfl, hx]
  apply BitVec.eq_of_toNat_eq
  rw [BitVec.toNat_ofNat, BitVec.toNat_ofNat]
  omega

/-! ## Legal words (R70) -/

/-- A word that starts has passed the checks of its fields. -/
theorem starts_legal {i : Instr} {s : State} {b : Start} {t : WordSpec} {opc : Nat} {w : AnyWord} (h : Starts i s b)
    (hs : wordSpec i = some t) (hp : parts i = some (opc, w)) : anyWordLegal t w = true := by
  obtain ⟨g, run, p, cl, t0, w0, -, hs0, hp0, hcheck, -⟩ := starts_cases h
  obtain rfl : t = t0 := Option.some.inj (hs.symm.trans hs0)
  obtain rfl : w = w0 := (Prod.mk.inj (Option.some.inj (hp.symm.trans hp0))).2
  unfold checkWord at hcheck
  cases hl : anyWordLegal t w with
  | true => rfl
  | false =>
    rw [hl] at hcheck
    split at hcheck <;> cases hcheck

theorem anyWordLegal_g {t : WordSpec} {w : WordG} (h : anyWordLegal t (.g w) = true) :
    t.modOk = true ∧ opdLegal t.d w.d = true ∧ opdLegal t.c w.c = true := by
  simp only [anyWordLegal, Bool.and_eq_true] at h
  simp only [h, and_self]

/-- A word whose fields are not legal ends at issue with ILLEGAL_ENCODING, where its class admits it. -/
theorem beginWord_illegal {i : Instr} {s : State} {g : Group} {run : Mask} {p : LanePC} {cl : Clause} {t : WordSpec}
    {opc : Nat} {w : AnyWord} (hat : wordAtIssue s = some (g, run, p, cl)) (hs : wordSpec i = some t)
    (hp : parts i = some (opc, w)) (ha : admits cl.header.ecls opc = true)
    (ht : isTransfer opc = true → p.idx = cl.header.cnt.toNat + 1) (hl : anyWordLegal t w = false) :
    beginWord i s =
      .ended (trapAt s g (p.hdr + 8 * p.idx) s.mach.nextId causeEncoding run (encodeParts opc w)) := by
  unfold beginWord
  rw [hat, hs, hp]
  dsimp only
  rw [checkWord_illegal ha ht hl]
  rfl

/-- An instruction whose own fields are not legal raises ILLEGAL_ENCODING wherever it stands. -/
theorem raisesEncoding_of_illegalWord {i : Instr} {t : WordSpec} {opc : Nat} {w : AnyWord} (body : State → Iss → M Flow)
    (he : ∀ s, exec i s = runWord i (body s) s) (hs : wordSpec i = some t) (hp : parts i = some (opc, w))
    (hl : anyWordLegal t w = false) : RaisesEncoding i := by
  intro s g run p cl opc' w' hat hp' ha ht
  obtain ⟨rfl, rfl⟩ := Prod.mk.inj (Option.some.inj (hp.symm.trans hp'))
  have hg := (wordAtIssue_group hat).1
  rw [← group_gid hg] at hg
  obtain ⟨u, g', tr, hu, hdev, hmem, hg', hraised, hcause, hkind, hmask, hoff, -, hsans⟩ :=
    trapKindAt_raises (p.hdr + 8 * p.idx) s.mach.nextId .w run (encodeParts opc w) hg (wordAtIssue_notRetired hat)
      (show causeEncoding ≠ causePromiseMissed by decide)
  refine ⟨u, g', tr, ?_, hdev, hmem, hg', hraised, hcause, hkind, hmask, hoff, lanes_regs_of_sansTrap hsans⟩
  rw [he, runWord, beginWord_illegal hat hs hp ha ht hl, ← hu]
  rfl

/-! ## Legal MOD values (R65) -/

theorem mSat_iff (m : BitVec 12) : mSat m = true ↔ m.toNat / 256 % 2 = 1 := by
  simp [mSat, BitVec.getLsbD, Nat.testBit_eq_decide_div_mod_eq]

theorem mOpx_eq (m : BitVec 12) : mOpx m = m.toNat / 64 % 4 := by
  simp [mOpx, bitsAt, BitVec.extractLsb'_toNat, Nat.shiftRight_eq_div_pow]

theorem mRnd_eq (m : BitVec 12) : mRnd m = m.toNat / 512 := by
  have := m.isLt
  simp only [mRnd, bitsAt, BitVec.extractLsb'_toNat, Nat.shiftRight_eq_div_pow]
  omega

theorem mTy_eq (m : BitVec 12) : mTy m = tyOfCode (m.toNat % 64) := by rw [mTy, bitsAt_mod_type]

/-- A legal MOD of a word without rounding and saturation has RND and SAT 0, an OPX and a type that the word takes. -/
theorem modG_plain {m : BitVec 12} {opx : List Nat} {ty : Ty → Bool} (h : modG m false false opx ty = true) :
    m.toNat / 256 = 0 ∧ mOpx m ∈ opx ∧ ∃ t, tyOfCode (m.toNat % 64) = some t ∧ ty t = true := by
  simp only [modG, Bool.and_eq_true, Bool.false_eq_true, if_false, beq_iff_eq, Bool.false_or, Bool.not_eq_true',
    List.contains_iff_mem] at h
  obtain ⟨⟨⟨hrnd, hsat⟩, hopx⟩, hty⟩ := h
  rw [mRnd_eq] at hrnd
  have hs : ¬ m.toNat / 256 % 2 = 1 := by rw [← mSat_iff, hsat]; decide
  refine ⟨by omega, hopx, ?_⟩
  rw [mTy_eq] at hty
  split at hty
  · exact ⟨_, ‹_›, hty⟩
  · cases hty

/-! ## A word that writes a V register and bits of a predicate -/

/-- A write of V register `j` in the lanes of Lanes(run), after the dead registers have gone (R108, R116). -/
theorem wroteV_of_writeV {i : Instr} {b : Start} {g' : Group} {t : WordSpec} {w : AnyWord} {free j : Nat} {x : Nat → Nat}
    (hs : wordSpec i = some t) (hp : parts i = some (b.opc, w))
    (hv : g'.v = ((b.g.kill (deadRegs b.g b.c.run t w)).writeV free b.c.lanes j x).v) :
    KeepsV i b g' [b.g.base + j] ∧ WroteV i b g' [b.g.base + j] ∧
      ∀ l < 32, b.c.lanes.has l = true →
        ∃ y, g'.vStored (b.g.base + j) = some y ∧ vget y l 0 = BitVec.ofNat 32 (x l) := by
  have hdead : ∀ h, (b.g.kill (deadRegs b.g b.c.run t w)).vStored h =
      if h ∈ deadPlaces i b then none else b.g.vStored h := fun h => by
    rw [deadPlaces_eq hs hp]; exact vStored_kill _ _ _
  have hstored := fun h => (vStored_congr hv h).trans (vStored_writeV _ free b.c.lanes j x h)
  rw [kill_base] at hstored
  have hnew := (hstored (b.g.base + j)).trans (if_pos rfl)
  refine ⟨fun h hh => ?_, fun h hh => ?_, fun l hl hm => ⟨_, hnew, ?_⟩⟩
  · rw [hstored, if_neg (by simpa using hh), hdead]
  · obtain rfl : h = b.g.base + j := by simpa using hh
    refine ⟨_, hnew, fun y hy hn l hl hm => ?_⟩
    rw [vget_ofFn _ _ _ hl, vRead_of_stored (by rw [hdead, if_neg hn, hy])]
    simp [hm, vget, hl]
  · rw [vget_ofFn _ _ _ hl]
    simp [hm]

/-- A word that writes a V register and bits of a predicate in the lanes of Lanes(run). -/
theorem ran_writeVP {i : Instr} {s : State} {b : Start} {j n : Nat} {x : Iss → Nat → Nat} {f : Iss → Nat → Bool}
    (he : exec i s = regWord i
      (fun c g => (g.writeV c.free c.lanes j (x c)).writeP c.lanes n (Mask.ofFn (f c))) s)
    (h : Starts i s b) :
    ∃ t g', RanInGroup i s b g' t ∧ KeepsSPQ b g' [] [n] [] ∧ KeepsV i b g' [b.g.base + j] ∧
      WroteV i b g' [b.g.base + j] ∧ g'.satf = b.g.satf ∧
      (∀ l < 32, b.c.lanes.has l = true →
        ∃ y, g'.vStored (b.g.base + j) = some y ∧ vget y l 0 = BitVec.ofNat 32 (x b.c l)) ∧
      (n < 12 → ∀ l < 32, (g'.pReg n).has l = if b.c.lanes.has l then f b.c l else (b.g.pReg n).has l) := by
  obtain ⟨t, g', t0, w, hran, hs, hp, e⟩ := ranInGroup_of_regWord he h (fun _ => rfl)
    (fun g => (writeP_beside _ _ n _).trans (writeV_beside g _ _ j _)) (fun _ => rfl)
  dsimp only at e
  obtain ⟨hv, es, ep, eq, esat, -⟩ := e
  obtain ⟨ks, kp, kq, ksat⟩ := kill_regs b.g (deadRegs b.g b.c.run t0 w)
  obtain ⟨hkeeps, hwrote, hlanes⟩ := wroteV_of_writeV hs hp hv
  have hkill : ∀ k, ((b.g.kill (deadRegs b.g b.c.run t0 w)).writeV b.c.free b.c.lanes j (x b.c)).pReg k = b.g.pReg k :=
    fun k => congrArg (fun v => vget v k 0) kp
  have hpReg := fun k => congrArg (fun v => vget v k 0) ep
  refine ⟨t, g', hran, ⟨?_, ?_, ?_⟩, hkeeps, hwrote, esat.trans ksat, hlanes, ?_⟩
  · exact fun k _ => congrArg (fun v => vget v k 0) (es.trans ks)
  · exact fun k hk => (hpReg k).trans ((writeP_pReg_ne _ _ _ (by simpa using hk)).trans (hkill k))
  · exact fun k _ => congrArg (fun v => vget v k false) (eq.trans kq)
  · intro hn l hl
    have hbits := congrArg (fun m => Mask.has m l) (hpReg n)
    refine hbits.trans ((writeP_has _ _ _ hn hl).trans ?_)
    rw [has_ofFn _ hl, hkill]

/-! ## VADDCY (R184) -/

/-- The exact sum or difference of a lane of VADDCY, with its carry in. -/
def addcyExact (w : WordG) (c : Iss) (l : Nat) : Int :=
  if mBit w.mod 6 then (src32 c c.g w.a l : Int) - src32 c c.g w.b l - ((c.g.pReg w.c.toNat).has l).toNat
  else (src32 c c.g w.a l : Int) + src32 c c.g w.b l + ((c.g.pReg w.c.toNat).has l).toNat

/-- The result and carry out of a lane of VADDCY, as the model computes them. -/
def addcyLane (w : WordG) (c : Iss) (l : Nat) : Nat × Bool :=
  addCarry (mBit w.mod 6) (src32 c c.g w.a l) (src32 c c.g w.b l) ((c.g.pReg w.c.toNat).has l)

theorem addcyLane_eq (w : WordG) (c : Iss) (l : Nat) :
    addcyLane w c l = (wrapNat 32 (addcyExact w c l),
      if mBit w.mod 6 then decide (addcyExact w c l < 0) else decide (4294967296 ≤ addcyExact w c l)) := by
  unfold addcyLane addcyExact addCarry
  cases (c.g.pReg w.c.toNat).has l <;> cases mBit w.mod 6 <;> rfl

theorem exec_vaddcy (w : WordG) (s : State) : exec (.vaddcy w) s =
    regWord (.vaddcy w) (fun c g =>
      (g.writeV c.free c.lanes w.d.toNat (fun l => extendTy (.nat 32) 32 (addcyLane w c l).1)).writeP
        c.lanes w.c.toNat (Mask.ofFn (fun l => (addcyLane w c l).2))) s := rfl

theorem extendTy_nat32_addcy (w : WordG) (c : Iss) (l : Nat) :
    BitVec.ofNat 32 (extendTy (.nat 32) 32 (addcyLane w c l).1) = BitVec.ofInt 32 (addcyExact w c l) := by
  have hslice := sliceOf_width32 (t := .nat 32) rfl (addcyLane w c l).1 false
  refine hslice.trans ?_
  rw [addcyLane_eq, BitVec.ofInt_natCast, ofNat_wrapNat (Nat.le_refl 32)]

theorem addcyLane_carry (w : WordG) (c : Iss) (l : Nat) :
    (addcyLane w c l).2 = true ↔ if mBit w.mod 6 then addcyExact w c l < 0 else 2 ^ 32 ≤ addcyExact w c l := by
  rw [addcyLane_eq]
  cases mBit w.mod 6 <;> simp

theorem tyOfCode_nat32 : ∀ c < 64, tyOfCode c = some (.nat 32) → c = 6 := by decide

theorem vaddcy_raisesEncoding {w : WordG} (h : w.mod.toNat % 64 ≠ 6 ∨ 12 ≤ w.c.toNat ∨ w.mod.toNat / 128 ≠ 0) :
    RaisesEncoding (.vaddcy w) := by
  refine raisesEncoding_of_illegalWord _ (exec_vaddcy w) rfl rfl ?_
  refine Bool.eq_false_iff.mpr fun hl => ?_
  obtain ⟨hmod, -, hc⟩ := anyWordLegal_g hl
  obtain ⟨hlow, hopx, t, ht, hty⟩ := modG_plain hmod
  obtain rfl : t = .nat 32 := eq_of_beq hty
  have htype := tyOfCode_nat32 _ (Nat.mod_lt _ (by decide)) ht
  have hop : mOpx w.mod = 0 ∨ mOpx w.mod = 1 := by simpa using hopx
  rw [mOpx_eq] at hop
  have hp : w.c.toNat < 12 := of_decide_eq_true hc
  omega

/-- Settles O7: each lane of Lanes(run) gets its sum and its carry out, by the rule for a word that writes a V register
and a predicate; an illegal type, C or MOD raises. -/
theorem vaddcyCarriesByLane : Obligations.VaddcyCarriesByLane := by
  unfold Obligations.VaddcyCarriesByLane
  refine ⟨fun w s b hc hb => ?_, fun w h => vaddcy_raisesEncoding h⟩
  obtain ⟨t, g', hran, hspq, hkeeps, hwrote, hsat, hsum, hcarry⟩ := ran_writeVP (exec_vaddcy w s) hb
  refine ⟨t, g', hran, hspq, hkeeps, hwrote, hsat, fun l hl => ?_⟩
  have hbit := hcarry hc l hl
  split
  · rename_i hm
    obtain ⟨y, hy, hval⟩ := hsum l hl hm
    refine ⟨⟨y, hy, hval.trans (extendTy_nat32_addcy w b.c l)⟩, ?_⟩
    rw [hbit, if_pos hm]
    exact addcyLane_carry w b.c l
  · rename_i hm
    rw [hbit, if_neg hm]

/-! ## SHFL (R198) -/

/-- The lane that lane `l` of SHFL reads, by its OPX and the low five bits of its B. -/
def shflLane (opx l k : Nat) : Nat :=
  match opx with
  | 0 => k
  | 1 => l ^^^ k
  | _ => (l + k) % 32

theorem shflLane_eq (opx l k : Nat) :
    shflLane opx l k = if opx = 0 then k else if opx = 1 then l ^^^ k else (l + k) % 32 := by
  unfold shflLane
  split
  · rfl
  · rfl
  · rename_i h0 h1
    rw [if_neg h0, if_neg h1]

/-- What lane `l` of SHFL receives: A of the lane that it reads, or its own C. -/
def shflValue (w : WordG) (c : Iss) (l : Nat) : Nat :=
  let j := shflLane (mOpx w.mod) l (src32 c c.g w.b l % 32)
  if c.lanes.has j then srcTy c c.g (mTyD w.mod) w.a j else srcTy c c.g (mTyD w.mod) w.c l

theorem exec_shfl (w : WordG) (s : State) : exec (.shfl w) s =
    regWord (.shfl w) (fun c g =>
      setSatf (writeTy c g (mTyD w.mod) w.d (fun l => (shflValue w c l : Int))) false) s := rfl

theorem tyOfCode_b32or64 : ∀ c < 64, ∀ t, tyOfCode c = some t → b32or64 t = true → c = 10 ∨ c = 11 := by
  intro c hc t ht hty
  have key : ∀ c < 64, (tyOfCode c).any b32or64 = true → c = 10 ∨ c = 11 := by decide
  exact key c hc (by rw [ht]; exact hty)

theorem shfl_raisesEncoding {w : WordG}
    (h : mOpx w.mod = 3 ∨ (w.mod.toNat % 64 ≠ 10 ∧ w.mod.toNat % 64 ≠ 11) ∨ w.mod.toNat / 256 ≠ 0) :
    RaisesEncoding (.shfl w) := by
  refine raisesEncoding_of_illegalWord _ (exec_shfl w) rfl rfl ?_
  refine Bool.eq_false_iff.mpr fun hl => ?_
  obtain ⟨hmod, -, -⟩ := anyWordLegal_g hl
  obtain ⟨hlow, hopx, t, ht, hty⟩ := modG_plain hmod
  have htype := tyOfCode_b32or64 _ (Nat.mod_lt _ (by decide)) t ht hty
  have hop : mOpx w.mod = 0 ∨ mOpx w.mod = 1 ∨ mOpx w.mod = 2 := by simpa using hopx
  omega

/-- The pair that D of a 64-bit SHFL names ends within the V registers. -/
theorem shfl_dest_succ {w : WordG} {s : State} {b : Start} (h : Starts (.shfl w) s b) :
    (w.d + 1).toNat = w.d.toNat + 1 := by
  obtain ⟨-, hd, -⟩ := anyWordLegal_g (starts_legal h rfl rfl)
  have hlt : w.d.toNat < 192 := by
    simp only [opdLegal, Bool.and_eq_true, decide_eq_true_eq] at hd
    exact hd.1.1
  rw [BitVec.toNat_add]
  exact Nat.mod_eq_of_lt (show w.d.toNat + 1 < 2 ^ 8 by omega)

/-- Settles O8: SHFL writes the lane that its mode selects, or the fill, as a result of its type. -/
theorem shflMovesBetweenLanes : Obligations.ShflMovesBetweenLanes := by
  unfold Obligations.ShflMovesBetweenLanes
  refine ⟨fun w s b hb => ?_, fun w h => shfl_raisesEncoding h⟩
  obtain ⟨t, g', hran, -, -, -, -, hlane⟩ := ran_writeTy (exec_shfl w s) hb
  obtain ⟨hexec, -, hg', -, -⟩ := hran
  refine ⟨t, g', hexec, hg', fun l hl hm => ?_⟩
  obtain ⟨hlow, hhigh⟩ := hlane l hl hm
  intro k j
  have hj : shflLane (mOpx w.mod) l k = j := shflLane_eq _ _ _
  refine ⟨fun ht => ?_, fun ht => ?_⟩
  · have hval : shflValue w b.c l = if b.c.lanes.has j then src32 b.c b.c.g w.a j else src32 b.c b.c.g w.c l := by
      rw [← hj, shflValue, ht]; rfl
    rw [ht, sliceOf_width32 rfl, hval, BitVec.ofInt_natCast] at hlow
    exact hlow
  · intro x
    have hval : shflValue w b.c l = x := by
      rw [shflValue, ht]
      exact hj ▸ rfl
    have h64 : tyWidth (mTyD w.mod) = 64 := by rw [ht]; rfl
    rw [sliceOf_width64_low h64, hval, BitVec.ofInt_natCast] at hlow
    refine ⟨hlow, ?_⟩
    unfold LaneHolds
    rw [shfl_dest_succ hb, ← Nat.add_assoc, ← sliceOf_width64_high h64, ← hval]
    exact hhigh h64

end Sys2Proof.Machine

/-!
The host's invalidation of translations: how its writes wait, and what its completion leaves (R213, R387).
-/
namespace Sys2Proof.Machine

/-! ## Events to the host (R383) -/

theorem Device.event_evt (d : Device) (cyc : Word) {n : Nat} (hn : n < 9) : (d.event cyc n).evt.getLsbD n = true := by
  have hbit : (BitVec.ofNat 9 (pow2 n)).getLsbD n = true := by
    rw [BitVec.getLsbD_ofNat, decide_eq_true hn, pow2_eq, Nat.testBit_two_pow_self]; rfl
  rw [Device.event, BitVec.getLsbD_or, hbit, Bool.or_true]

/-! ## The fields of a TLBI write (R387) -/

theorem bitsAt_eq_div_mod {w : Nat} (x : BitVec w) (lo n : Nat) : bitsAt x lo n = x.toNat / 2 ^ lo % 2 ^ n := by
  rw [bitsAt, BitVec.extractLsb'_toNat, Nat.shiftRight_eq_div_pow]

/-- NPG, the number of pages that a TLBI write names. -/
theorem bitsAt_npg (v : Word) : bitsAt v 0 16 = v.toNat % 65536 := by
  simp [bitsAt_eq_div_mod]

/-- A TLBI write names a range of bytes when it names all, or when one of its NPG pages from VPAGE has a byte there. -/
theorem tlbiHits_iff (v : Word) (lo hi : Nat) :
    tlbiHits v lo hi = true ↔ v.getLsbD 63 = true ∨
      (lo < v.toNat / 65536 % 2 ^ 40 * 65536 + v.toNat % 65536 * 65536 ∧ v.toNat / 65536 % 2 ^ 40 * 65536 < hi) := by
  have hpage : bitsAt v 16 40 = v.toNat / 65536 % 2 ^ 40 := bitsAt_eq_div_mod v 16 40
  simp only [tlbiHits, hpage, bitsAt_npg, Bool.or_eq_true, Bool.and_eq_true, decide_eq_true_eq]

/-! ## The writes that wait (R387) -/

theorem queueTlbi_of_room {s : State} (v : Word) (h : s.dev.tlbiQueue.length ≤ 8) :
    queueTlbi v s = { s with dev := { s.dev with tlbiQueue := s.dev.tlbiQueue ++ [v], tlbiBusy := true } } :=
  if_pos (Nat.lt_succ_of_le h)

theorem queueTlbi_of_full {s : State} (v : Word) (h : 8 < s.dev.tlbiQueue.length) :
    queueTlbi v s = { s with dev := { s.dev with tlbiLost := true } } :=
  if_neg (Nat.not_lt_of_le h)

theorem exec_tlbiAll {v : Word} (s : State) (hall : v.getLsbD 63 = true) :
    exec (.tlbiAll v) s = .next (queueTlbi v s) :=
  congrArg Host.Outcome.next (if_pos hall)

theorem exec_tlbiRange {v : Word} (s : State) (hall : v.getLsbD 63 = false) (hnpg : v.toNat % 65536 ≠ 0) :
    exec (.tlbiRange v) s = .next (queueTlbi v s) := by
  have hkeep : ¬ (v.getLsbD 63 || decide (bitsAt v 0 16 = 0)) = true := by
    rw [hall, Bool.false_or, decide_eq_true_eq, bitsAt_npg]
    exact hnpg
  exact congrArg Host.Outcome.next (if_neg hkeep)

/-! ## The end of an invalidation (R213) -/

/-- An invalidation completes once no access within the pages that it names is still to be performed. -/
theorem exec_tlbInvalidationDone {s : State} {v : Word} {rest : List Word} (hq : s.dev.tlbiQueue = v :: rest)
    (hdone : ∀ p ∈ s.mach.net, p.performed = false → ¬ tlbiHits v p.va.toNat (p.va.toNat + p.len) = true) :
    exec .tlbInvalidationDone s =
      .next { dev := { s.dev with tlbiQueue := rest, tlbiBusy := !rest.isEmpty }.event s.mach.cyc 8,
              mach := { s.mach with tlb := s.mach.tlb.filter (fun t => !tlbiHits v t.vbase (t.vbase + t.size)) } } := by
  have hany : ¬ s.mach.net.any (fun p => !p.performed && tlbiHits v p.va.toNat (p.va.toNat + p.len)) = true := by
    rw [List.any_eq_true]
    rintro ⟨p, hp, hwaits⟩
    rw [Bool.and_eq_true, Bool.not_eq_true'] at hwaits
    exact hdone p hp hwaits.1 hwaits.2
  change execTlbInvalidationDone s = _
  rw [execTlbInvalidationDone, hq]
  exact if_neg hany

/-- Settles O54: a write that names something is queued or lost by the queue's length, and the completion of the oldest
one filters the leaves by what it names. -/
theorem invalidationsWaitInOrder : Obligations.InvalidationsWaitInOrder := by
  unfold Obligations.InvalidationsWaitInOrder
  intro s named
  constructor
  · intro i v hnamed
    have hexec : exec i s = .next (queueTlbi v s) := by
      rcases hnamed with ⟨rfl, hall⟩ | ⟨rfl, hall, hnpg⟩
      · exact exec_tlbiAll s hall
      · exact exec_tlbiRange s hall hnpg
    refine ⟨fun hroom => ⟨_, hexec, ?_⟩, fun hfull => ⟨_, hexec, ?_⟩⟩
    · rw [queueTlbi_of_room v hroom]
      exact ⟨rfl, rfl, rfl, rfl⟩
    · rw [queueTlbi_of_full v hfull]
      exact ⟨rfl, rfl, rfl⟩
  · intro v rest hq first hit hdone
    have hhit : ∀ lo hi, tlbiHits v lo hi = true ↔ hit lo hi := tlbiHits_iff v
    refine ⟨_, exec_tlbInvalidationDone hq (fun p hp hnot h => hdone p hp hnot ((hhit _ _).mp h)), ?_⟩
    refine ⟨by rw [Device.event_tlbiQueue], ?_, Device.event_evt _ _ (by decide), rfl, fun e => ?_⟩
    · rw [Device.event_tlbiBusy, Bool.not_eq_true', List.isEmpty_eq_false_iff]
    · rw [List.mem_filter, Bool.not_eq_true', Bool.eq_false_iff, Ne, hhit]

end Sys2Proof.Machine
